-- ==== Sys2Proof/Word.lean ====
section
/-!
DEFINITION. The machine's words and the one container the state is built from.
Spec: 00_scope.md R15-R18 (numbers, widths, lanes), 01 R16 (streams and their words).
-/
namespace Sys2Proof

/-- One byte of memory (00 R17). -/
abbrev Byte := BitVec 8
/-- A lane register value, 32 bits (04 R110). -/
abbrev Word32 := BitVec 32
/-- A scalar register value, 64 bits (04 R110). -/
abbrev Word64 := BitVec 64
/-- A lane mask: bit l stands for lane l (00 R18). -/
abbrev LaneMask := BitVec 64
/-- A formed virtual address, before the sign check of 08 R208. -/
abbrev VAddr := BitVec 64
/-- The 57 bits of a virtual address that a program counter holds (07 R188, 06 R187). -/
abbrev PC := BitVec 57
/-- A lane word, 96 bits (02 R53). -/
abbrev LaneWord := BitVec 96
/-- An access word, 32 bits (02 R69). -/
abbrev AccessWord := BitVec 32
/-- A drain word, 16 bits (02 R73). -/
abbrev DrainWord := BitVec 16

/-- A finite table: key and entry, keys strictly rising (kept so by every operation on it). -/
abbrev AMap (β : Type) := List (Nat × β)

end Sys2Proof
end

