-- ==== Sys2Proof/Syntax.lean ====
section
/-!
DEFINITION. The abstract syntax: one constructor of `Instr` per row of spec/opcode_table.json. Rows 0-129 are lane words
(02 R53, R75), rows 130-202 access words (02 R69, R76), rows 203-216 drain words (02 R73, 16 R366); the other rows are the
device's whole, indivisible events (95_what_each_step_holds.md), whose arguments are the data that the outside world supplies
or the name of the pending item that the event acts on.
-/
namespace Sys2Proof

/-- FMT codes, 02 R57 Table 3 (0x7 is reserved and has no constructor). -/
inductive Fmt where
  | s32 | n32 | s16 | n16 | s8 | n8 | b32 | f32 | f16 | bf16 | f16x2 | bf16x2 | xb8 | xb6 | xb4
deriving DecidableEq, Repr, Inhabited

/-- Scopes, 00 R24 and 02 R58 Table 4, from narrowest to widest. -/
inductive Scope where
  | split | group | core | cluster | team | die | device | ridge | partition | fabric | host | system
deriving DecidableEq, Repr, Inhabited

/-- Access kinds, 02 R59. -/
inductive Kind where
  | weak | rlx | acq | rel | ar
deriving DecidableEq, Repr, Inhabited

/-- Fence kinds, 14 R325. -/
inductive FenceKind where
  | acquire | release | full
deriving DecidableEq, Repr, Inhabited

/-- Counter classes, 19 R405. -/
inductive Cls where
  | vm | cp | mx | cl | tr
deriving DecidableEq, Repr, Inhabited

/-- Lane operand codes that name something, 02 R63 Table 6. In a predicate position code n of a V register names P n (R66).
`special n` is the special lane value of code 0x1D0 + n (01 R28). -/
inductive Operand where
  | v (n : BitVec 8) | s (n : BitVec 8) | t (n : BitVec 3) | oq (n : BitVec 2) | special (n : BitVec 4) | imm | zero
deriving DecidableEq, Repr, Inhabited

/-- The fields of a lane word other than OP, 02 R53 Table 1. -/
structure Lane where
  fmt : Fmt
  mod : BitVec 4
  neg : Bool
  gp : BitVec 3
  dst : Operand
  sa : Operand
  sb : Operand
  sc : Operand
  epa : Bool
  epb : Bool
  epc : Bool
  last : Bool
  xop : BitVec 4
  imm : BitVec 32
deriving DecidableEq, Repr, Inhabited

/-- The fields of BRA and JMPI, whose SA:SB:SC are a raw 27-bit reconvergence offset (02 R62, 07 R191). LAST is 1 and every
field not here is 0. -/
structure Jump where
  neg : Bool
  gp : BitVec 3
  dst : Operand
  rejoin : BitVec 27
  imm : BitVec 32
deriving DecidableEq, Repr, Inhabited

/-- An S register code of an access word: 0x00-0xBF, or 0xFF for none (02 R70). -/
abbrev SReg := BitVec 8

/-- Read-modify-write functions of 13 R311 Table 3 and 06 R173. -/
inductive AtomFn where
  | add32 | addF32 | addBf16x2 | minS | minN | minF | maxS | maxN | maxF | and | or | xor | xchg | cas | add64 | xchg64
deriving DecidableEq, Repr, Inhabited

/-- A launch across devices: the chip of member 0, its queue and its SEQ (01 R43). -/
structure LaunchRef where
  home : Nat
  queue : Nat
  seq : Nat
deriving DecidableEq, Repr, Inhabited

/-- What a fabric request reaches: a local physical address, or a member team's scratchpad through the ridge window (12 R296). -/
inductive RemoteTarget where
  | mem (pa : Nat)
  | ridge (launch : LaunchRef) (pos member off : Nat)
deriving DecidableEq, Repr, Inhabited

/-- What a fabric request does (13 R312): a read, a strong write, or an atomic whose lanes name one word. -/
inductive RemoteOp where
  | read (size : Nat)
  | write (bytes : List Byte)
  | rmw (fn : AtomFn) (data : List (BitVec 64 × BitVec 64))
deriving DecidableEq, Repr, Inhabited

/-- A request from or to another device (14 R334; 12 R302 for the key id). -/
structure RemoteReq where
  chip : BitVec 9
  tag : Nat
  target : RemoteTarget
  op : RemoteOp
  key : Nat
deriving DecidableEq, Repr, Inhabited

/-- How a target answers a request (13 R316; 12 R301, R302; 21 R454). -/
inductive RemoteStatus where
  | ok | departed | keyRevoked | memError | crcError
deriving DecidableEq, Repr, Inhabited

/-- Launch parameters, 01 R29 Table 2 and 18 R398 Table 3. Lists of entries are indexed by stage; 0 is none. -/
structure LaunchParams where
  x : Nat
  y : Nat
  z : Nat
  n : List Nat
  w : Nat
  hint : Nat
  scratch : Nat
  reserve : Nat
  width : Nat
  laneEntry : List (BitVec 64)
  accessEntry : List (BitVec 64)
  chips : List Nat
  args : List (BitVec 64)
  badByte : Bool
deriving DecidableEq, Repr, Inhabited

/-- What member 0's firmware sends to another member's, 01 R43. -/
structure RidgeParams where
  launch : LaunchRef
  member : Nat
  prio : Nat
  fserv : Bool
  part : Nat
  params : LaunchParams
deriving DecidableEq, Repr, Inhabited

/-- Totals of a launch or of a member's teams, 01 R51, 19 R414. -/
structure Totals where
  statusMax : Nat
  nonZero : Nat
  killed : Nat
  faults : Nat
deriving DecidableEq, Repr, Inhabited

/-- A capability of a queue context, 18 R393, R394. -/
structure Cap where
  base : Nat
  len : Nat
  tag : Bool
deriving DecidableEq, Repr, Inhabited

/-- What the host gives a queue at creation, 18 R393 Table 1. -/
structure QueueConfig where
  ring : Cap
  rlog : Nat
  prio : Nat
  priv : Bool
  part : Nat
  root : Nat
  crec : Cap
  clog : Nat
  dcap : Cap
  xcap : Cap
  ecap : Cap
  fserv : Bool
deriving DecidableEq, Repr, Inhabited

/-- A tenant policy, 21 R453 Table 2, with the outcome of its two signature checks (R452) and its reserved bits. -/
structure Policy where
  keys : BitVec 64
  priv : Bool
  perf : Bool
  debug : Bool
  trapRead : Bool
deriving DecidableEq, Repr, Inhabited

/-- A stopped split (its table entry) or the stopped access program of a group, 20 R426. -/
structure StopRef where
  gid : Nat
  entry : Option Nat
deriving DecidableEq, Repr, Inhabited

/-- Register writes of a handler, 20 R427, R429. -/
structure StateWrites where
  fpEnable : List (Nat × BitVec 5)
  fpFlags : List (Nat × BitVec 5)
  v : List (Nat × Nat × BitVec 32)
  s : List (Nat × BitVec 64)
  k : List (Nat × Bool)
deriving DecidableEq, Repr, Inhabited

/-- Handler actions, 20 R427 Table 4. `writeState` is performed with the resumption that follows it. -/
inductive HandlerAction where
  | resume | resumeAt (pc : BitVec 64) | writeState (w : StateWrites) | killLanes | killGroup
deriving DecidableEq, Repr, Inhabited

/-- The host driver's answers, 18 R396 and 20 R427. -/
inductive DriverAnswer where
  | record (rseq : Nat) (mapped : Bool)
  | notice (at' : StopRef) (action : HandlerAction)
deriving DecidableEq, Repr, Inhabited

/-- Mailbox registers with no row of their own: the pool descriptor (10 R247), the ridge root (01 R43), the scale-table base
(08 R216), the firmware's free pages for copy-on-write (18 R396), and requests for a value: a performance counter (19 R419), a
queue's status (18 R477), and the device's status (21 R445, R448, R454, R456). -/
inductive MailboxReg where
  | pool (part die kvb lmax row0 nr : Nat)
  | ridgeRoot (part root : Nat)
  | scaleBase (part base : Nat)
  | cowPages (part : Nat) (pages : List Nat)
  | perfRead (part die core ix : Nat)
  | queueStatus (q : Nat)
  | status
deriving DecidableEq, Repr, Inhabited

/-- What one other member of a collective brings to its match, 17 R384, R385. -/
structure CollPeer where
  index : Nat
  op : Nat
  bf16 : Bool
  n : Nat
  m : Nat
  chips : List Nat
  data : List (BitVec 32)
deriving DecidableEq, Repr, Inhabited

/-- What readback or patrol scrub finds (21 R454, R455). -/
inductive EccResult where
  | clean | corrected | uncorrectable (kb : Nat)
deriving DecidableEq, Repr, Inhabited

/-- Which launches a pre-emption names, 20 R433. -/
inductive PreemptSel where
  | queue (q : Nat) | partition (p : Nat)
deriving DecidableEq, Repr, Inhabited

/-- SPDM requests that the responder takes, 21 R449. -/
inductive SpdmRequest where
  | measurements | certificate | challenge | session
deriving DecidableEq, Repr, Inhabited

/-- One constructor per row of spec/opcode_table.json, in the table's order. -/
inductive Instr where
  -- lane integer, logic, predicates (05 R137-R144)
  | add (w : Lane) | sub (w : Lane) | mul (w : Lane) | mulhi (w : Lane) | mad (w : Lane) | div (w : Lane) | rem (w : Lane)
  | abs (w : Lane) | neg (w : Lane) | min (w : Lane) | max (w : Lane) | clamp (w : Lane)
  | and (w : Lane) | or (w : Lane) | xor (w : Lane) | not (w : Lane) | andn (w : Lane)
  | shl (w : Lane) | shr (w : Lane) | rot (w : Lane) | bfx (w : Lane) | bfi (w : Lane)
  | popc (w : Lane) | clz (w : Lane) | ctz (w : Lane) | brev (w : Lane) | bperm (w : Lane)
  | cmp (w : Lane) | pand (w : Lane) | por (w : Lane) | pxor (w : Lane) | pnot (w : Lane) | sel (w : Lane)
  | pget (w : Lane) | pset (w : Lane)
  -- lane floating point (05 R145-R153)
  | addFloat (w : Lane) | subFloat (w : Lane) | mulFloat (w : Lane) | fma (w : Lane) | divFloat (w : Lane)
  | sqrt (w : Lane) | rsqrt (w : Lane) | rcp (w : Lane) | minFloat (w : Lane) | maxFloat (w : Lane)
  | absFloat (w : Lane) | negFloat (w : Lane) | cmpFloat (w : Lane) | classFloat (w : Lane) | rint (w : Lane)
  | copysign (w : Lane) | exp2 (w : Lane) | log2 (w : Lane) | sin (w : Lane) | cos (w : Lane) | tanh (w : Lane)
  | sigmoid (w : Lane) | gelu (w : Lane) | dot2 (w : Lane) | clampFloat (w : Lane)
  -- conversion, moves, cross-lane (05 R154-R163), fullness and special registers (04 R112, R127)
  | cvt (w : Lane) | mov (w : Lane) | packB32 (w : Lane) | packFloat (w : Lane) | unpackB32 (w : Lane)
  | unpackFloat (w : Lane) | shfl (w : Lane) | vballotS (w : Lane) | vballotV (w : Lane) | vmatch (w : Lane)
  | vreduce (w : Lane) | vscan (w : Lane) | vtosB32 (w : Lane) | vtosN32 (w : Lane) | vtosS32 (w : Lane)
  | stov (w : Lane) | empty (w : Lane) | fill (w : Lane) | srd (w : Lane) | swr (w : Lane)
  -- lane memory (13)
  | ld (w : Lane) | st (w : Lane)
  | atomAdd (w : Lane) | atomMin (w : Lane) | atomMax (w : Lane) | atomAnd (w : Lane) | atomOr (w : Lane)
  | atomXor (w : Lane) | atomXchg (w : Lane) | atomCas (w : Lane)
  | redAdd (w : Lane) | redMin (w : Lane) | redMax (w : Lane) | redAnd (w : Lane) | redOr (w : Lane) | redXor (w : Lane)
  -- control (07)
  | bra (j : Jump) | jmpi (j : Jump) | call (w : Lane) | calli (w : Lane) | ret (w : Lane) | brk (w : Lane)
  | exit (w : Lane) | trap (w : Lane) | bkpt (w : Lane) | nop (w : Lane)
  -- matrix and draw (15, 11)
  | mldb (w : Lane) | mma (w : Lane) | mdrn (w : Lane) | mzero (w : Lane) | mdrawCl (w : Lane) | mdrawTok (w : Lane)
  -- trees, masks, key-value slots (09, 10, 11)
  | trnew (w : Lane) | tradd (w : Lane) | trfork (w : Lane) | trpruneBr (w : Lane) | trpruneSub (w : Lane)
  | trcommit (w : Lane) | trinfo (w : Lane) | trtag (w : Lane) | amask (w : Lane) | gmask (w : Lane)
  | kvslotRd (w : Lane) | kvslotOwn (w : Lane)
  -- system (14, 19, 12)
  | fence (w : Lane) | waitc (w : Lane) | barSync (w : Lane) | barArrive (w : Lane) | barWait (w : Lane)
  | ridgeDetach (w : Lane)
  -- access words (06 R168-R172)
  | accessAdd (d a b : SReg) | accessSub (d a b : SReg) | accessMul (d a b : SReg) | accessMulhi (d a b : SReg)
  | accessAnd (d a b : SReg) | accessOr (d a b : SReg) | accessXor (d a b : SReg) | accessAndn (d a b : SReg)
  | accessShl (d a b : SReg) | accessShr (d a b : SReg) | sar (d a b : SReg) | accessRot (d a b : SReg)
  | accessMin (d a b : SReg) | accessMax (d a b : SReg) | minu (d a b : SReg) | maxu (d a b : SReg)
  | accessDiv (d a b : SReg) | accessRem (d a b : SReg) | divu (d a b : SReg) | remu (d a b : SReg)
  | addi (d a : SReg) (i : BitVec 10) | andi (d a : SReg) (i : BitVec 10) | ori (d a : SReg) (i : BitVec 10)
  | xori (d a : SReg) (i : BitVec 10) | shli (d a : SReg) (i : BitVec 10) | shri (d a : SReg) (i : BitVec 10)
  | sari (d a : SReg) (i : BitVec 10) | movi (d : SReg) (i : BitVec 18) | exti (d : SReg) (i : BitVec 18)
  | accessCmp (c : BitVec 2) (d a b : SReg) | kand (d a b : SReg) | kor (d a b : SReg) | kxor (d a b : SReg)
  | kandn (d a b : SReg)
  -- access memory, control (06 R173-R179)
  | ld64 (d a : SReg) (i : BitVec 10) | ld32 (d a : SReg) (i : BitVec 10) | st64 (d a : SReg) (i : BitVec 10)
  | st32 (d a : SReg) (i : BitVec 10)
  | lds (d a : SReg) (k : BitVec 2) (s : Scope) (i : BitVec 4) | sts (d a : SReg) (k : BitVec 2) (s : Scope) (i : BitVec 4)
  | aadd (d a : SReg) (k : BitVec 2) (s : Scope) (i : BitVec 4)
  | axchg (d a : SReg) (k : BitVec 2) (s : Scope) (i : BitVec 4)
  | br (k : BitVec 2) (n : Bool) (o : BitVec 23) | calla (k : BitVec 2) (n : Bool) (o : BitVec 23)
  | jr (a : SReg) | jrl (a : SReg) | halt
  -- engine commands (06 R183)
  | agset (z q x : BitVec 2) (a : SReg) | aggo (t : SReg) (x : BitVec 2) | aghalt (x : BitVec 2)
  | qputRegister (q : BitVec 2) (a : SReg) | qputMemory (q : BitVec 2) (a : SReg) | cpnd (t a : SReg)
  | collAllReduce (t a : SReg) (bf16 : Bool) | collReduceScatter (t a : SReg) (bf16 : Bool)
  | collAllGather (t a : SReg) (bf16 : Bool) | txtok (t : SReg) (priv : Bool) (a : SReg) | txdet (t a : SReg)
  | txload (t a : SReg) | dload (t : SReg) (slot : BitVec 6) (a : SReg) | mbpost (t a : SReg)
  -- access synchronisation and system (14 R326, 19 R406, R409, 06 R180-R182)
  | accessFence (k : FenceKind) (s : Scope) | accessWaitc (n : BitVec 6) (c : Cls) | accessBarSync (k : BitVec 5) (a : SReg)
  | accessBarArrive (k : BitVec 5) (a : SReg) | accessBarWait (k : BitVec 5) | accessSrd (d : SReg) (n : BitVec 6)
  | accessSwr (d : SReg) (n : BitVec 6) | sete (d : SReg) | setf (d : SReg) | accessNop | accessTrap (c : BitVec 10)
  | accessBkpt (c : BitVec 10)
  -- drain words (16 R366)
  | drainEnd | drainAdd (d : BitVec 2) (a b : BitVec 3) | drainMul (d : BitVec 2) (a b : BitVec 3)
  | drainMad (d : BitVec 2) (a b : BitVec 3) | drainMax (d : BitVec 2) (a b : BitVec 3)
  | drainMin (d : BitVec 2) (a b : BitVec 3) | drainClamp (d : BitVec 2) (a b : BitVec 3)
  | drainRelu (d : BitVec 2) (a : BitVec 3) | drainFn (d : BitVec 2) (a f : BitVec 3)
  | drainSel (d : BitVec 2) (a b f : BitVec 3) | drainConst (d : BitVec 2) (f : BitVec 3)
  | drainMov (d : BitVec 2) (a : BitVec 3) | drainStore (s : BitVec 1) (a f : BitVec 3)
  | drainStoreb (s : BitVec 1) (a f : BitVec 3)
  -- front end (18)
  | doorbell (q : Nat) (widx : BitVec 32) | packetNop (q : Nat) | dispatch (q : Nat) | prologue (q : Nat)
  | prologuePass (q : Nat) | cmaintWritebackInvalidate (q : Nat) | cmaintWriteback (q : Nat) | cmaintTranslation (q : Nat)
  | cmaintFetchInvalidate (q : Nat) | cmaintFlipToHost (q : Nat) | cmaintFlipToDevice (q : Nat) | cmaintUnpin (q : Nat)
  | waitev (q : Nat) | waitevReread (q : Nat) | signalWrite (q : Nat) | signalAdd (q : Nat) | signalRelease (q : Nat)
  -- placement, retirement, ridge (01, 12)
  | teamPlacement (launch die : Nat) (cores : List Nat) | opChangeSettled (die : Nat) | groupRetire (gid : Nat)
  | completionRecordWrite (launch : Nat) | ridgeLaunchParameters (p : RidgeParams)
  | ridgeMemberTotals (launch member : Nat) (t : Totals) | ridgeDetachNotice (launch pos member : Nat)
  | ridgeDeparture (launch pos member : Nat) | ridgeDepartureAck (launch pos member : Nat)
  -- runs and windows (01, 04, 07)
  | runEntry (gid entry : Nat) | runCompletion (gid entry : Nat) | awaitSatisfied (gid entry : Nat)
  | joinFill (gid slot : Nat) | windowSlide (gid entry : Nat) | slideFillsLanded (gid entry : Nat)
  | loadCompletion (gid op lane : Nat)
  -- tree and page units (09, 10)
  | treeOperationArrival (op : Nat) | treeReply (op : Nat) | cancelBroadcast (b die core : Nat)
  | cancelAck (b die core : Nat) | releaseBroadcast (b die core : Nat) | releaseAck (b die core : Nat)
  | compactionMove (die slot : Nat) | compactionSwitch (die slot : Nat)
  -- fabric and host edges (12, 21, 08)
  | wcAgeDrain (die core line : Nat) | wcDrainArrival (src : BitVec 9) (target : RemoteTarget) (key : Nat) (bytes : List Byte)
      (mask : BitVec 64) (crc : BitVec 32)
  | remoteRequest (r : RemoteReq) | remoteResponse (id : Nat) (status : RemoteStatus) (bytes : List Byte)
  | flitReceive (port ch : Nat) (ok : Bool) | flowStop (port ch : Nat) | flowGo (port ch : Nat) | portDown (port : Nat)
  | cxlMemRead (fn addr : Nat) | cxlMemWrite (fn addr : Nat) (bytes : List Byte) | biasLineAction (page : Nat)
  | backInvalidateResponse (page : Nat) (data : Option (List Byte))
  -- faults and handlers (17, 18, 20)
  | faultRecordPush | faultRecordTake | faultServiceResume (rseq : Nat) | faultDecline (rseq : Nat)
  | driverAnswer (a : DriverAnswer) | trapNotice | handlerResume (at' : StopRef) | handlerResumeAt (at' : StopRef) (pc : BitVec 64)
  | handlerWriteState (at' : StopRef) (w : StateWrites) | handlerKillLanes (at' : StopRef) | handlerKillGroup (at' : StopRef)
  | hangDetected (gid : Nat) | preemptRequest (sel : PreemptSel) | teamSave (tid : Nat)
  | teamResume (tid die : Nat) (cores : List Nat) | gstopWrite (gid : Nat) (bit : Bool)
  -- management (18, 21)
  | queueCreate (q : Nat) (c : QueueConfig) | queueRestart (q : Nat) | permittedSetWrite (die : Nat) (set : BitVec 8)
  | tenantPolicyLoad (part : Nat) (p : Policy) (ecdsa lms : Bool) | firmwareLoad (version : Nat) (ecdsa lms : Bool)
  | keyDelivery (part : Nat) | keyRevoke (part : Nat) | hlogWrite (part v : Nat) | plimWrite (die watts : Nat)
  | perfSelectWrite (part die core ix sel : Nat) | mailboxRegisterWrite (fn : Nat) (r : MailboxReg)
  | powerStatePs0 | powerStatePs1 | powerStatePs2 | powerStatePs3 | spdmRequest (fn : Nat) (r : SpdmRequest)
  | lockInterface (v : Nat) | startInterface (v : Nat) | stopInterface (v : Nat) | ideFailure (v : Nat) | flr (v : Nat)
  | perstRelease | summitComplete (ok : Bool) (ports : BitVec 32) | powerAlarmRaise (die power temp : Nat)
  | powerAlarmClear (die power temp : Nat) | thermtrip (temp : Nat)
  | macroReadback (die core quarter mac col : Nat) (r : EccResult) | patrolScrub (pa : Nat) (r : EccResult)
  -- matrix and engine completions (15, 16, 17, 11, 19)
  | matrixOpStart (op : Nat) | matrixOpComplete (op : Nat) | drainStart (op : Nat) | linkedOpRelease (op : Nat)
  | barrierCompletionDelivery (tid k core : Nat) | ageEntry (gid stream : Nat) | ageStreamEnd (gid stream : Nat)
  | cpndComplete (op : Nat) | collMatch (op : Nat) (peers : List CollPeer) | collComplete (op : Nat)
  | textCommandComplete (op : Nat) | txloadReplacement (op : Nat) | dloadComplete (op : Nat)
  | mailboxDelivery (die : Nat)
  -- memory pipeline, CMAINT, reset, ridge (13, 18, 21, 12)
  | accessAccepted (gid op lane : Nat) | storeSettled (gid op lane : Nat) | accessPerformed (gid op lane : Nat)
  | cmaintCompletion (q : Nat) | perstAssertion | ridgePlacementReply (launch pos member : Nat) (ok : Bool)
  | ridgePreemptNotice (launch pos member : Nat) (resumed : Bool)
deriving DecidableEq, Repr, Inhabited

/-- What may move next: an event or input with its data, a split or access program that issues its next word, the drain
sequencer of a matrix operation, and two acts of the world outside that have no row: a store of the host's processors to host
memory (12 R292) and a soft error that poisons a 64-byte line (21 R454). -/
inductive Agent where
  | idle
  | event (i : Instr)
  | lane (gid entry : Nat)
  | access (gid : Nat)
  | drain (op : Nat)
  | hostStore (addr : Nat) (bytes : List Byte)
  | softError (line : Nat)
deriving DecidableEq, Repr, Inhabited

end Sys2Proof
end

