-- ==== Sys2Proof/Machine/Encoding.lean ====
section
/-!
DEFINITION. The encoding tables of lane, access and drain words: field layouts (02 R53, R69, R73), codes (02 R57-R63), and for
each instruction the codes that each field accepts (02 R56, R57-R66; 05 R133; 04 R112, R127; 07 R191; 09 R227; 10 R255;
11 R274, R277; 12 R298; 13 R303, R304; 14 R325; 15 R339, R340; 19 R406, R409; 06 R168-R183; 16 R366).
-/
namespace Sys2Proof

/-! ### Codes -/

/-- FMT code (02 R57 Table 3). -/
def Fmt.code : Fmt → BitVec 4
  | .s32 => 0 | .n32 => 1 | .s16 => 2 | .n16 => 3 | .s8 => 4 | .n8 => 5 | .b32 => 6
  | .f32 => 8 | .f16 => 9 | .bf16 => 10 | .f16x2 => 11 | .bf16x2 => 12 | .xb8 => 13 | .xb6 => 14 | .xb4 => 15

/-- The format of a code; 0x7 is reserved. -/
def Fmt.ofCode (c : BitVec 4) : Option Fmt :=
  match c.toNat with
  | 0 => some .s32 | 1 => some .n32 | 2 => some .s16 | 3 => some .n16 | 4 => some .s8 | 5 => some .n8 | 6 => some .b32
  | 8 => some .f32 | 9 => some .f16 | 10 => some .bf16 | 11 => some .f16x2 | 12 => some .bf16x2 | 13 => some .xb8
  | 14 => some .xb6 | 15 => some .xb4
  | _ => none

/-- Scope code (02 R58 Table 4). -/
def Scope.code : Scope → BitVec 4
  | .split => 0 | .group => 1 | .core => 2 | .cluster => 3 | .team => 4 | .die => 5 | .device => 6 | .ridge => 7
  | .partition => 8 | .fabric => 9 | .host => 10 | .system => 11

def Scope.ofCode (c : BitVec 4) : Option Scope :=
  match c.toNat with
  | 0 => some .split | 1 => some .group | 2 => some .core | 3 => some .cluster | 4 => some .team | 5 => some .die
  | 6 => some .device | 7 => some .ridge | 8 => some .partition | 9 => some .fabric | 10 => some .host | 11 => some .system
  | _ => none

/-- Kind of XOP[2:0] (02 R59). -/
def Kind.ofXop (x : BitVec 4) : Option Kind :=
  match x.toNat % 8 with
  | 0 => some .weak | 1 => some .rlx | 2 => some .acq | 3 => some .rel | 4 => some .ar
  | _ => none

/-- Kind of sub[5:4] of a strong access word (02 R76 Table 11). -/
def Kind.ofSub (k : BitVec 2) : Kind :=
  match k.toNat with
  | 0 => .rlx | 1 => .acq | 2 => .rel | _ => .ar

/-- Fence kind of a two-bit code; 3 is not accepted (14 R325, 02 R76). -/
def FenceKind.code : FenceKind → BitVec 2
  | .acquire => 0 | .release => 1 | .full => 2

def FenceKind.ofCode (k : BitVec 2) : Option FenceKind :=
  match k.toNat with
  | 0 => some .acquire | 1 => some .release | 2 => some .full | _ => none

/-- Counter class of a code (19 R406). -/
def Cls.code : Cls → BitVec 4
  | .vm => 0 | .cp => 1 | .mx => 2 | .cl => 3 | .tr => 4

def Cls.ofCode (k : BitVec 4) : Option Cls :=
  match k.toNat with
  | 0 => some .vm | 1 => some .cp | 2 => some .mx | 3 => some .cl | 4 => some .tr | _ => none

/-- Lane operand code (02 R63 Table 6). -/
def Operand.code : Operand → BitVec 9
  | .v n => BitVec.ofNat 9 n.toNat
  | .s n => BitVec.ofNat 9 (0x100 + n.toNat)
  | .t n => BitVec.ofNat 9 (0x1C0 + n.toNat)
  | .oq n => BitVec.ofNat 9 (0x1C8 + n.toNat)
  | .special n => BitVec.ofNat 9 (0x1D0 + n.toNat)
  | .imm => 0x1E0
  | .zero => 0x1E1

/-- The operand of a code; reserved codes have none. -/
def Operand.ofCode (c : BitVec 9) : Option Operand :=
  let n := c.toNat
  if n < 0x100 then some (.v (BitVec.ofNat 8 n))
  else if n < 0x1C0 then some (.s (BitVec.ofNat 8 (n - 0x100)))
  else if n < 0x1C8 then some (.t (BitVec.ofNat 3 (n - 0x1C0)))
  else if n < 0x1CC then some (.oq (BitVec.ofNat 2 (n - 0x1C8)))
  else if n < 0x1D0 then none
  else if n < 0x1E0 then some (.special (BitVec.ofNat 4 (n - 0x1D0)))
  else if n = 0x1E0 then some .imm
  else if n = 0x1E1 then some .zero
  else none

/-! ### Lane words (02 R53) -/

/-- The fields of a lane word as they stand. -/
structure RawLane where
  op : BitVec 8
  fmt : BitVec 4
  mod : BitVec 4
  gn : BitVec 1
  gp : BitVec 3
  dst : BitVec 9
  sa : BitVec 9
  sb : BitVec 9
  sc : BitVec 9
  epa : BitVec 1
  epb : BitVec 1
  epc : BitVec 1
  last : BitVec 1
  xop : BitVec 4
  imm : BitVec 32
deriving DecidableEq, Repr

/-- The fields of a lane word, 02 R53 Table 1. -/
def RawLane.ofWord (w : LaneWord) : RawLane :=
  { op := w.extractLsb' 88 8, fmt := w.extractLsb' 84 4, mod := w.extractLsb' 80 4, gn := w.extractLsb' 79 1,
    gp := w.extractLsb' 76 3, dst := w.extractLsb' 67 9, sa := w.extractLsb' 58 9, sb := w.extractLsb' 49 9,
    sc := w.extractLsb' 40 9, epa := w.extractLsb' 39 1, epb := w.extractLsb' 38 1, epc := w.extractLsb' 37 1,
    last := w.extractLsb' 36 1, xop := w.extractLsb' 32 4, imm := w.extractLsb' 0 32 }

/-- The word that the fields make. -/
def RawLane.word (r : RawLane) : LaneWord :=
  r.op ++ r.fmt ++ r.mod ++ r.gn ++ r.gp ++ r.dst ++ r.sa ++ r.sb ++ r.sc ++ r.epa ++ r.epb ++ r.epc ++ r.last ++ r.xop ++
    r.imm

/-- What an operand field accepts. -/
inductive Role where
  /-- V below w, T or ZERO -/
  | dst
  /-- S or ZERO -/
  | dstS
  /-- V below w, S, T or ZERO -/
  | dstRed
  /-- V below w -/
  | dstV
  /-- V below w or T -/
  | dstVT
  /-- V below w, S or T, read under the block policy (JMPI, CALLI) -/
  | target
  /-- P0-P7 as a destination -/
  | pdst
  /-- V below w, S, T, OQ, a special lane value, IMM or ZERO -/
  | src
  /-- the same without IMM -/
  | srcNoImm
  /-- the same without IMM and ZERO -/
  | srcReg
  /-- P0-P7 as a source -/
  | psrc
  /-- an S code -/
  | sreg
  /-- an S code or ZERO -/
  | base
  /-- an S code if DEN (IMM32[23]) is 1, else unused -/
  | sregIfDen
  /-- 0x1E1 -/
  | unused
deriving DecidableEq, Repr

/-- How MOD is used (02 R58 Table 4). -/
inductive ModUse where
  | zero | sat | rnd | cond6 | cond8 | scope | memScope | cvt | red
deriving DecidableEq, Repr

/-- How XOP is used: a set of codes, or a rule that reads FMT. -/
inductive XopUse where
  | codes (l : List Nat) | cvt | red (scan : Bool)
deriving DecidableEq, Repr

/-- How IMM32 is used. -/
inductive ImmUse where
  /-- the value of the IMM operand; 0 if no field names IMM -/
  | operand
  | zero
  /-- any value -/
  | any
  /-- below a bound -/
  | below (n : Nat)
  | mldb | mma | mdrn | mzero
  /-- BAR: number and count; no count for .wait -/
  | bar (wait : Bool)
  /-- a special register number and half -/
  | sreg (write : Bool)
  /-- an even tile number -/
  | tile
deriving DecidableEq, Repr

/-- What the fields of an instruction accept. -/
structure Shape where
  op : BitVec 8
  fmts : List Fmt
  mod : ModUse
  xop : XopUse
  imm : ImmUse
  dst : Role
  sa : Role
  sb : Role
  sc : Role
deriving DecidableEq, Repr

namespace Shape

/-! Type sets of 05 R133 and 13 R304. -/
def i6 : List Fmt := [.s32, .n32, .s16, .n16, .s8, .n8]
def i3 : List Fmt := [.s32, .s16, .s8]
def b1 : List Fmt := [.b32]
def sh : List Fmt := [.b32, .n32, .s32]
def f3 : List Fmt := [.f32, .f16, .bf16]
def f5 : List Fmt := [.f32, .f16, .bf16, .f16x2, .bf16x2]
def x2 : List Fmt := [.f16x2, .bf16x2]
def none' : List Fmt := [.s32]
def cvts : List Fmt := [.s32, .n32, .s16, .n16, .s8, .n8, .f32, .f16, .bf16, .f16x2, .bf16x2]
def mems : List Fmt := [.s8, .n8, .s16, .n16, .f16, .bf16, .s32, .n32, .b32, .f32, .f16x2, .bf16x2]
def mats : List Fmt := [.xb8, .xb6, .xb4, .s8, .bf16]

/-- An arithmetic row with n sources. -/
def alu (op : BitVec 8) (fmts : List Fmt) (mod : ModUse) (dst : Role) (n : Nat) : Shape :=
  ⟨op, fmts, mod, .codes [0], .operand, dst, .src, if n < 2 then .unused else .src, if n < 3 then .unused else .src⟩

/-- A predicate row. -/
def pred (op : BitVec 8) (dst sa sb : Role) : Shape := ⟨op, none', .zero, .codes [0], .operand, dst, sa, sb, .unused⟩

/-- A memory row. -/
def mem (op : BitVec 8) (fmts : List Fmt) (xop : List Nat) (dst sc : Role) : Shape :=
  ⟨op, fmts, .memScope, .codes xop, .any, dst, .base, .srcNoImm, sc⟩

/-- XOP codes of ATOM (kinds rlx, acq, rel, ar) and of RED (rlx, rel, with XOP[3]). -/
def atomX : List Nat := [1, 2, 3, 4]
def redX : List Nat := [9, 11]

/-- A control row. -/
def ctl (op : BitVec 8) (imm : ImmUse) (dst : Role) : Shape :=
  ⟨op, none', .zero, .codes [0], imm, dst, .unused, .unused, .unused⟩

/-- A tree row (09 R227). -/
def tree (op : BitVec 8) (xop : List Nat) (sa sb sc : Role) : Shape :=
  ⟨op, none', .zero, .codes xop, .zero, .dst, sa, sb, sc⟩

/-- A system row without operands. -/
def sys (op : BitVec 8) (mod : ModUse) (xop : List Nat) (imm : ImmUse) : Shape :=
  ⟨op, none', mod, .codes xop, imm, .unused, .unused, .unused, .unused⟩

end Shape

open Shape in
/-- The shape of each lane instruction; BRA and JMPI have the reconvergence offset in SA:SB:SC and stand apart. -/
def Instr.shape : Instr → Option Shape
  | .add _ => some (alu 0x00 i6 .sat .dst 2)
  | .sub _ => some (alu 0x01 i6 .sat .dst 2)
  | .mul _ => some (alu 0x02 i6 .sat .dst 2)
  | .mulhi _ => some (alu 0x03 i6 .zero .dst 2)
  | .mad _ => some (alu 0x04 i6 .sat .dst 3)
  | .div _ => some (alu 0x05 i6 .sat .dst 2)
  | .rem _ => some (alu 0x06 i6 .zero .dst 2)
  | .abs _ => some (alu 0x07 i3 .sat .dst 1)
  | .neg _ => some (alu 0x08 i3 .sat .dst 1)
  | .min _ => some (alu 0x09 i6 .zero .dst 2)
  | .max _ => some (alu 0x0A i6 .zero .dst 2)
  | .clamp _ => some (alu 0x0B i6 .zero .dst 3)
  | .and _ => some (alu 0x0C b1 .zero .dst 2)
  | .or _ => some (alu 0x0D b1 .zero .dst 2)
  | .xor _ => some (alu 0x0E b1 .zero .dst 2)
  | .not _ => some (alu 0x0F b1 .zero .dst 1)
  | .andn _ => some (alu 0x10 b1 .zero .dst 2)
  | .shl _ => some (alu 0x11 sh .zero .dst 2)
  | .shr _ => some (alu 0x12 sh .zero .dst 2)
  | .rot _ => some (alu 0x13 b1 .zero .dst 2)
  | .bfx _ => some (alu 0x14 [.n32, .s32] .zero .dst 2)
  | .bfi _ => some (alu 0x15 b1 .zero .dst 3)
  | .popc _ => some (alu 0x16 b1 .zero .dst 1)
  | .clz _ => some (alu 0x17 b1 .zero .dst 1)
  | .ctz _ => some (alu 0x18 b1 .zero .dst 1)
  | .brev _ => some (alu 0x19 b1 .zero .dst 1)
  | .bperm _ => some (alu 0x1A b1 .zero .dst 3)
  | .cmp _ => some (alu 0x20 i6 .cond6 .pdst 2)
  | .pand _ => some (pred 0x21 .pdst .psrc .psrc)
  | .por _ => some (pred 0x22 .pdst .psrc .psrc)
  | .pxor _ => some (pred 0x23 .pdst .psrc .psrc)
  | .pnot _ => some (pred 0x24 .pdst .psrc .unused)
  | .sel _ => some { alu 0x25 b1 .zero .dst 2 with xop := .codes (List.range 8) }
  | .pget _ => some (pred 0x26 .dst .psrc .unused)
  | .pset _ => some (pred 0x27 .pdst .src .unused)
  | .addFloat _ => some (alu 0x40 f5 .rnd .dst 2)
  | .subFloat _ => some (alu 0x41 f5 .rnd .dst 2)
  | .mulFloat _ => some (alu 0x42 f5 .rnd .dst 2)
  | .fma _ => some (alu 0x43 f5 .rnd .dst 3)
  | .divFloat _ => some (alu 0x44 f5 .rnd .dst 2)
  | .sqrt _ => some (alu 0x45 f5 .rnd .dst 1)
  | .rsqrt _ => some (alu 0x46 f5 .rnd .dst 1)
  | .rcp _ => some (alu 0x47 f5 .rnd .dst 1)
  | .minFloat _ => some (alu 0x48 f5 .zero .dst 2)
  | .maxFloat _ => some (alu 0x49 f5 .zero .dst 2)
  | .absFloat _ => some (alu 0x4A f5 .zero .dst 1)
  | .negFloat _ => some (alu 0x4B f5 .zero .dst 1)
  | .cmpFloat _ => some (alu 0x4C f3 .cond8 .pdst 2)
  | .classFloat _ => some (alu 0x4D f3 .zero .dst 1)
  | .rint _ => some (alu 0x4E f5 .rnd .dst 1)
  | .copysign _ => some (alu 0x4F f5 .zero .dst 2)
  | .exp2 _ => some (alu 0x50 f5 .rnd .dst 1)
  | .log2 _ => some (alu 0x51 f5 .rnd .dst 1)
  | .sin _ => some (alu 0x52 f5 .rnd .dst 1)
  | .cos _ => some (alu 0x53 f5 .rnd .dst 1)
  | .tanh _ => some (alu 0x54 f5 .rnd .dst 1)
  | .sigmoid _ => some (alu 0x55 f5 .rnd .dst 1)
  | .gelu _ => some (alu 0x56 f5 .rnd .dst 1)
  | .dot2 _ => some (alu 0x57 x2 .rnd .dst 3)
  | .clampFloat _ => some (alu 0x58 f5 .zero .dst 3)
  | .cvt _ => some { alu 0x80 cvts .cvt .dst 1 with xop := .cvt }
  | .mov _ => some (alu 0x81 b1 .zero .dst 1)
  | .packB32 _ => some (alu 0x82 b1 .zero .dst 2)
  | .packFloat _ => some (alu 0x82 x2 .rnd .dst 2)
  | .unpackB32 _ => some { alu 0x83 b1 .zero .dst 1 with xop := .codes [0, 1] }
  | .unpackFloat _ => some { alu 0x83 x2 .zero .dst 1 with xop := .codes [0, 1] }
  | .shfl _ => some { alu 0x84 b1 .zero .dst 2 with xop := .codes [0, 1, 2, 3] }
  | .vballotS _ => some { alu 0x85 b1 .zero .sreg 1 with xop := .codes [0] }
  | .vballotV _ => some { alu 0x85 b1 .zero .dst 1 with xop := .codes [0, 1] }
  | .vmatch _ => some { alu 0x86 (i6 ++ b1 ++ f3) .zero .dst 1 with xop := .codes [0, 1, 2, 3] }
  | .vreduce _ => some { alu 0x87 [.s32, .n32, .b32, .f32] .red .dstRed 1 with xop := .red false }
  | .vscan _ => some { alu 0x88 [.s32, .n32, .b32, .f32] .red .dst 1 with xop := .red true }
  | .vtosB32 _ => some (alu 0x89 b1 .zero .dstS 2)
  | .vtosN32 _ => some (alu 0x89 [.n32] .zero .dstS 1)
  | .vtosS32 _ => some (alu 0x89 [.s32] .zero .dstS 1)
  | .stov _ => some ⟨0x8A, b1, .zero, .codes [0, 1], .operand, .dst, .sreg, .unused, .unused⟩
  | .empty _ => some ⟨0x8B, none', .zero, .codes [0], .zero, .dstV, .unused, .unused, .unused⟩
  | .fill _ => some ⟨0x8C, none', .zero, .codes [0], .zero, .dstV, .unused, .unused, .unused⟩
  | .srd _ => some ⟨0xF4, none', .zero, .codes [0], .sreg false, .dstVT, .unused, .unused, .unused⟩
  | .swr _ => some ⟨0xF5, none', .zero, .codes [0], .sreg true, .unused, .srcNoImm, .unused, .unused⟩
  | .ld _ => some (mem 0xA0 mems [0, 8, 1, 2] .dst .unused)
  | .st _ => some (mem 0xA1 mems [0, 8, 1, 3] .unused .srcNoImm)
  | .atomAdd _ => some (mem 0xA8 [.s32, .n32, .f32, .bf16x2] atomX .dst .srcNoImm)
  | .atomMin _ => some (mem 0xA9 [.s32, .n32, .f32] atomX .dst .srcNoImm)
  | .atomMax _ => some (mem 0xAA [.s32, .n32, .f32] atomX .dst .srcNoImm)
  | .atomAnd _ => some (mem 0xAB b1 atomX .dst .srcNoImm)
  | .atomOr _ => some (mem 0xAC b1 atomX .dst .srcNoImm)
  | .atomXor _ => some (mem 0xAD b1 atomX .dst .srcNoImm)
  | .atomXchg _ => some (mem 0xAE b1 atomX .dst .srcNoImm)
  | .atomCas _ => some (mem 0xAF b1 atomX .dst .srcNoImm)
  | .redAdd _ => some (mem 0xA8 [.s32, .n32, .f32, .bf16x2] redX .unused .srcNoImm)
  | .redMin _ => some (mem 0xA9 [.s32, .n32, .f32] redX .unused .srcNoImm)
  | .redMax _ => some (mem 0xAA [.s32, .n32, .f32] redX .unused .srcNoImm)
  | .redAnd _ => some (mem 0xAB b1 redX .unused .srcNoImm)
  | .redOr _ => some (mem 0xAC b1 redX .unused .srcNoImm)
  | .redXor _ => some (mem 0xAD b1 redX .unused .srcNoImm)
  | .call _ => some (ctl 0xC2 .any .unused)
  | .calli _ => some (ctl 0xC3 .zero .target)
  | .ret _ => some (ctl 0xC4 .zero .unused)
  | .brk _ => some (ctl 0xC5 (.below 128) .unused)
  | .exit _ => some (ctl 0xC6 (.below 256) .unused)
  | .trap _ => some (ctl 0xC7 (.below 65536) .unused)
  | .bkpt _ => some (ctl 0xC8 (.below 65536) .unused)
  | .nop _ => some (ctl 0xC9 .zero .unused)
  | .mldb _ => some ⟨0xD0, mats, .zero, .codes [0], .mldb, .unused, .sreg, .unused, .unused⟩
  | .mma _ => some ⟨0xD1, mats, .zero, .codes [0], .mma, .unused, .sreg, .sregIfDen, .unused⟩
  | .mdrn _ => some ⟨0xD2, [.s32, .s8], .zero, .codes [0], .mdrn, .unused, .unused, .sreg, .unused⟩
  | .mzero _ => some ⟨0xD3, none', .zero, .codes [0], .mzero, .unused, .unused, .unused, .unused⟩
  | .mdrawCl _ => some ⟨0xD4, none', .zero, .codes [0], .zero, .dst, .sreg, .unused, .unused⟩
  | .mdrawTok _ => some ⟨0xD4, none', .zero, .codes [1], .tile, .dst, .sreg, .srcReg, .unused⟩
  | .trnew _ => some (tree 0xE0 [0, 1] .base .unused .unused)
  | .tradd _ => some (tree 0xE1 [0, 1] .base .base .srcNoImm)
  | .trfork _ => some (tree 0xE2 [0, 1] .base .srcNoImm .unused)
  | .trpruneBr _ => some (tree 0xE3 [0, 1] .base .base .unused)
  | .trpruneSub _ => some (tree 0xE3 [2, 3] .base .base .unused)
  | .trcommit _ => some (tree 0xE4 [0, 1] .base .base .unused)
  | .trinfo _ => some (tree 0xE5 (List.range 16) .base .srcNoImm .unused)
  | .trtag _ => some (tree 0xE6 [0, 1] .base .unused .unused)
  | .amask _ => some (tree 0xE7 [0] .base .srcNoImm .base)
  | .gmask _ => some (tree 0xE8 (List.range 8) .base .base .base)
  | .kvslotRd _ => some (tree 0xE9 [0, 1] .base .srcNoImm .base)
  | .kvslotOwn _ => some (tree 0xE9 [2, 3] .base .srcNoImm .base)
  | .fence _ => some (sys 0xF0 .scope [0, 1, 2] .zero)
  | .waitc _ => some (sys 0xF1 .zero [0, 1, 2, 3, 4] (.below 64))
  | .barSync _ => some (sys 0xF2 .zero [0] (.bar false))
  | .barArrive _ => some (sys 0xF2 .zero [1] (.bar false))
  | .barWait _ => some (sys 0xF2 .zero [2] (.bar true))
  | .ridgeDetach _ => some (sys 0xF3 .zero [0] .zero)
  | _ => none

/-- The fields of a lane instruction other than BRA and JMPI. -/
def Instr.lane : Instr → Option Lane
  | .add w | .sub w | .mul w | .mulhi w | .mad w | .div w | .rem w | .abs w | .neg w | .min w | .max w | .clamp w
  | .and w | .or w | .xor w | .not w | .andn w | .shl w | .shr w | .rot w | .bfx w | .bfi w | .popc w | .clz w | .ctz w
  | .brev w | .bperm w | .cmp w | .pand w | .por w | .pxor w | .pnot w | .sel w | .pget w | .pset w
  | .addFloat w | .subFloat w | .mulFloat w | .fma w | .divFloat w | .sqrt w | .rsqrt w | .rcp w | .minFloat w
  | .maxFloat w | .absFloat w | .negFloat w | .cmpFloat w | .classFloat w | .rint w | .copysign w | .exp2 w | .log2 w | .sin w
  | .cos w | .tanh w | .sigmoid w | .gelu w | .dot2 w | .clampFloat w
  | .cvt w | .mov w | .packB32 w | .packFloat w | .unpackB32 w | .unpackFloat w | .shfl w | .vballotS w | .vballotV w
  | .vmatch w | .vreduce w | .vscan w | .vtosB32 w | .vtosN32 w | .vtosS32 w | .stov w | .empty w | .fill w | .srd w | .swr w
  | .ld w | .st w | .atomAdd w | .atomMin w | .atomMax w | .atomAnd w | .atomOr w | .atomXor w | .atomXchg w | .atomCas w
  | .redAdd w | .redMin w | .redMax w | .redAnd w | .redOr w | .redXor w
  | .call w | .calli w | .ret w | .brk w | .exit w | .trap w | .bkpt w | .nop w
  | .mldb w | .mma w | .mdrn w | .mzero w | .mdrawCl w | .mdrawTok w
  | .trnew w | .tradd w | .trfork w | .trpruneBr w | .trpruneSub w | .trcommit w | .trinfo w | .trtag w | .amask w
  | .gmask w | .kvslotRd w | .kvslotOwn w
  | .fence w | .waitc w | .barSync w | .barArrive w | .barWait w | .ridgeDetach w => some w
  | _ => none

/-- Which lane instruction a word names: by OP, and within an OP by FMT, XOP or DST (02 R75 Table 10). BRA and JMPI are
decoded apart. -/
def laneCtor (op : BitVec 8) (fmt xop : BitVec 4) (dst : BitVec 9) : Option (Lane → Instr) :=
  match op.toNat with
  | 0x00 => some .add | 0x01 => some .sub | 0x02 => some .mul | 0x03 => some .mulhi | 0x04 => some .mad | 0x05 => some .div
  | 0x06 => some .rem | 0x07 => some .abs | 0x08 => some .neg | 0x09 => some .min | 0x0A => some .max | 0x0B => some .clamp
  | 0x0C => some .and | 0x0D => some .or | 0x0E => some .xor | 0x0F => some .not | 0x10 => some .andn | 0x11 => some .shl
  | 0x12 => some .shr | 0x13 => some .rot | 0x14 => some .bfx | 0x15 => some .bfi | 0x16 => some .popc | 0x17 => some .clz
  | 0x18 => some .ctz | 0x19 => some .brev | 0x1A => some .bperm | 0x20 => some .cmp | 0x21 => some .pand
  | 0x22 => some .por | 0x23 => some .pxor | 0x24 => some .pnot | 0x25 => some .sel | 0x26 => some .pget
  | 0x27 => some .pset
  | 0x40 => some .addFloat | 0x41 => some .subFloat | 0x42 => some .mulFloat | 0x43 => some .fma | 0x44 => some .divFloat
  | 0x45 => some .sqrt | 0x46 => some .rsqrt | 0x47 => some .rcp | 0x48 => some .minFloat | 0x49 => some .maxFloat
  | 0x4A => some .absFloat | 0x4B => some .negFloat | 0x4C => some .cmpFloat | 0x4D => some .classFloat | 0x4E => some .rint
  | 0x4F => some .copysign | 0x50 => some .exp2 | 0x51 => some .log2 | 0x52 => some .sin | 0x53 => some .cos
  | 0x54 => some .tanh | 0x55 => some .sigmoid | 0x56 => some .gelu | 0x57 => some .dot2 | 0x58 => some .clampFloat
  | 0x80 => some .cvt | 0x81 => some .mov
  | 0x82 => some (if fmt = 6 then .packB32 else .packFloat)
  | 0x83 => some (if fmt = 6 then .unpackB32 else .unpackFloat)
  | 0x84 => some .shfl
  | 0x85 => some (if 0x100 ≤ dst.toNat ∧ dst.toNat < 0x1C0 then .vballotS else .vballotV)
  | 0x86 => some .vmatch | 0x87 => some .vreduce | 0x88 => some .vscan
  | 0x89 => some (if fmt = 1 then .vtosN32 else if fmt = 0 then .vtosS32 else .vtosB32)
  | 0x8A => some .stov | 0x8B => some .empty | 0x8C => some .fill
  | 0xA0 => some .ld | 0xA1 => some .st
  | 0xA8 => some (if xop.getLsbD 3 then .redAdd else .atomAdd)
  | 0xA9 => some (if xop.getLsbD 3 then .redMin else .atomMin)
  | 0xAA => some (if xop.getLsbD 3 then .redMax else .atomMax)
  | 0xAB => some (if xop.getLsbD 3 then .redAnd else .atomAnd)
  | 0xAC => some (if xop.getLsbD 3 then .redOr else .atomOr)
  | 0xAD => some (if xop.getLsbD 3 then .redXor else .atomXor)
  | 0xAE => some .atomXchg | 0xAF => some .atomCas
  | 0xC2 => some .call | 0xC3 => some .calli | 0xC4 => some .ret | 0xC5 => some .brk | 0xC6 => some .exit
  | 0xC7 => some .trap | 0xC8 => some .bkpt | 0xC9 => some .nop
  | 0xD0 => some .mldb | 0xD1 => some .mma | 0xD2 => some .mdrn | 0xD3 => some .mzero
  | 0xD4 => some (if xop = 1 then .mdrawTok else .mdrawCl)
  | 0xE0 => some .trnew | 0xE1 => some .tradd | 0xE2 => some .trfork
  | 0xE3 => some (if xop.getLsbD 1 then .trpruneSub else .trpruneBr)
  | 0xE4 => some .trcommit | 0xE5 => some .trinfo | 0xE6 => some .trtag | 0xE7 => some .amask | 0xE8 => some .gmask
  | 0xE9 => some (if xop.getLsbD 1 then .kvslotOwn else .kvslotRd)
  | 0xF0 => some .fence | 0xF1 => some .waitc
  | 0xF2 => some (if xop = 1 then .barArrive else if xop = 2 then .barWait else .barSync)
  | 0xF3 => some .ridgeDetach | 0xF4 => some .srd | 0xF5 => some .swr
  | _ => none

/-! ### What each field accepts -/

/-- Whether an operand may stand in a field (02 R63, R64, R66), with window size w and DEN. -/
def Role.ok (r : Role) (w : Nat) (den : Bool) (o : Operand) : Bool :=
  let vOk : Bool := match o with
    | .v n => n.toNat < w
    | .s n => n.toNat < 192
    | _ => true
  let sOk : Bool := match o with
    | .s n => n.toNat < 192
    | _ => false
  let zOk : Bool := o == .zero
  match r with
  | .dst => vOk && (match o with | .v _ | .t _ | .zero => true | _ => false)
  | .dstS => sOk || zOk
  | .dstRed => vOk && (match o with | .v _ | .s _ | .t _ | .zero => true | _ => false)
  | .dstV => vOk && (match o with | .v _ => true | _ => false)
  | .dstVT => vOk && (match o with | .v _ | .t _ => true | _ => false)
  | .target => vOk && (match o with | .v _ | .s _ | .t _ => true | _ => false)
  | .pdst | .psrc => match o with
    | .v n => n.toNat < 8
    | _ => false
  | .src => vOk
  | .srcNoImm => vOk && o != .imm
  | .srcReg => vOk && o != .imm && !zOk
  | .sreg => sOk
  | .base => sOk || zOk
  | .sregIfDen => if den then sOk else zOk
  | .unused => zOk

/-- Whether a field is in use, so that its EP bit is not checked (02 R61, R78). -/
def Role.inUse (r : Role) (den : Bool) : Bool :=
  match r with
  | .unused => false
  | .sregIfDen => den
  | _ => true

/-- XOP of VREDUCE and VSCAN against FMT, 05 R162 Table 11. -/
def redOk (scan : Bool) (fmt : Fmt) (x : Nat) : Bool :=
  (scan || x < 8) &&
  match fmt with
  | .s32 | .n32 | .f32 => x % 8 < 3
  | .b32 => 3 ≤ x % 8 && x % 8 < 6
  | _ => false

/-- Whether MOD is accepted (02 R58, R59; 05 R154, R162). -/
def ModUse.ok (u : ModUse) (fmt : Fmt) (xop mod : BitVec 4) : Bool :=
  let m := mod.toNat
  match u with
  | .zero => m == 0
  | .sat => m ≤ 1
  | .rnd => m ≤ 3
  | .cond6 => m ≤ 5
  | .cond8 => m ≤ 7
  | .scope => m ≤ 11
  | .memScope => if xop.toNat % 8 = 0 then m == 0 else m ≤ 11
  | .cvt =>
    let exact := fmt.code == xop || (fmt == .f32 && (xop == Fmt.f16.code || xop == Fmt.bf16.code))
    m < 8 && (!exact || m == 0)
  | .red =>
    if xop.toNat % 8 = 0 then (match fmt with | .s32 | .n32 => m ≤ 1 | .f32 => m ≤ 3 | _ => m == 0) else m == 0

/-- Whether XOP is accepted. -/
def XopUse.ok (u : XopUse) (fmt : Fmt) (xop : BitVec 4) : Bool :=
  match u with
  | .codes l => l.contains xop.toNat
  | .cvt =>
    match Fmt.ofCode xop with
    | some s => Shape.cvts.contains s && (Shape.x2.contains s == Shape.x2.contains fmt)
    | none => false
  | .red scan => redOk scan fmt xop.toNat

/-- Reserved bits of IMM32 of the matrix rows and the ranges of 15 R340. -/
def matrixImmOk (fmt : Fmt) (imm : BitVec 32) (useTile useMac useDrain useLink : Bool) : Bool :=
  let i := imm.toNat
  let f (hi lo : Nat) : Nat := i / 2 ^ lo % 2 ^ (hi + 1 - lo)
  let n := 2 ^ f 9 8
  let den := f 23 23
  let lnk := f 29 29
  f 31 30 == 0 && f 22 22 == 0 && f 15 10 == 0 && f 7 7 == 0 && f 3 3 == 0 &&
  (useTile || f 2 0 == 0) && (useMac || f 6 4 == 0) &&
  (useDrain || (den == 0)) && (den == 1 || f 21 16 == 0) &&
  (useLink || lnk == 0) && (lnk == 1 || f 28 24 == 0) &&
  (!useTile || f 2 0 + n ≤ 8) &&
  (!useMac || (if fmt = .bf16 then n != 8 && f 6 4 % 2 == 0 && f 6 4 + 2 * n ≤ 8 else f 6 4 + n ≤ 8))

/-- A special register's numbers of 04 R111 Table 2: whether it is 64 bits wide, and whether it may be written. -/
def specialReg (n : Nat) : Option (Bool × Bool) :=
  match n with
  | 0x00 => some (false, true)
  | 0x01 => some (false, true)
  | 0x02 => some (false, true)
  | 0x03 => some (false, false)
  | 0x04 => some (true, false)
  | 0x10 => some (false, true)
  | 0x11 => some (false, false)
  | 0x12 => some (true, true)
  | _ => none

/-- Whether IMM32 is accepted. `named`: some operand field names IMM. -/
def ImmUse.ok (u : ImmUse) (fmt : Fmt) (imm : BitVec 32) (named : Bool) : Bool :=
  let i := imm.toNat
  match u with
  | .operand => named || i == 0
  | .zero => i == 0
  | .any => true
  | .below n => i < n
  | .mldb => matrixImmOk fmt imm false true false false
  | .mma => matrixImmOk fmt imm true true true true
  | .mdrn => matrixImmOk fmt imm true false true true && i / 2 ^ 23 % 2 == 1
  | .mzero => matrixImmOk fmt imm true false false true
  | .bar wait => i % 256 / 32 == 0 && i / 2 ^ 19 == 0 && i / 256 ≤ 1024 && (!wait || i / 256 == 0)
  | .sreg write =>
    match specialReg (i % 64) with
    | none => false
    | some (wide, rw) => i / 2 ^ 9 == 0 && i / 64 % 4 == 0 && (wide || i / 256 == 0) && (!write || rw)
  | .tile => i < 8 && i % 2 == 0

/-! ### Classes of lane instructions (01 R34) -/

/-- Whether a lane instruction is commit-class: 01 R34 with the forms of 13 R311, 15 R341, 09 R228, 10 R255, 19 R409, 12 R298. -/
def Instr.commitClass : Instr → Bool
  | .ld w | .st w => w.xop.toNat % 8 != 0
  | .atomAdd _ | .atomMin _ | .atomMax _ | .atomAnd _ | .atomOr _ | .atomXor _ | .atomXchg _ | .atomCas _
  | .redAdd _ | .redMin _ | .redMax _ | .redAnd _ | .redOr _ | .redXor _ => true
  | .mma _ => true
  | .mdrn w | .mzero w => w.imm.getLsbD 29
  | .trnew _ | .tradd _ | .trfork _ | .trpruneBr _ | .trpruneSub _ | .trcommit _ | .trtag _ | .kvslotOwn _ => true
  | .barSync _ | .barArrive _ => true
  | .ridgeDetach _ => true
  | _ => false

/-- Whether an instruction is a control instruction, 0xC0-0xCF. -/
def Instr.isControl : Instr → Bool
  | .bra _ | .jmpi _ | .call _ | .calli _ | .ret _ | .brk _ | .exit _ | .trap _ | .bkpt _ | .nop _ => true
  | _ => false

/-- The opcode of a lane instruction. -/
def Instr.laneOp (i : Instr) : Nat :=
  match i with
  | .bra _ => 0xC0
  | .jmpi _ => 0xC1
  | _ => (i.shape.map (fun s => s.op.toNat)).getD 0xFF

/-- Whether an instruction may stand after the commit instruction, 01 R34 Table 4. -/
def Instr.afterCommitOk (i : Instr) : Bool :=
  match i with
  | .trap _ | .bkpt _ => false
  | _ => i.laneOp < 0xA0 || i.isControl

end Sys2Proof
end

