-- ==== Sys2Proof/WellFormed.lean ====
section
/-!
DEFINITION. Well-formed instructions: those whose fields hold only values that the spec's encodings admit (02 R56-R66, R70-R74,
and the encoding rule of each instruction). For a row that is an event every term is well-formed: it has no encoding.
-/
namespace Sys2Proof

/-- A scalar register field: S0-S191, or 0xFF (02 R70). -/
def SReg.ok (r : SReg) : Bool := r.toNat < 192 || r == 0xFF

/-- A K register field (02 R70). -/
def SReg.isK (r : SReg) : Bool := r.toNat < 4

/-- A descriptor of k registers from r (06 R183). -/
def SReg.descOk (r : SReg) (k : Nat) : Bool := r.toNat + k ≤ 192

/-- A lane word's fields against the shape of its instruction, for window size w. -/
def Lane.wellFormed (w : Nat) (s : Shape) (l : Lane) : Bool :=
  let named := [l.dst, l.sa, l.sb, l.sc].contains .imm
  let den := l.imm.getLsbD 23
  s.fmts.contains l.fmt && s.mod.ok l.fmt l.xop l.mod && s.xop.ok l.fmt l.xop && s.imm.ok l.fmt l.imm named &&
    (s.sa.inUse den || !l.epa) && (s.sb.inUse den || !l.epb) && (s.sc.inUse den || !l.epc) &&
    s.dst.ok w den l.dst && s.sa.ok w den l.sa && s.sb.ok w den l.sb && s.sc.ok w den l.sc

/-- A well-formed lane instruction of a launch with window size w. -/
def Instr.laneWellFormed (w : Nat) (i : Instr) : Bool :=
  match i with
  | .bra j => j.dst == .zero
  | .jmpi j => Role.target.ok w false j.dst && j.imm == 0
  | _ =>
    match i.shape, i.lane with
    | some s, some l => l.wellFormed w s
    | _, _ => false

/-- A well-formed access instruction (02 R69-R71, R76; 06). -/
def Instr.accessWellFormed : Instr → Bool
  | .accessAdd d a b | .accessSub d a b | .accessMul d a b | .accessMulhi d a b | .accessAnd d a b | .accessOr d a b
  | .accessXor d a b | .accessAndn d a b | .accessShl d a b | .accessShr d a b | .sar d a b | .accessRot d a b
  | .accessMin d a b | .accessMax d a b | .minu d a b | .maxu d a b | .accessDiv d a b | .accessRem d a b | .divu d a b
  | .remu d a b => d.ok && a.ok && b.ok
  | .addi d a _ | .andi d a _ | .ori d a _ | .xori d a _ | .ld64 d a _ | .ld32 d a _ | .st64 d a _ | .st32 d a _ =>
    d.ok && a.ok
  | .shli d a i | .shri d a i | .sari d a i => i.toNat < 64 && d.ok && a.ok
  | .movi d _ | .exti d _ => d.ok
  | .accessCmp _ d a b => d.isK && a.ok && b.ok
  | .kand d a b | .kor d a b | .kxor d a b | .kandn d a b => d.isK && a.isK && b.isK
  | .lds d a k _ _ => k.toNat ≤ 1 && d.ok && a.ok
  | .sts d a k _ _ => k.toNat % 2 == 0 && k.toNat ≤ 2 && d.ok && a.ok
  | .aadd d a _ _ _ | .axchg d a _ _ _ => d.ok && a.ok
  | .br _ _ _ | .calla _ _ _ | .halt | .accessFence _ _ | .accessWaitc _ _ | .accessBarWait _ | .accessNop
  | .accessTrap _ | .accessBkpt _ | .aghalt _ => true
  | .jr a | .jrl a => a.ok
  | .agset z _ _ a => z.toNat ≤ 2 && a.descOk 2
  | .aggo t _ => t.ok
  | .qputRegister _ a | .qputMemory _ a => a.descOk 1
  | .cpnd t a => t.ok && a.descOk 8
  | .collAllReduce t a _ | .collReduceScatter t a _ | .collAllGather t a _ => t.ok && a.descOk 4
  | .txtok t _ a | .txdet t a => t.ok && a.descOk 4
  | .txload t a | .mbpost t a => t.ok && a.descOk 2
  | .dload t _ a => t.ok && a.descOk 1
  | .accessBarSync _ a | .accessBarArrive _ a => a.ok
  | .accessSrd d n => (n == 0x02 || n == 0x03 || n == 0x11 || n == 0x12) && d.ok
  | .accessSwr d n => (n == 0x02 || n == 0x12) && d.ok
  | .sete d | .setf d => d.toNat < 192
  | _ => false

/-- A well-formed drain word (16 R366). -/
def Instr.drainWellFormed : Instr → Bool
  | .drainEnd | .drainAdd _ _ _ | .drainMul _ _ _ | .drainMad _ _ _ | .drainMax _ _ _ | .drainMin _ _ _
  | .drainClamp _ _ _ | .drainRelu _ _ | .drainMov _ _ | .drainStore _ _ _ => true
  | .drainFn _ _ f => f.toNat ≤ 4
  | .drainSel _ _ _ f => f.toNat ≤ 3
  | .drainConst _ f => f.toNat ≤ 5
  | .drainStoreb _ _ f => 1 ≤ f.toNat && f.toNat ≤ 3
  | _ => false

/-- Which stream an instruction's word belongs to, by its row of the opcode table. -/
inductive Origin where
  | lane | access | drain | event
deriving DecidableEq, Repr

def Instr.origin (i : Instr) : Origin :=
  match i with
  | .bra _ | .jmpi _ => .lane
  | .accessAdd _ _ _ | .accessSub _ _ _ | .accessMul _ _ _ | .accessMulhi _ _ _ | .accessAnd _ _ _ | .accessOr _ _ _
  | .accessXor _ _ _ | .accessAndn _ _ _ | .accessShl _ _ _ | .accessShr _ _ _ | .sar _ _ _ | .accessRot _ _ _
  | .accessMin _ _ _ | .accessMax _ _ _ | .minu _ _ _ | .maxu _ _ _ | .accessDiv _ _ _ | .accessRem _ _ _ | .divu _ _ _
  | .remu _ _ _ | .addi _ _ _ | .andi _ _ _ | .ori _ _ _ | .xori _ _ _ | .shli _ _ _ | .shri _ _ _ | .sari _ _ _
  | .movi _ _ | .exti _ _ | .accessCmp _ _ _ _ | .kand _ _ _ | .kor _ _ _ | .kxor _ _ _ | .kandn _ _ _
  | .ld64 _ _ _ | .ld32 _ _ _ | .st64 _ _ _ | .st32 _ _ _ | .lds _ _ _ _ _ | .sts _ _ _ _ _ | .aadd _ _ _ _ _
  | .axchg _ _ _ _ _ | .br _ _ _ | .calla _ _ _ | .jr _ | .jrl _ | .halt
  | .agset _ _ _ _ | .aggo _ _ | .aghalt _ | .qputRegister _ _ | .qputMemory _ _ | .cpnd _ _ | .collAllReduce _ _ _
  | .collReduceScatter _ _ _ | .collAllGather _ _ _ | .txtok _ _ _ | .txdet _ _ | .txload _ _ | .dload _ _ _ | .mbpost _ _
  | .accessFence _ _ | .accessWaitc _ _ | .accessBarSync _ _ | .accessBarArrive _ _ | .accessBarWait _ | .accessSrd _ _
  | .accessSwr _ _ | .sete _ | .setf _ | .accessNop | .accessTrap _ | .accessBkpt _ => .access
  | .drainEnd | .drainAdd _ _ _ | .drainMul _ _ _ | .drainMad _ _ _ | .drainMax _ _ _ | .drainMin _ _ _
  | .drainClamp _ _ _ | .drainRelu _ _ | .drainFn _ _ _ | .drainSel _ _ _ _ | .drainConst _ _ | .drainMov _ _
  | .drainStore _ _ _ | .drainStoreb _ _ _ => .drain
  | _ => match i.lane with
    | some _ => .lane
    | none => .event

/-- Well-formedness of any instruction, for window size w. -/
def Instr.wellFormed (w : Nat) (i : Instr) : Bool :=
  match i.origin with
  | .lane => i.laneWellFormed w
  | .access => i.accessWellFormed
  | .drain => i.drainWellFormed
  | .event => true

end Sys2Proof
end

