-- ==== Sys2Proof/Decode.lean ====
section
/-!
DEFINITION. Decoding, total on any word, and the encoder. Lane words: 02 R53-R67, R77, R78; access words: R69-R72, R76;
drain words: R73, R74; runs: 01 R33, R34, 02 R68, R78.
-/
namespace Sys2Proof

/-- Which check of 02 R77, R78 refuses a word. -/
inductive Reject where
  | opcode | fmt | mod | xop | imm | ep | last | fn | dst | sa | sb | sc
deriving DecidableEq, Repr

/-- Whether a refused check is an operand field: ILLOPND, else ILLOP (02 R77 Table 12). -/
def Reject.isOperand : Reject → Bool
  | .dst | .sa | .sb | .sc => true
  | _ => false

/-! ### Lane words -/

/-- The checks of 02 R78 steps 1-3 on a word of fields r whose LAST must be `last`, for window size w. -/
def decodeRaw (w : Nat) (last : Bool) (r : RawLane) : Except Reject Instr :=
  if r.op = 0xC0 ∨ r.op = 0xC1 then
    let jmp := r.op = 0xC1
    if r.fmt ≠ 0 then .error .fmt
    else if r.mod ≠ 0 then .error .mod
    else if r.xop ≠ 0 then .error .xop
    else if jmp ∧ r.imm ≠ 0 then .error .imm
    else if r.epa ≠ 0 ∨ r.epb ≠ 0 ∨ r.epc ≠ 0 then .error .ep
    else if (r.last == 1) != last then .error .last
    else
      match Operand.ofCode r.dst with
      | none => .error .dst
      | some d =>
        let j : Jump := { neg := r.gn == 1, gp := r.gp, dst := d, rejoin := r.sa ++ r.sb ++ r.sc, imm := r.imm }
        if jmp then (if Role.target.ok w false d then .ok (.jmpi j) else .error .dst)
        else if d = .zero then .ok (.bra j) else .error .dst
  else
    match laneCtor r.op r.fmt r.xop r.dst with
    | none => .error .opcode
    | some ctor =>
      match (ctor default).shape with
      | none => .error .opcode
      | some s =>
        match Fmt.ofCode r.fmt with
        | none => .error .fmt
        | some fmt =>
          let named := r.dst = 0x1E0 ∨ r.sa = 0x1E0 ∨ r.sb = 0x1E0 ∨ r.sc = 0x1E0
          let den := r.imm.getLsbD 23
          if !s.fmts.contains fmt then .error .fmt
          else if !s.mod.ok fmt r.xop r.mod then .error .mod
          else if !s.xop.ok fmt r.xop then .error .xop
          else if !s.imm.ok fmt r.imm (decide named) then .error .imm
          else if (!s.sa.inUse den && r.epa == 1) || (!s.sb.inUse den && r.epb == 1) || (!s.sc.inUse den && r.epc == 1) then
            .error .ep
          else if (r.last == 1) != last then .error .last
          else
            match Operand.ofCode r.dst with
            | none => .error .dst
            | some dst =>
              if !s.dst.ok w den dst then .error .dst else
              match Operand.ofCode r.sa with
              | none => .error .sa
              | some sa =>
                if !s.sa.ok w den sa then .error .sa else
                match Operand.ofCode r.sb with
                | none => .error .sb
                | some sb =>
                  if !s.sb.ok w den sb then .error .sb else
                  match Operand.ofCode r.sc with
                  | none => .error .sc
                  | some sc =>
                    if !s.sc.ok w den sc then .error .sc else
                    .ok (ctor { fmt := fmt, mod := r.mod, neg := r.gn == 1, gp := r.gp, dst := dst, sa := sa, sb := sb,
                                sc := sc, epa := r.epa == 1, epb := r.epb == 1, epc := r.epc == 1, last := r.last == 1,
                                xop := r.xop, imm := r.imm })

/-- A lane word whose LAST must be `last`. -/
def decodeLane (w : Nat) (last : Bool) (x : LaneWord) : Except Reject Instr := decodeRaw w last (RawLane.ofWord x)

def bit1 (b : Bool) : BitVec 1 := if b then 1 else 0

/-- The fields of a lane instruction. -/
def Instr.raw (i : Instr) : RawLane :=
  let jump (op : BitVec 8) (j : Jump) : RawLane :=
    { op := op, fmt := 0, mod := 0, gn := bit1 j.neg, gp := j.gp, dst := j.dst.code, sa := j.rejoin.extractLsb' 18 9,
      sb := j.rejoin.extractLsb' 9 9, sc := j.rejoin.extractLsb' 0 9, epa := 0, epb := 0, epc := 0, last := 1, xop := 0,
      imm := j.imm }
  match i with
  | .bra j => jump 0xC0 j
  | .jmpi j => jump 0xC1 j
  | _ =>
    let l := i.lane.getD default
    { op := ((i.shape.map Shape.op)).getD 0xFF, fmt := l.fmt.code, mod := l.mod, gn := bit1 l.neg, gp := l.gp,
      dst := l.dst.code, sa := l.sa.code, sb := l.sb.code, sc := l.sc.code, epa := bit1 l.epa, epb := bit1 l.epb,
      epc := bit1 l.epc, last := bit1 l.last, xop := l.xop, imm := l.imm }

/-- LAST of a lane instruction's word: 1 in BRA and JMPI (07 R191). -/
def Instr.lastBit (i : Instr) : Bool :=
  match i.lane with
  | some l => l.last
  | none => true

/-- The word of a lane instruction. -/
def encodeLane (i : Instr) : LaneWord := i.raw.word

/-! ### Access words (02 R69, R70, R76 Table 11) -/

/-- Register fields are checked after the other fields, by analogy with 02 R78 (log 11). -/
def regsOk (ds : Bool) (as : Bool) (bs : Bool) (i : Instr) : Except Reject Instr :=
  if !ds then .error .dst else if !as then .error .sa else if !bs then .error .sb else .ok i

/-- An access word. -/
def decodeAccess (x : AccessWord) : Except Reject Instr :=
  let op := (x.extractLsb' 26 6).toNat
  let fn := x.extractLsb' 24 2
  let ad : SReg := x.extractLsb' 16 8
  let aa : SReg := x.extractLsb' 8 8
  let ab : SReg := x.extractLsb' 0 8
  let d : SReg := x.extractLsb' 18 8
  let ia : SReg := x.extractLsb' 10 8
  let i10 := x.extractLsb' 0 10
  let i18 := x.extractLsb' 0 18
  let bk := x.extractLsb' 24 2
  let bn := x.extractLsb' 23 1 == 1
  let off := x.extractLsb' 0 23
  let sub := x.extractLsb' 12 6
  let xa : SReg := x.extractLsb' 4 8
  let i4 := x.extractLsb' 0 4
  let a3 (f0 f1 f2 f3 : SReg → SReg → SReg → Instr) : Except Reject Instr :=
    let f := match fn.toNat with | 0 => f0 | 1 => f1 | 2 => f2 | _ => f3
    regsOk ad.ok aa.ok ab.ok (f ad aa ab)
  let ii (f : SReg → SReg → BitVec 10 → Instr) : Except Reject Instr := regsOk d.ok ia.ok true (f d ia i10)
  let shift (f : SReg → SReg → BitVec 10 → Instr) : Except Reject Instr :=
    if i10.toNat < 64 then ii f else .error .imm
  let strong (ok : Bool) (f : SReg → SReg → BitVec 2 → Scope → BitVec 4 → Instr) : Except Reject Instr :=
    match Scope.ofCode (sub.extractLsb' 0 4) with
    | none => .error .fn
    | some s => if ok then regsOk d.ok xa.ok true (f d xa (sub.extractLsb' 4 2) s i4) else .error .fn
  let kind := (sub.extractLsb' 4 2).toNat
  let stream := sub.extractLsb' 0 2
  let none' := d == 0xFF
  -- an engine command with a token and a descriptor of k registers
  let engine (k : Nat) (fieldsOk : Bool) (i : Instr) : Except Reject Instr :=
    if fieldsOk then regsOk d.ok (xa.descOk k) true i else .error .fn
  match op with
  | 0x00 => a3 .accessAdd .accessSub .accessMul .accessMulhi
  | 0x01 => a3 .accessAnd .accessOr .accessXor .accessAndn
  | 0x02 => a3 .accessShl .accessShr .sar .accessRot
  | 0x03 => a3 .accessMin .accessMax .minu .maxu
  | 0x04 => a3 .accessDiv .accessRem .divu .remu
  | 0x05 => ii .addi
  | 0x06 => ii .andi
  | 0x07 => ii .ori
  | 0x08 => ii .xori
  | 0x09 => shift .shli
  | 0x0A => shift .shri
  | 0x0B => shift .sari
  | 0x0C => regsOk d.ok true true (.movi d i18)
  | 0x0D => regsOk d.ok true true (.exti d i18)
  | 0x0E => regsOk ad.isK aa.ok ab.ok (.accessCmp fn ad aa ab)
  | 0x0F =>
    let f : SReg → SReg → SReg → Instr :=
      match fn.toNat with | 0 => .kand | 1 => .kor | 2 => .kxor | _ => .kandn
    regsOk ad.isK aa.isK ab.isK (f ad aa ab)
  | 0x10 => ii .ld64
  | 0x11 => ii .ld32
  | 0x12 => ii .st64
  | 0x13 => ii .st32
  | 0x14 => strong (kind ≤ 1) .lds
  | 0x15 => strong (kind == 0 || kind == 2) .sts
  | 0x16 => strong true .aadd
  | 0x17 => strong true .axchg
  | 0x18 => .ok (.br bk bn off)
  | 0x19 => .ok (.calla bk bn off)
  | 0x1A =>
    if 1 < fn.toNat then .error .fn
    else regsOk (ad == 0xFF) aa.ok (ab == 0xFF) (if fn = 0 then .jr aa else .jrl aa)
  | 0x1B => if fn ≠ 0 then .error .fn else regsOk (ad == 0xFF) (aa == 0xFF) (ab == 0xFF) .halt
  | 0x20 =>
    if 2 < kind ∨ i4 ≠ 0 then .error .fn
    else regsOk none' (xa.descOk 2) true (.agset (sub.extractLsb' 4 2) (sub.extractLsb' 2 2) stream xa)
  | 0x21 => if 3 < sub.toNat ∨ i4 ≠ 0 then .error .fn else regsOk d.ok (xa == 0xFF) true (.aggo d stream)
  | 0x22 => if 3 < sub.toNat ∨ i4 ≠ 0 then .error .fn else regsOk none' (xa == 0xFF) true (.aghalt stream)
  | 0x23 =>
    if 3 < sub.toNat ∨ 1 < i4.toNat then .error .fn
    else regsOk none' (xa.descOk 1) true (if i4 = 1 then .qputRegister stream xa else .qputMemory stream xa)
  | 0x24 => engine 8 (sub == 0 && i4 == 0) (.cpnd d xa)
  | 0x25 =>
    engine 4 (sub.toNat ≤ 2 && i4.toNat ≤ 1)
      (match sub.toNat with
        | 0 => .collAllReduce d xa (i4 == 1)
        | 1 => .collReduceScatter d xa (i4 == 1)
        | _ => .collAllGather d xa (i4 == 1))
  | 0x26 => engine 4 (sub.toNat ≤ 1 && i4 == 0) (.txtok d (sub == 1) xa)
  | 0x27 => engine 4 (sub == 0 && i4 == 0) (.txdet d xa)
  | 0x28 => engine 2 (sub == 0 && i4 == 0) (.txload d xa)
  | 0x29 => engine 1 (i4 == 0) (.dload d sub xa)
  | 0x2A => engine 2 (sub == 0 && i4 == 0) (.mbpost d xa)
  | 0x30 =>
    match FenceKind.ofCode (sub.extractLsb' 4 2), Scope.ofCode (sub.extractLsb' 0 4) with
    | some k, some s => if i4 ≠ 0 then .error .imm else regsOk none' (xa == 0xFF) true (.accessFence k s)
    | _, _ => .error .fn
  | 0x31 =>
    match Cls.ofCode i4 with
    | some c => regsOk none' (xa == 0xFF) true (.accessWaitc sub c)
    | none => .error .imm
  | 0x32 =>
    if 31 < sub.toNat ∨ 2 < i4.toNat then .error .fn
    else
      let k := sub.extractLsb' 0 5
      match i4.toNat with
      | 0 => regsOk none' xa.ok true (.accessBarSync k xa)
      | 1 => regsOk none' xa.ok true (.accessBarArrive k xa)
      | _ => regsOk none' (xa == 0xFF) true (.accessBarWait k)
  | 0x33 =>
    if i4 = 0 ∧ (sub = 0x02 ∨ sub = 0x03 ∨ sub = 0x11 ∨ sub = 0x12) then regsOk d.ok (xa == 0xFF) true (.accessSrd d sub)
    else .error .fn
  | 0x34 =>
    if i4 = 0 ∧ (sub = 0x02 ∨ sub = 0x12) then regsOk d.ok (xa == 0xFF) true (.accessSwr d sub) else .error .fn
  | 0x35 => if sub ≠ 0 ∨ i4 ≠ 0 then .error .fn else regsOk (d.toNat < 192) (xa == 0xFF) true (.sete d)
  | 0x36 => if sub ≠ 0 ∨ i4 ≠ 0 then .error .fn else regsOk (d.toNat < 192) (xa == 0xFF) true (.setf d)
  | 0x37 => if sub ≠ 0 ∨ i4 ≠ 0 then .error .fn else regsOk none' (xa == 0xFF) true .accessNop
  | 0x38 => regsOk none' (xa == 0xFF) true (.accessTrap (sub ++ i4))
  | 0x39 => regsOk none' (xa == 0xFF) true (.accessBkpt (sub ++ i4))
  | _ => .error .opcode

/-- A-form, I-form, U-form, B-form and X-form words (02 R69 Table 8). -/
def formA (op : BitVec 6) (fn : BitVec 2) (d a b : SReg) : AccessWord := op ++ fn ++ d ++ a ++ b
def formI (op : BitVec 6) (d a : SReg) (i : BitVec 10) : AccessWord := op ++ d ++ a ++ i
def formU (op : BitVec 6) (d : SReg) (i : BitVec 18) : AccessWord := op ++ d ++ i
def formB (op : BitVec 6) (k : BitVec 2) (n : Bool) (o : BitVec 23) : AccessWord := op ++ k ++ bit1 n ++ o
def formX (op : BitVec 6) (d : SReg) (sub : BitVec 6) (a : SReg) (i : BitVec 4) : AccessWord := op ++ d ++ sub ++ a ++ i

/-- The word of an access instruction; 0 for an instruction that is none. -/
def encodeAccess : Instr → AccessWord
  | .accessAdd d a b => formA 0x00 0 d a b
  | .accessSub d a b => formA 0x00 1 d a b
  | .accessMul d a b => formA 0x00 2 d a b
  | .accessMulhi d a b => formA 0x00 3 d a b
  | .accessAnd d a b => formA 0x01 0 d a b
  | .accessOr d a b => formA 0x01 1 d a b
  | .accessXor d a b => formA 0x01 2 d a b
  | .accessAndn d a b => formA 0x01 3 d a b
  | .accessShl d a b => formA 0x02 0 d a b
  | .accessShr d a b => formA 0x02 1 d a b
  | .sar d a b => formA 0x02 2 d a b
  | .accessRot d a b => formA 0x02 3 d a b
  | .accessMin d a b => formA 0x03 0 d a b
  | .accessMax d a b => formA 0x03 1 d a b
  | .minu d a b => formA 0x03 2 d a b
  | .maxu d a b => formA 0x03 3 d a b
  | .accessDiv d a b => formA 0x04 0 d a b
  | .accessRem d a b => formA 0x04 1 d a b
  | .divu d a b => formA 0x04 2 d a b
  | .remu d a b => formA 0x04 3 d a b
  | .addi d a i => formI 0x05 d a i
  | .andi d a i => formI 0x06 d a i
  | .ori d a i => formI 0x07 d a i
  | .xori d a i => formI 0x08 d a i
  | .shli d a i => formI 0x09 d a i
  | .shri d a i => formI 0x0A d a i
  | .sari d a i => formI 0x0B d a i
  | .movi d i => formU 0x0C d i
  | .exti d i => formU 0x0D d i
  | .accessCmp c d a b => formA 0x0E c d a b
  | .kand d a b => formA 0x0F 0 d a b
  | .kor d a b => formA 0x0F 1 d a b
  | .kxor d a b => formA 0x0F 2 d a b
  | .kandn d a b => formA 0x0F 3 d a b
  | .ld64 d a i => formI 0x10 d a i
  | .ld32 d a i => formI 0x11 d a i
  | .st64 d a i => formI 0x12 d a i
  | .st32 d a i => formI 0x13 d a i
  | .lds d a k s i => formX 0x14 d (k ++ s.code) a i
  | .sts d a k s i => formX 0x15 d (k ++ s.code) a i
  | .aadd d a k s i => formX 0x16 d (k ++ s.code) a i
  | .axchg d a k s i => formX 0x17 d (k ++ s.code) a i
  | .br k n o => formB 0x18 k n o
  | .calla k n o => formB 0x19 k n o
  | .jr a => formA 0x1A 0 0xFF a 0xFF
  | .jrl a => formA 0x1A 1 0xFF a 0xFF
  | .halt => formA 0x1B 0 0xFF 0xFF 0xFF
  | .agset z q x a => formX 0x20 0xFF (z ++ q ++ x) a 0
  | .aggo t x => formX 0x21 t (0#4 ++ x) 0xFF 0
  | .aghalt x => formX 0x22 0xFF (0#4 ++ x) 0xFF 0
  | .qputRegister q a => formX 0x23 0xFF (0#4 ++ q) a 1
  | .qputMemory q a => formX 0x23 0xFF (0#4 ++ q) a 0
  | .cpnd t a => formX 0x24 t 0 a 0
  | .collAllReduce t a y => formX 0x25 t 0 a (0#3 ++ bit1 y)
  | .collReduceScatter t a y => formX 0x25 t 1 a (0#3 ++ bit1 y)
  | .collAllGather t a y => formX 0x25 t 2 a (0#3 ++ bit1 y)
  | .txtok t p a => formX 0x26 t (0#5 ++ bit1 p) a 0
  | .txdet t a => formX 0x27 t 0 a 0
  | .txload t a => formX 0x28 t 0 a 0
  | .dload t slot a => formX 0x29 t slot a 0
  | .mbpost t a => formX 0x2A t 0 a 0
  | .accessFence k s => formX 0x30 0xFF (k.code ++ s.code) 0xFF 0
  | .accessWaitc n c => formX 0x31 0xFF n 0xFF c.code
  | .accessBarSync k a => formX 0x32 0xFF (0#1 ++ k) a 0
  | .accessBarArrive k a => formX 0x32 0xFF (0#1 ++ k) a 1
  | .accessBarWait k => formX 0x32 0xFF (0#1 ++ k) 0xFF 2
  | .accessSrd d n => formX 0x33 d n 0xFF 0
  | .accessSwr d n => formX 0x34 d n 0xFF 0
  | .sete d => formX 0x35 d 0 0xFF 0
  | .setf d => formX 0x36 d 0 0xFF 0
  | .accessNop => formX 0x37 0xFF 0 0xFF 0
  | .accessTrap c => formX 0x38 0xFF (c.extractLsb' 4 6) 0xFF (c.extractLsb' 0 4)
  | .accessBkpt c => formX 0x39 0xFF (c.extractLsb' 4 6) 0xFF (c.extractLsb' 0 4)
  | _ => 0

/-! ### Drain words (02 R73; 16 R366) -/

/-- A drain word. -/
def decodeDrain (x : DrainWord) : Except Reject Instr :=
  let op := (x.extractLsb' 11 5).toNat
  let d := x.extractLsb' 9 2
  let a := x.extractLsb' 6 3
  let b := x.extractLsb' 3 3
  let f := x.extractLsb' 0 3
  let three (i : Instr) : Except Reject Instr := if f = 0 then .ok i else .error .fn
  let two (i : Instr) : Except Reject Instr := if b = 0 ∧ f = 0 then .ok i else .error .fn
  let ok (c : Bool) (i : Instr) : Except Reject Instr := if c then .ok i else .error .fn
  let stream := x.extractLsb' 9 1
  match op with
  | 0x00 => ok (x == 0) .drainEnd
  | 0x01 => three (.drainAdd d a b)
  | 0x02 => three (.drainMul d a b)
  | 0x03 => three (.drainMad d a b)
  | 0x04 => three (.drainMax d a b)
  | 0x05 => three (.drainMin d a b)
  | 0x06 => three (.drainClamp d a b)
  | 0x07 => two (.drainRelu d a)
  | 0x08 => ok (b == 0 && f.toNat ≤ 4) (.drainFn d a f)
  | 0x09 => ok (f.toNat ≤ 3) (.drainSel d a b f)
  | 0x0A => ok (a == 0 && b == 0 && f.toNat ≤ 5) (.drainConst d f)
  | 0x0B => two (.drainMov d a)
  | 0x0C => ok (d.toNat ≤ 1 && b == 0) (.drainStore stream a f)
  | 0x0D => ok (d.toNat ≤ 1 && b == 0 && 1 ≤ f.toNat && f.toNat ≤ 3) (.drainStoreb stream a f)
  | _ => .error .opcode

/-- A drain word of fields (02 R73 Table 9). -/
def drainWord (op : BitVec 5) (d : BitVec 2) (a b f : BitVec 3) : DrainWord := op ++ d ++ a ++ b ++ f

/-- The word of a drain instruction; END for an instruction that is none. -/
def encodeDrain : Instr → DrainWord
  | .drainAdd d a b => drainWord 0x01 d a b 0
  | .drainMul d a b => drainWord 0x02 d a b 0
  | .drainMad d a b => drainWord 0x03 d a b 0
  | .drainMax d a b => drainWord 0x04 d a b 0
  | .drainMin d a b => drainWord 0x05 d a b 0
  | .drainClamp d a b => drainWord 0x06 d a b 0
  | .drainRelu d a => drainWord 0x07 d a 0 0
  | .drainFn d a f => drainWord 0x08 d a 0 f
  | .drainSel d a b f => drainWord 0x09 d a b f
  | .drainConst d f => drainWord 0x0A d 0 0 f
  | .drainMov d a => drainWord 0x0B d a 0 0
  | .drainStore s a f => drainWord 0x0C (0#1 ++ s) a 0 f
  | .drainStoreb s a f => drainWord 0x0D (0#1 ++ s) a 0 f
  | _ => 0

/-- The check of a DLOAD over the words of an image from index i: the index of the first word that fails, or 31 when no END
stands within 32 words (02 R74); none when the image is good. -/
def drainImageBad : List DrainWord → Nat → Option Nat
  | [], _ => some 31
  | x :: r, i =>
    match decodeDrain x with
    | .error _ => some i
    | .ok .drainEnd => none
    | .ok _ => drainImageBad r (i + 1)

/-! ### Runs (01 R33; 02 R68, R78) -/

/-- OP of a word. -/
def LaneWord.op (x : LaneWord) : BitVec 8 := x.extractLsb' 88 8

/-- Trailer fields, 02 R68 Table 7. -/
def trailerLen (x : LaneWord) : Nat := (x.extractLsb' 83 5).toNat
def trailerCmt (x : LaneWord) : Nat := (x.extractLsb' 78 5).toNat
def trailerZero (x : LaneWord) : Nat := (x.extractLsb' 72 6).toNat
def trailerAwait (x : LaneWord) (k : Nat) : BitVec 9 := x.extractLsb' (63 - 9 * k) 9

/-- A run trap at entry: ILLOPND or ILLOP, and the instruction index (01 R33, 02 R77). -/
structure RunTrap where
  illopnd : Bool
  index : Nat
deriving DecidableEq, Repr

/-- The await codes of a trailer that name a register; none if some code is not accepted (01 R33, R36; 02 R64). -/
def trailerAwaits (w : Nat) (x : LaneWord) : Nat → Option (List Operand)
  | 0 => some []
  | k + 1 =>
    match trailerAwaits w x k, Operand.ofCode (trailerAwait x k) with
    | some l, some .zero => some l
    | some l, some (.v n) => if n.toNat < w then some (if l.contains (.v n) then l else l ++ [.v n]) else none
    | some l, some (.s n) => some (if l.contains (.s n) then l else l ++ [.s n])
    | _, _ => none

/-- The checks of position p of a run (02 R78 steps 1-4); `cmt` is the trailer's CMT field if a trailer was fetched, `ridge`
whether the launch has W > 1 (12 R298). -/
def checkWord (w : Nat) (ridge : Bool) (len : Nat) (cmt : Option Nat) (p : Nat) (x : LaneWord) : Except RunTrap Instr :=
  match decodeLane w (p == len) x with
  | .error r => .error ⟨r.isOperand, p⟩
  | .ok i =>
    let c := cmt.getD 0
    if i.laneOp = 0xF3 ∧ !ridge then .error ⟨false, p⟩
    else if i.isControl ∧ p ≠ len then .error ⟨false, p⟩
    else if cmt.isSome ∧ i.commitClass ∧ p ≠ c then .error ⟨false, p⟩
    else if 0 < c ∧ c < p ∧ !i.afterCommitOk then .error ⟨false, p⟩
    else .ok i

/-- The checks of positions p, p+1, ... -/
def checkWords (w : Nat) (ridge : Bool) (len : Nat) (cmt : Option Nat) : Nat → List LaneWord → Except RunTrap (List Instr)
  | _, [] => .ok []
  | p, x :: r =>
    match checkWord w ridge len cmt p x with
    | .error e => .error e
    | .ok i =>
      match checkWords w ridge len cmt (p + 1) r with
      | .error e => .error e
      | .ok l => .ok (i :: l)

/-- A run that has passed its checks: its instructions, CMT and await list. -/
structure RunOk where
  instrs : List Instr
  cmt : Nat
  awaits : List Operand
deriving DecidableEq, Repr

/-- The checks of run entry over the fetched words: at most 24 words without OP 0xFE and, if found, the trailer
(01 R33, 02 R55, R78). -/
def checkRun (w : Nat) (ridge : Bool) (words : List LaneWord) (trailer : Option LaneWord) : Except RunTrap RunOk :=
  let len := match trailer with
    | some _ => words.length
    | none => 24
  if trailer.isSome ∧ len = 0 then .error ⟨false, 1⟩ else
  match checkWords w ridge len (trailer.map trailerCmt) 1 (words.take len) with
  | .error e => .error e
  | .ok is =>
    match trailer with
    | none => .error ⟨false, len⟩
    | some t =>
      let cmt := trailerCmt t
      if trailerLen t ≠ len ∨ trailerZero t ≠ 0 ∨ len < cmt then .error ⟨false, len⟩
      else if cmt ≠ 0 ∧ !((is.getD (cmt - 1) default).commitClass) then .error ⟨false, len⟩
      else
        match trailerAwaits w t 8 with
        | none => .error ⟨true, len⟩
        | some a => .ok ⟨is, cmt, a⟩

/-! ### The host's interface -/

/-- The decoder on a word of the opcode table: up to 16 bits a drain word, up to 32 an access word, else a lane word, taken
with its own LAST and the widest window. -/
def decodeTableWord (nbits w : Nat) : Option Instr :=
  let r := if nbits ≤ 16 then decodeDrain (BitVec.ofNat 16 w)
    else if nbits ≤ 32 then decodeAccess (BitVec.ofNat 32 w)
    else decodeLane 256 ((BitVec.ofNat 96 w).getLsbD 36) (BitVec.ofNat 96 w)
  match r with
  | .ok i => some i
  | .error _ => none

end Sys2Proof
end

