-- ==== Sys2Proof/Config.lean ====
section
/-!
DEFINITION. What an implementation fixes, and the free values: constants with no body, of which nothing can be proved.
-/
namespace Sys2Proof.Config

/-- Which agent moves at a tick when the state's agenda names none, and what the world outside supplies with it (log 2). The
spec leaves the order of agents open (01 R31, 14 R330). FREE VALUE. -/
opaque move : Nat → Agent

/-- A choice the spec leaves to the device: whether a cached copy is kept or used (08 R217, 12 R284, 14 R322, R324,
15 R346, 02 R79; log 5). FREE VALUE, applied to the state's counter. -/
opaque coin : Nat → Bool

/-- A byte that no rule defines: read under another key (12 R302, 21 R450), or overlapping copy bytes (17 R382); log 6.
FREE VALUE, applied to the state's counter and a byte index. -/
opaque freeByte : Nat → Nat → BitVec 8

/-- Whether a chip belongs to a tenant partition (17 R384; log 29): what the fabric's owner decides. FREE VALUE, applied to the
partition and the chip. -/
opaque partChip : Nat → Nat → Bool

/-- Whether the kernel at a lane entry of an address space contains an instruction of 0xD0-0xD4 (15 R338; log 75): a property of
the whole kernel, which the spec does not delimit. FREE VALUE, applied to the root and the entry. -/
opaque matrixKernel : Nat → BitVec 64 → Bool

/-- The home L2 slice of a 256-byte granule, a fixed function that programs do not see (12 R283; log 7). FREE VALUE. -/
opaque homeSlice : Nat → Nat

/-- Whether a host physical address belongs to a PCIe peer that the host maps in the host window (12 R292; log 14): the host
decides. FREE VALUE. -/
opaque isPeer : Nat → Bool

/-- Which Traverse port carries the requests to a chip (21 R443-R445; log 16): the fabric's routing. FREE VALUE. -/
opaque route : Nat → Nat

/-- The CHIP number that the fabric gives this device (00 R10, 01 R28; log 8): DESIGN CHOICE, because the spec gives a width
and no value. -/
def chip : BitVec 9 := 0

/-- The security version below which a firmware image is refused, before any load (21 R452; log 9): DESIGN CHOICE. -/
def firmwareVersion : Nat := 0

end Sys2Proof.Config
end

