-- ==== Sys2Proof/Machine/State.lean ====
section
/-!
DEFINITION. The state of one XQ-7760 device, as plain data: everything spec/ gives the machine (INVENTORY.md, State).
Tables are `AMap`s: an absent key of a register table, a memory or a matrix table reads as the default that the field names.
-/
namespace Sys2Proof.Machine

open Sys2Proof

/-! ### Registers and the split table (04, 07) -/

/-- A register's full/empty bit with the mark of a pending fill (04 R122, R124). -/
inductive Fullness where
  | full | empty | pending
deriving DecidableEq, Repr, Inhabited

/-- Where a reply, a load or a token is written. A V register is named by its chunk slot (04 R115), so a later move of the
window does not change what it names. -/
inductive Dest where
  | none | v (slot : Nat) | t (n : Nat) | s (n : Nat)
deriving DecidableEq, Repr, Inhabited

/-- PARENT of a split table entry (07 R188): a table entry, a stack slot, or none (0x3F). -/
inductive Parent where
  | none | entry (n : Nat) | slot (n : Nat)
deriving DecidableEq, Repr, Inhabited

/-- STATE of an entry, 07 R189 Table 2. -/
inductive SplitState where
  | ready | awaitingFull | atReconvergence | parked | faulted | trapped
deriving DecidableEq, Repr, Inhabited

/-- Causes, 20 R422 Table 3. -/
inductive Cause where
  | illop | illopnd | emptyRead | align | xlate | perm | capflt | ridgeGone | splitOvf | deadNode | fp | bkpt | trap
  | memErr | kvFull | hang
deriving DecidableEq, Repr, Inhabited

/-- A trap record, 20 R421 Table 2, field by field. -/
structure TrapRec where
  mask : LaneMask
  addr : PC
  pc : PC
  code : BitVec 16
  flags : BitVec 5
  postc : Bool
  xfer : Bool
  index : Nat
  acc : Bool
  split : Nat
  sub : Nat
  cause : Cause
deriving DecidableEq, Repr, Inhabited

/-- A post-commit trapping event of a run, waiting for the run's completion (20 R424). -/
structure PostTrap where
  cause : Cause
  index : Nat
  mask : LaneMask
  flags : BitVec 5
deriving DecidableEq, Repr, Inhabited

/-- Which control instruction a pending transfer belongs to (07 R191). -/
inductive XferKind where
  | jump | call | ret | brk | exit | trap | bkpt | nop
deriving DecidableEq, Repr, Inhabited

/-- The transfer that a run's control instruction leaves for the run's completion (07 R192): its active lanes, the sets of
equal targets read at issue with whether each is checked (JMPI, CALLI), the reconvergence PC, and its number. -/
structure Xfer where
  kind : XferKind
  active : LaneMask
  parts : List (LaneMask × VAddr)
  indirect : Bool
  rc : Option PC
  num : Nat
  at' : PC
deriving DecidableEq, Repr, Inhabited

/-- The transfer block after SPLITOVF (20 R420): the parts of the transfer with their next PCs, and rc. -/
structure XferBlock where
  entry : Nat
  xfer : Xfer
deriving DecidableEq, Repr, Inhabited

/-- What follows a slide (04 R118): the next run; an arrival (R121); the transfer of the run that requested the base; or the
delivery of the lanes it moved (07 R198, R199). -/
inductive SlideThen where
  | goOn | arrive | transfer | deliver
deriving DecidableEq, Repr, Inhabited

/-- A window slide of a split (04 R117-R119). `moved` is set once its accesses are made and its fills have yet to land. -/
structure Slide where
  lanes : LaneMask
  src : Nat
  dst : Nat
  after : SlideThen
  moved : Bool
deriving DecidableEq, Repr, Inhabited

/-- A barrier phase that a stream waits for (19 R410, R411). -/
structure BarWait where
  k : Nat
  phase : Nat
deriving DecidableEq, Repr, Inhabited

/-- An entry of the split table or a slot of the split stack, 07 R188 Table 1, with the run it is in. -/
structure Entry where
  join : Bool
  callf : Bool
  st : SplitState
  mask : LaneMask
  pend : LaneMask
  pc : PC
  rpc : PC
  wbase : Nat
  runpos : Nat
  parent : Parent
  age : Nat
  await : List Operand
  /-- the fault pair (instruction index, DONE), 13 R315 -/
  doneIx : Nat
  done : LaneMask
  /-- the run's instruction words and trailer, fetched whole at entry (01 R33, 02 R79); none between runs -/
  run : List LaneWord
  cmt : Nat
  runAwait : List Operand
  reqBase : Option Nat
  xfer : Option Xfer
  post : List PostTrap
  /-- replies that hold the run's completion (09 R230, 11 R274) -/
  holds : List Nat
  barWait : List BarWait
  slide : Option Slide
  trapRec : Option TrapRec
  /-- the set of fault records that parked it (22 R464) -/
  parkSet : Option Nat
  /-- the control instruction that resumption issues alone (20 R424) -/
  resumeCtl : Bool
  /-- the state to go back to after a HANG park (20 R432) -/
  hangOld : Option SplitState
deriving DecidableEq, Repr, Inhabited

/-- An entry of an operand queue, 17 R372: 64 values and the split entry whose run holds it. -/
structure QEntry where
  vals : List Word32
  held : Option Nat
deriving DecidableEq, Repr, Inhabited

/-- STATE of an AGE stream, 17 R376. -/
inductive AgeState where
  | idle | set | run | park
deriving DecidableEq, Repr, Inhabited

/-- An AGE stream, 17 R376 Table 2. -/
structure Age where
  st : AgeState
  base : Nat
  len : Nat
  size : Nat
  queue : Nat
  next : Nat
  token : BitVec 8
  /-- a descriptor bit was reserved, or the stream had not been set (R378) -/
  bad : Bool
  halt : Bool
  err : Option Nat
  pc : PC
  parkSet : Option Nat
deriving DecidableEq, Repr, Inhabited

/-! ### Accesses in flight (13, 14) -/

/-- The stream of a group that made an access (14 R319). -/
inductive Stream where
  | lane | access
deriving DecidableEq, Repr, Inhabited

/-- What a lane's access does (13 R307, R309-R311). -/
inductive AccWhat where
  | load (fmt : Fmt) (dst : Dest)
  | store (data : BitVec 64) (fmt : Fmt)
  | rmw (fn : AtomFn) (data cmp : BitVec 64) (ret : Bool) (dst : Dest)
deriving DecidableEq, Repr, Inhabited

/-- Where an access is performed (13 R312). -/
inductive Place where
  | cached (pa : Nat)            -- HBM or host memory, HOME 0
  | home (pa : Nat)              -- HOME 2, HOME 3, PCIe peer
  | pinned (core pa : Nat)       -- HOME 1: the copy of the holding core
  | scratch (tid off : Nat)      -- team scratchpad
  | remote (chip : Nat) (t : RemoteTarget)
deriving DecidableEq, Repr, Inhabited

/-- How far an access has come (13 R306, R312, R318). `sent` waits for the answer of another device. -/
inductive AccStage where
  | issued | faulted | accepted | settled | sent | returned (val : BitVec 64)
deriving DecidableEq, Repr, Inhabited

/-- One lane's access, or an access word's (lane 0). `po` is the lane set that orders it (14 R320: the issuing split's mask,
widened when splits fuse); `fence` is the number of the first divergence or fusion that follows it, 0 if none (R321). -/
structure LaneAcc where
  op : Nat
  stream : Stream
  entry : Nat
  index : Nat
  pc : PC                     -- run PC, or the access word's address
  lane : Nat
  po : LaneMask
  fence : Nat
  addr : VAddr
  size : Nat
  kind : Kind
  scope : Scope
  nt : Bool
  what : AccWhat
  stage : AccStage
  place : Place
  key : Nat
  home : Nat
  efmt : Nat
  gap : Nat
  record : Option (Place × Nat)  -- place and key of the block's scale record (13 R309, R310)
  faultCause : Cause
  faultSub : Nat
  faultLevel : Nat
  faultAddr : VAddr
deriving DecidableEq, Repr, Inhabited

/-- An outstanding operation of a class, in issue order (19 R405); `fin` once it has completed. `from` says which instruction
issued it. -/
structure Op where
  id : Nat
  cls : Cls
  fin : Bool
  entry : Nat
  index : Nat
  lanes : LaneMask
deriving DecidableEq, Repr, Inhabited

/-! ### Groups, teams, launches (01) -/

/-- A group, resident or saved (01 R26-R30, 04 R110, 06 R187, 20 R420). -/
structure Group where
  tid : Nat
  ix : Nat
  stage : Nat
  die : Nat
  core : Nat
  quarter : Nat
  slot : Nat
  saved : Bool
  w : Nat
  v : AMap Word32            -- key 64 * slot + lane; default 0
  vst : AMap Fullness        -- default full
  s : AMap Word64            -- default 0
  sst : AMap Fullness        -- default full
  p : AMap LaneMask          -- P0-P6; default 0
  k : BitVec 4               -- K1-K3 in bits 1-3
  t : AMap Word32            -- key 64 * n + lane
  tst : AMap Fullness        -- default empty
  oq : AMap (List QEntry)    -- default []
  fpFlags : AMap (BitVec 5)  -- per lane; default 0
  fpEnable : AMap (BitVec 5) -- per lane; default 0
  mxFlags : BitVec 5
  rspb : Word64
  tag : Word32
  table : AMap Entry         -- 8 entries
  stack : AMap Entry         -- 64 slots
  ages : Nat
  apc : PC
  aHalted : Bool
  aStopped : Bool
  aTrap : Option TrapRec
  aSet : Option Nat
  aNext : Bool               -- resume with the next word (TRAP, BKPT)
  aLoad : Option Nat         -- the access whose value the present word waits for
  aBar : Option BarWait
  age : AMap Age             -- AGE streams
  ops : List Op
  accs : List LaneAcc
  xblock : List XferBlock
  hangCnt : Nat
  hangSet : Option Nat
  gstop : Bool
  stopReq : Bool
  killed : Bool
  handled : Bool             -- a handler killed lanes of it
  left : LaneMask            -- lanes that have exited or been killed
  detached : Bool
  retired : Bool
  born : Nat                 -- placement or resumption time (01 R46)
  waited : Nat               -- issue cycles ready and not chosen (01 R46)
  aWaited : Nat              -- access-issue cycles ready and not chosen (06 R165)
deriving DecidableEq, Repr, Inhabited

/-- A barrier record, 19 R407 Table 2. -/
structure BarRec where
  phase : Nat
  count : Nat
  arr : Nat
  bound : Bool
  owner : Nat
  num : Nat
deriving DecidableEq, Repr, Inhabited

/-- What a member knows of another member team of its position; `acked` once it has acknowledged the departure (12 R298-R300). -/
inductive MemberState where
  | live | detached | departed | acked
deriving DecidableEq, Repr, Inhabited

/-- Macro tags, 15 R337. -/
inductive MacTag where
  | none | xb | int8 | bf16lo | bf16hi
deriving DecidableEq, Repr, Inhabited

/-- A team (01 R26, R40, R51). -/
structure Team where
  launch : Nat
  pos : Nat                  -- linear index in the grid (01 R41)
  die : Nat
  cores : List Nat           -- in placement order
  gids : List Nat
  scratch : AMap Byte        -- team scratchpad; default 0 (12 R291)
  statusMax : Nat
  nonZero : Nat
  killed : Nat
  live : Nat                 -- groups not retired
  saved : Bool
  saving : Bool
  detached : Bool            -- every group detached or retired (12 R298)
  done : Bool                -- every group retired (12 R299)
  retired : Bool
  departed : Bool
  others : AMap MemberState  -- other members of the position
  acks : List Nat            -- members that have acknowledged this team's departure (12 R300)
  bars : AMap BarRec         -- records of a spanning team (19 R408)
  phases : AMap Nat          -- completed phases of barrier k of a one-core team between bindings
  seen : AMap Nat            -- key 256 * k + core: phase delivered to the core (19 R408)
  images : AMap (List DrainWord)   -- drain images saved with it, key 64 * index of core + slot (16 R361)
  macs : AMap (AMap Byte)    -- matrix state saved with it, by quarter in placement order (15 R338)
  tiles : AMap (AMap Word32)
  tags : AMap (AMap MacTag)
  exps : AMap (AMap (BitVec 9))
  invs : AMap (AMap Bool)
deriving DecidableEq, Repr, Inhabited

/-- A consumed launch (01 R29, R42, R51, R52; 19 R414-R416). -/
structure Launch where
  queue : Nat
  seq : Nat
  pass : Nat
  ridx : Nat
  prio : Nat
  fserv : Bool
  priv : Bool
  keys : BitVec 64           -- further key ids of the policy in force when the packet was consumed (21 R453)
  part : Nat
  root : Nat
  params : LaunchParams
  member : Nat
  ref : LaunchRef
  nextTeam : Nat
  teamsLeft : Nat
  reserved : Option (Nat × List Nat)   -- ridge reservation of the next position: die and cores (01 R42)
  replies : List Nat                   -- members that have answered the reservation
  tot : Totals
  memberTotals : List Nat
  errsum : BitVec 64
  ieee : BitVec 5
  ended : Bool
deriving DecidableEq, Repr, Inhabited

/-! ### Matrix, drains and engines (15, 16, 17, 11) -/

/-- A matrix operation (15 R342). -/
inductive MxKind where
  | mldb | mma | mdrn | mzero
deriving DecidableEq, Repr, Inhabited

/-- Where a matrix operation stands (15 R343, R344, R347, R355). `linked` waits for its barrier phase; `running` has a cursor:
for MLDB the macro and column reached, for the others none. -/
inductive MxStage where
  | queued | linked | running | parked | draining | drainParked | finished
deriving DecidableEq, Repr, Inhabited

structure MxOp where
  id : Nat
  gid : Nat
  kind : MxKind
  fmt : Fmt
  rows : LaneMask
  addr : VAddr
  desc : VAddr
  ti : Nat
  mj : Nat
  n : Nat
  den : Bool
  slot : Nat
  stage : MxStage
  bar : Option BarWait
  curT : Nat
  curC : Nat
  flags : BitVec 5
  narrow : Bool
  pc : PC
  index : Nat
  parkSet : Option Nat
deriving DecidableEq, Repr, Inhabited

/-- A running drain with its own copies (16 R361-R365). `hold` keeps the values of an unfinished STOREB block. -/
structure Drain where
  op : Nat
  image : List DrainWord
  c0 : List Word32
  c1 : List Word32
  w0 : List Word32
  w1 : List Word32
  mask : List Byte
  out0 : Nat
  out1 : Nat
  str0 : Int
  str1 : Int
  row : Nat
  col : Nat
  word : Nat
  d0 : Word32
  d1 : Word32
  d2 : Word32
  d3 : Word32
  hold : AMap Word32
  flags : BitVec 5
deriving DecidableEq, Repr, Inhabited

/-- A slot of a core's drain store, 16 R359. -/
structure DrainSlot where
  full : Bool
  owner : Nat
  image : List DrainWord
deriving DecidableEq, Repr, Inhabited

/-- A copy-engine command, 17 R381-R383: its descriptor and the elements done in walk order. -/
structure CpOp where
  id : Nat
  gid : Nat
  token : BitVec 8
  desc : List Word64
  written : Nat
  parkSet : Option Nat
  pc : PC
deriving DecidableEq, Repr, Inhabited

/-- A collective member's command, 17 R384-R386. -/
structure CollOp where
  id : Nat
  gid : Nat
  token : BitVec 8
  op : Nat
  bf16 : Bool
  src : VAddr
  dst : VAddr
  n : Nat
  m : Nat
  cid : Nat
  listAddr : VAddr
  chips : List Nat
  me : Nat
  out : List Word32
  outAt : Nat
  matched : Bool
  parkSet : Option Nat
  result : Option Word64
  pc : PC
deriving DecidableEq, Repr, Inhabited

/-- A text-engine command, 11 R262. -/
inductive TextKind where
  | txtok (priv : Bool) | txdet | txload | mbpost
deriving DecidableEq, Repr, Inhabited

structure TextOp where
  id : Nat
  gid : Nat
  die : Nat
  token : BitVec 8
  kind : TextKind
  desc : List Word64
  consumed : Nat
  wrote : Nat
  units : Nat                -- TXTOK: words and control pieces done
  buf : List Byte            -- TXTOK: source bytes read; TXDET: bytes held
  pos : Nat                  -- TXDET: POS
  begun : Bool               -- TXDET: the state block has been read
  parkSet : Option Nat
  image : Option (AMap Byte) -- TXLOAD: checked bytes that wait for the replacement
  pc : PC
deriving DecidableEq, Repr, Inhabited

/-- A DLOAD in the group's matrix order, 16 R360. -/
structure DlOp where
  id : Nat
  gid : Nat
  token : BitVec 8
  addr : VAddr
  slot : Nat
  parkSet : Option Nat
  pc : PC
deriving DecidableEq, Repr, Inhabited

/-- A loaded lexicon or grammar image (11 R265): where it stands, and its bytes as the load read them, by offset; default 0. -/
structure Image where
  part : Nat
  root : Nat
  base : VAddr
  old : AMap Byte
deriving DecidableEq, Repr, Inhabited

/-- A grammar stack cell, 11 R272. -/
structure Cell where
  sym : Nat
  next : Nat
  count : Nat
deriving DecidableEq, Repr, Inhabited

/-! ### Trees and key-value pages (09, 10) -/

structure Node where
  token : Nat
  depth : Nat
  seg : Nat
  parent : Nat
  slot : Nat
  nokv : Bool
  gstate : Nat
  gcell : Nat
deriving DecidableEq, Repr, Inhabited

structure Seg where
  first : Nat
  last : Nat
  dfirst : Nat
  dlast : Nat
  up : Nat
  bset : BitVec 64
deriving DecidableEq, Repr, Inhabited

structure Branch where
  leaf : Nat
  age : Nat
  rows : List Nat
  fill : Nat
deriving DecidableEq, Repr, Inhabited

/-- Commit compaction of a tree, 10 R258-R260: branches of K in ascending AGE, their new lists as far as assigned, cursor. -/
structure Compaction where
  kset : List Nat
  lists : AMap (List Nat)
  fresh : List Nat
  ord : Nat
  depth : Nat
  layer : Nat
  asgBranch : Nat
  asgIndex : Nat
  full : Bool
  parkSet : Option Nat
  finished : Bool
deriving DecidableEq, Repr, Inhabited

/-- A tree record, 09 R222, with its branches, nodes and segments. -/
structure Tree where
  live : Bool
  gen : Nat
  owner : Nat
  gset : Nat
  layers : Nat
  busy : Bool
  root : Nat                 -- translation root of the launch that created it (10 R257)
  nodes : AMap Node
  branches : AMap Branch
  segs : AMap Seg
  lastbr : Nat
  ages : Nat
  comp : Option Compaction
deriving DecidableEq, Repr, Inhabited

inductive TreeKind where
  | trnew | tradd | trfork | pruneBr | pruneSub | commit | info (field : Nat) | tag | amask | gmask (pred : Nat)
  | kvRd (half : Nat) | kvOwn (half : Nat) | drawCl | drawTok (tile : Nat)
deriving DecidableEq, Repr, Inhabited

/-- A tree, KV, mask or draw operation between issue and reply (09 R228, 10 R255, 11 R274, R277). -/
structure TreeOp where
  id : Nat
  gid : Nat
  entry : Nat
  index : Nat
  kind : TreeKind
  part : Nat
  die : Nat
  lanes : LaneMask
  dst : Dest
  a : Word64
  b : Word64
  c : Word64
  x : List Word32
  chk : Bool
  /-- the results, once its unit has performed it -/
  reply : Option (List Word32)
  noLegal : Bool
deriving DecidableEq, Repr, Inhabited

inductive RowState where
  | free | live | releasing
deriving DecidableEq, Repr, Inhabited

structure Row where
  st : RowState
  count : Nat
deriving DecidableEq, Repr, Inhabited

structure Pool where
  kvb : Nat
  lmax : Nat
  row0 : Nat
  nr : Nat
deriving DecidableEq, Repr, Inhabited

/-- A cancellation or release broadcast that cores have yet to acknowledge (09 R244, R245, 10 R253). -/
structure Bcast where
  id : Nat
  release : Bool
  pairs : List (Nat × Nat)
  part : Nat
  rows : List Nat
  /-- cores (96 * die + core) that it has reached, and cores that have acknowledged -/
  reached : List Nat
  acked : List Nat
  /-- operations and accesses that had been issued when it reached their core (10 R253) -/
  waits : List (Nat × Nat)
deriving DecidableEq, Repr, Inhabited

/-! ### Queues, faults and edges (18, 17, 20, 21) -/

inductive QState where
  | run | wait | stopped
deriving DecidableEq, Repr, Inhabited

/-- What the packet being consumed waits for (18 R399-R401). A CMAINT holds its FORM and its range, with the physical page of
each 4 KiB of it; a flip (forms 4, 5) holds the pages not yet flipped, and `lo` is 1 while the first of them is being
flipped for it. -/
inductive Busy where
  | none
  | cmaint (form : Nat) (lo hi : Nat) (pages : List Nat)
  | waitev (addr : VAddr) (target : Nat) (scope : Scope)
  | signal (add : Bool) (addr : VAddr) (val : Word64) (scope : Scope)
  | prologue (entry : VAddr) (arg : Word64) (window : List Byte) (pass : Nat)
deriving DecidableEq, Repr, Inhabited

/-- Lost records, 18 R477. -/
structure Lost where
  cause : Cause
  sub : Nat
  seq : Nat
  count : Nat
deriving DecidableEq, Repr, Inhabited

structure Queue where
  cfg : QueueConfig
  st : QState
  ridx : BitVec 32
  widx : BitVec 32
  seq : BitVec 32
  lost : Option Lost
  busy : Busy
deriving DecidableEq, Repr, Inhabited

/-- Source of a fault record, 17 R388. -/
inductive FSource where
  | lane | access | slide | engine | fetch
deriving DecidableEq, Repr, Inhabited

/-- ENGINE of a fault record, 17 R388. -/
inductive FEngine where
  | none | age | copy | coll | mldb | drain | dload | text | compaction
deriving DecidableEq, Repr, Inhabited

/-- What a fault record parks or stops, so that an answer can find it (17 R389, 22 R464). -/
inductive FWho where
  | split (gid entry : Nat) | access (gid : Nat) | age (gid stream : Nat) | cp (op : Nat) | coll (op : Nat) | mx (op : Nat)
  | dload (op : Nat) | text (op : Nat) | comp (key : Nat) | hang (gid : Nat) | nothing
deriving DecidableEq, Repr, Inhabited

/-- A fault record, 17 R388 Table 5, field by field; `set` and `who` are the model's names of its set and source. -/
structure FRec where
  estate : BitVec 192
  rseq : Nat
  lseq : Nat
  queue : Nat
  done : LaneMask
  addr : PC
  pc : PC
  lanev : Bool
  lane : Nat
  index : Nat
  split : Nat
  slot : Nat
  quarter : Nat
  core : Nat
  die : Nat
  engine : FEngine
  source : FSource
  info : Bool
  level : Nat
  sub : Nat
  cause : Cause
  set : Nat
  who : FWho
  launch : Option Nat
deriving DecidableEq, Repr, Inhabited

/-- Bias of a page, 08 R218; a flip in progress has its next line, and a flip to device whether the host has answered the
line's snoop (24 R473). -/
inductive Bias where
  | host | toHost (line : Nat) | toDevice (line : Nat) (answered : Bool)
deriving DecidableEq, Repr, Inhabited

/-- A write-combining entry, 12 R293. -/
structure WcEntry where
  chip : Nat
  target : RemoteTarget
  key : Nat
  data : AMap Byte
  writers : List Nat
deriving DecidableEq, Repr, Inhabited

/-- Who waits for a request's answer. -/
inductive ReqWho where
  | acc (gid op lane : Nat) | drain (launches : List Nat) (gids : List Nat)
deriving DecidableEq, Repr, Inhabited

/-- A request sent to another device and not answered (14 R334). -/
structure Req where
  who : ReqWho
  chip : Nat
  target : RemoteTarget
  port : Nat
deriving DecidableEq, Repr, Inhabited

/-- A Traverse port, 21 R443-R445: per channel (REQ 0, RSP 1) whether the peer has stopped it; failed resends. -/
structure Port where
  up : Bool
  stopReq : Bool
  stopRsp : Bool
  fails : Nat
deriving DecidableEq, Repr, Inhabited

/-- TDISP states, 21 R449. -/
inductive Tdisp where
  | unlocked | locked | run | error
deriving DecidableEq, Repr, Inhabited

structure Partition where
  keyLoaded : Bool
  keyEpoch : Nat
  policy : Policy
  hlog : Nat
  tdisp : Tdisp
  scaleBase : Option Nat
  cowPages : List Nat
  ridgeRoot : Option Nat
deriving DecidableEq, Repr, Inhabited

structure Die where
  point : Nat
  moving : Option Nat        -- operating point commanded and not settled (01 R44)
  permitted : BitVec 8
  alarm : Bool
  plim : Nat
  corrections : Nat
deriving DecidableEq, Repr, Inhabited

/-- A page pinned to a core, 12 R286. -/
structure Pin where
  key : Nat
  launch : Nat
  core : Nat
  size : Nat
  data : AMap Byte
deriving DecidableEq, Repr, Inhabited

/-- A translation that a translation cache holds, 08 R217. -/
structure Leaf where
  pfn : Nat
  size : Nat
  r : Bool
  w : Bool
  xl : Bool
  xa : Bool
  cow : Bool
  kv : Bool
  home : Nat
  efmt : Nat
  gap : Nat
  key : Nat
  tid : Nat
deriving DecidableEq, Repr, Inhabited

/-- Stages of start, 21 R456. -/
inductive Stage where
  | off | baseCamp | ready | failed
deriving DecidableEq, Repr, Inhabited

/-- Module power states, 21 R457. -/
inductive Power where
  | ps0 | ps1 | ps2 | ps3
deriving DecidableEq, Repr, Inhabited

/-- What the device gives to the world outside it. -/
inductive OutMsg where
  | cxlData (fn addr : Nat) (bytes : List Byte) (poison : Bool)
  | reply (chip : BitVec 9) (tag : Nat) (status : RemoteStatus) (bytes : List Byte)
  | request (id chip port : Nat) (target : RemoteTarget) (key : Nat) (op : Option RemoteOp)
  | drain (id chip port : Nat) (target : RemoteTarget) (key : Nat) (bytes : List Byte) (mask : BitVec 64) (crc : BitVec 32)
  | snoop (page line : Nat)
  | mailbox (die : Nat) (ids : List Word32) (fin : Bool) (stream seq : Nat)
  | spdm (fn : Nat) (r : SpdmRequest) (stage : Stage) (version : Nat) (policy : Policy)
  | record (r : FRec)
  | notice (r : TrapRec) (gid : Nat)
  | notReady
  | thermtrip
  | resend (port ch : Nat)
  | ridge (launch : LaunchRef) (pos member : Nat) (what : Nat)
  | ridgeParams (chip : Nat) (p : RidgeParams)
  | ridgeTotals (launch : LaunchRef) (member : Nat) (t : Totals)
  | perf (value : Nat)
  | queueStatus (q : Nat) (lost : Option Lost)
  | status (stage : Stage) (thermtrip : Bool) (crcErrors : Nat) (crcLast : Option (Nat × Nat)) (dropped : Nat) (corrections : List Nat)
deriving DecidableEq, Repr, Inhabited

/-- The device. -/
structure State where
  -- the model's own (INVENTORY.md, State; logs 1-3)
  tick : Nat
  agenda : List Agent
  focus : Agent
  nextId : Nat
  outbox : List OutMsg
  -- memory, caches, translation (12, 14, 08)
  mem : List Host.Cell        -- local physical bytes; an unlisted byte reads 0 (log 4)
  poison : List Nat           -- lines that hold uncorrectable data (21 R454)
  keyOf : AMap (Nat × Nat)    -- byte: key id and key epoch it was last written under (12 R302, 21 R450)
  cc : AMap (Byte × Option Nat) -- cluster caches: key cluster * 2^56 + pa; value, and if dirty the key id it goes back under
  l1 : AMap Byte              -- L1 copies: key core * 2^56 + pa
  rl : AMap Byte              -- remote lines in L2, by fabric-physical address (14 R324)
  slicePins : AMap Nat        -- slice-pinned lines: line and slice (12 R287)
  pins : AMap Pin             -- core-pinned pages, by physical page address / 4096 (12 R286)
  tcache : AMap (AMap Leaf)   -- translation caches: root, then 4 KiB piece of virtual address (08 R217)
  stcache : AMap (AMap (Nat × Nat))  -- cached scale-table entries: partition, then TID (08 R216, R217)
  fcache : AMap (List Nat × List Byte)  -- fetch paths: key 2 * pa for the 192-byte lane bundle whose first line is at pa, 2 * pa + 1
                              -- for an access line; the physical lines it came from, and its bytes (02 R79)
  bias : AMap Bias            -- 4 KiB pages of HBM; default DEVICE
  wc : AMap (List WcEntry)    -- write-combining buffer of each core, oldest first
  reqs : AMap Req
  ports : AMap Port
  crcErrors : Nat
  crcLast : Option (Nat × Nat)
  cxlDropped : Nat
  -- work (01)
  groups : AMap Group
  teams : AMap Team
  launches : AMap Launch
  coreBars : AMap BarRec      -- key 32 * core id + record: the bound records of one-core teams (19 R408)
  drainStore : AMap DrainSlot -- key 64 * core id + slot
  -- matrix state by quarter id (15 R337)
  macs : AMap Byte            -- key ((quarter * 8 + macro) * 128 + column) * 128 + k; default 0
  tags : AMap MacTag          -- key quarter * 8 + macro; default NONE
  exps : AMap (BitVec 9)      -- key ((quarter * 8 + macro) * 128 + column) * 4 + K-block; default 0
  invs : AMap Bool            -- the same key; default false
  tiles : AMap Word32         -- key ((quarter * 8 + tile) * 64 + row) * 128 + column; default +0
  scales : AMap (AMap (BitVec 16)) -- scale caches: quarter, then (TID, block number)
  narrow : AMap Bool          -- MXNARROW by quarter
  mxOps : List MxOp
  dlOps : List DlOp
  drains : AMap Drain         -- running drains by operation
  cpOps : List CpOp
  collOps : List CollOp
  textOps : List TextOp
  mailbox : AMap (List (List Word32 × Bool × Nat × Nat))  -- by die: ids, END, stream, sequence
  mbSeq : AMap Nat            -- by die * 65536 + stream
  lexicons : AMap Image       -- by slot; the engines of both dies hold the same
  grammars : AMap Image       -- by partition * 256 + set
  cells : AMap Cell           -- key (partition * 2 + die) * 2^21 + link
  -- trees and pages
  trees : AMap Tree           -- key die * 8192 + slot
  treeOps : List TreeOp
  pools : AMap Pool           -- key partition * 2 + die
  rows : AMap Row             -- key partition * 2^28 + row
  freeRows : AMap (List Nat)  -- key partition * 2 + die, top first
  bcasts : List Bcast
  -- queues, faults, firmware, power
  queues : AMap Queue
  pushQ : List FRec           -- records waiting for room (17 R387)
  faultQ : List FRec
  rseq : Nat
  forwarded : List FRec       -- records with the firmware, or forwarded to the driver and not answered
  notices : List StopRef      -- trap notices not yet taken
  pendingNotices : List StopRef  -- forwarded to the driver and not answered
  parts : AMap Partition
  dies : AMap Die
  perf : AMap (Nat × Nat × Nat)  -- key core id * 8 + counter: select, partition, value
  stage : Stage
  power : Power
  powerWant : Option Power    -- PS1 or PS2, commanded while teams are still being pre-empted (21 R457)
  fwVersion : Nat
  thermtrip : Bool
deriving DecidableEq, Repr, Inhabited

/-- Why a step stops. -/
inductive Fault where
  /-- Raised by the meaning of a lane, access or drain word when the state's focus names no stream of that kind that stands at
  a word: no program issues, so there is nothing whose word it could be. Safe: `step` never executes a word so. -/
  | noIssuer
deriving DecidableEq, Repr, Inhabited

/-- Why a step has no meaning. -/
inductive Refusal where
  /-- An instruction that this model does not execute yet, by its mnemonic. Safe. Raised by no arm of the finished model. -/
  | notModelled (mnemonic : String)
deriving DecidableEq, Repr, Inhabited

/-- A partition before anything is loaded for it: 21 R449, R453, 20 R432. -/
def Partition.reset : Partition :=
  { keyLoaded := false, keyEpoch := 0, policy := ⟨0, false, false, false, false⟩, hlog := 28, tdisp := .unlocked,
    scaleBase := none, cowPages := [], ridgeRoot := none }

/-- A die at OP0 with no alarm and PLIM 800 W (21 R458, R459). That all eight points are permitted is a DESIGN CHOICE
(log 10): the spec gives no reset value. -/
def Die.reset : Die := { point := 0, moving := none, permitted := 0xFF, alarm := false, plim := 800, corrections := 0 }

/-- The device right after reset, before PERST# is released (21 R456): nothing resident, no queue, every page in device bias. -/
def State.reset : State :=
  { tick := 0, agenda := [], focus := .idle, nextId := 1, outbox := [],
    mem := [], poison := [], keyOf := [], cc := [], l1 := [], rl := [], slicePins := [], pins := [], tcache := [],
    stcache := [], fcache := [], bias := [], wc := [], reqs := [], ports := [], crcErrors := 0, crcLast := none,
    cxlDropped := 0, groups := [], teams := [], launches := [], coreBars := [], drainStore := [], macs := [], tags := [],
    exps := [], invs := [], tiles := [], scales := [], narrow := [], mxOps := [], dlOps := [], drains := [], cpOps := [],
    collOps := [], textOps := [], mailbox := [], mbSeq := [], lexicons := [], grammars := [], cells := [], trees := [],
    treeOps := [], pools := [], rows := [], freeRows := [], bcasts := [], queues := [], pushQ := [], faultQ := [],
    rseq := 0, forwarded := [], notices := [], pendingNotices := [], parts := [],
    dies := [(0, Die.reset), (1, Die.reset)], perf := [], stage := .off, power := .ps0, powerWant := none,
    fwVersion := Config.firmwareVersion, thermtrip := false }

end Sys2Proof.Machine
end

