-- ==== Sys2Proof/Machine/Map.lean ====
section
/-!
DEFINITION. The operations on tables: look up, set, remove, and their forms with a default, which keep a table canonical
(keys strictly rising, no entry equal to the default). Bit and byte helpers used by every file (00 R17, R18).
-/
namespace Sys2Proof.Machine

/-- The entry at a key. -/
def look {β : Type} : AMap β → Nat → Option β
  | [], _ => none
  | (k', b) :: r, k => if k' = k then some b else look r k

/-- Set the entry at a key, keeping keys strictly rising. -/
def put {β : Type} : AMap β → Nat → β → AMap β
  | [], k, b => [(k, b)]
  | (k', b') :: r, k, b =>
    if k < k' then (k, b) :: (k', b') :: r else if k = k' then (k, b) :: r else (k', b') :: put r k b

/-- Remove the entry at a key. -/
def del {β : Type} : AMap β → Nat → AMap β
  | [], _ => []
  | (k', b') :: r, k => if k = k' then del r k else (k', b') :: del r k

/-- Read with a default. -/
def rd {β : Type} (d : β) (m : AMap β) (k : Nat) : β := (look m k).getD d

/-- Write with a default: writing the default removes the entry. -/
def wr {β : Type} [DecidableEq β] (d : β) (m : AMap β) (k : Nat) (b : β) : AMap β :=
  if b = d then del m k else put m k b

/-- Change the entry at a key, where there is one. -/
def upd {β : Type} (m : AMap β) (k : Nat) (f : β → β) : AMap β :=
  match look m k with
  | some b => put m k (f b)
  | none => m

/-- Keys strictly rising. -/
def keysRise {β : Type} : AMap β → Bool
  | [] => true
  | [_] => true
  | (k, _) :: (k', b') :: r => k < k' && keysRise ((k', b') :: r)

/-- The first key of 0 .. n-1 that the table does not hold: the lowest free number. -/
def lowestFree {β : Type} (m : AMap β) (lo n : Nat) : Option Nat :=
  match n with
  | 0 => none
  | n + 1 => match look m lo with
    | none => some lo
    | some _ => lowestFree m (lo + 1) n

/-- Keep the entries whose key passes a test. -/
def keepKeys {β : Type} (m : AMap β) (f : Nat → Bool) : AMap β := m.filter (fun e => f e.1)

/-! ### Lanes and bits -/

/-- The 64 lanes in ascending order (00 R18). -/
def lanes64 : List Nat := List.range 64

/-- Whether a mask holds lane l. -/
def inMask (m : LaneMask) (l : Nat) : Bool := m.getLsbD l

/-- The mask of one lane. -/
def laneBit (l : Nat) : LaneMask := 1#64 <<< l

/-- The mask of the lanes that pass a test. -/
def maskOf (f : Nat → Bool) : LaneMask :=
  lanes64.foldl (fun m l => if f l then m ||| laneBit l else m) 0

/-- The lanes of a mask in ascending order. -/
def maskLanes (m : LaneMask) : List Nat := lanes64.filter (inMask m)

/-- The lowest lane of a mask, 64 if none. -/
def lowLane (m : LaneMask) : Nat := ((maskLanes m).head?).getD 64

/-- Number of lanes of a mask. -/
def popLanes (m : LaneMask) : Nat := (maskLanes m).length

/-- Bits [hi:lo] of a number. -/
def bits (x hi lo : Nat) : Nat := (x >>> lo) % 2 ^ (hi + 1 - lo)

/-- Bit n of a number. -/
def bit (x n : Nat) : Bool := x.testBit n

/-- The little-endian number that bytes hold (00 R17). -/
def ofBytes : List Byte → Nat
  | [] => 0
  | b :: r => b.toNat + 256 * ofBytes r

/-- The n little-endian bytes of a number (00 R17). -/
def toBytes (x : Nat) : Nat → List Byte
  | 0 => []
  | n + 1 => BitVec.ofNat 8 x :: toBytes (x / 256) n

/-- n consecutive numbers from a. -/
def from' (a n : Nat) : List Nat := (List.range n).map (a + ·)

/-- ⌈a ÷ b⌉. -/
def ceilDiv (a b : Nat) : Nat := (a + b - 1) / b

/-- The element of a list at an index, with a default. -/
def nth {β : Type} (d : β) (l : List β) (i : Nat) : β := l.getD i d

/-- Set the element of a list at an index. -/
def setAt {β : Type} : List β → Nat → β → List β
  | [], _, _ => []
  | _ :: r, 0, b => b :: r
  | a :: r, n + 1, b => a :: setAt r n b

end Sys2Proof.Machine
end

