-- ==== Sys2Proof/Machine/Float.lean ====
section
/-!
DEFINITION. The IEEE formats and the arithmetic on them, 03_number_formats.md R87-R95 and 05 R145-R154: exact values, one
rounding, conditions.
-/
namespace Sys2Proof.Machine

/-- A floating-point format by its precision p, least and greatest exponent and width (03 R87 Table 1). -/
structure FF where
  p : Nat
  emin : Int
  emax : Int
  w : Nat
deriving DecidableEq, Repr

def fp32 : FF := ⟨24, -126, 127, 32⟩
def fp16 : FF := ⟨11, -14, 15, 16⟩
def bfp16 : FF := ⟨8, -126, 127, 16⟩

/-- Rounding modes, 03 R91 and 02 R58. -/
inductive Rm where
  | rne | rz | ru | rd
deriving DecidableEq, Repr

/-- The rounding mode of a MOD code's low two bits. -/
def Rm.ofCode (m : BitVec 4) : Rm :=
  match m.toNat % 4 with
  | 0 => .rne
  | 1 => .rz
  | 2 => .ru
  | _ => .rd

/-- Exception bits, 03 R92 Table 2. -/
def NV : BitVec 5 := 1
def DZ : BitVec 5 := 2
def OF : BitVec 5 := 4
def UF : BitVec 5 := 8
def NX : BitVec 5 := 16

/-- A result with the conditions it raises. The value stands in the low bits, zero-extended (03 R88). -/
structure FRes where
  val : Word32
  fl : BitVec 5
deriving DecidableEq, Repr

/-- What an encoding means: a NaN, an infinity, or (-1)^neg × m × 2^e. -/
inductive FVal where
  | nan (signalling : Bool)
  | inf (neg : Bool)
  | fin (neg : Bool) (m : Nat) (e : Int)
deriving DecidableEq, Repr

/-- The meaning of an encoding (03 R87). -/
def fdec (F : FF) (x : Word32) : FVal :=
  let n := x.toNat % 2 ^ F.w
  let neg := bit n (F.w - 1)
  let frac := n % 2 ^ (F.p - 1)
  let ex := n / 2 ^ (F.p - 1) % 2 ^ (F.w - F.p)
  if ex = 2 ^ (F.w - F.p) - 1 then
    if frac = 0 then .inf neg else .nan (!bit frac (F.p - 2))
  else if ex = 0 then .fin neg frac (F.emin - (F.p - 1))
  else .fin neg (frac + 2 ^ (F.p - 1)) ((ex : Int) - F.emax - (F.p - 1))

/-- Encodings. -/
def fsign (F : FF) (neg : Bool) : Nat := if neg then 2 ^ (F.w - 1) else 0
def finf (F : FF) (neg : Bool) : Word32 :=
  BitVec.ofNat 32 (fsign F neg + (2 ^ (F.w - F.p) - 1) * 2 ^ (F.p - 1))
/-- The canonical NaN (03 R87 Table 1, R90). -/
def fnan (F : FF) : Word32 := BitVec.ofNat 32 ((2 ^ (F.w - F.p) - 1) * 2 ^ (F.p - 1) + 2 ^ (F.p - 2))
def fzero (F : FF) (neg : Bool) : Word32 := BitVec.ofNat 32 (fsign F neg)
def fmax (F : FF) (neg : Bool) : Word32 :=
  BitVec.ofNat 32 (fsign F neg + (2 ^ (F.w - F.p) - 1) * 2 ^ (F.p - 1) - 1)

/-- Whether the magnitude below the cut rounds up: q the kept integer, r the rest, d the unit's size. -/
def roundUp (mode : Rm) (neg : Bool) (q r d : Nat) : Bool :=
  if r = 0 then false else
  match mode with
  | .rne => d < 2 * r || (2 * r = d && q % 2 = 1)
  | .rz => false
  | .ru => !neg
  | .rd => neg

/-- a × 2^e rounded to an integer multiple of 2^q, in units of 2^q, with whether it was inexact. -/
def roundAt (mode : Rm) (neg : Bool) (a : Nat) (e q : Int) : Nat × Bool :=
  if q ≤ e then (a * 2 ^ (e - q).toNat, false)
  else
    let d := 2 ^ (q - e).toNat
    let k := a / d
    let r := a % d
    (if roundUp mode neg k r d then k + 1 else k, r != 0)

/-- `rnd` of 00 R23 for a non-zero magnitude a × 2^e: overflow by mode (IEEE 754), tininess after rounding (03 R91). -/
def rndMag (F : FF) (mode : Rm) (neg : Bool) (a : Nat) (e : Int) : FRes :=
  let ex : Int := (Nat.log2 a : Int) + e
  let q : Int := max ex F.emin - (F.p - 1)
  let (r, inexact) := roundAt mode neg a e q
  let tiny : Bool := ex < F.emin &&
    !((roundAt mode neg a e (ex - (F.p - 1))).1 == 2 ^ F.p && decide (ex + 1 = F.emin))
  let (r, q) := if r = 2 ^ F.p then (2 ^ (F.p - 1), q + 1) else (r, q)
  if r ≥ 2 ^ (F.p - 1) ∧ q + (F.p - 1) > F.emax then
    let toInf : Bool := match mode with
      | .rne => true
      | .rz => false
      | .ru => !neg
      | .rd => neg
    ⟨if toInf then finf F neg else fmax F neg, OF ||| NX⟩
  else
    let body : Nat :=
      if r < 2 ^ (F.p - 1) then r
      else (q + (F.p - 1) + F.emax).toNat * 2 ^ (F.p - 1) + (r - 2 ^ (F.p - 1))
    ⟨BitVec.ofNat 32 (fsign F neg + body),
      (if inexact then NX else 0) ||| (if inexact && tiny then UF else 0)⟩

/-- `rnd` of an exact dyadic m × 2^e; `zneg` is the sign that an exact zero takes (05 R145). -/
def rndDy (F : FF) (mode : Rm) (zneg : Bool) (m e : Int) : FRes :=
  if m = 0 then ⟨fzero F zneg, 0⟩ else rndMag F mode (m < 0) m.natAbs e

/-- A signed exact term: sign, magnitude and exponent. -/
structure Term where
  neg : Bool
  m : Nat
  e : Int
deriving DecidableEq, Repr

def Term.int (t : Term) (e : Int) : Int :=
  let a : Int := (t.m * 2 ^ (t.e - e).toNat : Nat)
  if t.neg then -a else a

/-- The exact sum of terms as m × 2^e. -/
def sumTerms (ts : List Term) : Int × Int :=
  let e := ts.foldl (fun a t => min a t.e) ((ts.head?.map Term.e).getD 0)
  (ts.foldl (fun a t => a + t.int e) 0, e)

/-- The rounded sum of terms; an exact zero is +0, or -0 under RD, unless every term has one sign (05 R145). -/
def rndSum (F : FF) (mode : Rm) (ts : List Term) : FRes :=
  let (m, e) := sumTerms ts
  let zneg := if ts.all (·.neg) then true else if ts.all (fun t => !t.neg) then false else decide (mode = .rd)
  rndDy F mode zneg m e

def FVal.isNan : FVal → Bool
  | .nan _ => true
  | _ => false
def FVal.isSnan : FVal → Bool
  | .nan s => s
  | _ => false
def FVal.isInf : FVal → Bool
  | .inf _ => true
  | _ => false
def FVal.isZero : FVal → Bool
  | .fin _ 0 _ => true
  | _ => false
def FVal.sgn : FVal → Bool
  | .nan _ => false
  | .inf n => n
  | .fin n _ _ => n

/-- The canonical NaN; a signalling operand raises NV (03 R90, 05 R145). -/
def nanRes (F : FF) (vs : List FVal) : FRes := ⟨fnan F, if vs.any FVal.isSnan then NV else 0⟩
def invalid (F : FF) : FRes := ⟨fnan F, NV⟩

def FVal.flip : FVal → FVal
  | .nan s => .nan s
  | .inf n => .inf (!n)
  | .fin n m e => .fin (!n) m e

/-- a + b (05 R146). -/
def faddV (F : FF) (mode : Rm) (a b : FVal) : FRes :=
  match a, b with
  | .nan _, _ => nanRes F [a, b]
  | _, .nan _ => nanRes F [a, b]
  | .inf x, .inf y => if x = y then ⟨finf F x, 0⟩ else invalid F
  | .inf x, _ => ⟨finf F x, 0⟩
  | _, .inf y => ⟨finf F y, 0⟩
  | .fin x m e, .fin y n f => rndSum F mode [⟨x, m, e⟩, ⟨y, n, f⟩]

def fadd (F : FF) (mode : Rm) (a b : Word32) : FRes := faddV F mode (fdec F a) (fdec F b)
def fsub (F : FF) (mode : Rm) (a b : Word32) : FRes := faddV F mode (fdec F a) (fdec F b).flip

/-- a × b (05 R146). -/
def fmul (F : FF) (mode : Rm) (a b : Word32) : FRes :=
  match fdec F a, fdec F b with
  | .nan s, y => nanRes F [.nan s, y]
  | x, .nan s => nanRes F [x, .nan s]
  | .inf x, y => if y.isZero then invalid F else ⟨finf F (x != y.sgn), 0⟩
  | x, .inf y => if x.isZero then invalid F else ⟨finf F (x.sgn != y), 0⟩
  | .fin x m e, .fin y n f => rndSum F mode [⟨x != y, m * n, e + f⟩]

/-- a × b + c with one rounding; 0 × ∞ raises NV even when c is a quiet NaN (05 R146). -/
def ffma (F : FF) (mode : Rm) (a b c : Word32) : FRes :=
  let x := fdec F a
  let y := fdec F b
  let z := fdec F c
  if (x.isInf && y.isZero) || (x.isZero && y.isInf) then invalid F
  else if x.isNan || y.isNan || z.isNan then nanRes F [x, y, z]
  else
    match x, y, z with
    | .fin s m e, .fin s' m' e', .fin s'' m'' e'' => rndSum F mode [⟨s != s', m * m', e + e'⟩, ⟨s'', m'', e''⟩]
    | .fin _ _ _, .fin _ _ _, .inf s => ⟨finf F s, 0⟩
    | _, _, .inf s => if (x.sgn != y.sgn) = s then ⟨finf F s, 0⟩ else invalid F
    | _, _, _ => ⟨finf F (x.sgn != y.sgn), 0⟩

/-- A quotient n ÷ d of positive integers, scaled: the digits kept, with a last bit that records an inexact rest. -/
def quotSticky (n d : Nat) (k : Nat) : Nat :=
  let q := n * 2 ^ k / d
  2 * q + (if n * 2 ^ k % d = 0 then 0 else 1)

/-- a ÷ b (05 R146): a finite non-zero dividend by zero raises DZ, as IEEE 754. -/
def fdivV (F : FF) (mode : Rm) (a b : FVal) : FRes :=
  match a, b with
  | .nan _, _ => nanRes F [a, b]
  | _, .nan _ => nanRes F [a, b]
  | .inf _, .inf _ => invalid F
  | .inf x, _ => ⟨finf F (x != b.sgn), 0⟩
  | _, .inf y => ⟨fzero F (a.sgn != y), 0⟩
  | .fin x m e, .fin y n f =>
    if n = 0 then (if m = 0 then invalid F else ⟨finf F (x != y), DZ⟩)
    else if m = 0 then ⟨fzero F (x != y), 0⟩
    else rndMag F mode (x != y) (quotSticky m n 64) (e - f - 65)

def fdiv (F : FF) (mode : Rm) (a b : Word32) : FRes := fdivV F mode (fdec F a) (fdec F b)

/-- 1 ÷ a (05 R146). -/
def frcp (F : FF) (mode : Rm) (a : Word32) : FRes := fdivV F mode (.fin false 1 0) (fdec F a)

/-- ⌊√n⌋ by bisection of its bits, from bit k down. -/
def isqrtAux (n : Nat) : Nat → Nat → Nat
  | 0, acc => acc
  | k + 1, acc =>
    let t := acc + 2 ^ k
    isqrtAux n k (if t * t ≤ n then t else acc)

/-- ⌊√n⌋. -/
def isqrt (n : Nat) : Nat := isqrtAux n (Nat.log2 n / 2 + 1) 0

/-- √(m × 2^e) as digits with a sticky last bit and an exponent. -/
def sqrtSticky (m : Nat) (e : Int) : Nat × Int :=
  let e' : Int := if e % 2 = 0 then e - 64 else e - 65
  let m' := m * 2 ^ (e - e').toNat
  let r := isqrt m'
  (2 * r + (if r * r = m' then 0 else 1), e' / 2 - 1)

/-- √a (05 R146). -/
def fsqrt (F : FF) (mode : Rm) (a : Word32) : FRes :=
  match fdec F a with
  | .nan s => nanRes F [.nan s]
  | .inf n => if n then invalid F else ⟨finf F false, 0⟩
  | .fin n m e =>
    if m = 0 then ⟨fzero F n, 0⟩
    else if n then invalid F
    else let (r, k) := sqrtSticky m e
      rndMag F mode false r k

/-- 1 ÷ √a (05 R146). The sticky last bit of 1/√(m × 2^e) is exact when m × 2^e is a power of four. -/
def frsqrt (F : FF) (mode : Rm) (a : Word32) : FRes :=
  match fdec F a with
  | .nan s => nanRes F [.nan s]
  | .inf n => if n then invalid F else ⟨fzero F false, 0⟩
  | .fin n m e =>
    if m = 0 then ⟨finf F n, DZ⟩
    else if n then invalid F
    else
      -- 1/√(m 2^e) = √(2^(2k) / (m 2^(e mod 2))) × 2^(-k - ⌊e/2⌋), with k = 96
      let h : Int := e / 2
      let d := m * 2 ^ (e % 2).toNat
      let q := 2 ^ 192 / d
      let r := isqrt q
      rndMag F mode false (2 * r + (if r * r * d = 2 ^ 192 then 0 else 1)) (-97 - h)

/-- Numeric comparison, +0 equal to -0: none if either is a NaN. -/
def fcompare (a b : FVal) : Option Ordering :=
  match a, b with
  | .nan _, _ => none
  | _, .nan _ => none
  | .inf x, .inf y => some (if x = y then .eq else if x then .lt else .gt)
  | .inf x, _ => some (if x then .lt else .gt)
  | _, .inf y => some (if y then .gt else .lt)
  | .fin x m e, .fin y n f =>
    let k := min e f
    some (compare (Term.int ⟨x, m, e⟩ k) (Term.int ⟨y, n, f⟩ k))

/-- Whether a comes before b in the order that treats -0 as less than +0 (05 R147). -/
def fless (a b : FVal) : Bool :=
  match fcompare a b with
  | some .lt => true
  | some .eq => a.isZero && b.isZero && a.sgn && !b.sgn
  | _ => false

/-- MIN (`mx` false) and MAX of 05 R147. -/
def fminmax (F : FF) (mx : Bool) (a b : Word32) : FRes :=
  let x := fdec F a
  let y := fdec F b
  let fl := if x.isSnan || y.isSnan then NV else 0
  let lo := BitVec.ofNat 32 (a.toNat % 2 ^ F.w)
  let lo' := BitVec.ofNat 32 (b.toNat % 2 ^ F.w)
  if x.isNan && y.isNan then ⟨fnan F, fl⟩
  else if x.isNan then ⟨lo', fl⟩
  else if y.isNan then ⟨lo, fl⟩
  else if mx then ⟨if fless x y then lo' else lo, fl⟩
  else ⟨if fless y x then lo' else lo, fl⟩

/-- CLAMP: MIN(MAX(a, b), c), a condition raised once; c when b > c (05 R147). -/
def fclamp (F : FF) (a b c : Word32) : FRes :=
  let m := fminmax F true a b
  let r := fminmax F false m.val c
  ⟨r.val, m.fl ||| r.fl⟩

/-- ABS, NEG, COPYSIGN act on the sign bit; a NaN a gives the canonical NaN (05 R148). -/
def fsignOp (F : FF) (f : Bool → Bool) (a : Word32) : FRes :=
  if (fdec F a).isNan then ⟨fnan F, 0⟩
  else
    let n := a.toNat % 2 ^ F.w
    ⟨BitVec.ofNat 32 (n % 2 ^ (F.w - 1) + fsign F (f (bit n (F.w - 1)))), 0⟩

def fabs (F : FF) (a : Word32) : FRes := fsignOp F (fun _ => false) a
def fneg (F : FF) (a : Word32) : FRes := fsignOp F (fun s => !s) a
def fcopysign (F : FF) (a b : Word32) : FRes := fsignOp F (fun _ => bit (b.toNat) (F.w - 1)) a

/-- Floating conditions of CMP, 02 R58 and 05 R149: the truth value and NV. -/
def fcmp (F : FF) (cond : Nat) (a b : Word32) : Bool × BitVec 5 :=
  let x := fdec F a
  let y := fdec F b
  let o := fcompare x y
  let snan := x.isSnan || y.isSnan
  let nan := x.isNan || y.isNan
  let quiet := if snan then NV else 0
  let ordered := if nan then NV else 0
  match cond with
  | 0 => (o == some .eq, quiet)
  | 1 => (!(o == some .eq), quiet)
  | 2 => (o == some .lt, ordered)
  | 3 => (o == some .lt || o == some .eq, ordered)
  | 4 => (o == some .gt, ordered)
  | 5 => (o == some .gt || o == some .eq, ordered)
  | 6 => (nan, quiet)
  | _ => (!nan, quiet)

/-- CLASS, 05 R150 Table 8. -/
def fclass (F : FF) (a : Word32) : Word32 :=
  match fdec F a with
  | .nan true => 1
  | .nan false => 2
  | .inf n => if n then 4 else 0x200
  | .fin n m _ =>
    if m = 0 then (if n then 0x20 else 0x40)
    else if m < 2 ^ (F.p - 1) then (if n then 0x10 else 0x80)
    else (if n then 8 else 0x100)

/-- The magnitude of a finite value rounded to an integer, with whether it was inexact. -/
def intMag (mode : Rm) (neg : Bool) (m : Nat) (e : Int) : Nat × Bool := roundAt mode neg m e 0

/-- RINT, 05 R151. -/
def frint (F : FF) (mode : Rm) (a : Word32) : FRes :=
  match fdec F a with
  | .nan s => nanRes F [.nan s]
  | .inf n => ⟨finf F n, 0⟩
  | .fin n m e =>
    if m = 0 then ⟨fzero F n, 0⟩
    else
      let (k, inexact) := intMag mode n m e
      ⟨if k = 0 then fzero F n else (rndMag F .rne n k 0).val, if inexact then NX else 0⟩

/-- DOT2, 05 R153: one rounding of a0 b0 + a1 b1 + c. -/
def fdot2 (H : FF) (mode : Rm) (a b c : Word32) : FRes :=
  let x0 := fdec H (BitVec.ofNat 32 (a.toNat % 65536))
  let x1 := fdec H (BitVec.ofNat 32 (a.toNat / 65536))
  let y0 := fdec H (BitVec.ofNat 32 (b.toNat % 65536))
  let y1 := fdec H (BitVec.ofNat 32 (b.toNat / 65536))
  let z := fdec fp32 c
  let zi (x y : FVal) : Bool := (x.isInf && y.isZero) || (x.isZero && y.isInf)
  let prodInf (x y : FVal) : Option Bool := if x.isInf || y.isInf then some (x.sgn != y.sgn) else none
  let vs := [x0, x1, y0, y1, z]
  let infs : List Bool :=
    (prodInf x0 y0).toList ++ (prodInf x1 y1).toList ++ (if z.isInf then [z.sgn] else [])
  let prod (x y : FVal) : List Term :=
    match x, y with
    | .fin s m e, .fin s' m' e' => [⟨s != s', m * m', e + e'⟩]
    | _, _ => []
  let nvProd := zi x0 y0 || zi x1 y1
  -- opposite infinities are an infinity condition only among infinities that are numbers' products
  let anyNan := vs.any FVal.isNan
  let nonNanInfs : List Bool :=
    (if x0.isNan || y0.isNan then [] else (prodInf x0 y0).toList) ++
    (if x1.isNan || y1.isNan then [] else (prodInf x1 y1).toList) ++ (if z.isInf then [z.sgn] else [])
  let opp := nonNanInfs.any (fun s => s) && nonNanInfs.any (fun s => !s)
  if nvProd then invalid fp32
  else if anyNan then ⟨fnan fp32, if vs.any FVal.isSnan || opp then NV else 0⟩
  else if opp then invalid fp32
  else match infs with
    | s :: _ => ⟨finf fp32 s, 0⟩
    | [] =>
      match z with
      | .fin s m e => rndSum fp32 mode (prod x0 y0 ++ prod x1 y1 ++ [⟨s, m, e⟩])
      | _ => invalid fp32

/-! ### Conversions (03 R94, R95; 05 R154) -/

/-- Float to float. `sat` replaces an overflow of a finite operand by the largest finite value; OF and NX stand. -/
def fcvt (F G : FF) (mode : Rm) (sat : Bool) (a : Word32) : FRes :=
  match fdec F a with
  | .nan s => nanRes G [.nan s]
  | .inf n => ⟨finf G n, 0⟩
  | .fin n m e =>
    if m = 0 then ⟨fzero G n, 0⟩
    else
      let r := rndMag G mode n m e
      if sat && (fdec G r.val).isInf then ⟨fmax G n, r.fl⟩ else r

/-- Float to integer in [lo, hi] (03 R95). -/
def fToInt (F : FF) (mode : Rm) (lo hi : Int) (a : Word32) : Int × BitVec 5 :=
  match fdec F a with
  | .nan _ => (0, NV)
  | .inf n => (if n then lo else hi, NV)
  | .fin n m e =>
    let (k, inexact) := intMag mode n m e
    let x : Int := if n then -(k : Int) else k
    if x < lo then (lo, NV) else if x > hi then (hi, NV) else (x, if inexact then NX else 0)

/-- Integer to float, with `sat` as for float to float. -/
def fOfInt (F : FF) (mode : Rm) (sat : Bool) (x : Int) : FRes :=
  let r := rndDy F mode false x 0
  if sat && (fdec F r.val).isInf then ⟨fmax F (x < 0), r.fl⟩ else r

end Sys2Proof.Machine
end

