-- ==== Sys2Proof/Machine/Ops.lean ====
section
/-!
DEFINITION. Named operations over the registers, the split table, counters, traps and faults of a group: 04 R110-R130,
07 R188, 17 R372-R374, 19 R405, 20 R420-R426, 13 R314, R315.
-/
namespace Sys2Proof.Machine

/-- What a step answers. -/
abbrev Out := Host.Outcome State Fault Refusal

/-! ### Groups, teams, launches -/

def State.group (s : State) (gid : Nat) : Option Group := look s.groups gid
def State.setGroup (s : State) (gid : Nat) (g : Group) : State := { s with groups := put s.groups gid g }
def State.updGroup (s : State) (gid : Nat) (f : Group → Group) : State := { s with groups := upd s.groups gid f }
def State.team (s : State) (tid : Nat) : Option Team := look s.teams tid
def State.updTeam (s : State) (tid : Nat) (f : Team → Team) : State := { s with teams := upd s.teams tid f }
def State.launch (s : State) (lid : Nat) : Option Launch := look s.launches lid
def State.updLaunch (s : State) (lid : Nat) (f : Launch → Launch) : State := { s with launches := upd s.launches lid f }
def State.part (s : State) (p : Nat) : Partition := rd Partition.reset s.parts p
def State.updPart (s : State) (p : Nat) (f : Partition → Partition) : State :=
  { s with parts := put s.parts p (f (s.part p)) }
def State.die (s : State) (d : Nat) : Die := rd Die.reset s.dies d
def State.updDie (s : State) (d : Nat) (f : Die → Die) : State := { s with dies := put s.dies d (f (s.die d)) }
def State.emit (s : State) (m : OutMsg) : State := { s with outbox := s.outbox ++ [m] }

/-- Group, team and launch of a group number. -/
def State.where' (s : State) (gid : Nat) : Option (Group × Team × Launch) :=
  match s.group gid with
  | none => none
  | some g =>
    match s.team g.tid with
    | none => none
    | some t =>
      match s.launch t.launch with
      | none => none
      | some l => some (g, t, l)

/-- The launch of a group. -/
def State.launchOf (s : State) (gid : Nat) : Option Nat :=
  match s.group gid with
  | none => none
  | some g => (s.team g.tid).map Team.launch

def coreId (die core : Nat) : Nat := die * 96 + core
def clusterOf (cid : Nat) : Nat := cid / 8
def Group.coreId (g : Group) : Nat := Machine.coreId g.die g.core
def Group.quarterId (g : Group) : Nat := g.coreId * 4 + g.quarter

/-- Set a bit of a launch's error summary (19 R416 Table 4). -/
def State.err (s : State) (lid : Option Nat) (b : Nat) : State :=
  match lid with
  | none => s
  | some l => s.updLaunch l (fun x => { x with errsum := x.errsum ||| (1#64 <<< b) })

def errLAUNCHBAD : Nat := 0
def errLAUNCHFIT : Nat := 1
def errCANCELLED : Nat := 2
def errPROLOGUEBAD : Nat := 3
def errCAPFLT : Nat := 4
def errBADPKT : Nat := 5
def errRINGBAD : Nat := 6
def errMEMERR : Nat := 7
def errKEYREV : Nat := 8
def errCRCERR : Nat := 9
def errRIDGEGONE : Nat := 10
def errMXFMT : Nat := 11
def errDRAINBAD : Nat := 12
def errAGEBAD : Nat := 13
def errUNSERVED : Nat := 14
def errBARBAD : Nat := 15
def errHANDLED : Nat := 16

/-! ### Performance counters (19 R418, R419) -/

/-- An event of a partition on a core: every counter that the partition opened there for it counts it. -/
def countEvent (m : AMap (Nat × Nat × Nat)) (cid part sel : Nat) : AMap (Nat × Nat × Nat) :=
  m.map (fun c => if c.1 / 8 = cid ∧ c.2.1 = sel ∧ c.2.2.1 = part then (c.1, (sel, part, (c.2.2.2 + 1) % 2 ^ 48)) else c)
/-- An event of a group's core, for the partition of its launch. -/
def State.perfOf (s : State) (gid sel : Nat) : State :=
  { s with perf := match s.where' gid with
      | some (g, _, l) => countEvent s.perf g.coreId l.part sel
      | none => s.perf }

/-! ### Registers (04) -/

/-- The chunk slot of V n for a lane whose split has this base (04 R115). -/
def Group.slotOf (g : Group) (wbase n : Nat) : Nat := (wbase + n) % g.w

def Group.getV (g : Group) (slot l : Nat) : Word32 := rd 0 g.v (64 * slot + l)
def Group.vState (g : Group) (slot l : Nat) : Fullness := rd .full g.vst (64 * slot + l)
/-- A write makes the register full in the lane (R123). -/
def Group.putV (g : Group) (slot l : Nat) (x : Word32) : Group :=
  { g with v := wr 0 g.v (64 * slot + l) x, vst := del g.vst (64 * slot + l) }
def Group.setVState (g : Group) (slot l : Nat) (f : Fullness) : Group :=
  { g with vst := wr .full g.vst (64 * slot + l) f }
def Group.getT (g : Group) (n l : Nat) : Word32 := rd 0 g.t (64 * n + l)
def Group.tState (g : Group) (n l : Nat) : Fullness := rd .empty g.tst (64 * n + l)
def Group.putT (g : Group) (n l : Nat) (x : Word32) : Group :=
  { g with t := wr 0 g.t (64 * n + l) x, tst := wr .empty g.tst (64 * n + l) .full }
def Group.setTState (g : Group) (n l : Nat) (f : Fullness) : Group :=
  { g with tst := wr .empty g.tst (64 * n + l) f }
def Group.getS (g : Group) (n : Nat) : Word64 := rd 0 g.s n
def Group.sState (g : Group) (n : Nat) : Fullness := rd .full g.sst n
def Group.putS (g : Group) (n : Nat) (x : Word64) : Group := { g with s := wr 0 g.s n x, sst := del g.sst n }
def Group.setSState (g : Group) (n : Nat) (f : Fullness) : Group := { g with sst := wr .full g.sst n f }
/-- P7 reads 1 (R110). -/
def Group.getP (g : Group) (n : Nat) : LaneMask := if n = 7 then BitVec.allOnes 64 else rd 0 g.p n
/-- A write to P7 is discarded (R110, 02 R66); only the lanes of m change. -/
def Group.putP (g : Group) (n : Nat) (m x : LaneMask) : Group :=
  if n = 7 then g else { g with p := wr 0 g.p n ((g.getP n &&& ~~~m) ||| (x &&& m)) }
/-- K0 reads 1 (R110). -/
def Group.getK (g : Group) (n : Nat) : Bool := if n = 0 then true else g.k.getLsbD n
def Group.putK (g : Group) (n : Nat) (b : Bool) : Group :=
  if n = 0 then g
  else { g with k := (g.k &&& ~~~(1#4 <<< n)) ||| (if b then 1#4 <<< n else 0) }
def Group.fpFlagsOf (g : Group) (l : Nat) : BitVec 5 := rd 0 g.fpFlags l
def Group.fpEnableOf (g : Group) (l : Nat) : BitVec 5 := rd 0 g.fpEnable l
def Group.orFlags (g : Group) (l : Nat) (f : BitVec 5) : Group :=
  { g with fpFlags := wr 0 g.fpFlags l (g.fpFlagsOf l ||| f) }

/-- Every lane has exited or been killed: the group retires, and its access program and its AGE streams stop (01 R50; 17 R380). -/
def Group.lanesGone (g : Group) : Bool := g.left == BitVec.allOnes 64

/-- Fold a change over the lanes of a mask. -/
def Group.overLanes (g : Group) (m : LaneMask) (f : Group → Nat → Group) : Group := (maskLanes m).foldl f g

/-- The place of a fill. -/
def Group.destState (g : Group) (d : Dest) (l : Nat) : Fullness :=
  match d with
  | .none => .full
  | .v slot => g.vState slot l
  | .t n => g.tState n l
  | .s n => g.sState n
/-- A fill lands: the register is written and full (R124). -/
def Group.land (g : Group) (d : Dest) (l : Nat) (x : Word64) : Group :=
  match d with
  | .none => g
  | .v slot => g.putV slot l (x.setWidth 32)
  | .t n => g.putT n l (x.setWidth 32)
  | .s n => g.putS n x
def Group.setDest (g : Group) (d : Dest) (l : Nat) (f : Fullness) : Group :=
  match d with
  | .none => g
  | .v slot => g.setVState slot l f
  | .t n => g.setTState n l f
  | .s n => g.setSState n f

/-- The destination that a lane operand names. -/
def Group.destOf (g : Group) (wbase : Nat) : Operand → Dest
  | .v n => .v (g.slotOf wbase n.toNat)
  | .t n => .t n.toNat
  | .s n => .s n.toNat
  | _ => .none

/-- Whether a fill of the destination is pending in some lane of m (R126). -/
def Group.pendingIn (g : Group) (d : Dest) (m : LaneMask) : Bool :=
  (maskLanes m).any (fun l => g.destState d l == .pending)

/-! ### Split table (07 R188) -/

def Group.entry (g : Group) (e : Nat) : Option Entry := look g.table e
def Group.setEntry (g : Group) (e : Nat) (en : Entry) : Group := { g with table := put g.table e en }
def Group.updEntry (g : Group) (e : Nat) (f : Entry → Entry) : Group := { g with table := upd g.table e f }
/-- An entry or a stack slot by its PARENT code. -/
def Group.byParent (g : Group) : Parent → Option Entry
  | .none => none
  | .entry n => look g.table n
  | .slot n => look g.stack n
def Group.updParent (g : Group) (p : Parent) (f : Entry → Entry) : Group :=
  match p with
  | .none => g
  | .entry n => { g with table := upd g.table n f }
  | .slot n => { g with stack := upd g.stack n f }
def Group.setParent (g : Group) (p : Parent) (en : Entry) : Group :=
  match p with
  | .none => g
  | .entry n => { g with table := put g.table n en }
  | .slot n => { g with stack := put g.stack n en }

/-- A new split (07 R194): ready, with an empty await list and RUNPOS 0. -/
def Entry.fresh (mask : LaneMask) (pc rpc : PC) (wbase : Nat) (parent : Parent) (age : Nat) : Entry :=
  { join := false, callf := false, st := .ready, mask := mask, pend := 0, pc := pc, rpc := rpc, wbase := wbase, runpos := 0,
    parent := parent, age := age, await := [], doneIx := 0, done := 0, run := [], cmt := 0, runAwait := [],
    reqBase := none, xfer := none, post := [], holds := [], barWait := [], slide := none, trapRec := none,
    parkSet := none, resumeCtl := false, hangOld := none }

/-- A split is inside a run. -/
def Entry.inRun (en : Entry) : Bool := !en.run.isEmpty
/-- The number of instructions of the run it is in. -/
def Entry.len (en : Entry) : Nat := en.run.length - 1
/-- The position that issues next. -/
def Entry.pos (en : Entry) : Nat := en.runpos + 1
/-- The position lies after the commit instruction. A control instruction that resumption issues alone counts so (20 R424). -/
def Entry.afterCommit (en : Entry) : Bool := en.resumeCtl || (en.cmt != 0 && decide (en.cmt < en.pos))
/-- The run has reached its commit instruction: a stop lets it complete (01 R38, 20 R434). -/
def Entry.pastCommit (en : Entry) : Bool := en.resumeCtl || (en.cmt != 0 && decide (en.cmt ≤ en.runpos))
/-- The address of the word after the trailer (07 R192). -/
def Entry.next (en : Entry) : PC := if en.resumeCtl then en.pc else en.pc + BitVec.ofNat 57 (12 * (en.len + 1))

/-- Clear what belongs to the run that ends or is abandoned. -/
def Entry.endRun (en : Entry) : Entry :=
  { en with runpos := 0, run := [], cmt := 0, runAwait := [], reqBase := none, xfer := none, post := [],
            holds := [], resumeCtl := false }

/-! ### Operand queues (17 R372, R373) -/

def Group.queue (g : Group) (q : Nat) : List QEntry := rd [] g.oq q
def Group.setQueue (g : Group) (q : Nat) (l : List QEntry) : Group := { g with oq := wr [] g.oq q l }
/-- The entries that are neither held nor popped. -/
def Group.avail (g : Group) (q : Nat) : List QEntry := (g.queue q).filter (fun x => x.held.isNone)
/-- Hold the oldest available entry for the run of entry e. -/
def holdFirst (e : Nat) : List QEntry → List QEntry
  | [] => []
  | x :: r => if x.held.isNone then { x with held := some e } :: r else x :: holdFirst e r
def Group.pop (g : Group) (q e : Nat) : Group := g.setQueue q (holdFirst e (g.queue q))
/-- Pops become final at run completion (02 R67). -/
def Group.finalPops (g : Group) (e : Nat) : Group :=
  { g with oq := (g.oq.map (fun x => (x.1, x.2.filter (fun y => y.held != some e)))).filter (fun x => !x.2.isEmpty) }
/-- Held entries stand again at the head of their queues (02 R67, 01 R38). -/
def Group.returnPops (g : Group) (e : Nat) : Group :=
  { g with oq := g.oq.map (fun x => (x.1, x.2.map (fun y => if y.held = some e then { y with held := none } else y))) }
/-- Place an entry at the tail. -/
def Group.enqueue (g : Group) (q : Nat) (vals : List Word32) : Group := g.setQueue q (g.queue q ++ [⟨vals, none⟩])

/-- Abandon the run of an entry (01 R38). A barrier wait that the run recorded is dropped with it (19 R411). -/
def Group.abandon (g : Group) (e : Nat) : Group :=
  (g.returnPops e).updEntry e (fun en => { en.endRun with barWait := if en.inRun then [] else en.barWait })

/-- STOPREQ: each split stops at its next issue slot; a run before its commit point is abandoned (20 R434 Table 5). -/
def Group.requestStop (g : Group) : Group :=
  let g := { g with stopReq := true }
  g.table.foldl (fun g p =>
    if !p.2.join && p.2.st == .ready && p.2.inRun && !p.2.pastCommit then g.abandon p.1 else g) g

/-! ### Outstanding operations (19 R404, R405) -/

def Group.count (g : Group) (c : Cls) : Nat := (g.ops.filter (fun o => o.cls == c)).length
/-- Operations of one class retire in issue order. -/
def retireOps : List Cls → List Op → List Op
  | _, [] => []
  | held, o :: r => if o.fin && !held.contains o.cls then retireOps held r else o :: retireOps (o.cls :: held) r
def Group.issueOp (g : Group) (id : Nat) (c : Cls) (entry index : Nat) (lanes : LaneMask) : Group :=
  { g with ops := g.ops ++ [{ id := id, cls := c, fin := false, entry := entry, index := index, lanes := lanes }] }
/-- An operation completes. -/
def Group.finOp (g : Group) (id : Nat) : Group :=
  { g with ops := retireOps [] (g.ops.map (fun o => if o.id = id then { o with fin := true } else o)) }

/-! ### Traps (20 R420-R426) -/

/-- A trap record with the fields that every record has. -/
def TrapRec.of (cause : Cause) (sub : Nat) (mask : LaneMask) (pc : PC) (index split : Nat) : TrapRec :=
  { mask := mask, addr := 0, pc := pc, code := 0, flags := 0, postc := false, xfer := false, index := index, acc := false,
    split := split, sub := sub, cause := cause }

/-- A stop is told to the firmware, unless the group is killed (R426). -/
def State.notice (s : State) (gid : Nat) (entry : Option Nat) : State :=
  match s.group gid with
  | some g => if g.killed then s else { s with notices := s.notices ++ [⟨gid, entry⟩] }
  | none => s

/-- An entry enters trapped or faulted with its record (R420, R421, R426). -/
def State.stopSplit (s : State) (gid e : Nat) (st : SplitState) (r : TrapRec) : State :=
  (s.updGroup gid (fun g => g.updEntry e (fun en => { en with st := st, trapRec := some r, hangOld := none }))).notice gid (some e)

/-- A precise trap (R423): the run is abandoned, and the record gives the run PC and the position. -/
def State.trapPrecise (s : State) (gid e : Nat) (r : TrapRec) : State :=
  (s.updGroup gid (fun g => g.abandon e)).stopSplit gid e .trapped r

/-- An access-program stop (R429). -/
def State.trapAccess (s : State) (gid : Nat) (r : TrapRec) (next : Bool) : State :=
  (s.updGroup gid (fun g => { g with aStopped := true, aTrap := some { r with acc := true }, aNext := next })).notice gid none

/-! ### Fault records (17 R387, R388; 13 R314) -/

/-- A record of a group's fault: its placement and its launch's queue and sequence number. -/
def State.frec (s : State) (gid : Nat) (source : FSource) (engine : FEngine) (cause : Cause) (sub level : Nat) (addr : VAddr)
    (pc : PC) (who : FWho) : FRec :=
  let base : FRec :=
    { estate := 0, rseq := 0, lseq := 0, queue := 0xFFFF, done := 0, addr := addr.setWidth 57, pc := pc, lanev := false,
      lane := 0, index := 0, split := 0, slot := 0, quarter := 0, core := 0, die := 0, engine := engine, source := source,
      info := false, level := level, sub := sub, cause := cause, set := 0, who := who, launch := none }
  match s.where' gid with
  | none => base
  | some (g, t, l) =>
    { base with lseq := l.seq, queue := l.queue, slot := g.slot, quarter := g.quarter, core := g.core, die := g.die,
                launch := some t.launch }

/-- Records of one instruction or engine step are one set, pushed consecutively (17 R387). Answers the set's number. -/
def State.pushFaults (s : State) (rs : List FRec) : State × Nat :=
  ({ s with pushQ := s.pushQ ++ rs.map (fun r => { r with set := s.nextId }), nextId := s.nextId + 1 }, s.nextId)

/-- The split is parked by a set of records, its run abandoned (13 R314, 01 R38). -/
def State.park (s : State) (gid e set : Nat) : State :=
  s.updGroup gid (fun g => (g.abandon e).updEntry e (fun en => { en with st := .parked, parkSet := some set }))

/-- The fault pair of a split (13 R315): replaced unless the stored pair belongs to the run's commit instruction and the new
fault does not. -/
def Entry.recordDone (en : Entry) (index : Nat) (done : LaneMask) : Entry :=
  if en.cmt ≠ 0 ∧ en.doneIx = en.cmt ∧ index ≠ en.cmt then en
  else { en with doneIx := index, done := done }

/-- The lanes of an instruction that the recorded pair says are done (13 R305). -/
def Entry.doneOf (en : Entry) (index : Nat) : LaneMask := if en.doneIx = index then en.done else 0

/-! ### Issue of a lane instruction -/

/-- The split that issues: a split entry, ready, inside a run and not past its end. -/
structure Issue where
  gid : Nat
  e : Nat
  g : Group
  en : Entry

/-- The split that the state's focus names, if it can issue. -/
def State.issuer (s : State) : Option Issue :=
  match s.focus with
  | .lane gid e =>
    match s.group gid with
    | none => none
    | some g =>
      match g.entry e with
      | none => none
      | some en =>
        if !en.join && en.st == .ready && en.inRun && en.runpos < en.len && !g.saved && !g.killed &&
            (!g.stopReq || en.pastCommit) then some ⟨gid, e, g, en⟩ else none
  | _ => none

/-- The active lanes: the split's lanes whose guard holds (00 R23, 02 R60). -/
def Issue.active (x : Issue) (gp : BitVec 3) (neg : Bool) : LaneMask :=
  x.en.mask &&& (if neg then ~~~(x.g.getP gp.toNat) else x.g.getP gp.toNat)

/-- The two waits of 13 R306: at and after the commit position, until every access that the split has issued is accepted or
has faulted. -/
def Issue.commitWait (x : Issue) : Bool :=
  x.en.cmt != 0 && decide (x.en.cmt ≤ x.en.pos) &&
    x.g.accs.any (fun a => a.stream == .lane && a.entry == x.e && a.stage == .issued)

/-- The instruction has issued: the run position advances (01 R37); one lane issue slot is used (19 R418). -/
def Issue.done (x : Issue) (s : State) (g : Group) : State :=
  (s.perfOf x.gid 2).setGroup x.gid (g.updEntry x.e (fun en => { en with runpos := en.runpos + 1 }))

/-- The trap record of the instruction that issues. -/
def Issue.trapRec (x : Issue) (cause : Cause) (sub : Nat) (mask : LaneMask) : TrapRec :=
  TrapRec.of cause sub mask x.en.pc x.en.pos x.e

/-- The address of the instruction that issues. -/
def Issue.pc (x : Issue) : PC :=
  match x.en.resumeCtl, x.en.xfer with
  | true, some t => t.at'
  | _, _ => x.en.pc + BitVec.ofNat 57 (12 * x.en.runpos)

/-- A post-commit trapping event noted for the run's completion (20 R424). -/
def Group.notePost (g : Group) (e : Nat) (p : PostTrap) : Group :=
  g.updEntry e (fun en => { en with post := en.post ++ [p] })

end Sys2Proof.Machine
end

