-- ==== Sys2Proof/Machine/Operands.lean ====
section
/-!
DEFINITION. Operand fetch of lane instructions: what each operand code supplies (02 R61-R67, 01 R28, R35; 04 R125, R126;
17 R373; 20 R425), and access-program operands (06 R166).
-/
namespace Sys2Proof.Machine

/-- A special lane value, 01 R28 Table 1. -/
def State.special (s : State) (g : Group) (n l : Nat) : Word32 :=
  let t := s.team g.tid
  let la := (t.bind (fun t => s.launch t.launch)).getD default
  let tm := t.getD default
  let ns (k : Nat) : Nat := nth 0 la.params.n k
  let below : Nat := ((List.range g.stage).map ns).sum
  let x := max 1 la.params.x
  let y := max 1 la.params.y
  match n with
  | 0 => BitVec.ofNat 32 l
  | 1 => BitVec.ofNat 32 (l / 4)
  | 2 => BitVec.ofNat 32 g.ix
  | 3 => BitVec.ofNat 32 g.stage
  | 4 => BitVec.ofNat 32 (tm.pos % x)
  | 5 => BitVec.ofNat 32 (tm.pos / x % y)
  | 6 => BitVec.ofNat 32 (tm.pos / x / y)
  | 7 => BitVec.ofNat 32 g.core
  | 8 => BitVec.ofNat 32 g.die
  | 9 => Config.chip.setWidth 32
  | 10 => BitVec.ofNat 32 g.quarter
  | 11 => BitVec.ofNat 32 la.member
  | 12 => BitVec.ofNat 32 (ns 0 + ns 1 + ns 2 + ns 3)
  | 13 => BitVec.ofNat 32 (ns g.stage)
  | 14 => BitVec.ofNat 32 (g.ix - below)
  | _ => g.tag

/-- Outcome of the test of one source over lanes m (04 R125, 01 R35): the mask of a trap is the lanes that met the empty
source (log 12). -/
inductive SrcTest where
  | full | block | trap (m : LaneMask)
deriving DecidableEq, Repr

/-- Test of a source with its EP bit; `k` of the word's earlier fields pop the same queue (02 R67). -/
def Group.testSrc (g : Group) (wbase : Nat) (m : LaneMask) (o : Operand) (ep : Bool) (k : Nat) : SrcTest :=
  let emptyIn (f : Nat → Fullness) : LaneMask := maskOf (fun l => inMask m l && f l != .full)
  let byEp (e : LaneMask) : SrcTest := if e = 0 then .full else if ep then .trap e else .block
  match o with
  | .v n => byEp (emptyIn (fun l => g.vState (g.slotOf wbase n.toNat) l))
  | .s n => if g.sState n.toNat = .full then .full else if ep then .trap m else .block
  | .t n =>
    let e := emptyIn (fun l => g.tState n.toNat l)
    let noFill := maskOf (fun l => inMask m l && g.tState n.toNat l == .empty)
    if noFill ≠ 0 then .trap e else byEp e
  | .oq q => if k < (g.avail q.toNat).length then .full else if ep then .trap m else .block
  | _ => .full

/-- The 32-bit value of a source in lane l (02 R62-R65). -/
def State.srcVal (s : State) (g : Group) (wbase : Nat) (imm : BitVec 32) (o : Operand) (k l : Nat) : Word32 :=
  match o with
  | .v n => g.getV (g.slotOf wbase n.toNat) l
  | .s n => (g.getS n.toNat).setWidth 32
  | .t n => g.getT n.toNat l
  | .oq q => nth 0 (((g.avail q.toNat).getD k ⟨[], none⟩).vals) l
  | .special n => s.special g n.toNat l
  | .imm => imm
  | .zero => 0

/-- A source of a word: the operand, its EP bit and the lanes over which it is tested. -/
structure Src where
  o : Operand
  ep : Bool
  lanes : LaneMask

/-- What operand fetch answers: the split holds, traps EMPTYREAD in lanes m, or has its values, with the queue pops made.
`post` is the EMPTYREAD of 20 R425, after the commit point. -/
inductive Fetch where
  | hold
  | trap (m : LaneMask)
  | ok (a b c : Nat → Word32) (g : Group) (post : Option LaneMask)

/-- One source: its value by lane, whether it pops, and a post-commit EMPTYREAD; `post` says that the position lies after the
commit point. -/
inductive Fetch1 where
  | hold
  | trap (m : LaneMask)
  | ok (v : Nat → Word32) (pops : Bool) (post : LaneMask)

def State.fetch1 (s : State) (g : Group) (wbase : Nat) (imm : BitVec 32) (post : Bool) (x : Src) (k : Nat) : Fetch1 :=
  let isQ : Bool := match x.o with
    | .oq _ => true
    | _ => false
  match g.testSrc wbase x.lanes x.o x.ep k with
  | .full => .ok (fun l => s.srcVal g wbase imm x.o k l) isQ 0
  | .block => .hold
  | .trap m =>
    if post then
      match x.o with
      | .v _ | .s _ => .ok (fun l => s.srcVal g wbase imm x.o k l) false m
      | _ => .ok (fun _ => 0) false m
    else .trap m

def sameQueue : Operand → Operand → Bool
  | .oq a, .oq b => a == b
  | _, _ => false

/-- Pop the queue that an operand names. -/
def Group.popOf (g : Group) (e : Nat) (o : Operand) (yes : Bool) : Group :=
  match o with
  | .oq q => if yes then g.pop q.toNat e else g
  | _ => g

/-- The fetch of SA, SB, SC in that order (02 R67): the first field that is not full decides. -/
def State.fetch (s : State) (x : Issue) (imm : BitVec 32) (a b c : Src) : Fetch :=
  let g := x.g
  let wb := x.en.wbase
  let post := x.en.afterCommit
  match s.fetch1 g wb imm post a 0 with
  | .hold => .hold
  | .trap m => .trap m
  | .ok va pa ma =>
    let kb := if pa && sameQueue a.o b.o then 1 else 0
    match s.fetch1 g wb imm post b kb with
    | .hold => .hold
    | .trap m => .trap m
    | .ok vb pb mb =>
      let kc := (if pa && sameQueue a.o c.o then 1 else 0) + (if pb && sameQueue b.o c.o then 1 else 0)
      match s.fetch1 g wb imm post c kc with
      | .hold => .hold
      | .trap m => .trap m
      | .ok vc pc mc =>
        let m := ma ||| mb ||| mc
        .ok va vb vc (((g.popOf x.e a.o pa).popOf x.e b.o pb).popOf x.e c.o pc) (if m = 0 then none else some m)

/-- Fetch of the operand fields of a lane word over its active lanes. -/
def State.fetchLane (s : State) (x : Issue) (w : Lane) (m : LaneMask) : Fetch :=
  s.fetch x w.imm ⟨w.sa, w.epa, m⟩ ⟨w.sb, w.epb, m⟩ ⟨w.sc, w.epc, m⟩

/-- The 64-bit value of a uniform field, an S code or ZERO (02 R65, 09 R227). -/
def Group.uniform (g : Group) : Operand → Word64
  | .s n => g.getS n.toNat
  | _ => 0

/-- A lane result written to a V, T or ZERO destination in the lanes of m, full (04 R123). -/
def Group.writeDst (g : Group) (wbase : Nat) (o : Operand) (m : LaneMask) (f : Nat → Word32) : Group :=
  match o with
  | .v n => g.overLanes m (fun g l => g.putV (g.slotOf wbase n.toNat) l (f l))
  | .t n => g.overLanes m (fun g l => g.putT n.toNat l (f l))
  | _ => g

/-! ### Access-program operands (02 R70, 06 R166) -/

/-- S0-S191, or 0 for code 0xFF. -/
def Group.readS (g : Group) (r : SReg) : Word64 := if r = 0xFF then 0 else g.getS r.toNat
/-- Whether a source is full; code 0xFF has no fullness. -/
def Group.fullS (g : Group) (r : SReg) : Bool := r == 0xFF || g.sState r.toNat == .full
/-- Whether a write must wait for a pending fill (04 R126). -/
def Group.busyS (g : Group) (r : SReg) : Bool := r != 0xFF && g.sState r.toNat == .pending
/-- A write; code 0xFF discards it. -/
def Group.writeS (g : Group) (r : SReg) (x : Word64) : Group := if r = 0xFF then g else g.putS r.toNat x

end Sys2Proof.Machine
end

