-- ==== Sys2Proof/Machine/Flags.lean ====
section
/-!
DEFINITION. Exception conditions of lane instructions: sticky flags, enables, precise and post-commit FP traps (03 R92, R93;
01 R38; 20 R424), and the one operation through which every instruction of classes 0x00-0x9F issues.
-/
namespace Sys2Proof.Machine

/-- The lanes of m that enable a condition they raised, and the OR of the enabled conditions (R93). -/
def Group.fpTrap (g : Group) (m : LaneMask) (fl : Nat → BitVec 5) : LaneMask × BitVec 5 :=
  (maskLanes m).foldl (fun r l => let t := fl l &&& g.fpEnableOf l; if t = 0 then r else (r.1 ||| laneBit l, r.2 ||| t)) (0, 0)

/-- Sticky flags (R93): lanes that do not trap OR their conditions in. -/
def Group.raise (g : Group) (m : LaneMask) (fl : Nat → BitVec 5) : Group := g.overLanes m (fun g l => if fl l = 0 then g else g.orFlags l (fl l))

/-- What an instruction computes: the conditions of each lane, the fills that its writes must wait for, and its writes. -/
structure Result where
  fl : Nat → BitVec 5
  waits : Group → Bool
  write : Group → Group

/-- Issue of an instruction of classes 0x00-0x9F. With no active lane nothing changes (02 R60). Otherwise: operand fetch; then
an enabled condition traps FP, precisely before the commit point (R93); then the write waits for pending fills (04 R126);
then results, flags and pops stand together. After the commit point FP and EMPTYREAD are noted for the run's completion. -/
def State.issueAlu (s : State) (gp : BitVec 3) (neg : Bool) (imm : BitVec 32) (srcs : LaneMask → Src × Src × Src)
    (f : Issue → LaneMask → (Nat → Word32) → (Nat → Word32) → (Nat → Word32) → Result) : Out :=
  match s.issuer with
  | none => .fault .noIssuer
  | some x =>
    let m := x.active gp neg
    if x.commitWait then .next s
    else if m = 0 then .next (x.done s x.g)
    else
      let (a, b, c) := srcs m
      match s.fetch x imm a b c with
      | .hold => .next s
      | .trap t => .next (s.trapPrecise x.gid x.e (x.trapRec .emptyRead 0 t))
      | .ok va vb vc g post =>
        let r := f x m va vb vc
        let (tm, tf) := g.fpTrap m r.fl
        if tm ≠ 0 ∧ !x.en.afterCommit then
          .next (s.trapPrecise x.gid x.e { x.trapRec .fp 0 tm with flags := tf })
        else if r.waits g then .next s
        else
          let g := (r.write g).raise m r.fl
          let g := match post with
            | some e => g.notePost x.e ⟨.emptyRead, x.en.pos, e, 0⟩
            | none => g
          let g := if tm ≠ 0 then g.notePost x.e ⟨.fp, x.en.pos, tm, tf⟩ else g
          .next (x.done s g)

/-- The sources of a lane word, each tested over its active lanes. -/
def laneSrcs (w : Lane) (m : LaneMask) : Src × Src × Src := (⟨w.sa, w.epa, m⟩, ⟨w.sb, w.epb, m⟩, ⟨w.sc, w.epc, m⟩)

/-- No condition. -/
def noFlags : Nat → BitVec 5 := fun _ => 0

/-- A result written to V, T or ZERO by lane. -/
def Result.lanes (x : Issue) (w : Lane) (m : LaneMask) (r : Nat → FRes) : Result :=
  let d := x.g.destOf x.en.wbase w.dst
  { fl := fun l => (r l).fl, waits := fun g => g.pendingIn d m,
    write := fun g => g.writeDst x.en.wbase w.dst m (fun l => (r l).val) }

/-- A predicate result (02 R66). -/
def Result.pred (w : Lane) (m : LaneMask) (r : Nat → Bool × BitVec 5) : Result :=
  { fl := fun l => (r l).2, waits := fun _ => false,
    write := fun g => match w.dst with
      | .v n => g.putP n.toNat m (maskOf (fun l => (r l).1))
      | _ => g }

/-- A result written to an S register or discarded (02 R65). -/
def Result.scalar (w : Lane) (v : Word64) (fl : Nat → BitVec 5) : Result :=
  { fl := fl,
    waits := fun g => match w.dst with
      | .s n => g.sState n.toNat == .pending
      | _ => false,
    write := fun g => match w.dst with
      | .s n => g.putS n.toNat v
      | _ => g }

/-- An instruction that computes each active lane's value from its own three sources. -/
def State.laneOp (s : State) (w : Lane) (f : Word32 → Word32 → Word32 → FRes) : Out :=
  s.issueAlu w.gp w.neg w.imm (laneSrcs w) (fun x m a b c => .lanes x w m (fun l => f (a l) (b l) (c l)))

/-- The same without conditions. -/
def State.laneInt (s : State) (w : Lane) (f : Word32 → Word32 → Word32 → Word32) : Out :=
  s.laneOp w (fun a b c => ⟨f a b c, 0⟩)

end Sys2Proof.Machine
end

