-- ==== Sys2Proof/Machine/Translate.lean ====
section
/-!
DEFINITION. Physical bytes under keys, and translation: 08 R208-R217, 12 R282, R286, R287, R289-R296, R302, R475; 21 R450, R454.
-/
namespace Sys2Proof.Machine

/-! ### Physical bytes -/

/-- First address of the host window and end of HBM (12 R282 Table 1). -/
def hostBase : Nat := 2 ^ 46
def hbmEnd : Nat := 0x007735940000
/-- An address in the hole. -/
def inHole (pa : Nat) : Bool := hbmEnd ≤ pa && pa < hostBase
def isHbm (pa : Nat) : Bool := pa < hbmEnd
/-- The die of a local address: host-window lines have their home slice on die 0 (12 R282, R283). -/
def dieOfPa (pa : Nat) : Nat := if pa < 256 * 10 ^ 9 then 0 else if isHbm pa then 1 else 0

/-- A byte as it is stored. An unlisted byte reads 0 (log 4). -/
def State.byteAt (s : State) (pa : Nat) : Byte := rd 0 s.mem pa
/-- A counter for the free values that one step uses. -/
def State.salt (s : State) (x : Nat) : Nat := s.tick * 2 ^ 80 + x

/-- A byte read under a key (12 R302): bytes written under another key, or under an earlier key of the same number, are free. -/
def State.readKey (s : State) (key pa : Nat) : Byte :=
  if isHbm pa then
    match look s.keyOf pa with
    | none => s.byteAt pa
    | some k => if k = (key, (s.part key).keyEpoch) then s.byteAt pa else Config.freeByte (s.salt pa) pa
  else s.byteAt pa

/-- A byte written under a key. -/
def State.writeKey (s : State) (key pa : Nat) (b : Byte) : State :=
  { s with mem := wr 0 s.mem pa b,
           keyOf := if isHbm pa then put s.keyOf pa (key, (s.part key).keyEpoch) else s.keyOf }

/-- Write consecutive bytes. -/
def State.writeKeys (s : State) (key : Nat) : Nat → List Byte → State
  | _, [] => s
  | pa, b :: r => (s.writeKey key pa b).writeKeys key (pa + 1) r

/-- A local line that holds uncorrectable data (21 R454). -/
def State.poisoned (s : State) (pa : Nat) : Bool := s.poison.contains (pa / 64)
/-- Whether a key can be used: keys apply to HBM only (R213, R302). -/
def State.keyOk (s : State) (key pa : Nat) : Bool := !isHbm pa || (s.part key).keyLoaded

/-! ### The walk (08 R208-R214) -/

/-- A translation failure: cause, sub-cause, level and the address reported. -/
structure XFault where
  cause : Cause
  sub : Nat
  level : Nat
  addr : VAddr
deriving DecidableEq, Repr

/-- What an access needs (08 R213 Table 3). -/
inductive Need where
  | read | write | rmw | laneExec | accessExec
deriving DecidableEq, Repr

def xNoncanon : Nat := 1
def xInvalid : Nat := 2
def xMalformed : Nat := 3
def xMemErr : Nat := 4
def xNoMem : Nat := 5
def xPinFull : Nat := 6
def xAperture : Nat := 7
def xScale : Nat := 8

/-- A 16-byte table entry, read under the partition's own key (R214, R217). -/
def State.read16 (s : State) (key pa : Nat) : Nat := ofBytes ((from' pa 16).map (s.readKey key))

/-- Leaf size at a level (R208 Table 1). -/
def leafSize (level : Nat) (s64 : Bool) : Nat :=
  match level with
  | 2 => 2 ^ 30
  | 1 => 2 ^ 21
  | _ => if s64 then 2 ^ 16 else 2 ^ 12

/-- The malformed conditions of R212 for an entry with V = 1; `s64ok` says that the entry is the one that covers 64 KiB. -/
def malformed (level e : Nat) : Bool :=
  let leaf := bit e 1
  let s64 := bit e 7
  if leaf then
    let size := leafSize level s64
    let efmt := bits e 102 100
    let home := bits e 99 98
    bits e 95 56 != 0 || bits e 11 8 != 0 || bit e 2 || 3 ≤ level || (s64 && level != 0) ||
      bits e 55 12 * 4096 % size != 0 || 4 ≤ efmt || (efmt != 0 && bits e 127 112 == 0) ||
      (home == 1 && 65536 < size) || (home == 2 && 2 ^ 21 < size) ||
      ((home == 1 || home == 2) && bits e 55 47 != Config.chip.toNat)
  else
    level == 0 || bits e 127 56 != 0 || bits e 12 1 != 0

/-- The leaf that an entry holds. -/
def leafOf (level e : Nat) : Leaf :=
  { pfn := bits e 55 12 * 4096, size := leafSize level (bit e 7), r := bit e 3, w := bit e 4, xl := bit e 5, xa := bit e 6,
    cow := bit e 96, kv := bit e 97, home := bits e 99 98, efmt := bits e 102 100, gap := bits e 105 103 + 1,
    key := bits e 111 106, tid := bits e 127 112 }

/-- The entry for an address in a table at a level (R208, R209): its leaf, or the next level's table. A table that is not local is
not read (log 15). -/
def State.walkAt (s : State) (key : Nat) (va : VAddr) (level table : Nat) : Except XFault (Leaf ⊕ Nat) :=
  let ix := va.toNat / 2 ^ (12 + 9 * level) % 512
  let bad (sub : Nat) : Except XFault (Leaf ⊕ Nat) := .error ⟨.xlate, sub, if sub = xInvalid then level else 0, va⟩
  if table / 2 ^ 47 % 512 ≠ Config.chip.toNat then bad xInvalid
  else
    let base := table % 2 ^ 47
    let lead := s.read16 key (base + 16 * (ix / 16 * 16))
    let big := level = 0 ∧ bit lead 0 ∧ bit lead 1 ∧ bit lead 7
    let at' := if big then base + 16 * (ix / 16 * 16) else base + 16 * ix
    let e := if big then lead else s.read16 key at'
    if s.poisoned at' ∨ !(s.keyOk key at') then bad xMemErr
    else if !(bit e 0) then bad xInvalid
    else if malformed level e ∨ (level = 0 ∧ bit e 7 ∧ !big) then bad xMalformed
    else if bit e 1 then .ok (.inl (leafOf level e))
    else .ok (.inr (bits e 55 13 * 8192))

/-- The walk from a table at a level (R208, R209). -/
def State.walk (s : State) (key : Nat) (va : VAddr) : Nat → Nat → Except XFault Leaf
  | 0, table =>
    match s.walkAt key va 0 table with
    | .ok (.inl l) => .ok l
    | .ok (.inr _) => .error ⟨.xlate, xMalformed, 0, va⟩
    | .error e => .error e
  | n + 1, table =>
    match s.walkAt key va (n + 1) table with
    | .ok (.inl l) => .ok l
    | .ok (.inr next) => s.walk key va n next
    | .error e => .error e

/-- The leaf for an address: a cached translation may be used until a CMAINT invalidates it (R217). Answers the new cache
contents with it. -/
def State.leaf (s : State) (root part : Nat) (va : VAddr) : Except XFault Leaf :=
  let cached := (look s.tcache root).bind (fun m => look m (va.toNat / 4096 % 2 ^ 45))
  match cached with
  | some l => if Config.coin (s.salt (va.toNat / 4096)) then .ok l else s.walk part va 4 root
  | none => s.walk part va 4 root

/-- Keep a translation in the caches, if the device chooses to. -/
def State.cacheLeaf (s : State) (root : Nat) (va : VAddr) (l : Leaf) : State :=
  { s with tcache :=
      if Config.coin (s.salt (2 ^ 60 + va.toNat / 4096)) then
        put s.tcache root (put ((look s.tcache root).getD []) (va.toNat / 4096 % 2 ^ 45) l)
      else s.tcache }

/-- Bits [63:57] equal bit [56] (R208). -/
def canonical (va : VAddr) : Bool := va == (va.setWidth 57).signExtend 64


/-- Permission, COW and KEY checks in the order of R214; `ok` says which keys may be used. -/
def permit (ok : Nat → Bool) (need : Need) (l : Leaf) (va : VAddr) : Option XFault :=
  let perm (sub : Nat) : Option XFault := some ⟨.perm, sub, 0, va⟩
  let writes := need = .write ∨ need = .rmw
  if (need = .read ∨ need = .rmw) ∧ !l.r then perm 1
  else if writes ∧ !l.w then perm 2
  else if need = .laneExec ∧ !l.xl then perm 3
  else if need = .accessExec ∧ !l.xa then perm 4
  else if writes ∧ l.cow then perm 5
  else if !(ok l.key) then perm 6
  else none

/-- The scale-table entry of a page in a block format: U0 and SBASE (R216). A cached entry may be used until a CMAINT. -/
def State.scaleEntry (s : State) (part tid : Nat) (va : VAddr) : Except XFault (Nat × Nat) :=
  let bad : Except XFault (Nat × Nat) := .error ⟨.xlate, xScale, 0, va⟩
  let fresh : Except XFault (Nat × Nat) :=
    match (s.part part).scaleBase with
    | none => bad
    | some base =>
      let e := s.read16 part (base + 16 * tid)
      let u0 := bits e 108 64
      if !(bit e 127) ∨ bits e 126 109 ≠ 0 ∨ bits e 63 57 ≠ 0 ∨ e % 2 = 1 ∨ va.toNat / 4096 % 2 ^ 45 < u0 then bad
      else .ok (u0, bits e 56 0)
  match (look s.stcache part).bind (fun m => look m tid) with
  | some p => if Config.coin (s.salt (2 ^ 61 + tid)) ∧ p.1 ≤ va.toNat / 4096 % 2 ^ 45 then .ok p else fresh
  | none => fresh

/-- Keep a scale-table entry, if the device chooses to (R217). -/
def State.cacheScale (s : State) (part tid : Nat) (p : Nat × Nat) : State :=
  { s with stcache :=
      if Config.coin (s.salt (2 ^ 62 + tid)) then put s.stcache part (put ((look s.stcache part).getD []) tid p)
      else s.stcache }

/-! ### Apertures and places (12 R289, R296, R475; 13 R312) -/

def scratchBase : Nat := 0xFFFFFF0000000000
def ridgeBase : Nat := 0xFFFFFF8000000000

/-- Who makes an access: its address space, and, for an access made for a group, the group, its team, launch and core. -/
structure Actx where
  root : Nat
  part : Nat
  gid : Option Nat
  tid : Nat
  lid : Nat
  cid : Nat
deriving DecidableEq, Repr

/-- The context of a group's accesses. -/
def State.actx (s : State) (gid : Nat) : Option Actx :=
  match s.where' gid with
  | none => none
  | some (g, t, l) => some ⟨l.root, l.part, some gid, g.tid, t.launch, g.coreId⟩

/-- A translated address: where the access is performed, the key and the format of its page. -/
structure Target where
  place : Place
  key : Nat
  efmt : Nat
  gap : Nat
  tid : Nat
  home : Nat
  kv : Bool
deriving DecidableEq, Repr

def Target.plain (p : Place) : Target := ⟨p, 0, 0, 1, 0, 1, false⟩

/-- The scratchpad size of a launch, in bytes. -/
def scratchSize (l : Launch) : Nat := l.params.scratch

/-- An address at or above the team scratchpad aperture (R289, R290, R296, R475). -/
def State.aperture (s : State) (c : Actx) (need : Need) (va : VAddr) : Except XFault Target :=
  let a := va.toNat
  let bad (cause : Cause) (sub : Nat) : Except XFault Target := .error ⟨cause, sub, 0, va⟩
  match c.gid, s.launch c.lid, s.team c.tid with
  | some _, some l, some t =>
    let exec : Option Nat := match need with
      | .laneExec => some 3
      | .accessExec => some 4
      | _ => none
    if a < ridgeBase then
      let o := a - scratchBase
      if scratchSize l ≤ o then bad .xlate xAperture
      else match exec with
        | some x => bad .perm x
        | none => .ok (.plain (.scratch c.tid o))
    else
      let m := (a - ridgeBase) / 2 ^ 24
      let o := (a - ridgeBase) % 2 ^ 24
      if l.params.width ≤ 1 ∨ l.params.width ≤ m ∨ scratchSize l ≤ o then bad .xlate xAperture
      else match exec with
        | some x => bad .perm x
        | none =>
          if m = l.member then .ok (.plain (.scratch c.tid o))
          else .ok (.plain (.remote (nth 0 l.params.chips m) (.ridge l.ref t.pos m o)))
  | _, _, _ => bad .xlate xAperture

/-- The slice of a local address (12 R283, R287). -/
def sliceOf (pa : Nat) : Nat := dieOfPa pa * 32 + Config.homeSlice (pa / 256) % 32

/-- Bytes of a launch's core-pinned reserve that its pages take on a core. -/
def State.pinnedBytes (s : State) (lid cid : Nat) : Nat :=
  ((s.pins.filter (fun p => p.2.launch = lid ∧ p.2.core = cid)).map (fun p => p.2.size)).sum

/-- The holder of a core-pinned page: the first core of the launch to reach the home slice (12 R286). -/
def State.pin (s : State) (c : Actx) (l : Leaf) (va : VAddr) : Except XFault (State × Nat) :=
  let base := l.pfn % 2 ^ 47
  let k := base / 4096
  match look s.pins k with
  | some p => .ok (s, p.core)
  | none =>
    let reserve := ((s.launch c.lid).map (fun x => x.params.reserve)).getD 0
    if c.gid.isNone ∨ reserve < s.pinnedBytes c.lid c.cid + l.size then .error ⟨.xlate, xPinFull, 0, va⟩
    else
      let data : AMap Byte := (from' base l.size).foldl (fun m a => wr 0 m a (s.readKey l.key a)) []
      .ok ({ s with pins := put s.pins k { key := l.key, launch := c.lid, core := c.cid, size := l.size, data := data } }, c.cid)

/-- Allocation of a slice-pinned line at its first access (12 R287). -/
def State.pinLine (s : State) (pa : Nat) (va : VAddr) : Except XFault State :=
  let line := pa / 64
  match look s.slicePins line with
  | some _ => .ok s
  | none =>
    let sl := sliceOf pa
    if 32768 ≤ (s.slicePins.filter (fun p => p.2 = sl)).length then .error ⟨.xlate, xPinFull, 0, va⟩
    else .ok { s with slicePins := put s.slicePins line sl }

/-- Key ids that an access may use (R213): the partition's own, and those that the policy grants which was in force when the
packet that made the launch was consumed (21 R453). -/
def State.keyPermitted (s : State) (c : Actx) (key : Nat) : Bool :=
  let keys := match c.gid with
    | some _ => ((s.launch c.lid).map Launch.keys).getD 0
    | none => (s.part c.part).policy.keys
  key == c.part || keys.getLsbD key

/-- Translation of one access: the order of R214, then NOMEM (12 R282), NOATOM (13 R312) and PINFULL (12 R286, R287). The
SCALE check (R216) is made for a page in a block format when `scale` holds: by lane accesses, drain block stores and matrix
reads, not by the access program (06 R173). Caches of translations may change. -/
def State.translate (s : State) (c : Actx) (need : Need) (scale : Bool) (va : VAddr) : Except XFault (State × Target) :=
  if !(canonical va) then .error ⟨.xlate, xNoncanon, 0, va⟩
  else if scratchBase ≤ va.toNat then
    match s.aperture c need va with
    | .ok t => .ok (s, t)
    | .error e => .error e
  else
    match s.leaf c.root c.part va with
    | .error e => .error e
    | .ok l =>
      match permit (s.keyPermitted c) need l va with
      | some e => .error e
      | none =>
        let s := s.cacheLeaf c.root va l
        let sc := if scale && l.efmt != 0 then s.scaleEntry c.part l.tid va else .ok (0, 0)
        match sc with
        | .error e => .error e
        | .ok p =>
          let s := if scale && l.efmt != 0 then s.cacheScale c.part l.tid p else s
          let pa := l.pfn + va.toNat % l.size
          let loc := pa % 2 ^ 47
          let chip := pa / 2 ^ 47 % 512
          let t (p : Place) : Target := ⟨p, l.key, l.efmt, l.gap, l.tid, l.home, l.kv⟩
          if inHole loc then .error ⟨.xlate, xNoMem, 0, va⟩
          else if chip ≠ Config.chip.toNat then .ok (s, t (.remote chip (.mem loc)))
          else if hostBase ≤ loc ∧ Config.isPeer (loc - hostBase) then
            if need = .rmw then .error ⟨.perm, 9, 0, va⟩ else .ok (s, t (.home loc))
          else
            match l.home with
            | 0 => .ok (s, t (.cached loc))
            | 1 =>
              match s.pin c l va with
              | .error e => .error e
              | .ok (s, core) => .ok (s, t (.pinned core loc))
            | 2 =>
              match s.pinLine loc va with
              | .error e => .error e
              | .ok s => .ok (s, t (.home loc))
            | _ => .ok (s, t (.home loc))

end Sys2Proof.Machine
end

