-- ==== Sys2Proof/Machine/MemSys.lean ====
section
/-!
DEFINITION. The memory system: caches, write-combining buffers, requests to other devices, the actions of releases and
acquires, and reads and writes at their place of performance: 12 R284-R295, 13 R312, R316, 14 R322-R326, R331, R334; 08 R218.
-/
namespace Sys2Proof.Machine

/-! ### Cluster caches and L1s (12 R284; 14 R323) -/

def cKey (cl pa : Nat) : Nat := cl * 2 ^ 56 + pa

/-- Drop a byte from the L1s of a cluster's eight cores. -/
def State.dropL1 (s : State) (cl pa : Nat) : State :=
  { s with l1 := (List.range 8).foldl (fun m i => del m (cKey (cl * 8 + i) pa)) s.l1 }

/-- Write a dirty byte back; a key that is not loaded makes the controller discard it (R213). -/
def State.putBack (s : State) (pa : Nat) (x : Byte × Option Nat) : State :=
  match x.2 with
  | some k => if s.keyOk k pa then s.writeKey k pa x.1 else s
  | none => s

/-- Write a line back from a cluster cache and drop it from the cluster's caches. -/
def State.flushLine (s : State) (cl line : Nat) : State :=
  (from' (64 * line) 64).foldl (fun s pa =>
    let s := match look s.cc (cKey cl pa) with
      | some x => { s.putBack pa x with cc := del s.cc (cKey cl pa) }
      | none => s
    s.dropL1 cl pa) s

/-- Write a cluster's dirty bytes back; the copies stay, clean (R323, scope team). -/
def State.writeBackCluster (s : State) (cl : Nat) : State :=
  let mine := s.cc.filter (fun e => e.1 / 2 ^ 56 = cl)
  let s := mine.foldl (fun s e => s.putBack (e.1 % 2 ^ 56) e.2) s
  { s with cc := s.cc.map (fun e => if e.1 / 2 ^ 56 = cl then (e.1, (e.2.1, none)) else e) }

/-- Invalidate the clean lines of a core's L1 and of its cluster cache (R323, scope team). -/
def State.invalidateCore (s : State) (cid : Nat) : State :=
  { s with l1 := keepKeys s.l1 (fun k => k / 2 ^ 56 != cid),
           cc := s.cc.filter (fun e => !(e.1 / 2 ^ 56 = clusterOf cid && e.2.2.isNone)) }

/-- A page of HBM in HOST bias is never cached (08 R218); during a flip its accesses are held. -/
def State.biasOf (s : State) (pa : Nat) : Option Bias := if isHbm pa then look s.bias (pa / 4096) else none
def State.uncached (s : State) (pa : Nat) : Bool := (s.biasOf pa).isSome
def State.heldBias (s : State) (pa : Nat) : Bool :=
  match s.biasOf pa with
  | some (.toHost _) | some (.toDevice _ _) => true
  | _ => false

/-- What a cluster's agents see: dirty bytes always, clean copies if kept (14 R322). -/
def State.clusterByte (s : State) (cid key pa : Nat) : Byte :=
  match look s.cc (cKey (clusterOf cid) pa) with
  | some (b, some _) => b
  | some (b, none) => if Config.coin (s.salt (2 ^ 63 + pa)) then b else s.readKey key pa
  | none => s.readKey key pa

/-- A weak load's byte: a copy in the L1 may be used. -/
def State.weakByte (s : State) (cid key pa : Nat) : Byte :=
  match look s.l1 (cKey cid pa) with
  | some b => if Config.coin (s.salt (2 ^ 64 + pa)) then b else s.clusterByte cid key pa
  | none => s.clusterByte cid key pa

/-- A weak load may allocate its line (12 R284). -/
def State.allocate (s : State) (cid key pa : Nat) : State :=
  let yes := Config.coin (s.salt (2 ^ 65 + pa))
  let line := from' (pa / 64 * 64) 64
  { s with l1 := if yes then line.foldl (fun m a => put m (cKey cid a) (s.clusterByte cid key a)) s.l1 else s.l1,
           cc := if yes then line.foldl (fun m a => match look m (cKey (clusterOf cid) a) with
             | some _ => m
             | none => put m (cKey (clusterOf cid) a) (s.clusterByte cid key a, none)) s.cc else s.cc }

/-- A store at the cluster cache: the other L1s lose the byte first. The line may go back to memory at any time (log 17). -/
def State.clusterStore (s : State) (cid key pa : Nat) (b : Byte) : State :=
  let s := s.dropL1 (clusterOf cid) pa
  let yes := Config.coin (s.salt (2 ^ 66 + pa))
  let back := s.putBack pa (b, some key)
  { s with mem := if yes then back.mem else s.mem, keyOf := if yes then back.keyOf else s.keyOf,
           cc := put s.cc (cKey (clusterOf cid) pa) (b, if yes then none else some key) }

/-! ### Reads and writes at their place (13 R312) -/

/-- How an access treats the caches: weak (non-temporal or not), or strong at a scope. -/
inductive Mode where
  | weak (nt : Bool)
  | strong (s : Scope)
deriving DecidableEq, Repr

/-- Strong accesses at scope team and wider act at the home slice (14 R323). -/
def Mode.wide : Mode → Bool
  | .weak _ => false
  | .strong s => match s with
    | .split | .group | .core | .cluster => false
    | _ => true

/-- Whether the outcome is an error found after acceptance (13 R316). -/
inductive MemStatus where
  | ok | memErr | keyRev
deriving DecidableEq, Repr

def State.statusOf (s : State) (p : Place) (key : Nat) : MemStatus :=
  match p with
  | .cached pa | .home pa => if !(s.keyOk key pa) then .keyRev else if s.poisoned pa then .memErr else .ok
  | _ => .ok

/-- Held by a running flip (08 R220). -/
def State.placeHeld (s : State) (p : Place) : Bool :=
  match p with
  | .cached pa | .home pa | .pinned _ pa => s.heldBias pa
  | _ => false

/-- A byte read at its place. A byte of another device that an engine reads is free (log 18). -/
def State.placeByte (s : State) (c : Actx) (m : Mode) (p : Place) (key i : Nat) : Byte :=
  match p with
  | .cached pa =>
    if s.uncached pa || m.wide then s.readKey key (pa + i)
    else match m with
      | .weak _ => s.weakByte c.cid key (pa + i)
      | .strong _ => s.clusterByte c.cid key (pa + i)
  | .home pa => s.readKey key (pa + i)
  | .pinned _ pa =>
    match s.pins.find? (fun x => x.1 * 4096 ≤ pa && decide (pa < x.1 * 4096 + x.2.size)) with
    | some x => rd 0 x.2.data (pa + i)
    | none => s.readKey key (pa + i)
  | .scratch tid o => ((s.team tid).map (fun t => rd 0 t.scratch (o + i))).getD 0
  | .remote chip (.mem pa) => Config.freeByte (s.salt (2 ^ 67 + chip)) (pa + i)
  | .remote chip (.ridge _ _ _ o) => Config.freeByte (s.salt (2 ^ 68 + chip)) (o + i)

/-- Caches before an access at the home slice: the issuing cluster's copy goes back and is dropped (13 R312). -/
def State.beforeAccess (s : State) (c : Actx) (m : Mode) (p : Place) : State :=
  match p with
  | .cached pa => if m.wide then s.flushLine (clusterOf c.cid) (pa / 64) else s
  | _ => s

/-- n bytes read at a place, with the changes to caches. -/
def State.readPlace (s : State) (c : Actx) (m : Mode) (p : Place) (key n : Nat) : List Byte × State :=
  let s := s.beforeAccess c m p
  let bs := (List.range n).map (s.placeByte c m p key)
  match p, m with
  | .cached pa, .weak false => (bs, if s.uncached pa then s else s.allocate c.cid key pa)
  | _, _ => (bs, s)

/-- A byte written at its place. -/
def State.placeStore (s : State) (c : Actx) (m : Mode) (p : Place) (key i : Nat) (b : Byte) : State :=
  let direct (pa : Nat) : State := if s.keyOk key pa then s.writeKey key (pa + i) b else s
  match p with
  | .cached pa =>
    if s.uncached pa || m.wide || m = .weak true then direct pa else s.clusterStore c.cid key (pa + i) b
  | .home pa => direct pa
  | .pinned _ pa =>
    match s.pins.find? (fun x => x.1 * 4096 ≤ pa && decide (pa < x.1 * 4096 + x.2.size)) with
    | some x => { s with pins := put s.pins x.1 { x.2 with data := wr 0 x.2.data (pa + i) b } }
    | none => direct pa
  | .scratch tid o => s.updTeam tid (fun t => { t with scratch := wr 0 t.scratch (o + i) b })
  | .remote _ _ => s

/-- Consecutive bytes written at a place. -/
def State.storeFrom (s : State) (c : Actx) (m : Mode) (p : Place) (key : Nat) : Nat → List Byte → State
  | _, [] => s
  | i, b :: r => (s.placeStore c m p key i b).storeFrom c m p key (i + 1) r

/-- Bytes written at a local place. -/
def State.writePlace (s : State) (c : Actx) (m : Mode) (p : Place) (key : Nat) (bs : List Byte) : State :=
  let s := match p, m with
    | .cached pa, .weak true => s.flushLine (clusterOf c.cid) (pa / 64)
    | _, _ => s.beforeAccess c m p
  s.storeFrom c m p key 0 bs

/-! ### Write-combining buffers and requests (12 R293-R295; 14 R334) -/

/-- One step of CRC-32C, bit by bit. -/
def crcBits : Nat → BitVec 32 → BitVec 32
  | 0, x => x
  | n + 1, x => crcBits n (if x.getLsbD 0 then (x >>> 1) ^^^ 0x82F63B78 else x >>> 1)
/-- CRC-32C of bytes (12 R295). -/
def crc32c (bs : List Byte) : BitVec 32 :=
  ~~~(bs.foldl (fun x b => crcBits 8 (x ^^^ b.setWidth 32)) (BitVec.allOnes 32))

/-- The 64-byte line of a target and the byte's place in it. -/
def lineOfTarget : RemoteTarget → RemoteTarget × Nat
  | .mem pa => (.mem (pa / 64 * 64), pa % 64)
  | .ridge l p m o => (.ridge l p m (o / 64 * 64), o % 64)

def State.wcOf (s : State) (cid : Nat) : List WcEntry := rd [] s.wc cid
def State.setWc (s : State) (cid : Nat) (l : List WcEntry) : State := { s with wc := wr [] s.wc cid l }

/-- The launches of groups. -/
def State.launchesOf (s : State) (gids : List Nat) : List Nat := (gids.filterMap s.launchOf).dedup

/-- Whether a port is up. -/
def State.portUp (s : State) (p : Nat) : Bool := ((look s.ports p).map Port.up).getD true
/-- The port of a request (21 R444): plane PA[9:6], port 2p + PA[10]; where it is down the plane's other port, then the next
planes in ascending order. A request to a ridge window has no physical address here: the fabric's routing names its port
(log 16). -/
def State.portFor (s : State) (chip : Nat) : RemoteTarget → Nat
  | .mem pa =>
    let p := bits pa 9 6
    let h := bits pa 10 10
    let all := (List.range 16).flatMap (fun i => [2 * ((p + i) % 16) + h, 2 * ((p + i) % 16) + (1 - h)])
    (all.find? s.portUp).getD (2 * p + h)
  | .ridge _ _ _ _ =>
    let p := Config.route chip % 32
    (((List.range 32).map (fun i => (p + i) % 32)).find? s.portUp).getD p
/-- Whether the far end of a request's port has stopped the REQ channel (21 R443). -/
def State.reqStopped (s : State) (chip : Nat) (t : RemoteTarget) : Bool :=
  ((look s.ports (s.portFor chip t)).map Port.stopReq).getD false

/-- A drained entry leaves as one request with its mask and check code (R294, R295). -/
def State.sendDrain (s : State) (w : WcEntry) : State :=
  let bytes := (List.range 64).map (fun i => (look w.data i).getD 0)
  let mask := maskOf (fun i => (look w.data i).isSome)
  let port := s.portFor w.chip w.target
  let perf := match w.writers with
    | g :: _ => (s.perfOf g 12).perf
    | [] => s.perf
  { s with nextId := s.nextId + 1, perf := perf,
           reqs := put s.reqs s.nextId { who := .drain (s.launchesOf w.writers) w.writers, chip := w.chip, target := w.target, port := port },
           outbox := s.outbox ++ [.drain s.nextId w.chip port w.target w.key bytes mask (crc32c bytes)] }

/-- Drain the entries of a core that pass a test, oldest first. -/
def State.drainWc (s : State) (cid : Nat) (f : WcEntry → Bool) : State :=
  let all := s.wcOf cid
  (all.filter f).foldl State.sendDrain (s.setWc cid (all.filter (fun w => !f w)))

/-- A weak store to another device enters the buffer (R293). With 64 entries in use the oldest drains first; an entry whose
mask is full drains (R294). A write invalidates a remote line of this device first (14 R324). -/
def State.wcStore (s : State) (cid gid chip : Nat) (t : RemoteTarget) (key : Nat) (bs : List Byte) : State :=
  let (line, off) := lineOfTarget t
  let s := match line with
    | .mem pa => { s with rl := keepKeys s.rl (fun k => k / 64 != (chip * 2 ^ 47 + pa) / 64) }
    | _ => s
  let ws := s.wcOf cid
  let hit (w : WcEntry) : Bool := w.chip = chip && w.target == line
  let fill (d : AMap Byte) : AMap Byte := (bs.zipIdx).foldl (fun d x => put d (off + x.2) x.1) d
  if ws.any hit then
    let ws := ws.map (fun w => if hit w then { w with key := key, data := fill w.data, writers := if w.writers.contains gid then w.writers else w.writers ++ [gid] } else w)
    (s.setWc cid ws).drainWc cid (fun w => w.data.length = 64)
  else
    let s := if 64 ≤ ws.length then
        match ws with
        | w :: r => (s.setWc cid r).sendDrain w
        | [] => s
      else s
    let e : WcEntry := { chip := chip, target := line, key := key, data := fill [], writers := [gid] }
    (s.setWc cid (s.wcOf cid ++ [e])).drainWc cid (fun w => w.data.length = 64)

/-- The entry of a line drains before an access to it is sent (R294). -/
def State.drainLine (s : State) (cid chip : Nat) (t : RemoteTarget) : State :=
  s.drainWc cid (fun w => w.chip = chip && w.target == (lineOfTarget t).1)

/-- A request to another device (13 R312). A key id goes with it (12 R302). -/
def State.sendReq (s : State) (who : ReqWho) (chip : Nat) (t : RemoteTarget) (key : Nat) (op : RemoteOp) : State :=
  let port := s.portFor chip t
  { s with nextId := s.nextId + 1, reqs := put s.reqs s.nextId { who := who, chip := chip, target := t, port := port },
           outbox := s.outbox ++ [.request s.nextId chip port t key (some op)] }

/-! ### Order (14 R320, R321, R325, R331) -/

/-- Whether b is before a in program order: one stream, issued earlier, and for lanes their order sets meet. -/
def poBefore (b a : LaneAcc) : Bool :=
  b.stream == a.stream && decide (b.op < a.op) && (b.stream == .access || (b.po &&& a.po) != 0)

def LaneAcc.reads (a : LaneAcc) : Bool :=
  match a.what with
  | .load _ _ | .rmw _ _ _ _ _ => true
  | .store _ _ => false

/-- Whether two accesses touch a byte in common. -/
def accOverlap (a b : LaneAcc) : Bool :=
  let near (x y : Nat) : Bool := x < y + b.size && y < x + a.size
  near a.addr.toNat b.addr.toNat ||
    match a.place, b.place with
    | .cached x, .cached y | .home x, .home y | .cached x, .home y | .home x, .cached y => near x y
    | .pinned _ x, .pinned _ y => near x y
    | .scratch t x, .scratch u y => t = u && near x y
    | .remote c (.mem x), .remote d (.mem y) => c = d && near x y
    | _, _ => false

/-- Whether b holds a back (R325, R327, R331; the fence of R321). -/
def holdsBack (b a : LaneAcc) : Bool :=
  b.stage != .faulted && poBefore b a &&
    ((b.reads && b.lane == a.lane) || accOverlap b a || b.kind == .acq || b.kind == .ar || a.kind == .rel || a.kind == .ar ||
      (b.fence != 0 && decide (b.fence < a.op)))

/-- Accesses of one strong instruction go in ascending lane order, and so do stores of one instruction to one byte (13 R307). -/
def laneOrder (b a : LaneAcc) : Bool :=
  b.op == a.op && decide (b.lane < a.lane) && b.stage != .faulted && (a.kind != .weak || (!a.reads && accOverlap b a))

/-- No request of the group's drained entries is unanswered, and no entry of its stands in the buffer (R334). -/
def State.drainsDone (s : State) (gid cid : Nat) : Bool :=
  !((s.wcOf cid).any (fun w => w.writers.contains gid)) &&
    !(s.reqs.any (fun r => match r.2.who with
      | .drain _ gs => gs.contains gid
      | _ => false))

def Scope.atLeastRidge : Scope → Bool
  | .ridge | .partition | .fabric | .host | .system => true
  | _ => false
def Scope.atLeastTeam : Scope → Bool
  | .split | .group | .core | .cluster => false
  | _ => true

def Scope.atLeastCore : Scope → Bool
  | .split | .group => false
  | _ => true

/-- A release or an acquire at scope core or wider empties the scale cache of the group's quarter (15 R346). -/
def State.dropScales (s : State) (q : Nat) (sc : Scope) : State :=
  { s with scales := if Scope.atLeastCore sc then del s.scales q else s.scales }

/-- Release actions of R323 that need no wait. -/
def State.releaseAct (s : State) (g : Group) (sc : Scope) : State :=
  let s := s.dropScales g.quarterId sc
  if Scope.atLeastTeam sc then s.writeBackCluster (clusterOf g.coreId) else s

/-- Acquire actions of R323. -/
def State.acquireAct (s : State) (lid : Nat) (g : Group) (sc : Scope) : State :=
  let s := s.dropScales g.quarterId sc
  let s := if Scope.atLeastTeam sc then s.invalidateCore g.coreId else s
  if Scope.atLeastRidge sc then
    let chips := ((s.launch lid).map (fun l => l.params.chips)).getD []
    { s with rl := keepKeys s.rl (fun k => sc == .ridge && !chips.contains (k / 2 ^ 47)) }
  else s

/-! ### Stops of the access program -/

/-- A memory fault of the access program at its word: one record, and the program stops (06 R175, R178). -/
def State.stopAccess (s : State) (gid : Nat) (f : XFault) (pc : PC) : State :=
  let (s, set) := s.pushFaults [s.frec gid .access .none f.cause f.sub f.level f.addr pc (.access gid)]
  s.updGroup gid (fun g => { g with aStopped := true, aSet := some set })

/-! ### Engine accesses: weak, translated and made at once -/

/-- Outcome of an engine access: held by a flip, a fault, or done. -/
inductive Eng (α : Type) where
  | held
  | fault (f : XFault)
  | ok (s : State) (v : α) (st : MemStatus)

/-- n bytes at va, which lie in one aligned unit; on a page in a block format only if `blk` (13 R308 for lanes; 16 R367). -/
def State.engRead (s : State) (c : Actx) (va : VAddr) (n : Nat) : Eng (List Byte) :=
  match s.translate c .read false va with
  | .error f => .fault f
  | .ok (s, t) =>
    if s.placeHeld t.place then .held
    else
      let s := match t.place with
        | .remote chip tg => s.drainLine c.cid chip tg
        | _ => s
      let (bs, s') := s.readPlace c (.weak false) t.place t.key n
      .ok s' bs (s.statusOf t.place t.key)

/-- Bytes written at va by an engine. -/
def State.engWrite (s : State) (c : Actx) (va : VAddr) (bs : List Byte) : Eng Unit :=
  match s.translate c .write false va with
  | .error f => .fault f
  | .ok (s, t) =>
    if s.placeHeld t.place then .held
    else
      match t.place with
      | .remote chip tg => .ok (s.wcStore c.cid (c.gid.getD 0) chip tg t.key bs) () .ok
      | p => .ok (s.writePlace c (.weak false) p t.key bs) () (match s.statusOf p t.key with
        | .keyRev => .keyRev
        | _ => .ok)

/-- Bytes read in aligned pieces of a power-of-two size, in ascending order: `k` pieces of `n` bytes from va. -/
def State.engReads (s : State) (c : Actx) (n : Nat) : Nat → VAddr → Eng (List Byte)
  | 0, _ => .ok s [] .ok
  | k + 1, va =>
    match s.engRead c va n with
    | .held => .held
    | .fault f => .fault f
    | .ok s1 bs st =>
      match s1.engReads c n k (va + BitVec.ofNat 64 n) with
      | .held => .held
      | .fault f => .fault f
      | .ok s2 r st2 => .ok s2 (bs ++ r) (if st = .ok then st2 else st)

/-- Bytes written in pieces of n. -/
def State.engWrites (s : State) (c : Actx) (n : Nat) : Nat → VAddr → List Byte → Eng Unit
  | 0, _, _ => .ok s () .ok
  | k + 1, va, bs =>
    match s.engWrite c va (bs.take n) with
    | .held => .held
    | .fault f => .fault f
    | .ok s1 _ st =>
      match s1.engWrites c n k (va + BitVec.ofNat 64 n) (bs.drop n) with
      | .held => .held
      | .fault f => .fault f
      | .ok s2 _ st2 => .ok s2 () (if st = .ok then st2 else st)

/-- Errors after acceptance go to the launch's error summary (13 R316). -/
def State.memError (s : State) (lid : Option Nat) (st : MemStatus) : State :=
  match st with
  | .ok => s
  | .memErr => s.err lid errMEMERR
  | .keyRev => s.err lid errKEYREV

end Sys2Proof.Machine
end

