-- ==== Sys2Proof/Machine/Fetch.lean ====
section
/-!
DEFINITION. Fetching instruction words: lane runs and access words through the fetch paths (02 R54, R72, R79; 01 R33; 06 R178),
drain words from a running drain's image (16 R361), and what the word of each stream is for `step`.
-/
namespace Sys2Proof.Machine

/-- What a code read answers. -/
inductive Code (α : Type) where
  | held
  | fault (f : XFault)
  | ok (s : State) (v : α)

/-- The physical address of a place, with its chip; 0 for a scratchpad, which holds no code. -/
def placePa : Place → Nat
  | .cached pa | .home pa | .pinned _ pa => Config.chip.toNat * 2 ^ 47 + pa
  | .remote chip (.mem pa) => chip * 2 ^ 47 + pa
  | _ => 0

/-- The lines of a fetch unit: n lines from base, each with its tagged line number plus 1 (0: not translated) and its bytes. -/
def State.codeLines (s : State) (c : Actx) (need : Need) (base n : Nat) : List (Nat × List Byte) :=
  (List.range n).map (fun i =>
    match s.translate c need false (BitVec.ofNat 64 (base + 64 * i)) with
    | .ok (s, t) => (placePa t.place / 64 + 1, (List.range 64).map (s.placeByte c (.strong .device) t.place t.key))
    | .error _ => (0, List.replicate 64 0))

/-- A fetch unit: the copy that the fetch path holds, if the device uses it, else memory, seen whole (02 R79). Answers the
bytes and the new contents of the fetch path. -/
def State.codeUnit (s : State) (c : Actx) (need : Need) (base n : Nat) : List Byte × State :=
  let ls := s.codeLines c need base n
  let tags := ls.map Prod.fst
  let key := 2 * (tags.find? (fun t => t != 0)).getD 0 + (if n = 1 then 1 else 0)
  let fresh := ls.flatMap Prod.snd
  let new := if Config.coin (s.salt (2 ^ 70 + base)) then put s.fcache key (tags, fresh) else s.fcache
  match look s.fcache key with
  | some (t, bs) =>
    if t = tags then
      let use := Config.coin (s.salt (2 ^ 71 + base))
      (if use then bs else fresh, { s with fcache := if use then s.fcache else new })
    else (fresh, { s with fcache := new })
  | none => (fresh, { s with fcache := new })

/-- The n bytes of a code word at va. Every byte is checked on its own page (02 R54); the address reported is the word's. A line
that cannot be read, because it is poisoned or its key is not loaded, is XLATE MEMERR (log 19). -/
def State.codeWord (s : State) (c : Actx) (need : Need) (unit va n : Nat) : Code (List Byte) :=
  let check (s : State) (a : Nat) : Code Unit :=
    match s.translate c need false (BitVec.ofNat 64 a) with
    | .error f => .fault { f with addr := BitVec.ofNat 64 va }
    | .ok (s, t) =>
      if s.placeHeld t.place then .held
      else if s.statusOf t.place t.key ≠ .ok then .fault ⟨.xlate, xMemErr, 0, BitVec.ofNat 64 va⟩
      else .ok s ()
  match check s va with
  | .held => .held
  | .fault f => .fault f
  | .ok s1 _ =>
    match (if va / 64 = (va + n - 1) / 64 then .ok s1 () else check s1 (va + n - 1)) with
    | .held => .held
    | .fault f => .fault f
    | .ok s2 _ =>
      let (bs, s3) := s.codeUnit c need (va / (64 * unit) * (64 * unit)) unit
      .ok { s2 with fcache := s3.fcache } ((bs.drop (va % (64 * unit))).take n)

/-- A lane word at a multiple of 12. -/
def State.laneWord (s : State) (c : Actx) (va : Nat) : Code LaneWord :=
  match s.codeWord c .laneExec 3 va 12 with
  | .held => .held
  | .fault f => .fault f
  | .ok s bs => .ok s (BitVec.ofNat 96 (ofBytes bs))

/-- The run-start test's word: the word before the target (02 R54). -/
def State.wordBefore (s : State) (c : Actx) (va : Nat) : Code LaneWord := s.laneWord c ((va + 2 ^ 64 - 12) % 2 ^ 64)

/-- The words of a run from va: up to k words before the one whose OP is 0xFE, and that word if found (01 R33). -/
def State.runWords (s : State) (c : Actx) : Nat → Nat → Code (List LaneWord × Option LaneWord)
  | 0, _ => .ok s ([], none)
  | k + 1, va =>
    match s.laneWord c va with
    | .held => .held
    | .fault f => .fault f
    | .ok s x =>
      if LaneWord.op x = 0xFE then .ok s ([], some x)
      else
        match s.runWords c k (va + 12) with
        | .held => .held
        | .fault f => .fault f
        | .ok s (l, t) => .ok s (x :: l, t)

/-- An access word at a multiple of 4. -/
def State.accessWordAt (s : State) (c : Actx) (va : Nat) : Code AccessWord :=
  match s.codeWord c .accessExec 1 va 4 with
  | .held => .held
  | .fault f => .fault f
  | .ok s bs => .ok s (BitVec.ofNat 32 (ofBytes bs))

/-! ### When a stream may issue -/

/-- Whether the lanes of a group have stopped for STOPREQ: no run past its commit point and no slide (20 R434). -/
def Group.lanesStopped (g : Group) : Bool :=
  g.table.all (fun p => p.2.join || ((p.2.slide.isNone || p.2.st != .awaitingFull) && !(p.2.st == .ready && p.2.pastCommit)))

/-- Whether a group's access program may issue a word (06 R165; 20 R434, R440). -/
def Group.accessLive (g : Group) : Bool :=
  !g.aHalted && !g.aStopped && !g.saved && !g.killed && !g.lanesGone && g.aLoad.isNone &&
    !(g.stopReq && g.lanesStopped)

/-! ### The next word of a stream -/

/-- What an agent does: nothing but a change of state, or an instruction whose meaning follows. -/
inductive Fetched where
  | done (s : State)
  | run (i : Instr) (s : State)

/-- The next lane word of a split, from the run fetched at entry. -/
def State.nextLane (s : State) (gid e : Nat) : Fetched :=
  let s' := { s with focus := .lane gid e }
  match s'.issuer with
  | none => .done s'
  | some x =>
    match decodeLane x.g.w (x.en.pos == x.en.len) (x.en.run.getD x.en.runpos 0) with
    | .ok i => .run i s'
    | .error _ => .done s'

/-- The next access word of a group; a word that does not decode stops the program (02 R72). -/
def State.nextAccess (s : State) (gid : Nat) : Fetched :=
  let s' := { s with focus := .access gid }
  match s'.group gid, s'.actx gid with
  | some g, some c =>
    if !g.accessLive then .done s'
    else
      match s'.accessWordAt c (g.apc.signExtend 64).toNat with
      | .held => .done s'
      | .fault f => .done (s'.stopAccess gid f g.apc)
      | .ok s' x =>
        match decodeAccess x with
        | .ok i => .run i s'
        | .error r =>
          .done (s'.trapAccess gid (TrapRec.of (if r.isOperand then .illopnd else .illop) 0 0 g.apc 0 0) false)
  | _, _ => .done s'

/-- A running drain, with its matrix operation and group: not parked, and its group not saved (16 R364, R371). -/
def State.drainLive (s : State) (op : Nat) : Option (Drain × MxOp × Group) :=
  match look s.drains op, s.mxOps.find? (fun o => o.id = op) with
  | some d, some o =>
    match s.group o.gid with
    | some g => if o.stage == MxStage.draining && !g.saved then some (d, o, g) else none
    | none => none
  | _, _ => none

/-- The next drain word of a running drain. Its image was checked when it was loaded (02 R74). -/
def State.nextDrain (s : State) (op : Nat) : Fetched :=
  let s' := { s with focus := .drain op }
  match s'.drainLive op with
  | none => .done s'
  | some (d, _, _) =>
    match decodeDrain (d.image.getD d.word 0) with
    | .ok i => .run i s'
    | .error _ => .done s'

/-- Whether an instruction is a program word: the first 217 rows of the table. Words run only where a program has them. -/
def isWord (i : Instr) : Bool := decide (i.ctorIdx < 217)

/-- What an agent's move is. A store of the host's processors changes host memory (12 R292); a soft error poisons a line
(21 R454). -/
def State.moveOf (s : State) (a : Agent) : Fetched :=
  match a with
  | .idle => .done { s with focus := .idle }
  | .event i => if isWord i then .done { s with focus := .idle } else .run i { s with focus := .event i }
  | .lane gid e => s.nextLane gid e
  | .access gid => s.nextAccess gid
  | .drain op => s.nextDrain op
  | .hostStore addr bytes =>
    .done (if hostBase ≤ addr ∧ addr + bytes.length ≤ 2 ^ 47 then { s.writeKeys 0 addr bytes with focus := .idle }
           else { s with focus := .idle })
  | .softError line =>
    .done { s with focus := .idle, poison := if s.poison.contains line then s.poison else s.poison ++ [line] }

end Sys2Proof.Machine
end

