-- ==== Sys2Proof/Machine/Start.lean ====
section
/-!
DEFINITION. A launch, a team and a group as they begin: 01 R26-R30, R39-R42, R49; 04 R110, R111; 06 R187; 07 R188; 15 R338.
-/
namespace Sys2Proof.Machine

/-- The team's group count G (01 R26). -/
def LaunchParams.groups (p : LaunchParams) : Nat := p.n.sum
/-- The stage of a group index, and the first index of each stage (R27). -/
def stageOf (p : LaunchParams) (ix : Nat) : Nat :=
  ((List.range 4).find? (fun k => ix < ((List.range (k + 1)).map (nth 0 p.n)).sum)).getD 3
/-- Resident groups per quarter and per core (R39). -/
def groupsPerQuarter (w : Nat) : Nat := min 8 (1024 / w)
def groupsPerCore (w : Nat) : Nat := 4 * groupsPerQuarter w
/-- Cores that a team needs (R39). -/
def coresNeeded (p : LaunchParams) : Nat := ceilDiv (LaunchParams.groups p) (groupsPerCore p.w)
/-- Scratchpad a team takes on each core (R40). -/
def scratchPerCore (p : LaunchParams) : Nat := ceilDiv (ceilDiv p.scratch (coresNeeded p)) 4096 * 4096
/-- Linear index of the team grid's end. -/
def teamCount (p : LaunchParams) : Nat := p.x * p.y * p.z
/-- A multi-member launch (R42). -/
def Launch.isRidge (l : Launch) : Bool := 1 < l.params.width

/-- A group at its start (R30, R49; 04 R110, R111). -/
def Group.start (tid ix stage die core quarter slot : Nat) (l : Launch) (born : Nat) : Group :=
  let entry := nth 0 l.params.accessEntry stage
  { tid := tid, ix := ix, stage := stage, die := die, core := core, quarter := quarter, slot := slot, saved := false,
    w := l.params.w, v := [], vst := [],
    s := ((l.params.args.zipIdx).foldl (fun m a => wr 0 m a.2 a.1) []),
    sst := [], p := [], k := 0, t := [], tst := [], oq := [], fpFlags := [], fpEnable := [], mxFlags := 0, rspb := 0, tag := 0,
    table := [(0, Entry.fresh (BitVec.allOnes 64) ((nth 0 l.params.laneEntry stage).setWidth 57) 0 0 .none 0)],
    stack := [], ages := 1, apc := entry.setWidth 57, aHalted := entry = 0, aStopped := false, aTrap := none, aSet := none,
    aNext := false, aLoad := none, aBar := none, age := [], ops := [], accs := [], xblock := [], hangCnt := 0,
    hangSet := none, gstop := false, stopReq := false, killed := false, handled := false, left := 0, detached := false,
    retired := false, born := born, waited := 0, aWaited := 0 }

/-- A team at its start. -/
def Team.start (lid pos die : Nat) (cores : List Nat) (gids : List Nat) (l : Launch) : Team :=
  { launch := lid, pos := pos, die := die, cores := cores, gids := gids, scratch := [], statusMax := 0, nonZero := 0,
    killed := 0, live := gids.length, saved := false, saving := false, detached := false, done := false, retired := false,
    departed := false,
    others := ((List.range l.params.width).filter (fun m => m != l.member)).map (fun m => (m, MemberState.live)),
    acks := [], bars := [], phases := [], seen := [], images := [], macs := [], tiles := [], tags := [], exps := [],
    invs := [] }

/-- A launch as it is consumed. -/
def Launch.start (queue seq pass ridx prio : Nat) (fserv priv : Bool) (keys : BitVec 64) (part root : Nat) (p : LaunchParams) (member : Nat)
    (ref : LaunchRef) : Launch :=
  { queue := queue, seq := seq, pass := pass, ridx := ridx, prio := prio, fserv := fserv, priv := priv, keys := keys, part := part,
    root := root, params := p, member := member, ref := ref, nextTeam := 0, teamsLeft := teamCount p, reserved := none,
    replies := [], tot := ⟨0, 0, 0, 0⟩, memberTotals := [], errsum := 0, ieee := 0, ended := false }

end Sys2Proof.Machine
end

