-- ==== Sys2Proof/Machine/Place.lean ====
section
/-!
DEFINITION. What a program load leaves behind (log 20): a resident group of one launch with an instruction word at its next
fetch. Used by `State.withFetchWord` only.
-/
namespace Sys2Proof.Machine

/-- A launch of one team of one group, window 256, partition 0. -/
def oneParams : LaunchParams :=
  { x := 1, y := 1, z := 1, n := [1, 0, 0, 0], w := 256, hint := 0, scratch := 0x10000, reserve := 0, width := 1,
    laneEntry := [192], accessEntry := [0x1000], chips := [], args := [], badByte := false }
def oneLaunch : Launch := Launch.start 0 0 0 0 0 false false 0 0 0x10000 oneParams 0 ⟨0, 0, 0⟩

/-- One resident group, number 1, of team 1 and launch 1, with device and key ready. -/
def State.oneGroup (s : State) (f : Group → Group) : State :=
  { s with launches := put s.launches 1 { oneLaunch with nextTeam := 1 },
           teams := put s.teams 1 (Team.start 1 0 0 [0] [1] oneLaunch),
           groups := put s.groups 1 (f (Group.start 1 0 0 0 0 0 0 oneLaunch 0)),
           parts := put s.parts 0 { s.part 0 with keyLoaded := true },
           stage := .ready }

/-- A lane word as the first word of the run that split 0 is in. A second word stands behind a word whose LAST is 0. -/
def State.placeLaneWord (s : State) (x : LaneWord) : State :=
  let last := x.getLsbD 36
  let commits := match decodeLane 256 last x with
    | .ok i => i.commitClass
    | .error _ => false
  { s.oneGroup (fun g => g.updEntry 0 (fun en =>
      { en with pc := 204, run := if last then [x, 0] else [x, 0, 0], cmt := if commits then 1 else 0 }))
    with agenda := [.lane 1 0] }

/-- An access word at virtual address 0x1000, which a 1 GiB leaf maps to the same physical address with access-execute
permission; the tables stand at 0x10000, 0x12000 and 0x14000 (08 R208, R209). -/
def State.placeAccessWord (s : State) (x : AccessWord) : State :=
  let s1 := s.oneGroup (fun g => { g with aHalted := false, apc := 0x1000 })
  let s2 := (((s1.writeKeys 0 0x10000 (toBytes 0x12001 16)).writeKeys 0 0x12000 (toBytes 0x14001 16)).writeKeys 0 0x14000
    (toBytes 0x7B 16)).writeKeys 0 0x1000 (toBytes x.toNat 4)
  { s2 with poison := [], bias := [], tcache := [], fcache := [], agenda := [.access 1] }

/-- A drain word as word 0 of a running drain of matrix operation 1. -/
def State.placeDrainWord (s : State) (x : DrainWord) : State :=
  let s := s.oneGroup id
  let zeros := List.replicate 128 (0 : Word32)
  { s with
    mxOps := { id := 1, gid := 1, kind := .mdrn, fmt := .s32, rows := BitVec.allOnes 64, addr := 0, desc := 0, ti := 0, mj := 0,
               n := 1, den := true, slot := 0, stage := .draining, bar := none, curT := 0, curC := 0, flags := 0,
               narrow := false, pc := 204, index := 1, parkSet := none } :: s.mxOps.filter (fun o => o.id != 1),
    drains := put s.drains 1 { op := 1, image := [x], c0 := zeros, c1 := zeros, w0 := zeros, w1 := zeros,
                               mask := List.replicate 16 0xFF, out0 := 0, out1 := 0, str0 := 0, str1 := 0, row := 0, col := 0,
                               word := 0, d0 := 0, d1 := 0, d2 := 0, d3 := 0, hold := [], flags := 0 },
    agenda := [.drain 1] }

end Sys2Proof.Machine
end

