-- ==== Sys2Proof/Machine/Barrier.lean ====
section
/-!
DEFINITION. Named barriers: records, arrivals and phases, and the delivery of a completion to the cores of a spanning team
(19 R407-R413; 15 R356). BARRIER_COMPLETION_DELIVERY.
-/
namespace Sys2Proof.Machine

/-- The records of a team that spans cores stand at its home slice, and a saved team's with the team (R408, R412). -/
def Team.holdsBars (t : Team) : Bool := t.saved || 1 < t.cores.length
def Team.firstCore (t : Team) : Nat := coreId t.die (nth 0 t.cores 0)

/-- The key of the record that a one-core team's barrier k is bound to. -/
def State.boundKey (s : State) (tid : Nat) (t : Team) (k : Nat) : Option Nat :=
  (s.coreBars.find? (fun r => r.1 / 32 = t.firstCore && r.2.owner = tid && r.2.num = k)).map Prod.fst

/-- The record of barrier k of a team, or what the phase's first arrival binds (R407, R408). -/
def State.barRec (s : State) (tid : Nat) (t : Team) (k : Nat) : BarRec :=
  let fresh : BarRec := { phase := rd 0 t.phases k, count := 0, arr := 0, bound := false, owner := tid, num := k }
  if t.holdsBars then (look t.bars k).getD fresh
  else ((s.boundKey tid t k).bind (look s.coreBars)).getD fresh

/-- Whether an arrival finds a record (R408). -/
def State.barRoom (s : State) (tid : Nat) (t : Team) (k : Nat) : Bool :=
  t.holdsBars || (s.boundKey tid t k).isSome || (lowestFree s.coreBars (32 * t.firstCore) 32).isSome

/-- Store a record; a phase's completion frees the binding. -/
def State.putBar (s : State) (tid : Nat) (t : Team) (k : Nat) (r : BarRec) : State :=
  if t.holdsBars then s.updTeam tid (fun t => { t with bars := put t.bars k r })
  else
    let key := (s.boundKey tid t k).getD ((lowestFree s.coreBars (32 * t.firstCore) 32).getD 0)
    { s.updTeam tid (fun t => { t with phases := wr 0 t.phases k r.phase }) with
      coreBars := if r.bound then put s.coreBars key r else del s.coreBars key }

/-- Groups of a team neither retired nor killed (R410). -/
def State.liveGroups (s : State) (tid : Nat) : Nat :=
  (s.groups.filter (fun g => g.2.tid = tid && !g.2.lanesGone && !g.2.killed)).length

/-- Linked operations of a team whose arrival at barrier k falls in the phase that ends with `target` (R413). -/
def State.linkedFor (s : State) (tid k target : Nat) : Nat :=
  (s.mxOps.filter (fun o => o.stage == MxStage.linked && o.bar == some ⟨k, target⟩ &&
    (((s.group o.gid).map Group.tid) == some tid))).length

/-- test() of R410. When a phase completes, the arrivals that linked operations deferred to the next phase are made (15 R356). -/
def State.barTest (s : State) (tid k : Nat) : Nat → State
  | 0 => s
  | n + 1 =>
    match s.team tid with
    | none => s
    | some t =>
      let r := s.barRec tid t k
      let need := if r.count ≠ 0 then r.count else s.liveGroups tid
      if !r.bound ∨ r.arr < need then s
      else
        let phase := (r.phase + 1) % 65536
        let late := s.linkedFor tid k ((phase + 1) % 65536)
        let part := ((s.launch t.launch).map Launch.part).getD 0
        let s := s.putBar tid t k { r with phase := phase, arr := late, count := 0, bound := decide (0 < late) }
        ({ s with perf := countEvent s.perf t.firstCore part 13 }).barTest tid k n

/-- One arrival of count c at the record (R410). Answers PHASE before it. -/
def State.barArrive (s : State) (tid k c : Nat) : State × Nat :=
  match s.team tid with
  | none => (s, 0)
  | some t =>
    let r := s.barRec tid t k
    let clash : Bool := r.count ≠ 0 ∧ c ≠ 0 ∧ c ≠ r.count
    let s := if clash then s.err (some t.launch) errBARBAD else s
    let r' := { r with count := if r.count = 0 then c else r.count, arr := r.arr + 1, bound := true }
    ((s.putBar tid t k r').barTest tid k (s.mxOps.length + 2), r.phase)

/-- Whether PHASE has reached a target, modulo 2^16. -/
def phaseReached (phase target : Nat) : Bool := (phase + 65536 - target) % 65536 < 32768

/-- The arrival of a linked matrix operation of a group (R413): the phase that releases it. A second one of the group in one
phase arrives in the next (15 R356). -/
def State.barLink (s : State) (tid gid k : Nat) : State × Nat :=
  match s.team tid with
  | none => (s, 0)
  | some t =>
    let r := s.barRec tid t k
    let mine := s.mxOps.filter (fun o => o.gid = gid && o.stage == MxStage.linked &&
      (match o.bar with
        | some w => w.k = k && !(phaseReached r.phase w.phase)
        | none => false))
    match mine.getLast? with
    | some o => (s, ((o.bar.map BarWait.phase).getD r.phase + 1) % 65536)
    | none =>
      let (s, p) := s.barArrive tid k 0
      (s, (p + 1) % 65536)

/-- PHASE as a group's core knows it: of a spanning team, the last completion delivered there (R408). -/
def State.phaseAt (s : State) (g : Group) (k : Nat) : Nat :=
  match s.team g.tid with
  | none => 0
  | some t => if 1 < t.cores.length then rd 0 t.seen (256 * k + g.core) else (s.barRec g.tid t k).phase

/-- Every phase that a stream waits for has completed. -/
def State.barsDone (s : State) (g : Group) (ws : List BarWait) : Bool :=
  ws.all (fun w => phaseReached (s.phaseAt g w.k) w.phase)

/-- The open phases of a team whose COUNT is 0 are tested again after a group retires or is killed (R412). -/
def State.retestBars (s : State) (tid : Nat) : State :=
  (List.range 32).foldl (fun s k =>
    match s.team tid with
    | none => s
    | some t => if (s.barRec tid t k).count = 0 then s.barTest tid k (s.mxOps.length + 2) else s) s

/-- A team's records are freed with their open phases (R408, R409). -/
def State.freeBars (s : State) (tid : Nat) : State :=
  { s.updTeam tid (fun t => { t with bars := [] }) with coreBars := s.coreBars.filter (fun r => r.2.owner != tid) }

/-- BARRIER_COMPLETION_DELIVERY: the home slice's completion reaches one core of a spanning team (R408). -/
def execBarrierCompletionDelivery (tid k core : Nat) (s : State) : Out :=
  match s.team tid with
  | none => .next s
  | some t =>
    if t.cores.length ≤ 1 ∨ !t.cores.contains core ∨ 32 ≤ k then .next s
    else .next (s.updTeam tid (fun t => { t with seen := wr 0 t.seen (256 * k + core) (s.barRec tid t k).phase }))

end Sys2Proof.Machine
end

