-- ==== Sys2Proof/Machine/Block.lean ====
section
/-!
DEFINITION. Block formats: layout, scale records, decoding and encoding (03 R96-R100; 08 R216; 13 R308).
-/
namespace Sys2Proof.Machine

/-- A block format (03 R96 Table 4): element width, magnitude width, block bytes and blocks per 4 KiB. -/
structure BF where
  w : Nat
  f : Nat
  bytes : Nat
  count : Nat
deriving DecidableEq, Repr

/-- The format of an EFMT value 1-3 (08 R211). -/
def blockFmt (efmt : Nat) : BF :=
  match efmt with
  | 1 => ⟨8, 6, 32, 128⟩
  | 2 => ⟨6, 4, 24, 170⟩
  | _ => ⟨4, 2, 16, 256⟩

/-- Whether an offset in a 4 KiB unit is a block start (13 R308). -/
def isBlockStart (efmt off : Nat) : Bool :=
  let b := blockFmt efmt
  off % b.bytes = 0 && off / b.bytes < b.count

/-- The address of the scale record of the block at va (03 R97, R98; 08 R216). -/
def recordAddr (efmt u0 sbase : Nat) (va : VAddr) : VAddr :=
  let b := blockFmt efmt
  let n := b.count * (va.toNat / 4096 % 2 ^ 45 - u0) + va.toNat % 4096 / b.bytes
  (BitVec.ofNat 57 (sbase + 2 * n)).signExtend 64

/-- Element i of a block's bytes. -/
def element (b : BF) (bytes : List Byte) (i : Nat) : Nat := ofBytes bytes / 2 ^ (b.w * i) % 2 ^ b.w

/-- The exponent that an element uses, its sign and its magnitude, with a record's HI and LO (03 R96, R98, R99). -/
def elementParts (b : BF) (rec : Nat) (x : Nat) : Nat × Bool × Nat :=
  (if bit x (b.w - 1) then rec / 256 else rec % 256, bit x (b.w - 2), x % 2 ^ b.f)

/-- A record whose block is invalid (03 R98). -/
def recInvalid (rec : Nat) : Bool := rec / 256 == 255 || rec % 256 == 255

/-- An element decoded into a format (03 R99). -/
def decodeElement (F : FF) (b : BF) (rec x : Nat) : Word32 :=
  if recInvalid rec then fnan F
  else
    let (e, s, m) := elementParts b rec x
    if m = 0 then 0 else (rndMag F .rne s m ((e : Int) - 127 - b.f)).val

/-- ⌊log2 |v|⌋; 128 for an infinity; none for a zero (03 R100). -/
def exOf : FVal → Option Int
  | .fin _ 0 _ => none
  | .fin _ m e => some ((Nat.log2 m : Int) + e)
  | _ => some 128

/-- ⌊a × 2^e to the nearest integer, ties to even⌉, with whether it was inexact. -/
def nearest (m : Nat) (e : Int) : Nat × Bool := roundAt .rne false m e 0

/-- HI and LO for the values of a block with no NaN and gap d (03 R100). -/
def blockExps (d : Nat) (xs : List FVal) : Nat × Nat :=
  let es := xs.filterMap exOf
  let hi : Int := match es with
    | [] => 0
    | e :: r => min (max (r.foldl max e + 128) 0) 254
  (hi.toNat, (max (hi - d) 0).toNat)

/-- One element encoded with its conditions (03 R100). -/
def encodeElement (b : BF) (hi lo : Nat) (x : FVal) : Nat × BitVec 5 :=
  let top := 2 ^ b.f - 1
  let sel (i : Nat) : Nat := i * 2 ^ (b.w - 1)
  let code (s : Bool) (i m : Nat) : Nat := if m = 0 then sel i else sel i + (if s then 2 ^ (b.w - 2) else 0) + m
  match x with
  | .fin s a e =>
    let (ml, il) := nearest a (e - ((lo : Int) - 127 - b.f))
    if ml ≤ top then (code s 0 ml, (if il then NX else 0) ||| (if a ≠ 0 ∧ ml = 0 then UF else 0))
    else
      let (mh, ih) := nearest a (e - ((hi : Int) - 127 - b.f))
      let m := min mh top
      (code s 1 m, (if ih || m ≠ mh then NX else 0) ||| (if m ≠ mh then OF else 0) ||| (if m = 0 then UF else 0))
  | .inf s => (code s 1 top, NX ||| OF)
  | .nan _ => (0, 0)

/-- A block's 32 values encoded: its bytes, its record and the conditions of each element (03 R100). -/
def encodeBlock (b : BF) (d : Nat) (xs : List FVal) : List Byte × Nat × List (BitVec 5) :=
  if xs.any FVal.isNan then (List.replicate b.bytes 0, 0xFFFF, xs.map (fun _ => NV))
  else
    let (hi, lo) := blockExps d xs
    let es := xs.map (encodeElement b hi lo)
    let n := (es.zipIdx).foldl (fun a p => a + p.1.1 * 2 ^ (b.w * p.2)) 0
    (toBytes n b.bytes, hi * 256 + lo, es.map Prod.snd)

end Sys2Proof.Machine
end

