-- ==== Sys2Proof/Machine/IntLane.lean ====
section
/-!
DEFINITION. Lane integer arithmetic, logic, bit fields, compares and predicates: 05 R137-R144, 03 R88.
-/
namespace Sys2Proof.Machine

/-- Width in bits and signedness of an integer type; other types count as 32 untyped bits. -/
def intWidth : Fmt → Nat
  | .s16 | .n16 | .f16 | .bf16 => 16
  | .s8 | .n8 => 8
  | _ => 32
def intSigned : Fmt → Bool
  | .s32 | .s16 | .s8 => true
  | _ => false

/-- The least and greatest value of a type. -/
def intMin (f : Fmt) : Int := if intSigned f then -(2 ^ (intWidth f - 1) : Nat) else 0
def intMax (f : Fmt) : Int := if intSigned f then (2 ^ (intWidth f - 1) : Nat) - 1 else (2 ^ intWidth f : Nat) - 1

/-- The integer that the low bits of a value hold. -/
def readInt (f : Fmt) (x : Word32) : Int :=
  let n := x.toNat % 2 ^ intWidth f
  if intSigned f && 2 ^ (intWidth f - 1) ≤ n then (n : Int) - (2 ^ intWidth f : Nat) else n

/-- An exact result modulo 2^n into the range of the type. -/
def wrapInt (f : Fmt) (x : Int) : Int :=
  let n := (x % (2 ^ intWidth f : Nat)).toNat
  if intSigned f && 2 ^ (intWidth f - 1) ≤ n then (n : Int) - (2 ^ intWidth f : Nat) else n

/-- Clamped to the range of the type. -/
def satInt (f : Fmt) (x : Int) : Int := max (intMin f) (min (intMax f) x)

/-- Widened into 32 bits: sign-extended for a signed type, zero-extended otherwise (03 R88). -/
def widen (x : Int) : Word32 := BitVec.ofInt 32 x

/-- The common form of 05 R137: read, compute exactly, wrap or saturate, widen. -/
def intOp (w : Lane) (f : Int → Int → Int → Int) (a b c : Word32) : Word32 :=
  let x := f (readInt w.fmt a) (readInt w.fmt b) (readInt w.fmt c)
  widen (if w.mod = 1 then satInt w.fmt x else wrapInt w.fmt x)

def execAdd (w : Lane) (s : State) : Out := s.laneInt w (intOp w (fun a b _ => a + b))
def execSub (w : Lane) (s : State) : Out := s.laneInt w (intOp w (fun a b _ => a - b))
def execMul (w : Lane) (s : State) : Out := s.laneInt w (intOp w (fun a b _ => a * b))
/-- MULHI: the upper half of the product (R137). -/
def execMulhi (w : Lane) (s : State) : Out := s.laneInt w (intOp w (fun a b _ => a * b / (2 ^ intWidth w.fmt : Nat)))
def execMad (w : Lane) (s : State) : Out := s.laneInt w (intOp w (fun a b c => a * b + c))
/-- Division by zero gives the end of the range (R138). -/
def divInt (f : Fmt) (a b : Int) : Int :=
  if b = 0 then (if a < 0 then intMin f else intMax f) else a.tdiv b
def execDiv (w : Lane) (s : State) : Out := s.laneInt w (intOp w (fun a b _ => divInt w.fmt a b))
def remInt (a b : Int) : Int := if b = 0 then a else a - b * a.tdiv b
def execRem (w : Lane) (s : State) : Out := s.laneInt w (intOp w (fun a b _ => remInt a b))
def execAbs (w : Lane) (s : State) : Out := s.laneInt w (intOp w (fun a _ _ => a.natAbs))
def execNeg (w : Lane) (s : State) : Out := s.laneInt w (intOp w (fun a _ _ => -a))
def execMin (w : Lane) (s : State) : Out := s.laneInt w (intOp w (fun a b _ => min a b))
def execMax (w : Lane) (s : State) : Out := s.laneInt w (intOp w (fun a b _ => max a b))
def execClamp (w : Lane) (s : State) : Out := s.laneInt w (intOp w (fun a b c => min (max a b) c))

def execAnd (w : Lane) (s : State) : Out := s.laneInt w (fun a b _ => a &&& b)
def execOr (w : Lane) (s : State) : Out := s.laneInt w (fun a b _ => a ||| b)
def execXor (w : Lane) (s : State) : Out := s.laneInt w (fun a b _ => a ^^^ b)
def execNot (w : Lane) (s : State) : Out := s.laneInt w (fun a _ _ => ~~~a)
def execAndn (w : Lane) (s : State) : Out := s.laneInt w (fun a b _ => a &&& ~~~b)

/-- SHL of R140. -/
def shl32 (a b : Word32) : Word32 := if b.toNat < 32 then a <<< b.toNat else 0
def execShl (w : Lane) (s : State) : Out := s.laneInt w (fun a b _ => shl32 a b)
/-- SHR of R140: arithmetic for .s32. -/
def shr32 (f : Fmt) (a b : Word32) : Word32 :=
  if f = .s32 then a.sshiftRight (min b.toNat 31) else if b.toNat < 32 then a >>> b.toNat else 0
def execShr (w : Lane) (s : State) : Out := s.laneInt w (fun a b _ => shr32 w.fmt a b)
def execRot (w : Lane) (s : State) : Out := s.laneInt w (fun a b _ => a.rotateLeft (b.toNat % 32))

/-- Lowest bit and width of a control word (R141 Table 5). -/
def fieldOf (ctl : Word32) : Nat × Nat :=
  let pos := ctl.toNat % 32
  (pos, min (bits ctl.toNat 13 8) (32 - pos))
/-- BFX of R141. -/
def bfx (f : Fmt) (a ctl : Word32) : Word32 :=
  let (pos, wid) := fieldOf ctl
  if wid = 0 then 0
  else
    let n := a.toNat / 2 ^ pos % 2 ^ wid
    if f = .s32 ∧ 2 ^ (wid - 1) ≤ n then BitVec.ofInt 32 ((n : Int) - (2 ^ wid : Nat)) else BitVec.ofNat 32 n
def execBfx (w : Lane) (s : State) : Out := s.laneInt w (fun a b _ => bfx w.fmt a b)
/-- BFI of R141. -/
def bfi (a b ctl : Word32) : Word32 :=
  let (pos, wid) := fieldOf ctl
  let m : Word32 := BitVec.ofNat 32 ((2 ^ wid - 1) * 2 ^ pos)
  (b &&& ~~~m) ||| ((a <<< pos) &&& m)
def execBfi (w : Lane) (s : State) : Out := s.laneInt w (fun a b c => bfi a b c)

/-- The set bits of a word, in ascending order. -/
def setBits (a : Word32) : List Nat := (List.range 32).filter a.getLsbD
def execPopc (w : Lane) (s : State) : Out := s.laneInt w (fun a _ _ => BitVec.ofNat 32 (setBits a).length)
def execClz (w : Lane) (s : State) : Out :=
  s.laneInt w (fun a _ _ => BitVec.ofNat 32 (match (setBits a).getLast? with | some i => 31 - i | none => 32))
def execCtz (w : Lane) (s : State) : Out :=
  s.laneInt w (fun a _ _ => BitVec.ofNat 32 (match (setBits a).head? with | some i => i | none => 32))
def brev (a : Word32) : Word32 := BitVec.ofNat 32 (((setBits a).map (fun i => 2 ^ (31 - i))).sum)
def execBrev (w : Lane) (s : State) : Out := s.laneInt w (fun a _ _ => brev a)
/-- BPERM of R142. -/
def bperm (a b c : Word32) : Word32 :=
  let x := a.toNat + 2 ^ 32 * b.toNat
  let one (i : Nat) : Nat :=
    let sel := bits c.toNat (4 * i + 3) (4 * i)
    let y := x / 2 ^ (8 * (sel % 8)) % 256
    if 8 ≤ sel then (if 128 ≤ y then 255 else 0) else y
  BitVec.ofNat 32 (one 0 + 2 ^ 8 * one 1 + 2 ^ 16 * one 2 + 2 ^ 24 * one 3)
def execBperm (w : Lane) (s : State) : Out := s.laneInt w (fun a b c => bperm a b c)

/-- An integer condition, 02 R58 Table 4. -/
def intCond (cond : Nat) (a b : Int) : Bool :=
  match cond with
  | 0 => a == b
  | 1 => a != b
  | 2 => decide (a < b)
  | 3 => decide (a ≤ b)
  | 4 => decide (b < a)
  | _ => decide (b ≤ a)

/-- CMP, integer (R143). -/
def execCmp (w : Lane) (s : State) : Out :=
  s.issueAlu w.gp w.neg w.imm (laneSrcs w) (fun _ m a b _ =>
    .pred w m (fun l => (intCond w.mod.toNat (readInt w.fmt (a l)) (readInt w.fmt (b l)), 0)))

/-- A predicate source is read without a fullness test (02 R66). -/
def Group.predSrc (g : Group) : Operand → LaneMask
  | .v n => g.getP n.toNat
  | _ => 0
def noSrcs (m : LaneMask) : Src × Src × Src := (⟨.zero, false, m⟩, ⟨.zero, false, m⟩, ⟨.zero, false, m⟩)

/-- A predicate operation on two predicates (R144). -/
def State.predOp (s : State) (w : Lane) (f : LaneMask → LaneMask → LaneMask) : Out :=
  s.issueAlu w.gp w.neg w.imm noSrcs (fun x m _ _ _ =>
    let r := f (x.g.predSrc w.sa) (x.g.predSrc w.sb)
    .pred w m (fun l => (inMask r l, 0)))
def execPand (w : Lane) (s : State) : Out := s.predOp w (fun a b => a &&& b)
def execPor (w : Lane) (s : State) : Out := s.predOp w (fun a b => a ||| b)
def execPxor (w : Lane) (s : State) : Out := s.predOp w (fun a b => a ^^^ b)
def execPnot (w : Lane) (s : State) : Out := s.predOp w (fun a _ => ~~~a)

/-- SEL: the predicate is named in XOP[2:0] (R144). -/
def execSel (w : Lane) (s : State) : Out :=
  s.issueAlu w.gp w.neg w.imm (laneSrcs w) (fun x m a b _ =>
    .lanes x w m (fun l => ⟨if inMask (x.g.getP (w.xop.toNat % 8)) l then a l else b l, 0⟩))
def execPget (w : Lane) (s : State) : Out :=
  s.issueAlu w.gp w.neg w.imm noSrcs (fun x m _ _ _ =>
    .lanes x w m (fun l => ⟨if inMask (x.g.predSrc w.sa) l then 1 else 0, 0⟩))
def execPset (w : Lane) (s : State) : Out :=
  s.issueAlu w.gp w.neg w.imm (laneSrcs w) (fun _ m a _ _ => .pred w m (fun l => (a l != 0, 0)))

end Sys2Proof.Machine
end

