-- ==== Sys2Proof/Machine/Pipeline.lean ====
section
/-!
DEFINITION. Accesses between issue and performance, of lanes and of access words: 13 R305-R318, 06 R173-R175, 03 R108, R109;
14 R322-R324, R327, R331, R334. ACCESS_ACCEPTED, STORE_SETTLED, ACCESS_PERFORMED, LOAD_COMPLETION.
-/
namespace Sys2Proof.Machine

/-! ### Read-modify-write (13 R311 Table 3; 03 R108; 06 R173) -/

/-- f(w, d, c), for every function but the merged half-precision add. -/
def rmwStep (fn : AtomFn) (w d c : BitVec 64) : BitVec 64 :=
  let a : Word32 := w.setWidth 32
  let b : Word32 := d.setWidth 32
  let z (x : Word32) : BitVec 64 := x.setWidth 64
  match fn with
  | .add32 => z (a + b)
  | .addF32 => z (fadd fp32 .rne a b).val
  | .addBf16x2 => w
  | .minS => z (if b.toInt < a.toInt then b else a)
  | .minN => z (if b.toNat < a.toNat then b else a)
  | .minF => z (fminmax fp32 false a b).val
  | .maxS => z (if a.toInt < b.toInt then b else a)
  | .maxN => z (if a.toNat < b.toNat then b else a)
  | .maxF => z (fminmax fp32 true a b).val
  | .and => z (a &&& b)
  | .or => z (a ||| b)
  | .xor => z (a ^^^ b)
  | .xchg => z b
  | .cas => z (if a = c.setWidth 32 then b else a)
  | .add64 => w + d
  | .xchg64 => d

/-- One half of the merged add (03 R108). -/
def mergeHalf (w : Word32) (ds : List Word32) : Word32 :=
  match ds with
  | [] => w
  | d :: r => (fadd bfp16 .rne w (r.foldl (fun a x => (fadd bfp16 .rne a x).val) d)).val

/-- Half j of a word. -/
def halfOf (x : Word32) (j : Nat) : Word32 := (x >>> (16 * j)) &&& 0xFFFF

/-- The lanes of one instruction on one word, in ascending order: the word after them and what each read. -/
def rmwAll (fn : AtomFn) (w : BitVec 64) (ds : List (BitVec 64 × BitVec 64)) : BitVec 64 × List (BitVec 64) :=
  if fn = .addBf16x2 then
    let h (j : Nat) : Word32 := mergeHalf (halfOf (w.setWidth 32) j) (ds.map (fun d => halfOf (d.1.setWidth 32) j))
    ((((h 1) <<< 16) ||| h 0).setWidth 64, ds.map (fun _ => w))
  else
    ds.foldl (fun r d => (rmwStep fn r.1 d.1 d.2, r.2 ++ [r.1])) (w, [])

/-! ### The accesses of a group -/

def Group.acc (g : Group) (op lane : Nat) : Option LaneAcc := g.accs.find? (fun a => a.op = op && a.lane = lane)
def Group.setAcc (g : Group) (a : LaneAcc) : Group :=
  { g with accs := g.accs.map (fun b => if b.op = a.op ∧ b.lane = a.lane then a else b) }
def Group.dropAcc (g : Group) (op lane : Nat) : Group :=
  { g with accs := g.accs.filter (fun b => !(b.op = op && b.lane = lane)) }

/-- Where the access's result goes. -/
def LaneAcc.dest (a : LaneAcc) : Dest :=
  match a.what with
  | .load _ d | .rmw _ _ _ true d => d
  | _ => .none
def LaneAcc.isLoad (a : LaneAcc) : Bool :=
  match a.what with
  | .load _ _ => true
  | _ => false
/-- LD and ATOM settle when the destination has been written; ST and RED when handed on (13 R318). -/
def LaneAcc.returns (a : LaneAcc) : Bool :=
  match a.what with
  | .load _ _ | .rmw _ _ _ true _ => true
  | _ => false
def LaneAcc.need (a : LaneAcc) : Need :=
  match a.what with
  | .load _ _ => .read
  | .store _ _ => .write
  | .rmw _ _ _ _ _ => .rmw
def LaneAcc.mode (a : LaneAcc) : Mode := if a.kind = .weak then .weak a.nt else .strong a.scope
def LaneAcc.isRelease (a : LaneAcc) : Bool := a.kind == .rel || a.kind == .ar
def LaneAcc.isAcquire (a : LaneAcc) : Bool := a.kind == .acq || a.kind == .ar
def LaneAcc.isRemote (a : LaneAcc) : Bool :=
  match a.place with
  | .remote _ _ => true
  | _ => false
/-- What an access that an error stops gives its destination (13 R316); a 64-bit access of the access program gives all ones
(log 25). -/
def LaneAcc.errorValue (a : LaneAcc) : BitVec 64 := if a.size = 8 then BitVec.allOnes 64 else 0xFFFFFFFF
/-- A store of a whole half to a block-format page (13 R310). -/
def LaneAcc.blockStore (a : LaneAcc) : Bool := a.record.isSome && !a.isLoad

/-- The operation falls in VM when every lane has settled (13 R318). -/
def Group.settleOp (g : Group) (op : Nat) : Group :=
  if g.accs.any (fun a => a.op = op && (a.returns || a.stage == .issued || a.stage == .accepted) && a.stage != .faulted) then g
  else g.finOp op

/-- An access word has finished. -/
def Group.accessDone (g : Group) : Group := { g with apc := g.apc + 4, aLoad := none }

/-- The lane's access fails a check. -/
def LaneAcc.fail (a : LaneAcc) (f : XFault) : LaneAcc :=
  { a with stage := .faulted, faultCause := f.cause, faultSub := f.sub, faultLevel := f.level, faultAddr := f.addr }

/-- The checks of an access (13 R306, R308-R310): the lane is accepted or faulting. `half` holds the accesses of its half. -/
def State.checkAcc (s : State) (c : Actx) (a : LaneAcc) (half : List LaneAcc) : State × LaneAcc :=
  match s.translate c a.need (a.stream == .lane) a.addr with
  | .error f => (s, a.fail f)
  | .ok (s1, t) =>
    let ok : LaneAcc := { a with stage := .accepted, place := t.place, key := t.key, home := t.home }
    if a.stream = .access ∨ t.efmt = 0 then (s1, ok)
    else
      let plain : Bool := match a.what with
        | .load f _ | .store _ f => (f == .f32 || f == .bf16) && a.kind == .weak
        | _ => false
      if !plain then (s, a.fail ⟨.perm, 8, 0, a.addr⟩)
      else if !(isBlockStart t.efmt (a.addr.toNat % 4096)) ∨
          (!a.isLoad ∧ !(half.length = 32 && half.all (fun b => b.addr == a.addr))) then
        (s, a.fail ⟨.align, 1, 0, a.addr⟩)
      else
        match s1.scaleEntry c.part t.tid a.addr with
        | .error f => (s, a.fail f)
        | .ok (u0, sbase) =>
          match s1.translate c a.need false (recordAddr t.efmt u0 sbase a.addr) with
          | .error f => (s, a.fail f)
          | .ok (s2, r) => (s2, { ok with efmt := t.efmt, gap := t.gap, record := some (r.place, r.key) })

/-! ### fault() (13 R314, R315; 06 R175) -/

/-- A half of a block store faults as a whole (13 R310). -/
def failHalves (as : List LaneAcc) : List LaneAcc :=
  as.map (fun a =>
    if a.blockStore then
      match as.find? (fun b => b.op = a.op && b.lane / 32 = a.lane / 32 && b.stage == .faulted && b.addr == a.addr) with
      | some b => a.fail ⟨b.faultCause, b.faultSub, b.faultLevel, b.faultAddr⟩
      | none => a
    else a)

/-- The record of a faulting lane (17 R388). -/
def State.laneRecord (s : State) (gid : Nat) (a : LaneAcc) (done : LaneMask) : FRec :=
  { s.frec gid .lane .none a.faultCause a.faultSub a.faultLevel a.faultAddr a.pc (.split gid a.entry) with
    done := done, lanev := true, lane := a.lane, index := a.index, split := a.entry }

/-- When every lane of a lane instruction has been accepted or has faulted, and some have faulted: records, fault state, empty
destinations, and the split parked. A split that has trapped meanwhile keeps its trap (log 22). -/
def State.settleFaults (s : State) (gid op : Nat) : State :=
  match s.group gid with
  | none => s
  | some g0 =>
    let g : Group := { g0 with accs := failHalves g0.accs }
    let mine := g.accs.filter (fun a => a.op = op)
    let bad := (mine.filter (fun a => a.stage == .faulted)).mergeSort (fun a b => a.lane ≤ b.lane)
    match bad with
    | [] => s
    | a0 :: _ =>
      if mine.any (fun a => a.stage == .issued) then s
      else
        let badMask := maskOf (fun l => bad.any (fun a => a.lane = l))
        let all := ((g.ops.find? (fun o => o.id = op)).map Op.lanes).getD badMask
        let g : Group := { g with accs := g.accs.filter (fun a => !(a.op = op && a.stage == AccStage.faulted)) }
        let g := bad.foldl (fun g a => if g.destState a.dest a.lane = .pending then g.setDest a.dest a.lane .empty else g) g
        let g := g.settleOp op
        match g.entry a0.entry with
        | none => s.setGroup gid g
        | some en =>
          let done := (all &&& ~~~badMask) ||| en.doneOf a0.index
          let live : Bool := en.st == SplitState.ready || en.st == SplitState.parked
          let en' := if live then en.recordDone a0.index done else en
          let s := s.setGroup gid (g.setEntry a0.entry en')
          let (s, set) := s.pushFaults (bad.map (fun a => s.laneRecord gid a done))
          if live then s.park gid a0.entry set else s

/-- ACCESS_ACCEPTED: the lane's access is translated and checked; it is accepted or faulting (13 R306). A weak store of the
access program is then handed to the memory system, and its word is done (06 R174). -/
def execAccessAccepted (gid op lane : Nat) (s : State) : Out :=
  match s.group gid, s.actx gid with
  | some g, some c =>
    match g.acc op lane with
    | none => .next s
    | some a =>
      if a.stage ≠ .issued then .next s
      else
        let (s, a) := s.checkAcc c a (g.accs.filter (fun b => b.op = op && b.lane / 32 = lane / 32))
        let g := g.setAcc a
        match a.stream with
        | .lane => .next ((s.setGroup gid g).settleFaults gid op)
        | .access =>
          if a.stage = .faulted then
            .next ((s.setGroup gid { g.dropAcc op lane with aLoad := none }).stopAccess gid
              ⟨a.faultCause, a.faultSub, a.faultLevel, a.faultAddr⟩ a.pc)
          else if a.kind = .weak ∧ !a.isLoad then .next (s.setGroup gid g.accessDone)
          else .next (s.setGroup gid g)
  | _, _ => .next s

/-! ### Performance -/

/-- Nothing that comes before it holds the access back (14 R325, R327, R331; 13 R307). -/
def Group.mayPerform (g : Group) (a : LaneAcc) : Bool := !(g.accs.any (fun b => holdsBack b a || laneOrder b a))

/-- An error found after acceptance: the error summary, and an informational record (13 R316). -/
def State.accError (s : State) (gid : Nat) (a : LaneAcc) (bitNo : Nat) : State :=
  let src : FSource := match a.stream with
    | .lane => .lane
    | .access => .access
  let s := s.err (s.launchOf gid) bitNo
  (s.pushFaults [{ s.frec gid src .none .memErr 0 0 a.addr a.pc .nothing with
    info := true, lanev := a.stream == .lane, lane := a.lane, index := a.index, split := a.entry }]).1

def errBitOf : MemStatus → Nat
  | .keyRev => errKEYREV
  | _ => errMEMERR

/-- The access is finished: a result lands, the operation settles, an acquire's actions are made, an access word ends. -/
def State.finishAcc (s : State) (gid : Nat) (a : LaneAcc) (v : Option (BitVec 64)) : State :=
  match s.group gid with
  | none => s
  | some g =>
    let g := match v with
      | some x => g.land a.dest a.lane x
      | none => g
    let g := (g.dropAcc a.op a.lane).settleOp a.op
    let g := if g.aLoad = some a.op then g.accessDone else g
    let s := s.setGroup gid g
    if a.isAcquire then s.acquireAct (((s.team g.tid).map Team.launch).getD 0) g a.scope else s

/-- The actions of a release before a strong write (14 R323, R327): false while drained entries are unacknowledged. -/
def State.releaseBefore (s : State) (gid : Nat) (g : Group) (a : LaneAcc) : State × Bool :=
  if !a.isRelease then (s, true)
  else if Scope.atLeastRidge a.scope && !(s.drainsDone gid g.coreId) then
    (s.drainWc g.coreId (fun w => w.writers.contains gid), false)
  else (s.releaseAct g a.scope, true)

/-- STORE_SETTLED: a store or reduction is handed to its first level; a weak store to another device enters the core's
write-combining buffer (13 R318; 12 R293). -/
def execStoreSettled (gid op lane : Nat) (s : State) : Out :=
  match s.group gid with
  | none => .next s
  | some g =>
    match g.acc op lane with
    | none => .next s
    | some a =>
      if a.stage ≠ .accepted ∨ a.returns then .next s
      else
        match a.place, a.what, a.kind with
        | .remote chip t, .store data _, .weak =>
          if a.record.isNone then
            if g.mayPerform a then
              let s := s.wcStore g.coreId gid chip t a.key (toBytes data.toNat a.size)
              .next (s.updGroup gid (fun g => (g.dropAcc op lane).settleOp op))
            else .next s
          else .next (s.setGroup gid ((g.setAcc { a with stage := .settled }).settleOp op))
        | _, _, _ => .next (s.setGroup gid ((g.setAcc { a with stage := .settled }).settleOp op))

/-- Bytes written weakly at a place, into the write-combining buffer where the place is another device's. -/
def State.putBytes (s : State) (c : Actx) (p : Place) (key : Nat) (nt : Bool) (bs : List Byte) : State :=
  match p with
  | .remote chip t => s.wcStore c.cid (c.gid.getD 0) chip t key bs
  | p => s.writePlace c (.weak nt) p key bs

/-- A half of a block store: the block, its record, and the conditions of each storing lane (03 R100; 13 R310). -/
def State.storeHalf (s : State) (gid : Nat) (c : Actx) (a : LaneAcc) (half : List LaneAcc) : State :=
  let b := blockFmt a.efmt
  let sorted := half.mergeSort (fun x y => x.lane ≤ y.lane)
  let value (x : LaneAcc) : FVal := match x.what with
    | .store d f => fdec (if f = .f32 then fp32 else bfp16) (d.setWidth 32)
    | _ => .fin false 0 0
  let (bytes, rec', fl) := encodeBlock b a.gap (sorted.map value)
  let s := s.putBytes c a.place a.key a.nt bytes
  let s := match a.record with
    | some (p, k) => s.putBytes c p k a.nt (toBytes rec' 2)
    | none => s
  s.updGroup gid (fun g =>
    let g := (sorted.zip fl).foldl (fun g x => if x.2 = 0 then g else g.orFlags x.1.lane x.2) g
    sorted.foldl (fun g x => g.dropAcc x.op x.lane) g)

/-- The lanes of an instruction that name the same word as a, in ascending order (13 R311). -/
def Group.sameWord (g : Group) (a : LaneAcc) : List LaneAcc :=
  (g.accs.filter (fun b => b.op = a.op && b.place == a.place && b.stage == a.stage)).mergeSort (fun x y => x.lane ≤ y.lane)

def LaneAcc.rmwData (a : LaneAcc) : BitVec 64 × BitVec 64 :=
  match a.what with
  | .rmw _ d c _ _ => (d, c)
  | _ => (0, 0)

/-- ACCESS_PERFORMED: a store or an atomic is performed at its place, or a request for an access to another device is sent
(13 R310-R313; 14 R323, R334). -/
def execAccessPerformed (gid op lane : Nat) (s : State) : Out :=
  match s.group gid, s.actx gid with
  | some g, some c =>
    match g.acc op lane with
    | none => .next s
    | some a =>
      let ready := if a.returns then a.stage == .accepted else a.stage == .settled
      let waitLanes := (!a.isLoad) && g.accs.any (fun b => b.op = op && b.stage == .issued)
      let stopped : Bool := match a.place with
        | .remote chip t => s.reqStopped chip t
        | _ => false
      if !ready ∨ waitLanes ∨ !(g.mayPerform a) ∨ s.placeHeld a.place ∨ stopped then .next s
      else
        let (s, go) := s.releaseBefore gid g a
        if !go then .next s
        else
          match a.place, a.what with
          | .remote chip t, .load _ _ =>
            if a.record.isSome then .next s
            else
              let s := (s.drainLine g.coreId chip t).sendReq (.acc gid op lane) chip t a.key (.read a.size)
              .next (s.updGroup gid (fun g => g.setAcc { a with stage := .sent }))
          | .remote chip t, .rmw fn _ _ _ _ =>
            let all := g.sameWord a
            let s := (s.drainLine g.coreId chip t).sendReq (.acc gid op lane) chip t a.key
              (.rmw fn (all.map LaneAcc.rmwData))
            .next (s.updGroup gid (fun g => all.foldl (fun g x => g.setAcc { x with stage := .sent }) g))
          | _, .load _ _ => .next s
          | .remote chip t, .store data _ =>
            if a.blockStore then .next (s.storeHalf gid c a (g.accs.filter (fun b => b.op = op && b.lane / 32 = lane / 32)))
            else
              let s := (s.drainLine g.coreId chip t).sendReq (.acc gid op lane) chip t a.key
                (.write (toBytes data.toNat a.size))
              .next (s.updGroup gid (fun g => g.setAcc { a with stage := .sent }))
          | p, .store data _ =>
            if a.blockStore then .next (s.storeHalf gid c a (g.accs.filter (fun b => b.op = op && b.lane / 32 = lane / 32)))
            else if s.statusOf p a.key = .keyRev then .next ((s.accError gid a errKEYREV).finishAcc gid a none)
            else .next ((s.writePlace c a.mode p a.key (toBytes data.toNat a.size)).finishAcc gid a none)
          | p, .rmw fn _ _ ret _ =>
            let all := g.sameWord a
            match s.statusOf p a.key with
            | .ok =>
              -- the issuing cluster's copy goes back first, whatever the scope (13 R312 Table 4)
              let (bs, s) := s.readPlace c (.strong .device) p a.key a.size
              let (w, olds) := rmwAll fn (BitVec.ofNat 64 (ofBytes bs)) (all.map LaneAcc.rmwData)
              let s := s.writePlace c (.strong .device) p a.key (toBytes w.toNat a.size)
              .next ((all.zip olds).foldl (fun s x =>
                if ret then s.updGroup gid (fun g => g.setAcc { x.1 with stage := .returned x.2 }) else s.finishAcc gid x.1 none) s)
            | st =>
              .next (all.foldl (fun s x =>
                let s := s.accError gid x (errBitOf st)
                if ret then s.updGroup gid (fun g => g.setAcc { x with stage := .returned x.errorValue })
                else s.finishAcc gid x none) s)
  | _, _ => .next s

/-- The value a load writes, widened (03 R88). A value that an error replaced is all ones (13 R316). -/
def loadValue (fmt : Fmt) (size : Nat) (x : BitVec 64) : BitVec 64 :=
  if size = 8 then x else (widen (readInt fmt (x.setWidth 32))).setWidth 64

/-- A block element decoded for a lane (13 R309). -/
def State.blockLoad (s : State) (c : Actx) (a : LaneAcc) (fmt : Fmt) : (BitVec 64 × MemStatus) × State :=
  let b := blockFmt a.efmt
  let (bytes, s) := s.readPlace c (.weak a.nt) a.place a.key b.bytes
  match a.record with
  | none => ((0, .ok), s)
  | some (p, k) =>
    let (r, s) := s.readPlace c (.weak a.nt) p k 2
    let st := if s.statusOf a.place a.key = .ok then s.statusOf p k else s.statusOf a.place a.key
    (((decodeElement (if fmt = .f32 then fp32 else bfp16) b (ofBytes r) (element b bytes (a.lane % 32))).setWidth 64, st), s)

/-- Bytes of a remote line held in L2, all of them or none (14 R324). -/
def State.remoteBytes (s : State) (chip pa n : Nat) : Option (List Byte) :=
  let bs := (from' (chip * 2 ^ 47 + pa) n).map (look s.rl)
  if bs.all Option.isSome then some (bs.map (fun b => b.getD 0)) else none

/-- LOAD_COMPLETION: the value of a load or atomic reaches its destination, which becomes full (13 R307, R311, R316; 06 R174). -/
def execLoadCompletion (gid op lane : Nat) (s : State) : Out :=
  match s.group gid, s.actx gid with
  | some g, some c =>
    match g.acc op lane with
    | none => .next s
    | some a =>
      match a.what, a.stage with
      | .load fmt _, .returned v => .next (s.finishAcc gid a (some (loadValue fmt a.size v)))
      | .rmw _ _ _ true _, .returned v => .next (s.finishAcc gid a (some v))
      | .load fmt _, .accepted =>
        if !(g.mayPerform a) ∨ s.placeHeld a.place then .next s
        else if a.record.isSome then
          let ((v, st), s) := s.blockLoad c a fmt
          if st = .ok then .next (s.finishAcc gid a (some v))
          else .next ((s.accError gid a (errBitOf st)).finishAcc gid a (some (a.errorValue)))
        else
          match a.place with
          | .remote chip (.mem pa) =>
            match s.remoteBytes chip pa a.size with
            | some bs =>
              if a.kind = .weak ∧ a.home = 0 ∧ Config.coin (s.salt (2 ^ 72 + pa)) then
                .next (s.finishAcc gid a (some (loadValue fmt a.size (BitVec.ofNat 64 (ofBytes bs)))))
              else .next s
            | none => .next s
          | .remote _ _ => .next s
          | p =>
            match s.statusOf p a.key with
            | .ok =>
              let (bs, s) := s.readPlace c a.mode p a.key a.size
              .next (s.finishAcc gid a (some (loadValue fmt a.size (BitVec.ofNat 64 (ofBytes bs)))))
            | st => .next ((s.accError gid a (errBitOf st)).finishAcc gid a (some (a.errorValue)))
      | _, _ => .next s
  | _, _ => .next s

end Sys2Proof.Machine
end

