-- ==== Sys2Proof/Machine/Sync.lean ====
section
/-!
DEFINITION. FENCE, WAITC, BAR and RIDGE.DETACH, in lane words and access words (14 R325, R326; 19 R406, R409-R411; 12 R298).
-/
namespace Sys2Proof.Machine

/-! ### The stream's earlier accesses (14 R325) -/

/-- The accesses that come before an instruction of a split, or of the access program, in program order. -/
def Group.earlier (g : Group) (m : Option LaneMask) : List LaneAcc :=
  g.accs.filter (fun a => a.stage != .faulted && match m with
    | some m => a.stream == .lane && (a.po &&& m) != 0
    | none => a.stream == .access)

/-- What a fence does when it is reached: it waits for the accesses that it orders, then makes the actions of its scope; a
release at scope ridge or wider also waits until the group's drained entries are acknowledged (14 R323; log 26). -/
def State.fence (s : State) (gid : Nat) (g : Group) (before : List LaneAcc) (rel acq : Bool) (sc : Scope) : State × Bool :=
  if before.any (fun a => rel || a.reads) then (s, false)
  else if rel && Scope.atLeastRidge sc && !(s.drainsDone gid g.coreId) then
    (s.drainWc g.coreId (fun w => w.writers.contains gid), false)
  else
    let s := if rel then s.releaseAct g sc else s
    (if acq then s.acquireAct ((s.launchOf gid).getD 0) g sc else s, true)

/-! ### Lane words -/

/-- Issue of an instruction with no operands: with no active lane nothing happens. -/
def State.plainLane (s : State) (w : Lane) (f : Issue → LaneMask → Out) : Out :=
  match s.issuer with
  | none => .fault .noIssuer
  | some x =>
    if x.commitWait then .next s
    else if x.active w.gp w.neg = 0 then .next (x.done s x.g)
    else f x (x.active w.gp w.neg)

/-- FENCE (14 R325). -/
def execFence (w : Lane) (s : State) : Out :=
  s.plainLane w (fun x _ =>
    let kind := w.xop.extractLsb' 0 2
    let (s', ok) := s.fence x.gid x.g (x.g.earlier (some x.en.mask)) (kind != 0) (kind != 1) ((Scope.ofCode w.mod).getD .split)
    .next (if ok then x.done s' x.g else s'))

/-- WAITC (19 R406). -/
def execWaitc (w : Lane) (s : State) : Out :=
  s.plainLane w (fun x _ =>
    let c := (Cls.ofCode w.xop).getD .vm
    if x.g.count c ≤ w.imm.toNat % 64 then .next (x.done s x.g) else .next s)

/-- A lane arrival: a release at scope team first, then the arrival at the record (19 R410). Answers PHASE before it. -/
def State.laneArrive (s : State) (x : Issue) (w : Lane) : Option (State × Nat) :=
  let k := w.imm.toNat % 32
  match s.fence x.gid x.g (x.g.earlier (some x.en.mask)) true false .team, s.team x.g.tid with
  | (s1, true), some t => if s1.barRoom x.g.tid t k then some (s1.barArrive x.g.tid k (w.imm.toNat / 256 % 2048)) else none
  | _, _ => none

/-- The split waits for a phase after its run (19 R411). -/
def Issue.waitPhase (x : Issue) (k phase : Nat) : Group :=
  x.g.updEntry x.e (fun en => { en with barWait := en.barWait ++ [⟨k, phase % 65536⟩] })

/-- BAR.sync (19 R409-R411). -/
def execBarSync (w : Lane) (s : State) : Out :=
  s.plainLane w (fun x _ =>
    match s.laneArrive x w with
    | none => .next s
    | some (s', p) => .next (x.done s' (x.waitPhase (w.imm.toNat % 32) (p + 1))))

/-- BAR.arrive (19 R409, R410). -/
def execBarArrive (w : Lane) (s : State) : Out :=
  s.plainLane w (fun x _ =>
    match s.laneArrive x w with
    | none => .next s
    | some (s', _) => .next (x.done s' x.g))

/-- BAR.wait (19 R409-R411). -/
def execBarWait (w : Lane) (s : State) : Out :=
  s.plainLane w (fun x _ =>
    let k := w.imm.toNat % 32
    let p := ((s.team x.g.tid).map (fun t => (s.barRec x.g.tid t k).phase)).getD 0
    .next (x.done s (x.waitPhase k (p + 1))))

/-! ### RIDGE.DETACH (12 R298) -/

/-- Codes of what one member's device tells another (R298-R300; 01 R42). -/
def ridgeDETACHED : Nat := 0
def ridgeDEPARTED : Nat := 1
def ridgeACK : Nat := 2
def ridgePLACE : Nat := 3
def ridgeRELEASE : Nat := 4
def ridgePREEMPTED : Nat := 5
def ridgeRESUMED : Nat := 6
def ridgeSTART : Nat := 7
def ridgeREFUSED : Nat := 8

/-- Tell every other member of a team's position. -/
def State.tellMembers (s : State) (tid what : Nat) : State :=
  match s.team tid with
  | none => s
  | some t =>
    match s.launch t.launch with
    | none => s
    | some l => t.others.foldl (fun s m => s.emit (.ridge l.ref t.pos m.1 what)) s

/-- The member team detaches once every group of it is detached or retired (R298). -/
def State.detachTest (s : State) (tid : Nat) : State :=
  match s.team tid with
  | none => s
  | some t =>
    if t.detached ∨ t.others.isEmpty ∨ s.groups.any (fun g => g.2.tid = tid && !g.2.detached && !g.2.lanesGone) then s
    else (s.updTeam tid (fun t => { t with detached := true })).tellMembers tid ridgeDETACHED

/-- RIDGE.DETACH (12 R298). -/
def execRidgeDetach (w : Lane) (s : State) : Out :=
  s.plainLane w (fun x _ => .next ((x.done s { x.g with detached := true }).detachTest x.g.tid))

end Sys2Proof.Machine
end

