-- ==== Sys2Proof/Machine/Access.lean ====
section
/-!
DEFINITION. Access words but for the engine commands: 06 R166-R182, R185, R186; 14 R326; 19 R406, R409-R411; 20 R429.
-/
namespace Sys2Proof.Machine

/-! ### Issue (06 R165, R166) -/

/-- The group whose access program issues: the one that the state's focus names, if its program stands at a word. -/
def State.accessIssuer (s : State) : Option (Nat × Group) :=
  match s.focus with
  | .access gid =>
    match s.group gid with
    | none => none
    | some g => if g.accessLive then some (gid, g) else none
  | _ => none

/-- The word is done: the program goes on behind it. -/
def State.accessNext (s : State) (gid : Nat) (g : Group) : State := (s.perfOf gid 4).setGroup gid g.accessDone
/-- The word is done, and the program goes on at a target. -/
def State.accessJump (s : State) (gid : Nat) (g : Group) (pc : PC) : State := (s.perfOf gid 4).setGroup gid { g with apc := pc }

/-- A word with register sources and destinations: it waits until the sources are full, and until no fill of a destination is
pending (04 R126). -/
def State.accessWord (s : State) (srcs dsts : List SReg) (f : Nat → Group → Out) : Out :=
  match s.accessIssuer with
  | none => .fault .noIssuer
  | some (gid, g) =>
    if srcs.all g.fullS && dsts.all (fun d => !g.busyS d) then f gid g else .next s

/-- A word that writes S[d] with a function of its sources. -/
def State.accessOp (s : State) (srcs : List SReg) (d : SReg) (f : Group → Word64) : Out :=
  s.accessWord srcs [d] (fun gid g => .next (s.accessNext gid (g.writeS d (f g))))

/-- A stop of the program at its word with a trap (R175; 20 R429). -/
def State.accessTrap (s : State) (gid : Nat) (g : Group) (cause : Cause) (addr : VAddr) (code : Nat) (next : Bool) : State :=
  s.trapAccess gid { TrapRec.of cause 0 0 g.apc 0 0 with addr := addr.setWidth 57, code := BitVec.ofNat 16 code } next

/-! ### Arithmetic (R168-R170) -/

def State.accessAlu (s : State) (d a b : SReg) (f : Word64 → Word64 → Word64) : Out :=
  s.accessOp [a, b] d (fun g => f (g.readS a) (g.readS b))

/-- Shifts of R168 by an amount taken as unsigned. -/
def shl64 (a k : Word64) : Word64 := if 64 ≤ k.toNat then 0 else a <<< k.toNat
def shr64 (a k : Word64) : Word64 := if 64 ≤ k.toNat then 0 else a >>> k.toNat
def sar64 (a k : Word64) : Word64 := a.sshiftRight (min k.toNat 63)
def rot64 (a k : Word64) : Word64 := a.rotateLeft (k.toNat % 64)
/-- Division of R168; the remainder is a - b × trunc(a ÷ b). -/
def div64 (a b : Word64) : Word64 :=
  if b = 0 then (if a.toInt < 0 then BitVec.intMin 64 else BitVec.intMax 64) else BitVec.ofInt 64 (a.toInt.tdiv b.toInt)
def rem64 (a b : Word64) : Word64 := if b = 0 then a else BitVec.ofInt 64 (a.toInt.tmod b.toInt)
def divu64 (a b : Word64) : Word64 := if b = 0 then BitVec.allOnes 64 else BitVec.ofNat 64 (a.toNat / b.toNat)
def remu64 (a b : Word64) : Word64 := if b = 0 then a else BitVec.ofNat 64 (a.toNat % b.toNat)

def execAccessAdd (d a b : SReg) (s : State) : Out := s.accessAlu d a b (fun x y => x + y)
def execAccessSub (d a b : SReg) (s : State) : Out := s.accessAlu d a b (fun x y => x - y)
def execAccessMul (d a b : SReg) (s : State) : Out := s.accessAlu d a b (fun x y => x * y)
def execAccessMulhi (d a b : SReg) (s : State) : Out :=
  s.accessAlu d a b (fun x y => BitVec.ofInt 64 (x.toInt * y.toInt / 2 ^ 64))
def execAccessAnd (d a b : SReg) (s : State) : Out := s.accessAlu d a b (fun x y => x &&& y)
def execAccessOr (d a b : SReg) (s : State) : Out := s.accessAlu d a b (fun x y => x ||| y)
def execAccessXor (d a b : SReg) (s : State) : Out := s.accessAlu d a b (fun x y => x ^^^ y)
def execAccessAndn (d a b : SReg) (s : State) : Out := s.accessAlu d a b (fun x y => x &&& ~~~y)
def execAccessShl (d a b : SReg) (s : State) : Out := s.accessAlu d a b shl64
def execAccessShr (d a b : SReg) (s : State) : Out := s.accessAlu d a b shr64
def execSar (d a b : SReg) (s : State) : Out := s.accessAlu d a b sar64
def execAccessRot (d a b : SReg) (s : State) : Out := s.accessAlu d a b rot64
def execAccessMin (d a b : SReg) (s : State) : Out := s.accessAlu d a b (fun x y => if y.toInt < x.toInt then y else x)
def execAccessMax (d a b : SReg) (s : State) : Out := s.accessAlu d a b (fun x y => if x.toInt < y.toInt then y else x)
def execMinu (d a b : SReg) (s : State) : Out := s.accessAlu d a b (fun x y => if y.toNat < x.toNat then y else x)
def execMaxu (d a b : SReg) (s : State) : Out := s.accessAlu d a b (fun x y => if x.toNat < y.toNat then y else x)
def execAccessDiv (d a b : SReg) (s : State) : Out := s.accessAlu d a b div64
def execAccessRem (d a b : SReg) (s : State) : Out := s.accessAlu d a b rem64
def execDivu (d a b : SReg) (s : State) : Out := s.accessAlu d a b divu64
def execRemu (d a b : SReg) (s : State) : Out := s.accessAlu d a b remu64

/-- I-form words (R169). -/
def State.accessImm (s : State) (d a : SReg) (f : Word64 → Word64) : Out := s.accessOp [a] d (fun g => f (g.readS a))
def execAddi (d a : SReg) (i : BitVec 10) (s : State) : Out := s.accessImm d a (fun x => x + i.signExtend 64)
def execAndi (d a : SReg) (i : BitVec 10) (s : State) : Out := s.accessImm d a (fun x => x &&& i.signExtend 64)
def execOri (d a : SReg) (i : BitVec 10) (s : State) : Out := s.accessImm d a (fun x => x ||| i.signExtend 64)
def execXori (d a : SReg) (i : BitVec 10) (s : State) : Out := s.accessImm d a (fun x => x ^^^ i.signExtend 64)
def execShli (d a : SReg) (i : BitVec 10) (s : State) : Out := s.accessImm d a (fun x => shl64 x (i.setWidth 64))
def execShri (d a : SReg) (i : BitVec 10) (s : State) : Out := s.accessImm d a (fun x => shr64 x (i.setWidth 64))
def execSari (d a : SReg) (i : BitVec 10) (s : State) : Out := s.accessImm d a (fun x => sar64 x (i.setWidth 64))

/-- MOVI and EXTI (R170). -/
def execMovi (d : SReg) (i : BitVec 18) (s : State) : Out := s.accessOp [] d (fun _ => i.signExtend 64)
def execExti (d : SReg) (i : BitVec 18) (s : State) : Out :=
  s.accessOp [d] d (fun g => (g.readS d <<< 18) ||| i.setWidth 64)

/-! ### Predicates (R171, R172) -/

/-- The conditions of CMP. -/
def accessCond (c : BitVec 2) (x y : Word64) : Bool :=
  match c.toNat with
  | 0 => x == y
  | 1 => x != y
  | 2 => decide (x.toInt < y.toInt)
  | _ => decide (x.toNat < y.toNat)

def execAccessCmp (c : BitVec 2) (d a b : SReg) (s : State) : Out :=
  s.accessWord [a, b] [] (fun gid g =>
    .next (s.accessNext gid (g.putK (d.toNat % 4) (accessCond c (g.readS a) (g.readS b)))))

def State.accessK (s : State) (d a b : SReg) (f : Bool → Bool → Bool) : Out :=
  s.accessWord [] [] (fun gid g =>
    .next (s.accessNext gid (g.putK (d.toNat % 4) (f (g.getK (a.toNat % 4)) (g.getK (b.toNat % 4))))))
def execKand (d a b : SReg) (s : State) : Out := s.accessK d a b (fun x y => x && y)
def execKor (d a b : SReg) (s : State) : Out := s.accessK d a b (fun x y => x || y)
def execKxor (d a b : SReg) (s : State) : Out := s.accessK d a b (fun x y => x != y)
def execKandn (d a b : SReg) (s : State) : Out := s.accessK d a b (fun x y => x && !y)

/-! ### Memory words (R173-R175). What follows issue is in Pipeline.lean -/

/-- Issue of a memory word: the address is checked for its size, and the access starts; the word waits for it. -/
def State.accessMem (s : State) (srcs dsts : List SReg) (a : SReg) (off : VAddr) (size : Nat) (kind : Kind) (sc : Scope)
    (what : Group → AccWhat) : Out :=
  s.accessWord (a :: srcs) dsts (fun gid g =>
    let addr := g.readS a + off
    if addr.toNat % size ≠ 0 then .next (s.accessTrap gid g .align addr 0 false)
    else
      let acc : LaneAcc :=
        { op := s.nextId, stream := .access, entry := 0, index := 0, pc := g.apc, lane := 0, po := 0, fence := 0,
          addr := addr, size := size, kind := kind, scope := sc, nt := false, what := what g, stage := .issued,
          place := .cached 0, key := 0, home := 0, efmt := 0, gap := 1, record := none, faultCause := .xlate, faultSub := 0,
          faultLevel := 0, faultAddr := 0 }
      .next { (s.perfOf gid 4).setGroup gid { g with accs := g.accs ++ [acc], aLoad := some s.nextId } with
        nextId := s.nextId + 1 })

/-- The destination of an access load; code 0xFF discards the value. -/
def destS (d : SReg) : Dest := if d = 0xFF then .none else .s d.toNat
def off10 (i : BitVec 10) : VAddr := i.signExtend 64
def off4 (i : BitVec 4) : VAddr := 8 * i.setWidth 64

def execLd64 (d a : SReg) (i : BitVec 10) (s : State) : Out :=
  s.accessMem [] [d] a (off10 i) 8 .weak .split (fun _ => .load .n32 (destS d))
def execLd32 (d a : SReg) (i : BitVec 10) (s : State) : Out :=
  s.accessMem [] [d] a (off10 i) 4 .weak .split (fun _ => .load .n32 (destS d))
def execSt64 (d a : SReg) (i : BitVec 10) (s : State) : Out :=
  s.accessMem [d] [] a (off10 i) 8 .weak .split (fun g => .store (g.readS d) .n32)
def execSt32 (d a : SReg) (i : BitVec 10) (s : State) : Out :=
  s.accessMem [d] [] a (off10 i) 4 .weak .split (fun g => .store (g.readS d) .n32)
def execLds (d a : SReg) (k : BitVec 2) (sc : Scope) (i : BitVec 4) (s : State) : Out :=
  s.accessMem [] [d] a (off4 i) 8 (Kind.ofSub k) sc (fun _ => .load .n32 (destS d))
def execSts (d a : SReg) (k : BitVec 2) (sc : Scope) (i : BitVec 4) (s : State) : Out :=
  s.accessMem [d] [] a (off4 i) 8 (Kind.ofSub k) sc (fun g => .store (g.readS d) .n32)
def execAadd (d a : SReg) (k : BitVec 2) (sc : Scope) (i : BitVec 4) (s : State) : Out :=
  s.accessMem [d] [d] a (off4 i) 8 (Kind.ofSub k) sc (fun g => .rmw .add64 (g.readS d) 0 true (destS d))
def execAxchg (d a : SReg) (k : BitVec 2) (sc : Scope) (i : BitVec 4) (s : State) : Out :=
  s.accessMem [d] [d] a (off4 i) 8 (Kind.ofSub k) sc (fun g => .rmw .xchg64 (g.readS d) 0 true (destS d))

/-! ### Control words (R176-R180) -/

def Group.branchTaken (g : Group) (k : BitVec 2) (n : Bool) : Bool := g.getK k.toNat != n
def Group.branchPC (g : Group) (o : BitVec 23) : PC := g.apc + 4 * o.signExtend 57
def linkReg : SReg := 191
def Group.linkValue (g : Group) : Word64 := (g.apc + 4).setWidth 64

def execBr (k : BitVec 2) (n : Bool) (o : BitVec 23) (s : State) : Out :=
  s.accessWord [] [] (fun gid g =>
    .next (if g.branchTaken k n then s.accessJump gid g (g.branchPC o) else s.accessNext gid g))

def execCalla (k : BitVec 2) (n : Bool) (o : BitVec 23) (s : State) : Out :=
  match s.accessIssuer with
  | none => .fault .noIssuer
  | some (gid, g) =>
    if !(g.branchTaken k n) then .next (s.accessNext gid g)
    else if g.busyS linkReg then .next s
    else .next (s.accessJump gid (g.writeS linkReg g.linkValue) (g.branchPC o))

/-- JR and JRL (R177): an address that is no multiple of 4 traps ALIGN. A target whose bits [63:57] differ from bit [56] faults
XLATE there (R178), as its fetch would. -/
def State.accessJumpReg (s : State) (a : SReg) (link : Bool) : Out :=
  s.accessWord [a] (if link then [linkReg] else []) (fun gid g =>
    let t := g.readS a
    if t.toNat % 4 ≠ 0 then .next (s.accessTrap gid g .align t 0 false)
    else
      let g := if link then g.writeS linkReg g.linkValue else g
      let s' := s.accessJump gid g (t.setWidth 57)
      if canonical t then .next s' else .next (s'.stopAccess gid ⟨.xlate, xNoncanon, 0, t⟩ (t.setWidth 57)))
def execJr (a : SReg) (s : State) : Out := s.accessJumpReg a false
def execJrl (a : SReg) (s : State) : Out := s.accessJumpReg a true

def execHalt (s : State) : Out :=
  s.accessWord [] [] (fun gid g => .next (s.accessNext gid { g with aHalted := true }))
def execAccessNop (s : State) : Out := s.accessWord [] [] (fun gid g => .next (s.accessNext gid g))
/-- TRAP and BKPT stop the program; the group's lanes too where debug control has set group-stop (20 R430). -/
def State.accessBreak (s : State) (cause : Cause) (c : BitVec 10) : Out :=
  s.accessWord [] [] (fun gid g =>
    .next (((s.perfOf gid 4).accessTrap gid g cause 0 c.toNat true).updGroup gid (fun g => if g.gstop then g.requestStop else g)))
def execAccessTrap (c : BitVec 10) (s : State) : Out := s.accessBreak .trap c
def execAccessBkpt (c : BitVec 10) (s : State) : Out := s.accessBreak .bkpt c

/-! ### Special registers and fullness (R181, R182) -/

def State.sreadAccess (s : State) (g : Group) (n : Nat) : Word64 :=
  match n with
  | 0x02 => g.mxFlags.setWidth 64
  | 0x03 => if rd false s.narrow g.quarterId then 1 else 0
  | 0x11 => BitVec.ofNat 64 g.w
  | _ => g.rspb
def execAccessSrd (d : SReg) (n : BitVec 6) (s : State) : Out := s.accessOp [] d (fun g => s.sreadAccess g n.toNat)
def execAccessSwr (d : SReg) (n : BitVec 6) (s : State) : Out :=
  s.accessWord [d] [] (fun gid g =>
    let v := g.readS d
    .next (s.accessNext gid (if n = 0x02 then { g with mxFlags := v.setWidth 5 } else { g with rspb := v })))
def execSete (d : SReg) (s : State) : Out :=
  s.accessWord [] [d] (fun gid g => .next (s.accessNext gid (g.setSState d.toNat .empty)))
def execSetf (d : SReg) (s : State) : Out :=
  s.accessWord [] [d] (fun gid g => .next (s.accessNext gid (g.setSState d.toNat .full)))

/-! ### Synchronisation (R186; 14 R326; 19 R406, R409-R411) -/

def execAccessFence (k : FenceKind) (sc : Scope) (s : State) : Out :=
  s.accessWord [] [] (fun gid g =>
    let (s', ok) := s.fence gid g (g.earlier none) (k != .acquire) (k != .release) sc
    .next (if ok then s'.accessNext gid g else s'))

def execAccessWaitc (n : BitVec 6) (c : Cls) (s : State) : Out :=
  s.accessWord [] [] (fun gid g => if g.count c ≤ n.toNat then .next (s.accessNext gid g) else .next s)

/-- The count of an access arrival: a value above 1,024 sets BARBAD and counts as 0 (19 R409). -/
def State.accessCount (s : State) (g : Group) (a : SReg) : State × Nat :=
  let v := (g.readS a).toNat
  if 1024 < v then (s.err ((s.team g.tid).map Team.launch) errBARBAD, 0) else (s, v)

/-- An access arrival: the release comes first. Answers PHASE before it. -/
def State.accessArrive (s : State) (gid : Nat) (g : Group) (k : Nat) (a : SReg) : Option (State × Nat) :=
  match s.fence gid g (g.earlier none) true false .team, s.team g.tid with
  | (s1, true), some t =>
    if s1.barRoom g.tid t k then
      let (s2, c) := s1.accessCount g a
      some (s2.barArrive g.tid k c)
    else none
  | _, _ => none

/-- The word holds until its phase completes; then comes the acquire at scope team. -/
def State.accessPhase (s : State) (gid : Nat) (g : Group) (w : BarWait) : Out :=
  if s.barsDone g [w] then
    .next ((s.acquireAct ((s.launchOf gid).getD 0) g .team).accessNext gid { g with aBar := none })
  else .next s

def execAccessBarSync (k : BitVec 5) (a : SReg) (s : State) : Out :=
  s.accessWord [a] [] (fun gid g =>
    match g.aBar with
    | some w => s.accessPhase gid g w
    | none =>
      match s.accessArrive gid g k.toNat a with
      | none => .next s
      | some (s', p) => .next (s'.updGroup gid (fun g => { g with aBar := some ⟨k.toNat, (p + 1) % 65536⟩ })))

def execAccessBarArrive (k : BitVec 5) (a : SReg) (s : State) : Out :=
  s.accessWord [a] [] (fun gid g =>
    match s.accessArrive gid g k.toNat a with
    | none => .next s
    | some (s', _) => .next (s'.accessNext gid g))

def execAccessBarWait (k : BitVec 5) (s : State) : Out :=
  s.accessWord [] [] (fun gid g =>
    match g.aBar with
    | some w => s.accessPhase gid g w
    | none =>
      let p := ((s.team g.tid).map (fun t => (s.barRec g.tid t k.toNat).phase)).getD 0
      .next (s.setGroup gid { g with aBar := some ⟨k.toNat, (p + 1) % 65536⟩ }))

/-! ### QPUT (R185; 17 R372, R373) -/

/-- A queue with 16 entries, held or not, takes no more. -/
def Group.queueFull (g : Group) (q : Nat) : Bool := 16 ≤ (g.queue q).length

def execQputRegister (q : BitVec 2) (a : SReg) (s : State) : Out :=
  s.accessWord [a] [] (fun gid g =>
    if g.queueFull q.toNat then .next s
    else .next (s.accessNext gid (g.enqueue q.toNat (List.replicate 64 ((g.readS a).setWidth 32)))))

/-- The 64 values of 256 bytes. -/
def entryValues (bs : List Byte) : List Word32 := (List.range 64).map (fun l => BitVec.ofNat 32 (ofBytes ((bs.drop (4 * l)).take 4)))

/-- QPUT of 256 scratchpad bytes: the read follows the program's earlier stores (R174, R185). -/
def execQputMemory (q : BitVec 2) (a : SReg) (s : State) : Out :=
  s.accessWord [a] [] (fun gid g =>
    let addr := g.readS a
    let z := ((s.where' gid).map (fun x => scratchSize x.2.2)).getD 0
    if addr.toNat % 256 ≠ 0 then .next (s.accessTrap gid g .align addr 0 false)
    else if addr.toNat < scratchBase ∨ scratchBase + z < addr.toNat + 256 then
      .next (s.stopAccess gid ⟨.xlate, xAperture, 0, addr⟩ g.apc)
    else if g.queueFull q.toNat ∨ !(g.earlier none).isEmpty then .next s
    else
      let o := addr.toNat - scratchBase
      let bs := (List.range 256).map (fun i => ((s.team g.tid).map (fun t => rd 0 t.scratch (o + i))).getD 0)
      .next (s.accessNext gid (g.enqueue q.toNat (entryValues bs))))

end Sys2Proof.Machine
end

