-- ==== Sys2Proof/Machine/Splits.lean ====
section
/-!
DEFINITION. The split table: free entries, spills and fills, arrival and fusion, divergence (07 R188-R196, R203, R204; 14 R321),
and window slides (04 R115-R121).
-/
namespace Sys2Proof.Machine

/-! ### Entries -/

def Group.freeEntry (g : Group) : Option Nat := lowestFree g.table 0 8
def Group.freeSlot (g : Group) : Option Nat := lowestFree g.stack 0 64
def Group.freeCount (g : Group) : Nat := 8 - g.table.length

/-- Rewrite every PARENT link that names p. -/
def Group.relink (g : Group) (p q : Parent) : Group :=
  let f (x : Nat × Entry) : Nat × Entry := (x.1, if x.2.parent = p then { x.2 with parent := q } else x.2)
  { g with table := g.table.map f, stack := g.stack.map f }

/-- Free an entry or a slot. -/
def Group.free (g : Group) (p : Parent) : Group :=
  match p with
  | .none => g
  | .entry n => { g with table := del g.table n }
  | .slot n => { g with stack := del g.stack n }

/-- The oldest join in the table, by AGE. -/
def oldestJoin : AMap Entry → Option (Nat × Entry)
  | [] => none
  | (k, en) :: r =>
    match oldestJoin r with
    | none => if en.join then some (k, en) else none
    | some (k', en') => if en.join && en.age < en'.age then some (k, en) else some (k', en')

/-- Spill one join into the lowest free stack slot (R203). -/
def Group.spill1 (g : Group) : Option Group :=
  match oldestJoin g.table, g.freeSlot with
  | some (k, en), some n => some (({ g with table := del g.table k, stack := put g.stack n en }).relink (.entry k) (.slot n))
  | _, _ => none

/-- Spill until k entries are free; false if they cannot be freed. Spills already made stand (R203). -/
def Group.ensure (g : Group) (k : Nat) : Nat → Group × Bool
  | 0 => (g, decide (k ≤ g.freeCount))
  | n + 1 =>
    if k ≤ g.freeCount then (g, true)
    else match g.spill1 with
      | some g' => g'.ensure k n
      | none => (g, false)

/-- A new split in the lowest free entry (R190). -/
def Group.newSplit (g : Group) (mask : LaneMask) (pc rpc : PC) (wbase : Nat) (parent : Parent) : Group × Nat :=
  let n := g.freeEntry.getD 8
  ({ g.setEntry n (Entry.fresh mask pc rpc wbase parent g.ages) with ages := g.ages + 1 }, n)

/-- The PARENT chain, innermost first. -/
def Group.chain (g : Group) : Nat → Parent → List Parent
  | 0, _ => []
  | n + 1, p =>
    match g.byParent p with
    | none => []
    | some en => p :: g.chain n en.parent

/-! ### Order (14 R321) -/

/-- Divergence or fusion of the splits of a mask: a full fence at scope split. -/
def Group.splitFence (g : Group) (id : Nat) (m : LaneMask) : Group :=
  { g with accs := g.accs.map (fun a =>
      if a.stream = .lane ∧ a.fence = 0 ∧ a.po &&& m ≠ 0 then { a with fence := id } else a) }

/-! ### Await lists, arrival and fusion (01 R36; 07 R195, R196; 04 R121) -/

/-- Every register of the await list is full. -/
def Group.awaitFull (g : Group) (en : Entry) : Bool :=
  en.await.all (fun o => match o with
    | .v n => (maskLanes en.mask).all (fun l => g.vState (g.slotOf en.wbase n.toNat) l == .full)
    | .s n => g.sState n.toNat == .full
    | _ => true)

/-- fuse(j) for a join whose PEND is 0; `after` is what follows for the fused split. -/
def Group.fuseWith (after : Group → Nat → Group) (id : Nat) (g : Group) (p : Parent) : Group :=
  match g.byParent p with
  | none => g
  | some j =>
    if !j.join ∨ j.pend ≠ 0 then g
    else if j.mask = 0 then g.free p
    else
      let split : Entry := { j with join := false, callf := false, st := .ready, await := [], runpos := 0, run := [] }
      match p with
      | .entry n => after ((g.setEntry n split).splitFence id j.mask) n
      | .slot n =>
        match g.freeEntry with
        | none => g
        | some k =>
          after (((({ g with stack := del g.stack n }).setEntry k split).relink (.slot n) (.entry k)).splitFence id j.mask) k
      | .none => g

/-- A split between runs: it waits for a slide, for its await list or for barrier phases (19 R411); at its reconvergence PC it arrives, after a slide to its
join's base; else it is ready. `n` bounds the nested fusions. -/
def Group.settleN : Nat → Nat → Group → Nat → Group
  | 0, _, g, _ => g
  | n + 1, id, g, e =>
    match g.entry e with
    | none => g
    | some en =>
      if en.join then g
      else if en.slide.isSome ∨ !(g.awaitFull en) ∨ !en.barWait.isEmpty then g.setEntry e { en with st := .awaitingFull }
      else
        match g.byParent en.parent with
        | some j =>
          if en.rpc ≠ 0 ∧ en.pc = en.rpc ∧ j.join then
            if en.wbase ≠ j.wbase then
              g.setEntry e { en with st := .awaitingFull, wbase := j.wbase,
                                     slide := some ⟨en.mask, en.wbase, j.wbase, .arrive, false⟩ }
            else
              let g := (g.free (.entry e)).updParent en.parent (fun j =>
                { j with mask := j.mask ||| en.mask, pend := j.pend &&& ~~~en.mask })
              g.fuseWith (fun g e => g.settleN n id e) id en.parent
          else g.setEntry e { en with st := .ready }
        | none => g.setEntry e { en with st := .ready }

def Group.settle (g : Group) (id e : Nat) : Group := g.settleN 80 id e
/-- The fusion test of a join, with what follows. -/
def Group.fuse (g : Group) (id : Nat) (p : Parent) : Group := g.fuseWith (fun g e => g.settle id e) id p
/-- Fusion tests, innermost first. -/
def Group.fuseAll (g : Group) (id : Nat) (ps : List Parent) : Group := ps.foldl (fun g p => g.fuse id p) g

/-- Lanes leave the split table: from their split, and from PEND of the joins of a chain (R198-R200). -/
def Group.leaveJoins (g : Group) (m : LaneMask) (ps : List Parent) : Group :=
  ps.foldl (fun g p => g.updParent p (fun j => { j with pend := j.pend &&& ~~~m })) g

/-- e keeps the lanes of m at pc, or is freed if there are none. -/
def Group.keep (g : Group) (e : Nat) (m : LaneMask) (pc : PC) : Group :=
  if m = 0 then g.free (.entry e) else g.updEntry e (fun en => { en with mask := m, pc := pc })

/-- e, if it is still there, is settled. -/
def Group.settleIf (g : Group) (id e : Nat) : Group :=
  match g.entry e with
  | some en => if en.st = .trapped ∨ en.st = .faulted ∨ en.st = .parked then g else g.settle id e
  | none => g

/-! ### Divergence (R194) -/

/-- A part of a transfer: its lanes, its PC, and the trap record of a part of bad lanes (R202). -/
structure Part where
  lanes : LaneMask
  pc : PC
  bad : Option TrapRec
deriving DecidableEq, Repr

/-- The state of a part's split. -/
def Part.enter (p : Part) (en : Entry) : Entry :=
  match p.bad with
  | some r => { en with st := .faulted, trapRec := some r }
  | none => en

/-- New splits for parts, in order; their entry numbers. -/
def Group.newSplits (g : Group) (rpc : PC) (wbase : Nat) (parent : Parent) : List Part → Group × List Nat
  | [] => (g, [])
  | p :: r =>
    let (g, n) := g.newSplit p.lanes p.pc rpc wbase parent
    let g := g.updEntry n p.enter
    let (g, l) := g.newSplits rpc wbase parent r
    (g, n :: l)

/-- Parts in the order of their lowest lanes, empty ones dropped. -/
def sortParts (ps : List Part) : List Part :=
  (ps.filter (fun p => p.lanes != 0)).mergeSort (fun a b => lowLane a.lanes ≤ lowLane b.lanes)

/-- What a transfer answers: the table, the entries to settle, and those that faulted; or the table after spills that did not
free enough entries (SPLITOVF). -/
inductive Moved where
  | ok (g : Group) (settle : List Nat)
  | ovf (g : Group)

/-- diverge(e, parts, rc) (R194). -/
def Group.diverge (g : Group) (id e : Nat) (parts : List Part) (rc : Option PC) : Moved :=
  match g.entry e, sortParts parts with
  | none, _ => .ok g []
  | some _, [] => .ok g []
  | some _, [p] => .ok (g.updEntry e (fun en => p.enter { en with pc := p.pc })) [e]
  | some en, p :: r =>
    match rc with
    | none =>
      let (g, ok) := g.ensure r.length 8
      if !ok then .ovf g
      else
        -- the spills may have rewritten e's own link
        let parent := ((g.entry e).map Entry.parent).getD .none
        let g := (g.updEntry e (fun en => p.enter { en with mask := p.lanes, pc := p.pc })).splitFence id en.mask
        let (g, l) := g.newSplits en.rpc en.wbase parent r
        .ok g (e :: l)
    | some rc =>
      let ps := p :: r
      let (g, ok) := g.ensure ps.length 8
      if !ok then .ovf g
      else
        let g := (g.updEntry e (fun en => { en with join := true, st := .atReconvergence, pc := rc, pend := en.mask, mask := 0,
                                                    await := [], barWait := [] })).splitFence id en.mask
        let (g, l) := g.newSplits rc en.wbase (.entry e) ps
        .ok g l

/-! ### Window slides (04 R116-R121) -/

/-- The registers that a slide from b to b' spills, makes fresh, discards and fills (R118). -/
def slideRegs (w b b' : Nat) : List Nat × List Nat × List Nat × List Nat :=
  if b < b' then
    let d := b' - b
    (from' b (min d w), from' (max (b + w) b') (b' + w - max (b + w) b'), [], [])
  else
    (([] : List Nat), ([] : List Nat), from' (max (b' + w) b) (b + w - max (b' + w) b), from' b' (min b (b' + w) - b'))

/-- Whether a pending fill holds the slide back. -/
def Group.slideWaits (g : Group) (sl : Slide) : Bool :=
  let (sp, _, di, _) := slideRegs g.w sl.src sl.dst
  (sp ++ di).any (fun x => (maskLanes sl.lanes).any (fun l => g.vState (x % g.w) l == .pending))

/-- Fold a weak access over a list. -/
def engFold {α : Type} (f : State → α → Eng Unit) : State → List α → Eng Unit
  | s, [] => .ok s () .ok
  | s, a :: r =>
    match f s a with
    | .held => .held
    | .fault x => .fault x
    | .ok s _ st =>
      match engFold f s r with
      | .held => .held
      | .fault x => .fault x
      | .ok s _ st2 => .ok s () (if st = .ok then st2 else st)

/-- The spill area's base (06 R181). -/
def Group.spillBase (g : Group) : VAddr := g.rspb &&& ~~~0xFFF#64
def Group.spillAddr (g : Group) (x l : Nat) : VAddr := g.spillBase + BitVec.ofNat 64 (256 * x + 4 * l)
def Group.bitsAddr (g : Group) (x : Nat) : VAddr := g.spillBase + BitVec.ofNat 64 (0x1000000 + 8 * x)

/-- The bits word of a spilled register: the split's bits are merged with W permission only (R120). -/
def State.spillBits (s : State) (c : Actx) (g : Group) (m : LaneMask) (x : Nat) : Eng Unit :=
  match s.translate c .write false (g.bitsAddr x) with
  | .error f => .fault f
  | .ok (s, t) =>
    if s.placeHeld t.place then .held
    else
      let (bs, s) := s.readPlace c (.weak false) t.place t.key 8
      let old : BitVec 64 := BitVec.ofNat 64 (ofBytes bs)
      let new := maskOf (fun l => inMask m l && g.vState (x % g.w) l == .full)
      s.engWrite c (g.bitsAddr x) (toBytes ((old &&& ~~~m) ||| new).toNat 8)

/-- Spill one register in the split's lanes (R118). -/
def State.spillReg (s : State) (c : Actx) (g : Group) (m : LaneMask) (x : Nat) : Eng Unit :=
  match engFold (fun s l => s.engWrite c (g.spillAddr x l) (toBytes (g.getV (x % g.w) l).toNat 4)) s (maskLanes m) with
  | .held => .held
  | .fault f => .fault f
  | .ok s _ st =>
    match s.spillBits c g m x with
    | .held => .held
    | .fault f => .fault f
    | .ok s _ st2 => .ok s () (if st = .ok then st2 else st)

/-- Fill the lanes of one register, whose bits word has been read. -/
def State.fillLanes (s : State) (c : Actx) (x : Nat) (full : BitVec 64) : Group → MemStatus → List Nat → Eng Group
  | g, st, [] => .ok s g st
  | g, st, l :: r =>
    match s.engRead c (g.spillAddr x l) 4 with
    | .held => .held
    | .fault f => .fault f
    | .ok s vs st2 =>
      let v : Word32 := if st2 = .ok then BitVec.ofNat 32 (ofBytes vs) else BitVec.allOnes 32
      let g := (g.putV (x % g.w) l v).setVState (x % g.w) l (if full.getLsbD l then .full else .empty)
      s.fillLanes c x full g (if st = .ok then st2 else st) r

/-- Fill one register in the split's lanes: the group with its values and bits. -/
def State.fillReg (s : State) (c : Actx) (g : Group) (m : LaneMask) (x : Nat) : Eng Group :=
  match s.engRead c (g.bitsAddr x) 8 with
  | .held => .held
  | .fault f => .fault f
  | .ok s bs st => s.fillLanes c x (BitVec.ofNat 64 (ofBytes bs)) g st (maskLanes m)

/-- Fill registers one after another. -/
def State.fillRegs (s : State) (c : Actx) (m : LaneMask) : Group → List Nat → Eng Group
  | g, [] => .ok s g .ok
  | g, x :: r =>
    match s.fillReg c g m x with
    | .held => .held
    | .fault f => .fault f
    | .ok s g st =>
      match s.fillRegs c m g r with
      | .held => .held
      | .fault f => .fault f
      | .ok s g st2 => .ok s g (if st = .ok then st2 else st)

/-- A fault of a slide: the split is parked with the slide pending, to be performed whole again (R119). -/
def State.slideFault (s : State) (gid e : Nat) (en : Entry) (sl : Slide) (f : XFault) : State :=
  let r := { s.frec gid .slide .none f.cause f.sub f.level f.addr en.pc (.split gid e) with
    split := e, estate := BitVec.ofNat 192 (sl.src + sl.dst * 65536) }
  let (s, set) := s.pushFaults [r]
  s.updGroup gid (fun g => g.updEntry e (fun en =>
    { en with st := .parked, parkSet := some set, slide := some { sl with moved := false } }))

/-- WINDOW_SLIDE: the slide's spills are made, fresh registers and dead ones change (R118, R119). -/
def execWindowSlide (gid e : Nat) (s : State) : Out :=
  match s.group gid, s.actx gid with
  | some g, some c =>
    match g.entry e with
    | none => .next s
    | some en =>
      match en.slide with
      | none => .next s
      | some sl =>
        if sl.moved ∨ en.st ≠ .awaitingFull ∨ g.saved ∨ g.killed ∨ g.slideWaits sl then .next s
        else
          let (sp, fr, _, _) := slideRegs g.w sl.src sl.dst
          match engFold (fun s x => s.spillReg c g sl.lanes x) s sp with
          | .held => .next s
          | .fault f => .next (s.slideFault gid e en sl f)
          | .ok s _ st =>
            let s := s.memError (s.launchOf gid) st
            .next (s.updGroup gid (fun g =>
              let g := fr.foldl (fun g x => g.overLanes sl.lanes (fun g l => g.putV (x % g.w) l 0)) g
              g.updEntry e (fun en => { en with slide := some { sl with moved := true } })))
  | _, _ => .next s

end Sys2Proof.Machine
end

