-- ==== Sys2Proof/Machine/Control.lean ====
section
/-!
DEFINITION. Control instructions, run entry and completion, traps at completion, resumption of a split (07 R191-R203; 01 R32-R38;
02 R54, R55, R67, R77-R79; 20 R420-R425, R430).
-/
namespace Sys2Proof.Machine

/-! ### Control instructions at issue: operands are read; the transfer waits for the run's completion (R192) -/

/-- Issue of a control instruction. -/
def State.control (s : State) (neg : Bool) (gp : BitVec 3) (f : Issue → LaneMask → Xfer) : Out :=
  match s.issuer with
  | none => .fault .noIssuer
  | some x =>
    if x.commitWait then .next s
    else .next (x.done s (x.g.updEntry x.e (fun en => { en with xfer := some (f x (x.active gp neg)) })))

/-- A transfer with one PC for its active lanes. -/
def Issue.xfer (x : Issue) (kind : XferKind) (m : LaneMask) (target : VAddr) (rc : Option PC) (num : Nat) : Xfer :=
  { kind := kind, active := m, parts := if m = 0 then [] else [(m, target)], indirect := false, rc := rc, num := num,
    at' := x.pc }

/-- A word offset from the instruction's own word (02 R56). -/
def Issue.wordTarget (x : Issue) (off : BitVec 32) : VAddr := (x.pc + 12 * off.signExtend 57).signExtend 64
/-- The reconvergence PC; none for a field of 0 (R191, R197). -/
def Issue.rejoin (x : Issue) (off : BitVec 27) : Option PC := if off = 0 then none else some (x.pc + 12 * off.signExtend 57)

/-- Sets of equal targets, by lowest lane. -/
def targetSets (m : LaneMask) (t : Nat → VAddr) : List (LaneMask × VAddr) :=
  ((maskLanes m).map t).dedup.map (fun a => (maskOf (fun l => inMask m l && t l == a), a))

/-- JMPI and CALLI read DST under the block policy (R191). -/
def State.indirect (s : State) (neg : Bool) (gp : BitVec 3) (dst : Operand) (kind : XferKind) (rc : Issue → Option PC) : Out :=
  match s.issuer with
  | none => .fault .noIssuer
  | some x =>
    let m := x.active gp neg
    if x.commitWait then .next s
    else if m = 0 then
      .next (x.done s (x.g.updEntry x.e (fun en => { en with xfer := some { x.xfer kind 0 0 (rc x) 0 with indirect := true } })))
    else
      match s.fetch x 0 ⟨dst, false, m⟩ ⟨.zero, false, m⟩ ⟨.zero, false, m⟩ with
      | .hold => .next s
      | .trap t => .next (s.trapPrecise x.gid x.e (x.trapRec .emptyRead 0 t))
      | .ok v _ _ g post =>
        let t (l : Nat) : VAddr := x.pc.signExtend 64 + (v l).signExtend 64
        let g := g.updEntry x.e (fun en =>
          { en with xfer := some { kind := kind, active := m, parts := targetSets m t, indirect := true, rc := rc x, num := 0,
                                   at' := x.pc } })
        let g := match post with
          | some lanes => g.notePost x.e ⟨.emptyRead, x.en.pos, lanes, 0⟩
          | none => g
        .next (x.done s g)

def execBra (j : Jump) (s : State) : Out :=
  s.control j.neg j.gp (fun x m => x.xfer .jump m (x.wordTarget j.imm) (x.rejoin j.rejoin) 0)
def execJmpi (j : Jump) (s : State) : Out := s.indirect j.neg j.gp j.dst .jump (fun x => x.rejoin j.rejoin)
def execCall (w : Lane) (s : State) : Out :=
  s.control w.neg w.gp (fun x m => x.xfer .call m (x.wordTarget w.imm) none 0)
def execCalli (w : Lane) (s : State) : Out := s.indirect w.neg w.gp w.dst .call (fun _ => none)
def execRet (w : Lane) (s : State) : Out := s.control w.neg w.gp (fun x m => x.xfer .ret m 0 none 0)
def execBrk (w : Lane) (s : State) : Out := s.control w.neg w.gp (fun x m => x.xfer .brk m 0 none (w.imm.toNat % 128))
def execExit (w : Lane) (s : State) : Out := s.control w.neg w.gp (fun x m => x.xfer .exit m 0 none (w.imm.toNat % 256))
def execTrap (w : Lane) (s : State) : Out := s.control w.neg w.gp (fun x m => x.xfer .trap m 0 none (w.imm.toNat % 65536))
def execBkpt (w : Lane) (s : State) : Out := s.control w.neg w.gp (fun x m => x.xfer .bkpt m 0 none (w.imm.toNat % 65536))
def execNop (w : Lane) (s : State) : Out := s.control w.neg w.gp (fun x m => x.xfer .nop m 0 none 0)

/-! ### The transfer (R197-R203) -/

/-- Lanes leave the group: by EXIT with a status, or killed with none (R200; 01 R50, R51). -/
def State.exitLanes (s : State) (gid : Nat) (m : LaneMask) (status : Option Nat) : State :=
  match s.group gid with
  | none => s
  | some g =>
    let s := s.setGroup gid { g with left := g.left ||| m }
    let s := match status with
      | none => s
      | some st => s.updTeam g.tid (fun t =>
          { t with statusMax := if m = 0 then t.statusMax else max t.statusMax st,
                   nonZero := if st = 0 then t.nonZero else (t.nonZero + popLanes m) % 2 ^ 32 })
    -- the group retires with its last lane: its team's open phases are tested (19 R412)
    if g.left ||| m = BitVec.allOnes 64 ∧ !g.lanesGone then s.retestBars g.tid else s

/-- Outcome of an indirect target's checks (R193, R202): 0 legal, else the rank of its cause in the order ALIGN, XLATE, PERM,
ILLOP, with the cause and sub-cause. -/
def State.targetBad (s : State) (c : Actx) (t : VAddr) : Option (Cause × Nat) :=
  if t.toNat % 12 ≠ 0 then some (.align, 0)
  else
    match s.laneWord c t.toNat with
    | .fault f => some (f.cause, f.sub)
    | .held => none
    | .ok s x =>
      match s.wordBefore c t.toNat with
      | .fault f => some (f.cause, f.sub)
      | .held => none
      | .ok _ b => if LaneWord.op b ≠ 0xFE ∨ LaneWord.op x = 0xFE then some (.illop, 0) else none

/-- The parts of a transfer with their bad lanes made one part (R202). -/
def State.partsOf (s : State) (gid e : Nat) (en : Entry) (x : Xfer) : List Part :=
  let direct : List Part := x.parts.map (fun p => ⟨p.1, p.2.setWidth 57, none⟩)
  if !x.indirect then direct
  else
    match s.actx gid with
    | none => direct
    | some c =>
      let checked := x.parts.map (fun p => (p, s.targetBad c p.2))
      let good : List Part := (checked.filter (fun p => p.2.isNone)).map (fun p => ⟨p.1.1, p.1.2.setWidth 57, none⟩)
      let badOnes := checked.filter (fun p => p.2.isSome)
      let bad := badOnes.foldl (fun m p => m ||| p.1.1) 0
      if bad = 0 then good
      else
        let low := lowLane bad
        match badOnes.find? (fun p => inMask p.1.1 low) with
        | some ((_, t), some (cause, sub)) =>
          let r := { TrapRec.of cause sub bad en.pc en.len e with addr := t.setWidth 57 }
          ⟨bad, x.at', some r⟩ :: good
        | _ => good

/-- Notices of the splits that a transfer left faulted or trapped (20 R426). -/
def State.noticeAll (s : State) (gid : Nat) (es : List Nat) : State :=
  es.foldl (fun s e =>
    match (s.group gid).bind (fun g => g.entry e) with
    | some en => if en.st = .faulted then s.notice gid (some e) else s
    | none => s) s

/-- Settle entries after a transfer. -/
def State.settleAll (s : State) (gid id : Nat) (g : Group) (es : List Nat) : State :=
  (s.setGroup gid (es.foldl (fun g e => g.settleIf id e) g)).noticeAll gid es

/-- SPLITOVF: e keeps all its lanes and traps; the transfer block holds the transfer (R203; 20 R424). -/
def State.splitOvf (s : State) (gid e : Nat) (g : Group) (x : Xfer) (r : TrapRec) : State :=
  let g := { g with xblock := { entry := e, xfer := x } :: g.xblock.filter (fun b => b.entry != e) }
  (s.setGroup gid g).stopSplit gid e .trapped { r with cause := .splitOvf, postc := true, xfer := true, mask := x.active }

/-- The transfer of a completed run (R192, R197-R202). e is between runs with PC := next; r is the trap record that names the
run, `delivered` that a slide has brought the lanes of BRK or RET to their join's base. -/
def State.transfer (s : State) (gid e : Nat) (x : Xfer) (r : TrapRec) (delivered : Bool) : State :=
  match s.group gid with
  | none => s
  | some g =>
    match g.entry e with
    | none => s
    | some en =>
      let id := s.nextId
      let s := { s with nextId := id + 1 }
      let f := en.mask
      let a := x.active
      let rest := f &&& ~~~a
      let restPart : Part := ⟨rest, en.pc, none⟩
      -- every split made from e waits for the barrier phases that its run recorded (log 24)
      let inherit' (g : Group) (es : List Nat) : Group :=
        es.foldl (fun g n => g.updEntry n (fun y => { y with barWait := en.barWait })) g
      let moved (m : Moved) : State :=
        match m with
        | .ok g es => s.settleAll gid id (inherit' g es) es
        | .ovf g => s.splitOvf gid e g x r
      -- lanes of A delivered to a join after a slide to its base (R121, R198, R199)
      let deliver (inner : List Parent) (target : Parent) (j : Entry) : State :=
        if en.wbase ≠ j.wbase ∧ !delivered then
          s.setGroup gid (g.updEntry e (fun en =>
            { en with st := .awaitingFull, xfer := some x, slide := some ⟨a, en.wbase, j.wbase, .deliver, false⟩ }))
        else
          let g := (g.leaveJoins a inner).updParent target (fun j => { j with mask := j.mask ||| a, pend := j.pend &&& ~~~a, barWait := j.barWait ++ en.barWait })
          let g := g.keep e rest en.pc
          let g := g.fuseAll id (inner ++ [target])
          s.settleAll gid id g (if rest = 0 then [] else [e])
      match x.kind with
      | .nop => s.settleAll gid id g [e]
      | .jump => moved (g.diverge id e (s.partsOf gid e { en with run := [] } x ++ [restPart]) x.rc)
      | .call =>
        if a = 0 then s.settleAll gid id g [e]
        else
          let ps := sortParts (s.partsOf gid e en x)
          let (g, ok) := g.ensure ps.length 8
          if !ok then s.splitOvf gid e g x r
          else
            let g := (g.updEntry e (fun en =>
              { en with join := true, callf := true, st := .atReconvergence, mask := rest, pend := a, await := [] })).splitFence id f
            let (g, l) := g.newSplits en.pc en.wbase (.entry e) ps
            s.settleAll gid id (inherit' g l) l
      | .ret =>
        let chain := g.chain 80 en.parent
        let isFrame (p : Parent) : Bool := ((g.byParent p).map Entry.callf).getD false
        match chain.find? isFrame with
        | none =>
          let g := (g.leaveJoins a chain).keep e rest en.pc
          let g := g.fuseAll id chain
          (s.settleAll gid id g (if rest = 0 then [] else [e])).exitLanes gid a (some 0)
        | some c =>
          match g.byParent c with
          | none => s
          | some j => if a = 0 then s.settleAll gid id g [e] else deliver (chain.takeWhile (fun p => !isFrame p)) c j
      | .brk =>
        let chain := g.chain 80 en.parent
        let n := x.num
        if a = 0 then s.settleAll gid id g [e]
        else if chain.length < n + 1 ∨ (chain.take n).any (fun p => ((g.byParent p).map Entry.callf).getD false) then
          (s.setGroup gid g).stopSplit gid e .trapped { r with cause := .illop, postc := true, mask := a }
        else
          match chain.drop n with
          | [] => s
          | p :: _ =>
            match g.byParent p with
            | none => s
            | some j => deliver (chain.take n) p j
      | .exit =>
        let chain := g.chain 80 en.parent
        let g := (g.leaveJoins a chain).keep e rest en.pc
        let g := g.fuseAll id chain
        (s.settleAll gid id g (if rest = 0 then [] else [e])).exitLanes gid a (some x.num)
      | .trap | .bkpt =>
        if a = 0 then s.settleAll gid id g [e]
        else
          let (g, ok) := if rest = 0 then (g, true) else g.ensure 1 8
          let parent := ((g.entry e).map Entry.parent).getD .none
          let (g, es) :=
            if rest = 0 ∨ !ok then (g, ([] : List Nat))
            else
              let g := (g.updEntry e (fun en => { en with mask := a })).splitFence id f
              let (g, n) := g.newSplit rest en.pc en.rpc en.wbase parent
              (inherit' g [n], [n])
          let s := s.settleAll gid id g es
          let cause : Cause := if x.kind = .trap then .trap else .bkpt
          let s := s.stopSplit gid e .trapped { r with cause := cause, mask := a, code := BitVec.ofNat 16 x.num }
          -- debug group-stop (20 R430)
          s.updGroup gid (fun g => if g.gstop then g.requestStop else g)

/-! ### Run entry (01 R33, R35; 07 R193; 02 R78) -/

/-- A split parked by a fetch fault at run entry. -/
def State.parkFetch (s : State) (gid e : Nat) (en : Entry) (f : XFault) : State :=
  let (s, set) := s.pushFaults [{ s.frec gid .fetch .none f.cause f.sub f.level f.addr en.pc (.split gid e) with split := e }]
  s.park gid e set

/-- Temporaries empty, with no fill pending, in the lanes of a split; results of an abandoned pass for them are dropped (R35). -/
def Group.clearTemps (g : Group) (e : Nat) (m : LaneMask) : Group :=
  let g := (List.range 8).foldl (fun g n => g.overLanes m (fun g l => g.setTState n l .empty)) g
  let drop (d : Dest) : Dest := match d with
    | .t _ => .none
    | d => d
  let what (w : AccWhat) : AccWhat := match w with
    | .load f d => .load f (drop d)
    | .rmw fn x y r d => .rmw fn x y r (drop d)
    | w => w
  { g with accs := g.accs.map (fun a => if a.stream = .lane ∧ a.entry = e then { a with what := what a.what } else a) }

/-- The same for the replies of tree operations. -/
def State.dropTempReplies (s : State) (gid e : Nat) : State :=
  { s with treeOps := s.treeOps.map (fun o =>
      if o.gid = gid ∧ o.entry = e then
        { o with dst := match o.dst with
            | .t _ => .none
            | d => d }
      else o) }

/-- Whether a split can enter its next run: ready, between runs, in a group that issues. -/
def Entry.canEnter (en : Entry) (g : Group) : Bool :=
  !en.join && en.st == .ready && !en.inRun && en.slide.isNone && !g.saved && !g.killed && !g.stopReq && !g.retired

/-- RUN_ENTRY: the run is fetched whole and checked; its first instruction may then issue. -/
def execRunEntry (gid e : Nat) (s : State) : Out :=
  match s.group gid, s.actx gid, s.where' gid with
  | some g, some c, some (_, _, la) =>
    match g.entry e with
    | none => .next s
    | some en =>
      if !(en.canEnter g) then .next s
      else
        let trapAt (s : State) (cause : Cause) (i : Nat) : Out :=
          .next (s.trapPrecise gid e (TrapRec.of cause 0 en.mask en.pc i e))
        let va := (en.pc.signExtend 64).toNat
        if va % 12 ≠ 0 then .next (s.trapPrecise gid e { TrapRec.of .align 0 en.mask en.pc 1 e with addr := en.pc })
        else
          match s.laneWord c va with
          | .held => .next s
          | .fault f => .next (s.parkFetch gid e en f)
          | .ok s x =>
            if LaneWord.op x = 0xFE then trapAt s .illop 1
            else
              match s.wordBefore c va with
              | .held => .next s
              | .fault f => .next (s.parkFetch gid e en f)
              | .ok s b =>
                if LaneWord.op b ≠ 0xFE then trapAt s .illop 1
                else
                  match s.runWords c 25 va with
                  | .held => .next s
                  | .fault f => .next (s.parkFetch gid e en f)
                  | .ok s (words, trailer) =>
                    match checkRun g.w (decide (1 < la.params.width)) words trailer with
                    | .error t => trapAt s (if t.illopnd then .illopnd else .illop) t.index
                    | .ok r =>
                      let s := s.dropTempReplies gid e
                      .next (s.setGroup gid ((g.clearTemps e en.mask).updEntry e (fun en =>
                        { en with run := words ++ [trailer.getD 0], runpos := 0, cmt := r.cmt, runAwait := r.awaits, await := [] })))
  | _, _, _ => .next s

/-! ### Run completion (01 R36, R38; 07 R192; 04 R117; 20 R424) -/

/-- The trap record of the post-commit events FP, EMPTYREAD and DEADNODE of a run (20 R424). -/
def postRecord (en : Entry) (e : Nat) : Option TrapRec :=
  let of (c : Cause) : List PostTrap := en.post.filter (fun p => p.cause == c)
  let pick : Option Cause :=
    if !(of .fp).isEmpty then some .fp
    else if !(of .emptyRead).isEmpty then some .emptyRead
    else if !(of .deadNode).isEmpty then some .deadNode
    else none
  match pick with
  | none => none
  | some c =>
    let ps := of c
    let m := ps.foldl (fun m p => m ||| p.mask) 0
    let ix := ps.foldl (fun i p => if i = 0 ∨ p.index < i then p.index else i) 0
    some { TrapRec.of c 0 m en.pc ix e with
      flags := (of .fp).foldl (fun f p => f ||| p.flags) 0, postc := true, xfer := en.xfer.isSome,
      addr := (en.xfer.map Xfer.at').getD 0 }

/-- What follows completion once the base is in place: a post-commit trap, or the transfer, or the next run. -/
def State.afterRun (s : State) (gid e : Nat) (post : Option TrapRec) (x : Option Xfer) (r : TrapRec) : State :=
  match post with
  | some t => s.stopSplit gid e .trapped t
  | none =>
    match x with
    | some x => s.transfer gid e x r false
    | none =>
      let id := s.nextId
      match s.group gid with
      | some g => ({ s with nextId := id + 1 }).settleAll gid id g [e]
      | none => s

/-- RUN_COMPLETION: the run's pops are final, its await list stands, its requested base becomes the split's (R117), and its
transfer is applied. It waits for accesses that are neither accepted nor faulted (13 R306), and for replies of .chk
instructions (09 R230). -/
def execRunCompletion (gid e : Nat) (s : State) : Out :=
  match s.group gid with
  | none => .next s
  | some g =>
    match g.entry e with
    | none => .next s
    | some en =>
      let open' := g.accs.any (fun a => a.stream == .lane && a.entry == e && a.stage == .issued)
      if en.join ∨ en.st ≠ .ready ∨ !en.inRun ∨ en.runpos ≠ en.len ∨ open' ∨ !en.holds.isEmpty ∨ g.saved ∨ g.killed then .next s
      else
        let post := postRecord en e
        let r := TrapRec.of .trap 0 0 en.pc en.len e
        let base := en.reqBase.getD en.wbase
        let g := (g.finalPops e).updEntry e (fun en =>
          { en.endRun with pc := en.next, await := en.runAwait, doneIx := 0, done := 0, wbase := base,
                           xfer := if post.isSome then en.xfer else none })
        let s := s.setGroup gid g
        if base ≠ en.wbase then
          -- the slide comes first; a transfer or a trap follows it (log 23)
          let g := g.updEntry e (fun en' =>
            { en' with st := .awaitingFull, xfer := en.xfer,
                       slide := some ⟨en.mask, en.wbase, base, if post.isNone ∧ en.xfer.isSome then .transfer else .goOn, false⟩ })
          let s := s.setGroup gid g
          match post with
          | some t => .next (s.stopSplit gid e .trapped t)
          | none => .next s
        else .next (s.afterRun gid e post en.xfer r)

/-! ### Awaits, joins, landings -/

/-- A split goes on after its await or slide: the control instruction that resumption issues alone, else arrival or its next
run. `id` numbers a fusion. -/
def State.goOn (s : State) (gid e id : Nat) : State :=
  match s.group gid with
  | none => s
  | some g =>
    match g.entry e with
    | none => s
    | some en =>
      if en.resumeCtl then s.setGroup gid (g.setEntry e { en with st := .ready })
      else s.settleAll gid id g [e]

/-- AWAIT_SATISFIED (01 R36; 07 R189, R195): every register of the await list is full, and every barrier phase that the split
waits for has completed; then comes the acquire at scope team (19 R410, R411). -/
def execAwaitSatisfied (gid e : Nat) (s : State) : Out :=
  match s.group gid with
  | none => .next s
  | some g =>
    match g.entry e with
    | none => .next s
    | some en =>
      if en.join ∨ en.st ≠ .awaitingFull ∨ en.slide.isSome ∨ g.saved ∨ g.killed ∨ !(g.awaitFull en) ∨ !(s.barsDone g en.barWait)
      then .next s
      else
        let s := if en.barWait.isEmpty then s else s.acquireAct ((s.launchOf gid).getD 0) g .team
        let s := s.updGroup gid (fun g => g.updEntry e (fun en => { en with barWait := [] }))
        .next (({ s with nextId := s.nextId + 1 }).goOn gid e s.nextId)

/-- JOIN_FILL: a join in the stack whose lanes have all arrived fuses once a table entry is free (07 R196, R204). -/
def execJoinFill (gid slot : Nat) (s : State) : Out :=
  match s.group gid with
  | none => .next s
  | some g =>
    match look g.stack slot with
    | none => .next s
    | some j =>
      if g.saved ∨ g.killed ∨ j.pend ≠ 0 ∨ g.freeEntry.isNone then .next s
      else
        let id := s.nextId
        .next (({ s with nextId := id + 1 }).setGroup gid (g.fuse id (.slot slot)))

/-- SLIDE_FILLS_LANDED: the fills are read and land; then comes what the slide was for (04 R118, R119, R121). -/
def execSlideFillsLanded (gid e : Nat) (s : State) : Out :=
  match s.group gid, s.actx gid with
  | some g, some c =>
    match g.entry e with
    | none => .next s
    | some en =>
      match en.slide with
      | none => .next s
      | some sl =>
        if !sl.moved ∨ en.st ≠ .awaitingFull ∨ g.saved ∨ g.killed then .next s
        else
          let (_, _, _, fi) := slideRegs g.w sl.src sl.dst
          match s.fillRegs c sl.lanes g fi with
          | .held => .next s
          | .fault f => .next (s.slideFault gid e en sl f)
          | .ok s g st =>
            let s := s.memError (s.launchOf gid) st
            let r := TrapRec.of .trap 0 0 en.pc 0 e
            let g := g.updEntry e (fun en => { en with slide := none, st := .ready,
                                                       xfer := if sl.after = .goOn ∧ en.resumeCtl then en.xfer else none })
            let id := s.nextId
            let s := { s.setGroup gid g with nextId := id + 1 }
            match sl.after, en.xfer with
            | .transfer, some x => .next (s.transfer gid e x r false)
            | .deliver, some x => .next (s.transfer gid e x r true)
            | _, _ => .next (s.goOn gid e id)
  | _, _ => .next s

end Sys2Proof.Machine
end

