-- ==== Sys2Proof/Machine/FloatFn.lean ====
section
/-!
DEFINITION. The function instructions of 05 R152 and the e^a of 16 R366. Each value is computed in fixed point, with 640 or
800 bits after the point, and rounded once with a sticky last bit (log 13: DEDUCED, the precision is far beyond what deciding
any rounding of these formats takes). Exact results are found apart.
-/
namespace Sys2Proof.Machine

/-- Bits after the point, and the number that stands for 1. -/
def fxP : Nat := 640
def fxOne : Int := (2 ^ fxP : Nat)

/-- Σ x^(n+1) terms of e^x from `term`, for |x| < 1. -/
def expSum (x : Int) : Nat → Int → Int → Int
  | 0, _, _ => 0
  | k + 1, n, term =>
    let t := term * x / (n * fxOne)
    t + expSum x k (n + 1) t

/-- e^x for a fixed-point |x| < 1. -/
def expFx (x : Int) : Int := fxOne + expSum x 150 1 fxOne

/-- Σ of the odd powers z^(2k+1)/(2k+1), with `pw` = z^(2k+1); `alt` alternates the signs (arctangent). -/
def oddSum (z2 one : Int) (alt : Bool) : Nat → Int → Int → Int
  | 0, _, _ => 0
  | k + 1, n, pw =>
    let nxt := pw * z2 / one
    pw / n + (if alt then -(oddSum z2 one alt k (n + 2) nxt) else oddSum z2 one alt k (n + 2) nxt)

/-- ln 2 = 2 atanh(1/3). -/
def ln2Fx : Int := 2 * oddSum (fxOne / 9) fxOne false 230 1 (fxOne / 3)

/-- Bits after the point of the circular functions. -/
def cP : Nat := 800
def cOne : Int := (2 ^ cP : Nat)
/-- arctan(1/k). -/
def atanInv (k : Int) (n : Nat) : Int := oddSum (cOne / (k * k)) cOne true n 1 (cOne / k)
/-- π by Machin's formula. -/
def piC : Int := 16 * atanInv 5 360 - 4 * atanInv 239 120

/-- An exact dyadic in fixed point; exact for every value of the formats. -/
def toFx (p : Nat) (m : Nat) (e : Int) : Int :=
  if 0 ≤ e + p then ((m * 2 ^ (e + p).toNat : Nat) : Int) else ((m / 2 ^ (-(e + p)).toNat : Nat) : Int)

/-- Round a positive fixed-point number that is not exact: a sticky bit stands below its last digit. -/
def rndFx (F : FF) (mode : Rm) (neg : Bool) (y : Int) (e : Int) : FRes := rndMag F mode neg (2 * y.toNat + 1) (e - 1)

/-- e^x = y × 2^k with y in fixed point in [1, 2). -/
def expParts (x : Int) : Int × Int :=
  let k := x / ln2Fx
  (expFx (x - k * ln2Fx), k)

/-- e^(-x) in fixed point, x ≥ 0. -/
def expNeg (x : Int) : Int :=
  let (y, k) := expParts (-x)
  y / (2 ^ (-k).toNat : Nat)

/-- EXP2 of a finite operand. -/
def exp2Fin (F : FF) (mode : Rm) (neg : Bool) (m : Nat) (e : Int) : FRes :=
  let big := decide (toFx 0 m e ≥ 400)
  if m = 0 then rndMag F mode false 1 0
  else if big then (if neg then rndFx F mode false 1 (-400) else rndMag F mode false 1 400)
  else
    let x := if neg then -(toFx fxP m e) else toFx fxP m e
    let k := x / fxOne
    let f := x - k * fxOne
    if f = 0 then rndMag F mode false 1 k
    else rndFx F mode false (expFx (f * ln2Fx / fxOne)) (k - fxP)

/-- e^a of a finite operand (16 R366). -/
def expFin (F : FF) (mode : Rm) (neg : Bool) (m : Nat) (e : Int) : FRes :=
  let big := decide (toFx 0 m e ≥ 300)
  if m = 0 then rndMag F mode false 1 0
  else if big then (if neg then rndFx F mode false 1 (-400) else rndMag F mode false 3 400)
  else
    let (y, k) := expParts (if neg then -(toFx fxP m e) else toFx fxP m e)
    rndFx F mode false y (k - fxP)

/-- ln t for a fixed-point t in [1, 2). -/
def lnFx (t : Int) : Int :=
  let z := (t - fxOne) * fxOne / (t + fxOne)
  2 * oddSum (z * z / fxOne) fxOne false 230 1 z

/-- LOG2 of a positive number m × 2^e. -/
def log2Fin (F : FF) (mode : Rm) (m : Nat) (e : Int) : FRes :=
  let l := Nat.log2 m
  if m = 2 ^ l then rndDy F mode false (e + l) 0
  else
    let v := (e + l) * fxOne + lnFx (toFx fxP m (-(l : Int))) * fxOne / ln2Fx
    rndFx F mode (v < 0) (Int.natAbs v) (-(fxP : Int))

/-- Σ of (-1)^k r^(2k+j)/(2k+j)! from `term`. -/
def circSum (r2 : Int) : Nat → Int → Int → Int
  | 0, _, _ => 0
  | k + 1, n, term => term - circSum r2 k (n + 2) (term * r2 / (cOne * (n * (n + 1))))

/-- SIN (`c` false) and COS of m × 2^e ≠ 0. -/
def sinCos (F : FF) (mode : Rm) (c neg : Bool) (m : Nat) (e : Int) : FRes :=
  let x := toFx cP m e
  let h := piC / 2
  let k := x / h
  let r := x - k * h
  let r2 := r * r / cOne
  let q := k.toNat + (if c then 1 else 0)
  let v := if q % 2 = 0 then circSum r2 110 2 r else circSum r2 110 1 cOne
  let v := if q % 4 ≥ 2 then -v else v
  let v := if !c && neg then -v else v
  rndFx F mode (v < 0) (Int.natAbs v) (-(cP : Int))

/-- TANH of m × 2^e ≠ 0. -/
def tanhFin (F : FF) (mode : Rm) (neg : Bool) (m : Nat) (e : Int) : FRes :=
  let a := if decide (toFx 0 m e ≥ 64) then 64 * fxOne else toFx fxP m e
  let q := expNeg (2 * a)
  rndFx F mode neg ((fxOne - q) * fxOne / (fxOne + q)) (-(fxP : Int))

/-- SIGMOID of m × 2^e ≠ 0. -/
def sigmoidFin (F : FF) (mode : Rm) (neg : Bool) (m : Nat) (e : Int) : FRes :=
  let a := if decide (toFx 0 m e ≥ 300) then 300 * fxOne else toFx fxP m e
  let q := expNeg a
  rndFx F mode false ((if neg then q else fxOne) * fxOne / (fxOne + q)) (-(fxP : Int))

/-- Σ a^(2n+1)/(2n+1)!! from `term`. -/
def geluSum (a2 : Int) : Nat → Int → Int → Int
  | 0, _, _ => 0
  | k + 1, n, term => term + geluSum a2 k (n + 2) (term * a2 / (fxOne * n))

/-- GELU of m × 2^e ≠ 0: a × Φ(a), Φ(a) = 1/2 + φ(a) Σ a^(2n+1)/(2n+1)!!. -/
def geluFin (F : FF) (mode : Rm) (neg : Bool) (m : Nat) (e : Int) : FRes :=
  if decide (toFx 0 m e ≥ 16) then
    (if neg then rndFx F mode true 1 (-400) else rndFx F mode false ((m * 2 ^ 200 : Nat) - 1) (e - 200))
  else
    let a := toFx fxP m e
    let a2 := a * a / fxOne
    let root : Int := isqrt ((2 * (piC / (2 ^ (cP - fxP) : Nat))).toNat * 2 ^ fxP)
    let phi := expNeg (a2 / 2) * fxOne / root
    let part := phi * geluSum a2 850 3 a / fxOne
    let cdf := if neg then fxOne / 2 - part else fxOne / 2 + part
    rndFx F mode neg (m * cdf) (e - fxP)

/-- The functions of R152 and R366. -/
inductive Fn where
  | exp2 | log2 | sin | cos | tanh | sigmoid | gelu | exp
deriving DecidableEq, Repr

def fone (F : FF) : Word32 := (rndMag F .rne false 1 0).val
def fhalf (F : FF) : Word32 := (rndMag F .rne false 1 (-1)).val

/-- A function instruction with the special operands of R152 Table 9. -/
def ffn (F : FF) (f : Fn) (mode : Rm) (a : Word32) : FRes :=
  match fdec F a with
  | .nan s => nanRes F [.nan s]
  | .inf n =>
    match f with
    | .exp2 | .exp => ⟨if n then fzero F false else finf F false, 0⟩
    | .log2 => if n then invalid F else ⟨finf F false, 0⟩
    | .sin | .cos => invalid F
    | .tanh => ⟨fone F ||| fzero F n, 0⟩
    | .sigmoid => ⟨if n then fzero F false else fone F, 0⟩
    | .gelu => ⟨if n then fzero F true else finf F false, 0⟩
  | .fin n m e =>
    match f with
    | .exp2 => exp2Fin F mode n m e
    | .exp => expFin F mode n m e
    | .log2 => if m = 0 then ⟨finf F true, DZ⟩ else if n then invalid F else log2Fin F mode m e
    | .sin => if m = 0 then ⟨fzero F n, 0⟩ else sinCos F mode false n m e
    | .cos => if m = 0 then ⟨fone F, 0⟩ else sinCos F mode true n m e
    | .tanh => if m = 0 then ⟨fzero F n, 0⟩ else tanhFin F mode n m e
    | .sigmoid => if m = 0 then ⟨fhalf F, 0⟩ else sigmoidFin F mode n m e
    | .gelu => if m = 0 then ⟨fzero F n, 0⟩ else geluFin F mode n m e

end Sys2Proof.Machine
end

