-- ==== Sys2Proof/Machine/FloatLane.lean ====
section
/-!
DEFINITION. Lane floating point: 05 R145-R153, with packed halves under 03 R89.
-/
namespace Sys2Proof.Machine

/-- The element format of a floating type. -/
def ffOf : Fmt → FF
  | .f16 | .f16x2 => fp16
  | .bf16 | .bf16x2 => bfp16
  | _ => fp32

def isPacked : Fmt → Bool
  | .f16x2 | .bf16x2 => true
  | _ => false

def half (x : Word32) (h : Nat) : Word32 := BitVec.ofNat 32 (x.toNat / 2 ^ (16 * h) % 65536)

/-- Two halves with their conditions, each a condition of the lane (R89). -/
def pack2 (lo hi : FRes) : FRes := ⟨(hi.val <<< 16) ||| (lo.val &&& 0xFFFF), lo.fl ||| hi.fl⟩

/-- One element, or two halves independently (R89, R145). -/
def perElem (f : Fmt) (op : FF → Word32 → Word32 → Word32 → FRes) (a b c : Word32) : FRes :=
  if isPacked f then
    pack2 (op (ffOf f) (half a 0) (half b 0) (half c 0)) (op (ffOf f) (half a 1) (half b 1) (half c 1))
  else op (ffOf f) a b c

/-- A floating instruction of a lane word; `op` takes the format and the rounding mode of MOD. -/
def State.laneFloat (s : State) (w : Lane) (op : FF → Rm → Word32 → Word32 → Word32 → FRes) : Out :=
  s.laneOp w (perElem w.fmt (fun F a b c => op F (Rm.ofCode w.mod) a b c))

def execAddFloat (w : Lane) (s : State) : Out := s.laneFloat w (fun F r a b _ => fadd F r a b)
def execSubFloat (w : Lane) (s : State) : Out := s.laneFloat w (fun F r a b _ => fsub F r a b)
def execMulFloat (w : Lane) (s : State) : Out := s.laneFloat w (fun F r a b _ => fmul F r a b)
def execFma (w : Lane) (s : State) : Out := s.laneFloat w (fun F r a b c => ffma F r a b c)
def execDivFloat (w : Lane) (s : State) : Out := s.laneFloat w (fun F r a b _ => fdiv F r a b)
def execSqrt (w : Lane) (s : State) : Out := s.laneFloat w (fun F r a _ _ => fsqrt F r a)
def execRsqrt (w : Lane) (s : State) : Out := s.laneFloat w (fun F r a _ _ => frsqrt F r a)
def execRcp (w : Lane) (s : State) : Out := s.laneFloat w (fun F r a _ _ => frcp F r a)
def execMinFloat (w : Lane) (s : State) : Out := s.laneFloat w (fun F _ a b _ => fminmax F false a b)
def execMaxFloat (w : Lane) (s : State) : Out := s.laneFloat w (fun F _ a b _ => fminmax F true a b)
def execAbsFloat (w : Lane) (s : State) : Out := s.laneFloat w (fun F _ a _ _ => fabs F a)
def execNegFloat (w : Lane) (s : State) : Out := s.laneFloat w (fun F _ a _ _ => fneg F a)
/-- CMP, floating (R149): an enabled NV traps before the predicate is written. -/
def execCmpFloat (w : Lane) (s : State) : Out :=
  s.issueAlu w.gp w.neg w.imm (laneSrcs w) (fun _ m a b _ => .pred w m (fun l => fcmp (ffOf w.fmt) w.mod.toNat (a l) (b l)))
def execClassFloat (w : Lane) (s : State) : Out := s.laneFloat w (fun F _ a _ _ => ⟨fclass F a, 0⟩)
def execRint (w : Lane) (s : State) : Out := s.laneFloat w (fun F r a _ _ => frint F r a)
def execCopysign (w : Lane) (s : State) : Out := s.laneFloat w (fun F _ a b _ => fcopysign F a b)
def execExp2 (w : Lane) (s : State) : Out := s.laneFloat w (fun F r a _ _ => ffn F .exp2 r a)
def execLog2 (w : Lane) (s : State) : Out := s.laneFloat w (fun F r a _ _ => ffn F .log2 r a)
def execSin (w : Lane) (s : State) : Out := s.laneFloat w (fun F r a _ _ => ffn F .sin r a)
def execCos (w : Lane) (s : State) : Out := s.laneFloat w (fun F r a _ _ => ffn F .cos r a)
def execTanh (w : Lane) (s : State) : Out := s.laneFloat w (fun F r a _ _ => ffn F .tanh r a)
def execSigmoid (w : Lane) (s : State) : Out := s.laneFloat w (fun F r a _ _ => ffn F .sigmoid r a)
def execGelu (w : Lane) (s : State) : Out := s.laneFloat w (fun F r a _ _ => ffn F .gelu r a)
/-- DOT2 writes FP32 (R153). -/
def execDot2 (w : Lane) (s : State) : Out := s.laneOp w (fun a b c => fdot2 (ffOf w.fmt) (Rm.ofCode w.mod) a b c)
def execClampFloat (w : Lane) (s : State) : Out := s.laneFloat w (fun F _ a b c => fclamp F a b c)

end Sys2Proof.Machine
end

