-- ==== Sys2Proof/Machine/MoveLane.lean ====
section
/-!
DEFINITION. Conversion, moves and packing (05 R154-R157; 03 R94, R95), register fullness (04 R127) and special registers
(04 R111-R114).
-/
namespace Sys2Proof.Machine

def isFloat (f : Fmt) : Bool :=
  match f with
  | .f32 | .f16 | .bf16 => true
  | _ => false

/-- One conversion from src to dst (R94, R95). -/
def cvt1 (dst src : Fmt) (r : Rm) (sat : Bool) (a : Word32) : FRes :=
  if isFloat dst then
    if isFloat src then
      if dst = src then fcvt (ffOf src) (ffOf dst) r false a else fcvt (ffOf src) (ffOf dst) r sat a
    else fOfInt (ffOf dst) r sat (readInt src a)
  else if isFloat src then
    let (x, fl) := fToInt (ffOf src) r (intMin dst) (intMax dst) a
    ⟨widen x, fl⟩
  else
    let x := readInt src a
    ⟨widen (if sat then satInt dst x else wrapInt dst x), 0⟩

def unpacked : Fmt → Fmt
  | .f16x2 => .f16
  | .bf16x2 => .bf16
  | f => f

/-- CVT (R154): FMT is the destination type, XOP the source type. -/
def cvt (w : Lane) (a : Word32) : FRes :=
  let src := (Fmt.ofCode w.xop).getD .s32
  let r := Rm.ofCode w.mod
  let sat := w.mod.getLsbD 2
  if isPacked w.fmt then
    pack2 (cvt1 (unpacked w.fmt) (unpacked src) r sat (half a 0)) (cvt1 (unpacked w.fmt) (unpacked src) r sat (half a 1))
  else cvt1 w.fmt src r sat a
def execCvt (w : Lane) (s : State) : Out := s.laneOp w (fun a _ _ => cvt w a)

def execMov (w : Lane) (s : State) : Out := s.laneInt w (fun a _ _ => a)
def execPackB32 (w : Lane) (s : State) : Out := s.laneInt w (fun a b _ => (b <<< 16) ||| (a &&& 0xFFFF))
/-- PACK, floating: each half as CVT from FP32 without .sat (R155). -/
def execPackFloat (w : Lane) (s : State) : Out :=
  let F := ffOf w.fmt
  s.laneOp w (fun a b _ => pack2 (fcvt fp32 F (Rm.ofCode w.mod) false a) (fcvt fp32 F (Rm.ofCode w.mod) false b))
def execUnpackB32 (w : Lane) (s : State) : Out := s.laneInt w (fun a _ _ => half a (w.xop.toNat % 2))
/-- UNPACK, floating (R155). -/
def execUnpackFloat (w : Lane) (s : State) : Out :=
  s.laneOp w (fun a _ _ => fcvt (ffOf w.fmt) fp32 .rne false (half a (w.xop.toNat % 2)))

/-- STOV (R156): both halves of an S register are reachable; its fullness is tested under its EP bit. -/
def execStov (w : Lane) (s : State) : Out :=
  s.issueAlu w.gp w.neg w.imm (laneSrcs w) (fun x m _ _ _ =>
    let v := x.g.uniform w.sa
    .lanes x w m (fun _ => ⟨(if w.xop.getLsbD 0 then v >>> 32 else v).setWidth 32, 0⟩))

/-- VTOS (R157): sources are tested only in the lowest active lane. -/
def State.vtos (s : State) (w : Lane) (f : Word32 → Word32 → Word64) : Out :=
  s.issueAlu w.gp w.neg w.imm (fun m => laneSrcs w (laneBit (lowLane m))) (fun _ m a b _ =>
    let l := lowLane m
    .scalar w (f (a l) (b l)) noFlags)
def execVtosB32 (w : Lane) (s : State) : Out := s.vtos w (fun a b => (b ++ a : BitVec 64))
def execVtosN32 (w : Lane) (s : State) : Out := s.vtos w (fun a _ => a.setWidth 64)
def execVtosS32 (w : Lane) (s : State) : Out := s.vtos w (fun a _ => a.signExtend 64)

/-- EMPTY and FILL (04 R127): wait for pending fills, then set the bits without reading the register. -/
def State.setBitsOf (s : State) (w : Lane) (f : Fullness) : Out :=
  s.issueAlu w.gp w.neg w.imm noSrcs (fun x m _ _ _ =>
    let d := x.g.destOf x.en.wbase w.dst
    { fl := noFlags, waits := fun g => g.pendingIn d m, write := fun g => g.overLanes m (fun g l => g.setDest d l f) })
def execEmpty (w : Lane) (s : State) : Out := s.setBitsOf w .empty
def execFill (w : Lane) (s : State) : Out := s.setBitsOf w .full

/-! ### Special registers -/

/-- The value of a special register as seen by a lane of an entry (04 R111 Table 2). -/
def State.sreadLane (s : State) (g : Group) (en : Entry) (n l : Nat) : Word64 :=
  match n with
  | 0x00 => (g.fpFlagsOf l).setWidth 64
  | 0x01 => (g.fpEnableOf l).setWidth 64
  | 0x02 => g.mxFlags.setWidth 64
  | 0x03 => if rd false s.narrow g.quarterId then 1 else 0
  | 0x04 => en.mask
  | 0x10 => BitVec.ofNat 64 en.wbase
  | 0x11 => BitVec.ofNat 64 g.w
  | _ => g.rspb

/-- SRD (04 R112, R113). -/
def execSrd (w : Lane) (s : State) : Out :=
  s.issueAlu w.gp w.neg w.imm noSrcs (fun x m _ _ _ =>
    let n := w.imm.toNat % 64
    .lanes x w m (fun l =>
      let v := s.sreadLane x.g x.en n l
      ⟨(if w.imm.getLsbD 8 then v >>> 32 else v).setWidth 32, 0⟩))

/-- Half h of RSPB replaced. -/
def putHalf (v : Word64) (h : Bool) (x : Word32) : Word64 :=
  if h then x ++ v.setWidth 32 else (v >>> 32).setWidth 32 ++ x

/-- SWR (04 R113, R117). A requested window base that leaves the register stack traps ILLOPND with sub-cause 1, and writes
nothing. -/
def execSwr (w : Lane) (s : State) : Out :=
  match s.issuer with
  | none => .fault .noIssuer
  | some x =>
    let m := x.active w.gp w.neg
    if x.commitWait then .next s
    else if m = 0 then .next (x.done s x.g)
    else
      match s.fetchLane x { w with sb := .zero, sc := .zero } m with
      | .hold => .next s
      | .trap t => .next (s.trapPrecise x.gid x.e (x.trapRec .emptyRead 0 t))
      | .ok a _ _ g post =>
        let v := a (lowLane m)
        let g := match post with
          | some e => g.notePost x.e ⟨.emptyRead, x.en.pos, e, 0⟩
          | none => g
        match w.imm.toNat % 64 with
        | 0x00 => .next (x.done s { g with fpFlags := (maskLanes m).foldl (fun f l => wr 0 f l ((a l).setWidth 5)) g.fpFlags })
        | 0x01 => .next (x.done s { g with fpEnable := (maskLanes m).foldl (fun f l => wr 0 f l ((a l).setWidth 5)) g.fpEnable })
        | 0x02 => .next (x.done s { g with mxFlags := v.setWidth 5 })
        | 0x10 =>
          let b := bits v.toNat 15 3 * 8
          if b + g.w ≤ 65536 then .next (x.done s (g.updEntry x.e (fun en => { en with reqBase := some b })))
          else .next (s.trapPrecise x.gid x.e (x.trapRec .illopnd 1 m))
        | _ => .next (x.done s { g with rspb := putHalf g.rspb (w.imm.getLsbD 8) v })

end Sys2Proof.Machine
end

