-- ==== Sys2Proof/Machine/CrossLane.lean ====
section
/-!
DEFINITION. Cross-lane instructions: 05 R158-R164. Only the active lanes of the issuing split are read.
-/
namespace Sys2Proof.Machine

/-- The source lane of SHFL (R159), if it is a lane. -/
def shflSrc (mode : Nat) (l : Nat) (k : Word32) : Option Nat :=
  match mode with
  | 0 => some (k.toNat % 64)
  | 1 => if k.toNat ≤ l then some (l - k.toNat) else none
  | 2 => if l + k.toNat < 64 then some (l + k.toNat) else none
  | _ => some (Nat.xor l (k.toNat % 64))

def execShfl (w : Lane) (s : State) : Out :=
  s.issueAlu w.gp w.neg w.imm (laneSrcs w) (fun x m a b _ =>
    .lanes x w m (fun l =>
      match shflSrc (w.xop.toNat % 4) l (b l) with
      | some k => ⟨if inMask m k then a k else a l, 0⟩
      | none => ⟨a l, 0⟩))

/-- The mask of VBALLOT (R160). -/
def ballot (m : LaneMask) (a : Nat → Word32) : LaneMask := maskOf (fun l => inMask m l && a l != 0)
def execVballotS (w : Lane) (s : State) : Out :=
  s.issueAlu w.gp w.neg w.imm (laneSrcs w) (fun _ m a _ _ => .scalar w (ballot m a) noFlags)
def execVballotV (w : Lane) (s : State) : Out :=
  s.issueAlu w.gp w.neg w.imm (laneSrcs w) (fun x m a _ _ =>
    let b := ballot m a
    .lanes x w m (fun _ => ⟨(if w.xop.getLsbD 0 then b >>> 32 else b).setWidth 32, 0⟩))

/-- Key equality of VMATCH (R161). -/
def keyEq (f : Fmt) (a b : Word32) : Bool :=
  if isFloat f then
    let x := fdec (ffOf f) a
    let y := fdec (ffOf f) b
    if x.isNan || y.isNan then x.isNan && y.isNan else fcompare x y == some .eq
  else a.toNat % 2 ^ intWidth f == b.toNat % 2 ^ intWidth f

/-- VMATCH (R161). -/
def execVmatch (w : Lane) (s : State) : Out :=
  s.issueAlu w.gp w.neg w.imm (laneSrcs w) (fun x m a _ _ =>
    .lanes x w m (fun l =>
      let k := maskOf (fun j => inMask m j && keyEq w.fmt (a j) (a l))
      match w.xop.toNat % 4 with
      | 0 => ⟨BitVec.ofNat 32 (lowLane k), 0⟩
      | 1 => ⟨BitVec.ofNat 32 (popLanes k), 0⟩
      | 2 => ⟨k.setWidth 32, 0⟩
      | _ => ⟨(k >>> 32).setWidth 32, 0⟩))

/-- One value of a reduction in progress: the exact integer sum or the value so far, with the conditions of its steps. -/
structure Acc where
  exact : Int
  val : Word32
  fl : BitVec 5
deriving DecidableEq, Repr

/-- The first active lane: a .f32 value is read as a number (R162). -/
def redFirst (fmt : Fmt) (a : Word32) : Acc :=
  if fmt = .f32 then
    let v := fdec fp32 a
    if v.isNan then ⟨0, fnan fp32, if v.isSnan then NV else 0⟩ else ⟨0, a, 0⟩
  else ⟨readInt fmt a, a, 0⟩

/-- A further active lane (R162 Table 11). -/
def redStep (fmt : Fmt) (op : Nat) (r : Rm) (c : Acc) (a : Word32) : Acc :=
  if fmt = .f32 then
    let x := match op with
      | 0 => fadd fp32 r c.val a
      | 1 => fminmax fp32 false c.val a
      | _ => fminmax fp32 true c.val a
    ⟨0, x.val, c.fl ||| x.fl⟩
  else
    let y := readInt fmt a
    let cur := readInt fmt c.val
    match op with
    | 0 => ⟨c.exact + y, widen (wrapInt fmt (c.exact + y)), 0⟩
    | 1 => ⟨0, widen (min cur y), 0⟩
    | 2 => ⟨0, widen (max cur y), 0⟩
    | 3 => ⟨0, c.val &&& a, 0⟩
    | 4 => ⟨0, c.val ||| a, 0⟩
    | _ => ⟨0, c.val ^^^ a, 0⟩

/-- The value of an accumulation: an integer sum saturates from its exact value (R162, R163). -/
def redVal (w : Lane) (c : Acc) : Word32 :=
  if w.fmt ≠ .f32 ∧ w.xop.toNat % 8 = 0 ∧ w.mod = 1 then widen (satInt w.fmt c.exact) else c.val

/-- The accumulations at each lane of a list, in ascending order (R162, R163). -/
def redScan (w : Lane) (a : Nat → Word32) : Option Acc → List Nat → List (Nat × Acc)
  | _, [] => []
  | none, l :: r =>
    let c := redFirst w.fmt (a l)
    (l, c) :: redScan w a (some c) r
  | some c, l :: r =>
    let c := redStep w.fmt (w.xop.toNat % 8) (Rm.ofCode w.mod) c (a l)
    (l, c) :: redScan w a (some c) r

/-- VREDUCE (R162, R164): a condition of any step is raised in every active lane. -/
def execVreduce (w : Lane) (s : State) : Out :=
  s.issueAlu w.gp w.neg w.imm (laneSrcs w) (fun x m a _ _ =>
    let c := (((redScan w a none (maskLanes m)).getLast?).map Prod.snd).getD ⟨0, 0, 0⟩
    let v := redVal w c
    let wide : Word64 := if w.fmt = .s32 then v.signExtend 64 else v.setWidth 64
    match w.dst with
    | .s _ => .scalar w wide (fun _ => c.fl)
    | _ => .lanes x w m (fun _ => ⟨v, c.fl⟩))

/-- Identities of the exclusive scan, R163 Table 12. -/
def scanIdentity (fmt : Fmt) (op : Nat) : Word32 :=
  match op with
  | 1 => if fmt = .f32 then finf fp32 false else widen (intMax fmt)
  | 2 => if fmt = .f32 then finf fp32 true else widen (intMin fmt)
  | 3 => 0xFFFFFFFF
  | _ => 0

/-- VSCAN (R163, R164): the exclusive form does not perform the last lane's step. -/
def execVscan (w : Lane) (s : State) : Out :=
  s.issueAlu w.gp w.neg w.imm (laneSrcs w) (fun x m a _ _ =>
    let ls := maskLanes m
    let ex := w.xop.getLsbD 3
    let steps := redScan w a none (if ex then ls.dropLast else ls)
    let fl := ((steps.getLast?).map (fun p => p.2.fl)).getD 0
    let vals : List Word32 := steps.map (fun p => redVal w p.2)
    let out : List (Nat × Word32) := ls.zip (if ex then scanIdentity w.fmt (w.xop.toNat % 8) :: vals else vals)
    .lanes x w m (fun l => ⟨((out.find? (fun p => p.1 == l)).map Prod.snd).getD 0, fl⟩))

end Sys2Proof.Machine
end

