-- ==== Sys2Proof/Machine/Engine.lean ====
section
/-!
DEFINITION. Engine command words: issue, tokens and completion values, and the fault records of engines (06 R183, R184;
04 R128; 17 R387, R388; 20 R392).
-/
namespace Sys2Proof.Machine

/-- A token register's code: 0xFF for none. -/
abbrev Token := BitVec 8

/-- Completion error codes, 17 Table 4 and 16 R360. -/
def codeBADARG : Nat := 0x07
def codeMEMERR : Nat := 0x22
def codeBADIMAGE : Nat := 0x23
def codeSLOTBUSY : Nat := 0x25
def codeUNSERVED : Nat := 0x26
def codeCOLLGONE : Nat := 0x27
def codeCOLLBUSY : Nat := 0x28
/-- A completion value that reports an error (04 R128). -/
def errorValue (code : Nat) : Word64 := BitVec.ofNat 64 (2 ^ 63 + code)

/-- The descriptor registers S[a] to S[a + k - 1]. -/
def descRegs (a : SReg) (k : Nat) : List SReg := (List.range k).map (fun i => a + BitVec.ofNat 8 i)

/-- Issue of an engine command (R184): its registers are full, its counter is below 63, no fill of its token is pending, and
the engine accepts it. Then, in one step, its counter rises, its token is set empty with a fill pending, and the engine has a
copy of the descriptor. `f` hands the command, by its number, to the engine. -/
def State.engineWord (s : State) (t a : SReg) (k : Nat) (cls : Option Cls) (ready : Group → Bool)
    (f : State → Nat → Nat → Group → List Word64 → State) : Out :=
  s.accessWord (descRegs a k) [t] (fun gid g =>
    let full : Bool := match cls with
      | some c => g.count c == 63
      | none => false
    if full || !ready g then .next s
    else
      let id := s.nextId
      let g1 := match cls with
        | some c => g.issueOp id c 0 0 0
        | none => g
      let g2 := if t = 0xFF then g1 else g1.setSState t.toNat .pending
      .next (f ({ s with nextId := id + 1 }.accessNext gid g2) id gid g ((descRegs a k).map g.readS)))

/-- The end of a command: the token is written and full, and the counter falls in issue order (04 R128; 19 R405). -/
def State.endCommand (s : State) (gid id : Nat) (t : Token) (v : Word64) : State :=
  s.updGroup gid (fun g => (if t = 0xFF then g else g.putS t.toNat v).finOp id)

/-- A record of an engine's fault (17 R388). -/
def State.engineFault (s : State) (gid : Nat) (e : FEngine) (f : XFault) (pc : PC) (index : Nat) (estate : Nat) (who : FWho) :
    State × Nat :=
  s.pushFaults [{ s.frec gid .engine e f.cause f.sub f.level f.addr pc who with index := index, estate := BitVec.ofNat 192 estate }]

/-- n bytes of a team's scratchpad. -/
def Team.scratchBytes (t : Team) (o n : Nat) : List Byte := (from' o n).map (rd 0 t.scratch)

/-- Whether n bytes at an address lie within a launch's scratchpad (12 R289). -/
def inScratch (l : Launch) (a : VAddr) (n : Nat) : Bool :=
  scratchBase ≤ a.toNat && decide (a.toNat + n ≤ scratchBase + scratchSize l)

/-- An engine's place in memory whose page must have a block format (15 R345; 16 R367, R368). -/
def State.formatCheck (s : State) (c : Actx) (need : Need) (va : VAddr) (efmt : Nat) : Option XFault :=
  match s.translate c need false va with
  | .error f => some f
  | .ok (_, t) => if t.efmt = efmt then none else some ⟨.perm, 8, 0, va⟩

end Sys2Proof.Machine
end

