-- ==== Sys2Proof/Machine/Matrix.lean ====
section
/-!
DEFINITION. The matrix sequencer: issue of MLDB, MMA, MDRN and MZERO, the start and completion of their operations, and the
element arithmetic (15 R337-R358; 03 R101-R107).
-/
namespace Sys2Proof.Machine

/-! ### Issue (R342) -/

/-- Fields of IMM32, R339 Table 3. -/
def immTile (i : BitVec 32) : Nat := i.toNat % 8
def immMac (i : BitVec 32) : Nat := i.toNat / 16 % 8
def immCount (i : BitVec 32) : Nat := 2 ^ (i.toNat / 256 % 4)
def immSlot (i : BitVec 32) : Nat := i.toNat / 65536 % 64
def immDen (i : BitVec 32) : Bool := i.getLsbD 23
def immLink (i : BitVec 32) : Bool := i.getLsbD 29
def immBar (i : BitVec 32) : Nat := i.toNat / 2 ^ 24 % 32

/-- A format's row bytes in the A image and its image size (R349 Table 4). -/
def aRowBytes : Fmt → Nat
  | .xb6 => 96
  | .xb4 => 64
  | .bf16 => 256
  | _ => 128
def aImageBytes : Fmt → Nat
  | .xb8 => 8704
  | .xb6 => 6656
  | .xb4 => 4608
  | .bf16 => 16384
  | _ => 8192

/-- A matrix operation is queued; a linked one arrives at its barrier. -/
def State.queueMx (s : State) (x : Issue) (w : Lane) (kind : MxKind) (rows : LaneMask) (g : Group) : Out :=
  if g.count .mx = 63 then .next s
  else
    let link := immLink w.imm
    let room := match s.team g.tid with
      | some t => s.barRoom g.tid t (immBar w.imm)
      | none => true
    if link && !room then .next s
    else
      let id := s.nextId
      let (s1, phase) := if link then s.barLink g.tid x.gid (immBar w.imm) else (s, 0)
      let op : MxOp :=
        { id := id, gid := x.gid, kind := kind, fmt := w.fmt, rows := rows, addr := g.uniform w.sa, desc := g.uniform w.sb,
          ti := immTile w.imm, mj := immMac w.imm, n := immCount w.imm, den := immDen w.imm, slot := immSlot w.imm,
          stage := if link then .linked else .queued, bar := if link then some ⟨immBar w.imm, phase⟩ else none, curT := 0,
          curC := 0, flags := 0, narrow := false, pc := x.en.pc, index := x.en.pos, parkSet := none }
      .next { x.done s1 (g.issueOp id .mx x.e x.en.pos rows) with nextId := id + 1, mxOps := s1.mxOps ++ [op] }

/-- Issue of a matrix instruction: operand fetch, then the checks of its address. -/
def State.issueMx (s : State) (w : Lane) (kind : MxKind) : Out :=
  match s.issuer with
  | none => .fault .noIssuer
  | some x =>
    let m := x.active w.gp w.neg
    if x.commitWait then .next s
    else if m = 0 then .next (x.done s x.g)
    else
      match s.fetchLane x w m with
      | .hold => .next s
      | .trap t => .next (s.trapPrecise x.gid x.e (x.trapRec .emptyRead 0 t))
      | .ok _ _ _ g post =>
        let addr := g.uniform w.sa
        let aligned : Bool := match kind with
          | .mma => addr.toNat % 64 = 0
          | .mldb => (w.fmt != .s8 && w.fmt != .bf16) || addr.toNat % 64 = 0
          | _ => true
        if !aligned then
          .next (s.trapPrecise x.gid x.e { x.trapRec .align 0 m with addr := addr.setWidth 57 })
        else
          let inside := match kind, s.where' x.gid with
            | .mma, some (_, _, l) => inScratch l addr (aImageBytes w.fmt)
            | _, _ => true
          if !inside then
            let (s, set) := s.pushFaults [{ s.frec x.gid .lane .none .xlate xAperture 0 addr x.en.pc (.split x.gid x.e) with
              index := x.en.pos, split := x.e }]
            .next ((s.updGroup x.gid (fun g => g.updEntry x.e (fun en => en.recordDone x.en.pos 0))).park x.gid x.e set)
          else
            let g := match post with
              | some e => g.notePost x.e ⟨.emptyRead, x.en.pos, e, 0⟩
              | none => g
            s.queueMx x w kind m g

def execMldb (w : Lane) (s : State) : Out := s.issueMx w .mldb
def execMma (w : Lane) (s : State) : Out := s.issueMx w .mma
def execMdrn (w : Lane) (s : State) : Out := s.issueMx w .mdrn
def execMzero (w : Lane) (s : State) : Out := s.issueMx w .mzero

/-! ### Macro form (03 R103, R106) -/

def macKey (q mac col k : Nat) : Nat := ((q * 8 + mac) * 128 + col) * 128 + k
def expKey (q mac col kb : Nat) : Nat := ((q * 8 + mac) * 128 + col) * 4 + kb
def tileKey (q tile row col : Nat) : Nat := ((q * 8 + tile) * 64 + row) * 128 + col
/-- 32 elements each in four K-blocks. -/
def kBlocks : List Nat := [0, 1, 2, 3]

/-- q of R103 for an element of a block with record `r`. -/
def macroQ (b : BF) (r x : Nat) : Byte :=
  let (e, s, m) := elementParts b r x
  let (v, _) := nearest m ((e : Int) - (r / 256 : Nat) + 7 - b.f)
  BitVec.ofInt 8 (if s then -(v : Int) else v)

/-- Alignment of a BF16 block (R106): its exponent and 16-bit values; none if it holds a NaN or an infinity. -/
def alignBlock (xs : List Word32) : Option (Int × List Int) :=
  let vs := xs.map (fdec bfp16)
  if vs.any (fun v => v.isNan || v.isInf) then none
  else
    match vs.filterMap exOf with
    | [] => some (0, xs.map (fun _ => 0))
    | e0 :: r =>
      let e := r.foldl max e0
      let a (v : FVal) : Int := match v with
        | .fin s m x =>
          let k := x + 14 - e
          let n : Nat := if 0 ≤ k then m * 2 ^ k.toNat else m / 2 ^ (-k).toNat
          if s then -(n : Int) else n
        | _ => 0
      some (e, vs.map a)

/-- A column of a macro or of a macro pair: bytes by K for each macro, exponents and invalid marks by K-block. -/
structure Column where
  lo : List Byte
  hi : List Byte
  exps : List (BitVec 9)
  invs : List Bool
deriving DecidableEq, Repr

def listAt (bs : List Byte) (i n : Nat) : List Byte := (bs.drop i).take n

/-- A BF16 column from its 256 bytes. -/
def bf16Column (bs : List Byte) (bad : Bool) : Column :=
  let blocks := kBlocks.map (fun kb =>
    alignBlock ((List.range 32).map (fun k => BitVec.ofNat 32 (ofBytes (listAt bs (2 * (32 * kb + k)) 2)))))
  let vals : List (BitVec 16) := blocks.flatMap (fun b => match b with
    | some (_, l) => l.map (BitVec.ofInt 16)
    | none => List.replicate 32 0)
  { lo := vals.map (fun v => v.setWidth 8), hi := vals.map (fun v => v.extractLsb' 8 8),
    exps := blocks.map (fun b => BitVec.ofInt 9 ((b.map Prod.fst).getD 0)), invs := blocks.map (fun b => bad || b.isNone) }

/-- An XB column from its four blocks, each with its record, bytes and whether it could not be read. -/
def xbColumn (b : BF) (bl : List (Nat × List Byte × Bool)) : Column :=
  { lo := bl.flatMap (fun p => (List.range 32).map (fun i => macroQ b p.1 (element b p.2.1 i))), hi := [],
    exps := bl.map (fun p => BitVec.ofInt 9 (((p.1 / 256 : Nat) : Int) - 134)), invs := bl.map (fun p => recInvalid p.1 || p.2.2) }

/-- Write a column into the quarter's macros. -/
def State.putColumn (s : State) (q mac col : Nat) (two : Bool) (c : Column) : State :=
  let put8 (m : AMap Byte) (mac : Nat) (bs : List Byte) : AMap Byte :=
    (bs.zipIdx).foldl (fun m b => wr 0 m (macKey q mac col b.2) b.1) m
  let macs := put8 s.macs mac c.lo
  { s with macs := if two then put8 macs (mac + 1) c.hi else macs,
           exps := (c.exps.zipIdx).foldl (fun m e => wr 0 m (expKey q mac col e.2) e.1) s.exps,
           invs := (c.invs.zipIdx).foldl (fun m e => wr false m (expKey q mac col e.2) e.1) s.invs }

/-! ### MLDB (R345-R347) -/

def xbEfmt : Fmt → Nat
  | .xb8 => 1
  | .xb6 => 2
  | .xb4 => 3
  | _ => 0

/-- The address of block i counted from the block at va (03 R97). -/
def blockAddr (b : BF) (va : VAddr) (i : Nat) : VAddr :=
  let a := va.toNat % 4096 / b.bytes + i
  va - BitVec.ofNat 64 (va.toNat % 4096) + BitVec.ofNat 64 (4096 * (a / b.count) + b.bytes * (a % b.count))

/-- An engine read from a page that must have a given format. -/
def State.mxRead (s : State) (c : Actx) (efmt n k : Nat) (va : VAddr) : Eng (List Byte) :=
  match s.formatCheck c .read va efmt with
  | some f => .fault f
  | none => s.engReads c n k va

/-- A scale record through the quarter's scale cache (R346). -/
def State.scaleRecord (s : State) (c : Actx) (q efmt : Nat) (va : VAddr) : Eng Nat :=
  match s.translate c .read true va with
  | .error f => .fault f
  | .ok (s1, t) =>
    match s1.scaleEntry c.part t.tid va with
    | .error f => .fault f
    | .ok (u0, sbase) =>
      let key := t.tid * 2 ^ 64 + (recordAddr efmt u0 0 va).toNat / 2
      let use := Config.coin (s.salt (2 ^ 73 + key))
      match (look s.scales q).bind (fun m => look m key), use with
      | some r, true => .ok s1 r.toNat .ok
      | _, _ =>
        match s1.engRead c (recordAddr efmt u0 sbase va) 2 with
        | .held => .held
        | .fault f => .fault f
        | .ok s2 bs st =>
          let r := ofBytes bs
          .ok { s2 with scales := put s2.scales q (put ((look s2.scales q).getD []) key (BitVec.ofNat 16 r)) } r st

/-- The blocks of one column. -/
def State.xbBlocks (s : State) (c : Actx) (q : Nat) (fmt : Fmt) (va : VAddr) :
    List Nat → Eng (List (Nat × List Byte × Bool))
  | [] => .ok s [] .ok
  | i :: r =>
    let b := blockFmt (xbEfmt fmt)
    let a := blockAddr b va i
    match s.mxRead c (xbEfmt fmt) 8 (b.bytes / 8) a with
    | .held => .held
    | .fault f => .fault f
    | .ok s1 bs st =>
      match s1.scaleRecord c q (xbEfmt fmt) a with
      | .held => .held
      | .fault f => .fault f
      | .ok s2 rec' st2 =>
        match s2.xbBlocks c q fmt va r with
        | .held => .held
        | .fault f => .fault f
        | .ok s3 l st3 =>
          let worst := if st ≠ .ok then st else if st2 ≠ .ok then st2 else st3
          .ok s3 ((rec', bs, st ≠ .ok ∨ st2 ≠ .ok) :: l) worst

/-- Column col of macro or pair t of an MLDB. -/
def State.readColumn (s : State) (c : Actx) (q : Nat) (o : MxOp) (t col : Nat) : Eng Column :=
  let at' (n : Nat) : VAddr := o.addr + BitVec.ofNat 64 (n * (128 * t + col))
  match o.fmt with
  | .s8 =>
    match s.mxRead c 0 64 2 (at' 128) with
    | .held => .held
    | .fault f => .fault f
    | .ok s bs st => .ok s ⟨bs, [], [0, 0, 0, 0], kBlocks.map (fun _ => decide (st ≠ .ok))⟩ st
  | .bf16 =>
    match s.mxRead c 0 64 4 (at' 256) with
    | .held => .held
    | .fault f => .fault f
    | .ok s bs st => .ok s (bf16Column bs (st ≠ .ok)) st
  | f =>
    if !(isBlockStart (xbEfmt f) (o.addr.toNat % 4096)) then .fault ⟨.align, 1, 0, o.addr⟩
    else
      match s.xbBlocks c q f o.addr (kBlocks.map (fun kb => 4 * (128 * t + col) + kb)) with
      | .held => .held
      | .fault x => .fault x
      | .ok s l st => .ok s (xbColumn (blockFmt (xbEfmt f)) l) st

/-- The macros that an MLDB or MMA names: for .bf16, pairs (R345, R349). -/
def MxOp.macros (o : MxOp) : List Nat :=
  match o.kind with
  | .mldb | .mma => from' o.mj (if o.fmt = .bf16 then 2 * o.n else o.n)
  | _ => []
def MxOp.tiles (o : MxOp) : List Nat :=
  match o.kind with
  | .mldb => []
  | _ => from' o.ti o.n

def MxOp.macAt (o : MxOp) (t : Nat) : Nat := o.mj + (if o.fmt = .bf16 then 2 * t else t)

def State.setMx (s : State) (o : MxOp) : State := { s with mxOps := s.mxOps.map (fun p => if p.id = o.id then o else p) }

/-- Set the tags of the macros that an MLDB names. -/
def State.setTags (s : State) (q : Nat) (ms : List Nat) (f : Nat → MacTag) : State :=
  { s with tags := ms.foldl (fun m j => wr .none m (q * 8 + j) (f j)) s.tags }

def MxOp.tag (o : MxOp) (j : Nat) : MacTag :=
  match o.fmt with
  | .s8 => .int8
  | .bf16 => if (j - o.mj) % 2 = 0 then .bf16lo else .bf16hi
  | _ => .xb

/-- An MLDB ends in error: every macro that it names becomes NONE (R347). -/
def State.mldbError (s : State) (q : Nat) (o : MxOp) (errBit : Nat) : State :=
  (((s.setTags q o.macros (fun _ => .none)).err (s.launchOf o.gid) errBit)).setMx { o with stage := .finished, parkSet := none }

/-- A fault of an MLDB read (R347): its record holds the column; one that the firmware does not service ends the load, another
parks it at its column. -/
def State.mldbFault (s : State) (q : Nat) (o : MxOp) (f : XFault) : State :=
  let ends : Bool := (f.cause = .perm ∧ f.sub = 8) ∨ f.cause = .align
  let (s, set) := s.engineFault o.gid .mldb f o.pc o.index (o.curT + 8 * o.curC) (if ends then .nothing else .mx o.id)
  if ends then s.mldbError q o errMXFMT else s.setMx { o with stage := .parked, parkSet := some set }

/-- The columns that an MLDB has yet to load, one after another. -/
def State.loadColumns (s : State) (c : Actx) (q : Nat) : MxOp → List (Nat × Nat) → State
  | o, [] => (s.setTags q o.macros o.tag).setMx { o with stage := .finished }
  | o, (t, col) :: r =>
    let o := { o with curT := t, curC := col }
    match s.readColumn c q o t col with
    | .held => s.setMx { o with stage := .queued }
    | .fault f => s.mldbFault q o f
    | .ok s1 x st =>
      ((s1.putColumn q (o.macAt t) col (o.fmt = .bf16) x).memError (s1.launchOf o.gid) st).loadColumns c q o r

def MxOp.columns (o : MxOp) : List (Nat × Nat) :=
  ((List.range o.n).flatMap (fun t => (List.range 128).map (fun c => (t, c)))).drop (128 * o.curT + o.curC)

/-! ### MMA (R349-R351; 03 R104-R106) -/

def State.tileAt (s : State) (q tile row col : Nat) : Word32 := rd 0 s.tiles (tileKey q tile row col)
def State.macAt (s : State) (q mac col k : Nat) : Byte := rd 0 s.macs (macKey q mac col k)

/-- R349: one K-block's A operand for a row, by format: what the element product needs. -/
inductive ABlock where
  | invalid
  | xb (ha la : Nat) (els : List (Bool × Bool × Nat))   -- selector, sign, magnitude
  | int (els : List Int)
  | bf (e : Int) (els : List Int)
deriving DecidableEq, Repr

/-- A row's K-block read from the A image. -/
def aBlock (t : Team) (fmt : Fmt) (o row kb : Nat) : ABlock :=
  let rb := aRowBytes fmt
  let bs := t.scratchBytes (o + rb * row + kb * (rb / 4)) (rb / 4)
  match fmt with
  | .s8 => .int (bs.map BitVec.toInt)
  | .bf16 =>
    match alignBlock ((List.range 32).map (fun k => BitVec.ofNat 32 (ofBytes (listAt bs (2 * k) 2)))) with
    | none => .invalid
    | some (e, l) => .bf e l
  | f =>
    let b := blockFmt (xbEfmt f)
    let r := ofBytes (t.scratchBytes (o + 64 * rb + 8 * row + 2 * kb) 2)
    if recInvalid r then .invalid
    else .xb (r / 256) (r % 256) ((List.range 32).map (fun i =>
      let x := element b bs i
      (bit x (b.w - 1), bit x (b.w - 2), x % 2 ^ b.f)))

/-- v of one K-block for a column, with its conditions (R104, R106). -/
def State.blockSum (s : State) (q mac : Nat) (fmt : Fmt) (a : ABlock) (col kb : Nat) : FRes :=
  let inv := rd false s.invs (expKey q mac col kb)
  let eb := (rd (0 : BitVec 9) s.exps (expKey q mac col kb)).toInt
  if inv then ⟨fnan fp32, NV⟩
  else
    match a with
    | .invalid | .int _ => ⟨fnan fp32, NV⟩
    | .xb ha la els =>
      let ps := els.zipIdx.map (fun p =>
        let v := (p.1.2.2 : Int) * (s.macAt q mac col (32 * kb + p.2)).toInt
        (p.1.1, if p.1.2.1 then -v else v))
      let hi := (ps.map (fun p => if p.1 then p.2 else 0)).sum
      let lo := (ps.map (fun p => if p.1 then 0 else p.2)).sum
      let f : Int := (blockFmt (xbEfmt fmt)).f
      let term (x : Int) (e : Nat) : Term := ⟨decide (x < 0), x.natAbs, (e : Int) - 127 - f + eb⟩
      let (m, e) := sumTerms [term hi ha, term lo la]
      rndDy fp32 .rne false m e
    | .bf ea els =>
      let b (k : Nat) : Int := ((s.macAt q (mac + 1) col k ++ s.macAt q mac col k : BitVec 16)).toInt
      let m := (els.zipIdx.map (fun p => p.1 * b (32 * kb + p.2))).sum
      rndDy fp32 .rne false m (ea - 14 + eb - 14)

/-- One element after its four K-blocks, with the conditions it raised. -/
def State.mmaElement (s : State) (q mac : Nat) (fmt : Fmt) (as : List ABlock) (col : Nat) (acc : Word32) : FRes :=
  as.zipIdx.foldl (fun r a =>
    match a.1 with
    | .int els =>
      if rd false s.invs (expKey q mac col a.2) then r
      else
        let d := (els.zipIdx.map (fun p => p.1 * (s.macAt q mac col (32 * a.2 + p.2)).toInt)).sum
        ⟨r.val + BitVec.ofInt 32 d, r.fl⟩
    | x =>
      let v := s.blockSum q mac fmt x col a.2
      let y := fadd fp32 .rne r.val v.val
      ⟨y.val, r.fl ||| v.fl ||| y.fl⟩) ⟨acc, 0⟩

def compatible (fmt : Fmt) (a b : MacTag) : Bool :=
  match fmt with
  | .s8 => a == .int8
  | .bf16 => a == .bf16lo && b == .bf16hi
  | _ => a == .xb

/-- One row of one tile. -/
def State.mmaRow (s : State) (t : Team) (q : Nat) (o : MxOp) (ix row : Nat) : State :=
  let as := kBlocks.map (aBlock t o.fmt (o.addr.toNat - scratchBase) row)
  let res : List FRes := (List.range 128).map (fun c => s.mmaElement q (o.macAt ix) o.fmt as c (s.tileAt q (o.ti + ix) row c))
  let s1 : State := { s with tiles := (res.zipIdx).foldl (fun (m : AMap Word32) (r : FRes × Nat) => wr 0 m (tileKey q (o.ti + ix) row r.2) r.1.val) s.tiles }
  { s1 with mxOps := s1.mxOps.map (fun p => if p.id = o.id then { p with flags := (res.foldl (fun f r => f ||| r.fl) p.flags) } else p) }

/-- Every tile of an MMA (R350). -/
def State.mmaAll (s : State) (t : Team) (q : Nat) (o : MxOp) : State :=
  (List.range o.n).foldl (fun (s : State) ix =>
    let tag (j : Nat) : MacTag := rd .none s.tags (q * 8 + j)
    if compatible o.fmt (tag (o.macAt ix)) (tag (o.macAt ix + 1)) then
      (maskLanes o.rows).foldl (fun s row => s.mmaRow t q o ix row) s
    else
      let s : State := { s with mxOps := s.mxOps.map (fun p => if p.id = o.id then { p with flags := p.flags ||| NV } else p) }
      s.err (s.launchOf o.gid) errMXFMT) s

/-- MZERO (R348). -/
def State.mzeroAll (s : State) (q : Nat) (o : MxOp) : State :=
  { s with tiles := o.tiles.foldl (fun m t => (maskLanes o.rows).foldl (fun m row =>
      (List.range 128).foldl (fun m c => wr 0 m (tileKey q t row c) 0) m) m) s.tiles }

/-! ### The sequencer (R343, R344, R356, R358) -/

def MxOp.begun (o : MxOp) : Bool :=
  match o.stage with
  | .queued | .linked => false
  | _ => true
/-- An operation still holds its macros and tiles. -/
def MxOp.holds (o : MxOp) : Bool := o.begun && o.stage != .finished

/-- Whether an operation may start (R343, R354, R356). -/
def State.mxReady (s : State) (o : MxOp) (g : Group) : Bool :=
  let sameQ (p : MxOp) : Bool := match s.group p.gid with
    | some h => h.quarterId == g.quarterId && !h.saved
    | none => false
  let meets (a b : List Nat) : Bool := a.any b.contains
  o.stage == .queued && !g.saved &&
    !(s.mxOps.any (fun p =>
      (p.gid = o.gid && p.id < o.id) ||
      (p.id != o.id && sameQ p && p.holds && (meets p.macros o.macros || meets p.tiles o.tiles)) ||
      (p.id != o.id && sameQ p && o.bar.isSome && p.bar == o.bar && !p.begun &&
        (match s.group p.gid with
          | some h => h.tid == g.tid && h.ix < g.ix
          | none => false))))

/-- MATRIX_OP_START: the sequencer starts an operation. MLDB reads and loads its columns; MZERO and MMA change their rows. A
drain, if there is one, starts by itself. -/
def execMatrixOpStart (op : Nat) (s : State) : Out :=
  match s.mxOps.find? (fun o => o.id = op) with
  | none => .next s
  | some o =>
    match s.group o.gid, s.actx o.gid with
    | some g, some c =>
      match s.team g.tid with
      | none => .next s
      | some t =>
        if !(s.mxReady o g) then .next s
        else
          let q := g.quarterId
          let narrow := (s.die g.die).alarm
          let s := { s with narrow := wr false s.narrow q narrow }
          let o := { o with stage := .running, narrow := narrow }
          let s := s.setMx o
          match o.kind with
          | .mldb => .next (s.loadColumns c q o o.columns)
          | .mzero => .next ((s.mzeroAll q o).setMx { o with stage := .finished })
          | .mma =>
            let s := s.mmaAll t q o
            .next { s with mxOps := s.mxOps.map (fun p => if p.id = op then { p with stage := if o.den then .running else .finished } else p) }
          | .mdrn => .next s
    | _, _ => .next s

/-- MATRIX_OP_COMPLETE: MX falls in issue order, and the operation's conditions reach MXFLAGS (R344, R357). -/
def execMatrixOpComplete (op : Nat) (s : State) : Out :=
  match s.mxOps.find? (fun o => o.id = op) with
  | none => .next s
  | some o =>
    if o.stage ≠ .finished then .next s
    else
      let s := if o.narrow then s.perfOf o.gid 8 else s
      let s := (s.perfOf o.gid 7).updGroup o.gid (fun g => { g.finOp op with mxFlags := g.mxFlags ||| o.flags })
      .next { s with mxOps := s.mxOps.filter (fun p => p.id != op) }

/-- LINKED_OP_RELEASE: the phase of a linked operation's arrival has completed (R356; 19 R413). -/
def execLinkedOpRelease (op : Nat) (s : State) : Out :=
  match s.mxOps.find? (fun o => o.id = op) with
  | none => .next s
  | some o =>
    match s.group o.gid, o.bar with
    | some g, some w =>
      if o.stage = .linked ∧ !g.saved ∧ s.barsDone g [w] then .next (s.setMx { o with stage := .queued }) else .next s
    | _, _ => .next s

end Sys2Proof.Machine
end

