-- ==== Sys2Proof/Machine/DrainProg.lean ====
section
/-!
DEFINITION. The drain store, drain starts and drain words (16 R359-R371; 15 R350, R353). DLOAD, DLOAD_COMPLETE, DRAIN_START.
-/
namespace Sys2Proof.Machine

/-! ### DLOAD (R360; 02 R74) -/

def execDload (t : SReg) (slot : BitVec 6) (a : SReg) (s : State) : Out :=
  s.engineWord t a 1 (some .mx) (fun _ => true) (fun s id gid g d =>
    { s with dlOps := s.dlOps ++ [{ id := id, gid := gid, token := t, addr := nth 0 d 0, slot := slot.toNat, parkSet := none, pc := g.apc }] })

/-- A DLOAD ends. -/
def State.endDload (s : State) (o : DlOp) (v : Word64) : State :=
  { s.endCommand o.gid o.id o.token v with dlOps := s.dlOps.filter (fun p => p.id != o.id) }

def slotKey (cid slot : Nat) : Nat := 64 * cid + slot
/-- The drain words of 64 bytes. -/
def imageWords (bs : List Byte) : List DrainWord := (List.range 32).map (fun i => BitVec.ofNat 16 (ofBytes (listAt bs (2 * i) 2)))

/-- DLOAD_COMPLETE: the image is read, checked and placed (R360). A bad image pushes a record that parks nothing (02 R74). -/
def execDloadComplete (op : Nat) (s : State) : Out :=
  match s.dlOps.find? (fun o => o.id = op) with
  | none => .next s
  | some o =>
    match s.group o.gid, s.actx o.gid with
    | some g, some c =>
      let key := slotKey g.coreId o.slot
      let busy := match look s.drainStore key with
        | some x => x.full && x.owner != g.tid
        | none => false
      if o.parkSet.isSome ∨ g.saved then .next s
      else if o.addr.toNat % 64 ≠ 0 then .next (s.endDload o (errorValue codeBADARG))
      else if busy then .next (s.endDload o (errorValue codeSLOTBUSY))
      else
        match s.engRead c o.addr 64 with
        | .held => .next s
        | .fault f =>
          let (s, set) := s.engineFault o.gid .dload f o.pc 0 o.slot (.dload op)
          .next { s with dlOps := s.dlOps.map (fun p => if p.id = op then { p with parkSet := some set } else p) }
        | .ok s bs st =>
          if st ≠ .ok then .next ((s.memError (s.launchOf o.gid) st).endDload o (errorValue codeMEMERR))
          else
            let img := imageWords bs
            match drainImageBad img 0 with
            | some i =>
              let s := { s with drainStore := del s.drainStore key }
              let (s, _) := s.pushFaults [{ s.frec o.gid .engine .dload .illop 0 0 o.addr o.pc .nothing with
                estate := BitVec.ofNat 192 (o.slot + 64 * i), info := true }]
              .next (s.endDload o (errorValue codeBADIMAGE))
            | none =>
              .next (({ s with drainStore := put s.drainStore key { full := true, owner := g.tid, image := img } }).endDload o 0)
    | _, _ => .next s

/-! ### Drain start (R361-R363) -/

/-- The descriptor's fields (R362 Table 2). -/
structure DrainDesc where
  mask : VAddr
  w1 : VAddr
  w0 : VAddr
  c1 : VAddr
  c0 : VAddr
  stride1 : Int
  stride0 : Int
  out1 : VAddr
  out0 : VAddr
deriving DecidableEq, Repr

def drainDesc (bs : List Byte) : DrainDesc :=
  let d (i : Nat) : VAddr := BitVec.ofNat 64 (ofBytes (listAt bs (8 * i) 8))
  let s (i : Nat) : Int := (BitVec.ofNat 32 (ofBytes (listAt bs (4 * i) 4))).toInt
  { out0 := d 0, out1 := d 1, stride0 := s 4, stride1 := s 5, c0 := d 3, c1 := d 4, w0 := d 5, w1 := d 6, mask := d 7 }

/-- Element sizes of STORE formats (R367). -/
def storeSize (f : Nat) : Nat :=
  match f with
  | 0 | 3 => 4
  | 1 | 2 | 4 | 7 => 2
  | _ => 1

/-- The largest element size that STORE words before the first END give a stream; 1 if there are none. -/
def streamSize (stream : Nat) : List DrainWord → Nat
  | [] => 1
  | x :: r =>
    match decodeDrain x with
    | .ok .drainEnd => 1
    | .ok (.drainStore s _ f) => if s.toNat = stream then max (storeSize f.toNat) (streamSize stream r) else streamSize stream r
    | _ => streamSize stream r

/-- The checks of R363 on the descriptor. -/
def drainDescOk (l : Launch) (n : Nat) (img : List DrainWord) (d : DrainDesc) : Bool :=
  let vec (a : VAddr) (bytes al : Nat) : Bool := a == 0 || (a.toNat % al = 0 && inScratch l a bytes)
  let stream (out : VAddr) (st : Int) (k : Nat) : Bool :=
    out.toNat % streamSize k img = 0 && st % (streamSize k img : Nat) == 0
  vec d.c0 (512 * n) 4 && vec d.c1 (512 * n) 4 && vec d.w0 256 4 && vec d.w1 256 4 && vec d.mask (1024 * n) 1024 &&
    stream d.out0 d.stride0 0 && stream d.out1 d.stride1 1

/-- A vector of FP32 values; address 0 reads +0. -/
def Team.drainVec (t : Team) (a : VAddr) (n : Nat) : List Word32 :=
  if a = 0 then List.replicate n 0
  else
    let bs := t.scratchBytes (a.toNat - scratchBase) (4 * n)
    (List.range n).map (fun i => BitVec.ofNat 32 (ofBytes (listAt bs (4 * i) 4)))

/-- Whether the operation's tile elements are INT32 (R353, R365). -/
def MxOp.intTiles (o : MxOp) : Bool := o.fmt == .s8

/-- A drain at an element: D0 takes it under the operation's reading, D1-D3 are +0 (R364, R365). -/
def State.loadElement (s : State) (q : Nat) (o : MxOp) (d : Drain) : Drain :=
  let x := s.tileAt q (o.ti + d.col / 128) d.row (d.col % 128)
  let v : FRes := if o.intTiles then fOfInt fp32 .rne false x.toInt else ⟨x, 0⟩
  { d with d0 := v.val, d1 := 0, d2 := 0, d3 := 0, word := 0, flags := d.flags ||| v.fl }

/-- The drain ends before its first element, or at the element reached; its tiles are released (R363, R370, R371). -/
def State.endDrain (s : State) (o : MxOp) (fl : BitVec 5) : State :=
  { s.setMx { o with stage := .finished, flags := o.flags ||| fl, parkSet := none } with drains := del s.drains o.id }

/-- DRAIN_START. -/
def execDrainStart (op : Nat) (s : State) : Out :=
  match s.mxOps.find? (fun o => o.id = op) with
  | none => .next s
  | some o =>
    match s.where' o.gid with
    | none => .next s
    | some (g, t, l) =>
      let has : Bool := match o.kind with
        | .mdrn => true
        | .mma => o.den
        | _ => false
      if o.stage ≠ .running ∨ !has ∨ g.saved then .next s
      else
        let bad : State := (s.err (some t.launch) errDRAINBAD).endDrain o 0
        match look s.drainStore (slotKey g.coreId o.slot) with
        | none => .next bad
        | some sl =>
          if !sl.full ∨ sl.owner ≠ g.tid ∨ o.desc.toNat % 64 ≠ 0 ∨ !(inScratch l o.desc 64) then .next bad
          else
            let d := drainDesc (t.scratchBytes (o.desc.toNat - scratchBase) 64)
            if !(drainDescOk l o.n sl.image d) then .next bad
            else
              let dr : Drain :=
                { op := op, image := sl.image, c0 := t.drainVec d.c0 (128 * o.n), c1 := t.drainVec d.c1 (128 * o.n),
                  w0 := t.drainVec d.w0 64, w1 := t.drainVec d.w1 64,
                  mask := if d.mask = 0 then List.replicate (1024 * o.n) 0xFF
                    else t.scratchBytes (d.mask.toNat - scratchBase) (1024 * o.n),
                  out0 := d.out0.toNat, out1 := d.out1.toNat, str0 := d.stride0, str1 := d.stride1, row := lowLane o.rows,
                  col := 0, word := 0, d0 := 0, d1 := 0, d2 := 0, d3 := 0, hold := [], flags := 0 }
              .next { s.setMx { o with stage := .draining } with
                drains := put s.drains op (s.loadElement g.quarterId o dr) }

/-! ### Drain words (R366-R368) -/

/-- The drain that executes its next word. -/
def State.drainIssuer (s : State) : Option (Drain × MxOp × Group) :=
  match s.focus with
  | .drain op => s.drainLive op
  | _ => none

def Drain.get (d : Drain) (n : BitVec 2) : Word32 :=
  match n.toNat with
  | 0 => d.d0
  | 1 => d.d1
  | 2 => d.d2
  | _ => d.d3
def Drain.set (d : Drain) (n : BitVec 2) (x : Word32) : Drain :=
  match n.toNat with
  | 0 => { d with d0 := x }
  | 1 => { d with d1 := x }
  | 2 => { d with d2 := x }
  | _ => { d with d3 := x }
/-- A source code (R365). -/
def Drain.src (d : Drain) (c : BitVec 3) : Word32 :=
  match c.toNat with
  | 4 => nth 0 d.c0 d.col
  | 5 => nth 0 d.c1 d.col
  | 6 => nth 0 d.w0 d.row
  | 7 => nth 0 d.w1 d.row
  | n => d.get (BitVec.ofNat 2 n)
/-- The mask bit of the element (R362). -/
def Drain.maskBit (d : Drain) : Bool :=
  (nth (0 : Byte) d.mask (1024 * (d.col / 128) + 16 * d.row + d.col % 128 / 8)).getLsbD (d.col % 8)

/-- A word that writes D with a value and conditions of the drain's registers. -/
def State.drainOp (s : State) (dst : BitVec 2) (f : Drain → FRes) : Out :=
  match s.drainIssuer with
  | none => .fault .noIssuer
  | some (d, o, _) =>
    let r := f d
    .next { s with drains := put s.drains o.id { d.set dst r.val with flags := d.flags ||| r.fl, word := d.word + 1 } }

def execDrainAdd (d : BitVec 2) (a b : BitVec 3) (s : State) : Out := s.drainOp d (fun x => fadd fp32 .rne (x.src a) (x.src b))
def execDrainMul (d : BitVec 2) (a b : BitVec 3) (s : State) : Out := s.drainOp d (fun x => fmul fp32 .rne (x.src a) (x.src b))
def execDrainMad (d : BitVec 2) (a b : BitVec 3) (s : State) : Out :=
  s.drainOp d (fun x => ffma fp32 .rne (x.src a) (x.src b) (x.get d))
def execDrainMax (d : BitVec 2) (a b : BitVec 3) (s : State) : Out := s.drainOp d (fun x => fminmax fp32 true (x.src a) (x.src b))
def execDrainMin (d : BitVec 2) (a b : BitVec 3) (s : State) : Out := s.drainOp d (fun x => fminmax fp32 false (x.src a) (x.src b))
def execDrainClamp (d : BitVec 2) (a b : BitVec 3) (s : State) : Out :=
  s.drainOp d (fun x => fclamp fp32 (x.get d) (x.src a) (x.src b))
/-- RELU: a if a > 0, the canonical NaN for a NaN, else +0. -/
def reluOf (a : Word32) : FRes :=
  match fdec fp32 a with
  | .nan sig => ⟨fnan fp32, if sig then NV else 0⟩
  | v => if v.sgn || v.isZero then ⟨0, 0⟩ else ⟨a, 0⟩
def execDrainRelu (d : BitVec 2) (a : BitVec 3) (s : State) : Out := s.drainOp d (fun x => reluOf (x.src a))
def drainFnOf (f : BitVec 3) : Fn :=
  match f.toNat with
  | 0 => .gelu
  | 1 => .exp2
  | 2 => .exp
  | 3 => .tanh
  | _ => .sigmoid
def execDrainFn (d : BitVec 2) (a f : BitVec 3) (s : State) : Out := s.drainOp d (fun x => ffn fp32 (drainFnOf f) .rne (x.src a))
/-- The conditions of SEL. -/
def Drain.cond (x : Drain) (d : BitVec 2) (f : BitVec 3) : Bool :=
  match f.toNat with
  | 0 => x.maskBit
  | 1 => !x.maskBit
  | 2 => (fcmp fp32 4 (x.get d) 0).1
  | _ => (fdec fp32 (x.get d)).isNan
def execDrainSel (d : BitVec 2) (a b f : BitVec 3) (s : State) : Out :=
  s.drainOp d (fun x => ⟨if x.cond d f then x.src a else x.src b, 0⟩)
def drainConstOf (f : BitVec 3) : Word32 :=
  match f.toNat with
  | 0 => 0
  | 1 => 0x3F800000
  | 2 => 0xFF800000
  | 3 => 0x7F800000
  | 4 => 0xBF800000
  | _ => 0x3F000000
def execDrainConst (d : BitVec 2) (f : BitVec 3) (s : State) : Out := s.drainOp d (fun _ => ⟨drainConstOf f, 0⟩)
def execDrainMov (d : BitVec 2) (a : BitVec 3) (s : State) : Out := s.drainOp d (fun x => ⟨x.src a, 0⟩)

/-- END: the next element, or the end of the drain (R365, R344). -/
def execDrainEnd (s : State) : Out :=
  match s.drainIssuer with
  | none => .fault .noIssuer
  | some (d, o, g) =>
    let go (d : Drain) : Out := .next { s with drains := put s.drains o.id (s.loadElement g.quarterId o d) }
    if d.col + 1 < 128 * o.n then go { d with col := d.col + 1 }
    else
      match (maskLanes o.rows).find? (fun r => d.row < r) with
      | some r => go { d with row := r, col := 0, hold := [] }
      | none => .next (s.endDrain o d.flags)

/-- A store's fault (R370): its record holds the cursor; one that is not serviced ends the drain with DRAINBAD, another parks it at
the cursor column. -/
def State.drainFault (s : State) (o : MxOp) (d : Drain) (col : Nat) (f : XFault) : State :=
  let ends : Bool := f.cause = .align ∨ (f.cause = .perm ∧ (f.sub = 8 ∨ f.sub = 6))
  let (s, set) := s.engineFault o.gid .drain f o.pc o.index (o.ti + 8 * o.n + 128 * d.row + 8192 * col)
    (if ends then .nothing else .mx o.id)
  if ends then (s.err (s.launchOf o.gid) errDRAINBAD).endDrain o d.flags
  else
    { s.setMx { o with stage := .drainParked, parkSet := some set } with
      drains := put s.drains o.id { d with col := col, word := 0, hold := [] } }

/-- Conversion of STORE (R367). -/
def storeValue (f : BitVec 3) (a : Word32) : Nat × BitVec 5 :=
  let int (lo hi : Int) (w : Nat) : Nat × BitVec 5 :=
    let (x, fl) := fToInt fp32 .rne lo hi a
    ((BitVec.ofInt w x).toNat, fl)
  let flt (r : FRes) : Nat × BitVec 5 := (r.val.toNat, r.fl)
  match f.toNat with
  | 0 => (a.toNat, 0)
  | 1 => flt (fcvt fp32 fp16 .rne false a)
  | 2 => flt (fcvt fp32 bfp16 .rne false a)
  | 3 => int (-(2 ^ 31)) (2 ^ 31 - 1) 32
  | 4 => int (-32768) 32767 16
  | 5 => int (-128) 127 8
  | 6 => int 0 255 8
  | _ => int 0 65535 16

/-- Address of a stream's element or block: base + row × stride + offset. -/
def Drain.outAddr (d : Drain) (stream : BitVec 1) (off : Nat) : VAddr :=
  BitVec.ofInt 64 ((if stream = 0 then (d.out0 : Int) + d.row * d.str0 else (d.out1 : Int) + d.row * d.str1) + off)

/-- The drain of a core: its words after a word that changed only flags. -/
def State.drainNext (s : State) (o : MxOp) (d : Drain) (fl : BitVec 5) : State :=
  { s with drains := put s.drains o.id { d with flags := d.flags ||| fl, word := d.word + 1 } }

def execDrainStore (stream : BitVec 1) (a f : BitVec 3) (s : State) : Out :=
  match s.drainIssuer with
  | none => .fault .noIssuer
  | some (d, o, _) =>
    match s.actx o.gid with
    | none => .next s
    | some c =>
      let (v, fl) := storeValue f (d.src a)
      let n := storeSize f.toNat
      let va := d.outAddr stream (d.col * n)
      match s.formatCheck c .write va 0 with
      | some x => .next (s.drainFault o d d.col x)
      | none =>
        match s.engWrite c va (toBytes v n) with
        | .held => .next s
        | .fault x => .next (s.drainFault o d d.col x)
        | .ok s _ st => .next ((s.memError (s.launchOf o.gid) st).drainNext o d fl)

/-- The block of a STOREB and its record (R368): both pass translation before either is written. -/
def State.storeBlock (s : State) (c : Actx) (efmt : Nat) (va : VAddr) (xs : List FVal) : Eng (BitVec 5) :=
  match s.translate c .write true va with
  | .error f => .fault f
  | .ok (s1, t) =>
    if t.efmt ≠ efmt then .fault ⟨.perm, 8, 0, va⟩
    else if !(isBlockStart efmt (va.toNat % 4096)) then .fault ⟨.align, 1, 0, va⟩
    else
      match s1.scaleEntry c.part t.tid va with
      | .error f => .fault f
      | .ok (u0, sbase) =>
        let ra := recordAddr efmt u0 sbase va
        match s1.translate c .write false ra with
        | .error f => .fault f
        | .ok (s2, r) =>
          if s2.placeHeld t.place || s2.placeHeld r.place then .held
          else
            let (bytes, rec', fl) := encodeBlock (blockFmt efmt) t.gap xs
            let s3 := (s2.putBytes c t.place t.key false bytes).putBytes c r.place r.key false (toBytes rec' 2)
            let bad (p : Place) (k : Nat) : Bool := s2.statusOf p k == .keyRev
            .ok s3 (fl.foldl (fun x y => x ||| y) 0) (if bad t.place t.key || bad r.place r.key then .keyRev else .ok)

def execDrainStoreb (stream : BitVec 1) (a f : BitVec 3) (s : State) : Out :=
  match s.drainIssuer with
  | none => .fault .noIssuer
  | some (d, o, _) =>
    match s.actx o.gid with
    | none => .next s
    | some c =>
      let d := { d with hold := put d.hold (32 * d.word + d.col % 32) (d.src a) }
      if d.col % 32 ≠ 31 then .next (s.drainNext o d 0)
      else
        let xs := (List.range 32).map (fun i => fdec fp32 (rd 0 d.hold (32 * d.word + i)))
        let va := d.outAddr stream (d.col / 32 * (blockFmt f.toNat).bytes)
        match s.storeBlock c f.toNat va xs with
        | .held => .next s
        | .fault x => .next (s.drainFault o d (d.col / 32 * 32) x)
        | .ok s fl st => .next ((s.memError (s.launchOf o.gid) st).drainNext o d fl)

end Sys2Proof.Machine
end

