-- ==== Sys2Proof/Machine/Queues.lean ====
section
/-!
DEFINITION. Engines that access words command: AGE streams, the copy engine and collectives (17 R376-R386, R392).
-/
namespace Sys2Proof.Machine

/-- A 57-bit address from an integer, sign-extended. -/
def addr57 (x : Int) : VAddr := (BitVec.ofInt 57 x).signExtend 64

/-- A value that no rule states, with bit 63 clear (log 28). -/
def State.freeValue (s : State) (x : Nat) : Word64 :=
  BitVec.ofNat 64 (ofBytes ((List.range 8).map (Config.freeByte (s.salt (2 ^ 74 + x)))) % 2 ^ 63)

/-! ### AGE streams (R376-R380) -/

def Age.reset : Age :=
  { st := .idle, base := 0, len := 0, size := 0, queue := 0, next := 0, token := 0xFF, bad := false, halt := false, err := none,
    pc := 0, parkSet := none }
def Group.ageOf (g : Group) (x : Nat) : Age := (look g.age x).getD Age.reset
def Group.setAge (g : Group) (x : Nat) (a : Age) : Group := { g with age := put g.age x a }
def Age.busy (a : Age) : Bool := a.st == .run || a.st == .park

def execAgset (z q x : BitVec 2) (a : SReg) (s : State) : Out :=
  s.engineWord 0xFF a 2 none (fun g => !(g.ageOf x.toNat).busy) (fun s _ gid _ d =>
    s.updGroup gid (fun g =>
      let b := nth 0 d 0
      let n := nth 0 d 1
      g.setAge x.toNat { g.ageOf x.toNat with
        st := .set, base := (b.setWidth 57).toNat, len := (n.setWidth 40).toNat, size := z.toNat, queue := q.toNat,
        bad := decide (b.toNat / 2 ^ 57 ≠ 0 ∨ n.toNat / 2 ^ 40 ≠ 0) }))

def execAggo (t : SReg) (x : BitVec 2) (s : State) : Out :=
  s.engineWord t 0xFF 0 none (fun g => !(g.ageOf x.toNat).busy) (fun s _ gid g0 _ =>
    s.updGroup gid (fun g =>
      let a := g.ageOf x.toNat
      g.setAge x.toNat { a with st := .run, next := 0, token := t, bad := a.bad || a.st == .idle, halt := false, err := none,
                                pc := g0.apc }))

def execAghalt (x : BitVec 2) (s : State) : Out :=
  s.engineWord 0xFF 0xFF 0 none (fun _ => true) (fun s _ gid _ _ =>
    s.updGroup gid (fun g =>
      let a := g.ageOf x.toNat
      if a.st = .run then g.setAge x.toNat { a with halt := true } else g))

/-- Whether the stream ends with BADARG (R378). -/
def Age.badArg (a : Age) : Bool := a.bad || a.len == 0 || a.base % 2 ^ a.size != 0

/-- The values of an entry, lane by lane; a lane whose read met uncorrectable data has 0xFFFF_FFFF (R378, R379). -/
def State.ageReads (s : State) (c : Actx) (a : Age) : List Nat → Eng (List Word32)
  | [] => .ok s [] .ok
  | k :: r =>
    if a.len ≤ k then
      match s.ageReads c a r with
      | .ok s l st => .ok s (0 :: l) st
      | x => x
    else
      match s.engRead c (addr57 ((a.base + k * 2 ^ a.size : Nat) : Int)) (2 ^ a.size) with
      | .held => .held
      | .fault f => .fault f
      | .ok s1 bs st =>
        match s1.ageReads c a r with
        | .ok s2 l st2 => .ok s2 ((if st = .ok then BitVec.ofNat 32 (ofBytes bs) else BitVec.allOnes 32) :: l) (if st = .ok then st2 else st)
        | x => x

/-- AGE_ENTRY: one entry is read and placed (R378, R379). -/
def execAgeEntry (gid stream : Nat) (s : State) : Out :=
  match s.group gid, s.actx gid with
  | some g, some c =>
    let a := g.ageOf stream
    if a.st ≠ .run ∨ a.badArg ∨ a.halt ∨ a.err.isSome ∨ a.len ≤ a.next ∨ g.queueFull a.queue ∨ g.saved ∨ g.lanesGone then .next s
    else
      match s.ageReads c a (from' a.next 64) with
      | .held => .next s
      | .fault f =>
        let (s, set) := s.engineFault gid .age f a.pc 0 (stream + 4 * a.queue + 16 * a.next) (.age gid stream)
        .next (s.updGroup gid (fun g => g.setAge stream { a with st := .park, parkSet := some set }))
      | .ok s vs st =>
        let s := s.memError (s.launchOf gid) st
        .next (s.updGroup gid (fun g => (g.enqueue a.queue vs).setAge stream { a with next := min (a.next + 64) a.len }))
  | _, _ => .next s

/-- The end of a stream: its token is written, or an error without a token sets AGEBAD (R378). -/
def State.endAge (s : State) (gid stream : Nat) (a : Age) (err : Option Nat) : State :=
  let v : Word64 := match err with
    | some e => errorValue e
    | none => BitVec.ofNat 64 (a.next + if a.halt then 2 ^ 62 else 0)
  let s := if err.isSome ∧ a.token = 0xFF then s.err (s.launchOf gid) errAGEBAD else s
  s.updGroup gid (fun g =>
    (if a.token = 0xFF then g else g.putS a.token.toNat v).setAge stream { a with st := .set, token := 0xFF, err := none, parkSet := none })

/-- AGE_STREAM_END. -/
def execAgeStreamEnd (gid stream : Nat) (s : State) : Out :=
  match s.group gid with
  | none => .next s
  | some g =>
    let a := g.ageOf stream
    if a.st ≠ .run ∨ g.saved ∨ g.lanesGone then .next s
    else if a.err.isSome then .next (s.endAge gid stream a a.err)
    else if a.badArg then .next (s.endAge gid stream a (some codeBADARG))
    else if a.halt ∨ a.len ≤ a.next then .next (s.endAge gid stream a none)
    else .next s

/-! ### Copy engine (R381-R383) -/

def execCpnd (t a : SReg) (s : State) : Out :=
  s.engineWord t a 8 (some .cp) (fun _ => true) (fun s id gid g d =>
    { s with cpOps := s.cpOps ++ [{ id := id, gid := gid, token := t, desc := d, written := 0, parkSet := none, pc := g.apc }] })

/-- A CPND descriptor, R381 Table 3. -/
structure CpDesc where
  op : Nat
  size : Nat
  src : Nat
  dst : Nat
  param : Nat
  n : List Nat
  ss : List Int
  ds : List Int
  reserved : Bool
deriving DecidableEq, Repr

def cpDesc (d : List Word64) : CpDesc :=
  let r (i : Nat) : Word64 := nth 0 d i
  let lv (f : Word64 → Int) : List Int := (List.range 5).map (fun v => f (r (3 + v)))
  let op := bits (r 0).toNat 61 59
  { op := op, size := 2 ^ bits (r 0).toNat 58 57, src := bits (r 0).toNat 56 0, dst := bits (r 1).toNat 56 0,
    param := (r 2).toNat, n := (List.range 5).map (fun v => bits (r (3 + v)).toNat 15 0 + 1),
    ss := lv (fun x => (x.extractLsb' 16 24).toInt), ds := lv (fun x => (x.extractLsb' 40 24).toInt),
    reserved := decide (bits (r 0).toNat 63 62 ≠ 0 ∨ bits (r 1).toNat 63 57 ≠ 0 ∨ ((op = 0 ∨ op = 1) ∧ r 2 ≠ 0) ∨
      (op = 3 ∧ bits (r 2).toNat 63 57 ≠ 0)) }

/-- The number of elements. -/
def CpDesc.total (d : CpDesc) : Nat := d.n.foldl (· * ·) 1
/-- BADARG (R382). -/
def CpDesc.bad (d : CpDesc) : Bool :=
  d.reserved || 4 ≤ d.op || d.src % d.size != 0 || d.dst % d.size != 0 || (d.op == 3 && d.param % 4 != 0) || 2 ^ 48 ≤ d.total

/-- The iteration vector of element p in walk order: level 0 innermost, or level 1 for TRANSPOSE. -/
def CpDesc.vec (d : CpDesc) (p : Nat) : List Nat :=
  let n (v : Nat) : Nat := nth 1 d.n v
  if d.op = 1 then [p / n 1 % n 0, p % n 1, p / (n 0 * n 1) % n 2, p / (n 0 * n 1 * n 2) % n 3, p / (n 0 * n 1 * n 2 * n 3) % n 4]
  else [p % n 0, p / n 0 % n 1, p / (n 0 * n 1) % n 2, p / (n 0 * n 1 * n 2) % n 3, p / (n 0 * n 1 * n 2 * n 3) % n 4]

def dotInts (i : List Nat) (w : List Int) : Int := ((i.zip w).map (fun p => (p.1 : Int) * p.2)).sum
/-- The linear index of (i1 .. i4), i1 fastest. -/
def CpDesc.gatherIndex (d : CpDesc) (i : List Nat) : Nat :=
  let n (v : Nat) : Nat := nth 1 d.n v
  nth 0 i 1 + n 1 * (nth 0 i 2 + n 2 * (nth 0 i 3 + n 3 * nth 0 i 4))

/-- Where an element faulted. -/
structure CpFault where
  f : XFault
  write : Bool
  index : Bool
deriving DecidableEq, Repr

/-- Outcome of one element: held, a fault, or the next state. -/
inductive CpStep where
  | held
  | fault (x : CpFault)
  | ok (s : State)

/-- A byte string read for an element. `old` is the state before the walk: where source and destination overlap, the element
holds the bytes before the command or as an earlier element wrote them; which of the two is free (R382; log 30). -/
def State.cpRead (s old : State) (c : Actx) (va : VAddr) (n p : Nat) : Eng (List Byte) :=
  match s.engRead c va n, old.engRead c va n with
  | .ok s1 bs st, .ok _ os ost =>
    let early := Config.coin (s.salt (2 ^ 75 + p)) && ost == st
    .ok s1 ((bs.zip os).map (fun x => if early then x.2 else x.1)) st
  | x, _ => x

/-- The bytes of one element. -/
def State.cpValue (s old : State) (c : Actx) (d : CpDesc) (p : Nat) : Eng (List Byte) × Bool :=
  let i := d.vec p
  let plain (off : Int) (s : State) : Eng (List Byte) := s.cpRead old c (addr57 ((d.src : Int) + d.size * off)) d.size p
  match d.op with
  | 2 =>
    if nth 0 i 0 < bits d.param 47 32 ∧ nth 0 i 1 < bits d.param 63 48 then (plain (dotInts i d.ss) s, false)
    else (.ok s (toBytes (d.param % 2 ^ 32) d.size) .ok, false)
  | 3 =>
    match s.engRead c (addr57 ((d.param % 2 ^ 57 + 4 * d.gatherIndex i : Nat) : Int)) 4 with
    | .held => (.held, true)
    | .fault f => (.fault f, true)
    | .ok s bs st =>
      let ix : Nat := if st = .ok then ofBytes bs else 2 ^ 32 - 1
      match plain ((ix : Int) * nth 0 d.ss 1 + nth 0 i 0 * nth 0 d.ss 0) s with
      | .ok s v st2 => (.ok s v (if st = .ok then st2 else st), false)
      | x => (x, false)
  | _ => (plain (dotInts i d.ss) s, false)

/-- One element of the walk (R382, R383). -/
def State.cpElement (s old : State) (c : Actx) (o : CpOp) (d : CpDesc) (p : Nat) : CpStep :=
  let dst := addr57 ((d.dst : Int) + d.size * dotInts (d.vec p) d.ds)
  match s.cpValue old c d p with
  | (.held, _) => .held
  | (.fault f, ix) => .fault ⟨f, false, ix⟩
  | (.ok s v st, _) =>
    match s.engWrite c dst (if st = .ok then v else List.replicate d.size 0xFF) with
    | .held => .held
    | .fault f => .fault ⟨f, true, false⟩
    | .ok s _ st2 => .ok ((s.memError (s.launchOf o.gid) st).memError (s.launchOf o.gid) st2)

/-- The rest of a walk: k elements from p. Answers where it stands. -/
def State.cpWalk (s old : State) (c : Actx) (o : CpOp) (d : CpDesc) : Nat → Nat → State × Nat × Option CpFault
  | 0, p => (s, p, none)
  | k + 1, p =>
    match s.cpElement old c o d p with
    | .held => (s, p, none)
    | .fault x => (s, p, some x)
    | .ok s => s.cpWalk old c o d k (p + 1)

def State.setCp (s : State) (o : CpOp) : State := { s with cpOps := s.cpOps.map (fun p => if p.id = o.id then o else p) }
def State.endCp (s : State) (o : CpOp) (v : Word64) : State :=
  { s.endCommand o.gid o.id o.token v with cpOps := s.cpOps.filter (fun p => p.id != o.id) }

/-- CPND_COMPLETE: the engine walks the command to its end, or to a fault that parks it (R382, R383). -/
def execCpndComplete (op : Nat) (s : State) : Out :=
  match s.cpOps.find? (fun o => o.id = op) with
  | none => .next s
  | some o =>
    match s.group o.gid, s.actx o.gid with
    | some g, some c =>
      let d := cpDesc o.desc
      if g.saved then .next s
      else if d.bad then .next (s.endCp o (errorValue codeBADARG))
      else if o.parkSet.isSome ∨ s.cpOps.any (fun p => p.gid = o.gid && p.id < op) then .next s
      else
        match s.cpWalk s c o d (d.total - o.written) o.written with
        | (s, p, none) => if p < d.total then .next (s.setCp { o with written := p }) else .next (s.endCp o (BitVec.ofNat 64 p))
        | (s, p, some x) =>
          let i := d.vec p
          let est := nth 0 i 0 + 2 ^ 16 * nth 0 i 1 + 2 ^ 32 * nth 0 i 2 + 2 ^ 48 * nth 0 i 3 + 2 ^ 64 * nth 0 i 4 +
            (if x.write then 2 ^ 80 else 0) + (if x.index then 2 ^ 81 else 0)
          let (s, set) := s.engineFault o.gid .copy x.f o.pc 0 est (.cp op)
          .next (s.setCp { o with written := p, parkSet := some set })
    | _, _ => .next s

/-! ### Collectives (R384-R386) -/

/-- Whether two ranges of addresses meet. -/
def rangesMeet (a n b m : Nat) : Bool := a < b + m && b < a + n

/-- Issue of COLL: the descriptor's own checks, and COLLBUSY (R384). What remains, the member list, is read at the match. -/
def State.collWord (s : State) (t a : SReg) (op : Nat) (bf16 : Bool) : Out :=
  s.engineWord t a 4 (some .cl) (fun _ => true) (fun s id gid g d =>
    let r (i : Nat) : Nat := (nth 0 d i).toNat
    let e := if bf16 then 2 else 4
    let n := bits (r 2) 31 0
    let m := bits (r 2) 41 32
    let cid := bits (r 2) 63 48
    let src := bits (r 0) 56 0
    let dst := bits (r 1) 56 0
    let outLen := match op with
      | 0 => n
      | 1 => n / max 1 m
      | _ => n * m
    let bad : Bool := bits (r 0) 63 57 ≠ 0 ∨ bits (r 1) 63 57 ≠ 0 ∨ bits (r 2) 47 42 ≠ 0 ∨ bits (r 3) 63 57 ≠ 0 ∨ src % e ≠ 0 ∨
      dst % e ≠ 0 ∨ r 3 % 2 ≠ 0 ∨ n = 0 ∨ m < 2 ∨ 512 < m ∨ (op = 1 ∧ n % m ≠ 0) ∨
      (rangesMeet src (e * n) dst (e * outLen) ∧ !(op = 0 ∧ src = dst))
    let part (x : Nat) : Option Nat := (s.where' x).map (fun y => y.2.2.part)
    let busy := s.collOps.any (fun o => o.result.isNone && o.cid = cid && part o.gid == part gid)
    let res : Option Word64 := if bad then some (errorValue codeBADARG) else if busy then some (errorValue codeCOLLBUSY) else none
    let o : CollOp :=
      { id := id, gid := gid, token := t, op := op, bf16 := bf16, src := addr57 src, dst := addr57 dst, n := n, m := m,
        cid := cid, listAddr := addr57 (bits (r 3) 56 0), chips := [], me := 0, out := [], outAt := 0, matched := false,
        parkSet := none, result := res, pc := g.apc }
    { s with collOps := s.collOps ++ [o] })
def execCollAllReduce (t a : SReg) (bf16 : Bool) (s : State) : Out := s.collWord t a 0 bf16
def execCollReduceScatter (t a : SReg) (bf16 : Bool) (s : State) : Out := s.collWord t a 1 bf16
def execCollAllGather (t a : SReg) (bf16 : Bool) (s : State) : Out := s.collWord t a 2 bf16

def State.setColl (s : State) (o : CollOp) : State := { s with collOps := s.collOps.map (fun p => if p.id = o.id then o else p) }

/-- A fault parks this member's part (R386): `e` is the element reached. -/
def State.collFault (s : State) (o : CollOp) (f : XFault) (write : Bool) (e : Nat) : State :=
  let (s, set) := s.engineFault o.gid .coll f o.pc 0 (o.cid + 2 ^ 16 * o.me + (if write then 2 ^ 25 else 0) + 2 ^ 26 * (e % 2 ^ 32)) (FWho.coll o.id)
  s.setColl { o with parkSet := some set }

/-- Elements of e bytes read one after another; a fault answers with the element reached. -/
def State.collReads (s : State) (c : Actx) (e : Nat) : Nat → Nat → VAddr → Except (Option XFault × Nat) (State × List Nat × MemStatus)
  | 0, _, _ => .ok (s, [], .ok)
  | k + 1, i, va =>
    match s.engRead c va e with
    | .held => .error (none, i)
    | .fault f => .error (some f, i)
    | .ok s1 bs st =>
      match s1.collReads c e k (i + 1) (va + BitVec.ofNat 64 e) with
      | .error x => .error x
      | .ok (s2, l, st2) => .ok (s2, ofBytes bs :: l, if st = .ok then st2 else st)

/-- The sum of element e in chunk k, in the order of R385. -/
def collSum (F : FF) (xs : List (List Word32)) (m k e : Nat) : Word32 :=
  let x (j : Nat) : Word32 := nth 0 (nth [] xs (j % m)) e
  (List.range (m - 1)).foldl (fun acc t => (fadd F .rne acc (x (k + t + 2))).val) (x (k + 1))

/-- The destination of member j (R385). -/
def collOut (op : Nat) (F : FF) (xs : List (List Word32)) (m n j : Nat) : List Word32 :=
  match op with
  | 0 => (List.range n).map (fun e => collSum F xs m (e / ceilDiv n m) e)
  | 1 => (List.range (n / m)).map (fun e => collSum F xs m j (j * (n / m) + e))
  | _ => xs.flatMap (fun x => (List.range n).map (fun e => nth 0 x e))

/-- COLL_MATCH: every member has issued; parameters are compared and the results formed (R385). A peer with an empty member list
stands for a member that has departed (R386). -/
def execCollMatch (op : Nat) (peers : List CollPeer) (s : State) : Out :=
  match s.collOps.find? (fun o => o.id = op) with
  | none => .next s
  | some o =>
    match s.actx o.gid with
    | none => .next s
    | some c =>
      if o.result.isSome ∨ o.parkSet.isSome then .next s
      else if peers.any (fun p => p.chips.isEmpty) then .next (s.setColl { o with result := some (errorValue codeCOLLGONE) })
      else if o.matched then .next s
      else
        match s.collReads c 2 o.m 0 o.listAddr with
        | .error (none, _) => .next s
        | .error (some f, i) => .next (s.collFault o f false i)
        | .ok (s1, l, st) =>
          let chips := l.map (· % 512)
          let mine := (chips.zipIdx).filter (fun p => p.1 = Config.chip.toNat)
          let bad : Bool := mine.length ≠ 1 ∨ l.any (fun x => 512 ≤ x) ∨ chips.any (fun x => !Config.partChip c.part x)
          if st ≠ .ok then .next ((s1.memError (s1.launchOf o.gid) st).setColl { o with result := some (errorValue codeMEMERR) })
          else if bad then .next (s1.setColl { o with result := some (errorValue codeBADARG) })
          else
            let me := ((mine.head?).map Prod.snd).getD 0
            let ix := peers.map CollPeer.index
            if ix.length ≠ o.m - 1 ∨ !((List.range o.m).all (fun j => j = me || ix.contains j)) then .next s
            else if peers.any (fun p => p.op ≠ o.op || p.bf16 != o.bf16 || p.n ≠ o.n || p.m ≠ o.m || p.chips != chips) then
              .next (s1.setColl { o with result := some (errorValue codeBADARG) })
            else
              let e := if o.bf16 then 2 else 4
              match s1.collReads c e o.n 0 o.src with
              | .error (none, _) => .next s
              | .error (some f, i) => .next (s1.collFault { o with me := me } f false i)
              | .ok (s2, own, st) =>
                if st ≠ .ok then .next ((s2.memError (s2.launchOf o.gid) st).setColl { o with result := some (errorValue codeMEMERR) })
                else
                  let xs := (List.range o.m).map (fun j =>
                    if j = me then own.map (BitVec.ofNat 32)
                    else ((peers.find? (fun p => p.index = j)).map CollPeer.data).getD [])
                  let F := if o.bf16 then bfp16 else fp32
                  .next (s2.setColl { o with me := me, chips := chips, matched := true, out := collOut o.op F xs o.m o.n me })

/-- Destination elements written one after another, from element i. -/
def State.collWrites (s : State) (c : Actx) (o : CollOp) (e : Nat) : Nat → List Word32 → State × Nat × Option XFault
  | i, [] => (s, i, none)
  | i, x :: r =>
    match s.engWrite c (o.dst + BitVec.ofNat 64 (e * i)) (toBytes x.toNat e) with
    | .held => (s, i, none)
    | .fault f => (s, i, some f)
    | .ok s1 _ st => (s1.memError (s1.launchOf o.gid) st).collWrites c o e (i + 1) r

def State.endColl (s : State) (o : CollOp) (v : Word64) : State :=
  { s.endCommand o.gid o.id o.token v with collOps := s.collOps.filter (fun p => p.id != o.id) }

/-- COLL_COMPLETE: the results are written and the member's command ends (R385, R386). The spec states no completion value. -/
def execCollComplete (op : Nat) (s : State) : Out :=
  match s.collOps.find? (fun o => o.id = op) with
  | none => .next s
  | some o =>
    match o.result, s.actx o.gid with
    | some v, _ => .next (s.endColl o v)
    | none, some c =>
      if !o.matched ∨ o.parkSet.isSome then .next s
      else
        match s.collWrites c o (if o.bf16 then 2 else 4) o.outAt (o.out.drop o.outAt) with
        | (s, i, none) =>
          if i < o.out.length then .next (s.setColl { o with outAt := i }) else .next (s.endColl o (s.freeValue op))
        | (s, i, some f) => .next (s.collFault { o with outAt := i } f true i)
    | none, none => .next s

end Sys2Proof.Machine
end

