-- ==== Sys2Proof/Machine/Tables.lean ====
section
/-!
DEFINITION. Lexicon and grammar images: their layout, their checks, and how a table is read in place (11 R264, R265, R271).
-/
namespace Sys2Proof.Machine

/-- How a table entry is read: `r e o n` is the number that the n bytes at offset o of the entry at offset e hold. -/
abbrev Reader := Nat → Nat → Nat → Nat

/-- A reader of bytes as they stand. -/
def byteReader (m : AMap Byte) : Reader := fun e o n => ofBytes ((from' (e + o) n).map (rd 0 m))

/-- A byte of an image as memory holds it now; the loaded byte where it cannot be read. Tables are read through the L2 (R265). -/
def State.imageNow (s : State) (im : Image) (o : Nat) : Byte :=
  let c : Actx := ⟨im.root, im.part, none, 0, 0, 0⟩
  match s.translate c .read false (im.base + BitVec.ofNat 64 o) with
  | .error _ => rd 0 im.old o
  | .ok (_, t) => s.placeByte c (.strong .system) t.place t.key 0

/-- A loaded table read in place: each entry read sees its bytes as loaded or as memory holds them now (R265; log 33). -/
def State.imageReader (s : State) (im : Image) : Reader := fun e o n =>
  ofBytes ((from' (e + o) n).map (fun i => if Config.coin (s.salt (2 ^ 77 + e)) then s.imageNow im i else rd 0 im.old i))

/-! ### Lexicons (R264 Table 2) -/

structure Lexicon where
  nvocab : Nat
  norm : List (List Byte × List Byte)
  classes : List Nat
  breaks : List (BitVec 16)
  byteTok : List Nat
  merges : List (Nat × Nat × Nat × Nat)   -- left, right, rank, result
  tokBytes : List (List Byte)
  control : List Nat
deriving DecidableEq, Repr

/-- A header word's 32-bit half: the low or the high. -/
def Reader.lo (r : Reader) (w : Nat) : Nat := r (8 * w) 0 4
def Reader.hi (r : Reader) (w : Nat) : Nat := r (8 * w) 4 4
def Reader.nvocab (r : Reader) : Nat := bits (r 0 0 8) 18 0

/-- Offset and length of the token bytes of a token. -/
def Reader.tokSpan (r : Reader) (i : Nat) : Nat × Nat := let x := r (r.lo 5 + 8 * i) 0 8; (r.hi 5 + bits x 31 0, bits x 38 32)

def Reader.lexicon (r : Reader) : Lexicon :=
  { nvocab := r.nvocab,
    norm := (List.range (r.hi 1)).map (fun i =>
      let x := r (r.lo 1 + 16 * i) 0 16
      (toBytes x (bits x 34 32), toBytes (x / 2 ^ 64) (bits x 43 40))),
    classes := (List.range 256).map (fun i => r (r.lo 2 + i) 0 1),
    breaks := (List.range 16).map (fun i => BitVec.ofNat 16 (r (r.hi 2 + 2 * i) 0 2)),
    byteTok := (List.range 256).map (fun i => r (r.lo 3 + 4 * i) 0 4),
    merges := (List.range (r.hi 4)).map (fun i =>
      let x := r (r.lo 4 + 16 * i) 0 16
      (bits x 17 0, bits x 49 32, bits x 95 64, bits x 113 96)),
    tokBytes := (List.range r.nvocab).map (fun i => let p := r.tokSpan i; toBytes (r p.1 0 p.2) p.2),
    control := (List.range (r.hi 6)).map (fun i => r (r.lo 6 + 4 * i) 0 4) }

/-- The sections that the header places: offset and length in bytes. -/
def Reader.lexSections (r : Reader) : List (Nat × Nat) :=
  [(r.lo 1, 16 * r.hi 1), (r.lo 2, 256), (r.hi 2, 32), (r.lo 3, 1024), (r.lo 4, 16 * r.hi 4), (r.lo 5, 8 * r.nvocab),
   (r.lo 6, 4 * r.hi 6)]
/-- The places of the token bytes. -/
def Reader.tokSections (r : Reader) : List (Nat × Nat) := (List.range r.nvocab).map r.tokSpan

/-- A section that runs outside the image: offsets are 32-bit numbers, and no length is given, so an image has 2^32 bytes
(log 34). -/
def outside (l : List (Nat × Nat)) : Bool := l.any (fun p => decide (2 ^ 32 < p.1 + p.2))

/-- Byte strings in dictionary order. -/
def bytesLt : List Byte → List Byte → Bool
  | _, [] => false
  | [], _ :: _ => true
  | a :: r, b :: q => decide (a.toNat < b.toNat) || (a == b && bytesLt r q)

/-- Whether neighbours are in strictly rising order. -/
def rising {α : Type} (lt : α → α → Bool) : List α → Bool
  | a :: b :: r => lt a b && rising lt (b :: r)
  | _ => true

/-- The header's own checks, made before any section is read. -/
def Reader.lexHeaderBad (r : Reader) : Bool :=
  r.nvocab == 0 || decide (262144 < r.nvocab) || r 56 0 8 != 0 || outside r.lexSections
/-- A token length over 64, or a token's bytes outside the image. -/
def Reader.tokensBad (r : Reader) : Bool := r.tokSections.any (fun p => decide (64 < p.2)) || outside r.tokSections

/-- The checks of the sections (R264). -/
def Reader.lexBad (r : Reader) : Bool :=
  let x := r.lexicon
  let id (n : Nat) : Bool := decide (n < x.nvocab)
  let ctl (n : Nat) : Bool := x.control.contains n
  let badNorm (i : Nat) : Bool :=
    let e := r (r.lo 1 + 16 * i) 0 16
    bits e 34 32 == 0 || decide (4 < bits e 34 32) || bits e 39 35 != 0 || decide (8 < bits e 43 40) || bits e 63 44 != 0
  let badMerge (i : Nat) : Bool :=
    let e := r (r.lo 4 + 16 * i) 0 16
    bits e 31 18 != 0 || bits e 63 50 != 0 || bits e 127 114 != 0
  (List.range (r.hi 1)).any badNorm || !(rising bytesLt (x.norm.map Prod.fst)) || x.classes.any (fun c => decide (15 < c)) ||
    x.byteTok.any (fun t => !(id t) || ctl t) || (List.range (r.hi 4)).any badMerge ||
    !(rising (fun (a b : Nat × Nat) => decide (a.1 < b.1 ∨ (a.1 = b.1 ∧ a.2 < b.2))) (x.merges.map (fun m => (m.1, m.2.1)))) ||
    x.merges.any (fun m => !(id m.1) || !(id m.2.1) || !(id m.2.2.2) || ctl m.1 || ctl m.2.1) ||
    x.control.any (fun c => !(id c)) || !(rising (fun (a b : Nat) => decide (a < b)) x.control)

/-! ### Grammars (R271) -/

structure GramPair where
  maskId : Nat
  listOff : Nat
  listN : Nat
  deflt : Option Nat
deriving DecidableEq, Repr, Inhabited

structure GramAction where
  token : Nat
  newState : Nat
  pop : Nat
  push : List Nat
deriving DecidableEq, Repr, Inhabited

def Reader.nstate (r : Reader) : Nat := bits (r 0 0 8) 23 0
def Reader.nsym (r : Reader) : Nat := bits (r 0 0 8) 39 32 + 1
def Reader.start (r : Reader) : Nat := bits (r 0 0 8) 63 40
/-- Pair-table entry (g, top). -/
def Reader.pairWord (r : Reader) (i : Nat) : Nat := r (r.lo 1 + 16 * i) 0 16
def Reader.pair (r : Reader) (g top : Nat) : GramPair :=
  let x := r.pairWord (g * r.nsym + top)
  ⟨bits x 23 0, bits x 63 32, bits x 95 64, if bits x 127 96 = 0xFFFFFFFF then none else some (bits x 127 96)⟩
/-- Byte i of mask bitmap m. -/
def Reader.maskByte (r : Reader) (m i : Nat) : Byte := BitVec.ofNat 8 (r (r.lo 2 + 32768 * m) i 1)
def Reader.actWord (r : Reader) (i : Nat) : Nat := r (r.lo 3 + 16 * i) 0 16
def Reader.act (r : Reader) (i : Nat) : GramAction :=
  let x := r.actWord i
  ⟨bits x 17 0, bits x 63 40, bits x 65 64, [bits x 79 72, bits x 87 80].take (bits x 67 66)⟩

def Reader.gramSections (r : Reader) : List (Nat × Nat) :=
  [(r.lo 1, 16 * (r.nstate * r.nsym)), (r.lo 2, 32768 * r.hi 1), (r.lo 3, 16 * r.hi 3)]

def Reader.gramHeaderBad (r : Reader) : Bool :=
  r.nstate == 0 || decide (r.nstate ≤ r.start) || bits (r 0 0 8) 31 24 != 0 || r.hi 2 != 0 || r 32 0 8 != 0 || r 40 0 8 != 0 ||
    r 48 0 8 != 0 || r 56 0 8 != 0 || outside r.gramSections

/-- The checks of the tables (R271). -/
def Reader.gramBad (r : Reader) : Bool :=
  let badPair (i : Nat) : Bool :=
    let x := r.pairWord i
    let p := r.pair 0 i
    bits x 31 24 != 0 || decide (r.hi 1 ≤ p.maskId) || decide (r.hi 3 < p.listOff + p.listN) ||
      p.deflt.any (fun d => decide (r.hi 3 ≤ d)) ||
      !(rising (fun (a b : Nat) => decide (a < b)) ((List.range p.listN).map (fun k => (r.act (p.listOff + k)).token)))
  let badAct (i : Nat) : Bool :=
    let x := r.actWord i
    let a := r.act i
    bits x 39 18 != 0 || bits x 71 68 != 0 || bits x 127 88 != 0 || decide (r.nstate ≤ a.newState) || bits x 67 66 == 3 ||
      a.push.any (fun y => y == 0 || decide (r.nsym ≤ y))
  (List.range (r.nstate * r.nsym)).any badPair || (List.range (r.hi 3)).any badAct

/-- The loaded grammar set of a partition. -/
def State.grammar (s : State) (part gset : Nat) : Option Reader := (look s.grammars (part * 256 + gset)).map s.imageReader

end Sys2Proof.Machine
end

