-- ==== Sys2Proof/Machine/Tree.lean ====
section
/-!
DEFINITION. Tree records as data: paths, segments, splits, removal and merging (09 R221-R226, R233-R235), and grammar sets and
stacks (11 R271-R273).
-/
namespace Sys2Proof.Machine

/-- A tree status word (09 R229). -/
def treeErr (code : Nat) : Word32 := BitVec.ofNat 32 (2 ^ 31 + code)
def stDEADNODE : Nat := 0x01
def stDEADTREE : Nat := 0x02
def stNONODE : Nat := 0x03
def stNOBRANCH : Nat := 0x04
def stNOSEG : Nat := 0x05
def stNOTREE : Nat := 0x06
def stBADARG : Nat := 0x07
def stNOSLOT : Nat := 0x08
def stGRAMREJ : Nat := 0x09
def stNOCELL : Nat := 0x0A

/-- Fields of a handle (R221). -/
def handleSlot (h : Nat) : Nat := h % 8192
def handleDie (h : Nat) : Nat := h / 8192 % 2
def handleGen (h : Nat) : Nat := h / 16384 % 64
def handleOf (die slot gen : Nat) : Nat := gen * 16384 + die * 8192 + slot
def treeKey (die slot : Nat) : Nat := die * 8192 + slot
/-- The PARENT value of the root (R224). -/
def noParent : Nat := 0x10000

def Tree.live' (t : Tree) (b : Nat) : Bool := (look t.branches b).isSome
def Tree.node (t : Tree) (n : Nat) : Option Node := look t.nodes n
def Tree.segOf (t : Tree) (n : Nat) : Nat := ((t.node n).map Node.seg).getD 0
def Tree.depthOf (t : Tree) (n : Nat) : Nat := ((t.node n).map Node.depth).getD 0
def Tree.bset (t : Tree) (s : Nat) : BitVec 64 := ((look t.segs s).map Seg.bset).getD 0
def Tree.leafOf (t : Tree) (b : Nat) : Nat := ((look t.branches b).map Branch.leaf).getD 0
def Tree.updSeg (t : Tree) (s : Nat) (f : Seg → Seg) : Tree := { t with segs := upd t.segs s f }
def Tree.updBranch (t : Tree) (b : Nat) (f : Branch → Branch) : Tree := { t with branches := upd t.branches b f }

/-- The node at depth d on the way from node n to the root. -/
def Tree.up (t : Tree) (d : Nat) : Nat → Nat → Option Nat
  | 0, _ => none
  | k + 1, n =>
    match t.node n with
    | none => none
    | some x => if x.depth = d then some n else if x.depth < d then none else t.up d k x.parent

/-- The node at depth d on a branch's path. -/
def Tree.pathAt (t : Tree) (b d : Nat) : Option Nat :=
  match look t.branches b with
  | none => none
  | some x => t.up d 65537 x.leaf

/-- Segments from s up to the root segment. -/
def Tree.segsUp (t : Tree) : Nat → Nat → List Nat
  | 0, _ => []
  | k + 1, s =>
    match look t.segs s with
    | none => []
    | some x => s :: t.segsUp k x.up

/-- The branches whose path contains node n. -/
def Tree.through (t : Tree) (n : Nat) : List Nat := maskLanes (t.bset (t.segOf n))

/-- split(s, n) of R233. -/
def Tree.split (t : Tree) (s n : Nat) : Tree :=
  match look t.segs s, lowestFree t.segs 1 127 with
  | some x, some s2 =>
    let d := t.depthOf n
    let below (m : Nat) (y : Node) : Bool := y.seg = s && d < y.depth && m != n
    let first := ((t.nodes.find? (fun p => p.2.seg = s && p.2.parent = n)).map Prod.fst).getD x.last
    let segs := t.segs.map (fun p => (p.1, if p.2.up = s then { p.2 with up := s2 } else p.2))
    { t with
      nodes := t.nodes.map (fun p => (p.1, if below p.1 p.2 then { p.2 with seg := s2 } else p.2)),
      segs := put (put segs s { x with last := n, dlast := d }) s2
        { first := first, last := x.last, dfirst := d + 1, dlast := x.dlast, up := s, bset := x.bset } }
  | _, _ => t

/-- The nodes that a removal frees, and the tree without the branches of X (R234). -/
def Tree.remove (t : Tree) (x : BitVec 64) : Tree × List Nat :=
  let segs := t.segs.map (fun p => (p.1, { p.2 with bset := p.2.bset &&& ~~~x }))
  let dead := (segs.filter (fun p => p.2.bset = 0)).map Prod.fst
  let gone := (t.nodes.filter (fun p => dead.contains p.2.seg)).map Prod.fst
  ({ t with segs := segs.filter (fun p => p.2.bset != 0), nodes := t.nodes.filter (fun p => !dead.contains p.2.seg),
            branches := keepKeys t.branches (fun b => !(x.getLsbD b)) }, gone)

/-- The nodes of n's subtree. -/
def Tree.subtree (t : Tree) (n : Nat) : List Nat :=
  let d := t.depthOf n
  (t.nodes.filter (fun p => t.up d 65537 p.1 == some n)).map Prod.fst

/-- The branch of a set with the lowest AGE. -/
def Tree.oldest (t : Tree) (bs : List Nat) : Nat :=
  let age (b : Nat) : Nat := ((look t.branches b).map Branch.age).getD 0
  match bs with
  | [] => 0
  | b :: r => r.foldl (fun a c => if age c < age a then c else a) b

/-- Branches in ascending AGE. -/
def Tree.byAge (t : Tree) (bs : List Nat) : List Nat :=
  bs.mergeSort (fun a b => ((look t.branches a).map Branch.age).getD 0 ≤ ((look t.branches b).map Branch.age).getD 0)

/-- The first free branch number after LASTBR, wrapping (R233). -/
def Tree.nextBranch (t : Tree) : Option Nat :=
  ((List.range 64).map (fun i => (t.lastbr + 1 + i) % 64)).find? (fun b => !t.live' b)

/-- Merge of the path to n into the root segment (R235). -/
def Tree.mergeTrunk (t : Tree) (n : Nat) (k : BitVec 64) : Tree :=
  let path := t.segsUp 128 (t.segOf n)
  let root := path.getLast?.getD 1
  let others := path.filter (fun s => s != root)
  { t with
    nodes := t.nodes.map (fun p => (p.1, if path.contains p.2.seg then { p.2 with seg := root } else p.2)),
    segs := (t.segs.filter (fun p => !others.contains p.1)).map (fun p =>
      (p.1, if p.1 = root then { p.2 with last := n, dlast := t.depthOf n, bset := k }
            else if others.contains p.2.up then { p.2 with up := root } else p.2)) }

/-- Live branches as a set. -/
def Tree.brmask (t : Tree) : BitVec 64 := maskOf t.live'

/-- Handle lookup: the tree, unless it is dead for the partition (R221). A handle is the low 20 bits (log 31). -/
def State.treeOf (s : State) (part h : Nat) : Option (Nat × Tree) :=
  let key := treeKey (handleDie h) (handleSlot h)
  match look s.trees key with
  | some t => if t.live && t.gen == handleGen h && t.owner == part then some (key, t) else none
  | none => none
def State.setTree (s : State) (key : Nat) (t : Tree) : State := { s with trees := put s.trees key t }
/-- Freeing a tree advances its slot's generation (R221). -/
def Tree.freed (t : Tree) : Tree :=
  { t with live := false, gen := if t.gen = 63 then 1 else t.gen + 1, busy := false, nodes := [], branches := [], segs := [],
           comp := none }

/-! ### Grammar (11 R271-R273) -/

def cellKey (part die link : Nat) : Nat := (part * 2 + die) * 2 ^ 21 + link
def State.cellAt (s : State) (part die link : Nat) : Option Cell := look s.cells (cellKey part die link)
/-- The top symbol of a stack; the empty stack's is 0. -/
def State.topSym (s : State) (part die link : Nat) : Nat :=
  if link = 0 then 0 else ((s.cellAt part die link).map Cell.sym).getD 0

/-- One more name of a cell; none past 2^24 - 1. -/
def State.incCell (s : State) (part die link : Nat) : Option State :=
  if link = 0 then some s
  else match s.cellAt part die link with
    | none => some s
    | some c => if c.count = 2 ^ 24 - 1 then none
      else some { s with cells := put s.cells (cellKey part die link) { c with count := c.count + 1 } }

/-- One name fewer; a cell that no name is left for is freed, with its name of the next. -/
def State.decCell (s : State) (part die : Nat) : Nat → Nat → State
  | 0, _ => s
  | n + 1, link =>
    if link = 0 then s
    else match s.cellAt part die link with
      | none => s
      | some c =>
        if c.count ≤ 1 then ({ s with cells := del s.cells (cellKey part die link) }).decCell part die n c.next
        else { s with cells := put s.cells (cellKey part die link) { c with count := c.count - 1 } }

/-- Nodes freed: their cells lose a name (R272). -/
def State.freeNodes (s : State) (part die : Nat) (t : Tree) (ns : List Nat) : State :=
  ns.foldl (fun s n => s.decCell part die (2 ^ 20 + 1) (((t.node n).map Node.gcell).getD 0)) s

/-- Pop k symbols; none below the empty stack. -/
def State.popCells (s : State) (part die : Nat) : Nat → Nat → Option Nat
  | 0, c => some c
  | k + 1, c => if c = 0 then none else s.popCells part die k (((s.cellAt part die c).map Cell.next).getD 0)

/-- Push symbols one after another; none when no cell is free or a count would overflow. -/
def State.pushCells (s : State) (part die : Nat) : List Nat → Nat → Option (State × Nat)
  | [], c => some (s, c)
  | y :: r, c =>
    match s.incCell part die c with
    | none => none
    | some s =>
      let base := cellKey part die 1
      match lowestFree s.cells base 1048576 with
      | none => none
      | some k => ({ s with cells := put s.cells k { sym := y, next := c, count := 0 } }).pushCells part die r (k - base + 1)

/-- gstep (R273): the next state, grammar state and cell; else GRAMREJ or NOCELL. -/
def State.gstep (s : State) (part die gset g c t : Nat) : Except Nat (State × Nat × Nat) :=
  if gset = 0 then .ok (s, 0, 0)
  else
    match s.grammar part gset with
    | none => .error stGRAMREJ
    | some r =>
      let e := r.pair g (s.topSym part die c)
      if !((r.maskByte e.maskId (t / 8)).getLsbD (t % 8)) then .error stGRAMREJ
      else
        let act : Option GramAction :=
          match (List.range e.listN).find? (fun i => (r.act (e.listOff + i)).token = t) with
          | some i => some (r.act (e.listOff + i))
          | none => e.deflt.map r.act
        match act with
        | none => .error stGRAMREJ
        | some a =>
          match s.popCells part die a.pop c with
          | none => .error stGRAMREJ
          | some c2 =>
            match s.pushCells part die a.push c2 with
            | none => .error stNOCELL
            | some (s, c3) => .ok (s, a.newState, c3)

end Sys2Proof.Machine
end

