-- ==== Sys2Proof/Machine/KvPage.lean ====
section
/-!
DEFINITION. KV pages: rows, pools, counts, copy-on-write and copies (10 R247-R257).
-/
namespace Sys2Proof.Machine

def poolKey (part die : Nat) : Nat := part * 2 + die
def rowKey (part row : Nat) : Nat := part * 2 ^ 28 + row
def State.rowOf (s : State) (part row : Nat) : Row := (look s.rows (rowKey part row)).getD { st := .free, count := 0 }
def State.setRow (s : State) (part row : Nat) (r : Row) : State := { s with rows := put s.rows (rowKey part row) r }

/-- A free row, taken from the top of the pool's stack, with count c. -/
def State.popRow (s : State) (part die c : Nat) : Option (State × Nat) :=
  match look s.freeRows (poolKey part die) with
  | some (r :: rest) =>
    some (({ s with freeRows := put s.freeRows (poolKey part die) rest }).setRow part r { st := .live, count := c }, r)
  | _ => none

def State.addRow (s : State) (part row : Nat) : State :=
  let r := s.rowOf part row
  s.setRow part row { r with count := r.count + 1 }

/-- A list drops a row; a row that no list holds enters RELEASING (R253). Answers the rows so emptied. -/
def State.dropRow (s : State) (part row : Nat) : State × List Nat :=
  let r := s.rowOf part row
  if r.count ≤ 1 then (s.setRow part row { st := .releasing, count := 0 }, [row])
  else (s.setRow part row { r with count := r.count - 1 }, [])
def State.dropRows (s : State) (part : Nat) : List Nat → State × List Nat
  | [] => (s, [])
  | r :: rest =>
    let (s, a) := s.dropRow part r
    let (s, b) := s.dropRows part rest
    (s, a ++ b)

/-! ### Page-unit accesses (R248, R257) -/

/-- The context of the page unit of a die for a partition. -/
def pageActx (root part die : Nat) : Actx := ⟨root, part, none, 0, 0, coreId die 0⟩

def Pool.slotAddr (p : Pool) (row layer slot : Nat) (value : Bool) : VAddr :=
  BitVec.ofNat 64 (p.kvb + 32768 * p.lmax * row + 32768 * layer + 1024 * slot + if value then 16384 else 0)

/-- A page-unit access: the page must have KV = 1 and EFMT = 0, else PERM KVBIT. -/
def State.kvTranslate (s : State) (c : Actx) (need : Need) (va : VAddr) : Except XFault (State × Target) :=
  match s.translate c need false va with
  | .error f => .error f
  | .ok (s, t) => if t.kv && t.efmt == 0 then .ok (s, t) else .error ⟨.perm, 7, 0, va⟩

/-- Copy 64 bytes at device scope (R251). Uncorrectable data is copied as such (R259); `true` says so. -/
def State.copyLine (s : State) (c : Actx) (src dst : VAddr) : Eng Bool :=
  match s.kvTranslate c .read src with
  | .error f => .fault f
  | .ok (s1, a) =>
    match s1.kvTranslate c .write dst with
    | .error f => .fault f
    | .ok (s2, b) =>
      if s2.placeHeld a.place || s2.placeHeld b.place then .held
      else
        let bad := s2.statusOf a.place a.key != .ok
        let (bs, s3) := s2.readPlace c (.strong .device) a.place a.key 64
        let s4 := s3.writePlace c (.strong .device) b.place b.key bs
        let line := match b.place with
          | .cached pa | .home pa => pa / 64
          | _ => 0
        .ok { s4 with poison := if bad && !s4.poison.contains line then s4.poison ++ [line] else s4.poison } bad .ok

/-- Copy lines one after another. -/
def State.copyLines (s : State) (c : Actx) : List (VAddr × VAddr) → Eng Bool
  | [] => .ok s false .ok
  | (a, b) :: r =>
    match s.copyLine c a b with
    | .held => .held
    | .fault f => .fault f
    | .ok s x _ =>
      match s.copyLines c r with
      | .held => .held
      | .fault f => .fault f
      | .ok s y st => .ok s (x || y) st

/-- The lines of a slot's key and value in one layer. -/
def slotLines (p : Pool) (row row' layer slot slot' : Nat) : List (VAddr × VAddr) :=
  [false, true].flatMap (fun v => (List.range 16).map (fun i =>
    (p.slotAddr row layer slot v + BitVec.ofNat 64 (64 * i), p.slotAddr row' layer slot' v + BitVec.ofNat 64 (64 * i))))

/-- own(b, j) of R250: none when held; `false` for NOSLOT. -/
def State.own (s : State) (key : Nat) (t : Tree) (part b j : Nat) : Option (State × Tree × Bool) :=
  let die := key / 8192
  match look t.branches b, look s.pools (poolKey part die), s.popRow part die 1 with
  | some br, some p, some (s1, r) =>
    let old := nth 0 br.rows j
    let lines := (List.range t.layers).flatMap (fun la =>
      ((List.range 16).filter (fun i => 16 * j + i < br.fill)).flatMap (fun i => slotLines p old r la i i))
    match s1.copyLines (pageActx t.root part die) lines with
    | .held => none
    | .fault _ => some (s, t, false)
    | .ok s2 _ _ =>
      some ((s2.dropRow part old).1, t.updBranch b (fun br => { br with rows := setAt br.rows j r }), true)
  | _, _, _ => some (s, t, false)

end Sys2Proof.Machine
end

