-- ==== Sys2Proof/Machine/TreeUnit.lean ====
section
/-!
DEFINITION. The tree and page units: what each operation does at its arrival (09 R231-R243; 10 R250, R256; 11 R274), and the
draw unit (11 R276-R280).
-/
namespace Sys2Proof.Machine

/-- A result word for every lane. -/
def allRes (v : Word32) : List Word32 := List.replicate 64 v
/-- Results by lane: those of a list of (lane, word), 0 elsewhere. -/
def laneRes (l : List (Nat × Word32)) : List Word32 :=
  (List.range 64).map (fun i => ((l.find? (fun p => p.1 = i)).map Prod.snd).getD 0)
def word32 (n : Nat) : Word32 := BitVec.ofNat 32 n
/-- The 20-bit handle that a uniform value names. -/
def TreeOp.handle (o : TreeOp) : Nat := o.a.toNat % 2 ^ 20
def TreeOp.tree (o : TreeOp) (s : State) : Option (Nat × Tree) := s.treeOf o.part o.handle

/-! ### Broadcasts (09 R244; 10 R253) -/

/-- A broadcast to every core of both dies: pairs to cancel, or a release; with the rows that wait for its acknowledgements. -/
def State.broadcast (s : State) (release : Bool) (part : Nat) (pairs : List (Nat × Nat)) (rows : List Nat) : State :=
  if pairs.isEmpty ∧ rows.isEmpty ∧ !release then s
  else
    { s with nextId := s.nextId + 1,
             bcasts := s.bcasts ++ [⟨s.nextId, release, pairs, part, rows, [], [], []⟩] }

/-! ### TRNEW (R231) -/

def State.freeTreeSlot (s : State) (die : Nat) : Option Nat :=
  (List.range 8192).find? (fun i => match look s.trees (treeKey die i) with
    | some t => !t.live
    | none => true)

/-- A new tree in a slot of a die. -/
def State.newTree (s : State) (part root die slot layers gset tok : Nat) : State × Word32 :=
  let key := treeKey die slot
  let gen := ((look s.trees key).map Tree.gen).getD 1
  let start := if gset = 0 then 0 else ((s.grammar part gset).map Reader.start).getD 0
  let make (s : State) (rows : List Nat) : State × Word32 :=
    let node : Node := ⟨tok, 0, 1, noParent, 0, decide (layers = 0), start, 0⟩
    let seg : Seg := ⟨0, 0, 0, 0, 0, 1⟩
    let br : Branch := ⟨0, 0, rows, if layers = 0 then 0 else 1⟩
    (s.setTree key
      { live := true, gen := gen, owner := part, gset := gset, layers := layers, busy := false, root := root,
        nodes := [(0, node)], branches := [(0, br)], segs := [(1, seg)], lastbr := 0, ages := 1, comp := none },
     word32 (handleOf die slot gen))
  if layers = 0 then make s []
  else
    match look s.pools (poolKey part die), s.popRow part die 1 with
    | some p, some (s1, r) => if p.lmax < layers then (s, treeErr stNOSLOT) else make s1 [r]
    | _, _ => (s, treeErr stNOSLOT)

def State.trnew (s : State) (o : TreeOp) (root : Nat) : State × Word32 :=
  let d := o.a.toNat
  let gset := bits d 47 32
  let loaded : Bool := gset = 0 ∨ (gset < 256 ∧ (look s.grammars (o.part * 256 + gset)).isSome)
  if bits d 63 56 ≠ 0 ∨ bits d 31 18 ≠ 0 ∨ !loaded then (s, treeErr stBADARG)
  else
    match s.freeTreeSlot o.die with
    | some i => s.newTree o.part root o.die i (bits d 55 48) gset (bits d 17 0)
    | none =>
      match s.freeTreeSlot (1 - o.die) with
      | some i => s.newTree o.part root (1 - o.die) i (bits d 55 48) gset (bits d 17 0)
      | none => (s, treeErr stNOTREE)

/-! ### TRADD (R232; 10 R250) -/

/-- A slot for one more node on b: none when held; else the state, the tree and the position, or none for NOSLOT. -/
def State.addSlot (s : State) (key : Nat) (t : Tree) (part b : Nat) : Option (State × Tree × Option Nat) :=
  let die := key / 8192
  match look t.branches b with
  | none => some (s, t, none)
  | some br =>
    let p := br.fill
    let grow (t : Tree) : Tree := t.updBranch b (fun br => { br with fill := p + 1 })
    if t.layers = 0 then some (s, t, some 0)
    else if p = 65536 then some (s, t, none)
    else if p % 16 = 0 then
      match s.popRow part die 1 with
      | some (s1, r) => some (s1, grow (t.updBranch b (fun br => { br with rows := br.rows ++ [r] })), some p)
      | none => some (s, t, none)
    else if 1 < (s.rowOf part (nth 0 br.rows (p / 16))).count then
      match s.own key t part b (p / 16) with
      | none => none
      | some (s1, t1, true) => some (s1, grow t1, some p)
      | some (_, _, false) => some (s, t, none)
    else some (s, grow t, some p)

/-- One lane of TRADD: none when held; else the node's id or a status code. -/
def State.addNode (s : State) (key : Nat) (t : Tree) (part b : Nat) (tok : Word32) : Option (State × Tree × Except Nat Nat) :=
  let die := key / 8192
  let p := t.leafOf b
  let sg := t.segOf p
  let own : Bool := t.bset sg = laneBit b
  let fail (c : Nat) : Option (State × Tree × Except Nat Nat) := some (s, t, .error c)
  match t.node p with
  | none => fail stDEADNODE
  | some pn =>
    if bits tok.toNat 31 18 ≠ 0 then fail stBADARG
    else if t.nodes.length = 65536 then fail stNONODE
    else if !own ∧ t.segs.length = 127 then fail stNOSEG
    else
      match s.gstep part die t.gset pn.gstate pn.gcell tok.toNat with
      | .error c => fail c
      | .ok (s1, g, c) =>
        match s1.incCell part die c with
        | none => fail stNOCELL
        | some s2 =>
          match s2.addSlot key t part b with
          | none => none
          | some (_, _, none) => fail stNOSLOT
          | some (s3, t1, some pos) =>
            match lowestFree t.nodes 0 65536, (if own then some sg else lowestFree t.segs 1 127) with
            | some n, some q =>
              let d := pn.depth + 1
              let t2 := { t1 with nodes := put t1.nodes n ⟨tok.toNat, d, q, p, pos, decide (t.layers = 0), g, c⟩ }
              let t3 :=
                if own then t2.updSeg q (fun x => { x with last := n, dlast := d })
                else { t2 with segs := put t2.segs q ⟨n, n, d, d, sg, laneBit b⟩ }
              some (s3, t3.updBranch b (fun br => { br with leaf := n }), .ok n)
            | _, _ => fail stNONODE

/-- The lanes of TRADD, in order; once one fails, every later lane gets its status. -/
def State.addLanes (s : State) (key : Nat) (t : Tree) (part b : Nat) (fail : Option Nat) :
    List (Nat × Word32) → Option (State × Tree × List (Nat × Word32))
  | [] => some (s, t, [])
  | (l, tok) :: r =>
    match fail with
    | some c =>
      match s.addLanes key t part b fail r with
      | none => none
      | some (s, t, x) => some (s, t, (l, treeErr c) :: x)
    | none =>
      match s.addNode key t part b tok with
      | none => none
      | some (s1, t1, .error c) =>
        match s1.addLanes key t1 part b (some c) r with
        | none => none
        | some (s, t, x) => some (s, t, (l, treeErr c) :: x)
      | some (s1, t1, .ok n) =>
        match s1.addLanes key t1 part b none r with
        | none => none
        | some (s, t, x) => some (s, t, (l, word32 n) :: x)

/-- The active lanes with their per-lane values. -/
def TreeOp.laneVals (o : TreeOp) : List (Nat × Word32) := (maskLanes o.lanes).map (fun l => (l, nth 0 o.x l))

/-! ### TRFORK (R233) -/

def State.forkLane (s : State) (part : Nat) (t : Tree) (x : Nat) : State × Tree × Word32 :=
  let n := x % 65536
  let fail (c : Nat) : State × Tree × Word32 := (s, t, treeErr c)
  if x / 65536 ≠ 0 then fail stBADARG
  else match t.node n with
    | none => fail stDEADNODE
    | some nd =>
      match t.nextBranch with
      | none => fail stNOBRANCH
      | some b =>
        let cut : Bool := match look t.segs nd.seg with
          | some sg => sg.last != n
          | none => false
        if cut ∧ t.segs.length = 127 then fail stNOSEG
        else
          let rows := match t.through n with
            | a :: _ => (((look t.branches a).map Branch.rows).getD []).take (nd.slot / 16 + 1)
            | [] => []
          let t1 := if cut then t.split nd.seg n else t
          let ups := t1.segsUp 128 (t1.segOf n)
          let br : Branch := ⟨n, t1.ages, if t.layers = 0 then [] else rows, if t.layers = 0 then 0 else nd.slot + 1⟩
          let t2 := { t1 with branches := put t1.branches b br, lastbr := b, ages := (t1.ages + 1) % 2 ^ 32,
                              segs := t1.segs.map (fun p => (p.1, if ups.contains p.1 then { p.2 with bset := p.2.bset ||| laneBit b } else p.2)) }
          (if t.layers = 0 then s else rows.foldl (fun s r => s.addRow part r) s, t2, word32 b)

def State.forkLanes (s : State) (part : Nat) (t : Tree) : List (Nat × Word32) → State × Tree × List (Nat × Word32)
  | [] => (s, t, [])
  | (l, x) :: r =>
    let (s1, t1, w) := s.forkLane part t x.toNat
    let (s2, t2, ws) := s1.forkLanes part t1 r
    (s2, t2, (l, w) :: ws)

/-! ### Prunes and commit (R234, R235, R243) -/

/-- Rows of the page lists of branches. -/
def Tree.rowsOf (t : Tree) (bs : List Nat) : List Nat := bs.flatMap (fun b => ((look t.branches b).map Branch.rows).getD [])

/-- remove(X): branches go with their lists, empty segments with their nodes and cells, a tree without branches is freed; the
set `cancel` is broadcast. -/
def State.removeBranches (s : State) (key : Nat) (part h : Nat) (t : Tree) (x : BitVec 64) (cancel : List Nat) : State × Tree :=
  let die := key / 8192
  let (t1, gone) := t.remove x
  let s1 := s.freeNodes part die t gone
  let (s2, rows) := s1.dropRows part (t.rowsOf (maskLanes x))
  let t2 := if t1.branches.isEmpty then t1.freed else t1
  ((s2.setTree key t2).broadcast false part (cancel.map (fun b => (h, b))) rows, t2)

def State.pruneBr (s : State) (o : TreeOp) (key : Nat) (t : Tree) : State × Word32 :=
  let b := o.b.toNat
  if 63 < b then (s, treeErr stBADARG)
  else if !t.live' b then (s, treeErr stDEADNODE)
  else ((s.removeBranches key o.part o.handle t (laneBit b) [b]).1, word32 b)

def State.pruneSub (s : State) (o : TreeOp) (key : Nat) (t : Tree) : State × Word32 :=
  let n := o.b.toNat % 65536
  if o.b.toNat / 65536 ≠ 0 then (s, treeErr stBADARG)
  else match t.node n with
    | none => (s, treeErr stDEADNODE)
    | some nd =>
      if nd.parent = noParent then (s, treeErr stBADARG)
      else
        let set := t.through n
        let old := t.oldest set
        let sub := t.subtree n
        let deadSegs := (t.segs.filter (fun p => sub.contains p.2.first)).map Prod.fst
        let s1 := s.freeNodes o.part (key / 8192) t sub
        let pd := t.depthOf nd.parent
        let segs := (t.segs.filter (fun p => !deadSegs.contains p.1)).map (fun p =>
          (p.1, if p.1 = nd.seg then { p.2 with last := nd.parent, dlast := pd } else p.2))
        let t1 : Tree := { t with nodes := t.nodes.filter (fun p => !sub.contains p.1), segs := segs }
        let t2 := t1.updBranch old (fun br => { br with leaf := nd.parent })
        let rest := maskOf (fun b => set.contains b && b != old)
        ((s1.removeBranches key o.part o.handle t2 rest set).1, word32 old)

/-! ### Assignment of rows for commit compaction (10 R258) -/

/-- A compaction's record: its cursor, and no group (17 R388). -/
def State.compRecord (s : State) (key : Nat) (t : Tree) (k : Compaction) (f : XFault) (who : FWho) (info : Bool) : State × Nat :=
  s.pushFaults [{ s.frec 0 .engine .compaction f.cause f.sub f.level f.addr
      (BitVec.ofNat 57 (handleOf (key / 8192) (key % 8192) t.gen)) who with
    estate := BitVec.ofNat 192 (k.ord + 2 ^ 6 * k.depth + 2 ^ 22 * k.layer), info := info }]

/-- Whether two branches agree on the 16 depths of index j. -/
def Tree.agree (t : Tree) (a b j : Nat) : Bool :=
  (from' (16 * j) 16).all (fun d => match t.pathAt a d, t.pathAt b d with
    | some x, some y => x == y
    | _, _ => true)

def Compaction.row (k : Compaction) (ord j : Nat) : Option Nat := (rd [] k.lists ord)[j]?

/-- The new row at index j of ordinal i that an earlier branch has and every holder of which agrees. -/
def Tree.sharedRow (t : Tree) (k : Compaction) (i j : Nat) : Option Nat :=
  let b := nth 0 k.kset i
  let rows := ((List.range i).filterMap (fun e => k.row e j)).dedup
  rows.find? (fun r => (List.range i).all (fun e => k.row e j != some r || t.agree (nth 0 k.kset e) b j))

/-- Assignment of new rows, as far as free rows reach (R258): false when the stack was empty at an assignment. -/
def State.assignRows (s : State) (key : Nat) (t : Tree) (k : Compaction) : Nat → State × Compaction × Bool
  | 0 => (s, k, true)
  | n + 1 =>
    if k.kset.length ≤ k.asgBranch then (s, k, true)
    else if t.depthOf (t.leafOf (nth 0 k.kset k.asgBranch)) / 16 < k.asgIndex then
      s.assignRows key t { k with asgBranch := k.asgBranch + 1, asgIndex := 0 } n
    else
      let take (s : State) (r : Nat) (new : Bool) : State × Compaction × Bool :=
        s.assignRows key t { k with lists := put k.lists k.asgBranch (rd [] k.lists k.asgBranch ++ [r]),
                                    fresh := if new then k.fresh ++ [r] else k.fresh, asgIndex := k.asgIndex + 1 } n
      match t.sharedRow k k.asgBranch k.asgIndex with
      | some r => take s r false
      | none =>
        match s.popRow t.owner (key / 8192) 0 with
        | some (s1, r) => take s1 r true
        | none => (s, k, false)

/-- The cursor after the present slot and layer; past the last branch when none is left. -/
def Tree.nextCursor (t : Tree) (k : Compaction) : Compaction :=
  if k.layer + 1 < t.layers then { k with layer := k.layer + 1 }
  else if k.depth < t.depthOf (t.leafOf (nth 0 k.kset k.ord)) then { k with layer := 0, depth := k.depth + 1 }
  else { k with layer := 0, depth := 0, ord := k.ord + 1 }

/-- A slot that an earlier branch has moved into a shared row. -/
def Tree.movedBefore (t : Tree) (k : Compaction) : Bool :=
  (List.range k.ord).any (fun e => k.row e (k.depth / 16) == k.row k.ord (k.depth / 16) &&
    (t.pathAt (nth 0 k.kset e) k.depth).isSome)

/-- The cursor at the next slot that is to be moved, or at the end. -/
def Tree.seekCursor (t : Tree) : Nat → Compaction → Compaction
  | 0, k => k
  | n + 1, k =>
    if k.kset.length ≤ k.ord then { k with finished := true }
    else if t.movedBefore k then t.seekCursor n (t.nextCursor k)
    else k

def cursorFuel : Nat := 64 * 65536

/-- The assignment from where it stands: the first cursor follows it, or KVFULL where the stack is empty (R258, R259). -/
def State.assignComp (s : State) (key : Nat) (t : Tree) (k : Compaction) : State × Tree :=
  match s.assignRows key t k (64 * 4100) with
  | (s1, k1, true) => (s1, { t with comp := some (t.seekCursor cursorFuel k1) })
  | (s1, k1, false) =>
    let (s2, _) := s1.compRecord key t k1 ⟨.kvFull, 0, 0, 0⟩ .nothing false
    (s2, { t with comp := some { k1 with full := true } })

/-- TRCOMMIT (09 R235); compaction starts when it sets BUSY, with the assignment of its rows (10 R258). -/
def State.trcommit (s : State) (o : TreeOp) (key : Nat) (t : Tree) : State × Word32 :=
  let n := o.b.toNat % 65536
  match t.node n with
  | none => (s, treeErr stDEADNODE)
  | some nd =>
    if o.b.toNat / 65536 ≠ 0 then (s, treeErr stBADARG)
    else
      let kset := t.through n
      let k := maskOf kset.contains
      let p := t.brmask &&& ~~~k
      let cut : Bool := match look t.segs nd.seg with
        | some sg => sg.last != n
        | none => false
      if cut ∧ (t.remove p).1.segs.length = 127 then (s, treeErr stNOSEG)
      else
        let (s1, t1) := s.removeBranches key o.part o.handle t p (maskLanes p)
        let t2 := if cut then t1.split (t1.segOf n) n else t1
        let t3 := t2.mergeTrunk n k
        let comp : Compaction :=
          { kset := t3.byAge kset, lists := [], fresh := [], ord := 0, depth := 0, layer := 0, asgBranch := 0, asgIndex := 0,
            full := false, parkSet := none, finished := decide (t.layers = 0) }
        let t4 : Tree := { t3 with busy := true, comp := some comp }
        let (s2, t5) := if t.layers = 0 then (s1, t4) else s1.assignComp key t4 comp
        (s2.setTree key t5, word32 kset.length)

/-! ### TRINFO, TRTAG, masks, KVSLOT -/

/-- One item of TRINFO (R236). -/
def infoOf (t : Tree) (field x : Nat) : Word32 :=
  if field = 7 then
    word32 ((if t.busy then 2 ^ 30 else 0) + t.segs.length * 2 ^ 23 + (t.branches.length - 1) * 2 ^ 17 + t.nodes.length)
  else if x / 65536 ≠ 0 then treeErr stBADARG
  else if field = 6 then
    match look t.branches x with
    | some b => word32 b.leaf
    | none => treeErr stDEADNODE
  else match t.node x with
    | none => treeErr stDEADNODE
    | some n => match field with
      | 0 => word32 n.token
      | 1 => word32 n.depth
      | 2 => word32 n.seg
      | 3 => word32 n.parent
      | 4 => word32 n.slot
      | _ => word32 n.gstate

/-- The key that an AMASK column names: its segment and depth (R239). -/
def maskKey (t : Tree) (mode start sel k : Nat) : Option (Nat × Nat) :=
  let ofNode (n : Nat) : Option (Nat × Nat) := (t.node n).map (fun x => (x.seg, x.depth))
  match mode with
  | 0 => (t.pathAt sel (start + k)).bind ofNode
  | 1 => match look t.segs sel with
    | some g => if g.dfirst ≤ start + k ∧ start + k ≤ g.dlast then some (sel, start + k) else none
    | none => none
  | _ => ofNode (start + k)

/-- The 16 bytes of a row of a mask tile from its 128 bits. -/
def bitsToBytes (n : Nat) (f : Nat → Bool) : List Byte :=
  (List.range n).map (fun i => BitVec.ofNat 8 ((List.range 8).foldl (fun a j => a + if f (8 * i + j) then 2 ^ j else 0) 0))

/-- Bytes written one piece after another; a page that has gone meanwhile takes none (log 32). -/
def State.trWrite (s : State) (c : Actx) (lid : Option Nat) (n k : Nat) (va : VAddr) (bs : List Byte) : Option State :=
  match s.engWrites c n k va bs with
  | .held => none
  | .fault _ => some s
  | .ok s _ st => some (s.memError lid st)

def State.amaskRows (s : State) (c : Actx) (lid : Option Nat) (va : VAddr) (row : Nat → List Byte) : List Nat → Option State
  | [] => some s
  | r :: rest =>
    match s.trWrite c lid 16 1 (va + BitVec.ofNat 64 (16 * r)) (row r) with
    | none => none
    | some s => s.amaskRows c lid va row rest

/-- AMASK at its arrival (R239). -/
def State.amask (s : State) (o : TreeOp) (c : Actx) : Option (State × Word32) :=
  let d := o.a.toNat
  let mode := bits d 21 20
  let sel := bits d 38 32
  let bad : Bool := bits d 47 39 ≠ 0 ∨ bits d 31 22 ≠ 0 ∨ mode = 3 ∨ (mode = 0 ∧ 63 < sel) ∨ (mode = 1 ∧ sel = 0) ∨ (mode = 2 ∧ sel ≠ 0)
  let zeros (_ : Nat) : List Byte := List.replicate 16 0
  let lid := s.launchOf o.gid
  let rows (f : Nat → List Byte) (res : Word32) : Option (State × Word32) :=
    (s.amaskRows c lid o.c f (maskLanes o.lanes)).map (fun s => (s, res))
  match o.tree s with
  | none => rows zeros (treeErr stDEADTREE)
  | some (_, t) =>
    if bad then rows zeros (treeErr stBADARG)
    else
      let keys := (List.range 128).map (maskKey t mode (bits d 63 48) sel)
      rows (fun r =>
        let q := (nth 0 o.x r).toNat
        bitsToBytes 16 (fun k => match keys.getD k none with
          | none => false
          | some (sg, dep) => !(bit q 31) && (t.bset sg).getLsbD (bits q 21 16) && dep ≤ q % 65536)) 0

/-- GMASK at its arrival (11 R274): the state, the result and whether no token is legal or there is a status. -/
def State.gmask (s : State) (o : TreeOp) (c : Actx) : Option (State × Word32 × Bool) :=
  let n := o.b.toNat % 65536
  match o.tree s with
  | none => some (s, treeErr stDEADTREE, true)
  | some (key, t) =>
    match t.node n with
    | none => some (s, treeErr stDEADNODE, true)
    | some nd =>
      if o.b.toNat / 65536 ≠ 0 then some (s, treeErr stBADARG, true)
      else
        let die := key / 8192
        let bm : List Byte :=
          if t.gset = 0 then List.replicate 32768 0xFF
          else match s.grammar o.part t.gset with
            | some r => (List.range 32768).map (r.maskByte (r.pair nd.gstate (s.topSym o.part die nd.gcell)).maskId)
            | none => List.replicate 32768 0
        let any (j : Nat) : Bool := ((bm.drop (32 * j)).take 32).any (fun b => b != 0)
        let sum := bitsToBytes 128 any
        let lid := s.launchOf o.gid
        match s.trWrite c lid 64 512 o.c bm with
        | none => none
        | some s1 =>
          match s1.trWrite c lid 64 2 (o.c + 32768) sum with
          | none => none
          | some s2 =>
            let no := sum.all (fun b => b == 0)
            some (s2, if no then 1 else 0, no)

/-- One lane of KVSLOT (10 R256): none when held. -/
def State.kvLane (s : State) (o : TreeOp) (key : Nat) (t : Tree) (own : Bool) (half : Nat) (x : Nat) : Option (State × Tree × Word32) :=
  let layer := o.c.toNat
  let b := bits x 21 16
  let d := x % 65536
  let fail (c : Nat) : Option (State × Tree × Word32) := some (s, t, treeErr c)
  if t.layers = 0 ∨ 255 < layer ∨ t.layers ≤ layer ∨ bits x 31 22 ≠ 0 then fail stBADARG
  else match t.pathAt b d, look s.pools (poolKey o.part (key / 8192)) with
    | some n, some p =>
      let pos := ((t.node n).map Node.slot).getD 0
      let answer (s : State) (t : Tree) : Option (State × Tree × Word32) :=
        let row := nth 0 (((look t.branches b).map Branch.rows).getD []) (pos / 16)
        some (s, t, word32 ((row * p.lmax + layer) * 32 + pos % 16 + 16 * half))
      let row := nth 0 (((look t.branches b).map Branch.rows).getD []) (pos / 16)
      if own ∧ 1 < (s.rowOf o.part row).count then
        match s.own key t o.part b (pos / 16) with
        | none => none
        | some (s1, t1, true) => answer s1 t1
        | some (_, _, false) => fail stNOSLOT
      else answer s t
    | _, _ => fail stDEADNODE

def State.kvLanes (s : State) (o : TreeOp) (key : Nat) (t : Tree) (own : Bool) (half : Nat) :
    List (Nat × Word32) → Option (State × Tree × List (Nat × Word32))
  | [] => some (s, t, [])
  | (l, x) :: r =>
    match s.kvLane o key t own half x.toNat with
    | none => none
    | some (s1, t1, w) =>
      match s1.kvLanes o key t1 own half r with
      | none => none
      | some (s2, t2, ws) => some (s2, t2, (l, w) :: ws)

/-! ### The draw unit (11 R276-R280) -/

/-- mix of R278. -/
def drawMix (x : BitVec 64) : BitVec 64 :=
  let x := x ^^^ (x >>> 31)
  let x := x * 0x9E6F1D354C2BA871
  let x := x ^^^ (x >>> 29)
  let x := x * 0xB5A307C9E2146D3D
  x ^^^ (x >>> 32)

/-- u(s) of R278, exact in FP32. -/
def drawU (seed pos tree redraws s : Nat) : Word32 :=
  let y : BitVec 64 := BitVec.ofNat 64 (pos * 2 ^ 32 + tree * 2 ^ 12 + redraws * 2 ^ 4 + s)
  let v := (drawMix (drawMix (BitVec.ofNat 64 seed) ^^^ y)).toNat / 2 ^ 40
  if v = 0 then 0 else (rndMag fp32 .rne false v (-24)).val

/-- Outcome of a stage: BADARG, the stage's empty outcome, or an index. -/
inductive Drawn where
  | bad | empty | at' (i : Nat)
deriving DecidableEq, Repr

/-- The largest value; the lowest index of it. -/
def drawMax : List (Nat × Word32) → Option (Nat × Word32)
  | [] => none
  | c :: r => some (r.foldl (fun a b => if fless (fdec fp32 a.2) (fdec fp32 b.2) then b else a) c)

/-- Prefix sums of weights, rounded after each addition. -/
def prefixSums : Option Word32 → List (Nat × Word32) → List (Nat × Word32)
  | _, [] => []
  | acc, (i, w) :: r =>
    let p := match acc with
      | none => w
      | some a => (fadd fp32 .rne a w).val
    (i, p) :: prefixSums (some p) r

/-- The choice of R279 among candidates that are not banned. -/
def drawPick (temp u : Word32) (cs : List (Nat × Word32)) : Drawn :=
  let tv := fdec fp32 temp
  if tv.isNan || tv.isInf || (tv.sgn && !tv.isZero) then .bad
  else
    let ok := cs.filter (fun c => match fdec fp32 c.2 with
      | .nan _ => false
      | .inf n => !n
      | _ => true)
    match drawMax ok with
    | none => .empty
    | some (i, m) =>
      if (fdec fp32 m).isInf || tv.isZero then .at' i
      else
        let k := (fdiv fp32 .rne 0x3FB8AA3B temp).val
        let w (x : Word32) : Word32 := (ffn fp32 .exp2 .rne (fmul fp32 .rne (fsub fp32 .rne x m).val k).val).val
        let ps := prefixSums none (ok.map (fun c => (c.1, w c.2)))
        match ps.getLast? with
        | none => .empty
        | some last =>
          let t := (fmul fp32 .rne u last.2).val
          .at' (((ps.find? (fun p => fless (fdec fp32 t) (fdec fp32 p.2))).getD last).1)

/-- A draw request, R276 Table 4. -/
structure DrawReq where
  seed : Nat
  tree : Nat
  pos : Nat
  temp : Word32
  redraws : Nat
  excl : List Nat
  cladr : VAddr
  maskAddr : VAddr
  biasAddr : VAddr
  biasN : Nat
  bad : Bool
deriving DecidableEq, Repr

def drawReq (bs : List Byte) : DrawReq :=
  let x := ofBytes bs
  { seed := bits x 63 0, tree := bits x 83 64, pos := bits x 127 96, temp := word32 (bits x 159 128), redraws := bits x 162 160,
    excl := (List.range (bits x 162 160)).map (fun i => bits x (177 + 10 * i) (168 + 10 * i)),
    cladr := BitVec.ofNat 64 (bits x 319 256), maskAddr := BitVec.ofNat 64 (bits x 383 320),
    biasAddr := BitVec.ofNat 64 (bits x 447 384), biasN := bits x 463 448,
    bad := decide (bits x 95 84 ≠ 0 ∨ bits x 167 163 ≠ 0 ∨ bits x 255 208 ≠ 0 ∨ bits x 511 464 ≠ 0 ∨ 4 < bits x 162 160) }

def codeNOTOKEN : Nat := 0x10
def codeREDRAW : Nat := 0x11

/-- The cluster stage (R280). -/
def State.drawCl (s : State) (c : Actx) (r : DrawReq) : Eng Word32 :=
  if r.bad || r.cladr.toNat % 4 != 0 then .ok s (treeErr stBADARG) .ok
  else
    match s.engReads c 4 1024 r.cladr with
    | .held => .held
    | .fault f => .fault f
    | .ok s bs st =>
      match (if r.maskAddr = 0 then Eng.ok s (List.replicate 128 0xFF) .ok else s.engReads c 1 128 (r.maskAddr + 32768)) with
      | .held => .held
      | .fault f => .fault f
      | .ok s ms st2 =>
        let cs := ((List.range 1024).filter (fun i => !(r.excl.contains i) && (nth (0 : Byte) ms (i / 8)).getLsbD (i % 8))).map (fun i =>
          (i, word32 (ofBytes (listAt bs (4 * i) 4))))
        let v : Word32 := match drawPick r.temp (drawU r.seed r.pos r.tree r.redraws 0) cs with
          | .bad => treeErr stBADARG
          | .empty => treeErr codeNOTOKEN
          | .at' i => word32 i
        .ok s v (if st = .ok then st2 else st)

/-- Bias pairs until the first index beyond the cluster; `true` if one of those read is bad (R280). -/
def State.biasPairs (s : State) (c : Actx) (hi : Nat) : Nat → VAddr → Option Nat → Eng (List (Nat × Word32) × Bool)
  | 0, _, _ => .ok s ([], false) .ok
  | n + 1, va, prev =>
    match s.engReads c 1 8 va with
    | .held => .held
    | .fault f => .fault f
    | .ok s bs st =>
      let x := ofBytes bs
      let ix := bits x 49 32
      let bad : Bool := bits x 63 50 != 0 || (match prev with
        | some p => decide (ix ≤ p)
        | none => false)
      if bad then .ok s ([], true) st
      else if hi < ix then .ok s ([], false) st
      else
        match s.biasPairs c hi n (va + 8) (some ix) with
        | .held => .held
        | .fault f => .fault f
        | .ok s (l, b) st2 => .ok s ((ix, word32 (bits x 31 0)) :: l, b) (if st = .ok then st2 else st)

/-- The token stage (R280). -/
def State.drawTok (s : State) (c : Actx) (q tile row : Nat) (r : DrawReq) (cl : Nat) : Eng Word32 :=
  if r.bad || 1023 < cl then .ok s (treeErr stBADARG) .ok
  else
    match s.biasPairs c (256 * cl + 255) r.biasN r.biasAddr none with
    | .held => .held
    | .fault f => .fault f
    | .ok s (bias, badBias) st =>
      match (if r.maskAddr = 0 then Eng.ok s (List.replicate 32 0xFF) .ok else s.engReads c 1 32 (r.maskAddr + BitVec.ofNat 64 (32 * cl))) with
      | .held => .held
      | .fault f => .fault f
      | .ok s ms st2 =>
        let x (j : Nat) : Word32 :=
          let v := s.tileAt q (tile + j / 128) row (j % 128)
          match bias.find? (fun p => p.1 = 256 * cl + j) with
          | some p => (fadd fp32 .rne v p.2).val
          | none => v
        let cs := ((List.range 256).filter (fun j => (nth (0 : Byte) ms (j / 8)).getLsbD (j % 8))).map (fun j => (j, x j))
        let v : Word32 :=
          if badBias then treeErr stBADARG
          else match drawPick r.temp (drawU r.seed r.pos r.tree r.redraws 1) cs with
            | .bad => treeErr stBADARG
            | .empty => if r.redraws < 4 then word32 (2 ^ 31 + cl * 256 + codeREDRAW) else treeErr codeNOTOKEN
            | .at' j => word32 (256 * cl + j)
        .ok s v (if st = .ok then st2 else st)

/-- The lanes of an MDRAW, one after another. -/
def State.drawLanes (s : State) (c : Actx) (o : TreeOp) (q : Nat) : List (Nat × Word32) → Eng (List (Nat × Word32))
  | [] => .ok s [] .ok
  | (l, x) :: rest =>
    match s.engRead c (o.a + BitVec.ofNat 64 (64 * l)) 64 with
    | .held => .held
    | .fault f => .fault f
    | .ok s bs st =>
      let r := drawReq bs
      match (match o.kind with
        | .drawTok tile => s.drawTok c q tile l r x.toNat
        | _ => s.drawCl c r) with
      | .held => .held
      | .fault f => .fault f
      | .ok s v st2 =>
        match s.drawLanes c o q rest with
        | .held => .held
        | .fault f => .fault f
        | .ok s vs st3 => .ok s ((l, v) :: vs) (if st ≠ .ok then st else if st2 ≠ .ok then st2 else st3)

end Sys2Proof.Machine
end

