-- ==== Sys2Proof/Machine/Kill.lean ====
section
/-!
DEFINITION. What becomes of a killed group's lanes, accesses and engine work (09 R244; 07 R200; 15 R355; 17 R392; 19 R412).
-/
namespace Sys2Proof.Machine

/-- The accesses that a killed group still performs: strong ones, and weak stores past translation (R244). -/
def LaneAcc.survives (a : LaneAcc) : Bool :=
  a.kind != .weak || (!a.isLoad && a.stage != .issued && a.stage != .faulted)

/-- Operations whose last access has gone complete. -/
def Group.settleAccOps (g : Group) : Group :=
  { g with ops := retireOps [] (g.ops.map (fun o =>
      if o.cls = .vm ∧ !(g.accs.any (fun a => a.op = o.id)) then { o with fin := true } else o)) }

/-- A group is killed: its lanes leave the split table with no status, its access program stops for good, and work not started
is dropped. -/
def Group.kill (g : Group) : Group :=
  Group.settleAccOps
    { g with killed := true, table := [], stack := [], left := BitVec.allOnes 64, age := [], aLoad := none, aBar := none,
             aTrap := none, aSet := none, hangSet := none, xblock := [], accs := g.accs.filter LaneAcc.survives }

/-- Whether a matrix operation of a killed group is dropped: not started, or an MLDB parked on a fault. -/
def MxOp.dropped (o : MxOp) : Bool := !o.begun || o.stage == .parked

/-- Operations of a group end without a token. -/
def State.finAll (s : State) (gid : Nat) (ids : List Nat) : State := s.updGroup gid (fun g => ids.foldl Group.finOp g)

/-- The engine work of a killed group (17 R392; 15 R355). -/
def State.killEngines (s : State) (gid : Nat) : State :=
  let mx := (s.mxOps.filter (fun o => o.gid = gid && o.dropped)).map MxOp.id
  let dr := s.mxOps.filter (fun o => o.gid = gid && (o.stage == MxStage.draining || o.stage == MxStage.drainParked))
  let waitDrain := s.mxOps.filter (fun o => o.gid = gid && o.stage == MxStage.running)
  let s := dr.foldl (fun s o => s.endDrain o (((look s.drains o.id).map Drain.flags).getD 0)) s
  let s := waitDrain.foldl (fun s o => s.setMx { o with stage := .finished }) s
  let ids := mx ++ (s.dlOps.filter (fun o => o.gid = gid)).map DlOp.id ++ (s.cpOps.filter (fun o => o.gid = gid)).map CpOp.id ++
    (s.collOps.filter (fun o => o.gid = gid)).map CollOp.id ++ (s.textOps.filter (fun o => o.gid = gid)).map TextOp.id
  ({ s with mxOps := s.mxOps.filter (fun o => !mx.contains o.id), dlOps := s.dlOps.filter (fun o => o.gid != gid),
            cpOps := s.cpOps.filter (fun o => o.gid != gid), collOps := s.collOps.filter (fun o => o.gid != gid),
            textOps := s.textOps.filter (fun o => o.gid != gid) }).finAll gid ids

/-- A member departs when its team is killed, that is when every group of it is (12 R300): the other members are told. -/
def State.departTest (s : State) (tid : Nat) : State :=
  match s.team tid with
  | none => s
  | some t =>
    if t.departed ∨ t.others.isEmpty ∨ s.groups.any (fun g => g.2.tid = tid && !g.2.killed) then s
    else (s.updTeam tid (fun t => { t with departed := true })).tellMembers tid ridgeDEPARTED

/-- A group is killed where it stands, resident or saved (R244; 19 R412). Killing a killed or retired group changes nothing. -/
def State.killGroup (s : State) (gid : Nat) : State :=
  match s.group gid with
  | none => s
  | some g =>
    if g.killed ∨ g.retired then s
    else
      let s := (s.killEngines gid).updGroup gid Group.kill
      (({ s with notices := s.notices.filter (fun n => n.gid != gid),
                 pendingNotices := s.pendingNotices.filter (fun n => n.gid != gid) }).retestBars g.tid).departTest g.tid

end Sys2Proof.Machine
end

