-- ==== Sys2Proof/Machine/Text.lean ====
section
/-!
DEFINITION. The text engine and the mailbox: TXTOK, TXDET, TXLOAD, MBPOST and their events (11 R262-R270, R281).
-/
namespace Sys2Proof.Machine

/-- Text-engine error codes, 11 Table 1. -/
def codeNOTABLE : Nat := 0x20
def codePRIV : Nat := 0x21
def codeSETBUSY : Nat := 0x24

/-! ### Issue -/

/-- A text command of the issuing die, counted in TR (R262). -/
def State.textWord (s : State) (t a : SReg) (k : Nat) (kind : TextKind) (ready : Group → Bool) : Out :=
  s.engineWord t a k (some .tr) ready (fun s id gid g d =>
    { s with textOps := s.textOps ++ [{ id := id, gid := gid, die := g.die, token := t, kind := kind, desc := d, consumed := 0,
                                        wrote := 0, units := 0, buf := [], pos := 0, begun := false, parkSet := none,
                                        image := none, pc := g.apc }] })

def execTxtok (t : SReg) (priv : Bool) (a : SReg) (s : State) : Out := s.textWord t a 4 (.txtok priv) (fun _ => true)
def execTxdet (t a : SReg) (s : State) : Out := s.textWord t a 4 .txdet (fun _ => true)
def execTxload (t a : SReg) (s : State) : Out := s.textWord t a 2 .txload (fun _ => true)

/-- Entries of a die's mailbox that are in use or promised to accepted commands. -/
def State.mailUsed (s : State) (die : Nat) : Nat :=
  (rd [] s.mailbox die).length + (s.textOps.filter (fun o => o.die = die && o.kind == .mbpost)).length

/-- MBPOST is accepted only when one of the die's 256 entries is free (R281). -/
def execMbpost (t a : SReg) (s : State) : Out := s.textWord t a 2 .mbpost (fun g => decide (s.mailUsed g.die < 256))

/-! ### Common parts -/

/-- Why a command's work stops. -/
inductive TextStop where
  | fin
  | held
  | memErr (st : MemStatus)
  | fault (f : XFault)

def State.setText (s : State) (o : TextOp) : State := { s with textOps := s.textOps.map (fun p => if p.id = o.id then o else p) }
def State.endText (s : State) (o : TextOp) (v : Word64) : State :=
  { s.endCommand o.gid o.id o.token v with textOps := s.textOps.filter (fun p => p.id != o.id) }

def TextKind.code : TextKind → Nat
  | .txtok _ => 0
  | .txdet => 1
  | .txload => 2
  | .mbpost => 3

/-- A stop before the end: the command stays where it is, ends with MEMERR, or parks with its progress in a record (R263). -/
def State.textStop (s : State) (o : TextOp) : TextStop → State
  | .fault f =>
    let (s, set) := s.engineFault o.gid .text f o.pc 0 (o.consumed + 2 ^ 32 * o.wrote + 2 ^ 64 * o.kind.code) (.text o.id)
    s.setText { o with parkSet := some set }
  | .memErr st => (s.memError (s.launchOf o.gid) st).endText o (errorValue codeMEMERR)
  | _ => s.setText o

/-- k bytes read one after another, as far as they can be. -/
def State.bytesFrom (s : State) (c : Actx) : Nat → VAddr → State × List Byte × TextStop
  | 0, _ => (s, [], .fin)
  | k + 1, va =>
    match s.engRead c va 1 with
    | .held => (s, [], .held)
    | .fault f => (s, [], .fault f)
    | .ok s1 bs st =>
      if st ≠ .ok then (s1, [], .memErr st)
      else
        let (s2, r, x) := s1.bytesFrom c k (va + 1)
        (s2, bs ++ r, x)

/-- Bytes written one after another. -/
def State.bytesTo (s : State) (c : Actx) (lid : Option Nat) : VAddr → List Byte → State × TextStop
  | _, [] => (s, .fin)
  | va, b :: r =>
    match s.engWrite c va [b] with
    | .held => (s, .held)
    | .fault f => (s, .fault f)
    | .ok s1 _ st => (s1.memError lid st).bytesTo c lid (va + 1) r

/-- 32-bit ids written one after another. -/
def State.idsTo (s : State) (c : Actx) (lid : Option Nat) : VAddr → List Nat → State × TextStop
  | _, [] => (s, .fin)
  | va, x :: r =>
    match s.engWrite c va (toBytes x 4) with
    | .held => (s, .held)
    | .fault f => (s, .fault f)
    | .ok s1 _ st => (s1.memError lid st).idsTo c lid (va + 4) r

/-- The loaded lexicon of a slot. -/
def State.lexicon (s : State) (slot : Nat) : Option Lexicon := (look s.lexicons slot).map (fun im => (s.imageReader im).lexicon)

/-! ### Tokenizing (R266-R268) -/

/-- The longest candidate that the bytes begin with, and its value. -/
def longestAt {α : Type} (cands : List (List Byte × α)) (src : List Byte) : Option (Nat × α) :=
  cands.foldl (fun best c =>
    if c.1 ≠ [] ∧ src.take c.1.length = c.1 ∧ (best.map (fun (p : Nat × α) => p.1)).getD 0 < c.1.length then some (c.1.length, c.2)
    else best) none

/-- A piece of the source: plain text from an offset, or a control token that ends at one. -/
inductive Piece where
  | plain (start : Nat) (text : List Byte)
  | control (stop id : Nat)

def plainPiece (start : Nat) (rev : List Byte) : List Piece := if rev.isEmpty then [] else [.plain start rev.reverse]
/-- Source split at each longest match of a control token's bytes. -/
def piecesFrom (ctl : List (List Byte × Nat)) : Nat → Nat → Nat → List Byte → List Byte → List Piece
  | 0, _, start, rev, _ => plainPiece start rev
  | _, _, start, rev, [] => plainPiece start rev
  | n + 1, o, start, rev, b :: r =>
    match longestAt ctl (b :: r) with
    | some (k, id) => plainPiece start rev ++ .control (o + k) id :: piecesFrom ctl n (o + k) (o + k) [] ((b :: r).drop k)
    | none => piecesFrom ctl n (o + 1) start (b :: rev) r

/-- Normalised bytes, each with the source offset up to which the source is consumed once the byte has been (log 35). -/
def normFrom (tbl : List (List Byte × List Byte)) : Nat → Nat → List Byte → List (Byte × Nat)
  | 0, _, _ => []
  | _, _, [] => []
  | n + 1, o, b :: r =>
    match longestAt tbl (b :: r) with
    | some (k, out) =>
      (out.zipIdx.map (fun x => (x.1, if x.2 + 1 = out.length then o + k else o))) ++ normFrom tbl n (o + k) ((b :: r).drop k)
    | none => (b, o + 1) :: normFrom tbl n (o + 1) r

/-- Whether a word ends between two bytes. -/
def Lexicon.breakAt (x : Lexicon) (a b : Byte) : Bool :=
  (nth 0#16 x.breaks (nth 0 x.classes a.toNat)).getLsbD (nth 0 x.classes b.toNat)

/-- Bytes cut into words. -/
def Lexicon.wordsOf (x : Lexicon) : List (Byte × Nat) → List (List (Byte × Nat))
  | [] => []
  | [b] => [[b]]
  | a :: b :: r =>
    let ws := x.wordsOf (b :: r)
    if x.breakAt a.1 b.1 then [a] :: ws
    else match ws with
      | w :: t => (a :: w) :: t
      | [] => [[a]]

/-- A merge of two ids whose result is not a control id: rank and result. -/
def Lexicon.mergeOf (x : Lexicon) (l r : Nat) : Option (Nat × Nat) :=
  match x.merges.find? (fun m => m.1 = l && m.2.1 = r) with
  | some (_, _, rank, res) => if x.control.contains res then none else some (rank, res)
  | none => none

/-- The adjacent pair of lowest rank, leftmost on ties: its index and result. -/
def Lexicon.bestPair (x : Lexicon) (ids : List Nat) : Option (Nat × Nat) :=
  let c := (List.range (ids.length - 1)).filterMap (fun i => (x.mergeOf (nth 0 ids i) (nth 0 ids (i + 1))).map (fun m => (m.1, i, m.2)))
  (c.foldl (fun (best : Option (Nat × Nat × Nat)) p => match best with
    | some b => if p.1 < b.1 then some p else best
    | none => some p) none).map Prod.snd

/-- Merge until no pair qualifies; each merge shortens the list. -/
def Lexicon.mergeAll (x : Lexicon) : Nat → List Nat → List Nat
  | 0, ids => ids
  | n + 1, ids =>
    match x.bestPair ids with
    | some (i, res) => x.mergeAll n (ids.take i ++ res :: ids.drop (i + 2))
    | none => ids

/-- The ids of a word (R267). -/
def Lexicon.wordIds (x : Lexicon) (w : List Byte) : List Nat :=
  let ids := w.map (fun b => nth 0 x.byteTok b.toNat)
  if 64 < w.length then ids else x.mergeAll 64 ids

/-- The words and control pieces of a source: their ids, and the offset consumed behind each. -/
def Lexicon.units (x : Lexicon) (ctl : Bool) (src : List Byte) : List (List Nat × Nat) :=
  let cands : List (List Byte × Nat) := if ctl then x.control.map (fun id => (nth [] x.tokBytes id, id)) else []
  (piecesFrom cands (src.length + 1) 0 0 [] src).flatMap (fun p => match p with
    | .control stop id => [([id], stop)]
    | .plain start text =>
      let stop := start + text.length
      let ws := (x.wordsOf (normFrom x.norm (text.length + 1) start text)).map (fun w =>
        (x.wordIds (w.map Prod.fst), ((w.getLast?).map Prod.snd).getD start))
      if ws.isEmpty then [([], stop)]
      else ws.zipIdx.map (fun w => if w.2 + 1 = ws.length then (w.1.1, stop) else w.1))

/-- Units written from where the command stands; `full` tells that the capacity stopped it. -/
def State.writeUnits (s : State) (c : Actx) (lid : Option Nat) (dst : VAddr) (cap : Nat) (o : TextOp) :
    List (List Nat × Nat) → State × TextOp × Bool × TextStop
  | [] => (s, o, false, .fin)
  | (ids, stop) :: r =>
    if cap < o.wrote + ids.length then (s, o, true, .fin)
    else
      match s.idsTo c lid (dst + BitVec.ofNat 64 (4 * o.wrote)) ids with
      | (s1, .fin) => s1.writeUnits c lid dst cap { o with wrote := o.wrote + ids.length, consumed := stop, units := o.units + 1 } r
      | (s1, x) => (s1, o, false, x)

/-- TXTOK as far as it gets. Where the source cannot be read on, units that end 68 bytes or more before that place are certain,
since no match is longer: they are written first (log 36). -/
def State.runTok (s : State) (c : Actx) (o : TextOp) (priv : Bool) : State :=
  let r (i : Nat) : Nat := (nth 0 o.desc i).toNat
  let len := bits (r 2) 31 0
  let bad : Bool := bits (r 2) 39 35 ≠ 0 ∨ bits (r 2) 63 41 ≠ 0 ∨ bits (r 3) 63 32 ≠ 0 ∨ 2 ^ 31 ≤ len ∨ r 1 % 4 ≠ 0
  let privOk : Bool := match s.where' o.gid with
    | some (_, _, l) => l.priv
    | none => false
  if bad then s.endText o (errorValue codeBADARG)
  else if priv ∧ !privOk then s.endText o (errorValue codePRIV)
  else
    match s.lexicon (bits (r 2) 34 32) with
    | none => s.endText o (errorValue codeNOTABLE)
    | some x =>
      let (s, more, stop) := s.bytesFrom c (len - o.buf.length) (nth 0 o.desc 0 + BitVec.ofNat 64 o.buf.length)
      let o := { o with buf := o.buf ++ more }
      let all := x.units (priv && !(bit (r 2) 40)) o.buf
      let sure := match stop with
        | .fin => all
        | _ => all.filter (fun u => u.2 + 68 ≤ o.buf.length)
      match s.writeUnits c (s.launchOf o.gid) (nth 0 o.desc 1) (bits (r 3) 31 0) o (sure.drop o.units) with
      | (s, o, full, .fin) =>
        match full, stop with
        | false, .held | false, .memErr _ | false, .fault _ => s.textStop o stop
        | _, _ => s.endText o (BitVec.ofNat 64 (o.wrote + 2 ^ 32 * o.consumed))
      | (s, o, _, x) => s.textStop o x

/-! ### Detokenizing (R269, R270) -/

/-- The fields of a state block that a command uses. -/
structure DetBlock where
  pos : Nat
  held : List Byte
  stopped : Bool
  stopix : Nat
  stopat : Nat

def detBlock (bs : List Byte) : DetBlock :=
  let x := ofBytes bs
  ⟨bits x 63 0, toBytes (bits x 511 264) (bits x 68 64), bit x 72, bits x 83 80, bits x 199 136⟩
def DetBlock.bytes (d : DetBlock) : List Byte :=
  toBytes (d.pos % 2 ^ 64 + 2 ^ 64 * d.held.length + (if d.stopped then 2 ^ 72 else 0) + 2 ^ 80 * d.stopix +
    2 ^ 136 * (d.stopat % 2 ^ 64) + 2 ^ 264 * ofBytes d.held) 64

/-- Whether a string occurs at a place. -/
def occursAt (buf t : List Byte) (p : Nat) : Bool := t ≠ [] && (buf.drop p).take t.length == t
/-- The lowest start of any stop string, and the lowest index that occurs there. -/
def stopIn (stops : List (List Byte)) (buf : List Byte) : Option (Nat × Nat) :=
  match (List.range buf.length).find? (fun p => stops.any (fun t => occursAt buf t p)) with
  | none => none
  | some p => (stops.findIdx? (fun t => occursAt buf t p)).map (fun i => (p, i))
/-- The length of the longest suffix that is a proper beginning of a stop string. -/
def holdBack (stops : List (List Byte)) (buf : List Byte) : Nat :=
  ((List.range (buf.length + 1)).filter (fun h => stops.any (fun t =>
    h < t.length && buf.drop (buf.length - h) == t.take h))).foldl max 0

/-- The end of TXDET: the last bytes are emitted, the block is written, and the token gets its value. After a bad token id the
block keeps the tokens before it (log 37). -/
def State.endDet (s : State) (c : Actx) (o0 o : TextOp) (d : DetBlock) (out : List Byte) (err : Option Nat) : State :=
  let lid := s.launchOf o.gid
  match s.bytesTo c lid (nth 0 o.desc 1 + BitVec.ofNat 64 o0.wrote) out with
  | (s, .fin) =>
    match s.bytesTo c lid (nth 0 o.desc 3) d.bytes with
    | (s, .fin) =>
      let v := (o0.wrote + out.length) % 2 ^ 32 + 2 ^ 32 * (o.consumed % 2 ^ 24) + (if d.stopped then 2 ^ 56 else 0) + 2 ^ 57 * d.stopix
      s.endText o ((err.map errorValue).getD (BitVec.ofNat 64 v))
    | (s, x) => s.textStop o0 x
  | (s, x) => s.textStop o0 x

/-- The tokens that are left, one after another (R270). -/
def State.detTokens (s : State) (c : Actx) (x : Lexicon) (stops : List (List Byte)) (d : DetBlock) (flush : Bool) :
    Nat → TextOp → State
  | 0, o =>
    let n := if flush then o.buf.length else 0
    s.endDet c o o { d with pos := o.pos + n, held := o.buf.drop n } (o.buf.take n) none
  | k + 1, o =>
    match s.engRead c (nth 0 o.desc 0 + BitVec.ofNat 64 (4 * o.consumed)) 4 with
    | .held => s.textStop o .held
    | .fault f => s.textStop o (.fault f)
    | .ok s bs st =>
      if st ≠ .ok then s.textStop o (.memErr st)
      else if x.nvocab ≤ ofBytes bs then s.endDet c o o { d with pos := o.pos, held := o.buf } [] (some codeBADARG)
      else
        let buf := o.buf ++ nth [] x.tokBytes (ofBytes bs)
        let o1 := { o with consumed := o.consumed + 1 }
        match stopIn stops buf with
        | some (p, i) =>
          s.endDet c o o1 { d with pos := o.pos, held := [], stopped := true, stopix := i, stopat := o.pos + p } (buf.take p) none
        | none =>
          let n := buf.length - holdBack stops buf
          match s.bytesTo c (s.launchOf o.gid) (nth 0 o.desc 1 + BitVec.ofNat 64 o.wrote) (buf.take n) with
          | (s, .fin) => s.detTokens c x stops d flush k { o1 with wrote := o.wrote + n, pos := o.pos + n, buf := buf.drop n }
          | (s, y) => s.textStop o y

/-- TXDET as far as it gets. -/
def State.runDet (s : State) (c : Actx) (o : TextOp) : State :=
  let r (i : Nat) : Nat := (nth 0 o.desc i).toNat
  let blk := nth 0 o.desc 3
  let bad : Bool := bits (r 2) 39 35 ≠ 0 ∨ bits (r 2) 63 41 ≠ 0 ∨ r 0 % 4 ≠ 0 ∨ r 3 % 64 ≠ 0
  if bad then s.endText o (errorValue codeBADARG)
  else
    match s.lexicon (bits (r 2) 34 32) with
    | none => s.endText o (errorValue codeNOTABLE)
    | some x =>
      match s.engReads c 8 (8 + 128) blk with
      | .held => s.textStop o .held
      | .fault f => s.textStop o (.fault f)
      | .ok s bs st =>
        if st ≠ .ok then s.textStop o (.memErr st)
        else
          let d := detBlock (bs.take 64)
          let row (i : Nat) : List Byte := (bs.drop (64 + 64 * i)).take 64
          let n (i : Nat) : Nat := (nth 0#8 (row i) 0).toNat
          let stops := (List.range 16).map (fun i => ((row i).drop 1).take (n i))
          if (List.range 16).any (fun i => 32 < n i) then s.endText o (errorValue codeBADARG)
          else if d.stopped ∧ !o.begun then s.endDet c o o d [] none
          else
            let o := if o.begun then o else { o with begun := true, buf := d.held, pos := d.pos }
            s.detTokens c x stops d (bit (r 2) 40) (bits (r 2) 31 0 - o.consumed) o

/-! ### Loading (R264, R265) -/

/-- Sections read, each byte kept at its offset. -/
def State.loadSections (s : State) (c : Actx) (base : VAddr) : List (Nat × Nat) → AMap Byte → Eng (AMap Byte)
  | [], m => .ok s m .ok
  | (o, k) :: r, m =>
    match s.engReads c 1 k (base + BitVec.ofNat 64 o) with
    | .held => .held
    | .fault f => .fault f
    | .ok s1 bs st =>
      match s1.loadSections c base r (bs.zipIdx.foldl (fun m b => wr 0 m (o + b.2) b.1) m) with
      | .ok s2 m2 st2 => .ok s2 m2 (if st = .ok then st2 else st)
      | x => x

/-- A checked image: none is a bad one. -/
def Eng.check (x : Eng (AMap Byte)) (bad : Reader → Bool) (f : State → AMap Byte → MemStatus → Eng (Option (AMap Byte))) :
    Eng (Option (AMap Byte)) :=
  match x with
  | .held => .held
  | .fault e => .fault e
  | .ok s m st => if st = .ok ∧ bad (byteReader m) then .ok s none st else f s m st

/-- The image of a TXLOAD, read and checked. -/
def State.loadImage (s : State) (c : Actx) (base : VAddr) (gram : Bool) : Eng (Option (AMap Byte)) :=
  let yes (s : State) (m : AMap Byte) (st : MemStatus) : Eng (Option (AMap Byte)) := .ok s (some m) st
  if gram then
    (s.loadSections c base [(0, 64)] []).check Reader.gramHeaderBad (fun s m st =>
      if st ≠ .ok then .ok s none st
      else (s.loadSections c base (byteReader m).gramSections m).check Reader.gramBad yes)
  else
    (s.loadSections c base [(0, 64)] []).check Reader.lexHeaderBad (fun s m st =>
      if st ≠ .ok then .ok s none st
      else (s.loadSections c base (byteReader m).lexSections m).check Reader.tokensBad (fun s m st =>
        if st ≠ .ok then .ok s none st
        else (s.loadSections c base (byteReader m).tokSections m).check Reader.lexBad yes))

/-- TXLOAD reads S[SA + 1]: the number and the kind. -/
def TextOp.number (o : TextOp) : Nat := bits (nth 0 o.desc 1).toNat 7 0
def TextOp.isGram (o : TextOp) : Bool := bit (nth 0 o.desc 1).toNat 8
def TextOp.loads (o : TextOp) : Bool := o.kind == .txload
/-- The lexicon slot that a TXTOK or TXDET uses. -/
def TextOp.slot (o : TextOp) : Nat := bits (nth 0 o.desc 2).toNat 34 32
def TextOp.usesSlot (o : TextOp) : Bool :=
  match o.kind with
  | .txtok _ | .txdet => true
  | _ => false

def State.partOf (s : State) (gid : Nat) : Option Nat := (s.where' gid).map (fun x => x.2.2.part)

/-- Whether a live tree of the group's partition names a grammar set. -/
def State.setBusy (s : State) (gid n : Nat) : Bool :=
  s.trees.any (fun t => t.2.live && t.2.gset == n && s.partOf gid == some t.2.owner)

def State.runLoad (s : State) (c : Actx) (o : TextOp) : State :=
  let base := nth 0 o.desc 0
  let bad : Bool := (nth 0 o.desc 1).toNat / 512 ≠ 0 ∨ (o.isGram ∧ o.number = 0) ∨ (!o.isGram ∧ (7 < o.number ∨ base.toNat % 4096 ≠ 0))
  if bad then s.endText o (errorValue codeBADARG)
  else if o.isGram ∧ s.setBusy o.gid o.number then s.endText o (errorValue codeSETBUSY)
  else
    match s.loadImage c base o.isGram with
    | .held => s
    | .fault f => s.textStop o (.fault f)
    | .ok s m st =>
      if st ≠ .ok then s.textStop o (.memErr st)
      else match m with
        | none => s.endText o (errorValue codeBADIMAGE)
        | some m => s.setText { o with image := some m }

/-! ### The mailbox (R281) -/

def State.runPost (s : State) (c : Actx) (o : TextOp) : State :=
  let r := (nth 0 o.desc 1).toNat
  let n := bits r 3 0
  let stream := bits r 31 16
  if n = 0 ∨ 14 < n ∨ bits r 15 4 ≠ 0 ∨ bits r 63 33 ≠ 0 then s.endText o (errorValue codeBADARG)
  else
    match s.bytesFrom c (4 * n) (nth 0 o.desc 0) with
    | (s, bs, .fin) =>
      let ids := (List.range n).map (fun i => BitVec.ofNat 32 (ofBytes ((bs.drop (4 * i)).take 4)))
      let k := o.die * 65536 + stream
      let seq := rd 0 s.mbSeq k
      ({ s with mailbox := put s.mailbox o.die (rd [] s.mailbox o.die ++ [(ids, bit r 32, stream, seq)]),
                mbSeq := wr 0 s.mbSeq k ((seq + 1) % 2 ^ 32) }).endText o (BitVec.ofNat 64 seq)
    | (s, _, x) => s.textStop o x

/-- MAILBOX_DELIVERY: the firmware takes a die's oldest entry and gives it to the host. -/
def execMailboxDelivery (die : Nat) (s : State) : Out :=
  match rd [] s.mailbox die with
  | [] => .next s
  | (ids, fin, stream, seq) :: r => .next ({ s with mailbox := wr [] s.mailbox die r }.emit (.mailbox die ids fin stream seq))

/-! ### Events -/

/-- A command waits for the group's earlier commands on the engine (R262) and for an earlier load of the slot it uses (R265). -/
def State.textWaits (s : State) (o : TextOp) : Bool :=
  s.textOps.any (fun p => decide (p.id < o.id) &&
    (p.gid == o.gid || (o.usesSlot && p.loads && !p.isGram && p.number == o.slot)))

/-- TEXT_COMMAND_COMPLETE: the engine performs the command (R262-R270). A load that passes waits for its replacement. -/
def execTextCommandComplete (op : Nat) (s : State) : Out :=
  match s.textOps.find? (fun o => o.id = op) with
  | none => .next s
  | some o =>
    match s.actx o.gid with
    | none => .next s
    | some c =>
      if o.parkSet.isSome ∨ o.image.isSome ∨ s.textWaits o then .next s
      else .next (match o.kind with
        | .txtok priv => s.runTok c o priv
        | .txdet => s.runDet c o
        | .txload => s.runLoad c o
        | .mbpost => s.runPost c o)

/-- TXLOAD_REPLACEMENT: once every earlier command that uses the old contents has ended, the load replaces its target, and its
token fills with 0 (R265). A tree that names the set by then makes the load fail with SETBUSY. -/
def execTxloadReplacement (op : Nat) (s : State) : Out :=
  match s.textOps.find? (fun o => o.id = op) with
  | none => .next s
  | some o =>
    match o.image, s.actx o.gid with
    | some m, some c =>
      let im : Image := ⟨c.part, c.root, nth 0 o.desc 0, m⟩
      let used : Bool :=
        if o.isGram then s.treeOps.any (fun t => decide (t.id < op) && t.kind == TreeKind.trnew && t.part == c.part &&
          t.reply.isNone && bits t.a.toNat 47 32 == o.number)
        else s.textOps.any (fun p => decide (p.id < op) && ((p.usesSlot && p.slot == o.number) ||
          (p.loads && !p.isGram && p.number == o.number)))
      if used then .next s
      else if o.isGram then
        if s.setBusy o.gid o.number then .next (s.endText o (errorValue codeSETBUSY))
        else .next (({ s with grammars := put s.grammars (c.part * 256 + o.number) im }).endText o 0)
      else .next (({ s with lexicons := put s.lexicons o.number im }).endText o 0)
    | _, _ => .next s

end Sys2Proof.Machine
end

