-- ==== Sys2Proof/Machine/TreeOps.lean ====
section
/-!
DEFINITION. Tree, mask, KV and draw instructions at issue, their arrival and reply, broadcasts, and compaction (09 R227-R245;
10 R253, R255-R260; 11 R274, R277). TREE_OPERATION_ARRIVAL, TREE_REPLY, the broadcast events, COMPACTION_MOVE and _SWITCH.
-/
namespace Sys2Proof.Machine

/-! ### Issue (09 R228) -/

/-- What stops a tree instruction at issue: an unaligned address, or a fault (09 R238, R239; 11 R274, R276). -/
inductive TrStop where
  | align (a : VAddr)
  | fault (f : XFault)

/-- Issue of an instruction of class TR. `xs` picks its per-lane source; `pre` is its check of addresses. -/
def State.issueTr (s : State) (w : Lane) (kind : TreeKind) (chk hold : Bool)
    (xs : (Nat → Word32) → (Nat → Word32) → (Nat → Word32) → Nat → Word32) (pre : State → Actx → TreeOp → Option TrStop) : Out :=
  match s.issuer with
  | none => .fault .noIssuer
  | some x =>
    let m := x.active w.gp w.neg
    if x.commitWait then .next s
    else if m = 0 then .next (x.done s x.g)
    else
      match s.fetchLane x w m, s.actx x.gid with
      | .hold, _ => .next s
      | .trap t, _ => .next (s.trapPrecise x.gid x.e (x.trapRec .emptyRead 0 t))
      | _, none => .next s
      | .ok va vb vc g post, some c =>
        let d := g.destOf x.en.wbase w.dst
        let id := s.nextId
        let op : TreeOp :=
          { id := id, gid := x.gid, entry := x.e, index := x.en.pos, kind := kind, part := c.part, die := g.die, lanes := m,
            dst := d, a := g.uniform w.sa, b := g.uniform w.sb, c := g.uniform w.sc, x := (List.range 64).map (xs va vb vc),
            chk := chk, reply := none, noLegal := false }
        match pre s c op with
        | some (.align a) => .next (s.trapPrecise x.gid x.e { x.trapRec .align 0 m with addr := a.setWidth 57 })
        | some (.fault f) =>
          let (s, set) := s.pushFaults [{ s.frec x.gid .lane .none f.cause f.sub f.level f.addr x.en.pc (.split x.gid x.e) with
            index := x.en.pos, split := x.e }]
          .next ((s.updGroup x.gid (fun g => g.updEntry x.e (fun en => en.recordDone x.en.pos 0))).park x.gid x.e set)
        | none =>
          if g.count .tr = 63 ∨ g.pendingIn d m then .next s
          else
            let g := (g.issueOp id .tr x.e x.en.pos m).overLanes m (fun g l => g.setDest d l .pending)
            let g := if hold then g.updEntry x.e (fun en => { en with holds := en.holds ++ [id] }) else g
            let g := match post with
              | some e => g.notePost x.e ⟨.emptyRead, x.en.pos, e, 0⟩
              | none => g
            .next { x.done s g with nextId := id + 1, treeOps := s.treeOps ++ [op] }

def noStop (_ : State) (_ : Actx) (_ : TreeOp) : Option TrStop := none
/-- XOP[0] of the tree instructions: .chk. -/
def laneChk (w : Lane) : Bool := w.xop.getLsbD 0
def useB (_ b _ : Nat → Word32) : Nat → Word32 := b
def useC (_ _ c : Nat → Word32) : Nat → Word32 := c

def execTrnew (w : Lane) (s : State) : Out := s.issueTr w .trnew (laneChk w) (laneChk w) useB noStop
def execTradd (w : Lane) (s : State) : Out := s.issueTr w .tradd (laneChk w) (laneChk w) useC noStop
def execTrfork (w : Lane) (s : State) : Out := s.issueTr w .trfork (laneChk w) (laneChk w) useB noStop
def execTrpruneBr (w : Lane) (s : State) : Out := s.issueTr w .pruneBr (laneChk w) (laneChk w) useB noStop
def execTrpruneSub (w : Lane) (s : State) : Out := s.issueTr w .pruneSub (laneChk w) (laneChk w) useB noStop
def execTrcommit (w : Lane) (s : State) : Out := s.issueTr w .commit (laneChk w) (laneChk w) useB noStop
def execTrinfo (w : Lane) (s : State) : Out := s.issueTr w (.info (w.xop.toNat / 2)) (laneChk w) (laneChk w) useB noStop

/-- TRTAG: the tag is written at issue (R237). A value above 32 bits writes nothing, and a tag of tree 0 clears the tag; both are
answered without a unit. -/
def execTrtag (w : Lane) (s : State) : Out :=
  match s.issuer with
  | none => .fault .noIssuer
  | some x =>
    let id := s.nextId
    let v := x.g.uniform w.sa
    match s.issueTr w .tag (laneChk w) (laneChk w) useB noStop with
    | .next s' =>
      if s'.nextId = id then .next s'
      else if v.toNat / 2 ^ 32 ≠ 0 then
        .next { s' with treeOps := s'.treeOps.map (fun o => if o.id = id then { o with reply := some (allRes (treeErr stBADARG)) } else o) }
      else
        let s1 := s'.updGroup x.gid (fun g => { g with tag := v.setWidth 32 })
        if v.toNat / 4096 = 0 then
          .next { s1 with treeOps := s1.treeOps.map (fun o => if o.id = id then { o with reply := some (allRes 0) } else o) }
        else .next s1
    | y => y

/-- The first page of a range that cannot be written. -/
def State.writeCheck (s : State) (c : Actx) (n k : Nat) (va : VAddr) : Option XFault :=
  ((List.range k).filterMap (fun i =>
    match s.translate c .write false (va + BitVec.ofNat 64 (n * i)) with
    | .error f => some f
    | .ok _ => none)).head?

/-- AMASK (R238, R239): A must be a multiple of 1,024, and is translated for writing. -/
def execAmask (w : Lane) (s : State) : Out :=
  s.issueTr w .amask false false useB (fun s c o =>
    if o.c.toNat % 1024 ≠ 0 then some (.align o.c) else (s.writeCheck c 1024 1 o.c).map .fault)

/-- GMASK (11 R274): its run waits for the reply. -/
def execGmask (w : Lane) (s : State) : Out :=
  s.issueTr w (.gmask (w.xop.toNat % 8)) false true useB (fun s c o =>
    if o.c.toNat % 128 ≠ 0 then some (.align o.c)
    else ((s.writeCheck c 4096 8 o.c).orElse (fun _ => s.writeCheck c 64 2 (o.c + 32768))).map .fault)

def execKvslotRd (w : Lane) (s : State) : Out := s.issueTr w (.kvRd (w.xop.toNat % 2)) false false useB noStop
def execKvslotOwn (w : Lane) (s : State) : Out := s.issueTr w (.kvOwn (w.xop.toNat % 2)) false false useB noStop

/-- MDRAW: its request address must be a multiple of 64, and a read that cannot be made is a fault of the instruction (00 R23;
log 32). -/
def State.drawCheck (s : State) (c : Actx) (o : TreeOp) : Option TrStop :=
  if o.a.toNat % 64 ≠ 0 then some (.align o.a)
  else
    let q := ((s.group o.gid).map Group.quarterId).getD 0
    match s.drawLanes c o q o.laneVals with
    | .fault f => some (.fault f)
    | _ => none
def execMdrawCl (w : Lane) (s : State) : Out := s.issueTr w .drawCl false false useB State.drawCheck
def execMdrawTok (w : Lane) (s : State) : Out := s.issueTr w (.drawTok (w.imm.toNat % 8)) false false useB State.drawCheck

/-! ### Arrival (R240-R242) -/

/-- Operations that wait while the tree is BUSY (R241; 10 R256). -/
def TreeKind.waits : TreeKind → Bool
  | .tradd | .trfork | .pruneBr | .pruneSub | .commit | .kvOwn _ => true
  | _ => false

/-- What an operation does: none while it is held. -/
def State.performTr (s : State) (o : TreeOp) (g : Group) (c : Actx) : Option (State × List Word32 × Bool) :=
  let one (x : State × Word32) : Option (State × List Word32 × Bool) := some (x.1, allRes x.2, false)
  let dead : Option (State × List Word32 × Bool) := some (s, allRes (treeErr stDEADTREE), false)
  match o.kind with
  | .trnew => one (s.trnew o c.root)
  | .tag =>
    let h := o.a.toNat / 4096 % 2 ^ 20
    match s.treeOf o.part h with
    | none => dead
    | some (_, t) => one (s, if t.live' (o.a.toNat / 64 % 64) then 0 else treeErr stDEADNODE)
  | .amask => (s.amask o c).map (fun x => (x.1, allRes x.2, false))
  | .gmask _ => (s.gmask o c).map (fun x => (x.1, allRes x.2.1, x.2.2))
  | .drawCl | .drawTok _ =>
    match s.drawLanes c o g.quarterId o.laneVals with
    | .held => none
    | .fault _ => some (s, (List.range 64).map (fun l => (s.freeValue l).setWidth 32), false)
    | .ok s l st => some (s.memError (s.launchOf o.gid) st, laneRes l, false)
  | k =>
    match o.tree s with
    | none => dead
    | some (key, t) =>
      match k with
      | .tradd =>
        let b := o.b.toNat
        if 63 < b then one (s, treeErr stBADARG)
        else if !t.live' b then one (s, treeErr stDEADNODE)
        else (s.addLanes key t o.part b none o.laneVals).map (fun x => (x.1.setTree key x.2.1, laneRes x.2.2, false))
      | .trfork =>
        let (s1, t1, l) := s.forkLanes o.part t o.laneVals
        some (s1.setTree key t1, laneRes l, false)
      | .pruneBr => one (s.pruneBr o key t)
      | .pruneSub => one (s.pruneSub o key t)
      | .commit => one (s.trcommit o key t)
      | .info f => some (s, laneRes (o.laneVals.map (fun p => (p.1, infoOf t f p.2.toNat))), false)
      | .kvRd h => (s.kvLanes o key t false h o.laneVals).map (fun x => (x.1, laneRes x.2.2, false))
      | .kvOwn h => (s.kvLanes o key t true h o.laneVals).map (fun x => (x.1.setTree key x.2.1, laneRes x.2.2, false))
      | _ => dead

/-- The handle that an operation names, for the order of one tree's operations. -/
def TreeOp.orderKey (o : TreeOp) : Nat :=
  match o.kind with
  | .tag => o.a.toNat / 4096 % 2 ^ 20
  | _ => o.handle

/-- Whether an operation may arrive: a group's operations on one tree arrive in issue order; one that waits for BUSY lets later
ones that do not wait pass (R240, R241). A .tok draw waits for the group's earlier matrix operations on its tiles (11 R277). -/
def State.trReady (s : State) (o : TreeOp) : Bool :=
  let busy := match o.tree s with
    | some (_, t) => t.busy
    | none => false
  !(busy && o.kind.waits) &&
    !(s.treeOps.any (fun p => p.gid = o.gid && p.id < o.id && p.reply.isNone && p.orderKey = o.orderKey &&
      !(busy && p.kind.waits && !o.kind.waits))) &&
    (match o.kind with
      | .drawTok i => !(s.mxOps.any (fun m => m.gid = o.gid && m.id < o.id && m.stage != MxStage.finished &&
          (m.tiles.contains i || m.tiles.contains (i + 1))))
      | _ => true)

/-- A TRNEW that was accepted after a load of the grammar set it names waits for that load (11 R265). -/
def State.setLoading (s : State) (o : TreeOp) (c : Actx) : Bool :=
  o.kind == TreeKind.trnew && s.textOps.any (fun p => decide (p.id < o.id) && p.loads && p.isGram &&
    p.number == bits o.a.toNat 47 32 && s.partOf p.gid == some c.part)

/-- TREE_OPERATION_ARRIVAL: the home unit performs the operation for its active lanes (R228, R240). -/
def execTreeOperationArrival (op : Nat) (s : State) : Out :=
  match s.treeOps.find? (fun o => o.id = op) with
  | none => .next s
  | some o =>
    match s.group o.gid, s.actx o.gid with
    | some g, some c =>
      if o.reply.isSome ∨ !(s.trReady o) ∨ s.setLoading o c then .next s
      else
        match s.performTr o g c with
        | none => .next s
        | some (s1, res, no) =>
          .next { s1 with treeOps := s1.treeOps.map (fun p => if p.id = op then { p with reply := some res, noLegal := no } else p) }
    | _, _ => .next s

/-- TREE_REPLY: DST is written in every active lane and TR falls; a .chk or GMASK run may complete; a failed TRTAG clears the tag
(R228, R230, R237; 11 R274). -/
def execTreeReply (op : Nat) (s : State) : Out :=
  match s.treeOps.find? (fun o => o.id = op) with
  | none => .next s
  | some o =>
    match o.reply with
    | none => .next s
    | some res =>
      let dead := maskOf (fun l => inMask o.lanes l && (nth 0 res l == treeErr stDEADNODE || nth 0 res l == treeErr stDEADTREE))
      let clear : Bool := match o.kind with
        | .tag => dead != 0
        | _ => false
      .next { s.updGroup o.gid (fun g =>
        let g := g.overLanes o.lanes (fun g l => g.land o.dst l ((nth 0 res l).setWidth 64))
        let g : Group := match o.kind with
          | .gmask p => g.putP p o.lanes (if o.noLegal then BitVec.allOnes 64 else 0)
          | _ => g
        let g : Group := if clear ∧ g.tag = o.a.setWidth 32 then { g with tag := 0 } else g
        let g : Group := if o.chk ∧ dead ≠ 0 ∧ (g.entry o.entry).any (fun en => en.holds.contains op) then
            g.notePost o.entry ⟨.deadNode, o.index, dead, 0⟩
          else g
        let g := { g with table := g.table.map (fun (p : Nat × Entry) => (p.1, { p.2 with holds := p.2.holds.filter (fun h => h != op) })) }
        g.finOp op) with treeOps := s.treeOps.filter (fun p => p.id != op) }

/-! ### Broadcasts (R244, R245; 10 R253) -/

def State.setBcast (s : State) (b : Bcast) : State := { s with bcasts := s.bcasts.map (fun x => if x.id = b.id then b else x) }
def State.bcast (s : State) (b : Nat) : Option Bcast := s.bcasts.find? (fun x => x.id = b)

/-- Whether a group's tag names a pair (01 R49). -/
def tagMatches (tag : Word32) (pairs : List (Nat × Nat)) : Bool := pairs.contains (tag.toNat / 4096, tag.toNat / 64 % 64)

/-- CANCEL_BROADCAST reaches a core: its matching groups are killed. -/
def execCancelBroadcast (b die core : Nat) (s : State) : Out :=
  let cid := coreId die core
  match s.bcast b with
  | none => .next s
  | some x =>
    if x.release ∨ x.reached.contains cid ∨ 2 ≤ die ∨ 96 ≤ core then .next s
    else
      let hit := s.groups.filter (fun g => g.2.coreId = cid && !g.2.killed && !g.2.retired && tagMatches g.2.tag x.pairs &&
        (((s.team g.2.tid).bind (fun t => s.launch t.launch)).map Launch.part == some x.part))
      let s1 := hit.foldl (fun s g => (s.perfOf g.1 15).killGroup g.1) s
      .next (s1.setBcast { x with reached := x.reached ++ [cid] })

/-- Rows whose broadcast every core has acknowledged are free again, in ascending order (10 R253); a compaction that waits for a
row of the pool goes on (10 R259). -/
def State.freeRowsOf (s : State) (x : Bcast) : State :=
  let rows := x.rows.mergeSort (· ≤ ·)
  let dieOf (r : Nat) : Nat := match look s.pools (poolKey x.part 1) with
    | some p => if p.row0 ≤ r ∧ r < p.row0 + p.nr then 1 else 0
    | none => 0
  let s1 := rows.foldl (fun s r =>
    let k := poolKey x.part (dieOf r)
    { s.setRow x.part r { st := .free, count := 0 } with freeRows := put s.freeRows k (r :: ((look s.freeRows k).getD [])) }) s
  let dies := (rows.map dieOf).dedup
  { s1 with trees := s1.trees.map (fun p =>
      if p.2.owner = x.part ∧ dies.contains (p.1 / 8192) then
        (p.1, { p.2 with comp := p.2.comp.map (fun c => { c with full := false }) })
      else p) }

/-- A core acknowledges a broadcast. Its cluster's dirty bytes of the rows go back first, so that no earlier store lands in them
later (10 R253). -/
def State.ackBcast (s : State) (x : Bcast) (cid : Nat) : State :=
  let s := if x.rows.isEmpty then s else s.writeBackCluster (clusterOf cid)
  let x := { x with acked := x.acked ++ [cid] }
  if x.acked.length = 192 then { s.freeRowsOf x with bcasts := s.bcasts.filter (fun y => y.id != x.id) }
  else s.setBcast x

/-- CANCEL_ACK: the core's killed groups have no access left (R244, R245). -/
def execCancelAck (b die core : Nat) (s : State) : Out :=
  let cid := coreId die core
  match s.bcast b with
  | none => .next s
  | some x =>
    if x.release ∨ !x.reached.contains cid ∨ x.acked.contains cid ∨
        s.groups.any (fun g => g.2.coreId = cid && g.2.killed && !g.2.accs.isEmpty) then .next s
    else .next (s.ackBcast x cid)

/-- RELEASE_BROADCAST reaches a core: what its groups have issued is noted. -/
def execReleaseBroadcast (b die core : Nat) (s : State) : Out :=
  let cid := coreId die core
  match s.bcast b with
  | none => .next s
  | some x =>
    if !x.release ∨ x.reached.contains cid ∨ 2 ≤ die ∨ 96 ≤ core then .next s
    else
      let here := s.groups.filter (fun g => g.2.coreId = cid && !g.2.saved)
      let waits := here.flatMap (fun g => g.2.ops.map (fun o => (g.1, o.id)) ++ g.2.accs.map (fun a => (g.1, a.op)))
      .next (s.setBcast { x with reached := x.reached ++ [cid], waits := x.waits ++ waits })

/-- RELEASE_ACK: every access that the core's groups had issued has been performed or discarded (10 R253). -/
def execReleaseAck (b die core : Nat) (s : State) : Out :=
  let cid := coreId die core
  match s.bcast b with
  | none => .next s
  | some x =>
    let open' (w : Nat × Nat) : Bool := match s.group w.1 with
      | some g => g.coreId = cid && (g.ops.any (fun o => o.id = w.2 && !o.fin) || g.accs.any (fun a => a.op = w.2))
      | none => false
    if !x.release ∨ !x.reached.contains cid ∨ x.acked.contains cid ∨ x.waits.any open' then .next s
    else .next (s.ackBcast x cid)

/-! ### Compaction (10 R258-R260) -/

/-- COMPACTION_MOVE: one slot and layer is moved, once the rows that were missing at an assignment are assigned (R258, R259). -/
def execCompactionMove (die slot : Nat) (s : State) : Out :=
  let key := treeKey die slot
  match look s.trees key with
  | none => .next s
  | some t =>
    match t.comp with
    | none => .next s
    | some k =>
      if k.finished ∨ k.full ∨ k.parkSet.isSome then .next s
      else if k.asgBranch < k.kset.length then
        let (s1, t1) := s.assignComp key t k
        .next (s1.setTree key t1)
      else
        match look s.pools (poolKey t.owner die), t.pathAt (nth 0 k.kset k.ord) k.depth with
        | some p, some n =>
          let pos := ((t.node n).map Node.slot).getD 0
          let old := nth 0 (((look t.branches (nth 0 k.kset k.ord)).map Branch.rows).getD []) (pos / 16)
          let new := (k.row k.ord (k.depth / 16)).getD 0
          match s.copyLines (pageActx t.root t.owner die) (slotLines p old new k.layer (pos % 16) (k.depth % 16)) with
          | .held => .next s
          | .fault f =>
            let (s1, set) := s.compRecord key t k f (.comp key) false
            .next (s1.setTree key { t with comp := some { k with parkSet := some set } })
          | .ok s1 bad _ =>
            let s2 := if bad then (s1.compRecord key t k ⟨.memErr, 0, 0, p.slotAddr old k.layer (pos % 16) false⟩ .nothing true).1 else s1
            .next (s2.setTree key { t with comp := some (t.seekCursor cursorFuel (t.nextCursor k)) })
        | _, _ => .next s

/-- COMPACTION_SWITCH: new lists, fills, slots and counts in one step, and a release broadcast (R260). -/
def execCompactionSwitch (die slot : Nat) (s : State) : Out :=
  let key := treeKey die slot
  match look s.trees key with
  | none => .next s
  | some t =>
    match t.comp with
    | none => .next s
    | some k =>
      if !k.finished then .next s
      else if t.layers = 0 then .next (s.setTree key { t with busy := false, comp := none })
      else
        let lists := k.kset.zipIdx.map (fun p => (p.1, rd [] k.lists p.2))
        let (s1, emptied) := s.dropRows t.owner (t.rowsOf k.kset)
        let s2 := (lists.flatMap Prod.snd).foldl (fun s r => s.addRow t.owner r) s1
        let br (p : Nat × Branch) : Nat × Branch :=
          match lists.find? (fun l => l.1 = p.1) with
          | some l => (p.1, { p.2 with rows := l.2, fill := t.depthOf p.2.leaf + 1 })
          | none => p
        let t' := { t with branches := t.branches.map br, nodes := t.nodes.map (fun n => (n.1, { n.2 with slot := n.2.depth })),
                           busy := false, comp := none }
        .next ((s2.setTree key t').broadcast true t.owner [] emptied)

end Sys2Proof.Machine
end

