-- ==== Sys2Proof/Machine/Faults.lean ====
section
/-!
DEFINITION. The fault record queue, service and decline of records, the firmware's copy-on-write service, trap notices, handler
actions, group-stop and hang detection (17 R387-R391; 18 R396; 20 R426-R432; 22 R464).
-/
namespace Sys2Proof.Machine

/-! ### The record queue (17 R387, R388) -/

/-- Records of the set that is to be pushed next. -/
def State.nextSet (s : State) : List FRec :=
  match s.pushQ with
  | [] => []
  | r :: _ => s.pushQ.takeWhile (fun x => x.set = r.set)

/-- One record is pushed: it takes the device's count as RSEQ, and its launch counts it (01 R52; 19 R415, R418). -/
def State.pushRecord (s : State) (r : FRec) : State :=
  let part := (r.launch.bind s.launch).map Launch.part
  let s1 : State := { s with
    faultQ := s.faultQ ++ [{ r with rseq := s.rseq }], rseq := (s.rseq + 1) % 65536,
    perf := match part with
      | some p => countEvent s.perf (coreId r.die r.core) p 14
      | none => s.perf }
  match r.launch with
  | some l => s1.updLaunch l (fun x => { x with tot := { x.tot with faults := min (x.tot.faults + 1) 0xFFFFFFFF } })
  | none => s1

/-- FAULT_RECORD_PUSH: the oldest set is pushed whole once the queue of 4,096 has room for it. -/
def execFaultRecordPush (s : State) : Out :=
  let rs := s.nextSet
  if rs.isEmpty ∨ 4096 < s.faultQ.length + rs.length then .next s
  else .next (rs.foldl State.pushRecord { s with pushQ := s.pushQ.drop rs.length })

/-! ### Who answers (18 R396) -/

/-- Whether the host queue of a launch is STOPPED; a launch of another device's queue is not this device's to know. -/
def State.queueStopped (s : State) (lid : Nat) : Bool :=
  match s.launch lid with
  | some l => l.ref.home = Config.chip.toNat && (match look s.queues l.queue with
      | some q => q.st == QState.stopped
      | none => false)
  | none => false
/-- Whether a launch's records and notices go to the host driver: FSERV = 1 and its queue not STOPPED. -/
def State.toDriver (s : State) (lid : Option Nat) : Bool :=
  match lid with
  | some l => ((s.launch l).map Launch.fserv).getD false && !(s.queueStopped l)
  | none => false

/-- FAULT_RECORD_TAKE: the firmware takes the oldest record, and forwards it to the driver under FSERV = 1. An informational
record needs no action (17 R391). -/
def execFaultRecordTake (s : State) : Out :=
  match s.faultQ with
  | [] => .next s
  | r :: rest =>
    let s1 : State := { s with faultQ := rest, forwarded := if r.info then s.forwarded else s.forwarded ++ [r] }
    .next (if s.toDriver r.launch then s1.emit (.record r) else s1)

/-! ### Sources (17 R389-R391; 22 R464) -/

/-- Whether the source of a record is parked or stopped by the set that the record belongs to (R464). -/
def State.parkedBy (s : State) (r : FRec) : Bool :=
  match r.who with
  | .split gid e => ((s.group gid).bind (fun g => g.entry e)).any (fun en => en.parkSet = some r.set && en.st == .parked)
  | .access gid => (s.group gid).any (fun g => g.aSet = some r.set)
  | .age gid x => (s.group gid).any (fun g => (g.ageOf x).parkSet = some r.set && (g.ageOf x).st == .park)
  | .cp op => s.cpOps.any (fun o => o.id = op && o.parkSet = some r.set)
  | .coll op => s.collOps.any (fun o => o.id = op && o.parkSet = some r.set)
  | .mx op => s.mxOps.any (fun o => o.id = op && o.parkSet = some r.set)
  | .dload op => s.dlOps.any (fun o => o.id = op && o.parkSet = some r.set)
  | .text op => s.textOps.any (fun o => o.id = op && o.parkSet = some r.set)
  | .comp key => ((look s.trees key).bind Tree.comp).any (fun k => k.parkSet = some r.set)
  | .hang gid => (s.group gid).any (fun g => g.hangSet = some r.set)
  | .nothing => false

/-- A group parked for HANG goes back to what it left (20 R432). -/
def Group.unhang (g : Group) (set : Nat) : Group :=
  let back (p : Nat × Entry) : Nat × Entry :=
    match p.2.hangOld with
    | some o => (p.1, { p.2 with st := o, hangOld := none, parkSet := none })
    | none => p
  { g with hangSet := none, hangCnt := 0, table := g.table.map back, aStopped := g.aStopped && g.aSet != some set,
           aSet := if g.aSet = some set then none else g.aSet }

/-- The source of a serviced record goes on (17 R389). -/
def State.resumeSource (s : State) (r : FRec) : State :=
  if !(s.parkedBy r) then s
  else
    match r.who with
    | .split gid e =>
      (s.perfOf gid 6).updGroup gid (fun g => g.updEntry e (fun en =>
        { en with parkSet := none, st := if en.slide.isSome then .awaitingFull else .ready }))
    | .access gid => s.updGroup gid (fun g => { g with aStopped := false, aSet := none })
    | .age gid x => s.updGroup gid (fun g => g.setAge x { g.ageOf x with st := .run, parkSet := none })
    | .cp op => { s with cpOps := s.cpOps.map (fun o => if o.id = op then { o with parkSet := none } else o) }
    | .coll op => { s with collOps := s.collOps.map (fun o => if o.id = op then { o with parkSet := none } else o) }
    | .mx op =>
      match s.mxOps.find? (fun o => o.id = op) with
      | none => s
      | some o =>
        let s1 := s.setMx { o with parkSet := none, stage := if o.stage = .drainParked then .draining else .queued }
        match look s.drains op, s.group o.gid with
        | some d, some g => { s1 with drains := put s1.drains op (s1.loadElement g.quarterId o d) }
        | _, _ => s1
    | .dload op => { s with dlOps := s.dlOps.map (fun o => if o.id = op then { o with parkSet := none } else o) }
    | .text op => { s with textOps := s.textOps.map (fun o => if o.id = op then { o with parkSet := none } else o) }
    | .comp key => { s with trees := upd s.trees key (fun t => { t with comp := t.comp.map (fun k => { k with parkSet := none }) }) }
    | .hang gid => s.updGroup gid (fun g => g.unhang r.set)
    | .nothing => s

/-- A handler ends a group: its lanes are killed, and HANDLED is set (20 R427). -/
def State.handlerKill (s : State) (gid : Nat) : State :=
  ((s.updGroup gid (fun g => { g with handled := true })).err (s.launchOf gid) errHANDLED).killGroup gid

/-- A compaction is abandoned: its new rows wait for a release broadcast (10 R259). -/
def State.abandonCompaction (s : State) (key : Nat) : State :=
  match look s.trees key with
  | none => s
  | some t =>
    let fresh := (t.comp.map Compaction.fresh).getD []
    let s1 := fresh.foldl (fun s r => s.setRow t.owner r { st := .releasing, count := 0 }) s
    (s1.setTree key { t with busy := false, comp := none }).broadcast true t.owner [] fresh

/-- The trap record that a declined record gives (20 R428). -/
def FRec.trapRec (r : FRec) : TrapRec :=
  { TrapRec.of r.cause r.sub r.done r.pc r.index r.split with addr := r.addr }

/-- A declined record ends its source (17 R391). -/
def State.declineSource (s : State) (r : FRec) : State :=
  if !(s.parkedBy r) then s
  else
    match r.who with
    | .split gid e =>
      (s.updGroup gid (fun g => g.updEntry e (fun en => { en with parkSet := none }))).stopSplit gid e .trapped { r.trapRec with split := e }
    | .access gid => (s.updGroup gid (fun g => { g with aSet := none })).trapAccess gid r.trapRec false
    | .age gid x =>
      match s.group gid with
      | some g => (s.endAge gid x (g.ageOf x) (some codeUNSERVED)).err (s.launchOf gid) errUNSERVED
      | none => s
    | .cp op =>
      match s.cpOps.find? (fun o => o.id = op) with
      | some o => (s.endCp o (errorValue codeUNSERVED)).err (s.launchOf o.gid) errUNSERVED
      | none => s
    | .coll op =>
      match s.collOps.find? (fun o => o.id = op) with
      | some o => (s.endColl o (errorValue codeUNSERVED)).err (s.launchOf o.gid) errUNSERVED
      | none => s
    | .mx op =>
      match s.mxOps.find? (fun o => o.id = op) with
      | none => s
      | some o =>
        match look s.drains op, s.group o.gid with
        | some d, _ => (((s.err (s.launchOf o.gid) errDRAINBAD).err (s.launchOf o.gid) errUNSERVED)).endDrain o d.flags
        | none, some g => s.mldbError g.quarterId o errUNSERVED
        | none, none => s
    | .dload op =>
      match s.dlOps.find? (fun o => o.id = op) with
      | some o => (s.endDload o (errorValue codeUNSERVED)).err (s.launchOf o.gid) errUNSERVED
      | none => s
    | .text op =>
      match s.textOps.find? (fun o => o.id = op) with
      | some o => (s.endText o (errorValue codeUNSERVED)).err (s.launchOf o.gid) errUNSERVED
      | none => s
    | .comp key => s.abandonCompaction key
    | .hang gid => s.handlerKill gid
    | .nothing => s

/-! ### Service (17 R389; 08 R213; 18 R396) -/

/-- The entry for an address in a table at a level: the place of a leaf, or the next level's table (08 R208). -/
def State.leafEntryAt (s : State) (key : Nat) (va : VAddr) (level table : Nat) : Option (Nat ⊕ Nat) :=
  let ix := va.toNat / 2 ^ (12 + 9 * level) % 512
  let base := table % 2 ^ 47
  let lead := s.read16 key (base + 16 * (ix / 16 * 16))
  let big := level = 0 ∧ bit lead 0 ∧ bit lead 1 ∧ bit lead 7
  let at' := if big then base + 16 * (ix / 16 * 16) else base + 16 * ix
  let e := if big then lead else s.read16 key at'
  if table / 2 ^ 47 % 512 ≠ Config.chip.toNat ∨ !(bit e 0) ∨ malformed level e then none
  else if bit e 1 then some (.inl at')
  else some (.inr (bits e 55 13 * 8192))

/-- The place of the leaf entry for an address, with its level; the walk of 08 R208. -/
def State.leafEntry (s : State) (key : Nat) (va : VAddr) : Nat → Nat → Option (Nat × Nat)
  | 0, table =>
    match s.leafEntryAt key va 0 table with
    | some (.inl at') => some (at', 0)
    | _ => none
  | n + 1, table =>
    match s.leafEntryAt key va (n + 1) table with
    | some (.inl at') => some (at', n + 1)
    | some (.inr next) => s.leafEntry key va n next
    | none => none

/-- Root and partition under which a record's address is translated. -/
def State.recordSpace (s : State) (r : FRec) : Option (Nat × Nat) :=
  match r.who, r.launch.bind s.launch with
  | .comp key, _ => (look s.trees key).map (fun t => (t.root, t.owner))
  | _, some l => some (l.root, l.part)
  | _, none => none

/-- Free 4 KiB pages of a partition that make up one page of a size: the first of them (log 38). -/
def freePage (pages : List Nat) (size : Nat) : Option Nat :=
  pages.find? (fun p => p % size = 0 && (List.range (size / 4096)).all (fun i => pages.contains (p + 4096 * i)))

/-- Every cluster's copy of a line goes back and is dropped. -/
def State.flushEverywhere (s : State) (line : Nat) : State := (List.range 24).foldl (fun s cl => s.flushLine cl line) s

/-- What a service of a COW record finds: where the leaf entry is, the entry's value, its leaf, and the free page the copy takes
(none where the page has COW = 0 already). None where there is no entry or no free page (08 R213, 18 R396). -/
def State.cowPlan (s : State) (r : FRec) : Option (Nat × Nat × Nat × Leaf × Option Nat) :=
  match s.recordSpace r with
  | none => none
  | some (root, part) =>
    let va : VAddr := r.addr.signExtend 64
    match s.leafEntry part va 4 root with
    | none => none
    | some (at', level) =>
      let e := s.read16 part at'
      let l := leafOf level e
      if !l.cow then some (part, at', e, l, none)
      else (freePage (s.part part).cowPages l.size).map (fun p => (part, at', e, l, some p))

/-- The firmware's copy of a page with COW = 1: contents to free pages, and the entry names them with COW = 0 (08 R213). None if
it has no free page. -/
def State.copyOnWrite (s : State) (r : FRec) : Option State :=
  match s.cowPlan r with
  | none => none
  | some (_, _, _, _, none) => some s
  | some (part, at', e, l, some p) =>
    let old := l.pfn % 2 ^ 47
    let s1 := (from' (old / 64) (l.size / 64)).foldl State.flushEverywhere s
    let s2 := (from' 0 l.size).foldl (fun s i => s.writeKey l.key (p + i) (s.readKey l.key (old + i))) s1
    let pa := Config.chip.toNat * 2 ^ 47 + p
    let e' := e - bits e 55 12 * 4096 - 2 ^ 96 + pa
    some ((s2.writeKeys part at' (toBytes e' 16)).updPart part (fun x =>
      { x with cowPages := x.cowPages.filter (fun q => !(p ≤ q && q < p + l.size)) }))

def FRec.isCow (r : FRec) : Bool := r.cause == .perm && r.sub == 5

/-- Cached translations of the page of an address go (08 R217). -/
def State.dropTranslation (s : State) (root va : Nat) : State :=
  { s with tcache := upd s.tcache root (fun m => del m (va / 4096 % 2 ^ 45)) }

/-- A record is serviced: the copy for COW, the translation CMAINT that covers ADDR, and the source goes on (17 R389). -/
def State.serveRecord (s : State) (r : FRec) : State :=
  let s1 := if r.isCow then (s.copyOnWrite r).getD s else s
  let s2 := match s.recordSpace r with
    | some (root, _) => s1.dropTranslation root ((r.addr.signExtend 64).toNat)
    | none => s1
  s2.resumeSource r

def State.takeForwarded (s : State) (rseq : Nat) : Option (FRec × State) :=
  match s.forwarded.find? (fun r => r.rseq = rseq) with
  | some r => some (r, { s with forwarded := s.forwarded.filter (fun x => x.rseq != rseq) })
  | none => none

/-- Whether the firmware serves a record by itself (R396): KVFULL, or COW with a free page for the copy. -/
def State.selfServed (s : State) (r : FRec) : Bool := r.cause == .kvFull || (r.isCow && (s.cowPlan r).isSome)

/-- FAULT_SERVICE_RESUME: the firmware serves a record of FSERV = 0 that it serves by itself. -/
def execFaultServiceResume (rseq : Nat) (s : State) : Out :=
  match s.takeForwarded rseq with
  | none => .next s
  | some (r, s1) =>
    let stopped := (r.launch.map s.queueStopped).getD false
    if s.toDriver r.launch ∨ stopped ∨ !(s.selfServed r) then .next s else .next (s1.serveRecord r)

/-- FAULT_DECLINE: the firmware declines every other record of FSERV = 0, and every record of a queue that is STOPPED. -/
def execFaultDecline (rseq : Nat) (s : State) : Out :=
  match s.takeForwarded rseq with
  | none => .next s
  | some (r, s1) =>
    let stopped := (r.launch.map s.queueStopped).getD false
    if s.toDriver r.launch ∨ (s.selfServed r ∧ !stopped) then .next s else .next (s1.declineSource r)

/-! ### Trap notices and handler actions (20 R426-R430) -/

/-- The trap record that a notice gives the driver: MASK, ADDR and PC read 0 unless the policy opens TRAPREAD (21 R453). -/
def State.shown (s : State) (gid : Nat) (r : TrapRec) : TrapRec :=
  if (s.part ((s.partOf gid).getD 0)).policy.trapRead then r else { r with mask := 0, addr := 0, pc := 0 }

/-- The trap record of a stop. -/
def State.stopRecord (s : State) (x : StopRef) : Option TrapRec :=
  match s.group x.gid, x.entry with
  | some g, some e => (g.entry e).bind (fun en => if en.st = .trapped ∨ en.st = .faulted then en.trapRec else none)
  | some g, none => if g.aStopped then g.aTrap else none
  | none, _ => none

/-- TRAP_NOTICE: the firmware takes the oldest notice. With FSERV = 1 it goes to the driver; else the group is killed (R427). -/
def execTrapNotice (s : State) : Out :=
  match s.notices with
  | [] => .next s
  | n :: rest =>
    let s := { s with notices := rest }
    match s.stopRecord n with
    | none => .next s
    | some r =>
      if s.toDriver (s.launchOf n.gid) then
        .next ({ s with pendingNotices := s.pendingNotices ++ [n] }.emit (.notice (s.shown n.gid r) n.gid))
      else .next (s.handlerKill n.gid)

/-- The stop is answered. -/
def State.answered (s : State) (x : StopRef) : State := { s with pendingNotices := s.pendingNotices.filter (fun n => n != x) }

/-- Resume clears a debug group-stop (R430); a stop for pre-emption stands. -/
def State.clearStop (s : State) (gid : Nat) : State :=
  match s.where' gid with
  | some (_, t, _) => if t.saving then s else s.updGroup gid (fun g => { g with stopReq := false })
  | none => s

/-- A trapped split goes on (R423, R424, R427): the transfer of SPLITOVF is applied first; the control instruction of a
post-commit trap issues alone; a slide that was declined is made again; else the next run is entered. -/
def State.resumeSplit (s : State) (gid e : Nat) (en : Entry) (r : TrapRec) : State :=
  let ready (en : Entry) : Entry := { en with trapRec := none, st := if en.slide.isSome then .awaitingFull else .ready }
  let s1 := (s.updGroup gid (fun g => g.updEntry e ready)).clearStop gid
  match s1.group gid with
  | none => s
  | some g =>
    match g.xblock.find? (fun b => b.entry = e) with
    | some b =>
      (s1.setGroup gid { g with xblock := g.xblock.filter (fun b => b.entry != e) }).transfer gid e b.xfer
        (TrapRec.of .trap 0 0 r.pc r.index e) false
    | none =>
      if r.postc ∧ r.xfer then
        match en.xfer, s1.actx gid with
        | some x, some c =>
          match s1.laneWord c (x.at'.signExtend 64).toNat with
          | .held => s
          | .fault f => s1.parkFetch gid e en f
          | .ok s2 w => s2.updGroup gid (fun g => g.updEntry e (fun en => { en with run := [w, 0], runpos := 0, resumeCtl := true }))
        | _, _ => s1
      else if en.slide.isSome then s1
      else ({ s1 with nextId := s1.nextId + 1 }).settleAll gid s1.nextId g [e]

/-- A legal run start of a resume address (R427): one whose test cannot be made is refused. -/
def State.resumeTarget (s : State) (gid : Nat) (pc : VAddr) : Bool :=
  match s.actx gid with
  | some c => (s.targetBad c pc).isNone
  | none => false

/-- A handler's action on a stop: none if it is refused, which changes nothing (R427, R429). -/
def State.handle (s : State) (x : StopRef) (a : HandlerAction) : Option State :=
  match s.group x.gid, s.stopRecord x with
  | some g, some r =>
    let debug := (s.part ((s.partOf x.gid).getD 0)).policy.debug
    match x.entry, a with
    | _, .killGroup => some (s.handlerKill x.gid)
    | some e, a =>
      match g.entry e with
      | none => none
      | some en =>
        match a with
        | .resume => if en.st = .faulted then none else some (s.resumeSplit x.gid e en r)
        | .resumeAt pc =>
          if !(s.resumeTarget x.gid pc) then none
          else
            let go (en : Entry) : Entry :=
              { en with trapRec := none, pc := pc.setWidth 57, xfer := none, resumeCtl := false, await := [],
                        slide := en.slide.map (fun sl => { sl with after := .goOn }),
                        st := if en.slide.isSome then .awaitingFull else .ready }
            some ((s.updGroup x.gid (fun g =>
              { g.updEntry e go with xblock := g.xblock.filter (fun b => b.entry != e) })).clearStop x.gid)
        | .writeState w =>
          if !debug ∨ w.v.any (fun p => g.w ≤ p.1) ∨ w.s.any (fun p => 192 ≤ p.1) ∨ !w.k.isEmpty then none
          else
            let lane (l : Nat) : Bool := inMask en.mask l
            some (s.updGroup x.gid (fun g =>
              let g := (w.fpEnable.filter (fun p => lane p.1)).foldl (fun (g : Group) p => { g with fpEnable := wr 0 g.fpEnable p.1 p.2 }) g
              let g := (w.fpFlags.filter (fun p => lane p.1)).foldl (fun (g : Group) p => { g with fpFlags := wr 0 g.fpFlags p.1 p.2 }) g
              let g := (w.v.filter (fun p => lane p.2.1)).foldl (fun (g : Group) p => g.putV (g.slotOf en.wbase p.1) p.2.1 p.2.2) g
              w.s.foldl (fun (g : Group) p => g.putS p.1 p.2) g))
        | .killLanes =>
          let id := s.nextId
          let chain := g.chain 80 en.parent
          let g1 := ((g.leaveJoins en.mask chain).keep e 0 en.pc).fuseAll id chain
          let s1 := ({ s with nextId := id + 1 }.setGroup x.gid { g1 with handled := true, xblock := g1.xblock.filter (fun b => b.entry != e) })
          some ((s1.err (s1.launchOf x.gid) errHANDLED).exitLanes x.gid en.mask none)
        | .killGroup => none
    | none, .resume =>
      some ((s.updGroup x.gid (fun g =>
        { g with aStopped := false, aTrap := none, apc := if g.aNext then g.apc + 4 else g.apc, aNext := false })).clearStop x.gid)
    | none, .resumeAt pc =>
      if pc.toNat % 4 ≠ 0 then none
      else some ((s.updGroup x.gid (fun g =>
        { g with aStopped := false, aTrap := none, apc := pc.setWidth 57, aNext := false })).clearStop x.gid)
    | none, .writeState w =>
      if !debug ∨ !w.fpEnable.isEmpty ∨ !w.fpFlags.isEmpty ∨ !w.v.isEmpty ∨ w.s.any (fun p => 192 ≤ p.1) ∨
          w.k.any (fun p => p.1 = 0 || 3 < p.1) then none
      else some (s.updGroup x.gid (fun g =>
        let g := w.s.foldl (fun (g : Group) p => g.putS p.1 p.2) g
        w.k.foldl (fun (g : Group) p => g.putK p.1 p.2) g))
    | none, .killLanes => none
  | _, _ => none

/-- An action on a notice that the driver has; every action but a state write answers it. -/
def State.act (s : State) (x : StopRef) (a : HandlerAction) : State :=
  if !(s.pendingNotices.contains x) ∨ !(s.toDriver (s.launchOf x.gid)) then s
  else
    match s.handle x a with
    | none => s
    | some s1 =>
      match a with
      | .writeState _ => s1
      | _ => s1.answered x

def execHandlerResume (at' : StopRef) (s : State) : Out := .next (s.act at' .resume)
def execHandlerResumeAt (at' : StopRef) (pc : BitVec 64) (s : State) : Out := .next (s.act at' (.resumeAt pc))
def execHandlerWriteState (at' : StopRef) (w : StateWrites) (s : State) : Out := .next (s.act at' (.writeState w))
def execHandlerKillLanes (at' : StopRef) (s : State) : Out := .next (s.act at' .killLanes)
def execHandlerKillGroup (at' : StopRef) (s : State) : Out := .next (s.act at' .killGroup)

/-- DRIVER_ANSWER: the driver's word on a record that was forwarded to it, or its action on a notice (R396; 20 R427). -/
def execDriverAnswer (a : DriverAnswer) (s : State) : Out :=
  match a with
  | .notice x act => .next (s.act x act)
  | .record rseq mapped =>
    match s.takeForwarded rseq with
    | none => .next s
    | some (r, s1) =>
      if !(s.toDriver r.launch) then .next s
      else if mapped then .next (s1.serveRecord r)
      else .next (s1.declineSource r)

/-- A queue has become STOPPED: its forwarded records are declined at once, and its notices go back to the firmware (R396; 20
R427). -/
def State.dropDriver (s : State) (q : Nat) : State :=
  let mine (lid : Option Nat) : Bool := match lid.bind s.launch with
    | some l => l.queue = q && l.ref.home = Config.chip.toNat
    | none => false
  let rs := s.forwarded.filter (fun r => mine r.launch)
  let ns := s.pendingNotices.filter (fun n => mine (s.launchOf n.gid))
  rs.foldl State.declineSource
    { s with forwarded := s.forwarded.filter (fun r => !mine r.launch), notices := s.notices ++ ns,
             pendingNotices := s.pendingNotices.filter (fun n => !ns.contains n) }

/-- GSTOP_WRITE: ignored while the tenant's policy does not open DEBUG (20 R430). -/
def execGstopWrite (gid : Nat) (b : Bool) (s : State) : Out :=
  if (s.part ((s.partOf gid).getD 0)).policy.debug then .next (s.updGroup gid (fun g => { g with gstop := b })) else .next s

/-! ### Hang detection (20 R431, R432) -/

/-- Whether some split of a group, or its access program, is neither parked, faulted, trapped, halted nor stopped. -/
def Group.unstopped (g : Group) : Bool :=
  g.table.any (fun p => !p.2.join && (p.2.st == .ready || p.2.st == .awaitingFull)) || (!g.aHalted && !g.aStopped)

/-- HANG_DETECTED: HANGCNT has reached 2^HLOG (a time, which the world outside supplies): the group is parked where it stands,
and one record is pushed. -/
def execHangDetected (gid : Nat) (s : State) : Out :=
  match s.where' gid with
  | none => .next s
  | some (g, t, l) =>
    if g.saved ∨ g.lanesGone ∨ g.hangSet.isSome ∨ !g.unstopped ∨ (g.stopReq ∧ !t.saving) then .next s
    else
      let lanes := g.table.any (fun p => !p.2.join && (p.2.st == .ready || p.2.st == .awaitingFull))
      let (s1, set) := s.pushFaults [s.frec gid (if lanes then .lane else .access) .none .hang 0 0 0 0 (.hang gid)]
      let park (p : Nat × Entry) : Nat × Entry :=
        if !p.2.join && (p.2.st == .ready || p.2.st == .awaitingFull) then (p.1, { p.2 with st := .parked, hangOld := some p.2.st, parkSet := some set })
        else p
      let g1 : Group := { g with
        hangSet := some set, hangCnt := 2 ^ (s.part l.part).hlog, table := g.table.map park,
        aSet := if g.aHalted ∨ g.aStopped then g.aSet else some set, aStopped := g.aStopped || !g.aHalted }
      -- a group that meets pre-emption is not saved: it is killed
      if t.saving then .next (s1.handlerKill gid) else .next (s1.setGroup gid g1)

end Sys2Proof.Machine
end

