-- ==== Sys2Proof/Machine/Team.lean ====
section
/-!
DEFINITION. Placement of teams, operating points, retirement of groups and teams, ridge members, and pre-emption: 01 R39-R44,
R50, R51; 12 R286, R291, R297-R300; 15 R338; 16 R361; 19 R412, R414; 20 R433-R438; 21 R457, R458.
-/
namespace Sys2Proof.Machine

/-! ### What a core has free (01 R39, R40; 15 R338) -/

/-- Core of the team, by its place in the placement order, and quarter of a group index (R40). -/
def seat (w ix : Nat) : Nat × Nat := (ix / groupsPerCore w, ix % groupsPerCore w % 4)

/-- A team stands on its cores: it is neither saved nor retired. -/
def Team.stands (t : Team) : Bool := !t.saved && !t.retired
/-- A group holds a slot and a window. -/
def Group.resident (g : Group) : Bool := !g.saved && !g.retired

/-- A launch whose kernel has matrix instructions (15 R338). -/
def Launch.matrix (l : Launch) : Bool :=
  (l.params.laneEntry.zip l.params.n).any (fun e => 0 < e.2 && Config.matrixKernel l.root e.1)

/-- What is to be seated on a core: for each of its quarters the number of groups. -/
structure Seats where
  w : Nat
  lid : Nat
  matrix : Bool
  counts : List Nat
  scratch : Nat
  reserve : Nat
deriving DecidableEq, Repr

/-- The seats of a team's indices that pass a test, on the k-th core. -/
def seatsOf (lid : Nat) (l : Launch) (keep : Nat → Bool) (k : Nat) : Seats :=
  { w := l.params.w, lid := lid, matrix := l.matrix,
    counts := (List.range 4).map (fun q =>
      ((List.range (LaunchParams.groups l.params)).filter (fun ix => keep ix && seat l.params.w ix == (k, q))).length),
    scratch := scratchPerCore l.params, reserve := l.params.reserve }

/-- Seats that ridge reservations hold on a core (R42). -/
def State.reservedSeats (s : State) (die core : Nat) : List Seats :=
  s.launches.flatMap (fun l =>
    match l.2.reserved with
    | some (d, cs) => if d = die then (cs.zipIdx.filter (fun c => c.1 = core)).map (fun c => seatsOf l.1 l.2 (fun _ => true) c.2) else []
    | none => [])

/-- The teams that stand on a core, with their launches. -/
def State.teamsOn (s : State) (die core : Nat) : List (Nat × Team) :=
  s.teams.filter (fun t => t.2.stands && t.2.die = die && t.2.cores.contains core)

/-- Whether a quarter has room: 8 slots and 1,024 window registers, and no team of a matrix kernel beside another (R39; R338). -/
def State.quarterRoom (s : State) (die core q : Nat) (x : Seats) : Bool :=
  let n := nth 0 x.counts q
  let here := s.groups.filter (fun g => g.2.resident && g.2.die = die && g.2.core = core && g.2.quarter = q)
  let held := (s.reservedSeats die core).filter (fun y => 0 < nth 0 y.counts q)
  let used := here.length + (held.map (fun y => nth 0 y.counts q)).sum
  let regs := (here.map (fun g => g.2.w)).sum + (held.map (fun y => nth 0 y.counts q * y.w)).sum
  let others := here.any (fun g => x.matrix || (((s.team g.2.tid).bind (fun t => s.launch t.launch)).map Launch.matrix).getD false) ||
    held.any (fun y => x.matrix || y.matrix)
  n = 0 || (decide (used + n ≤ 8) && decide (regs + n * x.w ≤ 1024) && !others)

/-- Scratchpad of a core in use: the parts of its teams, and each launch's reserve once (R40, R291). -/
def State.scratchUsed (s : State) (die core : Nat) : Nat × List Nat :=
  let ts := s.teamsOn die core
  let held := s.reservedSeats die core
  let lids := ((ts.map (fun t => t.2.launch)) ++ held.map Seats.lid).dedup
  let parts := (ts.map (fun t => ((s.launch t.2.launch).map (fun l => scratchPerCore l.params)).getD 0)).sum
  let reserves := (lids.map (fun i => ((s.launch i).map (fun l => l.params.reserve)).getD 0)).sum
  (parts + (held.map Seats.scratch).sum + reserves, lids)

/-- Whether seats fit on a core (R40). -/
def State.coreRoom (s : State) (die core : Nat) (x : Seats) : Bool :=
  let (used, lids) := s.scratchUsed die core
  (List.range 4).all (fun q => s.quarterRoom die core q x) &&
    decide (used + x.scratch + (if lids.contains x.lid then 0 else x.reserve) ≤ 768 * 1024)

/-- Whether a list of cores can take a team: `keep` says which of its groups still need a slot, `extra` what else a core must
have. -/
def State.fits (s : State) (lid : Nat) (l : Launch) (keep : Nat → Bool) (extra : Nat → Nat → Bool) (die : Nat) (cores : List Nat) : Bool :=
  decide (die < 2) && decide (cores.length = coresNeeded l.params) && cores.dedup.length == cores.length &&
    cores.all (fun c => decide (c < 96)) &&
    cores.zipIdx.all (fun c => s.coreRoom die c.1 (seatsOf lid l keep c.2) && extra c.1 c.2)

/-- The lowest core from a list that can take the k-th part of a team, and so on for the next parts. -/
def State.pickFrom (s : State) (lid : Nat) (l : Launch) (keep : Nat → Bool) (extra : Nat → Nat → Bool) (die : Nat) :
    Nat → Nat → List Nat → Option (List Nat)
  | 0, _, _ => some []
  | n + 1, k, free =>
    match free.find? (fun c => s.coreRoom die c (seatsOf lid l keep k) && extra c k) with
    | none => none
    | some c => (s.pickFrom lid l keep extra die n (k + 1) (free.filter (fun x => x != c))).map (fun r => c :: r)

/-- A choice of cores for a team on a die, if it finds one. -/
def State.pickCores (s : State) (lid : Nat) (l : Launch) (keep : Nat → Bool) (extra : Nat → Nat → Bool) (die : Nat) : Option (List Nat) :=
  s.pickFrom lid l keep extra die (coresNeeded l.params) 0 (List.range 96)

/-! ### Operating points (01 R44; 21 R458) -/

/-- Whether point b is a better choice than a for hint h: nearer, or as near and higher-numbered. -/
def nearerPoint (h a b : Nat) : Bool :=
  let d (x : Nat) : Nat := (x - h) + (h - x)
  decide (d b < d a) || (d b == d a && decide (a < b))

/-- The permitted point nearest a hint; of two equally near, the higher-numbered. -/
def mapHint (set : BitVec 8) (h : Nat) : Nat :=
  match (List.range 8).filter (fun i => set.getLsbD i) with
  | [] => h
  | p :: r => r.foldl (fun a b => if nearerPoint h a b then b else a) p

/-- The point that a launch selects on a die. -/
def State.pointOf (s : State) (die : Nat) (l : Launch) : Nat := mapHint (s.die die).permitted l.params.hint

/-- A launch has teams that wait for placement. -/
def Launch.waits (l : Launch) : Bool := !l.ended && decide (l.nextTeam < teamCount l.params)

/-- After a team leaves, the die goes to the lowest-numbered point that a launch with a team resident or waiting selects, if
that is a higher-numbered one (R44). -/
def State.retarget (s : State) (die : Nat) : State :=
  let users := s.launches.filter (fun l => l.2.waits || s.teams.any (fun t => t.2.launch = l.1 && t.2.stands && t.2.die = die))
  match users.map (fun l => s.pointOf die l.2) with
  | [] => s
  | p :: r =>
    let p := r.foldl min p
    if (s.die die).point < p ∧ (s.die die).moving.isNone then s.updDie die (fun d => { d with moving := some p }) else s

/-- A placement that needs a lower-numbered point waits for the change that it commands (R44). -/
def State.pointReady (s : State) (die : Nat) (l : Launch) : State × Bool :=
  let p := s.pointOf die l
  let d := s.die die
  match d.moving with
  | some m => if m ≤ p ∧ d.point ≤ p then (s, true) else (s.updDie die (fun d => { d with moving := some (min m p) }), false)
  | none => if d.point ≤ p then (s, true) else (s.updDie die (fun d => { d with moving := some p }), false)

/-- OP_CHANGE_SETTLED. -/
def execOpChangeSettled (die : Nat) (s : State) : Out :=
  match (s.die die).moving with
  | some p => if die < 2 then .next (s.updDie die (fun d => { d with point := p, moving := none })) else .next s
  | none => .next s

/-! ### Team start (01 R30, R40-R42; 12 R291; 15 R338) -/

/-- Matrix state of a quarter as a team finds it: macros NONE, tiles +0, an empty scale cache. -/
def State.clearQuarter (s : State) (q : Nat) : State :=
  { s with macs := keepKeys s.macs (fun k => k / 131072 != q), tags := keepKeys s.tags (fun k => k / 8 != q),
           exps := keepKeys s.exps (fun k => k / 4096 != q), invs := keepKeys s.invs (fun k => k / 4096 != q),
           tiles := keepKeys s.tiles (fun k => k / 65536 != q), scales := del s.scales q }

/-- The lowest free slot of a quarter. -/
def State.freeGroupSlot (s : State) (die core q : Nat) : Nat :=
  let used := (s.groups.filter (fun g => g.2.resident && g.2.die = die && g.2.core = core && g.2.quarter = q)).map (fun g => g.2.slot)
  ((List.range 8).find? (fun i => !used.contains i)).getD 0

/-- The quarters that a team occupies, in the placement order: the index of each, and its number. -/
def quartersOf (die : Nat) (cores : List Nat) : List (Nat × Nat) :=
  cores.zipIdx.flatMap (fun c => (List.range 4).map (fun q => (c.2 * 4 + q, coreId die c.1 * 4 + q)))

/-- Whether a quarter has a resident group. -/
def State.quarterUsed (s : State) (q : Nat) : Bool := s.groups.any (fun g => g.2.resident && g.2.quarterId = q)

/-- The next team of a launch starts on cores: all its groups begin at once. -/
def State.startTeam (s : State) (lid : Nat) (l : Launch) (die : Nat) (cores : List Nat) : State :=
  let n := LaunchParams.groups l.params
  let tid := s.nextId
  let gids := from' (tid + 1) n
  let s1 := (quartersOf die cores).foldl (fun s q => if s.quarterUsed q.2 then s else s.clearQuarter q.2) s
  let s2 : State := { s1 with
    nextId := tid + 1 + n,
    teams := put s1.teams tid (Team.start lid l.nextTeam die cores gids l),
    launches := put s1.launches lid { l with nextTeam := l.nextTeam + 1, reserved := none, replies := [] } }
  (List.range n).foldl (fun s ix =>
    let (k, q) := seat l.params.w ix
    let core := nth 0 cores k
    s.setGroup (tid + 1 + ix)
      (Group.start tid ix (stageOf l.params ix) die core q (s.freeGroupSlot die core q) l s.tick)) s2

/-- Another launch that is offered resources first (18 R402): higher PRIO, or equal PRIO and consumed first. -/
def Launch.before (a b : Nat × Launch) : Bool := b.2.prio < a.2.prio || (a.2.prio = b.2.prio && a.1 < b.1)

/-- A team of a launch that is saved and not killed as a whole (20 R437, R438). -/
def State.savedTeam (s : State) (lid : Nat) : Bool :=
  s.teams.any (fun t => t.2.launch = lid && t.2.saved && !t.2.retired)

/-- The device places teams: started, and in PS0 with no other state commanded (21 R456, R457). -/
def State.places (s : State) : Bool := s.stage == .ready && s.power == .ps0 && s.powerWant.isNone

/-- Whether a launch's next team can be placed as things stand. Ridge launches are left out: their placement rests on other
devices (log 76). -/
def State.placeable (s : State) (lid : Nat) (l : Launch) : Bool :=
  l.waits && !l.isRidge && !(s.savedTeam lid) &&
    (List.range 2).any (fun d => (s.pickCores lid l (fun _ => true) (fun _ _ => true) d).isSome)

/-- TEAM_PLACEMENT: the next team of a launch starts on cores that can take it (R40, R41); for a ridge launch the placement is
reserved, and the other members are asked (member 0), or told of it (R42). -/
def execTeamPlacement (launch die : Nat) (cores : List Nat) (s : State) : Out :=
  match s.launch launch with
  | none => .next s
  | some l =>
    if !(s.places) ∨ !l.waits ∨ l.reserved.isSome ∨ s.savedTeam launch ∨
        !(s.fits launch l (fun _ => true) (fun _ _ => true) die cores) ∨
        s.launches.any (fun o => Launch.before o (launch, l) && s.placeable o.1 o.2) then .next s
    else
      let (s1, ok) := s.pointReady die l
      if !ok then .next s1
      else if !l.isRidge then .next (s1.startTeam launch l die cores)
      else
        let s2 := s1.updLaunch launch (fun l => { l with reserved := some (die, cores), replies := [] })
        let asked := if l.member = 0 then (List.range l.params.width).filter (fun m => m != 0) else [0]
        .next (asked.foldl (fun s m => s.emit (.ridge l.ref l.nextTeam m ridgePLACE)) s2)

/-- RIDGE_PLACEMENT_REPLY (R42, R43). At member 0 it is another member's answer: once all have agreed, the position's teams
start; a refusal releases every reservation. At another member it is member 0's word. A refusal before anything is placed or
reserved comes from a member with no root for the partition, and fails the launch (log 77). -/
def execRidgePlacementReply (launch pos member : Nat) (ok : Bool) (s : State) : Out :=
  match s.launch launch with
  | none => .next s
  | some l =>
    if !l.isRidge ∨ !l.waits ∨ pos ≠ l.nextTeam ∨ member = l.member ∨ l.params.width ≤ member ∨ (l.member ≠ 0 ∧ member ≠ 0) then .next s
    else
      let tell (s : State) (what : Nat) : State :=
        ((List.range l.params.width).filter (fun m => m != 0)).foldl (fun s m => s.emit (.ridge l.ref pos m what)) s
      match l.reserved with
      | none =>
        if l.member = 0 ∧ !ok ∧ l.nextTeam = 0 then
          .next ((s.updLaunch launch (fun l => { l with ended := true, teamsLeft := 0 })).err (some launch) errLAUNCHBAD)
        else .next s
      | some (die, cores) =>
        if !ok then
          let s1 := s.updLaunch launch (fun l => { l with reserved := none, replies := [] })
          .next (if l.member = 0 then tell s1 ridgeRELEASE else s1)
        else if l.member ≠ 0 then .next (s.startTeam launch l die cores)
        else
          let rs := if l.replies.contains member then l.replies else l.replies ++ [member]
          if rs.length = l.params.width - 1 then .next (tell (s.startTeam launch l die cores) ridgeSTART)
          else .next (s.updLaunch launch (fun l => { l with replies := rs }))

/-! ### Retirement (01 R50, R51; 12 R286, R298-R300; 16 R361; 19 R412, R414) -/

/-- Write core-pinned copies back to memory; their pages have no holder then (12 R286). -/
def State.unpin (s : State) (f : Pin → Bool) : State :=
  let mine := s.pins.filter (fun p => f p.2)
  let s := mine.foldl (fun s p =>
    if s.keyOk p.2.key (4096 * p.1) then
      s.writeKeys p.2.key (4096 * p.1) ((from' (4096 * p.1) p.2.size).map (rd 0 p.2.data))
    else s) s
  { s with pins := s.pins.filter (fun p => !f p.2) }

/-- What a team that leaves its cores gives back there: drain slots, barrier records, and the core-pinned copies of its launch on
each core where no other team of the launch stands. -/
def State.leaveCores (s : State) (tid : Nat) (t : Team) : State :=
  let s := s.freeBars tid
  let s : State := { s with drainStore := s.drainStore.filter (fun d => d.2.owner != tid) }
  t.cores.foldl (fun s c =>
    if (s.teamsOn t.die c).any (fun o => o.2.launch = t.launch && o.1 != tid) then s
    else s.unpin (fun p => p.launch = t.launch && p.core = coreId t.die c)) s

/-- A commanded PS1 or PS2 is reached once no team stands (21 R457). -/
def State.powerTest (s : State) : State :=
  match s.powerWant with
  | some p => if s.teams.any (fun t => t.2.stands) then s else { s with power := p, powerWant := none }
  | none => s

/-- A team retires: its values go into the launch totals (R414). -/
def State.retireTeam (s : State) (tid : Nat) (t : Team) : State :=
  let s := if t.saved then s.freeBars tid else s.leaveCores tid t
  let s := s.updTeam tid (fun t => { t with retired := true, scratch := [], images := [], macs := [], tiles := [], tags := [], exps := [], invs := [] })
  let s := s.updLaunch t.launch (fun l => { l with
    teamsLeft := l.teamsLeft - 1,
    tot := { l.tot with statusMax := max l.tot.statusMax t.statusMax, nonZero := (l.tot.nonZero + t.nonZero) % 2 ^ 64,
                        killed := (l.tot.killed + t.killed) % 2 ^ 64 } })
  (s.retarget t.die).powerTest

/-- Whether a team that is done may retire: every other member detached or done; of a departed team, every other member that has
not departed has acknowledged (R299, R300). -/
def Team.mayRetire (t : Team) : Bool :=
  t.others.all (fun o =>
    if t.departed then o.2 == .departed || o.2 == .acked || t.acks.contains o.1 else o.2 != .live)

/-- A team whose groups have all retired is done; it retires when its members let it. -/
def State.teamTest (s : State) (tid : Nat) : State :=
  match s.team tid with
  | none => s
  | some t =>
    if t.retired ∨ t.live ≠ 0 then s
    else
      let s := (s.updTeam tid (fun t => { t with done := true })).detachTest tid
      match s.team tid with
      | some t => if t.mayRetire then s.retireTeam tid t else s
      | none => s

/-- The IEEE flags that a group gives its launch's record (R52; 15 R357). -/
def Group.ieee (g : Group) : BitVec 5 := g.fpFlags.foldl (fun x f => x ||| f.2) g.mxFlags

/-- GROUP_RETIRE: every lane has left and the five counters are zero (R50): slot and window are free, its queues are empty
(17 R375), and its team's phases with COUNT 0 are tested again (19 R412). -/
def execGroupRetire (gid : Nat) (s : State) : Out :=
  match s.group gid with
  | none => .next s
  | some g =>
    if !g.lanesGone ∨ g.retired ∨ (g.saved ∧ !g.killed) ∨ !g.ops.isEmpty ∨ !g.accs.isEmpty then .next s
    else
      let bad : Bool := g.killed || g.handled
      let s := s.setGroup gid { g with
        retired := true, oq := [], age := [], table := [], stack := [], aLoad := none, aBar := none, aTrap := none, aSet := none,
        hangSet := none, xblock := [] }
      let s := { s with notices := s.notices.filter (fun n => n.gid != gid),
                        pendingNotices := s.pendingNotices.filter (fun n => n.gid != gid) }
      let s := s.updTeam g.tid (fun t => { t with live := t.live - 1, killed := if bad then t.killed + 1 else t.killed })
      let s := match s.team g.tid with
        | some t => s.updLaunch t.launch (fun l => { l with ieee := l.ieee ||| g.ieee })
        | none => s
      .next ((s.retestBars g.tid).teamTest g.tid)

/-! ### Ridge members (01 R43; 12 R298-R300) -/

/-- The team of a position of a launch. -/
def State.teamAt (s : State) (lid pos : Nat) : Option (Nat × Team) :=
  s.teams.find? (fun t => t.2.launch = lid && t.2.pos = pos)

/-- RIDGE_LAUNCH_PARAMETERS: a member's firmware takes a launch. With no root for the partition it refuses (R43). -/
def execRidgeLaunchParameters (p : RidgeParams) (s : State) : Out :=
  let l (root : Nat) : Launch := Launch.start p.launch.queue p.launch.seq 0 0 p.prio p.fserv false (s.part p.part).policy.keys p.part
    root p.params p.member p.launch
  if s.stage ≠ .ready ∨ p.member = 0 ∨ p.params.width ≤ p.member ∨ s.launches.any (fun l => l.2.ref = p.launch) then .next s
  else
    match (s.part p.part).ridgeRoot with
    | none => .next (s.emit (.ridge p.launch 0 p.member ridgeREFUSED))
    | some root => .next { s with nextId := s.nextId + 1, launches := put s.launches s.nextId (l root) }

/-- RIDGE_MEMBER_TOTALS: a member's totals reach member 0, once each. -/
def execRidgeMemberTotals (launch member : Nat) (t : Totals) (s : State) : Out :=
  match s.launch launch with
  | none => .next s
  | some l =>
    if !l.isRidge ∨ l.member ≠ 0 ∨ member = 0 ∨ l.params.width ≤ member ∨ l.memberTotals.contains member then .next s
    else
      .next (s.updLaunch launch (fun l => { l with
        memberTotals := l.memberTotals ++ [member],
        tot := { statusMax := max l.tot.statusMax t.statusMax, nonZero := (l.tot.nonZero + t.nonZero) % 2 ^ 64,
                 killed := (l.tot.killed + t.killed) % 2 ^ 64, faults := min (l.tot.faults + t.faults) 0xFFFFFFFF } }))

/-- RIDGE_DETACH_NOTICE. -/
def execRidgeDetachNotice (launch pos member : Nat) (s : State) : Out :=
  match s.teamAt launch pos with
  | none => .next s
  | some (tid, _) =>
    let f (x : MemberState) : MemberState := if x = .live then .detached else x
    .next ((s.updTeam tid (fun t => { t with others := upd t.others member f })).teamTest tid)

/-- Requests of this device to a member's scratchpad that are not answered, and entries that hold stores to it (R300). -/
def State.towards (ref : LaunchRef) (pos member : Nat) (t : RemoteTarget) : Bool :=
  match t with
  | .ridge r p m _ => r == ref && p == pos && m == member
  | .mem _ => false

/-- A departure is acknowledged once every request issued to the member has been performed or discarded (R300). -/
def State.ackTest (s : State) (tid : Nat) (ref : LaunchRef) (pos member : Nat) : State :=
  match s.team tid with
  | none => s
  | some t =>
    if look t.others member ≠ some .departed ∨ s.reqs.any (fun r => State.towards ref pos member r.2.target) then s
    else (s.updTeam tid (fun t => { t with others := put t.others member .acked })).emit (.ridge ref pos member ridgeACK)

/-- RIDGE_DEPARTURE: the cores learn that a member has departed; their entries for it drain, and it is acknowledged. -/
def execRidgeDeparture (launch pos member : Nat) (s : State) : Out :=
  match s.teamAt launch pos, s.launch launch with
  | some (tid, t), some l =>
    if look t.others member = none ∨ look t.others member = some .acked then .next s
    else
      let s := s.updTeam tid (fun t => { t with others := put t.others member .departed })
      let s := (List.range 192).foldl (fun s c => s.drainWc c (fun w => State.towards l.ref pos member w.target)) s
      .next ((s.ackTest tid l.ref pos member).teamTest tid)
  | _, _ => .next s

/-- RIDGE_DEPARTURE_ACK. -/
def execRidgeDepartureAck (launch pos member : Nat) (s : State) : Out :=
  match s.teamAt launch pos with
  | none => .next s
  | some (tid, t) =>
    if !t.departed ∨ (look t.others member).isNone ∨ t.acks.contains member then .next s
    else .next ((s.updTeam tid (fun t => { t with acks := t.acks ++ [member] })).teamTest tid)

/-! ### Pre-emption (20 R433-R437; 12 R297) -/

/-- STOPREQ in every group of a team; a group parked for HANG is killed (20 R432); the write-combining entries of its groups
drain (12 R294). -/
def State.preemptTeam (s : State) (tid : Nat) : State :=
  match s.team tid with
  | none => s
  | some t =>
    if t.saved ∨ t.saving ∨ t.retired then s
    else
      let s := s.updTeam tid (fun t => { t with saving := true })
      let s := t.gids.foldl (fun s g =>
        match s.group g with
        | some x => if x.retired ∨ x.killed then s else if x.hangSet.isSome then s.handlerKill g else s.updGroup g Group.requestStop
        | none => s) s
      t.cores.foldl (fun s c => s.drainWc (coreId t.die c) (fun w => w.writers.any t.gids.contains)) s

/-- A team is pre-empted, and the other members of its position are told. -/
def State.preempt (s : State) (tid : Nat) : State :=
  match s.team tid with
  | some t => if t.saved ∨ t.saving ∨ t.retired then s else (s.preemptTeam tid).tellMembers tid ridgePREEMPTED
  | none => s

/-- The teams of launches that pass a test. -/
def State.teamsOfLaunches (s : State) (f : Launch → Bool) : List Nat :=
  (s.teams.filter (fun t => !t.2.retired && ((s.launch t.2.launch).map f).getD false)).map Prod.fst

/-- A mailbox request before READY is answered NOTREADY (21 R456). -/
def State.mailReady (s : State) (f : State → State) : Out := .next (if s.stage = .ready then f s else s.emit .notReady)

/-- PREEMPT_REQUEST: whole teams of a queue's launches, or of a partition. -/
def execPreemptRequest (sel : PreemptSel) (s : State) : Out :=
  s.mailReady (fun s =>
    let f (l : Launch) : Bool := match sel with
      | .queue q => l.queue = q && l.ref.home = Config.chip.toNat
      | .partition p => l.part = p
    (s.teamsOfLaunches f).foldl State.preempt s)

/-- A group has stopped, and only weak loads of its access program are unfinished (R434; 06 R187; 13 R317). -/
def Group.settled (g : Group) : Bool :=
  g.retired || (!g.killed && g.lanesStopped &&
    g.accs.all (fun a => a.stream == .access && a.kind == .weak && a.isLoad && a.stage != .faulted))

/-- A group as it is saved: temporaries are not saved, and an unfinished weak load is issued again after resumption. -/
def Group.save (g : Group) : Group :=
  let g := g.accs.foldl (fun g a => g.setDest a.dest a.lane .empty) g
  Group.settleAccOps { g with saved := true, t := [], tst := [], accs := [], aLoad := none }

/-- Entries of a table whose key lies in block b of a size, by their place in the block. -/
def blockOf {β : Type} (m : AMap β) (b size : Nat) : AMap β :=
  (m.filter (fun e => e.1 / size = b)).map (fun e => (e.1 % size, e.2))
/-- Put a block back. -/
def putBlock {β : Type} (m : AMap β) (b size : Nat) (x : AMap β) : AMap β := x.foldl (fun m e => put m (b * size + e.1) e.2) m

/-- The matrix state of a team's quarters goes with it (15 R338). -/
def State.saveQuarter (s : State) (tid : Nat) (q : Nat × Nat) : State :=
  (s.updTeam tid (fun t => { t with
    macs := put t.macs q.1 (blockOf s.macs q.2 131072), tags := put t.tags q.1 (blockOf s.tags q.2 8),
    exps := put t.exps q.1 (blockOf s.exps q.2 4096), invs := put t.invs q.1 (blockOf s.invs q.2 4096),
    tiles := put t.tiles q.1 (blockOf s.tiles q.2 65536) })).clearQuarter q.2

def State.restoreQuarter (s : State) (t : Team) (q : Nat × Nat) : State :=
  let s := s.clearQuarter q.2
  { s with macs := putBlock s.macs q.2 131072 (rd [] t.macs q.1), tags := putBlock s.tags q.2 8 (rd [] t.tags q.1),
           exps := putBlock s.exps q.2 4096 (rd [] t.exps q.1), invs := putBlock s.invs q.2 4096 (rd [] t.invs q.1),
           tiles := putBlock s.tiles q.2 65536 (rd [] t.tiles q.1) }

/-- The quarters of a team where no group of another team is resident: the only ones whose matrix state can be the team's. -/
def State.ownQuarters (s : State) (tid die : Nat) (cores : List Nat) : List (Nat × Nat) :=
  (quartersOf die cores).filter (fun q => !(s.groups.any (fun g => g.2.resident && g.2.tid != tid && g.2.quarterId = q.2)))

/-- Barrier records of a one-core team go with it. -/
def State.saveBars (s : State) (tid : Nat) (t : Team) : State :=
  if 1 < t.cores.length then s
  else
    let mine := s.coreBars.filter (fun r => r.2.owner = tid)
    { s.updTeam tid (fun t => { t with bars := mine.foldl (fun m r => put m r.2.num r.2) [] }) with
      coreBars := s.coreBars.filter (fun r => r.2.owner != tid) }

/-- Drain images that a team owns on its cores, by core index and slot (16 R361). -/
def State.imagesOf (s : State) (tid : Nat) (t : Team) : AMap (List DrainWord) :=
  s.drainStore.foldl (fun m d =>
    match t.cores.zipIdx.find? (fun c => coreId t.die c.1 = d.1 / 64) with
    | some c => if d.2.owner = tid ∧ d.2.full then put m (64 * c.2 + d.1 % 64) d.2.image else m
    | none => m) []

/-- TEAM_SAVE: every group has stopped; a full fence at scope fabric (14 R336); then the state goes to the save area, and cores,
slots and scratchpad are free (R436). -/
def execTeamSave (tid : Nat) (s : State) : Out :=
  match s.team tid with
  | none => .next s
  | some t =>
    let gs := t.gids.filterMap s.group
    if !t.saving ∨ !(gs.all Group.settled) ∨ gs.all Group.retired then .next s
    else
      let live := t.gids.filter (fun g => ((s.group g).map (fun x => !x.retired)).getD false)
      let (s, ok) := live.foldl (fun (x : State × Bool) gid =>
        match x.1.group gid with
        | some g =>
          let (s, ok) := x.1.fence gid g [] true true .fabric
          (s, x.2 && ok)
        | none => x) (s, true)
      if !ok then .next s
      else
        let images := s.imagesOf tid t
        let s := (s.ownQuarters tid t.die t.cores).foldl (fun s q => s.saveQuarter tid q) s
        let s := s.saveBars tid t
        let bars := ((s.team tid).map Team.bars).getD []
        let s := s.leaveCores tid t
        let s := live.foldl (fun s g => s.updGroup g Group.save) s
        .next ((s.updTeam tid (fun t => { t with saved := true, saving := false, bars := bars, images := images })).powerTest)

/-! ### Resumption (20 R438; 12 R297) -/

/-- The groups of a team that take a slot again. -/
def State.returning (s : State) (t : Team) (ix : Nat) : Bool :=
  match s.group (nth 0 t.gids ix) with
  | some g => !g.retired && !g.killed
  | none => false

/-- What a core must have beside room: the drain slots of the images, and records for bound barriers (16 R361; 19 R412). -/
def State.resumeRoom (s : State) (t : Team) (die core k : Nat) : Bool :=
  t.images.all (fun im => im.1 / 64 != k || !(((look s.drainStore (64 * coreId die core + im.1 % 64)).map DrainSlot.full).getD false)) &&
    (1 < t.cores.length ||
      decide ((t.bars.filter (fun b => b.2.bound)).length + (s.coreBars.filter (fun r => r.1 / 32 = coreId die core)).length ≤ 32))

/-- A saved team goes on on cores. -/
def State.resumeTeam (s : State) (tid : Nat) (t : Team) (die : Nat) (cores : List Nat) : State :=
  let w := ((s.launch t.launch).map (fun l => l.params.w)).getD 8
  let s := (quartersOf die cores).foldl (fun s q => if s.quarterUsed q.2 then s else s.restoreQuarter t q) s
  let s : State := { s with drainStore := t.images.foldl (fun m im =>
    put m (64 * coreId die (nth 0 cores (im.1 / 64)) + im.1 % 64) { full := true, owner := tid, image := im.2 }) s.drainStore }
  let s := if 1 < cores.length then s
    else { s with coreBars := (t.bars.filter (fun b => b.2.bound)).foldl (fun m b =>
      put m ((lowestFree m (32 * coreId die (nth 0 cores 0)) 32).getD 0) b.2) s.coreBars }
  let s := (List.range t.gids.length).foldl (fun s ix =>
    if s.returning t ix then
      let (k, q) := seat w ix
      let core := nth 0 cores k
      let slot := s.freeGroupSlot die core q
      s.updGroup (nth 0 t.gids ix) (fun g => { g with
        saved := false, stopReq := false, die := die, core := core, quarter := q, slot := slot, born := s.tick, waited := 0, aWaited := 0 })
    else s) s
  let phases := t.bars.foldl (fun m b => wr 0 m b.1 b.2.phase) t.phases
  let seen := if 1 < cores.length then
      cores.foldl (fun m c => (t.bars.foldl (fun m b => wr 0 m (256 * b.1 + c) b.2.phase) m)) []
    else []
  let s := s.updTeam tid (fun t => { t with
    saved := false, die := die, cores := cores, bars := if 1 < cores.length then t.bars else [], seen := seen, images := [],
    phases := if 1 < cores.length then t.phases else phases, macs := [], tiles := [], tags := [], exps := [], invs := [] })
  t.gids.foldl (fun s gid =>
    match s.group gid with
    | some g => if g.resident then (s.releaseAct g .fabric).acquireAct t.launch g .fabric else s
    | none => s) s

/-- The resumption of a saved team on cores, where it is possible: none if not. -/
def State.tryResume (s : State) (tid die : Nat) (cores : List Nat) : Option State :=
  match s.team tid with
  | none => none
  | some t =>
    match s.launch t.launch with
    | none => none
    | some l =>
      if !t.saved ∨ t.retired ∨ !(s.places) ∨ !(s.fits t.launch l (s.returning t) (s.resumeRoom t die) die cores) ∨
          s.launches.any (fun o => Launch.before o (t.launch, l) && s.placeable o.1 o.2) then none
      else
        let (s1, ok) := s.pointReady die l
        if ok then some (s1.resumeTeam tid t die cores) else some s1

/-- TEAM_RESUME: a saved team re-enters placement; the other members of its position resume with it. -/
def execTeamResume (tid die : Nat) (cores : List Nat) (s : State) : Out :=
  match s.tryResume tid die cores with
  | none => .next s
  | some s1 =>
    let back := ((s1.team tid).map (fun t => !t.saved)).getD false
    .next (if back then s1.tellMembers tid ridgeRESUMED else s1)

/-- RIDGE_PREEMPT_NOTICE: another member team of the position is pre-empted or resumed, and this device's goes with it. -/
def execRidgePreemptNotice (launch pos member : Nat) (resumed : Bool) (s : State) : Out :=
  match s.teamAt launch pos, s.launch launch with
  | some (tid, t), some l =>
    if (look t.others member).isNone then .next s
    else if !resumed then .next (s.preemptTeam tid)
    else
      let pick (d : Nat) : Option (Nat × List Nat) := (s.pickCores launch l (s.returning t) (s.resumeRoom t d) d).map (fun c => (d, c))
      match (pick 0).orElse (fun _ => pick 1) with
      | some (d, c) => .next ((s.tryResume tid d c).getD s)
      | none => .next s
  | _, _ => .next s

end Sys2Proof.Machine
end

