-- ==== Sys2Proof/Machine/FrontEnd.lean ====
section
/-!
DEFINITION. The front end: doorbells, packets, launch checks, prologue passes, cache, translation and bias maintenance, events
and completion records: 18 R393-R402, R476, R477; 01 R26, R29, R39, R42, R43, R52; 12 R287, R296; 08 R217-R219; 19 R415-R417;
24 R472, R473.
-/
namespace Sys2Proof.Machine

/-! ### Accesses of the front end (18 R476; 12 R475) -/

/-- The front end accesses memory in a queue's address space, for no group, at the home of each line. -/
def Queue.ctx (q : Queue) : Actx := ⟨q.cfg.root, q.cfg.part, none, 0, 0, 0⟩

/-- Outcome of a front-end access: held by a flip, not to be made, or done. -/
inductive Fe (α : Type) where
  | held
  | bad (f : XFault)
  | ok (s : State) (v : α)

/-- The fault of an access whose line is poisoned or whose key is not loaded. -/
def feFault (st : MemStatus) (va : VAddr) : XFault :=
  match st with
  | .keyRev => ⟨.perm, 6, 0, va⟩
  | _ => ⟨.memErr, 0, 0, va⟩

/-- n bytes read at va, which lie in one aligned unit. -/
def State.feRead (s : State) (c : Actx) (va : VAddr) (n : Nat) : Fe (List Byte) :=
  match s.translate c .read false va with
  | .error f => .bad f
  | .ok (s, t) =>
    if s.placeHeld t.place then .held
    else
      match s.statusOf t.place t.key with
      | .ok => .ok s ((List.range n).map (s.placeByte c (.strong .system) t.place t.key))
      | st => .bad (feFault st va)

/-- k pieces of 8 bytes from va. -/
def State.feReads (s : State) (c : Actx) : Nat → VAddr → Fe (List Byte)
  | 0, _ => .ok s []
  | k + 1, va =>
    match s.feRead c va 8 with
    | .held => .held
    | .bad f => .bad f
    | .ok s1 bs =>
      match s1.feReads c k (va + 8) with
      | .held => .held
      | .bad f => .bad f
      | .ok s2 r => .ok s2 (bs ++ r)

/-- A request that no group and no launch waits for. -/
def State.sendFree (s : State) (chip : Nat) (t : RemoteTarget) (key : Nat) (op : RemoteOp) : State :=
  s.sendReq (.drain [] []) chip t key op

/-- One write of bytes at va. -/
def State.feWrite (s : State) (c : Actx) (va : VAddr) (bs : List Byte) : Fe Unit :=
  match s.translate c .write false va with
  | .error f => .bad f
  | .ok (s, t) =>
    if s.placeHeld t.place then .held
    else
      match t.place with
      | .remote chip tg => .ok (s.sendFree chip tg t.key (.write bs)) ()
      | p => if s.statusOf p t.key = .keyRev then .bad (feFault .keyRev va) else .ok (s.storeFrom c (.strong .system) p t.key 0 bs) ()

/-- The front end's acquire and release at scope device, host or system reach every core of the device (log 60). -/
def State.frontAcquire (s : State) (sc : Scope) : State :=
  { s with l1 := [], cc := s.cc.filter (fun e => e.2.2.isSome), scales := [], rl := if Scope.atLeastRidge sc then [] else s.rl }
def State.frontRelease (s : State) : State := { (List.range 24).foldl State.writeBackCluster s with scales := [] }

/-! ### Queues, records and stops (18 R394, R395, R477; 19 R415, R416) -/

def State.queue (s : State) (q : Nat) : Option Queue := look s.queues q
def State.updQueue (s : State) (q : Nat) (f : Queue → Queue) : State := { s with queues := upd s.queues q f }

/-- A queue becomes STOPPED: its forwarded records and notices go back to the firmware (R396). -/
def State.stopQueue (s : State) (q : Nat) : State := (s.updQueue q (fun x => { x with st := .stopped })).dropDriver q

/-- The 64 bytes of a record (19 R415 Table 3). -/
def recordBytes (seq queue statusMax kind nonZero killed faults ieee errsum ridx pass : Nat) : List Byte :=
  toBytes (seq + queue * 2 ^ 32 + statusMax * 2 ^ 48 + kind * 2 ^ 56) 8 ++ toBytes nonZero 8 ++ toBytes killed 8 ++
    toBytes (faults + ieee * 2 ^ 32) 8 ++ toBytes errsum 8 ++ toBytes (ridx + pass * 2 ^ 32) 8 ++ toBytes 0 16

/-- A record is written at CREC + 64 × (SEQ mod 2^CLOG); one that cannot be written is lost, and the queue stops (R477). None
while a flip holds the page. -/
def State.writeRecord (s : State) (q : Nat) (x : Queue) (seq : Nat) (bs : List Byte) : Option State :=
  let at' := BitVec.ofNat 64 (x.cfg.crec.base + 64 * (seq % 2 ^ x.cfg.clog))
  match s.feWrite x.ctx at' bs with
  | .held => none
  | .ok s _ => some s
  | .bad f =>
    let lose (l : Option Lost) : Lost := match l with
      | some l => { l with count := l.count + 1 }
      | none => ⟨f.cause, f.sub, seq, 1⟩
    some ((s.updQueue q (fun x => { x with lost := some (lose x.lost) })).stopQueue q)

/-- The queue stops at the packet at its RIDX with an error of the summary (R394, R395): KIND 1 at the next SEQ. `skip` says that
the packet counts as consumed (log 61). -/
def State.failPacket (s : State) (q : Nat) (x : Queue) (bitNo : Nat) (skip : Bool) : Option State :=
  let bs := recordBytes x.seq.toNat q 0 1 0 0 0 0 (2 ^ bitNo) x.ridx.toNat 0
  (s.writeRecord q x x.seq.toNat bs).map (fun s =>
    (s.updQueue q (fun y => { y with seq := y.seq + 1, busy := .none, ridx := if skip then y.ridx + 1 else y.ridx })).stopQueue q)

/-- The step that leads to a stop, or a wait while a flip holds the completion area. -/
def State.failOut (s old : State) (q : Nat) (x : Queue) (bitNo : Nat) (skip : Bool) : Out :=
  .next ((s.failPacket q x bitNo skip).getD old)

/-- Packets that the doorbell covers and that are not consumed. -/
def Queue.pending (x : Queue) : Nat := (x.widx - x.ridx).toNat

/-- A queue that runs with more packets pending than its ring holds stops with RINGBAD (R395). -/
def State.ringTest (s : State) (q : Nat) : State :=
  match s.queue q with
  | some x => if x.st = .run ∧ 2 ^ x.cfg.rlog < x.pending then (s.failPacket q x errRINGBAD false).getD s else s
  | none => s

/-- DOORBELL (R395). A doorbell of a queue that waits or is stopped acts when the queue runs again. -/
def execDoorbell (q : Nat) (widx : BitVec 32) (s : State) : Out :=
  match s.queue q with
  | none => .next s
  | some _ => .next ((s.updQueue q (fun x => { x with widx := widx })).ringTest q)

/-- The packet has been consumed: RIDX goes on. -/
def State.consumed (s : State) (q : Nat) : State :=
  (s.updQueue q (fun x => { x with ridx := x.ridx + 1, busy := .none, st := if x.st = .wait then .run else x.st }))

/-! ### Packets (18 R394, R397) -/

/-- A span of n bytes within a capability. -/
def capCovers (c : Cap) (a n : Nat) : Bool := c.tag && decide (c.base ≤ a) && decide (a + n ≤ c.base + c.len)

def pktType (p : Nat) : Nat := bits p 7 0
/-- The three 64-bit fields of a packet. -/
def pktA (p : Nat) : Nat := bits p 127 64
def pktB (p : Nat) : Nat := bits p 191 128
def pktC (p : Nat) : Nat := bits p 255 192

/-- A scope field: 6, 10 or 11. -/
def pktScope (p : Nat) : Option Scope :=
  match bits p 15 12 with
  | 6 => some .device
  | 10 => some .host
  | 11 => some .system
  | _ => none

/-- The alignment of a CMAINT's base and length (R400). -/
def formAlign (form : Nat) : Nat := if form = 2 ∨ form = 4 ∨ form = 5 then 4096 else 64

/-- Packets that stop the queue with BADPKT by their form: unknown TYPE or FORM, a reserved bit set, a misaligned field, a scope
that is not accepted (R394, R397, R400). -/
def badPacket (p : Nat) : Bool :=
  let noScope : Bool := (pktScope p).isNone
  match pktType p with
  | 0 => p / 2 ^ 8 != 0
  | 1 => bits p 63 8 != 0 || p / 2 ^ 128 != 0 || pktA p % 64 != 0
  | 2 => bits p 63 8 != 0 || p / 2 ^ 256 != 0 || pktA p % 64 != 0 || pktB p % 4 != 0
  | 3 =>
    let form := bits p 11 8
    bits p 63 16 != 0 || p / 2 ^ 192 != 0 || noScope || 6 < form || pktB p == 0 || pktA p % formAlign form != 0 ||
      pktB p % formAlign form != 0
  | 4 => bits p 11 8 != 0 || bits p 63 16 != 0 || p / 2 ^ 192 != 0 || noScope || pktA p % 8 != 0
  | 5 => bits p 11 9 != 0 || bits p 63 16 != 0 || p / 2 ^ 192 != 0 || noScope || pktA p % 8 != 0
  | _ => true

/-- Whether a packet's addresses lie within the capabilities of their kinds (R394). -/
def capsOk (c : QueueConfig) (p : Nat) : Bool :=
  match pktType p with
  | 1 => capCovers c.dcap (pktA p) 192
  | 2 => capCovers c.dcap (pktA p) 704 && capCovers c.xcap (pktB p) 4
  | 3 => capCovers c.dcap (pktA p) (pktB p)
  | 4 | 5 => capCovers c.ecap (pktA p) 8
  | _ => true

/-- The packet at a queue's RIDX, consumed by the meaning that it is for: `mine` tests it. A packet that no meaning is for, or
that fails a check of R394, stops the queue. -/
def State.consume (s : State) (q : Nat) (mine : Nat → Bool) (f : State → Queue → Nat → Out) : Out :=
  match s.queue q with
  | none => .next s
  | some x =>
    if s.stage ≠ .ready ∨ x.st ≠ .run ∨ x.busy ≠ .none ∨ x.pending = 0 then .next s
    else
      match s.feReads x.ctx 8 (BitVec.ofNat 64 (x.cfg.ring.base + 64 * (x.ridx.toNat % 2 ^ x.cfg.rlog))) with
      | .held => .next s
      | .bad _ => s.failOut s q x errBADPKT false
      | .ok s1 bs =>
        let p := ofBytes bs
        if badPacket p then s1.failOut s q x errBADPKT true
        else if !(mine p) then .next s
        else if !(capsOk x.cfg p) then s1.failOut s q x errCAPFLT true
        else f s1 x p

/-- PACKET_NOP. -/
def execPacketNop (q : Nat) (s : State) : Out := s.consume q (fun p => pktType p = 0) (fun s _ _ => .next (s.consumed q))

/-! ### Launches (18 R398; 01 R26, R29, R39, R42, R43) -/

/-- n bytes of a descriptor from offset o, as a number. -/
def descField (bs : List Byte) (o n : Nat) : Nat := ofBytes ((bs.drop o).take n)

/-- The argument count, as far as it is in range. -/
def descArgs (bs : List Byte) : Nat := min 64 (descField bs 22 1)

/-- The parameters of a descriptor (18 R398 Table 3). `badByte` holds for a bit that the table says is zero, and for an argument
count out of range. -/
def descParams (bs : List Byte) : LaunchParams :=
  let f := descField bs
  { x := f 0 4, y := f 4 4, z := f 8 4, n := (List.range 4).map (fun i => f (12 + 2 * i) 2), w := f 20 2, hint := f 23 1 % 8,
    scratch := f 24 2 * 4096, reserve := f 26 1 * 4096, width := f 27 1,
    laneEntry := (List.range 4).map (fun i => BitVec.ofNat 64 (f (32 + 8 * i) 8)),
    accessEntry := (List.range 4).map (fun i => BitVec.ofNat 64 (f (64 + 8 * i) 8)),
    chips := (List.range (f 27 1)).map (fun i => f (96 + 2 * i) 2 % 512),
    args := (List.range (descArgs bs)).map (fun i => BitVec.ofNat 64 (f (192 + 8 * i) 8)),
    badByte := decide (64 < f 22 1) || f 23 1 / 8 != 0 || f 28 4 != 0 || f 160 32 != 0 ||
      (List.range 32).any (fun i => f (96 + 2 * i) 2 / 512 != 0) }

/-- The checks of R26, R29, R42 and 12 R296 that need no access. -/
def badParams (part : Nat) (p : LaunchParams) : Bool :=
  let g := LaunchParams.groups p
  p.badByte || g == 0 || decide (1024 < g) || [p.x, p.y, p.z].any (fun d => d == 0 || decide (2 ^ 31 ≤ d)) ||
    (p.n.zip p.laneEntry).any (fun e => decide (0 < e.1) && e.2 == 0) || decide (p.w < 8) || decide (256 < p.w) || p.w % 8 != 0 ||
    decide (6144 * 4096 < p.scratch) || decide (192 * 4096 < p.reserve) || p.width == 0 || decide (32 < p.width) ||
    (decide (1 < p.width) && (nth 512 p.chips 0 != Config.chip.toNat || p.chips.dedup.length != p.chips.length ||
      p.chips.any (fun c => !(Config.partChip part c)) || decide (2 ^ 24 < p.scratch)))

/-- Whether a lane entry is a run start: its word, and the word before it (02 R54). -/
def State.laneEntryOk (s : State) (c : Actx) (e : BitVec 64) : Bool := e == 0 || (s.targetBad c e).isNone
/-- Whether an access entry lies on a page with access-execute permission. -/
def State.accessEntryOk (s : State) (c : Actx) (e : BitVec 64) : Bool :=
  e == 0 || (e.toNat % 4 == 0 && match s.translate c .accessExec false e with
    | .ok _ => true
    | .error _ => false)
/-- Whether the pages of a lane entry's words are held by a flip, so that its test waits. -/
def State.entryHeld (s : State) (c : Actx) (e : BitVec 64) : Bool :=
  let held (w : Code LaneWord) : Bool := match w with
    | .held => true
    | _ => false
  e != 0 && e.toNat % 12 == 0 && (held (s.laneWord c e.toNat) || held (s.wordBefore c e.toNat))

/-- The outcome of the checks: none, or the bit of the error summary (R26, R29, R39; 21 R449). -/
def State.launchError (s : State) (c : Actx) (p : LaunchParams) : Option Nat :=
  if (s.part c.part).tdisp ≠ .run ∨ badParams c.part p ∨ !(p.laneEntry.all (s.laneEntryOk c)) ∨
      !(p.accessEntry.all (s.accessEntryOk c)) then some errLAUNCHBAD
  else if 32 < coresNeeded p then some errLAUNCHFIT
  else none

/-- The empty launch, for a record with no launch behind it. -/
def noParams : LaunchParams :=
  { x := 0, y := 0, z := 0, n := [], w := 8, hint := 0, scratch := 0, reserve := 0, width := 1, laneEntry := [], accessEntry := [],
    chips := [], args := [], badByte := false }

/-- A launch takes the queue's next SEQ (R398). With an error it places nothing and only writes its record (R52). A ridge launch's
parameters go to the other members (R43). -/
def State.launchWith (s : State) (q : Nat) (x : Queue) (pass : Nat) (p : LaunchParams) (e : Option Nat) : State :=
  let lid := s.nextId
  let ref : LaunchRef := ⟨Config.chip.toNat, q, x.seq.toNat⟩
  let l := Launch.start q x.seq.toNat pass x.ridx.toNat x.cfg.prio x.cfg.fserv x.cfg.priv (s.part x.cfg.part).policy.keys x.cfg.part
    x.cfg.root p 0 ref
  let l := match e with
    | some b => { l with ended := true, teamsLeft := 0, errsum := 1#64 <<< b }
    | none => l
  let s := ({ s with nextId := lid + 1, launches := put s.launches lid l }).updQueue q (fun x => { x with seq := x.seq + 1 })
  if e.isNone ∧ 1 < p.width then
    ((List.range p.width).drop 1).foldl (fun s m => s.emit (.ridgeParams (nth 0 p.chips m)
      { launch := ref, member := m, prio := x.cfg.prio, fserv := x.cfg.fserv, part := x.cfg.part, params := p })) s
  else s

/-- A launch from a descriptor's bytes; none while a flip holds a page that the checks read. -/
def State.launchBytes (s : State) (q : Nat) (x : Queue) (pass : Nat) (bs : List Byte) : Option State :=
  let p := descParams bs
  if p.laneEntry.any (s.entryHeld x.ctx) then none else some (s.launchWith q x pass p (s.launchError x.ctx p))

/-- DISPATCH: the descriptor is read, with its arguments, and the launch is checked. -/
def execDispatch (q : Nat) (s : State) : Out :=
  s.consume q (fun p => pktType p = 1) (fun s1 x p =>
    let va := BitVec.ofNat 64 (pktA p)
    match s1.feReads x.ctx 24 va with
    | .held => .next s
    | .bad _ => s1.failOut s q x errBADPKT true
    | .ok s2 head =>
      let a := descArgs head
      if !(capCovers x.cfg.dcap (pktA p) (192 + 8 * a)) then s2.failOut s q x errCAPFLT true
      else
        match s2.feReads x.ctx a (va + 192) with
        | .held => .next s
        | .bad _ => s2.failOut s q x errBADPKT true
        | .ok s3 args =>
          match s3.launchBytes q x 0 (head ++ args) with
          | none => .next s
          | some s4 => .next (s4.consumed q))

/-! ### Prologues (18 R399) -/

/-- PROLOGUE: the template goes into the copy window. -/
def execPrologue (q : Nat) (s : State) : Out :=
  s.consume q (fun p => pktType p = 2) (fun s1 x p =>
    match s1.feReads x.ctx 88 (BitVec.ofNat 64 (pktA p)) with
    | .held => .next s
    | .bad _ => s1.failOut s q x errBADPKT true
    | .ok s2 bs =>
      .next (s2.updQueue q (fun x => { x with
        busy := .prologue (BitVec.ofNat 64 (pktB p)) (BitVec.ofNat 64 (pktC p)) (bs ++ List.replicate 320 0) 0 })))

/-- A pass: the memory system, the registers as those of a group's access program, and the window. -/
structure Pass where
  s : State
  g : Group
  win : List Byte

/-- How a word of a pass ends. -/
inductive PassEnd where
  | held | stop | halt (p : Pass) | go (p : Pass)

/-- Registers and access PC at the start of pass p. -/
def passGroup (entry : VAddr) (arg : Word64) (p : Nat) : Group :=
  { Group.start 0 0 0 0 0 0 0 (Launch.start 0 0 0 0 0 false false 0 0 0 noParams 0 ⟨0, 0, 0⟩) 0 with
    s := wr 0 (wr 0 (wr 0 [] 0 (BitVec.ofNat 64 scratchBase)) 1 (BitVec.ofNat 64 p)) 2 arg,
    aHalted := false, apc := entry.setWidth 57 }

/-- A word that only changes the program's registers has the meaning that it has in a group's access program. -/
def Pass.word (p : Pass) (f : State → Out) : PassEnd :=
  match f { p.s with focus := .access 0, groups := [(0, p.g)] } with
  | .next t =>
    match look t.groups 0 with
    | some g => if g.aStopped then .stop else if g.aHalted then .halt { p with g := g } else .go { p with g := g }
    | none => .stop
  | .fault _ | .refused _ => .stop

/-- Whether an access lies in the copy window, and where. -/
def windowAt (a : VAddr) (n : Nat) : Option Nat :=
  if scratchBase ≤ a.toNat ∧ a.toNat + n ≤ scratchBase + 1024 then some (a.toNat - scratchBase) else none

def Pass.winRead (p : Pass) (o n : Nat) : Word64 := BitVec.ofNat 64 (ofBytes ((p.win.drop o).take n))
def Pass.winWrite (p : Pass) (o n : Nat) (x : Word64) : List Byte := p.win.take o ++ toBytes x.toNat n ++ p.win.drop (o + n)

/-- A load of a pass. -/
def Pass.load (p : Pass) (c : Actx) (d a : SReg) (off : VAddr) (n : Nat) : PassEnd :=
  let addr := p.g.readS a + off
  let done (s : State) (x : Word64) : PassEnd := .go { p with s := s, g := (p.g.writeS d x).accessDone }
  if addr.toNat % n ≠ 0 then .stop
  else
    match windowAt addr n with
    | some o => done p.s (p.winRead o n)
    | none =>
      match p.s.feRead c addr n with
      | .held => .held
      | .bad _ => .stop
      | .ok s bs => done s (BitVec.ofNat 64 (ofBytes bs))

/-- A store of a pass; anywhere but in the window it stops the pass with PERM. -/
def Pass.store (p : Pass) (d a : SReg) (off : VAddr) (n : Nat) : PassEnd :=
  let addr := p.g.readS a + off
  match windowAt addr n with
  | some o => if addr.toNat % n ≠ 0 then .stop else .go { p with win := p.winWrite o n (p.g.readS d), g := p.g.accessDone }
  | none => .stop

/-- An atomic of a pass, in the window. -/
def Pass.rmw (p : Pass) (fn : AtomFn) (d a : SReg) (off : VAddr) : PassEnd :=
  let addr := p.g.readS a + off
  match windowAt addr 8 with
  | some o =>
    if addr.toNat % 8 ≠ 0 then .stop
    else
      let old := p.winRead o 8
      .go { p with win := p.winWrite o 8 (rmwStep fn old (p.g.readS d) 0), g := (p.g.writeS d old).accessDone }
  | none => .stop

/-- A word of a pass: opcodes 0x00-0x1B; any other stops it with ILLOP. -/
def Pass.exec (p : Pass) (c : Actx) (i : Instr) : PassEnd :=
  match i with
  | .accessAdd d a b => p.word (execAccessAdd d a b)
  | .accessSub d a b => p.word (execAccessSub d a b)
  | .accessMul d a b => p.word (execAccessMul d a b)
  | .accessMulhi d a b => p.word (execAccessMulhi d a b)
  | .accessAnd d a b => p.word (execAccessAnd d a b)
  | .accessOr d a b => p.word (execAccessOr d a b)
  | .accessXor d a b => p.word (execAccessXor d a b)
  | .accessAndn d a b => p.word (execAccessAndn d a b)
  | .accessShl d a b => p.word (execAccessShl d a b)
  | .accessShr d a b => p.word (execAccessShr d a b)
  | .sar d a b => p.word (execSar d a b)
  | .accessRot d a b => p.word (execAccessRot d a b)
  | .accessMin d a b => p.word (execAccessMin d a b)
  | .accessMax d a b => p.word (execAccessMax d a b)
  | .minu d a b => p.word (execMinu d a b)
  | .maxu d a b => p.word (execMaxu d a b)
  | .accessDiv d a b => p.word (execAccessDiv d a b)
  | .accessRem d a b => p.word (execAccessRem d a b)
  | .divu d a b => p.word (execDivu d a b)
  | .remu d a b => p.word (execRemu d a b)
  | .addi d a n => p.word (execAddi d a n)
  | .andi d a n => p.word (execAndi d a n)
  | .ori d a n => p.word (execOri d a n)
  | .xori d a n => p.word (execXori d a n)
  | .shli d a n => p.word (execShli d a n)
  | .shri d a n => p.word (execShri d a n)
  | .sari d a n => p.word (execSari d a n)
  | .movi d n => p.word (execMovi d n)
  | .exti d n => p.word (execExti d n)
  | .accessCmp k d a b => p.word (execAccessCmp k d a b)
  | .kand d a b => p.word (execKand d a b)
  | .kor d a b => p.word (execKor d a b)
  | .kxor d a b => p.word (execKxor d a b)
  | .kandn d a b => p.word (execKandn d a b)
  | .br k n o => p.word (execBr k n o)
  | .calla k n o => p.word (execCalla k n o)
  | .jr a => p.word (execJr a)
  | .jrl a => p.word (execJrl a)
  | .halt => p.word execHalt
  | .ld64 d a n => p.load c d a (off10 n) 8
  | .ld32 d a n => p.load c d a (off10 n) 4
  | .lds d a _ _ n => p.load c d a (off4 n) 8
  | .st64 d a n => p.store d a (off10 n) 8
  | .st32 d a n => p.store d a (off10 n) 4
  | .sts d a _ _ n => p.store d a (off4 n) 8
  | .aadd d a _ _ n => p.rmw .add64 d a (off4 n)
  | .axchg d a _ _ n => p.rmw .xchg64 d a (off4 n)
  | _ => .stop

/-- The next word of a pass: fetched through XCAP and access-execute permission. -/
def Pass.step (p : Pass) (c : Actx) (xcap : Cap) : PassEnd :=
  let va := (p.g.apc.signExtend 64).toNat
  if !(capCovers xcap va 4) then .stop
  else
    match p.s.accessWordAt c va with
    | .held => .held
    | .fault _ => .stop
    | .ok s x =>
      match decodeAccess x with
      | .ok i => Pass.exec { p with s := s } c i
      | .error _ => .stop

/-- A pass to its HALT, within a number of words. -/
def Pass.run (c : Actx) (xcap : Cap) : Nat → Pass → PassEnd
  | 0, _ => .stop
  | n + 1, p =>
    match p.step c xcap with
    | .go p' => Pass.run c xcap n p'
    | r => r

/-- PROLOGUE_PASS: one pass, of at most 4,096 words. -/
def execProloguePass (q : Nat) (s : State) : Out :=
  match s.queue q with
  | none => .next s
  | some x =>
    match x.busy with
    | .prologue entry arg window pass =>
      if x.st ≠ .run ∨ s.stage ≠ .ready then .next s
      else
        match Pass.run x.ctx x.cfg.xcap 4096 ⟨s.frontAcquire .system, passGroup entry arg pass, window⟩ with
        | .held | .go _ => .next s
        | .stop => .next ((s.launchWith q x pass noParams (some errPROLOGUEBAD)).consumed q)
        | .halt p =>
          let s1 : State := { p.s with groups := s.groups, focus := s.focus }
          if p.g.getK 1 then .next ((s1.launchWith q x pass noParams (some errCANCELLED)).consumed q)
          else
            match s1.launchBytes q x pass p.win with
            | none => .next s
            | some s2 =>
              if p.g.getK 2 ∧ pass < 255 then
                .next (s2.updQueue q (fun x => { x with busy := .prologue entry arg p.win (pass + 1) }))
              else .next (s2.consumed q)
    | _ => .next s

/-! ### CMAINT (18 R400; 08 R217-R219; 12 R287; 24 R472, R473) -/

/-- The physical page of a virtual page, with its HOME; none without a valid translation. -/
def State.cmaintPage (s : State) (c : Actx) (va : Nat) : Option (Nat × Nat) :=
  let v := BitVec.ofNat 64 va
  if !(canonical v) ∨ scratchBase ≤ va then none
  else
    match s.leaf c.root c.part v with
    | .error _ => none
    | .ok l =>
      let pa := (l.pfn + va % l.size) / 4096 * 4096
      if inHole (pa % 2 ^ 47) then none else some (pa, l.home)

/-- The virtual pages of a range. -/
def rangePages (base len : Nat) : List Nat := (List.range ((base + len + 4095) / 4096 - base / 4096)).map (fun i => (base / 4096 + i) * 4096)

/-- A page of local HBM, by its physical address with chip number. -/
def localHbm (pa : Nat) : Bool := pa / 2 ^ 47 == Config.chip.toNat && isHbm (pa % 2 ^ 47)

/-- Consumption of a CMAINT: the whole range is translated before any page is acted on. -/
def State.cmaint (s : State) (q form : Nat) (next : State → State) : Out :=
  s.consume q (fun p => pktType p = 3 && bits p 11 8 == form) (fun s1 x p =>
    let ps := (rangePages (pktA p) (pktB p)).map (s1.cmaintPage x.ctx)
    let flip : Bool := form = 4 ∨ form = 5
    if form ≠ 2 ∧ ps.any (fun o => match o with
        | none => true
        | some y => flip && !(localHbm y.1)) then
      s1.failOut s q x errBADPKT true
    else
      -- form 6 acts on no line of a page whose HOME is not 2: its place is an address in the hole
      let pages := ps.map (fun o => match o with
        | some y => if form = 6 ∧ y.2 ≠ 2 then hbmEnd else y.1
        | none => hbmEnd)
      .next (next (s1.updQueue q (fun x => { x with
        busy := .cmaint form (if flip then 0 else pktA p) (if flip then 0 else pktA p + pktB p) pages }))))

/-- A page whose flip is running (08 R219). -/
def Bias.moves : Bias → Bool
  | .host => false
  | .toHost _ | .toDevice _ _ => true

/-- A queue's next page starts to flip, unless another flip of the page runs. -/
def State.startFlip (s : State) (q : Nat) : State :=
  match s.queue q with
  | some x =>
    match x.busy with
    | .cmaint form 0 hi (pa :: r) =>
      let page := pa % 2 ^ 47 / 4096
      if (form = 4 ∨ form = 5) ∧ !(((look s.bias page).map Bias.moves).getD false) then
        let s1 := s.updQueue q (fun x => { x with busy := .cmaint form 1 hi (pa :: r) })
        if form = 4 then { s1 with bias := put s1.bias page (.toHost 0) }
        else { s1 with bias := put s1.bias page (.toDevice 0 false) }.emit (.snoop page 0)
      else s
    | _ => s
  | none => s

def execCmaintWritebackInvalidate (q : Nat) (s : State) : Out := s.cmaint q 0 id
def execCmaintWriteback (q : Nat) (s : State) : Out := s.cmaint q 1 id
def execCmaintTranslation (q : Nat) (s : State) : Out := s.cmaint q 2 id
def execCmaintFetchInvalidate (q : Nat) (s : State) : Out := s.cmaint q 3 id
def execCmaintFlipToHost (q : Nat) (s : State) : Out := s.cmaint q 4 (fun s => s.startFlip q)
def execCmaintFlipToDevice (q : Nat) (s : State) : Out := s.cmaint q 5 (fun s => s.startFlip q)
def execCmaintUnpin (q : Nat) (s : State) : Out := s.cmaint q 6 id

/-- The physical lines of a range: line numbers with the chip number in bits [49:41]. -/
def rangeLines (lo hi : Nat) (pages : List Nat) : List Nat :=
  (List.range ((hi - lo) / 64)).map (fun i =>
    let va := lo + 64 * i
    (nth hbmEnd pages (va / 4096 - lo / 4096) + va % 4096) / 64)

/-- The dirty bytes of a line go back from every cluster cache; the copies stay, clean. -/
def State.cleanLine (s : State) (line : Nat) : State :=
  let mine := s.cc.filter (fun e => e.1 % 2 ^ 56 / 64 = line)
  let s1 := mine.foldl (fun s e => s.putBack (e.1 % 2 ^ 56) e.2) s
  { s1 with cc := s1.cc.map (fun e => if e.1 % 2 ^ 56 / 64 = line then (e.1, (e.2.1, none)) else e) }

/-- What a CMAINT of forms 0 to 3 and 6 does to its lines. -/
def State.maintain (s : State) (x : Queue) (form lo hi : Nat) (pages : List Nat) : State :=
  let lines := rangeLines lo hi pages
  let here := (lines.filter (fun l => l / 2 ^ 41 == Config.chip.toNat)).map (fun l => l % 2 ^ 41)
  match form with
  | 0 => { here.foldl State.flushEverywhere s with rl := keepKeys s.rl (fun k => !(lines.contains (k / 64))) }
  | 1 => here.foldl State.cleanLine s
  | 2 =>
    let mine (k : Nat) : Bool := lo / 4096 % 2 ^ 45 ≤ k && decide (k < lo / 4096 % 2 ^ 45 + (hi - lo) / 4096)
    { s with tcache := upd s.tcache x.cfg.root (fun m => keepKeys m (fun k => !(mine k))), stcache := del s.stcache x.cfg.part,
             scales := [] }
  | 3 => { s with fcache := s.fcache.filter (fun e => !(e.2.1.any (fun t => t != 0 && lines.contains (t - 1)))) }
  | 6 => { s with slicePins := keepKeys s.slicePins (fun k => !(here.contains k)) }
  | _ => s

/-- CMAINT_COMPLETION. -/
def execCmaintCompletion (q : Nat) (s : State) : Out :=
  match s.queue q with
  | none => .next s
  | some x =>
    match x.busy with
    | .cmaint form lo hi pages =>
      if form = 4 ∨ form = 5 then .next (s.startFlip q) else .next ((s.maintain x form lo hi pages).consumed q)
    | _ => .next s

/-- The flip of a page has ended: its queue goes to its next page, and flips that waited for the page start. -/
def State.flipDone (s : State) (page : Nat) : State :=
  let step (s : State) (q : Nat) : State :=
    match s.queue q with
    | some x =>
      match x.busy with
      | .cmaint form 1 hi (pa :: r) =>
        if (form = 4 ∨ form = 5) ∧ pa % 2 ^ 47 / 4096 = page then
          if r.isEmpty then s.consumed q else s.updQueue q (fun x => { x with busy := .cmaint form 0 hi r })
        else s
      | _ => s
    | none => s
  let qs := s.queues.map Prod.fst
  qs.foldl State.startFlip (qs.foldl step s)

/-- BIAS_LINE_ACTION: one line of a flip ends: to host, it has been written back and invalidated everywhere; to device, the host
has answered its snoop. -/
def execBiasLineAction (page : Nat) (s : State) : Out :=
  match look s.bias page with
  | some (.toHost n) =>
    let s1 := s.flushEverywhere (64 * page + n)
    if n < 63 then .next { s1 with bias := put s1.bias page (.toHost (n + 1)) }
    else .next ({ s1 with bias := put s1.bias page .host }.flipDone page)
  | some (.toDevice n true) =>
    if n < 63 then .next ({ s with bias := put s.bias page (.toDevice (n + 1) false) }.emit (.snoop page (n + 1)))
    else .next ({ s with bias := del s.bias page }.flipDone page)
  | _ => .next s

/-- The key id and epoch of a byte stay those under which the page was last written (log 62). -/
def State.hostBytes (s : State) (pa : Nat) (bs : List Byte) : State :=
  { s with mem := (bs.zipIdx).foldl (fun m x => wr 0 m (pa + x.2) x.1) s.mem }

/-- BACK_INVALIDATE_RESPONSE: the host answers the snoop of the present line; data goes to HBM before the line's action ends
(24 R473). -/
def execBackInvalidateResponse (page : Nat) (data : Option (List Byte)) (s : State) : Out :=
  match look s.bias page with
  | some (.toDevice n false) =>
    let s1 := match data with
      | some bs => s.hostBytes (4096 * page + 64 * n) (bs.take 64)
      | none => s
    .next { s1 with bias := put s1.bias page (.toDevice n true) }
  | _ => .next s

/-! ### Events (18 R401) -/

/-- The event is compared with the target: below it the queue waits; else the acquire is made, and the packet is consumed. -/
def State.eventTest (s old : State) (q : Nat) (x : Queue) (va : VAddr) (target : Nat) (sc : Scope) : Out :=
  match s.feRead x.ctx va 8 with
  | .held => .next old
  | .bad _ => s.failOut old q x errBADPKT true
  | .ok s1 bs =>
    if ofBytes bs < target then .next (s1.updQueue q (fun x => { x with st := .wait, busy := .waitev va target sc }))
    else .next (((s1.frontAcquire sc).consumed q).ringTest q)

/-- WAITEV. -/
def execWaitev (q : Nat) (s : State) : Out :=
  s.consume q (fun p => pktType p = 4) (fun s1 x p =>
    s1.eventTest s q x (BitVec.ofNat 64 (pktA p)) (pktB p) ((pktScope p).getD .system))

/-- WAITEV_REREAD. -/
def execWaitevReread (q : Nat) (s : State) : Out :=
  match s.queue q with
  | none => .next s
  | some x =>
    match x.busy with
    | .waitev va target sc => if x.st = .wait ∧ s.stage = .ready then s.eventTest s q x va target sc else .next s
    | _ => .next s

/-- Consumption of a SIGNAL: it waits for the launches before it. -/
def State.signalPacket (s : State) (q : Nat) (add : Bool) : Out :=
  s.consume q (fun p => pktType p = 5 && bit p 8 == add) (fun s _ p =>
    .next (s.updQueue q (fun x => { x with
      busy := .signal add (BitVec.ofNat 64 (pktA p)) (BitVec.ofNat 64 (pktB p)) ((pktScope p).getD .system) })))
def execSignalWrite (q : Nat) (s : State) : Out := s.signalPacket q false
def execSignalAdd (q : Nat) (s : State) : Out := s.signalPacket q true

/-- A launch of this device's queue. -/
def Launch.ofQueue (l : Launch) (q : Nat) : Bool := l.ref.home == Config.chip.toNat && l.queue == q

/-- SIGNAL_RELEASE: once every launch of the queue with a lower SEQ has written its record, the release is made and the event is
written or added to as one atomic. -/
def execSignalRelease (q : Nat) (s : State) : Out :=
  match s.queue q with
  | none => .next s
  | some x =>
    match x.busy with
    | .signal add va val _ =>
      if s.launches.any (fun l => l.2.ofQueue q) ∨ s.stage ≠ .ready then .next s
      else
        let s1 := s.frontRelease
        let fn : AtomFn := if add then .add64 else .xchg64
        match s1.translate x.ctx .rmw false va with
        | .error _ => s1.failOut s q x errBADPKT true
        | .ok (s2, t) =>
          if s2.placeHeld t.place then .next s
          else
            match t.place with
            | .remote chip tg => .next ((s2.sendFree chip tg t.key (.rmw fn [(val, 0)])).consumed q)
            | p =>
              if s2.statusOf p t.key ≠ .ok then s2.failOut s q x errBADPKT true
              else
                let old := BitVec.ofNat 64 (ofBytes ((List.range 8).map (s2.placeByte x.ctx (.strong .system) p t.key)))
                .next ((s2.storeFrom x.ctx (.strong .system) p t.key 0 (toBytes (rmwStep fn old val 0).toNat 8)).consumed q)
    | _ => .next s

/-! ### Completion records (01 R43, R52; 19 R415-R417; 12 R286) -/

/-- Every team of a launch has been placed, or none will be, and all have retired; a ridge launch's totals are in. -/
def Launch.complete (l : Launch) : Bool :=
  l.teamsLeft = 0 && !l.waits && l.reserved.isNone &&
    (!l.isRidge || l.member != 0 || l.nextTeam = 0 || l.memberTotals.length = l.params.width - 1)

/-- The groups of a launch. -/
def State.groupsOf (s : State) (lid : Nat) : List Nat :=
  (s.groups.filter (fun g => ((s.team g.2.tid).map Team.launch) == some lid)).map Prod.fst

/-- A launch's state goes away with its record. -/
def State.dropLaunch (s : State) (lid : Nat) : State :=
  let gs := s.groupsOf lid
  { s with launches := del s.launches lid, groups := s.groups.filter (fun g => !(gs.contains g.1)),
           teams := s.teams.filter (fun t => t.2.launch != lid) }

/-- The record of a launch. IEEE flags are shown for a privileged queue only. -/
def Launch.record (l : Launch) : List Byte :=
  recordBytes l.seq l.queue l.tot.statusMax 0 l.tot.nonZero l.tot.killed l.tot.faults (if l.priv then l.ieee.toNat else 0)
    l.errsum.toNat l.ridx l.pass

/-- COMPLETION_RECORD_WRITE: once every write of the launch has completed, its write-combining entries included, and after a
release at scope system. Another member than member 0 sends its totals instead (R43). -/
def execCompletionRecordWrite (launch : Nat) (s : State) : Out :=
  match s.launch launch with
  | none => .next s
  | some l =>
    let gs := s.groupsOf launch
    let mine (w : WcEntry) : Bool := w.writers.any gs.contains
    if !l.complete then .next s
    else if s.wc.any (fun c => c.2.any mine) then .next (s.wc.foldl (fun s c => s.drainWc c.1 mine) s)
    else if s.reqs.any (fun r => match r.2.who with
        | .drain _ ws => ws.any gs.contains
        | .acc g _ _ => gs.contains g) then .next s
    else
      let s1 := s.frontRelease
      if l.ref.home ≠ Config.chip.toNat then .next ((s1.emit (.ridgeTotals l.ref l.member l.tot)).dropLaunch launch)
      else
        match s.queue l.queue with
        | none => .next (s1.dropLaunch launch)
        | some x =>
          match s1.writeRecord l.queue x l.seq l.record with
          | none => .next s
          | some s2 => .next (s2.dropLaunch launch)

end Sys2Proof.Machine
end

