-- ==== Sys2Proof/Machine/Edges.lean ====
section
/-!
DEFINITION. Traverse and CXL.mem: write-combining drains, requests from and answers of other devices, links, ports and host
accesses to device memory (12 R294, R295, R300-R302; 13 R316; 14 R324, R334, R335; 08 R218; 21 R443-R445, R448, R454).
-/
namespace Sys2Proof.Machine

/-! ### Write-combining drains (12 R294, R295) -/

/-- WC_AGE_DRAIN: the entry at a place of a core's buffer drains 512 cycles after its first byte, a time that the world outside
supplies. -/
def execWcAgeDrain (die core line : Nat) (s : State) : Out :=
  let cid := coreId die core
  match (s.wcOf cid)[line]? with
  | none => .next s
  | some w => .next ((s.setWc cid ((s.wcOf cid).eraseIdx line)).sendDrain w)

/-! ### Requests from other devices (08 R218; 12 R295, R300-R302; 21 R454) -/

/-- The team of this device that a ridge target names, while its scratchpad stands: none once it has departed or gone. -/
def State.ridgeTeam (s : State) (ref : LaunchRef) (pos member : Nat) : Option Nat :=
  match s.launches.find? (fun l => l.2.ref = ref && l.2.member = member) with
  | none => none
  | some (lid, _) =>
    match s.teamAt lid pos with
    | some (tid, t) => if t.departed ∨ t.retired then none else some tid
    | none => none

/-- Where a request of another device is performed, with the status that its target gives it. -/
def State.targetPlace (s : State) (t : RemoteTarget) (key : Nat) : Option Place × RemoteStatus :=
  match t with
  | .mem pa =>
    if !(s.keyOk key pa) then (none, .keyRevoked)
    else if s.poisoned pa then (some (.home pa), .memError) else (some (.home pa), .ok)
  | .ridge ref pos member o =>
    match s.ridgeTeam ref pos member with
    | some tid => (some (.scratch tid o), .ok)
    | none => (none, .departed)

/-- A request is held while its page flips (R218). -/
def State.targetHeld (s : State) (t : RemoteTarget) : Bool :=
  match t with
  | .mem pa => s.heldBias pa
  | .ridge _ _ _ _ => false

/-- Whether the far end has stopped the RSP channel of the port that an answer takes (21 R443): the request is served once it may
go. -/
def State.rspStopped (s : State) (chip : Nat) (t : RemoteTarget) : Bool :=
  ((look s.ports (s.portFor chip t)).map Port.stopRsp).getD false

/-- The agent that serves requests: the home slice. -/
def homeCtx : Actx := ⟨0, 0, none, 0, 0, 0⟩

/-- Bytes written where a mask holds. -/
def State.storeMasked (s : State) (p : Place) (key : Nat) (bytes : List Byte) (mask : BitVec 64) : State :=
  (List.range 64).foldl (fun s i => if mask.getLsbD i then s.placeStore homeCtx (.strong .system) p key i (nth 0 bytes i) else s) s

/-- WC_DRAIN_ARRIVAL: the check code is tested before anything is written; a mismatch discards the whole request, and is counted
with its source and line (R295; 21 R445). -/
def execWcDrainArrival (src : BitVec 9) (target : RemoteTarget) (key : Nat) (bytes : List Byte) (mask : BitVec 64) (crc : BitVec 32)
    (s : State) : Out :=
  let data := (List.range 64).map (fun i => if mask.getLsbD i then nth 0 bytes i else 0)
  if s.targetHeld target ∨ s.rspStopped src.toNat target then .next s
  else if crc32c data ≠ crc then
    let at' := match target with
      | .mem pa => pa
      | .ridge _ _ _ o => o
    .next ({ s with crcErrors := (s.crcErrors + 1) % 2 ^ 32, crcLast := some (src.toNat, at') }.emit (.reply src 0 .crcError []))
  else
    match s.targetPlace target key with
    | (some p, st) => .next ((s.storeMasked p key bytes mask).emit (.reply src 0 (if st = .memError then .ok else st) []))
    | (none, st) => .next (s.emit (.reply src 0 st []))

/-- Size of a read-modify-write's word. -/
def AtomFn.size : AtomFn → Nat
  | .add64 | .xchg64 => 8
  | _ => 4

/-- REMOTE_REQUEST: a read, a strong write or an atomic is performed at the line's home slice, under the page's bias, or in a
member team's scratchpad. -/
def execRemoteRequest (r : RemoteReq) (s : State) : Out :=
  if s.targetHeld r.target ∨ s.rspStopped r.chip.toNat r.target then .next s
  else
    let answer (s : State) (st : RemoteStatus) (bs : List Byte) : Out := .next (s.emit (.reply r.chip r.tag st bs))
    let ones (n : Nat) : List Byte := List.replicate n 0xFF
    match s.targetPlace r.target r.key, r.op with
    | (some p, .ok), .read n => answer s .ok ((List.range n).map (s.placeByte homeCtx (.strong .system) p r.key))
    | (_, st), .read n => answer s st (ones n)
    | (some p, _), .write bs => answer (s.storeFrom homeCtx (.strong .system) p r.key 0 bs) .ok []
    | (none, st), .write _ => answer s st []
    | (some p, .ok), .rmw fn ds =>
      let w := BitVec.ofNat 64 (ofBytes ((List.range (AtomFn.size fn)).map (s.placeByte homeCtx (.strong .system) p r.key)))
      let (w', olds) := rmwAll fn w ds
      answer (s.storeFrom homeCtx (.strong .system) p r.key 0 (toBytes w'.toNat (AtomFn.size fn))) .ok
        (olds.flatMap (fun o => toBytes o.toNat 8))
    | (_, st), .rmw _ ds => answer s st (ones (8 * ds.length))

/-! ### Answers of other devices (13 R316; 14 R324, R334; 12 R300) -/

/-- The bit of the error summary for a status (R316). -/
def statusBit : RemoteStatus → Option Nat
  | .ok => none
  | .departed => some errRIDGEGONE
  | .keyRevoked => some errKEYREV
  | .memError => some errMEMERR
  | .crcError => some errCRCERR

/-- A weak load of a HOME 0 page may leave its bytes in L2 as a remote line (14 R324). -/
def State.keepRemote (s : State) (a : LaneAcc) (bs : List Byte) : State :=
  match a.place with
  | .remote chip (.mem pa) =>
    if a.kind = .weak ∧ a.home = 0 ∧ Config.coin (s.salt (2 ^ 73 + pa)) then
      { s with rl := (bs.zipIdx).foldl (fun m x => put m (chip * 2 ^ 47 + pa + x.2) x.1) s.rl }
    else s
  | _ => s

/-- The answer to an access: a value returns, or the access ends; an error goes to the error summary with an informational
record. -/
def State.answerAcc (s : State) (gid : Nat) (g : Group) (a : LaneAcc) (status : RemoteStatus) (bs : List Byte) : State :=
  let failed (s : State) (a : LaneAcc) : State := match statusBit status with
    | some b => s.accError gid a b
    | none => s
  match a.what with
  | .load _ _ =>
    let v := match statusBit status with
      | some _ => a.errorValue
      | none => BitVec.ofNat 64 (ofBytes (bs.take a.size))
    let s := if status = .ok then s.keepRemote a (bs.take a.size) else s
    (failed s a).updGroup gid (fun g => g.setAcc { a with stage := .returned v })
  | .store _ _ => (failed s a).finishAcc gid a none
  | .rmw _ _ _ ret _ =>
    ((g.sameWord a).zipIdx).foldl (fun s x =>
      let v := match statusBit status with
        | some _ => x.1.errorValue
        | none => BitVec.ofNat 64 (ofBytes ((bs.drop (8 * x.2)).take 8))
      let s := failed s x.1
      if ret then s.updGroup gid (fun g => g.setAcc { x.1 with stage := .returned v }) else s.finishAcc gid x.1 none) s

/-- A departure whose last request has been answered is acknowledged (12 R300). -/
def State.ackFor (s : State) (t : RemoteTarget) : State :=
  match t with
  | .mem _ => s
  | .ridge ref pos member _ =>
    match s.launches.find? (fun l => l.2.ref = ref) with
    | none => s
    | some (lid, _) =>
      match s.teamAt lid pos with
      | some (tid, _) => s.ackTest tid ref pos member
      | none => s

/-- REMOTE_RESPONSE: the answer to a request, or the acknowledgement of a drain (R334). -/
def execRemoteResponse (id : Nat) (status : RemoteStatus) (bytes : List Byte) (s : State) : Out :=
  match look s.reqs id with
  | none => .next s
  | some r =>
    let s := { s with reqs := del s.reqs id }
    let s := match r.who with
      | .acc gid op lane =>
        match s.group gid with
        | some g =>
          match g.acc op lane with
          | some a => if a.stage = AccStage.sent then s.answerAcc gid g a status bytes else s
          | none => s
        | none => s
      | .drain lids _ =>
        match statusBit status with
        | some b => lids.foldl (fun s l => s.err (some l) b) s
        | none => s
    .next (s.ackFor r.target)

/-! ### Links and ports (21 R443-R445) -/

def Port.reset : Port := ⟨true, false, false, 0⟩
def State.port (s : State) (p : Nat) : Port := (look s.ports p).getD Port.reset
def State.setPort (s : State) (p : Nat) (x : Port) : State := { s with ports := wr Port.reset s.ports p x }

/-- A port goes down: its unanswered requests go on over the port that R444 then names. -/
def State.takePortDown (s : State) (p : Nat) : State :=
  let s := s.setPort p { s.port p with up := false, fails := 0 }
  let mine := s.reqs.filter (fun r => r.2.port = p)
  mine.foldl (fun s r =>
    let q := s.portFor r.2.chip r.2.target
    { s with reqs := put s.reqs r.1 { r.2 with port := q } }.emit (.resend q 0)) s

/-- FLIT_RECEIVE: a flit that fails its check is asked for again; after 8 failed resends of one flit the port goes down. -/
def execFlitReceive (port ch : Nat) (ok : Bool) (s : State) : Out :=
  let x := s.port port
  if 32 ≤ port ∨ 2 ≤ ch ∨ !x.up then .next s
  else if ok then .next (s.setPort port { x with fails := 0 })
  else if x.fails < 8 then .next ((s.setPort port { x with fails := x.fails + 1 }).emit (.resend port ch))
  else .next (s.takePortDown port)

/-- STOP or GO of a channel. -/
def State.flow (s : State) (port ch : Nat) (stop : Bool) : State :=
  let x := s.port port
  if 32 ≤ port then s
  else
    match ch with
    | 0 => s.setPort port { x with stopReq := stop }
    | 1 => s.setPort port { x with stopRsp := stop }
    | _ => s
def execFlowStop (port ch : Nat) (s : State) : Out := .next (s.flow port ch true)
def execFlowGo (port ch : Nat) (s : State) : Out := .next (s.flow port ch false)

/-- PORT_DOWN. -/
def execPortDown (port : Nat) (s : State) : Out :=
  if 32 ≤ port ∨ !(s.port port).up then .next s else .next (s.takePortDown port)

/-! ### CXL.mem (21 R448; 08 R218, R220; 14 R335) -/

/-- Whether function fn may use a line: the virtual function of the partition under whose key its bytes were written; a line that
was never written belongs to whichever partition reaches it (log 63). -/
def State.ownLine (s : State) (fn line : Nat) : Bool :=
  fn < 64 && (s.part fn).keyLoaded &&
    (from' (64 * line) 64).all (fun pa => match look s.keyOf pa with
      | some k => k.1 == fn || k.1 == 64
      | none => true)

/-- A line of HBM. -/
def hbmLine (addr : Nat) : Bool := addr < hbmEnd

/-- The home slice first takes the dirty cluster-cache bytes of a line in device bias (08 R218). -/
def State.beforeHost (s : State) (line : Nat) : State :=
  if (look s.bias (line / 64)).isNone then s.cleanLine line else s

/-- CXL_MEM_READ: 64 bytes. Through another function, or from a line with uncorrectable data, all ones with poison. -/
def execCxlMemRead (fn addr : Nat) (s : State) : Out :=
  let line := addr / 64
  if !(hbmLine addr) ∨ s.stage ≠ .ready ∨ s.heldBias addr then .next s
  else
    let s1 := s.beforeHost line
    if !(s1.ownLine fn line) ∨ s1.poisoned addr then .next (s1.emit (.cxlData fn (64 * line) (List.replicate 64 0xFF) true))
    else .next (s1.emit (.cxlData fn (64 * line) ((from' (64 * line) 64).map (s1.readKey fn)) false))

/-- CXL_MEM_WRITE: up to 64 bytes within one line. Through another function it is discarded and counted. -/
def execCxlMemWrite (fn addr : Nat) (bytes : List Byte) (s : State) : Out :=
  let line := addr / 64
  if !(hbmLine addr) ∨ s.stage ≠ .ready ∨ s.heldBias addr ∨ bytes.isEmpty ∨ 64 < addr % 64 + bytes.length then .next s
  else
    let s1 := s.beforeHost line
    if !(s1.ownLine fn line) then .next { s1 with cxlDropped := s1.cxlDropped + 1 }
    else .next (s1.writeKeys fn addr bytes)

end Sys2Proof.Machine
end

