-- ==== Sys2Proof/Machine/Manage.lean ====
section
/-!
DEFINITION. Management: queues, policies, keys, counters, mailbox registers, TDISP, start, power and soft errors (18 R393, R394,
R477; 20 R432; 19 R418, R419; 10 R247; 21 R447-R459; 01 R44).
-/
namespace Sys2Proof.Machine

/-! ### Keys and partitions (21 R449-R451) -/

/-- A new key of a partition: bytes written under the old one read as no rule defines (12 R302). -/
def Partition.newKey (p : Partition) : Partition := { p with keyLoaded := true, keyEpoch := p.keyEpoch + 1 }
def Partition.revoke (p : Partition) : Partition := { p with keyLoaded := false, keyEpoch := p.keyEpoch + 1 }

/-- The queues of a partition. -/
def State.queuesOf (s : State) (part : Nat) : List Nat := (s.queues.filter (fun q => q.2.cfg.part = part)).map Prod.fst

/-- Every team of a partition is killed, as R244 kills. -/
def State.killPart (s : State) (part : Nat) : State :=
  let gs := (s.teamsOfLaunches (fun l => l.part = part)).flatMap (fun t => ((s.team t).map Team.gids).getD [])
  gs.foldl State.killGroup s

def State.stopPart (s : State) (part : Nat) : State := (s.queuesOf part).foldl State.stopQueue s

/-- ERROR: every queue STOPPED, every team of the partition killed (R449 Table 1). -/
def State.enterError (s : State) (part : Nat) : State :=
  (((s.updPart part (fun p => { p with tdisp := .error })).stopPart part).killPart part)

/-- KEY_DELIVERY: over a secured session of the SPDM responder, which base camp brings up (R451, R456). -/
def execKeyDelivery (part : Nat) (s : State) : Out :=
  if 64 ≤ part ∨ s.stage = .off then .next s else .next (s.updPart part Partition.newKey)

/-- KEY_REVOKE. -/
def execKeyRevoke (part : Nat) (s : State) : Out :=
  s.mailReady (fun s => if 64 ≤ part then s else s.updPart part Partition.revoke)

/-! ### Queues (18 R393, R394) -/

/-- What a queue's configuration must satisfy (R393 Table 1). RING and CREC must cover their areas (log 64). -/
def QueueConfig.ok (c : QueueConfig) (p : Policy) : Bool :=
  decide (4 ≤ c.rlog) && decide (c.rlog ≤ 16) && decide (4 ≤ c.clog) && decide (c.clog ≤ 16) && decide (c.prio < 8) &&
    decide (c.part < 64) && decide (c.root < 2 ^ 56) && c.ring.base % 64 == 0 && capCovers c.ring c.ring.base (64 * 2 ^ c.rlog) &&
    capCovers c.crec c.crec.base (64 * 2 ^ c.clog) && (!c.priv || p.priv)

/-- QUEUE_CREATE. A partition without a key gets one from the firmware's generator (R451; log 65). In CONFIG_LOCKED and RUN it is a
change of locked configuration (R449). -/
def execQueueCreate (q : Nat) (c : QueueConfig) (s : State) : Out :=
  s.mailReady (fun s =>
    let p := s.part c.part
    if 256 ≤ q ∨ 64 ≤ c.part then s
    else
      match p.tdisp with
      | .locked | .run => s.enterError c.part
      | .error => s
      | .unlocked =>
        if (s.queue q).isSome ∨ !(QueueConfig.ok c p.policy) then s
        else
          let s1 := if p.keyLoaded then s else s.updPart c.part Partition.newKey
          { s1 with queues := put s1.queues q { cfg := c, st := .run, ridx := 0, widx := 0, seq := 0, lost := none, busy := .none } })

/-- QUEUE_RESTART: a stopped queue runs again, or waits again for its event. In ERROR every queue stays STOPPED (R449). -/
def execQueueRestart (q : Nat) (s : State) : Out :=
  s.mailReady (fun s =>
    match s.queue q with
    | none => s
    | some x =>
      if x.st ≠ .stopped ∨ (s.part x.cfg.part).tdisp = .error then s
      else
        let st : QState := match x.busy with
          | .waitev _ _ _ => .wait
          | _ => .run
        (s.updQueue q (fun x => { x with st := st })).ringTest q)

/-! ### Operating points, limits and alarms (01 R44; 20 R432; 21 R458, R459) -/

/-- PERMITTED_SET_WRITE: a die whose present point is no longer permitted moves to the nearest that is. An empty set is not
taken (log 66). -/
def execPermittedSetWrite (die : Nat) (set : BitVec 8) (s : State) : Out :=
  s.mailReady (fun s =>
    if 2 ≤ die ∨ set = 0 then s
    else
      s.updDie die (fun d =>
        let goal := d.moving.getD d.point
        { d with permitted := set, moving := if set.getLsbD goal then d.moving else some (mapHint set goal) }))

/-- HLOG_WRITE: 20 to 34 (R432). -/
def execHlogWrite (part v : Nat) (s : State) : Out :=
  if 64 ≤ part ∨ v < 20 ∨ 34 < v ∨ s.stage ≠ .ready then .next s else .next (s.updPart part (fun p => { p with hlog := v }))

/-- PLIM_WRITE. -/
def execPlimWrite (die watts : Nat) (s : State) : Out :=
  s.mailReady (fun s => if 2 ≤ die then s else s.updDie die (fun d => { d with plim := watts }))

/-- POWER_ALARM_RAISE: the measured power exceeds PLIM, or a sensor reads above 105 °C. -/
def execPowerAlarmRaise (die power temp : Nat) (s : State) : Out :=
  if 2 ≤ die ∨ !(decide ((s.die die).plim < power) || decide (105 < temp)) then .next s
  else .next (s.updDie die (fun d => { d with alarm := true }))

/-- POWER_ALARM_CLEAR: both have stayed below 95% of PLIM and below 100 °C. -/
def execPowerAlarmClear (die power temp : Nat) (s : State) : Out :=
  if die < 2 ∧ 100 * power < 95 * (s.die die).plim ∧ temp < 100 then .next (s.updDie die (fun d => { d with alarm := false }))
  else .next s

/-- THERMTRIP: a sensor reads 120 °C. -/
def execThermtrip (temp : Nat) (s : State) : Out :=
  if temp < 120 ∨ s.thermtrip then .next s else .next ({ s with thermtrip := true }.emit .thermtrip)

/-! ### Policies, firmware, counters, mailbox (21 R447, R452, R453; 19 R418, R419; 10 R247) -/

/-- Debug is closed: GSTOP is cleared, and the groups that group-stop held go on (R453; 20 R430). -/
def State.closeDebug (s : State) (part : Nat) : State :=
  (s.teamsOfLaunches (fun l => l.part = part)).foldl (fun s tid =>
    match s.team tid with
    | some t => t.gids.foldl (fun s g => s.updGroup g (fun g => { g with gstop := false, stopReq := g.stopReq && t.saving })) s
    | none => s) s

/-- TENANT_POLICY_LOAD: a policy takes the place of the old one if both signatures verify (R452). -/
def execTenantPolicyLoad (part : Nat) (p : Policy) (ecdsa lms : Bool) (s : State) : Out :=
  s.mailReady (fun s =>
    if 64 ≤ part ∨ !ecdsa ∨ !lms then s
    else
      let s1 := s.updPart part (fun x => { x with policy := p })
      let s2 : State := if p.perf then s1 else { s1 with perf := s1.perf.filter (fun c => c.2.2.1 != part) }
      if p.debug then s2 else s2.closeDebug part)

/-- FIRMWARE_LOAD: both signatures, and a security version not below the module's one-time count. -/
def execFirmwareLoad (version : Nat) (ecdsa lms : Bool) (s : State) : Out :=
  if s.stage = .off ∨ !ecdsa ∨ !lms ∨ version < Config.firmwareVersion then .next s else .next { s with fwVersion := version }

/-- PERF_SELECT_WRITE: ignored while the counters are locked for the partition; select 0 closes a counter, which clears it. A
counter that another partition has opened is not taken over (log 67). -/
def execPerfSelectWrite (part die core ix sel : Nat) (s : State) : Out :=
  s.mailReady (fun s =>
    let key := coreId die core * 8 + ix
    if !(s.part part).policy.perf ∨ 2 ≤ die ∨ 96 ≤ core ∨ 8 ≤ ix ∨ 32 ≤ sel then s
    else
      match look s.perf key with
      | none => if sel = 0 then s else { s with perf := put s.perf key (sel, part, 0) }
      | some (_, p, n) =>
        if p ≠ part then s
        else if sel = 0 then { s with perf := del s.perf key }
        else { s with perf := put s.perf key (sel, part, n) })

/-- What a read of a counter gives: 0 while the counters are locked for the partition (19 R419). -/
def State.perfValue (s : State) (part die core ix : Nat) : Nat :=
  match look s.perf (coreId die core * 8 + ix) with
  | some (_, p, n) => if p = part ∧ (s.part part).policy.perf then n else 0
  | none => 0

/-- A pool descriptor (10 R247): its rows are free, the lowest handed out first. One whose rows are in use, or that overlaps the
other die's, is not taken (log 68). -/
def State.setPool (s : State) (part die kvb lmax row0 nr : Nat) : State :=
  let used : Bool := s.rows.any (fun r => r.1 / 2 ^ 28 = part && r.2.st != RowState.free &&
    (match look s.pools (poolKey part die) with
      | some p => decide (p.row0 ≤ r.1 % 2 ^ 28) && decide (r.1 % 2 ^ 28 < p.row0 + p.nr)
      | none => false))
  let meets : Bool := match look s.pools (poolKey part (1 - die)) with
    | some p => decide (row0 < p.row0 + p.nr) && decide (p.row0 < row0 + nr)
    | none => false
  if 2 ≤ die ∨ 64 ≤ part ∨ kvb % 32768 ≠ 0 ∨ lmax = 0 ∨ 255 < lmax ∨ 2 ^ 28 < row0 + nr ∨ (used || meets) = true then s
  else { s with pools := put s.pools (poolKey part die) { kvb := kvb, lmax := lmax, row0 := row0, nr := nr },
                freeRows := put s.freeRows (poolKey part die) (from' row0 nr) }

/-- Whether a function may reach what belongs to a partition: the physical function, and the partition's own (R447). -/
def mayManage (fn part : Nat) : Bool := fn == 64 || fn == part

/-- MAILBOX_REGISTER_WRITE. A status request is answered before READY too (R456). -/
def execMailboxRegisterWrite (fn : Nat) (r : MailboxReg) (s : State) : Out :=
  let tell : State := s.emit (.status s.stage s.thermtrip s.crcErrors s.crcLast s.cxlDropped ((List.range 2).map (fun d => (s.die d).corrections)))
  match r with
  | .status => if s.stage = .off then .next s else .next tell
  | .pool part die kvb lmax row0 nr =>
    s.mailReady (fun s => if mayManage fn part then s.setPool part die kvb lmax row0 nr else s)
  | .ridgeRoot part root =>
    s.mailReady (fun s => if mayManage fn part && part < 64 then s.updPart part (fun p => { p with ridgeRoot := some root }) else s)
  | .scaleBase part base =>
    s.mailReady (fun s => if mayManage fn part && part < 64 then s.updPart part (fun p => { p with scaleBase := some base }) else s)
  | .cowPages part pages =>
    s.mailReady (fun s => if mayManage fn part && part < 64 then s.updPart part (fun p => { p with cowPages := pages }) else s)
  | .perfRead part die core ix =>
    s.mailReady (fun s => if mayManage fn part then s.emit (.perf (s.perfValue part die core ix)) else s)
  | .queueStatus q =>
    s.mailReady (fun s =>
      match s.queue q with
      | some x => if mayManage fn x.cfg.part then s.emit (.queueStatus q x.lost) else s
      | none => s)

/-- SPDM_REQUEST: the responder's measurements cover the firmware image and the loaded tenant policy (R449). -/
def execSpdmRequest (fn : Nat) (r : SpdmRequest) (s : State) : Out :=
  if s.stage = .off ∨ 64 < fn then .next s
  else .next (s.emit (.spdm fn r s.stage s.fwVersion (s.part fn).policy))

/-! ### TDISP and function-level reset (21 R449, R450) -/

def State.tdispMove (s : State) (v : Nat) (f : Tdisp → Option Tdisp) : Out :=
  if 64 ≤ v ∨ s.stage = .off then .next s
  else
    match f (s.part v).tdisp with
    | some t => .next (s.updPart v (fun p => { p with tdisp := t }))
    | none => .next s
def execLockInterface (v : Nat) (s : State) : Out := s.tdispMove v (fun t => if t = .unlocked then some .locked else none)
def execStartInterface (v : Nat) (s : State) : Out := s.tdispMove v (fun t => if t = .locked then some .run else none)
def execStopInterface (v : Nat) (s : State) : Out := s.tdispMove v (fun _ => some .unlocked)

/-- IDE_FAILURE: a selective IDE stream runs while the interface is in RUN. -/
def execIdeFailure (v : Nat) (s : State) : Out :=
  if 64 ≤ v ∨ (s.part v).tdisp ≠ .run then .next s else .next (s.enterError v)

/-- FLR: the partition's teams are killed, its queues stopped, its key revoked. -/
def execFlr (v : Nat) (s : State) : Out :=
  if 64 ≤ v ∨ s.stage = .off then .next s
  else .next (((s.killPart v).stopPart v).updPart v (fun p => { p.revoke with tdisp := .unlocked }))

/-! ### Start (21 R456) -/

/-- PERST_RELEASE: base camp. -/
def execPerstRelease (s : State) : Out := if s.stage = .off then .next { s with stage := .baseCamp } else .next s

/-- SUMMIT_COMPLETE: READY, with the ports that did not train left down; or FAILED. -/
def execSummitComplete (ok : Bool) (ports : BitVec 32) (s : State) : Out :=
  if s.stage ≠ .baseCamp ∨ s.power = .ps3 then .next s
  else if !ok then .next { s with stage := .failed }
  else
    .next ((List.range 32).foldl (fun s p => s.setPort p { s.port p with up := ports.getLsbD p }) { s with stage := .ready })

/-- Partitions after their keys are gone: the host makes them again. -/
def State.freshParts (s : State) : AMap Partition :=
  s.parts.map (fun p => (p.1, { Partition.reset with keyEpoch := p.2.keyEpoch + 1 }))

/-- PERST_ASSERTION: every item goes to its reset value. Memory keeps its bytes, but the keys that they are encrypted under are
gone (log 69). -/
def execPerstAssertion (s : State) : Out :=
  .next { State.reset with
    tick := s.tick, agenda := s.agenda, focus := s.focus, nextId := s.nextId, outbox := s.outbox, mem := s.mem,
    poison := s.poison, keyOf := s.keyOf, parts := s.freshParts, fwVersion := s.fwVersion }

/-! ### Module power states (21 R457) -/

/-- POWER_STATE_PS0. From PS3 the device is at base camp until summit. -/
def execPowerStatePs0 (s : State) : Out :=
  if s.power = .ps3 then .next { s with power := .ps0 } else s.mailReady (fun s => { s with power := .ps0, powerWant := none })

/-- PS1 and PS2 are entered after the resident teams have been pre-empted. -/
def State.sleep (s : State) (p : Power) : Out :=
  s.mailReady (fun s =>
    let s1 := (s.teamsOfLaunches (fun _ => true)).foldl State.preempt s
    ({ s1 with powerWant := some p }).powerTest)
def execPowerStatePs1 (s : State) : Out := s.sleep .ps1
def execPowerStatePs2 (s : State) : Out := s.sleep .ps2

/-- A launch as PS3 ends it: its groups that stand count as killed (log 70). -/
def State.endLaunch (s : State) (lid : Nat) (l : Launch) : Launch :=
  let gs := s.groups.filter (fun g => ((s.team g.2.tid).map Team.launch) == some lid)
  let ts := s.teams.filter (fun t => t.2.launch = lid && !t.2.retired)
  let open' := gs.filter (fun g => !g.2.retired)
  { l with
    ended := true, errsum := l.errsum ||| (1#64 <<< errCANCELLED),
    ieee := open'.foldl (fun x g => x ||| g.2.ieee) l.ieee,
    tot := { l.tot with
      statusMax := ts.foldl (fun m t => max m t.2.statusMax) l.tot.statusMax,
      nonZero := (l.tot.nonZero + (ts.map (fun t => t.2.nonZero)).sum) % 2 ^ 64,
      killed := (l.tot.killed + (ts.map (fun t => t.2.killed)).sum + open'.length) % 2 ^ 64 } }

/-- The record of a launch that PS3 ends is written where the completion area lies in host memory. -/
def State.lastRecord (s : State) (e : Nat × Launch) : State :=
  let l := s.endLaunch e.1 e.2
  if l.ref.home ≠ Config.chip.toNat then s
  else
    match s.queue l.queue with
    | none => s
    | some x =>
      let at' := BitVec.ofNat 64 (x.cfg.crec.base + 64 * (l.seq % 2 ^ x.cfg.clog))
      match s.translate x.ctx .write false at' with
      | .ok (s1, t) =>
        match t.place with
        | .cached pa | .home pa => if hostBase ≤ pa then s1.storeFrom x.ctx (.strong .system) t.place t.key 0 l.record else s
        | _ => s
      | .error _ => s

/-- POWER_STATE_PS3: every launch is ended, in one step: its writes go to memory, its record is written, other members are told of
the departure, and every key is revoked. HBM, queues, trees and grammar cells are lost; bytes of HBM then read as no rule
defines (log 71). -/
def execPowerStatePs3 (s : State) : Out :=
  s.mailReady (fun s =>
    let s1 := s.wc.foldl (fun s c => s.drainWc c.1 (fun _ => true)) s
    let s2 := (s1.frontRelease).unpin (fun _ => true)
    let s3 := s2.launches.foldl State.lastRecord s2
    let s4 := s3.teams.foldl (fun s t => if t.2.retired ∨ t.2.departed then s else s.tellMembers t.1 ridgeDEPARTED) s3
    { State.reset with
      tick := s4.tick, agenda := s4.agenda, focus := s4.focus, nextId := s4.nextId, outbox := s4.outbox, mem := s4.mem,
      poison := s4.poison.filter (fun l => !(isHbm (64 * l))), keyOf := s4.mem.foldl (fun m e => if isHbm e.1 then put m e.1 (64, 0) else m) (s4.keyOf.map (fun e => (e.1, (64, 0)))),
      parts := s4.freshParts, dies := s4.dies.map (fun d => (d.1, { d.2 with moving := none })), ports := s4.ports,
      crcErrors := s4.crcErrors, crcLast := s4.crcLast, cxlDropped := s4.cxlDropped, rseq := s4.rseq, fwVersion := s4.fwVersion,
      thermtrip := s4.thermtrip, stage := .baseCamp, power := .ps3 })

/-! ### Soft errors (21 R454, R455; 15 R347) -/

/-- MACRO_READBACK: one column of a macro on which no operation is performed. A (column, K-block) that cannot be corrected is
marked invalid; of a BF16 pair the mark stands in the even macro. -/
def execMacroReadback (die core quarter mac col : Nat) (r : EccResult) (s : State) : Out :=
  let q := coreId die core * 4 + quarter
  let busy := s.mxOps.any (fun o => o.holds && o.macros.contains mac && (match s.group o.gid with
    | some g => g.quarterId = q && !g.saved
    | none => false))
  if 2 ≤ die ∨ 96 ≤ core ∨ 4 ≤ quarter ∨ 8 ≤ mac ∨ 128 ≤ col ∨ busy then .next s
  else
    match r with
    | .clean => .next s
    | .corrected => .next (s.updDie die (fun d => { d with corrections := d.corrections + 1 }))
    | .uncorrectable kb =>
      if 4 ≤ kb then .next s
      else
        let m := if rd .none s.tags (q * 8 + mac) = .bf16hi then mac - 1 else mac
        .next { s with invs := wr false s.invs (expKey q m col kb) true }

/-- PATROL_SCRUB: one line of HBM. -/
def execPatrolScrub (pa : Nat) (r : EccResult) (s : State) : Out :=
  if !(isHbm pa) then .next s
  else
    match r with
    | .clean => .next s
    | .corrected => .next (s.updDie (dieOfPa pa) (fun d => { d with corrections := d.corrections + 1 }))
    | .uncorrectable _ => .next { s with poison := if s.poisoned pa then s.poison else s.poison ++ [pa / 64] }

end Sys2Proof.Machine
end

