-- ==== Sys2Proof/Machine/MemLane.lean ====
section
/-!
DEFINITION. Lane memory instructions at issue: 13 R303-R306, R311; 02 R56; 12 R301. What follows issue is in Pipeline.lean.
-/
namespace Sys2Proof.Machine

/-- Whether an access to the ridge window traps RIDGEGONE: the group is detached, or the named member has departed as this
device knows (12 R301). -/
def State.ridgeGone (s : State) (g : Group) (a : VAddr) : Bool :=
  ridgeBase ≤ a.toNat &&
    (g.detached ||
      match s.team g.tid with
      | some t => match look t.others ((a.toNat - ridgeBase) / 2 ^ 24) with
        | some .departed | some .acked => true
        | _ => false
      | none => false)

/-- Sources of a replayed instruction that are its own destination are read as they stand (13 R315; log 21). -/
def Group.openDest (g : Group) (d : Dest) (u : LaneMask) : Group :=
  g.overLanes u (fun g l => if g.destState d l = .empty then g.setDest d l .full else g)

/-- The trap of an instruction whose addresses fail a check in some lanes: the lowest such lane's address. -/
def Issue.addrTrap (x : Issue) (cause : Cause) (bad : LaneMask) (addr : Nat → VAddr) : TrapRec :=
  { x.trapRec cause 0 bad with addr := (addr (lowLane bad)).setWidth 57 }

/-- Issue of a memory instruction (13 R305): `size` bytes a lane; `cas` says that DST is a source too. -/
def State.memLane (s : State) (w : Lane) (size : Nat) (cas : Bool) (what : Dest → BitVec 64 → BitVec 64 → AccWhat) : Out :=
  match s.issuer with
  | none => .fault .noIssuer
  | some x =>
    let m := x.active w.gp w.neg
    let u := m &&& ~~~(x.en.doneOf x.en.pos)
    let d := x.g.destOf x.en.wbase w.dst
    if x.commitWait then .next s
    else if u = 0 then .next (x.done s x.g)
    else
      let y : Issue := if x.en.doneIx = x.en.pos then { x with g := x.g.openDest d u } else x
      match y.g.testSrc y.en.wbase m w.sa w.epa 0 with
      | .block => .next s
      | .trap t => .next (s.trapPrecise x.gid x.e (x.trapRec .emptyRead 0 t))
      | .full =>
        match s.fetch y w.imm ⟨w.sb, w.epb, m⟩ ⟨w.sc, w.epc, m⟩ ⟨if cas then w.dst else .zero, false, m⟩ with
        | .hold => .next s
        | .trap t => .next (s.trapPrecise x.gid x.e (x.trapRec .emptyRead 0 t))
        | .ok off data cmp g _ =>
          let addr (l : Nat) : VAddr := g.uniform w.sa + (off l).signExtend 64 + w.imm.signExtend 64
          let bad := maskOf (fun l => inMask u l && (addr l).toNat % size != 0)
          let gone := maskOf (fun l => inMask u l && s.ridgeGone g (addr l))
          if bad ≠ 0 then .next (s.trapPrecise x.gid x.e (x.addrTrap .align bad addr))
          else if gone ≠ 0 then .next (s.trapPrecise x.gid x.e (x.addrTrap .ridgeGone gone addr))
          else if g.count .vm = 63 ∨ g.pendingIn d u then .next s
          else
            let op := s.nextId
            let g := (g.issueOp op .vm x.e x.en.pos u).overLanes u (fun g l => g.setDest d l .pending)
            let acc (l : Nat) : LaneAcc :=
              { op := op, stream := .lane, entry := x.e, index := x.en.pos, pc := x.en.pc, lane := l, po := x.en.mask, fence := 0,
                addr := addr l, size := size, kind := (Kind.ofXop w.xop).getD .weak,
                scope := (Scope.ofCode w.mod).getD .split, nt := w.xop.getLsbD 3,
                what := what d ((data l).setWidth 64) ((cmp l).setWidth 64), stage := .issued, place := .cached 0, key := 0,
                home := 0, efmt := 0, gap := 1, record := none, faultCause := .xlate, faultSub := 0, faultLevel := 0,
                faultAddr := 0 }
            .next { x.done s { g with accs := g.accs ++ (maskLanes u).map acc } with nextId := s.nextId + 1 }

/-- Access size of LD and ST (13 R304 Table 2). -/
def memSize (f : Fmt) : Nat :=
  match f with
  | .s8 | .n8 => 1
  | .s16 | .n16 | .f16 | .bf16 => 2
  | _ => 4

/-- LD (R305, R307, R309). -/
def execLd (w : Lane) (s : State) : Out := s.memLane w (memSize w.fmt) false (fun d _ _ => .load w.fmt d)
/-- ST (R305, R307, R310). -/
def execSt (w : Lane) (s : State) : Out := s.memLane w (memSize w.fmt) false (fun _ x _ => .store x w.fmt)

/-- ATOM and RED (R311): the old word goes to the destination of an ATOM. -/
def State.atomLane (s : State) (w : Lane) (ret : Bool) (fn : AtomFn) : Out :=
  s.memLane w 4 (fn = .cas) (fun d x c => .rmw fn x c ret d)

def addFn (f : Fmt) : AtomFn :=
  match f with
  | .f32 => .addF32
  | .bf16x2 => .addBf16x2
  | _ => .add32
def minFn (f : Fmt) : AtomFn :=
  match f with
  | .f32 => .minF
  | .s32 => .minS
  | _ => .minN
def maxFn (f : Fmt) : AtomFn :=
  match f with
  | .f32 => .maxF
  | .s32 => .maxS
  | _ => .maxN

def execAtomAdd (w : Lane) (s : State) : Out := s.atomLane w true (addFn w.fmt)
def execAtomMin (w : Lane) (s : State) : Out := s.atomLane w true (minFn w.fmt)
def execAtomMax (w : Lane) (s : State) : Out := s.atomLane w true (maxFn w.fmt)
def execAtomAnd (w : Lane) (s : State) : Out := s.atomLane w true .and
def execAtomOr (w : Lane) (s : State) : Out := s.atomLane w true .or
def execAtomXor (w : Lane) (s : State) : Out := s.atomLane w true .xor
def execAtomXchg (w : Lane) (s : State) : Out := s.atomLane w true .xchg
def execAtomCas (w : Lane) (s : State) : Out := s.atomLane w true .cas
def execRedAdd (w : Lane) (s : State) : Out := s.atomLane w false (addFn w.fmt)
def execRedMin (w : Lane) (s : State) : Out := s.atomLane w false (minFn w.fmt)
def execRedMax (w : Lane) (s : State) : Out := s.atomLane w false (maxFn w.fmt)
def execRedAnd (w : Lane) (s : State) : Out := s.atomLane w false .and
def execRedOr (w : Lane) (s : State) : Out := s.atomLane w false .or
def execRedXor (w : Lane) (s : State) : Out := s.atomLane w false .xor

end Sys2Proof.Machine
end

