-- ==== Sys2Proof/Machine/Dispatch.lean ====
section
/-!
DEFINITION. The meaning of each instruction: one arm per constructor, each a direct call of its meaning.
-/
namespace Sys2Proof.Machine

def exec (i : Instr) (s : State) : Host.Outcome State Fault Refusal :=
  match i with
  | .add w => Sys2Proof.Machine.execAdd w s
  | .sub w => Sys2Proof.Machine.execSub w s
  | .mul w => Sys2Proof.Machine.execMul w s
  | .mulhi w => Sys2Proof.Machine.execMulhi w s
  | .mad w => Sys2Proof.Machine.execMad w s
  | .div w => Sys2Proof.Machine.execDiv w s
  | .rem w => Sys2Proof.Machine.execRem w s
  | .abs w => Sys2Proof.Machine.execAbs w s
  | .neg w => Sys2Proof.Machine.execNeg w s
  | .min w => Sys2Proof.Machine.execMin w s
  | .max w => Sys2Proof.Machine.execMax w s
  | .clamp w => Sys2Proof.Machine.execClamp w s
  | .and w => Sys2Proof.Machine.execAnd w s
  | .or w => Sys2Proof.Machine.execOr w s
  | .xor w => Sys2Proof.Machine.execXor w s
  | .not w => Sys2Proof.Machine.execNot w s
  | .andn w => Sys2Proof.Machine.execAndn w s
  | .shl w => Sys2Proof.Machine.execShl w s
  | .shr w => Sys2Proof.Machine.execShr w s
  | .rot w => Sys2Proof.Machine.execRot w s
  | .bfx w => Sys2Proof.Machine.execBfx w s
  | .bfi w => Sys2Proof.Machine.execBfi w s
  | .popc w => Sys2Proof.Machine.execPopc w s
  | .clz w => Sys2Proof.Machine.execClz w s
  | .ctz w => Sys2Proof.Machine.execCtz w s
  | .brev w => Sys2Proof.Machine.execBrev w s
  | .bperm w => Sys2Proof.Machine.execBperm w s
  | .cmp w => Sys2Proof.Machine.execCmp w s
  | .pand w => Sys2Proof.Machine.execPand w s
  | .por w => Sys2Proof.Machine.execPor w s
  | .pxor w => Sys2Proof.Machine.execPxor w s
  | .pnot w => Sys2Proof.Machine.execPnot w s
  | .sel w => Sys2Proof.Machine.execSel w s
  | .pget w => Sys2Proof.Machine.execPget w s
  | .pset w => Sys2Proof.Machine.execPset w s
  | .addFloat w => Sys2Proof.Machine.execAddFloat w s
  | .subFloat w => Sys2Proof.Machine.execSubFloat w s
  | .mulFloat w => Sys2Proof.Machine.execMulFloat w s
  | .fma w => Sys2Proof.Machine.execFma w s
  | .divFloat w => Sys2Proof.Machine.execDivFloat w s
  | .sqrt w => Sys2Proof.Machine.execSqrt w s
  | .rsqrt w => Sys2Proof.Machine.execRsqrt w s
  | .rcp w => Sys2Proof.Machine.execRcp w s
  | .minFloat w => Sys2Proof.Machine.execMinFloat w s
  | .maxFloat w => Sys2Proof.Machine.execMaxFloat w s
  | .absFloat w => Sys2Proof.Machine.execAbsFloat w s
  | .negFloat w => Sys2Proof.Machine.execNegFloat w s
  | .cmpFloat w => Sys2Proof.Machine.execCmpFloat w s
  | .classFloat w => Sys2Proof.Machine.execClassFloat w s
  | .rint w => Sys2Proof.Machine.execRint w s
  | .copysign w => Sys2Proof.Machine.execCopysign w s
  | .exp2 w => Sys2Proof.Machine.execExp2 w s
  | .log2 w => Sys2Proof.Machine.execLog2 w s
  | .sin w => Sys2Proof.Machine.execSin w s
  | .cos w => Sys2Proof.Machine.execCos w s
  | .tanh w => Sys2Proof.Machine.execTanh w s
  | .sigmoid w => Sys2Proof.Machine.execSigmoid w s
  | .gelu w => Sys2Proof.Machine.execGelu w s
  | .dot2 w => Sys2Proof.Machine.execDot2 w s
  | .clampFloat w => Sys2Proof.Machine.execClampFloat w s
  | .cvt w => Sys2Proof.Machine.execCvt w s
  | .mov w => Sys2Proof.Machine.execMov w s
  | .packB32 w => Sys2Proof.Machine.execPackB32 w s
  | .packFloat w => Sys2Proof.Machine.execPackFloat w s
  | .unpackB32 w => Sys2Proof.Machine.execUnpackB32 w s
  | .unpackFloat w => Sys2Proof.Machine.execUnpackFloat w s
  | .shfl w => Sys2Proof.Machine.execShfl w s
  | .vballotS w => Sys2Proof.Machine.execVballotS w s
  | .vballotV w => Sys2Proof.Machine.execVballotV w s
  | .vmatch w => Sys2Proof.Machine.execVmatch w s
  | .vreduce w => Sys2Proof.Machine.execVreduce w s
  | .vscan w => Sys2Proof.Machine.execVscan w s
  | .vtosB32 w => Sys2Proof.Machine.execVtosB32 w s
  | .vtosN32 w => Sys2Proof.Machine.execVtosN32 w s
  | .vtosS32 w => Sys2Proof.Machine.execVtosS32 w s
  | .stov w => Sys2Proof.Machine.execStov w s
  | .empty w => Sys2Proof.Machine.execEmpty w s
  | .fill w => Sys2Proof.Machine.execFill w s
  | .srd w => Sys2Proof.Machine.execSrd w s
  | .swr w => Sys2Proof.Machine.execSwr w s
  | .ld w => Sys2Proof.Machine.execLd w s
  | .st w => Sys2Proof.Machine.execSt w s
  | .atomAdd w => Sys2Proof.Machine.execAtomAdd w s
  | .atomMin w => Sys2Proof.Machine.execAtomMin w s
  | .atomMax w => Sys2Proof.Machine.execAtomMax w s
  | .atomAnd w => Sys2Proof.Machine.execAtomAnd w s
  | .atomOr w => Sys2Proof.Machine.execAtomOr w s
  | .atomXor w => Sys2Proof.Machine.execAtomXor w s
  | .atomXchg w => Sys2Proof.Machine.execAtomXchg w s
  | .atomCas w => Sys2Proof.Machine.execAtomCas w s
  | .redAdd w => Sys2Proof.Machine.execRedAdd w s
  | .redMin w => Sys2Proof.Machine.execRedMin w s
  | .redMax w => Sys2Proof.Machine.execRedMax w s
  | .redAnd w => Sys2Proof.Machine.execRedAnd w s
  | .redOr w => Sys2Proof.Machine.execRedOr w s
  | .redXor w => Sys2Proof.Machine.execRedXor w s
  | .bra j => Sys2Proof.Machine.execBra j s
  | .jmpi j => Sys2Proof.Machine.execJmpi j s
  | .call w => Sys2Proof.Machine.execCall w s
  | .calli w => Sys2Proof.Machine.execCalli w s
  | .ret w => Sys2Proof.Machine.execRet w s
  | .brk w => Sys2Proof.Machine.execBrk w s
  | .exit w => Sys2Proof.Machine.execExit w s
  | .trap w => Sys2Proof.Machine.execTrap w s
  | .bkpt w => Sys2Proof.Machine.execBkpt w s
  | .nop w => Sys2Proof.Machine.execNop w s
  | .mldb w => Sys2Proof.Machine.execMldb w s
  | .mma w => Sys2Proof.Machine.execMma w s
  | .mdrn w => Sys2Proof.Machine.execMdrn w s
  | .mzero w => Sys2Proof.Machine.execMzero w s
  | .mdrawCl w => Sys2Proof.Machine.execMdrawCl w s
  | .mdrawTok w => Sys2Proof.Machine.execMdrawTok w s
  | .trnew w => Sys2Proof.Machine.execTrnew w s
  | .tradd w => Sys2Proof.Machine.execTradd w s
  | .trfork w => Sys2Proof.Machine.execTrfork w s
  | .trpruneBr w => Sys2Proof.Machine.execTrpruneBr w s
  | .trpruneSub w => Sys2Proof.Machine.execTrpruneSub w s
  | .trcommit w => Sys2Proof.Machine.execTrcommit w s
  | .trinfo w => Sys2Proof.Machine.execTrinfo w s
  | .trtag w => Sys2Proof.Machine.execTrtag w s
  | .amask w => Sys2Proof.Machine.execAmask w s
  | .gmask w => Sys2Proof.Machine.execGmask w s
  | .kvslotRd w => Sys2Proof.Machine.execKvslotRd w s
  | .kvslotOwn w => Sys2Proof.Machine.execKvslotOwn w s
  | .fence w => Sys2Proof.Machine.execFence w s
  | .waitc w => Sys2Proof.Machine.execWaitc w s
  | .barSync w => Sys2Proof.Machine.execBarSync w s
  | .barArrive w => Sys2Proof.Machine.execBarArrive w s
  | .barWait w => Sys2Proof.Machine.execBarWait w s
  | .ridgeDetach w => Sys2Proof.Machine.execRidgeDetach w s
  | .accessAdd d a b => Sys2Proof.Machine.execAccessAdd d a b s
  | .accessSub d a b => Sys2Proof.Machine.execAccessSub d a b s
  | .accessMul d a b => Sys2Proof.Machine.execAccessMul d a b s
  | .accessMulhi d a b => Sys2Proof.Machine.execAccessMulhi d a b s
  | .accessAnd d a b => Sys2Proof.Machine.execAccessAnd d a b s
  | .accessOr d a b => Sys2Proof.Machine.execAccessOr d a b s
  | .accessXor d a b => Sys2Proof.Machine.execAccessXor d a b s
  | .accessAndn d a b => Sys2Proof.Machine.execAccessAndn d a b s
  | .accessShl d a b => Sys2Proof.Machine.execAccessShl d a b s
  | .accessShr d a b => Sys2Proof.Machine.execAccessShr d a b s
  | .sar d a b => Sys2Proof.Machine.execSar d a b s
  | .accessRot d a b => Sys2Proof.Machine.execAccessRot d a b s
  | .accessMin d a b => Sys2Proof.Machine.execAccessMin d a b s
  | .accessMax d a b => Sys2Proof.Machine.execAccessMax d a b s
  | .minu d a b => Sys2Proof.Machine.execMinu d a b s
  | .maxu d a b => Sys2Proof.Machine.execMaxu d a b s
  | .accessDiv d a b => Sys2Proof.Machine.execAccessDiv d a b s
  | .accessRem d a b => Sys2Proof.Machine.execAccessRem d a b s
  | .divu d a b => Sys2Proof.Machine.execDivu d a b s
  | .remu d a b => Sys2Proof.Machine.execRemu d a b s
  | .addi d a ix => Sys2Proof.Machine.execAddi d a ix s
  | .andi d a ix => Sys2Proof.Machine.execAndi d a ix s
  | .ori d a ix => Sys2Proof.Machine.execOri d a ix s
  | .xori d a ix => Sys2Proof.Machine.execXori d a ix s
  | .shli d a ix => Sys2Proof.Machine.execShli d a ix s
  | .shri d a ix => Sys2Proof.Machine.execShri d a ix s
  | .sari d a ix => Sys2Proof.Machine.execSari d a ix s
  | .movi d ix => Sys2Proof.Machine.execMovi d ix s
  | .exti d ix => Sys2Proof.Machine.execExti d ix s
  | .accessCmp c d a b => Sys2Proof.Machine.execAccessCmp c d a b s
  | .kand d a b => Sys2Proof.Machine.execKand d a b s
  | .kor d a b => Sys2Proof.Machine.execKor d a b s
  | .kxor d a b => Sys2Proof.Machine.execKxor d a b s
  | .kandn d a b => Sys2Proof.Machine.execKandn d a b s
  | .ld64 d a ix => Sys2Proof.Machine.execLd64 d a ix s
  | .ld32 d a ix => Sys2Proof.Machine.execLd32 d a ix s
  | .st64 d a ix => Sys2Proof.Machine.execSt64 d a ix s
  | .st32 d a ix => Sys2Proof.Machine.execSt32 d a ix s
  | .lds d a k sc ix => Sys2Proof.Machine.execLds d a k sc ix s
  | .sts d a k sc ix => Sys2Proof.Machine.execSts d a k sc ix s
  | .aadd d a k sc ix => Sys2Proof.Machine.execAadd d a k sc ix s
  | .axchg d a k sc ix => Sys2Proof.Machine.execAxchg d a k sc ix s
  | .br k n o => Sys2Proof.Machine.execBr k n o s
  | .calla k n o => Sys2Proof.Machine.execCalla k n o s
  | .jr a => Sys2Proof.Machine.execJr a s
  | .jrl a => Sys2Proof.Machine.execJrl a s
  | .halt => Sys2Proof.Machine.execHalt s
  | .agset z q x a => Sys2Proof.Machine.execAgset z q x a s
  | .aggo t x => Sys2Proof.Machine.execAggo t x s
  | .aghalt x => Sys2Proof.Machine.execAghalt x s
  | .qputRegister q a => Sys2Proof.Machine.execQputRegister q a s
  | .qputMemory q a => Sys2Proof.Machine.execQputMemory q a s
  | .cpnd t a => Sys2Proof.Machine.execCpnd t a s
  | .collAllReduce t a bf16 => Sys2Proof.Machine.execCollAllReduce t a bf16 s
  | .collReduceScatter t a bf16 => Sys2Proof.Machine.execCollReduceScatter t a bf16 s
  | .collAllGather t a bf16 => Sys2Proof.Machine.execCollAllGather t a bf16 s
  | .txtok t priv a => Sys2Proof.Machine.execTxtok t priv a s
  | .txdet t a => Sys2Proof.Machine.execTxdet t a s
  | .txload t a => Sys2Proof.Machine.execTxload t a s
  | .dload t slot a => Sys2Proof.Machine.execDload t slot a s
  | .mbpost t a => Sys2Proof.Machine.execMbpost t a s
  | .accessFence k sc => Sys2Proof.Machine.execAccessFence k sc s
  | .accessWaitc n c => Sys2Proof.Machine.execAccessWaitc n c s
  | .accessBarSync k a => Sys2Proof.Machine.execAccessBarSync k a s
  | .accessBarArrive k a => Sys2Proof.Machine.execAccessBarArrive k a s
  | .accessBarWait k => Sys2Proof.Machine.execAccessBarWait k s
  | .accessSrd d n => Sys2Proof.Machine.execAccessSrd d n s
  | .accessSwr d n => Sys2Proof.Machine.execAccessSwr d n s
  | .sete d => Sys2Proof.Machine.execSete d s
  | .setf d => Sys2Proof.Machine.execSetf d s
  | .accessNop => Sys2Proof.Machine.execAccessNop s
  | .accessTrap c => Sys2Proof.Machine.execAccessTrap c s
  | .accessBkpt c => Sys2Proof.Machine.execAccessBkpt c s
  | .drainEnd => Sys2Proof.Machine.execDrainEnd s
  | .drainAdd d a b => Sys2Proof.Machine.execDrainAdd d a b s
  | .drainMul d a b => Sys2Proof.Machine.execDrainMul d a b s
  | .drainMad d a b => Sys2Proof.Machine.execDrainMad d a b s
  | .drainMax d a b => Sys2Proof.Machine.execDrainMax d a b s
  | .drainMin d a b => Sys2Proof.Machine.execDrainMin d a b s
  | .drainClamp d a b => Sys2Proof.Machine.execDrainClamp d a b s
  | .drainRelu d a => Sys2Proof.Machine.execDrainRelu d a s
  | .drainFn d a f => Sys2Proof.Machine.execDrainFn d a f s
  | .drainSel d a b f => Sys2Proof.Machine.execDrainSel d a b f s
  | .drainConst d f => Sys2Proof.Machine.execDrainConst d f s
  | .drainMov d a => Sys2Proof.Machine.execDrainMov d a s
  | .drainStore sc a f => Sys2Proof.Machine.execDrainStore sc a f s
  | .drainStoreb sc a f => Sys2Proof.Machine.execDrainStoreb sc a f s
  | .doorbell q widx => Sys2Proof.Machine.execDoorbell q widx s
  | .packetNop q => Sys2Proof.Machine.execPacketNop q s
  | .dispatch q => Sys2Proof.Machine.execDispatch q s
  | .prologue q => Sys2Proof.Machine.execPrologue q s
  | .prologuePass q => Sys2Proof.Machine.execProloguePass q s
  | .cmaintWritebackInvalidate q => Sys2Proof.Machine.execCmaintWritebackInvalidate q s
  | .cmaintWriteback q => Sys2Proof.Machine.execCmaintWriteback q s
  | .cmaintTranslation q => Sys2Proof.Machine.execCmaintTranslation q s
  | .cmaintFetchInvalidate q => Sys2Proof.Machine.execCmaintFetchInvalidate q s
  | .cmaintFlipToHost q => Sys2Proof.Machine.execCmaintFlipToHost q s
  | .cmaintFlipToDevice q => Sys2Proof.Machine.execCmaintFlipToDevice q s
  | .cmaintUnpin q => Sys2Proof.Machine.execCmaintUnpin q s
  | .waitev q => Sys2Proof.Machine.execWaitev q s
  | .waitevReread q => Sys2Proof.Machine.execWaitevReread q s
  | .signalWrite q => Sys2Proof.Machine.execSignalWrite q s
  | .signalAdd q => Sys2Proof.Machine.execSignalAdd q s
  | .signalRelease q => Sys2Proof.Machine.execSignalRelease q s
  | .teamPlacement launch die cores => Sys2Proof.Machine.execTeamPlacement launch die cores s
  | .opChangeSettled die => Sys2Proof.Machine.execOpChangeSettled die s
  | .groupRetire gid => Sys2Proof.Machine.execGroupRetire gid s
  | .completionRecordWrite launch => Sys2Proof.Machine.execCompletionRecordWrite launch s
  | .ridgeLaunchParameters p => Sys2Proof.Machine.execRidgeLaunchParameters p s
  | .ridgeMemberTotals launch member t => Sys2Proof.Machine.execRidgeMemberTotals launch member t s
  | .ridgeDetachNotice launch pos member => Sys2Proof.Machine.execRidgeDetachNotice launch pos member s
  | .ridgeDeparture launch pos member => Sys2Proof.Machine.execRidgeDeparture launch pos member s
  | .ridgeDepartureAck launch pos member => Sys2Proof.Machine.execRidgeDepartureAck launch pos member s
  | .runEntry gid entry => Sys2Proof.Machine.execRunEntry gid entry s
  | .runCompletion gid entry => Sys2Proof.Machine.execRunCompletion gid entry s
  | .awaitSatisfied gid entry => Sys2Proof.Machine.execAwaitSatisfied gid entry s
  | .joinFill gid slot => Sys2Proof.Machine.execJoinFill gid slot s
  | .windowSlide gid entry => Sys2Proof.Machine.execWindowSlide gid entry s
  | .slideFillsLanded gid entry => Sys2Proof.Machine.execSlideFillsLanded gid entry s
  | .loadCompletion gid op lane => Sys2Proof.Machine.execLoadCompletion gid op lane s
  | .treeOperationArrival op => Sys2Proof.Machine.execTreeOperationArrival op s
  | .treeReply op => Sys2Proof.Machine.execTreeReply op s
  | .cancelBroadcast b die core => Sys2Proof.Machine.execCancelBroadcast b die core s
  | .cancelAck b die core => Sys2Proof.Machine.execCancelAck b die core s
  | .releaseBroadcast b die core => Sys2Proof.Machine.execReleaseBroadcast b die core s
  | .releaseAck b die core => Sys2Proof.Machine.execReleaseAck b die core s
  | .compactionMove die slot => Sys2Proof.Machine.execCompactionMove die slot s
  | .compactionSwitch die slot => Sys2Proof.Machine.execCompactionSwitch die slot s
  | .wcAgeDrain die core line => Sys2Proof.Machine.execWcAgeDrain die core line s
  | .wcDrainArrival src target key bytes mask crc => Sys2Proof.Machine.execWcDrainArrival src target key bytes mask crc s
  | .remoteRequest r => Sys2Proof.Machine.execRemoteRequest r s
  | .remoteResponse id status bytes => Sys2Proof.Machine.execRemoteResponse id status bytes s
  | .flitReceive port ch ok => Sys2Proof.Machine.execFlitReceive port ch ok s
  | .flowStop port ch => Sys2Proof.Machine.execFlowStop port ch s
  | .flowGo port ch => Sys2Proof.Machine.execFlowGo port ch s
  | .portDown port => Sys2Proof.Machine.execPortDown port s
  | .cxlMemRead fn addr => Sys2Proof.Machine.execCxlMemRead fn addr s
  | .cxlMemWrite fn addr bytes => Sys2Proof.Machine.execCxlMemWrite fn addr bytes s
  | .biasLineAction page => Sys2Proof.Machine.execBiasLineAction page s
  | .backInvalidateResponse page data => Sys2Proof.Machine.execBackInvalidateResponse page data s
  | .faultRecordPush => Sys2Proof.Machine.execFaultRecordPush s
  | .faultRecordTake => Sys2Proof.Machine.execFaultRecordTake s
  | .faultServiceResume rseq => Sys2Proof.Machine.execFaultServiceResume rseq s
  | .faultDecline rseq => Sys2Proof.Machine.execFaultDecline rseq s
  | .driverAnswer a => Sys2Proof.Machine.execDriverAnswer a s
  | .trapNotice => Sys2Proof.Machine.execTrapNotice s
  | .handlerResume at' => Sys2Proof.Machine.execHandlerResume at' s
  | .handlerResumeAt at' pc => Sys2Proof.Machine.execHandlerResumeAt at' pc s
  | .handlerWriteState at' w => Sys2Proof.Machine.execHandlerWriteState at' w s
  | .handlerKillLanes at' => Sys2Proof.Machine.execHandlerKillLanes at' s
  | .handlerKillGroup at' => Sys2Proof.Machine.execHandlerKillGroup at' s
  | .hangDetected gid => Sys2Proof.Machine.execHangDetected gid s
  | .preemptRequest sel => Sys2Proof.Machine.execPreemptRequest sel s
  | .teamSave tid => Sys2Proof.Machine.execTeamSave tid s
  | .teamResume tid die cores => Sys2Proof.Machine.execTeamResume tid die cores s
  | .gstopWrite gid bit => Sys2Proof.Machine.execGstopWrite gid bit s
  | .queueCreate q c => Sys2Proof.Machine.execQueueCreate q c s
  | .queueRestart q => Sys2Proof.Machine.execQueueRestart q s
  | .permittedSetWrite die set => Sys2Proof.Machine.execPermittedSetWrite die set s
  | .tenantPolicyLoad part p ecdsa lms => Sys2Proof.Machine.execTenantPolicyLoad part p ecdsa lms s
  | .firmwareLoad version ecdsa lms => Sys2Proof.Machine.execFirmwareLoad version ecdsa lms s
  | .keyDelivery part => Sys2Proof.Machine.execKeyDelivery part s
  | .keyRevoke part => Sys2Proof.Machine.execKeyRevoke part s
  | .hlogWrite part v => Sys2Proof.Machine.execHlogWrite part v s
  | .plimWrite die watts => Sys2Proof.Machine.execPlimWrite die watts s
  | .perfSelectWrite part die core ix sel => Sys2Proof.Machine.execPerfSelectWrite part die core ix sel s
  | .mailboxRegisterWrite fn r => Sys2Proof.Machine.execMailboxRegisterWrite fn r s
  | .powerStatePs0 => Sys2Proof.Machine.execPowerStatePs0 s
  | .powerStatePs1 => Sys2Proof.Machine.execPowerStatePs1 s
  | .powerStatePs2 => Sys2Proof.Machine.execPowerStatePs2 s
  | .powerStatePs3 => Sys2Proof.Machine.execPowerStatePs3 s
  | .spdmRequest fn r => Sys2Proof.Machine.execSpdmRequest fn r s
  | .lockInterface v => Sys2Proof.Machine.execLockInterface v s
  | .startInterface v => Sys2Proof.Machine.execStartInterface v s
  | .stopInterface v => Sys2Proof.Machine.execStopInterface v s
  | .ideFailure v => Sys2Proof.Machine.execIdeFailure v s
  | .flr v => Sys2Proof.Machine.execFlr v s
  | .perstRelease => Sys2Proof.Machine.execPerstRelease s
  | .summitComplete ok ports => Sys2Proof.Machine.execSummitComplete ok ports s
  | .powerAlarmRaise die power temp => Sys2Proof.Machine.execPowerAlarmRaise die power temp s
  | .powerAlarmClear die power temp => Sys2Proof.Machine.execPowerAlarmClear die power temp s
  | .thermtrip temp => Sys2Proof.Machine.execThermtrip temp s
  | .macroReadback die core quarter mac col r => Sys2Proof.Machine.execMacroReadback die core quarter mac col r s
  | .patrolScrub pa r => Sys2Proof.Machine.execPatrolScrub pa r s
  | .matrixOpStart op => Sys2Proof.Machine.execMatrixOpStart op s
  | .matrixOpComplete op => Sys2Proof.Machine.execMatrixOpComplete op s
  | .drainStart op => Sys2Proof.Machine.execDrainStart op s
  | .linkedOpRelease op => Sys2Proof.Machine.execLinkedOpRelease op s
  | .barrierCompletionDelivery tid k core => Sys2Proof.Machine.execBarrierCompletionDelivery tid k core s
  | .ageEntry gid stream => Sys2Proof.Machine.execAgeEntry gid stream s
  | .ageStreamEnd gid stream => Sys2Proof.Machine.execAgeStreamEnd gid stream s
  | .cpndComplete op => Sys2Proof.Machine.execCpndComplete op s
  | .collMatch op peers => Sys2Proof.Machine.execCollMatch op peers s
  | .collComplete op => Sys2Proof.Machine.execCollComplete op s
  | .textCommandComplete op => Sys2Proof.Machine.execTextCommandComplete op s
  | .txloadReplacement op => Sys2Proof.Machine.execTxloadReplacement op s
  | .dloadComplete op => Sys2Proof.Machine.execDloadComplete op s
  | .mailboxDelivery die => Sys2Proof.Machine.execMailboxDelivery die s
  | .accessAccepted gid op lane => Sys2Proof.Machine.execAccessAccepted gid op lane s
  | .storeSettled gid op lane => Sys2Proof.Machine.execStoreSettled gid op lane s
  | .accessPerformed gid op lane => Sys2Proof.Machine.execAccessPerformed gid op lane s
  | .cmaintCompletion q => Sys2Proof.Machine.execCmaintCompletion q s
  | .perstAssertion => Sys2Proof.Machine.execPerstAssertion s
  | .ridgePlacementReply launch pos member ok => Sys2Proof.Machine.execRidgePlacementReply launch pos member ok s
  | .ridgePreemptNotice launch pos member resumed => Sys2Proof.Machine.execRidgePreemptNotice launch pos member resumed s

end Sys2Proof.Machine
end

