-- ==== Sys2Proof/Machine/Schedule.lean ====
section
/-!
DEFINITION. Which agent moves next: the agenda's first, else the agent that a free value names (01 R31, R45-R47; 06 R165;
14 R330; log 2).
-/
namespace Sys2Proof.Machine

/-- What an agent's move leads to. -/
def State.afterMove (s : State) (a : Agent) : State :=
  match s.moveOf a with
  | .done s' => s'
  | .run i s' =>
    match exec i s' with
    | .next t => t
    | .fault _ | .refused _ => s'

/-- Whether an agent's move changes anything but the focus: otherwise the agent waits. -/
def State.canAct (s : State) (a : Agent) : Bool :=
  decide ({ s.afterMove a with focus := s.focus } ≠ s)

/-! ### Issue in a quarter (01 R45-R47) -/

/-- The 4-lane slices that a mask touches (R47). -/
def sliceSet (m : LaneMask) : List Nat := ((maskLanes m).map (· / 4)).dedup

/-- The splits of a group that can issue, oldest first (R45, R47). -/
def State.readySplits (s : State) (gid : Nat) : List (Nat × Entry) :=
  match s.group gid with
  | none => []
  | some g =>
    let ok := g.table.filter (fun p => !p.2.join && p.2.st == .ready && p.2.inRun && s.canAct (.lane gid p.1))
    ok.mergeSort (fun a b => a.2.age ≤ b.2.age)

/-- The priority of a group: its launching queue's (R46). -/
def State.prioOf (s : State) (gid : Nat) : Nat := ((s.where' gid).map (fun x => x.2.2.prio)).getD 0

/-- Whether group a goes before group b (R46). -/
def State.groupBefore (s : State) (a b : Nat × Group) : Bool :=
  let late (x : Nat × Group) : Bool := 64 ≤ x.2.waited
  if late a || late b then
    late a && (!late b || b.2.waited < a.2.waited || (b.2.waited = a.2.waited && a.2.slot ≤ b.2.slot))
  else
    let pa := s.prioOf a.1
    let pb := s.prioOf b.1
    pb < pa || (pa = pb && (a.2.born < b.2.born || (a.2.born = b.2.born && a.2.slot ≤ b.2.slot)))

/-- The opcode of the next instruction of a split. -/
def Entry.nextOp (en : Entry) : Nat := (LaneWord.op (en.run.getD en.runpos 0)).toNat

/-- The second split of a dual issue (R47): the oldest other ready split with disjoint slices, unless both instructions lie in
0xA0-0xFD. -/
def secondOf (first : Nat × Entry) (l : List (Nat × Entry)) : Option Nat :=
  let own := sliceSet first.2.mask
  match l.find? (fun p => p.1 != first.1 && (sliceSet p.2.mask).all (fun x => !own.contains x)) with
  | none => none
  | some p =>
    let mem (x : Nat) : Bool := 0xA0 ≤ x && x ≤ 0xFD
    if mem first.2.nextOp && mem p.2.nextOp then none else some p.1

/-- One issue cycle of a quarter: the group chosen by R46, its oldest ready split, and the second split put on the agenda. -/
def State.issueQuarter (s : State) (q : Nat) : Option (Agent × State) :=
  let here := s.groups.filter (fun p => p.2.quarterId = q && !p.2.saved && !p.2.retired)
  let ready := here.filter (fun p => !(s.readySplits p.1).isEmpty)
  match ready.mergeSort (fun a b => s.groupBefore a b) with
  | [] => none
  | (gid, _) :: _ =>
    let age (p : Nat × Group) : Nat × Group :=
      if p.1 = gid then (p.1, { p.2 with waited := 0 })
      else if ready.any (fun r => r.1 = p.1) then (p.1, { p.2 with waited := p.2.waited + 1 })
      else p
    match s.readySplits gid with
    | [] => none
    | f :: r =>
      some (.lane gid f.1, { s with groups := s.groups.map age,
                                    agenda := match secondOf f (f :: r) with
                                      | some e => [.lane gid e]
                                      | none => [] })

/-- One access-issue cycle of a quarter: the group chosen by the rules of R46 among those whose next word can issue
(06 R165). -/
def State.issueAccess (s : State) (q : Nat) : Option (Agent × State) :=
  let here := s.groups.filter (fun p => p.2.quarterId = q && p.2.accessLive)
  let ready := here.filter (fun p => s.canAct (.access p.1))
  let late (p : Nat × Group) : Nat × Group := (p.1, { p.2 with waited := p.2.aWaited })
  match ready.mergeSort (fun a b => s.groupBefore (late a) (late b)) with
  | [] => none
  | (gid, _) :: _ =>
    let age (p : Nat × Group) : Nat × Group :=
      if p.1 = gid then (p.1, { p.2 with aWaited := 0 })
      else if ready.any (fun r => r.1 = p.1) then (p.1, { p.2 with aWaited := p.2.aWaited + 1 })
      else p
    some (.access gid, { s with groups := s.groups.map age })

/-- The next agent and the state in which it moves: the agenda's first, else the agent that `Config.move` names at this tick.
A lane or access agent so named stands for an issue cycle of its group's quarter, whose choice R46 and R47 make. -/
def State.choose (s : State) : Agent × State :=
  let s1 := { s with tick := s.tick + 1 }
  match s.agenda with
  | a :: r => (a, { s1 with agenda := r })
  | [] =>
    match Config.move s1.tick with
    | .lane gid _ =>
      match s1.group gid with
      | some g => (s1.issueQuarter g.quarterId).getD (.idle, s1)
      | none => (.idle, s1)
    | .access gid =>
      match s1.group gid with
      | some g => (s1.issueAccess g.quarterId).getD (.idle, s1)
      | none => (.idle, s1)
    | a => (a, s1)

end Sys2Proof.Machine
end

