-- ==== Sys2Proof/Machine/Step.lean ====
section
/-!
DEFINITION. One step of the device: the next agent moves (Schedule.lean); if its move is an instruction, the instruction's
meaning follows.
-/
namespace Sys2Proof.Machine

def step (s : State) : Host.Outcome State Fault Refusal :=
  match s.choose.2.moveOf s.choose.1 with
  | .done s' => .next s'
  | .run i s' => exec i s'

/-- The state with an instruction word where the next step fetches it, by the word's length: a drain word in a running drain,
an access word at a group's access PC, a lane word in the run of a group's split. Log 20 says how a program comes to run from
`State.reset`; this stands for that load. -/
def State.withFetchWord (s : State) (nbits w : Nat) : State :=
  if nbits ≤ 16 then s.placeDrainWord (BitVec.ofNat 16 w)
  else if nbits ≤ 32 then s.placeAccessWord (BitVec.ofNat 32 w)
  else s.placeLaneWord (BitVec.ofNat 96 w)

end Sys2Proof.Machine
end

