-- ==== Sys2Proof/Safety.lean ====
section
/-!
DEFINITION. What the claims are stated with: a sound memory, an instruction that stands ready to issue, the value tables of the
spec, and what an event's enabling holds.
-/
namespace Sys2Proof.Machine

/-- Addresses strictly rise, and no entry equals what an unlisted address reads as, 0 (log 4). -/
abbrev Memory.wf (m : List Host.Cell) : Prop := keysRise m = true ∧ ∀ c ∈ m, c.2 ≠ 0

/-- A step stops: no rule of the spec gives this model's device a stop, so no step of a run should. -/
abbrev stopped : Host.Outcome State Fault Refusal → Prop
  | .next _ => False
  | .fault _ => True
  | .refused _ => True

/-! ### Lane words that stand ready to issue (01 R35, 02 R60-R67) -/

/-- The word `w` issues in split `x`, with some lane active and its sources full: `a`, `b`, `c` are their values by lane and `g`
is the group after the queue pops (02 R67). -/
structure LaneReady (w : Lane) (s : State) (x : Issue) (a b c : Nat → Word32) (g : Group) : Prop where
  issuer : s.issuer = some x
  free : x.commitWait = false
  lanes : x.active w.gp w.neg ≠ 0
  fetched : s.fetchLane x w (x.active w.gp w.neg) = .ok a b c g none

/-- The same for a word whose operand fields are not read as lane operands. -/
structure BareReady (gp : BitVec 3) (neg : Bool) (s : State) (x : Issue) : Prop where
  issuer : s.issuer = some x
  free : x.commitWait = false
  lanes : x.active gp neg ≠ 0

/-- The lanes in which a word acts. -/
abbrev Issue.on (x : Issue) (w : Lane) : LaneMask := x.active w.gp w.neg
/-- Where its result goes. -/
abbrev Issue.dst (x : Issue) (w : Lane) : Dest := x.g.destOf x.en.wbase w.dst

/-- After an instruction that wrote r by lane and raised r's conditions: results and flags stand, the run position advances. -/
def Issue.wrote (x : Issue) (s : State) (w : Lane) (g : Group) (r : Nat → FRes) : State :=
  x.done s ((g.writeDst x.en.wbase w.dst (x.on w) (fun l => (r l).val)).raise (x.on w) (fun l => (r l).fl))

/-- After an instruction that wrote a predicate. -/
def Issue.wroteP (x : Issue) (s : State) (w : Lane) (g : Group) (r : Nat → Bool × BitVec 5) : State :=
  x.done s ((match w.dst with
    | .v n => g.putP n.toNat (x.on w) (maskOf (fun l => (r l).1))
    | _ => g).raise (x.on w) (fun l => (r l).2))

/-- After an instruction that wrote an S register. -/
def Issue.wroteS (x : Issue) (s : State) (w : Lane) (g : Group) (v : Word64) (fl : Nat → BitVec 5) : State :=
  x.done s ((match w.dst with
    | .s n => g.putS n.toNat v
    | _ => g).raise (x.on w) fl)

/-- No lane enables a condition that it raises (03 R93). -/
abbrev noTrap (g : Group) (m : LaneMask) (fl : Nat → BitVec 5) : Prop := (g.fpTrap m fl).1 = 0

/-! ### Value tables of 05 -/

/-- 05 R137: wrapped or saturated, then widened. -/
def intResult (w : Lane) (x : Int) : Word32 := widen (if w.mod = 1 then satInt w.fmt x else wrapInt w.fmt x)

/-- 05 Table 3, with R138. -/
def intArithmetic (w : Lane) : List (Instr × (Int → Int → Int → Int)) :=
  [(.add w, fun a b _ => a + b),
   (.sub w, fun a b _ => a - b),
   (.mul w, fun a b _ => a * b),
   (.mulhi w, fun a b _ => a * b / (2 ^ intWidth w.fmt : Nat)),
   (.mad w, fun a b c => a * b + c),
   (.div w, fun a b _ => if b = 0 then (if a < 0 then intMin w.fmt else intMax w.fmt) else a.tdiv b),
   (.rem w, fun a b _ => if b = 0 then a else a - b * a.tdiv b),
   (.abs w, fun a _ _ => if a < 0 then -a else a),
   (.neg w, fun a _ _ => -a),
   (.min w, fun a b _ => min a b),
   (.max w, fun a b _ => max a b),
   (.clamp w, fun a b c => if c < b then c else min (max a b) c)]

/-- 05 Table 4 with R140: logic, shifts and rotation on 32 bits. -/
def logicTable (w : Lane) : List (Instr × (Word32 → Word32 → Word32)) :=
  [(.and w, fun a b => a &&& b),
   (.or w, fun a b => a ||| b),
   (.xor w, fun a b => a ^^^ b),
   (.not w, fun a _ => ~~~a),
   (.andn w, fun a b => a &&& ~~~b),
   (.shl w, fun a b => if b.toNat < 32 then BitVec.ofNat 32 (a.toNat * 2 ^ b.toNat) else 0),
   (.shr w, fun a b =>
     if w.fmt = .s32 then BitVec.ofInt 32 (a.toInt / 2 ^ min b.toNat 31)
     else if b.toNat < 32 then BitVec.ofNat 32 (a.toNat / 2 ^ b.toNat) else 0),
   (.rot w, fun a b => (a <<< (b.toNat % 32)) ||| (a >>> (32 - b.toNat % 32)))]

/-- 05 Table 4: the counts. A leading zero is a bit with no 1 at or above it, a trailing zero one with no 1 at or below it. -/
def countTable (w : Lane) : List (Instr × (Word32 → Nat)) :=
  [(.popc w, fun a => (List.range 32).countP a.getLsbD),
   (.clz w, fun a => (List.range 32).countP (fun i => decide (a.toNat < 2 ^ i))),
   (.ctz w, fun a => (List.range 32).countP (fun i => decide (a.toNat % 2 ^ (i + 1) = 0)))]

/-- 05 R141, R142: the bit-field and byte instructions, bit by bit. `bit` i of the result. -/
def fieldTable (w : Lane) : List (Instr × (Word32 → Word32 → Word32 → Nat → Bool)) :=
  [(.brev w, fun a _ _ i => a.getLsbD (31 - i)),
   (.bfx w, fun a b _ i =>
     let pos := b.toNat % 32
     let wid := min (b.toNat / 256 % 64) (32 - pos)
     if wid = 0 then false
     else if i < wid then a.getLsbD (pos + i)
     else decide (w.fmt = .s32) && a.getLsbD (pos + wid - 1)),
   (.bfi w, fun a b c i =>
     let pos := c.toNat % 32
     let wid := min (c.toNat / 256 % 64) (32 - pos)
     if pos ≤ i ∧ i < pos + wid then a.getLsbD (i - pos) else b.getLsbD i),
   (.bperm w, fun a b c i =>
     let sel := c.toNat / 2 ^ (4 * (i / 8)) % 16
     let byteBit (j : Nat) : Bool :=
       if sel % 8 < 4 then a.getLsbD (8 * (sel % 8) + j) else b.getLsbD (8 * (sel % 8 - 4) + j)
     if 8 ≤ sel then byteBit 7 else byteBit (i % 8))]

/-- 05 Tables 7: an operation of one element, done to each half of a packed type (03 R89). -/
def floatTable (w : Lane) : List (Instr × (FF → Rm → Word32 → Word32 → Word32 → FRes)) :=
  [(.addFloat w, fun F r a b _ => fadd F r a b),
   (.subFloat w, fun F r a b _ => fsub F r a b),
   (.mulFloat w, fun F r a b _ => fmul F r a b),
   (.fma w, fun F r a b c => ffma F r a b c),
   (.divFloat w, fun F r a b _ => fdiv F r a b),
   (.sqrt w, fun F r a _ _ => fsqrt F r a),
   (.rsqrt w, fun F r a _ _ => frsqrt F r a),
   (.rcp w, fun F r a _ _ => frcp F r a),
   (.minFloat w, fun F _ a b _ => fminmax F false a b),
   (.maxFloat w, fun F _ a b _ => fminmax F true a b),
   (.absFloat w, fun F _ a _ _ => fabs F a),
   (.negFloat w, fun F _ a _ _ => fneg F a),
   (.classFloat w, fun F _ a _ _ => ⟨fclass F a, 0⟩),
   (.rint w, fun F r a _ _ => frint F r a),
   (.copysign w, fun F _ a b _ => fcopysign F a b),
   (.exp2 w, fun F r a _ _ => ffn F .exp2 r a),
   (.log2 w, fun F r a _ _ => ffn F .log2 r a),
   (.sin w, fun F r a _ _ => ffn F .sin r a),
   (.cos w, fun F r a _ _ => ffn F .cos r a),
   (.tanh w, fun F r a _ _ => ffn F .tanh r a),
   (.sigmoid w, fun F r a _ _ => ffn F .sigmoid r a),
   (.gelu w, fun F r a _ _ => ffn F .gelu r a),
   (.clampFloat w, fun F _ a b c => fclamp F a b c)]

/-- 05 R153-R155: dot product, conversion, moves and packing. -/
def moveTable (w : Lane) : List (Instr × (Word32 → Word32 → Word32 → FRes)) :=
  let r := Rm.ofCode w.mod
  [(.dot2 w, fun a b c => fdot2 (ffOf w.fmt) r a b c),
   (.cvt w, fun a _ _ => cvt w a),
   (.mov w, fun a _ _ => ⟨a, 0⟩),
   (.packB32 w, fun a b _ => ⟨BitVec.ofNat 32 (a.toNat % 65536 + 65536 * (b.toNat % 65536)), 0⟩),
   (.packFloat w, fun a b _ => pack2 (fcvt fp32 (ffOf w.fmt) r false a) (fcvt fp32 (ffOf w.fmt) r false b)),
   (.unpackB32 w, fun a _ _ => ⟨if w.xop.getLsbD 0 then a >>> 16 else a &&& 0xFFFF, 0⟩),
   (.unpackFloat w, fun a _ _ =>
     fcvt (ffOf w.fmt) fp32 .rne false (if w.xop.getLsbD 0 then a >>> 16 else a &&& 0xFFFF))]


/-! ### Predicates, cross-lane values and special registers -/

/-- 05 Table 6: two predicates in, one out. -/
def predicateTable (w : Lane) : List (Instr × (Bool → Bool → Bool)) :=
  [(.pand w, fun p q => p && q), (.por w, fun p q => p || q), (.pxor w, fun p q => xor p q), (.pnot w, fun p _ => !p)]

/-- 02 Table 4, conditions 0-5 on integers. -/
def holds (cond : Nat) (a b : Int) : Prop :=
  (cond = 0 ∧ a = b) ∨ (cond = 1 ∧ a ≠ b) ∨ (cond = 2 ∧ a < b) ∨ (cond = 3 ∧ a ≤ b) ∨ (cond = 4 ∧ b < a) ∨ (cond = 5 ∧ b ≤ a)

/-- 05 R159: what a lane of SHFL receives. -/
def shflValue (m : LaneMask) (mode : Nat) (a b : Nat → Word32) (l : Nat) : Word32 :=
  let k := (b l).toNat
  let src : Int :=
    if mode = 0 then (k % 64 : Nat) else if mode = 1 then (l : Int) - k else if mode = 2 then (l : Int) + k
    else (Nat.xor l (k % 64) : Nat)
  if 0 ≤ src ∧ src ≤ 63 ∧ inMask m src.toNat then a src.toNat else a l

/-- 05 R161: the active lanes whose key equals lane l's. -/
def matchMask (f : Fmt) (m : LaneMask) (a : Nat → Word32) (l : Nat) : LaneMask := maskOf (fun j => inMask m j && keyEq f (a j) (a l))

/-- 05 R162: a reduction of the values of the active lanes in ascending order, with the conditions of its steps. -/
def reduceValue (w : Lane) : List Word32 → FRes
  | [] => ⟨0, 0⟩
  | x :: r =>
    let op := w.xop.toNat % 8
    if w.fmt = .f32 then
      let step (acc : FRes) (y : Word32) : FRes :=
        let z := if op = 0 then fadd fp32 (Rm.ofCode w.mod) acc.val y else fminmax fp32 (decide (op ≠ 1)) acc.val y
        ⟨z.val, acc.fl ||| z.fl⟩
      r.foldl step (if (fdec fp32 x).isNan then ⟨fnan fp32, if (fdec fp32 x).isSnan then NV else 0⟩ else ⟨x, 0⟩)
    else
      let all := (x :: r).map (readInt w.fmt)
      if op = 0 then ⟨intResult w all.sum, 0⟩
      else if op = 1 then ⟨widen ((r.map (readInt w.fmt)).foldl min (readInt w.fmt x)), 0⟩
      else if op = 2 then ⟨widen ((r.map (readInt w.fmt)).foldl max (readInt w.fmt x)), 0⟩
      else if op = 3 then ⟨r.foldl (· &&& ·) x, 0⟩
      else if op = 4 then ⟨r.foldl (· ||| ·) x, 0⟩
      else ⟨r.foldl (· ^^^ ·) x, 0⟩

/-- 05 R162 Table 11: the operations and formats of VREDUCE and VSCAN. -/
def reductionForm (w : Lane) : Prop :=
  (w.fmt = .b32 ∧ 3 ≤ w.xop.toNat % 8 ∧ w.xop.toNat % 8 ≤ 5) ∨ (w.fmt ∈ [Fmt.s32, .n32, .f32] ∧ w.xop.toNat % 8 ≤ 2)

/-- 05 Table 12. -/
def scanStart (w : Lane) : Word32 :=
  let op := w.xop.toNat % 8
  if w.fmt = .f32 then (if op = 1 then 0x7F800000 else if op = 2 then 0xFF800000 else 0)
  else if op = 1 then (if w.fmt = .s32 then 0x7FFFFFFF else 0xFFFFFFFF)
  else if op = 2 then (if w.fmt = .s32 then 0x80000000 else 0)
  else if op = 3 then 0xFFFFFFFF
  else 0

/-- 05 R163: what lane l of a scan receives, and the conditions of the steps performed. -/
def scanValue (w : Lane) (m : LaneMask) (a : Nat → Word32) (l : Nat) : FRes :=
  let ex := w.xop.getLsbD 3
  let before := (maskLanes m).filter (fun j => if ex then decide (j < l) else decide (j ≤ l))
  let performed := if ex then (maskLanes m).dropLast else maskLanes m
  ⟨if ex ∧ before = [] then scanStart w else (reduceValue w (before.map a)).val, (reduceValue w (performed.map a)).fl⟩

/-- 04 Table 2: the registers that the lane form of SRD reads, as lane l of the issuing split sees them. -/
def specialTable (s : State) (x : Issue) : List (Nat × (Nat → Word64)) :=
  [(0x00, fun l => (x.g.fpFlagsOf l).setWidth 64), (0x01, fun l => (x.g.fpEnableOf l).setWidth 64),
   (0x02, fun _ => x.g.mxFlags.setWidth 64), (0x03, fun _ => if rd false s.narrow x.g.quarterId then 1 else 0),
   (0x04, fun _ => x.en.mask), (0x10, fun _ => BitVec.ofNat 64 x.en.wbase), (0x11, fun _ => BitVec.ofNat 64 x.g.w),
   (0x12, fun _ => x.g.rspb)]

/-- The lane words of opcodes 0x00-0x8C whose three source fields are tested over the active lanes. -/
def sourceWords (w : Lane) : List Instr :=
  (intArithmetic w).map Prod.fst ++ (logicTable w).map Prod.fst ++ (countTable w).map Prod.fst ++ (fieldTable w).map Prod.fst ++
  (floatTable w).map Prod.fst ++ (moveTable w).map Prod.fst ++
  [.cmp w, .cmpFloat w, .pset w, .sel w, .stov w, .shfl w, .vballotS w, .vballotV w, .vmatch w, .vreduce w, .vscan w]

/-- Every lane word of opcodes 0x00-0x8C and 0xF4. -/
def aluWords (w : Lane) : List Instr :=
  sourceWords w ++ (predicateTable w).map Prod.fst ++
  [.pget w, .vtosB32 w, .vtosN32 w, .vtosS32 w, .empty w, .fill w, .srd w]

/-- The lane words of opcodes 0x00-0x8C that raise conditions (05 R145-R155, R162, R163), and SWR. -/
def raisingWords (w : Lane) : List Instr :=
  (floatTable w).map Prod.fst ++
    [.dot2 w, .cvt w, .packFloat w, .unpackFloat w, .cmpFloat w, .vreduce w, .vscan w, .swr w]

/-! ### Memory, control, matrix, tree and synchronisation words at issue -/

/-- The lanes that a memory word still has to perform (13 R305, R315). -/
def Issue.due (x : Issue) (w : Lane) : LaneMask := x.on w &&& ~~~(x.en.doneOf x.en.pos)

/-- The split as a replayed word's own destination stands for its sources (13 R315). -/
def Issue.replay (x : Issue) (w : Lane) : Issue :=
  if x.en.doneIx = x.en.pos then { x with g := x.g.openDest (x.dst w) (x.due w) } else x

/-- The address of lane l, 02 R56: the base, the sign-extended offset and the sign-extended immediate, modulo 2^64. -/
def laneAddr (w : Lane) (g : Group) (off : Nat → Word32) (l : Nat) : VAddr :=
  BitVec.ofInt 64 ((g.uniform w.sa).toNat + (off l).toInt + w.imm.toInt)

/-- A memory word that stands ready: lanes are due, its base and sources are full. -/
structure MemReady (w : Lane) (s : State) (x : Issue) (cas : Bool) (off data cmp : Nat → Word32) (g : Group) : Prop where
  issuer : s.issuer = some x
  free : x.commitWait = false
  lanes : x.due w ≠ 0
  base : (x.replay w).g.testSrc x.en.wbase (x.on w) w.sa w.epa 0 = .full
  fetched : ∃ post, s.fetch (x.replay w) w.imm ⟨w.sb, w.epb, x.on w⟩ ⟨w.sc, w.epc, x.on w⟩
    ⟨if cas then w.dst else .zero, false, x.on w⟩ = .ok off data cmp g post

/-- What each memory word does in a lane (13 Tables 2 and 3): the size of its access, whether DST is a source, and its effect
from the lane's data and comparand. -/
def memoryTable (w : Lane) : List (Instr × Nat × Bool × (Dest → BitVec 64 → BitVec 64 → AccWhat)) :=
  let small : Nat := if w.fmt ∈ [Fmt.s8, .n8] then 1 else if w.fmt ∈ [Fmt.s16, .n16, .f16, .bf16] then 2 else 4
  let addK : AtomFn := if w.fmt = .f32 then .addF32 else if w.fmt = .bf16x2 then .addBf16x2 else .add32
  let minK : AtomFn := if w.fmt = .f32 then .minF else if w.fmt = .s32 then .minS else .minN
  let maxK : AtomFn := if w.fmt = .f32 then .maxF else if w.fmt = .s32 then .maxS else .maxN
  [(.ld w, small, false, fun d _ _ => .load w.fmt d), (.st w, small, false, fun _ v _ => .store v w.fmt),
   (.atomAdd w, 4, false, fun d v c => .rmw addK v c true d), (.atomMin w, 4, false, fun d v c => .rmw minK v c true d),
   (.atomMax w, 4, false, fun d v c => .rmw maxK v c true d), (.atomAnd w, 4, false, fun d v c => .rmw .and v c true d),
   (.atomOr w, 4, false, fun d v c => .rmw .or v c true d), (.atomXor w, 4, false, fun d v c => .rmw .xor v c true d),
   (.atomXchg w, 4, false, fun d v c => .rmw .xchg v c true d), (.atomCas w, 4, true, fun d v c => .rmw .cas v c true d),
   (.redAdd w, 4, false, fun d v c => .rmw addK v c false d), (.redMin w, 4, false, fun d v c => .rmw minK v c false d),
   (.redMax w, 4, false, fun d v c => .rmw maxK v c false d), (.redAnd w, 4, false, fun d v c => .rmw .and v c false d),
   (.redOr w, 4, false, fun d v c => .rmw .or v c false d), (.redXor w, 4, false, fun d v c => .rmw .xor v c false d)]

/-- What an access says of itself at issue. -/
def LaneAcc.says (a : LaneAcc) : Nat × VAddr × Nat × AccWhat × Kind × Scope × Bool × AccStage :=
  (a.lane, a.addr, a.size, a.what, a.kind, a.scope, a.nt, a.stage)

/-- The control words that take no register target, with the transfer that each leaves for the run's completion (07 R191, R197):
kind, target of its active lanes, reconvergence PC and number. -/
def controlTable (j : Jump) (w : Lane) (pc : PC) : List (Instr × Bool × BitVec 3 × XferKind × VAddr × Option PC × Nat) :=
  let at' (off : Int) : PC := BitVec.ofInt 57 (pc.toNat + 12 * off)
  [(.bra j, j.neg, j.gp, .jump, (at' j.imm.toInt).signExtend 64, if j.rejoin = 0 then none else some (at' j.rejoin.toInt), 0),
   (.call w, w.neg, w.gp, .call, (at' w.imm.toInt).signExtend 64, none, 0), (.ret w, w.neg, w.gp, .ret, 0, none, 0),
   (.brk w, w.neg, w.gp, .brk, 0, none, w.imm.toNat % 128), (.exit w, w.neg, w.gp, .exit, 0, none, w.imm.toNat % 256),
   (.trap w, w.neg, w.gp, .trap, 0, none, w.imm.toNat % 65536), (.bkpt w, w.neg, w.gp, .bkpt, 0, none, w.imm.toNat % 65536),
   (.nop w, w.neg, w.gp, .nop, 0, none, 0)]

/-- The matrix words. -/
def matrixTable (w : Lane) : List (Instr × MxKind) := [(.mldb w, .mldb), (.mma w, .mma), (.mdrn w, .mdrn), (.mzero w, .mzero)]

/-- Whether a matrix word's address passes the checks of issue: MMA's and a plain MLDB's 64-byte alignment, and MMA's image
inside the scratchpad (15 R345, R351). -/
def mxAddrOk (s : State) (x : Issue) (w : Lane) (k : MxKind) (addr : VAddr) : Prop :=
  (k = .mma → addr.toNat % 64 = 0 ∧ ∀ g t l, s.where' x.gid = some (g, t, l) → inScratch l addr (aImageBytes w.fmt) = true) ∧
  (k = .mldb → w.fmt ∈ [Fmt.s8, .bf16] → addr.toNat % 64 = 0)

/-- The tree, key-value, mask and draw words (09 R227, R228; 11 R274, R277): the unit's operation, whether a failing status
traps the run (.chk), whether the run waits for the reply, and which source holds each lane's value. -/
def treeTable (w : Lane) : List (Instr × TreeKind × Bool × Bool × Bool) :=
  let chk := w.xop.getLsbD 0
  [(.trnew w, .trnew, chk, chk, false), (.tradd w, .tradd, chk, chk, true), (.trfork w, .trfork, chk, chk, false),
   (.trpruneBr w, .pruneBr, chk, chk, false), (.trpruneSub w, .pruneSub, chk, chk, false), (.trcommit w, .commit, chk, chk, false),
   (.trinfo w, .info (w.xop.toNat / 2), chk, chk, false), (.kvslotRd w, .kvRd (w.xop.toNat % 2), false, false, false),
   (.kvslotOwn w, .kvOwn (w.xop.toNat % 2), false, false, false), (.amask w, .amask, false, false, false),
   (.gmask w, .gmask (w.xop.toNat % 8), false, true, false), (.mdrawCl w, .drawCl, false, false, false),
   (.mdrawTok w, .drawTok (w.imm.toNat % 8), false, false, false)]

/-- The operation that a tree word hands to its unit. -/
def treeOpOf (s : State) (x : Issue) (w : Lane) (c : Actx) (g : Group) (kind : TreeKind) (chk useC : Bool) (b v : Nat → Word32) :
    TreeOp :=
  { id := s.nextId, gid := x.gid, entry := x.e, index := x.en.pos, kind := kind, part := c.part, die := g.die, lanes := x.on w,
    dst := g.destOf x.en.wbase w.dst, a := g.uniform w.sa, b := g.uniform w.sb, c := g.uniform w.sc,
    x := (List.range 64).map (if useC then v else b), chk := chk, reply := none, noLegal := false }

/-- The checks of a tree word's addresses at issue that let it go on: AMASK's and GMASK's tile is aligned and writable, MDRAW's
request is aligned and readable. -/
def treeAddrOk (s : State) (c : Actx) (o : TreeOp) : Prop :=
  match o.kind with
  | .amask => o.c.toNat % 1024 = 0 ∧ s.writeCheck c 1024 1 o.c = none
  | .gmask _ => o.c.toNat % 128 = 0 ∧ s.writeCheck c 4096 8 o.c = none ∧ s.writeCheck c 64 2 (o.c + 32768) = none
  | .drawCl | .drawTok _ => s.drawCheck c o = none
  | _ => True

/-- The number of lane entries that a fence, wait or arrival waits for: none of the stream's earlier accesses that it orders
stands in flight (14 R325), and a wide release's drained entries are acknowledged (14 R323). -/
def fenceClear (s : State) (gid : Nat) (g : Group) (before : List LaneAcc) (rel : Bool) (sc : Scope) : Prop :=
  (∀ a ∈ before, rel = false ∧ a.reads = false) ∧ (rel = true → Scope.atLeastRidge sc = true → s.drainsDone gid g.coreId = true)

/-! ### Access words (06) and drain words (16) -/

/-- An access word stands ready: its sources are full and no fill of its destinations is pending (06 R166, 04 R126). -/
structure AccessReady (s : State) (gid : Nat) (g : Group) (srcs dsts : List SReg) : Prop where
  issuer : s.accessIssuer = some (gid, g)
  full : ∀ r ∈ srcs, g.fullS r = true
  room : ∀ r ∈ dsts, g.busyS r = false

/-- 06 Table 2: A-form arithmetic. -/
def accessTable (d a b : SReg) : List (Instr × (Word64 → Word64 → Word64)) :=
  [(.accessAdd d a b, fun x y => BitVec.ofNat 64 (x.toNat + y.toNat)),
   (.accessSub d a b, fun x y => BitVec.ofInt 64 ((x.toNat : Int) - y.toNat)),
   (.accessMul d a b, fun x y => BitVec.ofNat 64 (x.toNat * y.toNat)),
   (.accessMulhi d a b, fun x y => BitVec.ofInt 64 (x.toInt * y.toInt / 2 ^ 64)),
   (.accessAnd d a b, fun x y => x &&& y), (.accessOr d a b, fun x y => x ||| y),
   (.accessXor d a b, fun x y => x ^^^ y), (.accessAndn d a b, fun x y => x &&& ~~~y),
   (.accessShl d a b, fun x y => if y.toNat < 64 then BitVec.ofNat 64 (x.toNat * 2 ^ y.toNat) else 0),
   (.accessShr d a b, fun x y => if y.toNat < 64 then BitVec.ofNat 64 (x.toNat / 2 ^ y.toNat) else 0),
   (.sar d a b, fun x y => BitVec.ofInt 64 (x.toInt / 2 ^ min y.toNat 63)),
   (.accessRot d a b, fun x y => (x <<< (y.toNat % 64)) ||| (x >>> (64 - y.toNat % 64))),
   (.accessMin d a b, fun x y => BitVec.ofInt 64 (min x.toInt y.toInt)),
   (.accessMax d a b, fun x y => BitVec.ofInt 64 (max x.toInt y.toInt)),
   (.minu d a b, fun x y => BitVec.ofNat 64 (min x.toNat y.toNat)),
   (.maxu d a b, fun x y => BitVec.ofNat 64 (max x.toNat y.toNat)),
   (.accessDiv d a b, fun x y =>
     if y = 0 then (if x.toInt < 0 then BitVec.ofInt 64 (-(2 ^ 63)) else BitVec.ofInt 64 (2 ^ 63 - 1))
     else BitVec.ofInt 64 (x.toInt.tdiv y.toInt)),
   (.accessRem d a b, fun x y => if y = 0 then x else BitVec.ofInt 64 (x.toInt - y.toInt * x.toInt.tdiv y.toInt)),
   (.divu d a b, fun x y => if y = 0 then BitVec.ofNat 64 (2 ^ 64 - 1) else BitVec.ofNat 64 (x.toNat / y.toNat)),
   (.remu d a b, fun x y => BitVec.ofNat 64 (x.toNat % y.toNat))]

/-- 06 R169: I-form arithmetic. -/
def immediateTable (d a : SReg) (i : BitVec 10) : List (Instr × (Word64 → Word64)) :=
  [(.addi d a i, fun x => BitVec.ofInt 64 (x.toInt + i.toInt)), (.andi d a i, fun x => x &&& BitVec.ofInt 64 i.toInt),
   (.ori d a i, fun x => x ||| BitVec.ofInt 64 i.toInt), (.xori d a i, fun x => x ^^^ BitVec.ofInt 64 i.toInt),
   (.shli d a i, fun x => if i.toNat < 64 then BitVec.ofNat 64 (x.toNat * 2 ^ i.toNat) else 0),
   (.shri d a i, fun x => if i.toNat < 64 then BitVec.ofNat 64 (x.toNat / 2 ^ i.toNat) else 0),
   (.sari d a i, fun x => BitVec.ofInt 64 (x.toInt / 2 ^ min i.toNat 63))]

/-- 06 R171, R172: words that write a K register. -/
def kTable (d a b : SReg) : List (Instr × (Bool → Bool → Bool)) :=
  [(.kand d a b, fun p q => p && q), (.kor d a b, fun p q => p || q), (.kxor d a b, fun p q => xor p q),
   (.kandn d a b, fun p q => p && !q)]

/-- 06 R173: the memory words with the registers that they read beside the base, those that they write, the address offset, the
size, the kind and scope, and what they do. -/
def accessMemoryTable (d a : SReg) (i : BitVec 10) (k : BitVec 2) (sc : Scope) (n : BitVec 4) (g : Group) :
    List (Instr × List SReg × List SReg × Int × Nat × Kind × Scope × AccWhat) :=
  let dst : Dest := if d = 0xFF then .none else .s d.toNat
  let kind : Kind := match k.toNat with | 0 => .rlx | 1 => .acq | 2 => .rel | _ => .ar
  [(.ld64 d a i, [], [d], i.toInt, 8, .weak, .split, .load .n32 dst), (.ld32 d a i, [], [d], i.toInt, 4, .weak, .split, .load .n32 dst),
   (.st64 d a i, [d], [], i.toInt, 8, .weak, .split, .store (g.readS d) .n32),
   (.st32 d a i, [d], [], i.toInt, 4, .weak, .split, .store (g.readS d) .n32),
   (.lds d a k sc n, [], [d], 8 * n.toNat, 8, kind, sc, .load .n32 dst),
   (.sts d a k sc n, [d], [], 8 * n.toNat, 8, kind, sc, .store (g.readS d) .n32),
   (.aadd d a k sc n, [d], [d], 8 * n.toNat, 8, kind, sc, .rmw .add64 (g.readS d) 0 true dst),
   (.axchg d a k sc n, [d], [d], 8 * n.toNat, 8, kind, sc, .rmw .xchg64 (g.readS d) 0 true dst)]

/-- The address of a branch, 06 R176. -/
def branchTarget (g : Group) (o : BitVec 23) : PC := BitVec.ofInt 57 (g.apc.toNat + 4 * o.toInt)

/-- An engine command stands ready (06 R184): its descriptor registers are full, its counter, if any, is below 63, and no fill of
its token is pending. -/
structure EngineReady (s : State) (gid : Nat) (g : Group) (t a : SReg) (k : Nat) (cls : Option Cls) : Prop where
  issuer : s.accessIssuer = some (gid, g)
  full : ∀ i, i < k → g.fullS (a + BitVec.ofNat 8 i) = true
  room : g.busyS t = false
  counter : ∀ c, cls = some c → g.count c ≠ 63

/-- The group after a command issued: the word is done, the command's operation outstanding, its token empty with a fill pending. -/
def Group.commanded (g : Group) (id : Nat) (t : SReg) (cls : Option Cls) : Group :=
  let g1 := match cls with
    | some c => g.issueOp id c 0 0 0
    | none => g
  (if t = 0xFF then g1 else g1.setSState t.toNat .pending).accessDone

/-- The descriptor that a command hands over. -/
def descriptorOf (g : Group) (a : SReg) (k : Nat) : List Word64 := (List.range k).map (fun i => g.readS (a + BitVec.ofNat 8 i))

/-- 16 R366: drain words that compute a D register from the drain. -/
def drainTable (d : BitVec 2) (a b f : BitVec 3) : List (Instr × (Drain → FRes)) :=
  [(.drainAdd d a b, fun x => fadd fp32 .rne (x.src a) (x.src b)), (.drainMul d a b, fun x => fmul fp32 .rne (x.src a) (x.src b)),
   (.drainMad d a b, fun x => ffma fp32 .rne (x.src a) (x.src b) (x.get d)),
   (.drainMax d a b, fun x => fminmax fp32 true (x.src a) (x.src b)),
   (.drainMin d a b, fun x => fminmax fp32 false (x.src a) (x.src b)),
   (.drainClamp d a b, fun x => fclamp fp32 (x.get d) (x.src a) (x.src b)),
   (.drainRelu d a, fun x => reluOf (x.src a)), (.drainFn d a f, fun x => ffn fp32 (drainFnOf f) .rne (x.src a)),
   (.drainSel d a b f, fun x => ⟨if x.cond d f then x.src a else x.src b, 0⟩), (.drainConst d f, fun _ => ⟨drainConstOf f, 0⟩),
   (.drainMov d a, fun x => ⟨x.src a, 0⟩)]

/-! ### Decoding and reset -/

/-- A lane word's fields as most of the spec's worked words have them. -/
def plainLane : Lane :=
  { fmt := .s32, mod := 0, neg := false, gp := 7, dst := .zero, sa := .zero, sb := .zero, sc := .zero, epa := false, epb := false,
    epc := false, last := false, xop := 0, imm := 0 }

/-- Worked lane words of the spec: 02 R78, 05 R161, 07 R191, 09 R241, 10 R255, 11 R274, R277, 12 R298, 13 R304, 15 R352,
19 R406, R409, 24 R472. -/
def specLaneWords : List (LaneWord × Instr) :=
  let l := plainLane
  [(0x408020200405E10000000000, .addFloat { l with fmt := .f32, gp := 2, dst := .v 4, sa := .v 1, sb := .v 2 }),
   (0x438070481206091000000000, .fma { l with fmt := .f32, dst := .v 9, sa := .v 4, sb := .s 3, sc := .v 9, last := true }),
   (0x868070380FC3E10000000000, .vmatch { l with fmt := .f32, dst := .v 7, sa := .v 3 }),
   (0xC0001F08000009100000000C, .bra { neg := false, gp := 1, dst := .zero, rejoin := 9, imm := 12 }),
   (0xC5007F0F87C3E11000000001, .brk { l with last := true, imm := 1 }),
   (0xE700704C5007150000000000, .amask { l with dst := .v 9, sa := .s 20, sb := .v 3, sc := .s 21 }),
   (0xE900706450071601 * 2 ^ 32, .kvslotRd { l with dst := .v 12, sa := .s 20, sb := .v 3, sc := .s 22, xop := 1 }),
   (0xE800702C522B160300000000, .gmask { l with dst := .v 5, sa := .s 20, sb := .s 21, sc := .s 22, xop := 3 }),
   (0xD4007044600FE10100000002, .mdrawTok { l with dst := .v 8, sa := .s 24, sb := .v 7, xop := 1, imm := 2 }),
   (0xF3007F0F87C3E10000000000, .ridgeDetach l),
   (0xA080702C1005E10000000010, .ld { l with fmt := .f32, dst := .v 5, sa := .s 4, sb := .v 2, imm := 16 }),
   (0xA8C67F0C2806060900000000, .redAdd { l with fmt := .bf16x2, mod := 6, sa := .s 10, sb := .v 3, sc := .v 6, xop := 9 }),
   (0xA16B1F0C07C3020300000000, .st { l with fmt := .b32, mod := 11, gp := 1, sa := .s 1, sc := .s 2, xop := 3 }),
   (0xD1D07F0C522BE10000850102, .mma { l with fmt := .xb8, sa := .s 20, sb := .s 21, imm := 0x850102 }),
   (0xF1007F0F87C3E10200000000, .waitc { l with xop := 2 }),
   (0xF2007F0F87C3E10000001401, .barSync { l with imm := 0x1401 })]

/-- Worked access words of the spec: 02 R78, 14 R326, 17 R376, 19 R406, R409. -/
def specAccessWords : List (AccessWord × Instr) :=
  [(0x141017FD, .addi 4 5 0x3FD), (0x62FFFFFB, .br 2 true 0x7FFFFB), (0xC3FDBFF0, .accessFence .release .system),
   (0x83FE9280, .agset 2 2 1 40), (0xC7FC0FF1, .accessWaitc 0 .cp), (0xCBFC1051, .accessBarArrive 1 5)]

/-- Drain words, by the fields of 16 R359, R366. -/
def specDrainWords : List (DrainWord × Instr) :=
  [(0, .drainEnd), (1#5 ++ 2#2 ++ 4#3 ++ 5#3 ++ 0#3, .drainAdd 2 4 5), (9#5 ++ 1#2 ++ 0#3 ++ 7#3 ++ 3#3, .drainSel 1 0 7 3),
   (12#5 ++ 1#2 ++ 0#3 ++ 0#3 ++ 2#3, .drainStore 1 0 2)]

/-! ### Front end, faults and engines: what their events find -/

/-- A queue that runs and waits for nothing has the packet p, of a good form, at its RIDX; s1 is the state after its read. -/
structure PacketReady (s : State) (q : Nat) (x : Queue) (s1 : State) (p : Nat) : Prop where
  queue : s.queue q = some x
  stage : s.stage = .ready
  runs : x.st = .run
  free : x.busy = .none
  more : x.pending ≠ 0
  read : ∃ bs, s.feReads x.ctx 8 (BitVec.ofNat 64 (x.cfg.ring.base + 64 * (x.ridx.toNat % 2 ^ x.cfg.rlog))) = .ok s1 bs ∧
    p = ofBytes bs

/-- The CMAINT forms with their events (18 R400). -/
def cmaintTable (q : Nat) : List (Nat × Instr) :=
  [(0, .cmaintWritebackInvalidate q), (1, .cmaintWriteback q), (2, .cmaintTranslation q), (3, .cmaintFetchInvalidate q),
   (4, .cmaintFlipToHost q), (5, .cmaintFlipToDevice q), (6, .cmaintUnpin q)]

/-- The events that consume a packet (18 R397). -/
def packetEvents (q : Nat) : List Instr :=
  [.packetNop q, .dispatch q, .prologue q, .waitev q, .signalWrite q, .signalAdd q] ++ (cmaintTable q).map Prod.snd

/-- Whether a launch's next team may be placed on cores now (01 R40, R44; 18 R402; 20 R437; 21 R456, R457): the device places
teams, the cores have room, no launch that goes first can be placed, and the die's operating point serves. -/
structure PlacementReady (s : State) (lid : Nat) (l : Launch) (die : Nat) (cores : List Nat) : Prop where
  launch : s.launch lid = some l
  places : s.places = true
  waits : l.waits = true
  unreserved : l.reserved = none
  unsaved : s.savedTeam lid = false
  fits : s.fits lid l (fun _ => true) (fun _ _ => true) die cores = true
  first : ∀ o ∈ s.launches, Launch.before o (lid, l) = true → s.placeable o.1 o.2 = false

/-- A lane's or access word's store stands ready to be performed (13 R307, R312; 14 R325, R327): it has been handed on, nothing
that comes before it is in flight, and its page is not flipping. -/
structure StoreReady (s : State) (gid op lane : Nat) (c : Actx) (g : Group) (a : LaneAcc) (data : BitVec 64) : Prop where
  group : s.group gid = some g
  space : s.actx gid = some c
  acc : g.acc op lane = some a
  what : ∃ f, a.what = .store data f
  stage : a.stage = .settled
  plain : a.record = none
  order : a.isRelease = false ∧ a.isAcquire = false
  lanes : ∀ b ∈ g.accs, b.op = op → b.stage ≠ .issued
  first : g.mayPerform a = true
  held : s.placeHeld a.place = false

/-- The byte of data that a store of n bytes at pa gives address x; the byte that stood there elsewhere. -/
def storedByte (data : BitVec 64) (pa n x : Nat) (old : Byte) : Byte :=
  if pa ≤ x ∧ x < pa + n then BitVec.ofNat 8 (data.toNat / 256 ^ (x - pa)) else old

/-- A run stands complete: its last instruction has issued, and no access or reply holds it (07 R192; 09 R230; 13 R306). -/
structure RunDone (s : State) (gid e : Nat) (g : Group) (en : Entry) : Prop where
  group : s.group gid = some g
  entry : g.entry e = some en
  split : en.join = false
  ready : en.st = .ready
  inRun : en.inRun = true
  last : en.runpos = en.len
  accepted : ∀ a ∈ g.accs, a.stream = .lane → a.entry = e → a.stage ≠ .issued
  unheld : en.holds = []
  live : g.saved = false ∧ g.killed = false

/-- A tree operation whose turn at its unit has come (09 R240, R241; 11 R265, R277). -/
structure ArrivalReady (s : State) (o : TreeOp) (g : Group) (c : Actx) : Prop where
  sent : s.treeOps.find? (fun p => p.id = o.id) = some o
  group : s.group o.gid = some g
  space : s.actx o.gid = some c
  open' : o.reply = none
  turn : s.trReady o = true
  loaded : s.setLoading o c = false

/-- A tree operation after its unit has performed it: the results stand as its reply. -/
def State.replied (s : State) (id : Nat) (res : List Word32) (no : Bool) : State :=
  { s with treeOps := s.treeOps.map (fun p => if p.id = id then { p with reply := some res, noLegal := no } else p) }

/-- What TRINFO reads of a node (09 R236). -/
def nodeItem (n : Node) : Nat → Nat
  | 0 => n.token
  | 1 => n.depth
  | 2 => n.seg
  | 3 => n.parent
  | 4 => n.slot
  | _ => n.gstate

/-- A matrix operation whose turn in its quarter has come (15 R343). -/
structure MatrixReady (s : State) (o : MxOp) (g : Group) (c : Actx) (tm : Team) : Prop where
  found : s.mxOps.find? (fun p => p.id = o.id) = some o
  group : s.group o.gid = some g
  space : s.actx o.gid = some c
  team : s.team g.tid = some tm
  turn : s.mxReady o g = true
  tiles : o.ti + o.n ≤ 8

/-- 15 R350, R353: the INT8 product of a row of the A image and a column of a macro. -/
def dotBytes (s : State) (tm : Team) (q : Nat) (o : MxOp) (ix row col : Nat) : Int :=
  ((List.range 128).map (fun k =>
    (rd (0 : Byte) tm.scratch (o.addr.toNat - scratchBase + 128 * row + k)).toInt * (s.macAt q (o.mj + ix) col k).toInt)).sum

/-- A command of an engine found by its number, with its group and address space. -/
structure CommandOf (s : State) (gid : Nat) (g : Group) (c : Actx) : Prop where
  group : s.group gid = some g
  space : s.actx gid = some c
  here : g.saved = false

/-- A text command whose turn at its engine has come (11 R262, R265). -/
structure TextReady (s : State) (op : Nat) (o : TextOp) (c : Actx) : Prop where
  found : s.textOps.find? (fun p => p.id = op) = some o
  space : s.actx o.gid = some c
  goes : o.parkSet = none
  unread : o.image = none
  turn : s.textWaits o = false

/-- Descriptor fields of a text command, 11 Tables 2 and 3. -/
def TextOp.reg (o : TextOp) (i : Nat) : Nat := (nth 0 o.desc i).toNat

/-- A TXTOK or TXDET descriptor with a reserved bit set, or an address or length that its command refuses (11 R266, R269). -/
def TextOp.badFields (o : TextOp) : Prop :=
  bits (o.reg 2) 39 35 ≠ 0 ∨ bits (o.reg 2) 63 41 ≠ 0 ∨
  (match o.kind with
    | .txtok _ => bits (o.reg 3) 63 32 ≠ 0 ∨ 2 ^ 31 ≤ bits (o.reg 2) 31 0 ∨ o.reg 1 % 4 ≠ 0
    | _ => o.reg 0 % 4 ≠ 0 ∨ o.reg 3 % 64 ≠ 0)

/-- What bytes written at a place leave at address x, where `old` stood. -/
def writtenByte (bs : List Byte) (pa x : Nat) (old : Byte) : Byte := if pa ≤ x ∧ x < pa + bs.length then bs.getD (x - pa) 0 else old

/-- An access whose request another device answers (13 R316; 14 R334). -/
structure AnswerReady (s : State) (id gid op lane : Nat) (r : Req) (g : Group) (a : LaneAcc) : Prop where
  sent : look s.reqs id = some r
  who : r.who = .acc gid op lane
  home : ∃ pa, r.target = .mem pa
  group : s.group gid = some g
  acc : g.acc op lane = some a
  stage : a.stage = .sent
  names : a.op = op ∧ a.lane = lane

/-- A forwarded record that is answered now (18 R396): `s1` is the state without it. -/
structure RecordTaken (s : State) (n : Nat) (r : FRec) (s1 : State) : Prop where
  found : s.forwarded.find? (fun x => x.rseq = n) = some r
  rest : s1 = { s with forwarded := s.forwarded.filter (fun x => x.rseq != n) }

/-- Whether the host queue of a record's launch is STOPPED. -/
def State.recordStopped (s : State) (r : FRec) : Bool := (r.launch.map s.queueStopped).getD false

/-- A stop that the driver has been told of and may act on (20 R427). -/
structure StopPending (s : State) (x : StopRef) (g : Group) (r : TrapRec) : Prop where
  noticed : x ∈ s.pendingNotices
  driver : s.toDriver (s.launchOf x.gid) = true
  group : s.group x.gid = some g
  record : s.stopRecord x = some r

/-- A saved team that may take cores again (20 R438; 01 R40, R44): `s1` is the state after the operating point was asked for. -/
structure ResumeReady (s : State) (tid die : Nat) (cores : List Nat) (t : Team) (l : Launch) : Prop where
  team : s.team tid = some t
  launch : s.launch t.launch = some l
  saved : t.saved = true
  standing : t.retired = false
  places : s.places = true
  fits : s.fits t.launch l (s.returning t) (s.resumeRoom t die) die cores = true
  first : ∀ o ∈ s.launches, Launch.before o (t.launch, l) = true → s.placeable o.1 o.2 = false
  point : ∃ s1, s.pointReady die l = (s1, true)

end Sys2Proof.Machine
end

