-- ==== Sys2Proof/Certificates/Slice0/Obligations.lean ====
section
/-!
DEFINITION. The claims for the provers: what the spec's rules say the instructions and the machine do.
-/
open Sys2Proof Sys2Proof.Machine

/-- 05 R137, R138, Table 3: a lane integer instruction whose sources are full completes, and writes into its destination, in
each active lane, the exact result wrapped or saturated into its type's range and widened; it raises no condition. -/
def Obligations.IntegerArithmeticWritesItsTable : Prop :=
  ∀ (w : Lane) (s : State) (x : Issue) (a b c : Nat → Word32) (g : Group), LaneReady w s x a b c g →
    g.pendingIn (x.dst w) (x.on w) = false →
    ∀ p ∈ intArithmetic w, exec p.1 s = .next (x.wrote s w g (fun l =>
      ⟨intResult w (p.2 (readInt w.fmt (a l)) (readInt w.fmt (b l)) (readInt w.fmt (c l))), 0⟩))

/-- 05 R139-R142: logic, shifts and rotation give their value, counts their number, and the bit-field and byte instructions their
result bit by bit. -/
def Obligations.LogicAndFieldsWriteTheirTable : Prop :=
  (∀ (w : Lane) (s : State) (x : Issue) (a b c : Nat → Word32) (g : Group), LaneReady w s x a b c g →
     g.pendingIn (x.dst w) (x.on w) = false →
     ∀ p ∈ logicTable w, exec p.1 s = .next (x.wrote s w g (fun l => ⟨p.2 (a l) (b l), 0⟩))) ∧
  (∀ (w : Lane) (s : State) (x : Issue) (a b c : Nat → Word32) (g : Group), LaneReady w s x a b c g →
     g.pendingIn (x.dst w) (x.on w) = false →
     (∀ p ∈ countTable w, exec p.1 s = .next (x.wrote s w g (fun l => ⟨BitVec.ofNat 32 (p.2 (a l)), 0⟩))) ∧
     (∀ p ∈ fieldTable w, ∃ r : Nat → Word32, exec p.1 s = .next (x.wrote s w g (fun l => ⟨r l, 0⟩)) ∧
       ∀ l i, i < 32 → (r l).getLsbD i = p.2 (a l) (b l) (c l) i))

/-- 05 R145-R155 with 03 R89, R93: a floating-point, dot, conversion, move or pack instruction none of whose raised conditions is
enabled completes: it writes its result, for a packed type half by half, and each lane's conditions stand in its flags. -/
def Obligations.FloatAndMoveWordsWriteTheirTable : Prop :=
  (∀ (w : Lane) (s : State) (x : Issue) (a b c : Nat → Word32) (g : Group), LaneReady w s x a b c g →
     g.pendingIn (x.dst w) (x.on w) = false →
     ∀ p ∈ floatTable w,
       noTrap g (x.on w) (fun l => (perElem w.fmt (fun F => p.2 F (Rm.ofCode w.mod)) (a l) (b l) (c l)).fl) →
       exec p.1 s = .next (x.wrote s w g (fun l => perElem w.fmt (fun F => p.2 F (Rm.ofCode w.mod)) (a l) (b l) (c l)))) ∧
  (∀ (w : Lane) (s : State) (x : Issue) (a b c : Nat → Word32) (g : Group), LaneReady w s x a b c g →
     g.pendingIn (x.dst w) (x.on w) = false →
     ∀ p ∈ moveTable w, noTrap g (x.on w) (fun l => (p.2 (a l) (b l) (c l)).fl) →
       exec p.1 s = .next (x.wrote s w g (fun l => p.2 (a l) (b l) (c l))))

/-- 05 R137, 03 R88: what wrapping and saturating give: a value of the type's range, congruent to the exact result, or the
nearest end of the range; and a result that is read again as an operand of its type is the value it holds. -/
def Obligations.IntegerResultsStayInRange : Prop :=
  ∀ (f : Fmt) (v : Int),
    intMin f ≤ wrapInt f v ∧ wrapInt f v ≤ intMax f ∧ (2 ^ intWidth f : Int) ∣ (v - wrapInt f v) ∧
    (intMin f ≤ v ∧ v ≤ intMax f → satInt f v = v ∧ wrapInt f v = v ∧ readInt f (widen v) = v) ∧
    (v < intMin f → satInt f v = intMin f) ∧ (intMax f < v → satInt f v = intMax f)

/-- 04 R110, R123: a result read back. The destination holds the result, full, in each lane that the word acted in; every other
lane and register keeps what it held, and the lanes' raised conditions are ORed into their flags (03 R93). -/
def Obligations.ResultsStandInTheirDestination : Prop :=
  ∀ (x : Issue) (s : State) (w : Lane) (g : Group) (r : Nat → FRes), ∃ g' : Group, (x.wrote s w g r).group x.gid = some g' ∧
    (∀ k l, l < 64 →
      g'.getV k l = (if g.destOf x.en.wbase w.dst = .v k ∧ inMask (x.on w) l then (r l).val else g.getV k l) ∧
      g'.vState k l = (if g.destOf x.en.wbase w.dst = .v k ∧ inMask (x.on w) l then .full else g.vState k l) ∧
      g'.getT k l = (if g.destOf x.en.wbase w.dst = .t k ∧ inMask (x.on w) l then (r l).val else g.getT k l) ∧
      g'.tState k l = (if g.destOf x.en.wbase w.dst = .t k ∧ inMask (x.on w) l then .full else g.tState k l)) ∧
    (∀ l, l < 64 → g'.fpFlagsOf l = if inMask (x.on w) l then g.fpFlagsOf l ||| (r l).fl else g.fpFlagsOf l) ∧
    g'.s = g.s ∧ g'.sst = g.sst ∧ g'.p = g.p ∧ g'.k = g.k ∧ g'.fpEnable = g.fpEnable ∧ g'.oq = g.oq ∧ g'.rspb = g.rspb

/-- 04 R110, 02 R66: P7 and K0 read 1 whatever is written to them; a write to another predicate changes the lanes of its mask
alone, and no other predicate. -/
def Obligations.HardWiredPredicatesReadOne : Prop :=
  ∀ (g : Group) (n : Nat) (m v : LaneMask) (b : Bool),
    (g.putP n m v).getP 7 = BitVec.allOnes 64 ∧ (g.putK n b).getK 0 = true ∧
    (n ≠ 7 → (g.putP n m v).getP n = (g.getP n &&& ~~~m) ||| (v &&& m)) ∧ (∀ k, k ≠ n → (g.putP n m v).getP k = g.getP k) ∧
    (0 < n → n < 4 → (g.putK n b).getK n = b) ∧ (∀ k, k < 4 → k ≠ n → n < 4 → (g.putK n b).getK k = g.getK k) ∧
    g.putP 7 m v = g ∧ g.putK 0 b = g

/-- 05 R143, R144, R149, R156; 04 R112, R113: the compares, the predicate instructions, SEL, PGET, STOV and SRD complete and write
what they find in the active lanes. -/
def Obligations.PredicateAndSelectWordsWriteTheirTable : Prop :=
  (∀ (w : Lane) (s : State) (x : Issue),
     (∀ a b c g, LaneReady w s x a b c g →
       exec (.pset w) s = .next (x.wroteP s w g (fun l => (decide (a l ≠ 0), 0))) ∧
       (w.mod.toNat < 6 → ∃ v : Nat → Bool, exec (.cmp w) s = .next (x.wroteP s w g (fun l => (v l, 0))) ∧
         ∀ l, v l = true ↔ holds w.mod.toNat (readInt w.fmt (a l)) (readInt w.fmt (b l))) ∧
       (noTrap g (x.on w) (fun l => (fcmp (ffOf w.fmt) w.mod.toNat (a l) (b l)).2) →
         exec (.cmpFloat w) s = .next (x.wroteP s w g (fun l => fcmp (ffOf w.fmt) w.mod.toNat (a l) (b l))))) ∧
     (BareReady w.gp w.neg s x → ∀ p ∈ predicateTable w, exec p.1 s =
       .next (x.wroteP s w x.g (fun l => (p.2 (inMask (x.g.predSrc w.sa) l) (inMask (x.g.predSrc w.sb) l), 0))))) ∧
  (∀ (w : Lane) (s : State) (x : Issue),
     (∀ a b c g, LaneReady w s x a b c g → g.pendingIn (x.dst w) (x.on w) = false →
       exec (.sel w) s = .next (x.wrote s w g (fun l =>
         ⟨if inMask (x.g.getP (w.xop.toNat % 8)) l then a l else b l, 0⟩)) ∧
       (∀ n, w.sa = .s n → exec (.stov w) s = .next (x.wrote s w g (fun _ =>
         ⟨(x.g.getS n.toNat).extractLsb' (if w.xop.getLsbD 0 then 32 else 0) 32, 0⟩)))) ∧
     (BareReady w.gp w.neg s x → x.g.pendingIn (x.dst w) (x.on w) = false →
       exec (.pget w) s = .next (x.wrote s w x.g (fun l => ⟨if inMask (x.g.predSrc w.sa) l then 1 else 0, 0⟩)) ∧
       (∀ p ∈ specialTable s x, w.imm.toNat % 64 = p.1 → exec (.srd w) s = .next (x.wrote s w x.g (fun l =>
         ⟨(p.2 l).extractLsb' (if w.imm.getLsbD 8 then 32 else 0) 32, 0⟩)))))

/-- 05 R157-R161: SHFL, VBALLOT and VMATCH complete, and read and write the active lanes of the issuing split alone; VTOS writes an
S register from the lowest active lane, which alone must be full. -/
def Obligations.CrossLaneWordsWriteTheirTable : Prop :=
  (∀ (w : Lane) (s : State) (x : Issue) (a b c : Nat → Word32) (g : Group), LaneReady w s x a b c g →
     (∃ mask : LaneMask, (∀ l, l < 64 → mask.getLsbD l = (inMask (x.on w) l && decide (a l ≠ 0))) ∧
       ((∀ n, w.dst = .s n → g.sState n.toNat ≠ .pending) →
         exec (.vballotS w) s = .next (x.wroteS s w g mask noFlags)) ∧
       (g.pendingIn (x.dst w) (x.on w) = false → exec (.vballotV w) s = .next (x.wrote s w g (fun _ =>
         ⟨mask.extractLsb' (if w.xop.getLsbD 0 then 32 else 0) 32, 0⟩)))) ∧
     (g.pendingIn (x.dst w) (x.on w) = false →
       (∃ v : Nat → Word32, exec (.shfl w) s = .next (x.wrote s w g (fun l => ⟨v l, 0⟩)) ∧
         ∀ l, l < 64 → v l = shflValue (x.on w) (w.xop.toNat % 4) a b l) ∧
       (∃ v : Nat → Word32, exec (.vmatch w) s = .next (x.wrote s w g (fun l => ⟨v l, 0⟩)) ∧
         ∀ l, l < 64 → let k := matchMask w.fmt (x.on w) a l
           (w.xop.toNat % 4 = 0 → v l = BitVec.ofNat 32 (lowLane k)) ∧ (w.xop.toNat % 4 = 1 → v l = BitVec.ofNat 32 (popLanes k)) ∧
           (w.xop.toNat % 4 = 2 → v l = k.extractLsb' 0 32) ∧ (w.xop.toNat % 4 = 3 → v l = k.extractLsb' 32 32)))) ∧
  (∀ (w : Lane) (s : State) (x : Issue) (a b c : Nat → Word32) (g : Group), BareReady w.gp w.neg s x →
     s.fetchLane x w (laneBit (lowLane (x.on w))) = .ok a b c g none →
     (∀ n, w.dst = .s n → g.sState n.toNat ≠ .pending) →
     let l0 := lowLane (x.on w)
     exec (.vtosB32 w) s = .next (x.wroteS s w g (BitVec.ofNat 64 ((a l0).toNat + 2 ^ 32 * (b l0).toNat)) noFlags) ∧
     exec (.vtosN32 w) s = .next (x.wroteS s w g (BitVec.ofNat 64 (a l0).toNat) noFlags) ∧
     exec (.vtosS32 w) s = .next (x.wroteS s w g (BitVec.ofInt 64 (a l0).toInt) noFlags))

/-- 05 R162-R164: VREDUCE and VSCAN over the active lanes in ascending order; a condition of any step performed is raised in
every active lane. -/
def Obligations.ReductionsAndScansFollowLaneOrder : Prop :=
  ∀ (w : Lane) (s : State) (x : Issue) (a b c : Nat → Word32) (g : Group), LaneReady w s x a b c g →
    reductionForm w →
    let r := reduceValue w ((maskLanes (x.on w)).map a)
    (∀ n, w.dst = .s n → g.sState n.toNat ≠ .pending → noTrap g (x.on w) (fun _ => r.fl) →
      exec (.vreduce w) s = .next (x.wroteS s w g (if w.fmt = .s32 then r.val.signExtend 64 else r.val.setWidth 64)
        (fun _ => r.fl))) ∧
    ((∀ n, w.dst ≠ .s n) → g.pendingIn (x.dst w) (x.on w) = false →
      (noTrap g (x.on w) (fun _ => r.fl) → exec (.vreduce w) s = .next (x.wrote s w g (fun _ => r))) ∧
      (noTrap g (x.on w) (fun l => (scanValue w (x.on w) a l).fl) →
        exec (.vscan w) s = .next (x.wrote s w g (scanValue w (x.on w) a))))

/-- 04 R113, R117, R127: EMPTY and FILL complete once no fill of the register is pending in an active lane, and change nothing but
its bits in those lanes. SWR completes with the register's new value; a requested window base that leaves the register stack traps
ILLOPND with sub-cause 1 and writes nothing. -/
def Obligations.RegisterBitWordsWriteTheirTable : Prop :=
  (∀ (w : Lane) (s : State) (x : Issue) (n : BitVec 8), BareReady w.gp w.neg s x → w.dst = .v n →
     x.g.pendingIn (x.dst w) (x.on w) = false →
     ∀ p ∈ [(Instr.empty w, Fullness.empty), (.fill w, .full)], ∃ g' : Group, exec p.1 s = .next (x.done s g') ∧
       g' = { x.g with vst := g'.vst } ∧
       ∀ k l, l < 64 → g'.vState k l =
         if k = x.g.slotOf x.en.wbase n.toNat ∧ inMask (x.on w) l then p.2 else x.g.vState k l) ∧
  (∀ (w : Lane) (s : State) (x : Issue) (a b c : Nat → Word32) (g : Group),
     LaneReady { w with sb := .zero, sc := .zero } s x a b c g →
     let l0 := lowLane (x.on w)
     (w.imm.toNat % 64 = 0x00 → ∃ g' : Group, exec (.swr w) s = .next (x.done s g') ∧ g' = { g with fpFlags := g'.fpFlags } ∧
       ∀ l, l < 64 → g'.fpFlagsOf l = if inMask (x.on w) l then (a l).setWidth 5 else g.fpFlagsOf l) ∧
     (w.imm.toNat % 64 = 0x01 → ∃ g' : Group, exec (.swr w) s = .next (x.done s g') ∧ g' = { g with fpEnable := g'.fpEnable } ∧
       ∀ l, l < 64 → g'.fpEnableOf l = if inMask (x.on w) l then (a l).setWidth 5 else g.fpEnableOf l) ∧
     (w.imm.toNat % 64 = 0x02 → exec (.swr w) s = .next (x.done s { g with mxFlags := (a l0).setWidth 5 })) ∧
     (w.imm.toNat % 64 = 0x12 →
       let v : Word64 := if w.imm.getLsbD 8 then (g.rspb &&& 0xFFFFFFFF) ||| ((a l0).setWidth 64 <<< 32)
         else (g.rspb &&& 0xFFFFFFFF00000000) ||| (a l0).setWidth 64
       exec (.swr w) s = .next (x.done s { g with rspb := v })) ∧
     (w.imm.toNat % 64 = 0x10 →
       let b' := (a l0).toNat / 8 % 8192 * 8
       (b' + g.w ≤ 65536 → exec (.swr w) s = .next (x.done s (g.updEntry x.e (fun en => { en with reqBase := some b' })))) ∧
       (65536 < b' + g.w → exec (.swr w) s = .next (s.trapPrecise x.gid x.e (x.trapRec .illopnd 1 (x.on w))))))

/-- 02 R60: with no active lane, a word of these classes completes and changes nothing but the run position. -/
def Obligations.NoActiveLaneChangesNothing : Prop :=
  ∀ (w : Lane) (s : State) (x : Issue), s.issuer = some x → x.commitWait = false → x.on w = 0 →
    ∀ i ∈ .swr w :: aluWords w, exec i s = .next (x.done s x.g)

/-- 04 R125, 20 R423: a source that is empty under EP block holds the split: nothing changes. Under EP trap, before the commit point,
the word traps EMPTYREAD: nothing is written, and the record gives the run PC, the position and the lanes.
03 R93, 01 R38: an enabled condition before the commit point traps FP, with no result and no flag written in any lane; at or after
it every lane writes its result and sets its conditions, and the trap is noted for the run's completion with its lanes and flags. -/
def Obligations.SourcesAndConditionsTrapAsSaid : Prop :=
  (∀ (w : Lane) (s : State) (x : Issue), BareReady w.gp w.neg s x → ∀ i ∈ sourceWords w,
     (s.fetchLane x w (x.on w) = .hold → exec i s = .next s) ∧
     (∀ t, s.fetchLane x w (x.on w) = .trap t →
       exec i s = .next (s.trapPrecise x.gid x.e (TrapRec.of .emptyRead 0 t x.en.pc (x.en.runpos + 1) x.e)))) ∧
  (∀ (w : Lane) (s : State) (x : Issue) (a b c : Nat → Word32) (g : Group), LaneReady w s x a b c g →
     ∀ p ∈ floatTable w,
       let r l := perElem w.fmt (fun F => p.2 F (Rm.ofCode w.mod)) (a l) (b l) (c l)
       let t := g.fpTrap (x.on w) (fun l => (r l).fl)
       t.1 ≠ 0 →
       (x.en.afterCommit = false → exec p.1 s = .next (s.trapPrecise x.gid x.e
         { TrapRec.of .fp 0 t.1 x.en.pc (x.en.runpos + 1) x.e with flags := t.2 })) ∧
       (x.en.afterCommit = true → g.pendingIn (x.dst w) (x.on w) = false → exec p.1 s = .next (x.done s
         (((g.writeDst x.en.wbase w.dst (x.on w) (fun l => (r l).val)).raise (x.on w) (fun l => (r l).fl)).notePost x.e
           ⟨.fp, x.en.runpos + 1, t.1, t.2⟩))))


/-- 20 R420, R421, R423, R426: what a precise trap leaves. The split is trapped with its record, its run abandoned at the same
PC with its lanes, and the group's registers as they were; the firmware is sent one notice, unless the group is killed. -/
def Obligations.PreciseTrapSavesItsRecord : Prop :=
  ∀ (s : State) (gid e : Nat) (r : TrapRec) (g : Group) (en : Entry), s.group gid = some g → g.entry e = some en →
    ∃ (g' : Group) (en' : Entry), (s.trapPrecise gid e r).group gid = some g' ∧ g'.entry e = some en' ∧
      en'.st = .trapped ∧ en'.trapRec = some r ∧ en'.pc = en.pc ∧ en'.mask = en.mask ∧ en'.runpos = 0 ∧ en'.run = [] ∧
      en'.wbase = en.wbase ∧ en'.doneIx = en.doneIx ∧ en'.done = en.done ∧
      g'.v = g.v ∧ g'.s = g.s ∧ g'.p = g.p ∧ g'.t = g.t ∧ g'.fpFlags = g.fpFlags ∧ g'.apc = g.apc ∧
      (∀ n, n ≠ e → g'.entry n = g.entry n) ∧ (∀ k, k ≠ gid → (s.trapPrecise gid e r).group k = s.group k) ∧
      (s.trapPrecise gid e r).notices = (if g.killed then s.notices else s.notices ++ [⟨gid, some e⟩]) ∧
      (s.trapPrecise gid e r).mem = s.mem

/-- The frame of these lane words: whatever state follows, every byte of memory, every other group, every team, launch, queue
and tree is as it was; of the issuing group, a V or T register changes only in the active lanes of the word's destination, an S
register or predicate only where the word's destination names it, and FPFLAGS only by a word that raises conditions or by SWR. -/
def Obligations.LaneWordsChangeTheirGroupAlone : Prop :=
  ∀ (w : Lane) (s t : State), ∀ i ∈ .swr w :: aluWords w, exec i s = .next t →
    (∀ pa, t.byteAt pa = s.byteAt pa) ∧ t.teams = s.teams ∧ t.launches = s.launches ∧ t.queues = s.queues ∧
    t.trees = s.trees ∧ t.parts = s.parts ∧ t.macs = s.macs ∧ t.tiles = s.tiles ∧ t.outbox = s.outbox ∧
    ∃ x, s.issuer = some x ∧ (∀ k, k ≠ x.gid → t.group k = s.group k) ∧
      (∀ n, n ∉ s.notices → n ∈ t.notices → n.gid = x.gid) ∧
      ∀ g', t.group x.gid = some g' →
        (∀ k l, l < 64 → ¬(x.dst w = .v k ∧ inMask (x.on w) l) → g'.getV k l = x.g.getV k l) ∧
        (∀ k l, l < 64 → ¬(x.dst w = .t k ∧ inMask (x.on w) l) → g'.getT k l = x.g.getT k l) ∧
        (∀ n, w.dst ≠ .s n → g'.getS n.toNat = x.g.getS n.toNat) ∧
        (∀ k, (∀ n, w.dst = .v n → n.toNat ≠ k) → g'.getP k = x.g.getP k) ∧
        (i ∉ raisingWords w → ∀ l, l < 64 → g'.fpFlagsOf l = x.g.fpFlagsOf l) ∧
        (i ≠ .swr w → g'.fpEnable = x.g.fpEnable ∧ g'.mxFlags = x.g.mxFlags ∧ g'.rspb = x.g.rspb) ∧
        g'.tag = x.g.tag ∧ g'.k = x.g.k ∧ g'.apc = x.g.apc ∧ g'.aTrap = x.g.aTrap ∧ g'.ops = x.g.ops ∧ g'.accs = x.g.accs ∧
        g'.stack = x.g.stack ∧ g'.left = x.g.left

/-- 13 R304, R305, R311, R318: a memory word whose due lanes' addresses are aligned and reach no departed member issues: VM rises by
one, each due lane's access is sent with the lane's address, and the destination's fill is pending in those lanes. Addresses that
are not multiples of the access size trap ALIGN, which is tested before RIDGEGONE; both are precise, name the bad lanes and the
lowest one's address, and no lane's access is made. With no lane due nothing happens. -/
def Obligations.MemoryWordsSendTheirAccesses : Prop :=
  (∀ (w : Lane) (s : State) (x : Issue) (off data cmp : Nat → Word32) (g : Group), ∀ p ∈ memoryTable w,
     MemReady w s x p.2.2.1 off data cmp g →
     (∀ l, l < 64 → inMask (x.due w) l → (laneAddr w g off l).toNat % p.2.1 = 0 ∧ s.ridgeGone g (laneAddr w g off l) = false) →
     g.count .vm ≠ 63 → g.pendingIn (x.dst w) (x.due w) = false →
     ∃ (g' : Group) (new : List LaneAcc), exec p.1 s = .next { x.done s g' with nextId := s.nextId + 1 } ∧
       g'.accs = g.accs ++ new ∧
       new.map LaneAcc.says = (maskLanes (x.due w)).map (fun l => (l, laneAddr w g off l, p.2.1,
         p.2.2.2 (x.dst w) ((data l).setWidth 64) ((cmp l).setWidth 64), (Kind.ofXop w.xop).getD .weak,
         (Scope.ofCode w.mod).getD .split, w.xop.getLsbD 3, .issued)) ∧
       (∀ a ∈ new, a.op = s.nextId ∧ a.entry = x.e ∧ a.po = x.en.mask) ∧
       g'.count .vm = g.count .vm + 1 ∧
       (∀ k l, l < 64 →
         g'.vState k l = (if x.dst w = .v k ∧ inMask (x.due w) l then .pending else g.vState k l) ∧
         g'.tState k l = (if x.dst w = .t k ∧ inMask (x.due w) l then .pending else g.tState k l)) ∧
       g'.v = g.v ∧ g'.t = g.t ∧ g'.s = g.s ∧ g'.p = g.p) ∧
  (∀ (w : Lane) (s : State) (x : Issue), ∀ p ∈ memoryTable w,
     (∀ off data cmp g, MemReady w s x p.2.2.1 off data cmp g →
       let addr := laneAddr w g off
       let bad := maskOf (fun l => inMask (x.due w) l && decide ((addr l).toNat % p.2.1 ≠ 0))
       let gone := maskOf (fun l => inMask (x.due w) l && s.ridgeGone g (addr l))
       (bad ≠ 0 → exec p.1 s = .next (s.trapPrecise x.gid x.e { TrapRec.of .align 0 bad x.en.pc (x.en.runpos + 1) x.e with
         addr := (addr (lowLane bad)).setWidth 57 })) ∧
       (bad = 0 → gone ≠ 0 → exec p.1 s = .next (s.trapPrecise x.gid x.e
         { TrapRec.of .ridgeGone 0 gone x.en.pc (x.en.runpos + 1) x.e with addr := (addr (lowLane gone)).setWidth 57 }))) ∧
     (s.issuer = some x → x.commitWait = false → x.due w = 0 → exec p.1 s = .next (x.done s x.g)))

/-- 07 R191, R192: a control word completes at issue whatever its guard: it leaves its transfer, with its active lanes, for the run's
completion, and changes no PC and no mask. JMPI and CALLI read a 32-bit offset by lane, relative to the instruction, and leave the
sets of lanes with equal targets. -/
def Obligations.ControlWordsLeaveTheirTransfer : Prop :=
  (∀ (j : Jump) (w : Lane) (s : State) (x : Issue), s.issuer = some x → x.commitWait = false →
     ∀ p ∈ controlTable j w x.pc,
       let m := x.active p.2.2.1 p.2.1
       let left : Xfer := { kind := p.2.2.2.1, active := m, parts := if m = 0 then [] else [(m, p.2.2.2.2.1)], indirect := false,
                            rc := p.2.2.2.2.2.1, num := p.2.2.2.2.2.2, at' := x.pc }
       exec p.1 s = .next (x.done s (x.g.updEntry x.e (fun en => { en with xfer := some left })))) ∧
  (∀ (j : Jump) (w : Lane) (s : State) (x : Issue),
     ∀ p ∈ [(Instr.jmpi j, j.neg, j.gp, j.dst, XferKind.jump, x.rejoin j.rejoin), (.calli w, w.neg, w.gp, w.dst, .call, none)],
       let m := x.active p.2.2.1 p.2.1
       BareReady p.2.2.1 p.2.1 s x → ∀ v b c g, s.fetch x 0 ⟨p.2.2.2.1, false, m⟩ ⟨.zero, false, m⟩ ⟨.zero, false, m⟩ = .ok v b c g none →
         ∃ parts : List (LaneMask × VAddr),
           let left : Xfer := { kind := p.2.2.2.2.1, active := m, parts := parts, indirect := true, rc := p.2.2.2.2.2, num := 0,
                                at' := x.pc }
           exec p.1 s = .next (x.done s (g.updEntry x.e (fun en => { en with xfer := some left }))) ∧
           (parts.map Prod.snd).Nodup ∧
           (∀ l, l < 64 → inMask m l → ∃ q ∈ parts, inMask q.1 l) ∧
           ∀ q ∈ parts, ∀ l, l < 64 → (inMask q.1 l ↔ inMask m l ∧ q.2 = x.pc.signExtend 64 + (v l).signExtend 64))

/-- 15 R342, R343: a matrix word that is not linked is queued for its quarter: MX rises by one and the operation stands with its
operands. 09 R228, R237; 11 R274, R277: a word of class TR whose addresses pass its checks issues: TR rises by one, the
destination's fill is pending in the active lanes, and the operation stands for its unit with the word's operands. TRTAG also
writes the group's tag at issue; a value above 32 bits writes nothing. -/
def Obligations.UnitWordsQueueTheirOperation : Prop :=
  (∀ (w : Lane) (s : State) (x : Issue) (a b c : Nat → Word32) (g : Group), LaneReady w s x a b c g →
     g.count .mx ≠ 63 → w.imm.getLsbD 29 = false → ∀ p ∈ matrixTable w, mxAddrOk s x w p.2 (g.uniform w.sa) →
       ∃ op : MxOp, exec p.1 s = .next { x.done s (g.issueOp s.nextId .mx x.e x.en.pos (x.on w)) with
           nextId := s.nextId + 1, mxOps := s.mxOps ++ [op] } ∧
         op.id = s.nextId ∧ op.gid = x.gid ∧ op.kind = p.2 ∧ op.fmt = w.fmt ∧ op.rows = x.on w ∧ op.addr = g.uniform w.sa ∧
         op.desc = g.uniform w.sb ∧ op.ti = w.imm.toNat % 8 ∧ op.mj = w.imm.toNat / 16 % 8 ∧
         op.n = 2 ^ (w.imm.toNat / 256 % 4) ∧ op.slot = w.imm.toNat / 65536 % 64 ∧ op.stage = .queued ∧ op.bar = none) ∧
  ((∀ (w : Lane) (s : State) (x : Issue) (a b c : Nat → Word32) (g : Group) (y : Actx), LaneReady w s x a b c g →
      s.actx x.gid = some y → g.count .tr ≠ 63 → g.pendingIn (g.destOf x.en.wbase w.dst) (x.on w) = false →
      ∀ p ∈ treeTable w,
        let op := treeOpOf s x w y g p.2.1 p.2.2.1 p.2.2.2.2 b c
        treeAddrOk s y op →
        ∃ g' : Group, exec p.1 s = .next { x.done s g' with nextId := s.nextId + 1, treeOps := s.treeOps ++ [op] } ∧
          g'.count .tr = g.count .tr + 1 ∧
          (∀ k l, l < 64 → g'.vState k l =
            if g.destOf x.en.wbase w.dst = .v k ∧ inMask (x.on w) l then .pending else g.vState k l) ∧
          (∀ n, n ≠ x.e → g'.entry n = g.entry n) ∧ g'.v = g.v ∧ g'.s = g.s ∧ g'.accs = g.accs ∧
          (p.2.2.2.1 = true → ∀ en', g'.entry x.e = some en' → s.nextId ∈ en'.holds)) ∧
   (∀ (w : Lane) (s : State) (x : Issue) (a b c : Nat → Word32) (g : Group) (y : Actx), LaneReady w s x a b c g →
      s.actx x.gid = some y → g.count .tr ≠ 63 → g.pendingIn (g.destOf x.en.wbase w.dst) (x.on w) = false →
      ∃ (t : State) (g' : Group), exec (.trtag w) s = .next t ∧ t.group x.gid = some g' ∧ g'.count .tr = g.count .tr + 1 ∧
        ((x.g.uniform w.sa).toNat < 2 ^ 32 → g'.tag = (x.g.uniform w.sa).setWidth 32) ∧
        (2 ^ 32 ≤ (x.g.uniform w.sa).toNat → g'.tag = g.tag)))


/-- 14 R325, 19 R406, R409-R411, 12 R298: the synchronisation words complete when what they wait for has come. -/
def Obligations.SynchronisationWordsComplete : Prop :=
  ∀ (w : Lane) (s : State) (x : Issue), BareReady w.gp w.neg s x →
    let before := x.g.earlier (some x.en.mask)
    let k := w.imm.toNat % 32
    (fenceClear s x.gid x.g before (decide (w.xop.toNat % 4 ≠ 0)) ((Scope.ofCode w.mod).getD .split) →
      let sc := (Scope.ofCode w.mod).getD .split
      let s1 := if w.xop.toNat % 4 = 0 then s else s.releaseAct x.g sc
      exec (.fence w) s = .next (x.done
        (if w.xop.toNat % 4 = 1 then s1 else s1.acquireAct ((s1.launchOf x.gid).getD 0) x.g sc) x.g)) ∧
    ((∃ a ∈ before, w.xop.toNat % 4 ≠ 0) → exec (.fence w) s = .next s) ∧
    (∀ c, Cls.ofCode w.xop = some c → exec (.waitc w) s =
      .next (if x.g.count c ≤ w.imm.toNat % 64 then x.done s x.g else s)) ∧
    (∀ t, s.team x.g.tid = some t → fenceClear s x.gid x.g before true .team →
      let s1 := s.releaseAct x.g .team
      let r := s1.barArrive x.g.tid k (w.imm.toNat / 256 % 2048)
      s1.barRoom x.g.tid t k = true →
      exec (.barSync w) s = .next (x.done r.1 (x.g.updEntry x.e (fun en =>
        { en with barWait := en.barWait ++ [⟨k, (r.2 + 1) % 65536⟩] }))) ∧
      exec (.barArrive w) s = .next (x.done r.1 x.g)) ∧
    (∀ t, s.team x.g.tid = some t → exec (.barWait w) s = .next (x.done s (x.g.updEntry x.e (fun en =>
      { en with barWait := en.barWait ++ [⟨k, ((s.barRec x.g.tid t k).phase + 1) % 65536⟩] })))) ∧
    (∃ t, exec (.ridgeDetach w) s = .next t ∧ ∃ g' : Group, t.group x.gid = some g' ∧ g'.detached = true)

/-- 06 R166, R168-R172: an arithmetic access word whose sources are full completes: it writes its table's result into its destination,
and the program goes on behind it. CMP and the K operations write their K register; a write to K0 is discarded. -/
def Obligations.AccessArithmeticWritesItsTable : Prop :=
  (∀ (s : State) (gid : Nat) (g : Group) (d a b : SReg) (i : BitVec 10) (n : BitVec 18),
     (AccessReady s gid g [a, b] [d] → ∀ p ∈ accessTable d a b,
       exec p.1 s = .next (s.accessNext gid (g.writeS d (p.2 (g.readS a) (g.readS b))))) ∧
     (AccessReady s gid g [a] [d] → ∀ p ∈ immediateTable d a i,
       exec p.1 s = .next (s.accessNext gid (g.writeS d (p.2 (g.readS a))))) ∧
     (AccessReady s gid g [] [d] → exec (.movi d n) s = .next (s.accessNext gid (g.writeS d (BitVec.ofInt 64 n.toInt)))) ∧
     (AccessReady s gid g [d] [d] → exec (.exti d n) s =
       .next (s.accessNext gid (g.writeS d (BitVec.ofNat 64 ((g.readS d).toNat * 2 ^ 18 + n.toNat)))))) ∧
  (∀ (s : State) (gid : Nat) (g : Group) (c : BitVec 2) (d a b : SReg),
     (AccessReady s gid g [a, b] [] → ∃ r : Bool, exec (.accessCmp c d a b) s = .next (s.accessNext gid (g.putK (d.toNat % 4) r)) ∧
       (r = true ↔ (c = 0 ∧ g.readS a = g.readS b) ∨ (c = 1 ∧ g.readS a ≠ g.readS b) ∨
         (c = 2 ∧ (g.readS a).toInt < (g.readS b).toInt) ∨ (c = 3 ∧ (g.readS a).toNat < (g.readS b).toNat))) ∧
     (AccessReady s gid g [] [] → ∀ p ∈ kTable d a b, exec p.1 s =
       .next (s.accessNext gid (g.putK (d.toNat % 4) (p.2 (g.getK (a.toNat % 4)) (g.getK (b.toNat % 4)))))))

/-- 02 R70, 06 R166, 04 R123, R126: reading an S register back after an access write; code 0xFF reads 0 and discards writes; and
a word whose source is empty, or whose destination waits for a fill, does not issue. -/
def Obligations.AccessRegistersReadBack : Prop :=
  (∀ (g : Group) (d r : SReg) (v : Word64),
    (g.writeS d v).readS r = (if r = 0xFF then 0 else if r = d then v else g.readS r) ∧
    (d ≠ 0xFF → (g.writeS d v).fullS d = true) ∧ (r ≠ d → (g.writeS d v).fullS r = g.fullS r) ∧
    g.writeS 0xFF v = g ∧ g.readS 0xFF = 0) ∧
  (∀ (s : State) (gid : Nat) (g : Group), ∃ g' : Group, (s.accessNext gid g).group gid = some g' ∧ g'.apc = g.apc + 4 ∧ g'.s = g.s ∧
    g'.sst = g.sst ∧ g'.k = g.k ∧ g'.v = g.v ∧ g'.table = g.table ∧ (∀ k, k ≠ gid → (s.accessNext gid g).group k = s.group k)) ∧
  (∀ (s : State) (gid : Nat) (g : Group) (d a b : SReg), s.accessIssuer = some (gid, g) →
    (g.fullS a = false ∨ g.fullS b = false ∨ g.busyS d = true) → ∀ p ∈ accessTable d a b, exec p.1 s = .next s)

/-- 06 R173-R175: a memory word at an aligned address starts its access, which the program then waits for; at another address it
stops the program with ALIGN and its address, and no access is made. -/
def Obligations.AccessMemoryWordsStartTheirAccess : Prop :=
  ∀ (s : State) (gid : Nat) (g : Group) (d a : SReg) (i : BitVec 10) (k : BitVec 2) (sc : Scope) (n : BitVec 4),
    ∀ p ∈ accessMemoryTable d a i k sc n g, AccessReady s gid g (a :: p.2.1) p.2.2.1 →
      let addr : VAddr := BitVec.ofInt 64 ((g.readS a).toNat + p.2.2.2.1)
      (addr.toNat % p.2.2.2.2.1 = 0 → ∃ (t : State) (g' : Group) (acc : LaneAcc), exec p.1 s = .next t ∧ t.group gid = some g' ∧ g'.accs = g.accs ++ [acc] ∧
        acc.says = (0, addr, p.2.2.2.2.1, p.2.2.2.2.2.2.2, p.2.2.2.2.2.1, p.2.2.2.2.2.2.1, false, .issued) ∧
        acc.stream = .access ∧ acc.pc = g.apc ∧ acc.op = s.nextId ∧ g'.aLoad = some s.nextId ∧ t.nextId = s.nextId + 1 ∧
        g'.apc = g.apc ∧ g'.s = g.s ∧ g'.sst = g.sst ∧ g'.ops = g.ops ∧ ∀ pa, t.byteAt pa = s.byteAt pa) ∧
      (addr.toNat % p.2.2.2.2.1 ≠ 0 → exec p.1 s = .next (s.accessTrap gid g .align addr 0 false))

/-- 06 R176-R180, 20 R429: branches, jumps and links, HALT and NOP. A taken link writes the next word's address into S191. TRAP and
BKPT stop the program with their cause and code, to go on with the next word; the record gives the word's address with ACC 1. -/
def Obligations.AccessControlWordsMoveTheProgram : Prop :=
  (∀ (s : State) (gid : Nat) (g : Group) (k : BitVec 2) (n : Bool) (o : BitVec 23) (a : SReg), s.accessIssuer = some (gid, g) →
     let taken : Bool := xor (g.getK k.toNat) n
     let link : Word64 := BitVec.ofNat 64 (g.apc + 4).toNat
     let t := g.readS a
     exec (.br k n o) s = .next (if taken then s.accessJump gid g (branchTarget g o) else s.accessNext gid g) ∧
     (taken = false → exec (.calla k n o) s = .next (s.accessNext gid g)) ∧
     (taken = true → g.busyS 191 = false →
       exec (.calla k n o) s = .next (s.accessJump gid (g.putS 191 link) (branchTarget g o))) ∧
     (g.fullS a = true → t.toNat % 4 = 0 → canonical t = true →
       exec (.jr a) s = .next (s.accessJump gid g (t.setWidth 57)) ∧
       (g.busyS 191 = false → exec (.jrl a) s = .next (s.accessJump gid (g.putS 191 link) (t.setWidth 57)))) ∧
     (g.fullS a = true → t.toNat % 4 ≠ 0 →
       exec (.jr a) s = .next (s.accessTrap gid g .align t 0 false) ∧
       (g.busyS 191 = false → exec (.jrl a) s = .next (s.accessTrap gid g .align t 0 false))) ∧
     exec .halt s = .next (s.accessNext gid { g with aHalted := true }) ∧
     exec .accessNop s = .next (s.accessNext gid g)) ∧
  (∀ (s : State) (gid : Nat) (g : Group) (c : BitVec 10), s.accessIssuer = some (gid, g) → g.gstop = false →
     ∀ p ∈ [(Instr.accessTrap c, Cause.trap), (.accessBkpt c, .bkpt)], ∃ (t : State) (g' : Group) (r : TrapRec), exec p.1 s = .next t ∧
       t.group gid = some g' ∧ g'.aStopped = true ∧ g'.aTrap = some r ∧ g'.aNext = true ∧ g'.apc = g.apc ∧ r.cause = p.2 ∧
       r.code.toNat = c.toNat ∧ r.acc = true ∧ r.pc = g.apc ∧ g'.s = g.s ∧ g'.k = g.k ∧ g'.table = g.table)

/-- 06 R181, R182: SRD, SWR, SETE and SETF. -/
def Obligations.AccessSpecialWordsWriteTheirTable : Prop :=
  ∀ (s : State) (gid : Nat) (g : Group) (d : SReg),
    (AccessReady s gid g [] [d] → ∀ p ∈ [((0x02 : BitVec 6), g.mxFlags.setWidth 64),
        (0x03, if rd false s.narrow g.quarterId then 1 else 0), (0x11, BitVec.ofNat 64 g.w), (0x12, g.rspb)],
      exec (.accessSrd d p.1) s = .next (s.accessNext gid (g.writeS d p.2))) ∧
    (AccessReady s gid g [d] [] →
      exec (.accessSwr d 0x02) s = .next (s.accessNext gid { g with mxFlags := (g.readS d).setWidth 5 }) ∧
      exec (.accessSwr d 0x12) s = .next (s.accessNext gid { g with rspb := g.readS d })) ∧
    (AccessReady s gid g [] [d] → d ≠ 0xFF →
      exec (.sete d) s = .next (s.accessNext gid (g.setSState d.toNat .empty)) ∧
      exec (.setf d) s = .next (s.accessNext gid (g.setSState d.toNat .full)) ∧
      (g.setSState d.toNat .empty).fullS d = false ∧ (g.setSState d.toNat .full).fullS d = true ∧
      (g.setSState d.toNat .empty).readS d = g.readS d)

/-- 14 R326, 19 R406, R409-R411: the synchronisation words of the access program complete when what they wait for has come. -/
def Obligations.AccessSynchronisationCompletes : Prop :=
  ∀ (s : State) (gid : Nat) (g : Group) (kind : FenceKind) (sc : Scope) (n : BitVec 6) (c : Cls) (k : BitVec 5) (a : SReg),
    s.accessIssuer = some (gid, g) →
    let before := g.earlier none
    (fenceClear s gid g before (decide (kind ≠ .acquire)) sc →
      let s1 := if kind = .acquire then s else s.releaseAct g sc
      exec (.accessFence kind sc) s = .next ((if kind = .release then s1
        else s1.acquireAct ((s1.launchOf gid).getD 0) g sc).accessNext gid g)) ∧
    exec (.accessWaitc n c) s = .next (if g.count c ≤ n.toNat then s.accessNext gid g else s) ∧
    (∀ t, s.team g.tid = some t → fenceClear s gid g before true .team → g.fullS a = true → (g.readS a).toNat ≤ 1024 →
      let s1 := s.releaseAct g .team
      let r := s1.barArrive g.tid k.toNat (g.readS a).toNat
      s1.barRoom g.tid t k.toNat = true →
      exec (.accessBarArrive k a) s = .next (r.1.accessNext gid g) ∧
      (g.aBar = none → exec (.accessBarSync k a) s =
        .next (r.1.updGroup gid (fun g => { g with aBar := some ⟨k.toNat, (r.2 + 1) % 65536⟩ })))) ∧
    (∀ w, g.aBar = some w → s.barsDone g [w] = true →
      let t := (s.acquireAct ((s.launchOf gid).getD 0) g .team).accessNext gid { g with aBar := none }
      exec (.accessBarWait k) s = .next t ∧ (g.fullS a = true → exec (.accessBarSync k a) s = .next t)) ∧
    (∀ t, g.aBar = none → s.team g.tid = some t → exec (.accessBarWait k) s = .next (s.setGroup gid
      { g with aBar := some ⟨k.toNat, ((s.barRec g.tid t k.toNat).phase + 1) % 65536⟩ }))

/-- 06 R183-R185, 17 R372, R376: AGSET, AGGO, AGHALT and QPUT complete; an engine command that its engine accepts issues in one step:
its counter rises, its token is empty with a fill pending, and the engine holds a copy of the descriptor. -/
def Obligations.EngineWordsComplete : Prop :=
  (∀ (s : State) (gid : Nat) (g : Group) (z q x : BitVec 2) (t a : SReg),
     (EngineReady s gid g 0xFF a 2 none → (g.ageOf x.toNat).busy = false →
       ∃ (u : State) (g' : Group), exec (.agset z q x a) s = .next u ∧ u.group gid = some g' ∧ g'.apc = g.apc + 4 ∧
         (g'.ageOf x.toNat).st = .set ∧ (g'.ageOf x.toNat).base = (g.readS a).toNat % 2 ^ 57 ∧
         (g'.ageOf x.toNat).len = (g.readS (a + 1)).toNat % 2 ^ 40 ∧ (g'.ageOf x.toNat).size = z.toNat ∧
         (g'.ageOf x.toNat).queue = q.toNat ∧ ∀ y, y ≠ x.toNat → g'.ageOf y = g.ageOf y) ∧
     (EngineReady s gid g t 0xFF 0 none → (g.ageOf x.toNat).busy = false →
       ∃ (u : State) (g' : Group), exec (.aggo t x) s = .next u ∧ u.group gid = some g' ∧ g'.apc = g.apc + 4 ∧
         (g'.ageOf x.toNat).st = .run ∧ (g'.ageOf x.toNat).next = 0 ∧ (g'.ageOf x.toNat).token = t ∧
         (t ≠ 0xFF → g'.sState t.toNat = .pending)) ∧
     (s.accessIssuer = some (gid, g) → ∃ (u : State) (g' : Group), exec (.aghalt x) s = .next u ∧ u.group gid = some g' ∧ g'.apc = g.apc + 4 ∧
       (g'.ageOf x.toNat).halt = (if (g.ageOf x.toNat).st = .run then true else (g.ageOf x.toNat).halt)) ∧
     (AccessReady s gid g [a] [] → (g.queue q.toNat).length < 16 →
       exec (.qputRegister q a) s =
         .next (s.accessNext gid (g.enqueue q.toNat (List.replicate 64 ((g.readS a).setWidth 32)))) ∧
       (∀ g0 tm l, s.where' gid = some (g0, tm, l) → s.team g.tid = some tm → (g.readS a).toNat % 256 = 0 →
         scratchBase ≤ (g.readS a).toNat → (g.readS a).toNat + 256 ≤ scratchBase + scratchSize l → g.earlier none = [] →
         ∃ vals, exec (.qputMemory q a) s = .next (s.accessNext gid (g.enqueue q.toNat vals)) ∧ vals.length = 64 ∧
           ∀ lane, lane < 64 → vals[lane]? = some (BitVec.ofNat 32 (ofBytes ((List.range 4).map (fun i =>
             rd 0 tm.scratch ((g.readS a).toNat - scratchBase + 4 * lane + i)))))))) ∧
  (∀ (s : State) (gid : Nat) (g : Group) (t a : SReg) (bf16 priv : Bool) (slot : BitVec 6),
     (EngineReady s gid g t a 8 (some .cp) → ∃ (u : State) (o : CpOp), exec (.cpnd t a) s = .next u ∧ u.cpOps = s.cpOps ++ [o] ∧
       o.id = s.nextId ∧ o.gid = gid ∧ o.token = t ∧ o.desc = descriptorOf g a 8 ∧ o.written = 0 ∧
       u.group gid = some (g.commanded s.nextId t (some .cp)) ∧ u.nextId = s.nextId + 1) ∧
     (EngineReady s gid g t a 4 (some .cl) →
       ∀ p ∈ [(Instr.collAllReduce t a bf16, 0), (.collReduceScatter t a bf16, 1), (.collAllGather t a bf16, 2)],
         ∃ (u : State) (o : CollOp), exec p.1 s = .next u ∧ u.collOps = s.collOps ++ [o] ∧ o.id = s.nextId ∧ o.gid = gid ∧ o.token = t ∧ o.op = p.2 ∧
           o.bf16 = bf16 ∧ o.n = (g.readS (a + 2)).toNat % 2 ^ 32 ∧ o.m = (g.readS (a + 2)).toNat / 2 ^ 32 % 1024 ∧
           o.cid = (g.readS (a + 2)).toNat / 2 ^ 48 ∧
           u.group gid = some (g.commanded s.nextId t (some .cl)) ∧ u.nextId = s.nextId + 1) ∧
     (∀ p ∈ [(Instr.txtok t priv a, 4, TextKind.txtok priv), (.txdet t a, 4, .txdet), (.txload t a, 2, .txload),
         (.mbpost t a, 2, .mbpost)], EngineReady s gid g t a p.2.1 (some .tr) → (p.2.2 = .mbpost → s.mailUsed g.die < 256) →
         ∃ (u : State) (o : TextOp), exec p.1 s = .next u ∧ u.textOps = s.textOps ++ [o] ∧ o.id = s.nextId ∧ o.gid = gid ∧ o.token = t ∧
           o.kind = p.2.2 ∧ o.desc = descriptorOf g a p.2.1 ∧ o.die = g.die ∧
           u.group gid = some (g.commanded s.nextId t (some .tr)) ∧ u.nextId = s.nextId + 1) ∧
     (EngineReady s gid g t a 1 (some .mx) → ∃ (u : State) (o : DlOp), exec (.dload t slot a) s = .next u ∧ u.dlOps = s.dlOps ++ [o] ∧
       o.id = s.nextId ∧ o.gid = gid ∧ o.token = t ∧ o.addr = g.readS a ∧ o.slot = slot.toNat ∧
       u.group gid = some (g.commanded s.nextId t (some .mx)) ∧ u.nextId = s.nextId + 1))


/-- The frame of the register, branch and special words of the access program: whatever state follows, every byte of memory,
every other group, every team, launch and queue is as it was, and of the issuing group the lanes' registers, the split table and
every S register but the destination and the link S191 are as they were. -/
def Obligations.AccessWordsChangeTheirGroupAlone : Prop :=
  ∀ (s t : State) (d a b : SReg) (i : BitVec 10) (n : BitVec 18) (k : BitVec 2) (neg : Bool) (o : BitVec 23) (r : BitVec 6),
    ∀ x ∈ (accessTable d a b).map Prod.fst ++ (immediateTable d a i).map Prod.fst ++ (kTable d a b).map Prod.fst ++
      [.movi d n, .exti d n, .accessCmp k d a b, .br k neg o, .calla k neg o, .jr a, .jrl a, .halt, .accessNop, .accessSrd d r,
       .accessSwr d r, .sete d, .setf d],
    exec x s = .next t →
    (∀ pa, t.byteAt pa = s.byteAt pa) ∧ t.teams = s.teams ∧ t.launches = s.launches ∧ t.queues = s.queues ∧ t.trees = s.trees ∧
    ∃ gid, (∀ y, y ≠ gid → t.group y = s.group y) ∧ ∀ g g', s.group gid = some g → t.group gid = some g' →
      g'.v = g.v ∧ g'.vst = g.vst ∧ g'.t = g.t ∧ g'.p = g.p ∧ g'.table = g.table ∧ g'.stack = g.stack ∧ g'.oq = g.oq ∧
      g'.fpFlags = g.fpFlags ∧ g'.accs = g.accs ∧ g'.ops = g.ops ∧
      ∀ c : SReg, c ≠ d → c ≠ 191 → g'.readS c = g.readS c ∧ g'.fullS c = g.fullS c

/-- 16 R365, R366: a drain word of a running drain completes: it writes its D register, ORs its conditions into the drain's flags,
and goes to the next word; the element, the tiles and memory stay. -/
def Obligations.DrainWordsWriteTheirTable : Prop :=
  ∀ (s : State) (x : Drain) (op : MxOp) (g : Group) (d : BitVec 2) (a b f : BitVec 3), s.drainIssuer = some (x, op, g) →
    ∀ p ∈ drainTable d a b f, ∃ (t : State) (x' : Drain), exec p.1 s = .next t ∧ t = { s with drains := put s.drains op.id x' } ∧
      x'.get d = (p.2 x).val ∧ (∀ n, n ≠ d → x'.get n = x.get n) ∧ x'.flags = x.flags ||| (p.2 x).fl ∧ x'.word = x.word + 1 ∧
      x'.row = x.row ∧ x'.col = x.col ∧ x'.image = x.image ∧ x'.hold = x.hold

/-- 16 R364, R365, R367, R368, R370: END goes to the next column, else to the next row of the operation, else it ends the drain; an
element begins with its tile value in D0, +0 in D1-D3, at word 0. STORE writes its converted element at its stream's address
through translation; STOREB holds values until its block's last column. A page of the wrong format or a fault stops the drain. -/
def Obligations.DrainEndAndStoresWalkTheTiles : Prop :=
  (∀ (s : State) (x : Drain) (op : MxOp) (g : Group), s.drainIssuer = some (x, op, g) →
     let nextRow := (maskLanes op.rows).filter (fun r => decide (x.row < r))
     let begins (row col : Nat) : Prop := ∃ x' : Drain, exec .drainEnd s = .next { s with drains := put s.drains op.id x' } ∧
       x'.row = row ∧ x'.col = col ∧ x'.word = 0 ∧ x'.d1 = 0 ∧ x'.d2 = 0 ∧ x'.d3 = 0 ∧
       (op.fmt ≠ .s8 → x'.d0 = s.tileAt g.quarterId (op.ti + col / 128) row (col % 128) ∧ x'.flags = x.flags)
     (x.col + 1 < 128 * op.n → begins x.row (x.col + 1)) ∧
     (128 * op.n ≤ x.col + 1 → ∀ r rest, nextRow = r :: rest → begins r 0) ∧
     (128 * op.n ≤ x.col + 1 → nextRow = [] → exec .drainEnd s = .next (s.endDrain op x.flags))) ∧
  (∀ (s : State) (x : Drain) (op : MxOp) (g : Group) (y : Actx) (st : BitVec 1) (a f : BitVec 3),
     s.drainIssuer = some (x, op, g) → s.actx op.gid = some y →
     let size := storeSize f.toNat
     let va := x.outAddr st (x.col * size)
     (s.formatCheck y .write va 0 = none → ∀ u u' ms, s.engWrite y va (toBytes (storeValue f (x.src a)).1 size) = .ok u u' ms →
       ∃ x' : Drain, exec (.drainStore st a f) s =
           .next { u.memError (u.launchOf op.gid) ms with drains := put (u.memError (u.launchOf op.gid) ms).drains op.id x' } ∧
         x'.word = x.word + 1 ∧ x'.flags = x.flags ||| (storeValue f (x.src a)).2 ∧ x'.col = x.col ∧ x'.row = x.row) ∧
     (∀ e, s.formatCheck y .write va 0 = some e → exec (.drainStore st a f) s = .next (s.drainFault op x x.col e)) ∧
     (x.col % 32 ≠ 31 → ∃ x' : Drain, exec (.drainStoreb st a f) s = .next { s with drains := put s.drains op.id x' } ∧
       x'.word = x.word + 1 ∧ x'.flags = x.flags ∧ x'.hold = put x.hold (32 * x.word + x.col % 32) (x.src a)))

/-- 02 R53-R76, R78 and the worked words of other chapters: each of these words decodes to the instruction that the spec says it
is, and that instruction's encoding is the word. -/
def Obligations.WorkedWordsDecodeAsTheSpecSays : Prop :=
  (∀ p ∈ specLaneWords, decodeLane 256 p.2.lastBit p.1 = .ok p.2 ∧ encodeLane p.2 = p.1) ∧
  (∀ p ∈ specAccessWords, decodeAccess p.1 = .ok p.2 ∧ encodeAccess p.2 = p.1) ∧
  (∀ p ∈ specDrainWords, decodeDrain p.1 = .ok p.2 ∧ encodeDrain p.2 = p.1)

/-- 02 R53-R67, R78: every well-formed lane instruction, with every operand at every value that the encoding admits, is what its
word decodes to, for every window size. -/
def Obligations.LaneEncodingsReadBack : Prop :=
  ∀ (w : Nat) (i : Instr), i.origin = .lane → i.laneWellFormed w = true → decodeLane w i.lastBit (encodeLane i) = .ok i

/-- 02 R69-R74, R76, 16 R366: the same for access and drain instructions. -/
def Obligations.AccessAndDrainEncodingsReadBack : Prop :=
  ∀ i : Instr, (i.origin = .access → i.accessWellFormed = true → decodeAccess (encodeAccess i) = .ok i) ∧
    (i.origin = .drain → i.drainWellFormed = true → decodeDrain (encodeDrain i) = .ok i)

/-- 02 R55-R67, R71, R74, R77: no word outside the encodings decodes: a word that decodes is the encoding of the instruction it
decodes to, and that instruction is well-formed, so every reserved code and every bit that must be zero is tested. A control word
whose LAST is 0 decodes at a position before a run's end only to be refused there (R78 step 2). -/
def Obligations.OnlyEncodingsDecode : Prop :=
  (∀ w last x i, decodeLane w last x = .ok i → (i.isControl = true → last = true) →
    i.origin = .lane ∧ i.laneWellFormed w = true ∧ i.lastBit = last ∧ encodeLane i = x) ∧
  (∀ x i, decodeAccess x = .ok i → i.origin = .access ∧ i.accessWellFormed = true ∧ encodeAccess i = x) ∧
  (∀ x i, decodeDrain x = .ok i → i.origin = .drain ∧ i.drainWellFormed = true ∧ encodeDrain i = x)

/-- 01 R31, 02 R72: a step runs the decoded instruction. When the agent that moves next is a split, an access program or a drain
that stands at a word, and the word decodes, the step is the meaning of that instruction in the state with the agent in focus; an
access word that does not decode stops the program with ILLOP or ILLOPND; an event's step is its meaning. -/
def Obligations.StepRunsTheDecodedInstruction : Prop :=
  ∀ (s : State),
    let a := s.choose.1
    let s1 : State := { s.choose.2 with focus := a }
    (∀ gid e x i, a = .lane gid e → s1.issuer = some x →
      decodeLane x.g.w (decide (x.en.pos = x.en.len)) (x.en.run.getD x.en.runpos 0) = .ok i → step s = exec i s1) ∧
    (∀ gid g y s2 x, a = .access gid → s1.group gid = some g → s1.actx gid = some y → g.accessLive = true →
      s1.accessWordAt y (g.apc.signExtend 64).toNat = .ok s2 x →
      (∀ i, decodeAccess x = .ok i → step s = exec i s2) ∧
      (∀ r, decodeAccess x = .error r → step s =
        .next (s2.trapAccess gid (TrapRec.of (if r.isOperand then .illopnd else .illop) 0 0 g.apc 0 0) false))) ∧
    (∀ op d o g i, a = .drain op → s1.drainLive op = some (d, o, g) → decodeDrain (d.image.getD d.word 0) = .ok i →
      step s = exec i s1) ∧
    (∀ i, a = .event i → i.origin = .event → step s = exec i s1) ∧
    (∀ b r, s.agenda = b :: r → s.choose = (b, { s with tick := s.tick + 1, agenda := r }))

/-- 21 R456, R449, R458, R459; 08 R218; 09 R222; 20 R432: after reset, before PERST# is released, nothing is resident, no queue
exists, every page is in device bias, every partition is CONFIG_UNLOCKED without a key and with HLOG 28, and both dies are at OP0
with PLIM 800 and no alarm. That memory reads 0 is the model's choice (log 4). -/
def Obligations.ResetLeavesNothingResident : Prop :=
  Memory.wf State.reset.mem ∧ State.reset.stage = .off ∧ State.reset.power = .ps0 ∧ State.reset.rseq = 0 ∧
  State.reset.faultQ = [] ∧
  ∀ n : Nat, State.reset.group n = none ∧ State.reset.team n = none ∧ State.reset.launch n = none ∧
    State.reset.queue n = none ∧ look State.reset.bias n = none ∧ look State.reset.trees n = none ∧
    (State.reset.part n).tdisp = .unlocked ∧ (State.reset.part n).keyLoaded = false ∧ (State.reset.part n).hlog = 28 ∧
    (State.reset.die n).point = 0 ∧ (State.reset.die n).plim = 800 ∧ (State.reset.die n).alarm = false ∧
    (State.reset.port n).up = true ∧ State.reset.byteAt n = 0

/-- 01 R30, 04 R110, R111, 06 R187, 07 R188: what a group finds at its start: the launch's arguments in S0 onward, every other
register at its reset value and full, temporaries and operand queues empty, one split of all 64 lanes at its stage's entry, and
its access program at its own, halted where the entry is 0. -/
def Obligations.GroupsStartAtTheirResetValues : Prop :=
  ∀ (tid ix stage die core quarter slot born : Nat) (l : Launch),
    let g := Group.start tid ix stage die core quarter slot l born
    (∀ k, g.getS k = (l.params.args[k]?).getD 0 ∧ g.sState k = .full) ∧
    (∀ k lane, lane < 64 → g.getV k lane = 0 ∧ g.vState k lane = .full ∧ g.tState k lane = .empty) ∧
    (∀ k, k < 7 → g.getP k = 0) ∧ g.getP 7 = BitVec.allOnes 64 ∧ g.getK 0 = true ∧ (∀ k, 0 < k → k < 4 → g.getK k = false) ∧
    (∀ lane, lane < 64 → g.fpFlagsOf lane = 0 ∧ g.fpEnableOf lane = 0) ∧ g.mxFlags = 0 ∧ g.rspb = 0 ∧ g.tag = 0 ∧
    (∀ q, g.queue q = []) ∧ g.ops = [] ∧ g.accs = [] ∧ g.stack = [] ∧ g.left = 0 ∧
    (∃ en, g.table = [(0, en)] ∧ en.mask = BitVec.allOnes 64 ∧ en.st = .ready ∧ en.wbase = 0 ∧ en.rpc = 0 ∧ en.parent = .none ∧
      en.pc = ((l.params.laneEntry[stage]?).getD 0).setWidth 57) ∧
    g.apc = ((l.params.accessEntry[stage]?).getD 0).setWidth 57 ∧
    (g.aHalted = true ↔ (l.params.accessEntry[stage]?).getD 0 = 0) ∧ g.aStopped = false

/-- The memory keeps its canonical form: whatever agent moves, whatever it does (12 R284: one byte at each address; log 4). -/
def Obligations.StepsKeepTheMemoryForm : Prop :=
  ∀ s s' : State, Memory.wf s.mem → step s = .next s' → Memory.wf s'.mem

/-- No word, event or input stops the machine while its stream stands at a word: a meaning answers a next state. -/
def Obligations.NoStepStops : Prop := ∀ s : State, ∃ s' : State, step s = .next s'

/-- 18 R394, R395: a packet of bad form stops its queue with BADPKT, and one whose addresses leave their capability with CAPFLT,
whichever event consumes it; a doorbell sets WIDX, and stops a running queue with RINGBAD when more packets than its ring holds
are pending. -/
def Obligations.BadPacketsStopTheirQueue : Prop :=
  ∀ (s : State) (q : Nat) (x : Queue),
    (∀ s1 p, PacketReady s q x s1 p → ∀ i ∈ packetEvents q,
      (badPacket p = true → exec i s = s1.failOut s q x errBADPKT true)) ∧
    (∀ s1 p, PacketReady s q x s1 p → badPacket p = false → capsOk x.cfg p = false →
      (pktType p = 1 → exec (.dispatch q) s = s1.failOut s q x errCAPFLT true) ∧
      (pktType p = 2 → exec (.prologue q) s = s1.failOut s q x errCAPFLT true) ∧
      (pktType p = 3 → ∀ f ∈ cmaintTable q, bits p 11 8 = f.1 → exec f.2 s = s1.failOut s q x errCAPFLT true) ∧
      (pktType p = 4 → exec (.waitev q) s = s1.failOut s q x errCAPFLT true) ∧
      (pktType p = 5 → exec (if bit p 8 then .signalAdd q else .signalWrite q) s = s1.failOut s q x errCAPFLT true)) ∧
    (∀ widx : BitVec 32, s.queue q = some x →
      let t := s.updQueue q (fun y => { y with widx := widx })
      ((widx - x.ridx).toNat ≤ 2 ^ x.cfg.rlog ∨ x.st ≠ .run → exec (.doorbell q widx) s = .next t) ∧
      ((widx - x.ridx).toNat > 2 ^ x.cfg.rlog → x.st = .run →
        exec (.doorbell q widx) s = .next ((t.failPacket q { x with widx := widx } errRINGBAD false).getD t)))

/-- 18 R395, R397-R401: good packets are consumed. NOP only advances RIDX; DISPATCH reads its descriptor and launches; PROLOGUE
copies its template into the window; CMAINT holds its range; WAITEV compares and waits or makes its acquire; SIGNAL waits for the
launches before it. -/
def Obligations.PacketsAreConsumed : Prop :=
  ∀ (s : State) (q : Nat) (x : Queue) (s1 : State) (p : Nat), PacketReady s q x s1 p → badPacket p = false →
    capsOk x.cfg p = true →
    let va := BitVec.ofNat 64 (pktA p)
    let scope := (pktScope p).getD .system
    (pktType p = 0 → exec (.packetNop q) s = .next (s1.consumed q)) ∧
    (pktType p = 1 → ∀ s2 head s3 args, s1.feReads x.ctx 24 va = .ok s2 head →
      capCovers x.cfg.dcap (pktA p) (192 + 8 * descArgs head) = true → s2.feReads x.ctx (descArgs head) (va + 192) = .ok s3 args →
      let d := descParams (head ++ args)
      d.laneEntry.any (s3.entryHeld x.ctx) = false →
      exec (.dispatch q) s = .next ((s3.launchWith q x 0 d (s3.launchError x.ctx d)).consumed q)) ∧
    (pktType p = 2 → ∀ s2 bs, s1.feReads x.ctx 88 va = .ok s2 bs → exec (.prologue q) s = .next (s2.updQueue q (fun y => { y with
      busy := .prologue (BitVec.ofNat 64 (pktB p)) (BitVec.ofNat 64 (pktC p)) (bs ++ List.replicate 320 0) 0 }))) ∧
    (pktType p = 3 → ∀ f ∈ cmaintTable q, bits p 11 8 = f.1 →
      let found := (rangePages (pktA p) (pktB p)).map (s1.cmaintPage x.ctx)
      let pages := found.map (fun o => match o with
        | some y => if f.1 = 6 ∧ y.2 ≠ 2 then hbmEnd else y.1
        | none => hbmEnd)
      let flip : Prop := f.1 = 4 ∨ f.1 = 5
      (f.1 ≠ 2 → none ∈ found → exec f.2 s = s1.failOut s q x errBADPKT true) ∧
      (¬flip → (f.1 = 2 ∨ none ∉ found) → exec f.2 s = .next (s1.updQueue q (fun y => { y with
        busy := .cmaint f.1 (pktA p) (pktA p + pktB p) pages }))) ∧
      (flip → none ∉ found → (∀ y, some y ∈ found → localHbm y.1 = true) → exec f.2 s = .next ((s1.updQueue q (fun y => { y with
        busy := .cmaint f.1 0 0 pages })).startFlip q)) ∧
      (flip → (∃ y, some y ∈ found ∧ localHbm y.1 = false) → exec f.2 s = s1.failOut s q x errBADPKT true)) ∧
    (pktType p = 4 → ∀ s2 bs, s1.feRead x.ctx va 8 = .ok s2 bs →
      (pktB p ≤ ofBytes bs → exec (.waitev q) s = .next (((s2.frontAcquire scope).consumed q).ringTest q)) ∧
      (ofBytes bs < pktB p → exec (.waitev q) s = .next (s2.updQueue q (fun y => { y with
        st := .wait, busy := .waitev va (pktB p) scope })))) ∧
    (pktType p = 5 → ∀ add : Bool, bit p 8 = add → exec (if add then .signalAdd q else .signalWrite q) s =
      .next (s1.updQueue q (fun y => { y with busy := .signal add va (BitVec.ofNat 64 (pktB p)) scope })))

/-- 01 R52, 18 R398, R402: a launch takes its queue's next SEQ. With an error it is ended, places no team and carries the error in
its summary; without one its teams, X × Y × Z of them, wait to be placed. Consumption advances RIDX and frees the queue. -/
def Obligations.LaunchesTakeTheirQueuesNextNumber : Prop :=
  ∀ (s : State) (q : Nat) (x : Queue) (pass : Nat) (p : LaunchParams) (e : Option Nat), s.queue q = some x →
    ∃ (t : State) (l : Launch) (y : Queue), t = (s.launchWith q x pass p e).consumed q ∧ t.launch s.nextId = some l ∧
      t.queue q = some y ∧ l.seq = x.seq.toNat ∧ l.queue = q ∧ l.ridx = x.ridx.toNat ∧ l.pass = pass ∧ l.prio = x.cfg.prio ∧
      l.fserv = x.cfg.fserv ∧ l.part = x.cfg.part ∧ l.root = x.cfg.root ∧ l.params = p ∧ l.nextTeam = 0 ∧
      y.seq = x.seq + 1 ∧ y.ridx = x.ridx + 1 ∧ y.busy = .none ∧ y.widx = x.widx ∧ y.cfg = x.cfg ∧ t.nextId = s.nextId + 1 ∧
      (∀ n, n ≠ s.nextId → t.launch n = s.launch n) ∧ (∀ n, n ≠ q → t.queue n = s.queue n) ∧
      (e = none → l.ended = false ∧ l.teamsLeft = p.x * p.y * p.z ∧ l.errsum = 0) ∧
      (∀ b, e = some b → l.ended = true ∧ l.teamsLeft = 0 ∧ l.errsum = 1#64 <<< b ∧ t.placeable s.nextId l = false)

/-- 18 R399-R401, 01 R52, 19 R415, 24 R473: what a packet that takes several steps goes on with: a prologue's pass launches its
window or ends the packet; a CMAINT's work, a signal's release and an event's next read end it; the completion record is written
once everything of the launch has completed. -/
def Obligations.LongPacketsComplete : Prop :=
  ∀ (s : State) (q : Nat) (x : Queue), s.queue q = some x →
    (∀ entry arg win pass, x.busy = .prologue entry arg win pass → x.st = .run → s.stage = .ready →
      let r := Pass.run x.ctx x.cfg.xcap 4096 ⟨s.frontAcquire .system, passGroup entry arg pass, win⟩
      (r = .stop → exec (.prologuePass q) s = .next ((s.launchWith q x pass noParams (some errPROLOGUEBAD)).consumed q)) ∧
      (∀ e, r = .halt e →
        let s1 : State := { e.s with groups := s.groups, focus := s.focus }
        (e.g.getK 1 = true →
          exec (.prologuePass q) s = .next ((s1.launchWith q x pass noParams (some errCANCELLED)).consumed q)) ∧
        (∀ s2, e.g.getK 1 = false → s1.launchBytes q x pass e.win = some s2 →
          (e.g.getK 2 = true → pass < 255 → exec (.prologuePass q) s =
            .next (s2.updQueue q (fun y => { y with busy := .prologue entry arg e.win (pass + 1) }))) ∧
          (e.g.getK 2 = false ∨ 255 ≤ pass → exec (.prologuePass q) s = .next (s2.consumed q))))) ∧
    (∀ form lo hi pages, x.busy = .cmaint form lo hi pages →
      (form ∈ [0, 1, 2, 3, 6] → exec (.cmaintCompletion q) s = .next ((s.maintain x form lo hi pages).consumed q)) ∧
      (form ∈ [4, 5] → exec (.cmaintCompletion q) s = .next (s.startFlip q))) ∧
    (∀ va target sc s2 bs, x.busy = .waitev va target sc → x.st = .wait → s.stage = .ready → s.feRead x.ctx va 8 = .ok s2 bs →
      (target ≤ ofBytes bs → exec (.waitevReread q) s = .next (((s2.frontAcquire sc).consumed q).ringTest q)) ∧
      (ofBytes bs < target → exec (.waitevReread q) s = .next (s2.updQueue q (fun y => { y with
        st := .wait, busy := .waitev va target sc })))) ∧
    (∀ add va val sc, x.busy = .signal add va val sc → s.stage = .ready →
      ((∃ l ∈ s.launches, l.2.ofQueue q = true) → exec (.signalRelease q) s = .next s) ∧
      ((∀ l ∈ s.launches, l.2.ofQueue q = false) → ∀ s2 t, s.frontRelease.translate x.ctx .rmw false va = .ok (s2, t) →
        s2.placeHeld t.place = false → (∀ chip tg, t.place ≠ .remote chip tg) → s2.statusOf t.place t.key = .ok →
        let old := BitVec.ofNat 64 (ofBytes ((List.range 8).map (s2.placeByte x.ctx (.strong .system) t.place t.key)))
        exec (.signalRelease q) s = .next ((s2.storeFrom x.ctx (.strong .system) t.place t.key 0
          (toBytes (if add then old + val else val).toNat 8)).consumed q))) ∧
    (∀ lid l s2, s.launch lid = some l → l.queue = q → l.complete = true → l.ref.home = Config.chip.toNat →
      (∀ c ∈ s.wc, ∀ w ∈ c.2, ∀ g ∈ w.writers, g ∉ s.groupsOf lid) →
      (∀ r ∈ s.reqs, match r.2.who with
        | .drain _ ws => ∀ g ∈ ws, g ∉ s.groupsOf lid
        | .acc g _ _ => g ∉ s.groupsOf lid) →
      s.frontRelease.queue q = some x → s.frontRelease.writeRecord q x l.seq l.record = some s2 →
      exec (.completionRecordWrite lid) s = .next (s2.dropLaunch lid))

/-- 01 R40-R42, R44: a team whose cores have room starts there, with all its groups, each on the core and quarter of its index;
first a lower-numbered operating point is awaited; a ridge launch's placement is reserved and its members are asked. -/
def Obligations.TeamsArePlacedWhole : Prop :=
  (∀ (s : State) (lid die : Nat) (l : Launch) (cores : List Nat), PlacementReady s lid l die cores → (s.die die).moving = none →
    let p := s.pointOf die l
    ((s.die die).point ≤ p → l.isRidge = false → ∃ (t : State) (tm : Team) (l' : Launch),
      exec (.teamPlacement lid die cores) s = .next t ∧ t.team s.nextId = some tm ∧ tm.launch = lid ∧ tm.pos = l.nextTeam ∧
      tm.die = die ∧ tm.cores = cores ∧ tm.live = LaunchParams.groups l.params ∧
      t.launch lid = some l' ∧ l'.nextTeam = l.nextTeam + 1 ∧ l'.teamsLeft = l.teamsLeft ∧
      ∀ ix, ix < LaunchParams.groups l.params → ∃ g : Group, t.group (s.nextId + 1 + ix) = some g ∧ g.tid = s.nextId ∧
        g.ix = ix ∧ g.die = die ∧ g.core = cores[ix / groupsPerCore l.params.w]?.getD 0 ∧
        g.quarter = ix % groupsPerCore l.params.w % 4 ∧ g.slot < 8 ∧ g.w = l.params.w ∧ g.retired = false) ∧
    (p < (s.die die).point →
      exec (.teamPlacement lid die cores) s = .next (s.updDie die (fun d => { d with moving := some p }))) ∧
    ((s.die die).point ≤ p → l.isRidge = true → ∃ (t : State) (l' : Launch),
      exec (.teamPlacement lid die cores) s = .next t ∧ t.launch lid = some l' ∧ l'.reserved = some (die, cores) ∧
      l'.nextTeam = l.nextTeam ∧ t.groups = s.groups ∧ t.teams = s.teams ∧
      ∀ m, 0 < m → m < l.params.width → l.member = 0 → OutMsg.ridge l.ref l.nextTeam m ridgePLACE ∈ t.outbox)) ∧
  (∀ (s : State) (d q : Nat), d < 2 → (s.die d).moving = some q → ∃ t : State, exec (.opChangeSettled d) s = .next t ∧
    (t.die d).point = q ∧ (t.die d).moving = none ∧ ∀ d', d' ≠ d → t.die d' = s.die d')

/-- 01 R50, R51, 12 R299, 17 R375, 19 R414: a group whose lanes have left and whose counters are zero retires; its slot and window
are free and its queues empty, and its flags go to its launch. When it was its team's last one and no other member holds the
team, the team retires, and its values go into the launch's totals. -/
def Obligations.GroupsAndTeamsRetire : Prop :=
  ∀ (s : State) (gid : Nat) (g : Group) (tm : Team) (l : Launch), s.group gid = some g → s.team g.tid = some tm →
    s.launch tm.launch = some l → g.lanesGone = true → g.retired = false → g.saved = false → g.ops = [] → g.accs = [] →
    tm.retired = false → tm.others = [] → tm.saved = false →
    ∃ (t : State) (g' : Group) (tm' : Team) (l' : Launch), exec (.groupRetire gid) s = .next t ∧ t.group gid = some g' ∧
      g'.retired = true ∧ g'.resident = false ∧ g'.oq = [] ∧ g'.table = [] ∧ g'.ix = g.ix ∧
      (∀ k, k ≠ gid → t.group k = s.group k) ∧
      t.team g.tid = some tm' ∧ tm'.live = tm.live - 1 ∧
      tm'.killed = tm.killed + (if g.killed ∨ g.handled then 1 else 0) ∧
      t.launch tm.launch = some l' ∧ l'.ieee = l.ieee ||| g.ieee ∧
      (1 < tm.live → tm'.retired = false ∧ l'.teamsLeft = l.teamsLeft ∧ l'.tot = l.tot) ∧
      (tm.live = 1 → tm'.retired = true ∧ l'.teamsLeft = l.teamsLeft - 1 ∧
        l'.tot.statusMax = max l.tot.statusMax tm.statusMax ∧
        l'.tot.nonZero = (l.tot.nonZero + tm.nonZero) % 2 ^ 64 ∧
        l'.tot.killed = (l.tot.killed + tm'.killed) % 2 ^ 64)

/-- 01 R42, R43, 12 R298-R300: what other members of a ridge launch say. Parameters start the launch at a member, or are refused
for want of a root; replies start or release a reservation; totals are added once; a detached, departed or acknowledging member
is noted; a pre-empted or resumed member takes this device's team with it. -/
def Obligations.RidgeMembersKeepInStep : Prop :=
  (∀ (s : State) (p : RidgeParams), s.stage = .ready → 0 < p.member → p.member < p.params.width →
    (∀ l ∈ s.launches, l.2.ref ≠ p.launch) →
    ((s.part p.part).ridgeRoot = none →
      exec (.ridgeLaunchParameters p) s = .next (s.emit (.ridge p.launch 0 p.member ridgeREFUSED))) ∧
    (∀ root, (s.part p.part).ridgeRoot = some root → ∃ (t : State) (l : Launch),
      exec (.ridgeLaunchParameters p) s = .next t ∧ t.launch s.nextId = some l ∧ l.root = root ∧ l.params = p.params ∧
      l.member = p.member ∧ l.ref = p.launch ∧ l.prio = p.prio ∧ l.fserv = p.fserv ∧ l.part = p.part)) ∧
  (∀ (s : State) (lid : Nat) (l : Launch) (m : Nat), s.launch lid = some l → l.isRidge = true → m < l.params.width →
    (l.member = 0 → 0 < m → m ∉ l.memberTotals → ∀ v : Totals, ∃ (t : State) (l' : Launch),
      exec (.ridgeMemberTotals lid m v) s = .next t ∧ t.launch lid = some l' ∧ l'.memberTotals = l.memberTotals ++ [m] ∧
      l'.tot.statusMax = max l.tot.statusMax v.statusMax ∧ l'.tot.nonZero = (l.tot.nonZero + v.nonZero) % 2 ^ 64 ∧
      l'.tot.killed = (l.tot.killed + v.killed) % 2 ^ 64 ∧ l'.tot.faults = min (l.tot.faults + v.faults) 0xFFFFFFFF) ∧
    (l.waits = true → m ≠ l.member → ∀ die cores, l.reserved = some (die, cores) →
      (l.member ≠ 0 → m = 0 → exec (.ridgePlacementReply lid l.nextTeam m true) s = .next (s.startTeam lid l die cores)) ∧
      (l.member = 0 → m ∉ l.replies → l.replies.length + 1 ≠ l.params.width - 1 → exec (.ridgePlacementReply lid l.nextTeam m true) s =
        .next (s.updLaunch lid (fun y => { y with replies := l.replies ++ [m] }))) ∧
      (l.member = 0 → m ∉ l.replies → l.replies.length + 1 = l.params.width - 1 → ∃ t : State,
        exec (.ridgePlacementReply lid l.nextTeam m true) s = .next t ∧ t.teams = (s.startTeam lid l die cores).teams ∧
        t.groups = (s.startTeam lid l die cores).groups ∧
        ∀ k, 0 < k → k < l.params.width → OutMsg.ridge l.ref l.nextTeam k ridgeSTART ∈ t.outbox) ∧
      (l.member = 0 ∨ m = 0 → ∃ (t : State) (l' : Launch), exec (.ridgePlacementReply lid l.nextTeam m false) s = .next t ∧
        t.launch lid = some l' ∧ l'.reserved = none ∧ l'.nextTeam = l.nextTeam ∧ t.teams = s.teams ∧ t.groups = s.groups))) ∧
  (∀ (s : State) (lid pos m tid : Nat) (tm : Team) (l : Launch), s.teamAt lid pos = some (tid, tm) → s.team tid = some tm →
    s.launch lid = some l →
    (0 < tm.live → (∀ v, look tm.others m = some v → ∃ (t : State) (tm' : Team), exec (.ridgeDetachNotice lid pos m) s = .next t ∧
        t.team tid = some tm' ∧ look tm'.others m = some (if v = .live then .detached else v) ∧
        (∀ k, k ≠ m → look tm'.others k = look tm.others k) ∧ tm'.live = tm.live ∧ t.groups = s.groups) ∧
      (tm.departed = true → (look tm.others m).isSome = true → m ∉ tm.acks → exec (.ridgeDepartureAck lid pos m) s =
        .next (s.updTeam tid (fun t => { t with acks := t.acks ++ [m] })))) ∧
    ((look tm.others m).isSome = true → look tm.others m ≠ some .acked → s.reqs = [] → s.wc = [] → 0 < tm.live →
      ∃ (t : State) (tm' : Team), exec (.ridgeDeparture lid pos m) s = .next t ∧ t.team tid = some tm' ∧
        look tm'.others m = some .acked ∧ OutMsg.ridge l.ref pos m ridgeACK ∈ t.outbox) ∧
    ((look tm.others m).isSome = true →
      exec (.ridgePreemptNotice lid pos m false) s = .next (s.preemptTeam tid) ∧
      ∀ c, s.pickCores lid l (s.returning tm) (s.resumeRoom tm 0) 0 = some c →
        exec (.ridgePreemptNotice lid pos m true) s = .next ((s.tryResume tid 0 c).getD s)))

/-- 01 R33, R35, 02 R54, R77, R78: run entry. A run whose words pass their checks is entered at position 1 with its temporaries
empty and nothing else changed; a misaligned PC traps ALIGN, a word that no head or trailer precedes ILLOP, a word that fails a
check ILLOP or ILLOPND with its position, each before any instruction issues; a fetch fault parks the split. -/
def Obligations.RunsAreCheckedAtEntry : Prop :=
  ∀ (s : State) (gid e : Nat) (g : Group) (c : Actx) (g0 : Group) (tm : Team) (l : Launch) (en : Entry), s.group gid = some g →
    s.actx gid = some c → s.where' gid = some (g0, tm, l) → g.entry e = some en → en.canEnter g = true →
    let va := (en.pc.signExtend 64).toNat
    let trapOf (cause : Cause) (i : Nat) : TrapRec := TrapRec.of cause 0 en.mask en.pc i e
    (va % 12 ≠ 0 → exec (.runEntry gid e) s = .next (s.trapPrecise gid e { trapOf .align 1 with addr := en.pc })) ∧
    (∀ f, va % 12 = 0 → s.laneWord c va = .fault f → exec (.runEntry gid e) s = .next (s.parkFetch gid e en f)) ∧
    (∀ s1 x, va % 12 = 0 → s.laneWord c va = .ok s1 x →
      (LaneWord.op x = 0xFE → exec (.runEntry gid e) s = .next (s1.trapPrecise gid e (trapOf .illop 1))) ∧
      (∀ s2 b, LaneWord.op x ≠ 0xFE → s1.wordBefore c va = .ok s2 b →
        (LaneWord.op b ≠ 0xFE → exec (.runEntry gid e) s = .next (s2.trapPrecise gid e (trapOf .illop 1))) ∧
        (∀ s3 words trailer, LaneWord.op b = 0xFE → s2.runWords c 25 va = .ok s3 (words, trailer) →
          (∀ bad, checkRun g.w (decide (1 < l.params.width)) words trailer = .error bad → exec (.runEntry gid e) s =
            .next (s3.trapPrecise gid e (trapOf (if bad.illopnd then .illopnd else .illop) bad.index))) ∧
          (∀ r, checkRun g.w (decide (1 < l.params.width)) words trailer = .ok r →
            ∃ (t : State) (g' : Group) (en' : Entry), exec (.runEntry gid e) s = .next t ∧ t.group gid = some g' ∧
              g'.entry e = some en' ∧ en'.run = words ++ [trailer.getD 0] ∧ en'.runpos = 0 ∧ en'.cmt = r.cmt ∧
              en'.runAwait = r.awaits ∧ en'.pc = en.pc ∧ en'.mask = en.mask ∧ en'.wbase = en.wbase ∧
              (∀ n lane, n < 8 → lane < 64 → inMask en.mask lane → g'.tState n lane = .empty) ∧
              g'.v = g.v ∧ g'.vst = g.vst ∧ g'.s = g.s ∧ g'.p = g.p ∧ (∀ n, n ≠ e → g'.entry n = g.entry n) ∧
              ∀ k, k ≠ gid → t.group k = s3.group k))))

/-- 01 R36, R38, 04 R117, 07 R191, R192, R195, 20 R424: run completion. With no transfer the split goes to its next run, or waits
for its await list; a post-commit trap is taken before the transfer; a base that the run requested is slid to first. -/
def Obligations.CompletedRunsGoOn : Prop :=
  ∀ (s : State) (gid e : Nat) (g : Group) (en : Entry), RunDone s gid e g en →
    (postRecord en e = none → en.xfer = none → en.reqBase = none → en.barWait = [] → en.parent = .none → en.slide = none →
      ∃ (t : State) (g' : Group) (en' : Entry), exec (.runCompletion gid e) s = .next t ∧ t.group gid = some g' ∧
        g'.entry e = some en' ∧ en'.pc = en.next ∧ en'.run = [] ∧ en'.runpos = 0 ∧ en'.mask = en.mask ∧
        en'.await = en.runAwait ∧ en'.doneIx = 0 ∧ (en.runAwait = [] → en'.st = .ready) ∧
        (en'.st = .ready ∨ en'.st = .awaitingFull) ∧ g'.v = g.v ∧ g'.s = g.s ∧ g'.p = g.p ∧ t.mem = s.mem) ∧
    (∀ r, postRecord en e = some r → ∃ (t : State) (g' : Group) (en' : Entry), exec (.runCompletion gid e) s = .next t ∧
      t.group gid = some g' ∧ g'.entry e = some en' ∧ en'.st = .trapped ∧ en'.trapRec = some r ∧ en'.pc = en.next ∧
      en'.xfer = en.xfer ∧ en'.mask = en.mask ∧ t.notices = s.notices ++ [⟨gid, some e⟩]) ∧
    (∀ b, postRecord en e = none → en.reqBase = some b → b ≠ en.wbase →
      ∃ (t : State) (g' : Group) (en' : Entry), exec (.runCompletion gid e) s = .next t ∧ t.group gid = some g' ∧
        g'.entry e = some en' ∧ en'.st = .awaitingFull ∧ en'.wbase = b ∧ en'.pc = en.next ∧ en'.xfer = en.xfer ∧
        en'.slide = some ⟨en.mask, en.wbase, b, if en.xfer.isSome then .transfer else .goOn, false⟩)

/-- 01 R36, 04 R118, R119, 07 R189, R196, R204: what splits and joins wait for. A satisfied await makes the split ready; a join in
the stack fuses once an entry is free; a slide makes its spills, then its fills land, then the split goes on; a fault of either
parks it with the slide pending. -/
def Obligations.WaitingSplitsGoOn : Prop :=
  (∀ (s : State) (gid e : Nat) (g : Group) (en : Entry), s.group gid = some g → g.entry e = some en → en.join = false →
    en.st = .awaitingFull → en.slide = none → g.saved = false → g.killed = false → g.awaitFull en = true →
    s.barsDone g en.barWait = true → en.parent = .none → en.resumeCtl = false →
    ∃ (t : State) (g' : Group) (en' : Entry), exec (.awaitSatisfied gid e) s = .next t ∧ t.group gid = some g' ∧
      g'.entry e = some en' ∧ en'.st = .ready ∧ en'.barWait = [] ∧ en'.pc = en.pc ∧ en'.mask = en.mask ∧ g'.v = g.v ∧
      g'.s = g.s ∧ t.mem = s.mem) ∧
  (∀ (s : State) (gid k : Nat) (g : Group) (j : Entry), s.group gid = some g → look g.stack k = some j → g.saved = false →
    g.killed = false → j.pend = 0 → g.freeEntry.isSome = true →
    exec (.joinFill gid k) s = .next ({ s with nextId := s.nextId + 1 }.setGroup gid (g.fuse s.nextId (.slot k)))) ∧
  (∀ (s : State) (gid e : Nat) (g : Group) (c : Actx) (en : Entry) (sl : Slide), s.group gid = some g → s.actx gid = some c →
    g.entry e = some en → en.slide = some sl → en.st = .awaitingFull → g.saved = false → g.killed = false →
    let regs := slideRegs g.w sl.src sl.dst
    (sl.moved = false → g.slideWaits sl = false →
      (∀ f, engFold (fun s x => s.spillReg c g sl.lanes x) s regs.1 = .fault f →
        exec (.windowSlide gid e) s = .next (s.slideFault gid e en sl f)) ∧
      (∀ s1 u st, engFold (fun s x => s.spillReg c g sl.lanes x) s regs.1 = .ok s1 u st → s1.group gid = some g →
        ∃ (t : State) (g' : Group) (en' : Entry), exec (.windowSlide gid e) s = .next t ∧ t.group gid = some g' ∧
          g'.entry e = some en' ∧ en'.slide = some { sl with moved := true } ∧ en'.st = .awaitingFull ∧
          (∀ x ∈ regs.2.1, ∀ lane, lane < 64 → inMask sl.lanes lane →
            g'.getV (x % g.w) lane = 0 ∧ g'.vState (x % g.w) lane = .full) ∧
          g'.s = g.s ∧ g'.p = g.p)) ∧
    (sl.moved = true →
      (∀ f, s.fillRegs c sl.lanes g regs.2.2.2 = .fault f → exec (.slideFillsLanded gid e) s = .next (s.slideFault gid e en sl f)) ∧
      (∀ s1 g1 st, s.fillRegs c sl.lanes g regs.2.2.2 = .ok s1 g1 st → sl.after = .goOn → en.resumeCtl = false → en.parent = .none →
        en.await = [] → en.barWait = [] → g1.entry e = some en →
        ∃ (t : State) (g' : Group) (en' : Entry), exec (.slideFillsLanded gid e) s = .next t ∧ t.group gid = some g' ∧
          g'.entry e = some en' ∧ en'.slide = none ∧ en'.st = .ready ∧ en'.pc = en.pc ∧ g'.v = g1.v ∧ g'.vst = g1.vst)))

/-- 13 R306, R308, R314-R316, R318, 06 R174, R175: an access between issue and performance. Translation accepts it or makes it
fault; a lane instruction whose single due lane faults parks its split with one record and the fault pair; a store settles; a
value that reaches a load's destination fills it. -/
def Obligations.AccessesAreAcceptedOrFault : Prop :=
  ∀ (s : State) (gid op lane : Nat) (g : Group) (c : Actx) (a : LaneAcc), s.group gid = some g → s.actx gid = some c →
    g.acc op lane = some a →
    (a.stage = .issued →
      (∀ s1 t, s.translate c a.need (a.stream == .lane) a.addr = .ok (s1, t) → t.efmt = 0 →
        let ok : LaneAcc := { a with stage := .accepted, place := t.place, key := t.key, home := t.home }
        (a.stream = .lane → (∀ b ∈ g.accs, b.op = op → b.stage ≠ .faulted) →
          exec (.accessAccepted gid op lane) s = .next (s1.setGroup gid (g.setAcc ok))) ∧
        (a.stream = .access → a.kind = .weak → a.isLoad = false →
          exec (.accessAccepted gid op lane) s = .next (s1.setGroup gid (g.setAcc ok).accessDone)) ∧
        (a.stream = .access → (a.kind ≠ .weak ∨ a.isLoad = true) →
          exec (.accessAccepted gid op lane) s = .next (s1.setGroup gid (g.setAcc ok)))) ∧
      (∀ f, s.translate c a.need (a.stream == .lane) a.addr = .error f →
        (a.stream = .access → exec (.accessAccepted gid op lane) s =
          .next ((s.setGroup gid { g.dropAcc op lane with aLoad := none }).stopAccess gid f a.pc)) ∧
        (∀ en, a.stream = .lane → g.accs = [a] → a.op = op → a.lane = lane → lane < 64 → g.entry a.entry = some en → en.st = .ready →
          ∃ (t : State) (g' : Group) (en' : Entry) (r : FRec), exec (.accessAccepted gid op lane) s = .next t ∧
            t.group gid = some g' ∧ g'.entry a.entry = some en' ∧ en'.st = .parked ∧ en'.parkSet = some s.nextId ∧
            en'.run = [] ∧ en'.pc = en.pc ∧ en'.mask = en.mask ∧ g'.accs = [] ∧ t.pushQ = s.pushQ ++ [r] ∧ r.cause = f.cause ∧
            r.sub = f.sub ∧ r.level = f.level ∧ r.addr = f.addr.setWidth 57 ∧ r.lane = lane ∧ r.lanev = true ∧ r.info = false ∧
            r.index = a.index ∧ r.set = s.nextId ∧ g'.v = g.v ∧ g'.s = g.s ∧ t.mem = s.mem))) ∧
    (a.stage = .accepted → a.returns = false → a.isRemote = false →
      exec (.storeSettled gid op lane) s = .next (s.setGroup gid ((g.setAcc { a with stage := .settled }).settleOp op))) ∧
    (∀ fmt v d, a.what = .load fmt d → a.stage = .returned v →
      exec (.loadCompletion gid op lane) s = .next (s.finishAcc gid a (some (loadValue fmt a.size v)))) ∧
    (∀ fn x y v d, a.what = .rmw fn x y true d → a.stage = .returned v →
      exec (.loadCompletion gid op lane) s = .next (s.finishAcc gid a (some v))) ∧
    (∀ fmt d, a.what = .load fmt d → a.stage = .accepted → g.mayPerform a = true → s.placeHeld a.place = false → a.record = none →
      a.isRemote = false →
      let r := s.readPlace c a.mode a.place a.key a.size
      (s.statusOf a.place a.key = .ok → exec (.loadCompletion gid op lane) s =
        .next (r.2.finishAcc gid a (some (loadValue fmt a.size (BitVec.ofNat 64 (ofBytes r.1)))))) ∧
      (s.statusOf a.place a.key ≠ .ok → exec (.loadCompletion gid op lane) s =
        .next ((s.accError gid a (errBitOf (s.statusOf a.place a.key))).finishAcc gid a (some a.errorValue)))) ∧
    (∀ v : BitVec 64, a.isAcquire = false → ∃ g' : Group, (s.finishAcc gid a (some v)).group gid = some g' ∧
      (∀ k, a.dest = .v k → lane < 64 → a.lane = lane → g'.getV k lane = v.setWidth 32 ∧ g'.vState k lane = .full) ∧
      (∀ k, a.dest = .s k → g'.getS k = v ∧ g'.sState k = .full) ∧
      (∀ b ∈ g'.accs, ¬(b.op = a.op ∧ b.lane = a.lane)) ∧ g'.p = g.p ∧ (s.finishAcc gid a (some v)).mem = s.mem)

/-- 13 R307, R310-R312, 12 R291, 14 R322, R334: a store performed writes its bytes at its place, the low byte first, and no other
byte: not of memory, not of the scratchpad, not of its cluster's cache. An atomic performed at its home reads the word, writes its
function's result and returns what it read to each lane that named the word; an access to another device leaves as a request, and
waits for its answer. -/
def Obligations.AccessesArePerformed : Prop :=
  (∀ (s : State) (gid op lane : Nat) (c : Actx) (g : Group) (a : LaneAcc) (data : BitVec 64), StoreReady s gid op lane c g a data →
     a.size ≤ 8 →
     (∀ pa, a.place = .home pa → s.statusOf a.place a.key ≠ .keyRev → ∃ t : State, exec (.accessPerformed gid op lane) s = .next t ∧
       (∀ x, t.byteAt x = storedByte data pa a.size x (s.byteAt x)) ∧ t.cc = s.cc ∧ t.teams = s.teams) ∧
     (∀ pa, a.place = .home pa → s.statusOf a.place a.key = .keyRev → ∃ t : State, exec (.accessPerformed gid op lane) s = .next t ∧
       t.mem = s.mem ∧ t.cc = s.cc ∧ t.teams = s.teams) ∧
     (∀ tid off tm, a.place = .scratch tid off → s.team tid = some tm → ∃ (t : State) (tm' : Team),
       exec (.accessPerformed gid op lane) s = .next t ∧ t.team tid = some tm' ∧
       (∀ x, rd 0 tm'.scratch x = storedByte data off a.size x (rd 0 tm.scratch x)) ∧
       (∀ k, k ≠ tid → t.team k = s.team k) ∧ t.mem = s.mem ∧ t.cc = s.cc) ∧
     (∀ pa, a.place = .cached pa → a.mode = .weak false → s.uncached pa = false → s.statusOf a.place a.key ≠ .keyRev →
       ∃ t : State, exec (.accessPerformed gid op lane) s = .next t ∧
       (∀ x, ¬(pa ≤ x ∧ x < pa + a.size) → t.byteAt x = s.byteAt x ∧
         look t.cc (cKey (clusterOf c.cid) x) = look s.cc (cKey (clusterOf c.cid) x)) ∧
       (∀ x, pa ≤ x → x < pa + a.size → ∃ k, look t.cc (cKey (clusterOf c.cid) x) = some (storedByte data pa a.size x 0, k)) ∧
       t.teams = s.teams)) ∧
  (∀ (s : State) (gid op lane : Nat) (c : Actx) (g : Group) (a : LaneAcc), s.group gid = some g → s.actx gid = some c →
     g.acc op lane = some a → g.mayPerform a = true → s.placeHeld a.place = false → a.isRelease = false → a.isAcquire = false →
     (∀ b ∈ g.accs, b.op = op → b.stage ≠ .issued) →
     (∀ fn x y d pa, a.what = .rmw fn x y true d → a.stage = .accepted → a.place = .home pa → s.statusOf a.place a.key = .ok →
       g.sameWord a = [a] → a.size ≤ 8 →
       let old := BitVec.ofNat 64 (ofBytes ((List.range a.size).map (fun i => s.readKey a.key (pa + i))))
       let r := rmwAll fn old [(x, y)]
       ∃ (t : State) (g' : Group), exec (.accessPerformed gid op lane) s = .next t ∧
         (∀ b, t.byteAt b = storedByte r.1 pa a.size b (s.byteAt b)) ∧ t.group gid = some g' ∧
         g' = g.setAcc { a with stage := .returned (r.2.getD 0 0) }) ∧
     (∀ chip tg, a.place = .remote chip tg → s.reqStopped chip tg = false → s.wcOf g.coreId = [] → a.record = none →
       (∀ fmt d, a.what = .load fmt d → a.stage = .accepted → ∃ (t : State) (port : Nat), exec (.accessPerformed gid op lane) s = .next t ∧
         t.outbox = s.outbox ++ [.request s.nextId chip port tg a.key (some (.read a.size))] ∧
         t.group gid = some (g.setAcc { a with stage := .sent }) ∧ t.mem = s.mem ∧
         (look t.reqs s.nextId).isSome = true) ∧
       (∀ v fmt, a.what = .store v fmt → a.stage = .settled → ∃ (t : State) (port : Nat),
         exec (.accessPerformed gid op lane) s = .next t ∧
         t.outbox = s.outbox ++ [.request s.nextId chip port tg a.key (some (.write (toBytes v.toNat a.size)))] ∧
         t.group gid = some (g.setAcc { a with stage := .sent }) ∧ t.mem = s.mem)))

/-- 09 R229, R231-R236, R240: what tree operations answer at their arrival. A dead handle answers DEADTREE; TRINFO an item of the
node; TRNEW a handle of the lowest free slot, with a root node, one branch and one segment; TRADD the new node, a child of the
branch's leaf; a prune of no branch BADARG or DEADNODE; an operation that its unit performs has its results as its reply. -/
def Obligations.TreeOperationsArrive : Prop :=
  ∀ (s : State) (o : TreeOp) (g : Group) (c : Actx), ArrivalReady s o g c →
    (∀ s1 res no, s.performTr o g c = some (s1, res, no) →
      exec (.treeOperationArrival o.id) s = .next (s1.replied o.id res no)) ∧
    (o.tree s = none → o.kind ∈ [.tradd, .trfork, .pruneBr, .pruneSub, .commit, .kvRd 0, .kvRd 1, .kvOwn 0, .kvOwn 1] ++
        (List.range 8).map TreeKind.info →
      exec (.treeOperationArrival o.id) s = .next (s.replied o.id (allRes (treeErr stDEADTREE)) false)) ∧
    (∀ key t, o.tree s = some (key, t) →
      (∀ f, o.kind = .info f → ∃ res : List Word32, exec (.treeOperationArrival o.id) s = .next (s.replied o.id res false) ∧
        ∀ l, l < 64 → inMask o.lanes l →
          let x := (o.x[l]?.getD 0).toNat
          (f < 6 → x < 65536 → ∀ n, look t.nodes x = some n → res[l]? = some (BitVec.ofNat 32 (nodeItem n f))) ∧
          (f < 6 → x < 65536 → look t.nodes x = none → res[l]? = some (treeErr stDEADNODE)) ∧
          (f < 7 → 65536 ≤ x → res[l]? = some (treeErr stBADARG)) ∧
          (f = 6 → x < 65536 → ∀ b, look t.branches x = some b → res[l]? = some (BitVec.ofNat 32 b.leaf))) ∧
      (o.kind = .pruneBr → 63 < o.b.toNat →
        exec (.treeOperationArrival o.id) s = .next (s.replied o.id (allRes (treeErr stBADARG)) false)) ∧
      (o.kind = .pruneBr → o.b.toNat ≤ 63 → look t.branches o.b.toNat = none →
        exec (.treeOperationArrival o.id) s = .next (s.replied o.id (allRes (treeErr stDEADNODE)) false)) ∧
      (∀ l p pn n br, o.kind = .tradd → o.lanes = laneBit l → l < 64 → look t.branches o.b.toNat = some br → o.b.toNat ≤ 63 →
        p = br.leaf → look t.nodes p = some pn → (o.x[l]?.getD 0).toNat < 2 ^ 18 → t.nodes.length < 65536 →
        t.bset pn.seg = laneBit o.b.toNat → t.gset = 0 → t.layers = 0 → lowestFree t.nodes 0 65536 = some n →
        ∃ (u : State) (t' : Tree) (res : List Word32) (n' : Node), exec (.treeOperationArrival o.id) s = .next (u.replied o.id res false) ∧
          res[l]? = some (BitVec.ofNat 32 n) ∧ look u.trees key = some t' ∧ look t'.nodes n = some n' ∧
          n'.token = (o.x[l]?.getD 0).toNat ∧ n'.depth = pn.depth + 1 ∧ n'.parent = p ∧ n'.seg = pn.seg ∧
          t'.leafOf o.b.toNat = n ∧ (∀ m, m ≠ n → look t'.nodes m = look t.nodes m) ∧
          ∀ b, b ≠ o.b.toNat → look t'.branches b = look t.branches b)) ∧
    (∀ i, o.kind = .trnew → bits o.a.toNat 63 18 = 0 → s.freeTreeSlot o.die = some i →
      ∃ (u : State) (t' : Tree), let gen := ((look s.trees (treeKey o.die i)).map Tree.gen).getD 1
        exec (.treeOperationArrival o.id) s =
          .next (u.replied o.id (allRes (BitVec.ofNat 32 (handleOf o.die i gen))) false) ∧
        look u.trees (treeKey o.die i) = some t' ∧ t'.live = true ∧ t'.gen = gen ∧ t'.owner = o.part ∧ t'.busy = false ∧
        (∃ n, t'.nodes = [(0, n)] ∧ n.token = bits o.a.toNat 17 0 ∧ n.depth = 0 ∧ n.parent = noParent ∧ n.seg = 1) ∧
        (∃ b, t'.branches = [(0, b)] ∧ b.leaf = 0) ∧ (∃ g, t'.segs = [(1, g)] ∧ g.bset = 1) ∧
        ∀ k, k ≠ treeKey o.die i → look u.trees k = look s.trees k)

/-- 09 R228, R230, R237, R244, R245; 10 R253; 11 R274: a reply writes the results into DST in the active lanes, which become full, and
ends the operation; GMASK's predicate says whether no token is legal; a tag that names a dead pair is cleared; DEADNODE or DEADTREE
under .chk is noted for the run's completion. A cancellation kills the groups of each core it reaches whose tags name its pairs; a
core answers once its killed groups' accesses have gone, or, to a release, once what its groups had issued has been performed; with
the answers of all 192 cores the broadcast's rows are free. -/
def Obligations.TreeRepliesAndBroadcastsLand : Prop :=
  (∀ (s : State) (o : TreeOp) (g : Group) (res : List Word32), s.treeOps.find? (fun p => p.id = o.id) = some o → o.reply = some res →
     s.group o.gid = some g →
     let dead := maskOf (fun l => inMask o.lanes l && decide (res[l]?.getD 0 = treeErr stDEADNODE ∨ res[l]?.getD 0 = treeErr stDEADTREE))
     ∃ (t : State) (g' : Group), exec (.treeReply o.id) s = .next t ∧ t.group o.gid = some g' ∧
       (∀ k l, l < 64 → inMask o.lanes l → (o.dst = .v k → g'.getV k l = res[l]?.getD 0 ∧ g'.vState k l = .full) ∧
         (o.dst = .t k → g'.getT k l = res[l]?.getD 0 ∧ g'.tState k l = .full)) ∧
       (∀ k l, l < 64 → ¬(o.dst = .v k ∧ inMask o.lanes l) → g'.getV k l = g.getV k l ∧ g'.vState k l = g.vState k l) ∧
       (∀ p, o.kind = .gmask p → p < 7 → g'.getP p = if o.noLegal then g.getP p ||| o.lanes else g.getP p &&& ~~~o.lanes) ∧
       ((∀ p, o.kind ≠ .gmask p) → g'.p = g.p) ∧ ((∀ k, o.dst ≠ .s k) → g'.s = g.s) ∧
       g'.tag = (if o.kind = .tag ∧ dead ≠ 0 ∧ g.tag = o.a.setWidth 32 then 0 else g.tag) ∧
       (∀ e en, g'.entry e = some en → o.id ∉ en.holds) ∧
       (o.chk = true → dead ≠ 0 → ∀ en, g.entry o.entry = some en → o.id ∈ en.holds →
         ∃ en', g'.entry o.entry = some en' ∧ ⟨.deadNode, o.index, dead, 0⟩ ∈ en'.post) ∧
       (∀ p ∈ t.treeOps, p.id ≠ o.id) ∧ t.mem = s.mem) ∧
  (∀ (s : State) (b die core : Nat) (x : Bcast), s.bcast b = some x → die < 2 → core < 96 →
     let cid := coreId die core
     (x.release = false → cid ∉ x.reached → ∃ t : State, exec (.cancelBroadcast b die core) s = .next t ∧
       (∀ gid g tm l, s.group gid = some g → s.team g.tid = some tm → s.launch tm.launch = some l → g.coreId = cid →
         g.retired = false → tagMatches g.tag x.pairs = true → l.part = x.part →
         ∃ g' : Group, t.group gid = some g' ∧ g'.killed = true) ∧
       (keysRise s.groups = true → ∀ gid g, s.group gid = some g → (g.coreId ≠ cid ∨ tagMatches g.tag x.pairs = false) →
         t.group gid = some g)) ∧
     (x.release = false → cid ∈ x.reached → cid ∉ x.acked →
       (∀ g ∈ s.groups, g.2.coreId = cid → g.2.killed = true → g.2.accs = []) →
       exec (.cancelAck b die core) s = .next (s.ackBcast x cid)) ∧
     (x.release = true → cid ∉ x.reached → ∃ ws : List (Nat × Nat), exec (.releaseBroadcast b die core) s =
         .next (s.setBcast { x with reached := x.reached ++ [cid], waits := x.waits ++ ws }) ∧
       ∀ gid g, s.group gid = some g → g.coreId = cid → g.saved = false →
         (∀ p ∈ g.ops, (gid, p.id) ∈ ws) ∧ ∀ a ∈ g.accs, (gid, a.op) ∈ ws) ∧
     (x.release = true → cid ∈ x.reached → cid ∉ x.acked → x.waits = [] →
       exec (.releaseAck b die core) s = .next (s.ackBcast x cid)) ∧
     (x.acked.length + 1 < 192 → x.rows = [] → s.ackBcast x cid = s.setBcast { x with acked := x.acked ++ [cid] }) ∧
     (x.acked.length + 1 = 192 → (∀ r ∈ x.rows, (s.ackBcast x cid).rowOf x.part r = ⟨.free, 0⟩) ∧
       ∀ y ∈ (s.ackBcast x cid).bcasts, y.id ≠ x.id))


/-- 10 R258-R260: compaction. A move copies one slot and layer and goes to the next; a fault parks it; once every move is made the
switch gives the branches their new lists, every node the slot of its depth, clears BUSY and releases the emptied rows. -/
def Obligations.CompactionMovesAndSwitches : Prop :=
  ∀ (s : State) (die slot : Nat) (t : Tree) (k : Compaction), look s.trees (treeKey die slot) = some t → t.comp = some k →
    (k.finished = false → k.full = false → k.parkSet = none → k.kset.length ≤ k.asgBranch →
      ∀ p n, look s.pools (poolKey t.owner die) = some p → t.pathAt (k.kset[k.ord]?.getD 0) k.depth = some n →
      let pos := ((t.node n).map Node.slot).getD 0
      let old := (((look t.branches (k.kset[k.ord]?.getD 0)).map Branch.rows).getD [])[pos / 16]?.getD 0
      let new := (k.row k.ord (k.depth / 16)).getD 0
      let r := s.copyLines (pageActx t.root t.owner die) (slotLines p old new k.layer (pos % 16) (k.depth % 16))
      (∀ s1 st, r = .ok s1 false st → exec (.compactionMove die slot) s = .next (s1.setTree (treeKey die slot)
        { t with comp := some (t.seekCursor cursorFuel (t.nextCursor k)) })) ∧
      (∀ f, r = .fault f → ∃ (u : State) (t' : Tree) (k' : Compaction), exec (.compactionMove die slot) s = .next u ∧
        look u.trees (treeKey die slot) = some t' ∧ t'.comp = some k' ∧ k'.parkSet = some s.nextId ∧ k'.depth = k.depth ∧
        t'.busy = t.busy ∧ u.pushQ.length = s.pushQ.length + 1)) ∧
    (k.finished = true → t.layers = 0 → exec (.compactionSwitch die slot) s =
      .next (s.setTree (treeKey die slot) { t with busy := false, comp := none })) ∧
    (k.finished = true → t.layers ≠ 0 → ∃ (u : State) (t' : Tree), exec (.compactionSwitch die slot) s = .next u ∧
      look u.trees (treeKey die slot) = some t' ∧ t'.busy = false ∧ t'.comp = none ∧
      (∀ n x, look t.nodes n = some x → look t'.nodes n = some { x with slot := x.depth }) ∧
      (∀ n, look t.nodes n = none → look t'.nodes n = none) ∧ u.nextId = s.nextId + 1 ∧ u.mem = s.mem)

/-- 15 R343, R344, R347, R348, R350, R356; 16 R360-R364: what the matrix sequencer does. An operation whose turn has come starts:
MZERO clears its rows, MMA adds its products to them, for INT8 exactly, and changes nothing else; an MLDB loads columns and no
tile; a drain starts by itself. A finished operation gives its conditions to MXFLAGS. A linked one is released by its phase. A
drain with a good image and descriptor begins at its first element, another ends with DRAINBAD. A DLOAD places a good image. -/
def Obligations.MatrixOperationsStartAndComplete : Prop :=
  (∀ (s : State) (o : MxOp) (g : Group) (c : Actx) (tm : Team), MatrixReady s o g c tm →
    let q := g.quarterId
    ∃ t : State, exec (.matrixOpStart o.id) s = .next t ∧ rd false t.narrow q = (s.die g.die).alarm ∧
      (o.kind ≠ .mldb → t.macs = s.macs ∧ t.mem = s.mem) ∧
      (o.kind = .mldb → t.tiles = s.tiles ∧
        ∀ p ∈ t.mxOps, p.id = o.id → p.stage = .finished ∨ p.stage = .queued ∨ p.stage = .parked) ∧
      (o.kind = .mdrn → t.tiles = s.tiles ∧ ∀ p ∈ t.mxOps, p.id = o.id → p.stage = .running) ∧
      (o.kind = .mzero → (∀ p ∈ t.mxOps, p.id = o.id → p.stage = .finished) ∧
        ∀ y tile row col, tile < 8 → row < 64 → col < 128 → t.tileAt y tile row col =
          if y = q ∧ o.ti ≤ tile ∧ tile < o.ti + o.n ∧ inMask o.rows row then 0 else s.tileAt y tile row col) ∧
      (o.kind = .mma → (∀ p ∈ t.mxOps, p.id = o.id → p.stage = if o.den then .running else .finished) ∧
        (∀ y tile row col, tile < 8 → row < 64 → col < 128 →
          (y ≠ q ∨ tile < o.ti ∨ o.ti + o.n ≤ tile ∨ inMask o.rows row = false) → t.tileAt y tile row col = s.tileAt y tile row col) ∧
        (∀ ix row col, ix < o.n → row < 64 → col < 128 → inMask o.rows row = true →
          let tag (j : Nat) : MacTag := rd .none s.tags (q * 8 + j)
          let fits := compatible o.fmt (tag (o.macAt ix)) (tag (o.macAt ix + 1))
          let old := s.tileAt q (o.ti + ix) row col
          (fits = false → t.tileAt q (o.ti + ix) row col = old) ∧
          (fits = true → t.tileAt q (o.ti + ix) row col =
            (s.mmaElement q (o.macAt ix) o.fmt (kBlocks.map (aBlock tm o.fmt (o.addr.toNat - scratchBase) row)) col old).val) ∧
          (fits = true → o.fmt = .s8 → (∀ kb, kb < 4 → rd false s.invs (expKey q (o.mj + ix) col kb) = false) →
            t.tileAt q (o.ti + ix) row col = old + BitVec.ofInt 32 (dotBytes s tm q o ix row col))))) ∧
  (∀ (s : State) (op : Nat) (o : MxOp), s.mxOps.find? (fun p => p.id = op) = some o →
    (o.stage ≠ .finished → exec (.matrixOpComplete op) s = .next s) ∧
    (∀ g, s.group o.gid = some g → o.stage = .finished → ∃ (t : State) (g' : Group), exec (.matrixOpComplete op) s = .next t ∧
      t.group o.gid = some g' ∧ g' = { g.finOp op with mxFlags := g.mxFlags ||| o.flags } ∧ (∀ p ∈ t.mxOps, p.id ≠ op) ∧
      t.tiles = s.tiles ∧ t.mem = s.mem) ∧
    (∀ g w, s.group o.gid = some g → o.bar = some w → o.stage = .linked → g.saved = false →
      exec (.linkedOpRelease op) s = .next (if s.barsDone g [w] then s.setMx { o with stage := .queued } else s)) ∧
    (∀ g tm l, s.where' o.gid = some (g, tm, l) → o.stage = .running → (o.kind = .mdrn ∨ (o.kind = .mma ∧ o.den = true)) →
      g.saved = false →
      let slot := look s.drainStore (slotKey g.coreId o.slot)
      let placed : Prop := o.desc.toNat % 64 = 0 ∧ inScratch l o.desc 64 = true
      let d := drainDesc (tm.scratchBytes (o.desc.toNat - scratchBase) 64)
      let bad : Prop := exec (.drainStart op) s = .next ((s.err (some tm.launch) errDRAINBAD).endDrain o 0)
      (slot = none → bad) ∧ (¬placed → bad) ∧
      ∀ sl, slot = some sl → ((sl.full = false ∨ sl.owner ≠ g.tid) → bad) ∧
        (drainDescOk l o.n sl.image d = false → bad) ∧
        (sl.full = true → sl.owner = g.tid → placed → drainDescOk l o.n sl.image d = true → ∃ x : Drain,
          exec (.drainStart op) s = .next { s.setMx { o with stage := .draining } with drains := put s.drains op x } ∧
          x.image = sl.image ∧ x.row = lowLane o.rows ∧ x.col = 0 ∧ x.word = 0 ∧ x.d1 = 0 ∧ x.d2 = 0 ∧ x.d3 = 0 ∧ x.hold = [] ∧
          x.out0 = d.out0.toNat ∧ x.out1 = d.out1.toNat ∧ x.str0 = d.stride0 ∧ x.str1 = d.stride1 ∧
          (o.fmt ≠ .s8 → x.d0 = s.tileAt g.quarterId o.ti (lowLane o.rows) 0 ∧ x.flags = 0)))) ∧
  (∀ (s : State) (op : Nat) (o : DlOp) (g : Group) (c : Actx), s.dlOps.find? (fun p => p.id = op) = some o →
    CommandOf s o.gid g c → o.parkSet = none →
    let key := slotKey g.coreId o.slot
    (o.addr.toNat % 64 ≠ 0 → exec (.dloadComplete op) s = .next (s.endDload o (errorValue codeBADARG))) ∧
    (o.addr.toNat % 64 = 0 → ∀ x, look s.drainStore key = some x → x.full = true → x.owner ≠ g.tid →
      exec (.dloadComplete op) s = .next (s.endDload o (errorValue codeSLOTBUSY))) ∧
    (o.addr.toNat % 64 = 0 → (∀ x, look s.drainStore key = some x → x.full = true → x.owner = g.tid) →
      ∀ s1 bs, s.engRead c o.addr 64 = .ok s1 bs .ok →
      (drainImageBad (imageWords bs) 0 = none → exec (.dloadComplete op) s = .next (({ s1 with
        drainStore := put s1.drainStore key { full := true, owner := g.tid, image := imageWords bs } }).endDload o 0)) ∧
      (∀ i, drainImageBad (imageWords bs) 0 = some i → ∃ (t : State) (r : FRec), exec (.dloadComplete op) s = .next t ∧
        look t.drainStore key = none ∧ (∀ p ∈ t.dlOps, p.id ≠ op) ∧ t.pushQ = s1.pushQ ++ [r] ∧ r.cause = .illop ∧ r.info = true)))

/-- 04 R128, 17 R378, R379, R382, R383, R385, R386, 19 R405, R408; 11 R281: what the other engines do with their commands. A
command's end fills its token and lowers its counter. An AGE stream enters the values that it reads and ends with a count or an
error; a copy ends with the number of its elements; a collective's members compare, form and write their result; the mailbox gives
its oldest entry; a completed phase reaches one core of a spanning team. A fault parks the command with its progress. -/
def Obligations.EnginesPerformTheirCommands : Prop :=
  (∀ (s : State) (gid id : Nat) (t : Token) (v : Word64) (g : Group), s.group gid = some g →
    ∃ g' : Group, (s.endCommand gid id t v).group gid = some g' ∧ (t ≠ 0xFF → g'.getS t.toNat = v ∧ g'.sState t.toNat = .full) ∧
      (∀ k, (t = 0xFF ∨ k ≠ t.toNat) → g'.getS k = g.getS k ∧ g'.sState k = g.sState k) ∧ g'.ops = (g.finOp id).ops ∧
      g'.v = g.v ∧ g'.table = g.table ∧ ∀ k, k ≠ gid → (s.endCommand gid id t v).group k = s.group k) ∧
  (∀ (s : State) (gid x : Nat) (g : Group) (c : Actx), CommandOf s gid g c → g.lanesGone = false → (g.ageOf x).st = .run →
    let a := g.ageOf x
    (a.badArg = false → a.halt = false → a.err = none → a.next < a.len → g.queueFull a.queue = false →
      (∀ s1 vs, s.ageReads c a (from' a.next 64) = .ok s1 vs .ok → exec (.ageEntry gid x) s = .next (s1.updGroup gid (fun g =>
        (g.enqueue a.queue vs).setAge x { a with next := min (a.next + 64) a.len }))) ∧
      (∀ f, s.ageReads c a (from' a.next 64) = .fault f → ∃ (t : State) (g' : Group) (r : FRec), exec (.ageEntry gid x) s = .next t ∧
        t.group gid = some g' ∧ g' = g.setAge x { a with st := .park, parkSet := some s.nextId } ∧ t.pushQ = s.pushQ ++ [r] ∧
        r.who = .age gid x ∧ r.set = s.nextId ∧ r.cause = f.cause ∧ r.addr = f.addr.setWidth 57)) ∧
    (a.err = none → a.badArg = true → exec (.ageStreamEnd gid x) s = .next (s.endAge gid x a (some codeBADARG))) ∧
    (a.err = none → a.badArg = false → (a.halt = true ∨ a.len ≤ a.next) →
      exec (.ageStreamEnd gid x) s = .next (s.endAge gid x a none)) ∧
    (a.err = none → a.badArg = false → a.halt = false → a.next < a.len → exec (.ageStreamEnd gid x) s = .next s) ∧
    (∃ g' : Group, (s.endAge gid x a none).group gid = some g' ∧ (g'.ageOf x).st = .set ∧
      (a.token ≠ 0xFF → g'.sState a.token.toNat = .full ∧
        g'.getS a.token.toNat = BitVec.ofNat 64 (a.next + if a.halt then 2 ^ 62 else 0)))) ∧
  (∀ (s : State) (op : Nat) (o : CpOp) (g : Group) (c : Actx), s.cpOps.find? (fun p => p.id = op) = some o → CommandOf s o.gid g c →
    let d := cpDesc o.desc
    (d.bad = true → exec (.cpndComplete op) s = .next (s.endCp o (errorValue codeBADARG))) ∧
    (d.bad = false → o.parkSet = none → (∀ p ∈ s.cpOps, p.gid = o.gid → op ≤ p.id) → o.written ≤ d.total →
      (∀ s1, s.cpWalk s c o d (d.total - o.written) o.written = (s1, d.total, none) →
        exec (.cpndComplete op) s = .next (s1.endCp o (BitVec.ofNat 64 d.total))) ∧
      (∀ s1 n f, s.cpWalk s c o d (d.total - o.written) o.written = (s1, n, some f) → ∃ (t : State) (r : FRec),
        exec (.cpndComplete op) s = .next t ∧ (∀ p ∈ t.cpOps, p.id = op → p.written = n ∧ p.parkSet = some r.set) ∧
        t.pushQ = s1.pushQ ++ [r] ∧ r.who = .cp op ∧ r.cause = f.f.cause))) ∧
  (∀ (s : State) (op : Nat) (o : CollOp) (peers : List CollPeer) (c : Actx), s.collOps.find? (fun p => p.id = op) = some o →
    s.actx o.gid = some c → o.parkSet = none →
    (∀ v, o.result = some v → exec (.collComplete op) s = .next (s.endColl o v)) ∧
    (o.result = none → (∃ p ∈ peers, p.chips = []) →
      exec (.collMatch op peers) s = .next (s.setColl { o with result := some (errorValue codeCOLLGONE) })) ∧
    (o.result = none → o.matched = false → (∀ p ∈ peers, p.chips ≠ []) → ∀ s1 l me s2 own,
      s.collReads c 2 o.m 0 o.listAddr = .ok (s1, l, .ok) →
      ((∃ x ∈ l, 512 ≤ x ∨ Config.partChip c.part x = false) →
        exec (.collMatch op peers) s = .next (s1.setColl { o with result := some (errorValue codeBADARG) })) ∧
      ((∀ x ∈ l, x < 512 ∧ Config.partChip c.part x = true) →
      l.zipIdx.filter (fun p => p.1 = Config.chip.toNat) = [(Config.chip.toNat, me)] →
      peers.length = o.m - 1 → (∀ j, j < o.m → j = me ∨ ∃ p ∈ peers, p.index = j) →
      ((∃ p ∈ peers, p.op ≠ o.op ∨ p.bf16 ≠ o.bf16 ∨ p.n ≠ o.n ∨ p.m ≠ o.m ∨ p.chips ≠ l) →
        exec (.collMatch op peers) s = .next (s1.setColl { o with result := some (errorValue codeBADARG) })) ∧
      ((∀ p ∈ peers, p.op = o.op ∧ p.bf16 = o.bf16 ∧ p.n = o.n ∧ p.m = o.m ∧ p.chips = l) →
        s1.collReads c (if o.bf16 then 2 else 4) o.n 0 o.src = .ok (s2, own, .ok) →
        let xs := (List.range o.m).map (fun j => if j = me then own.map (BitVec.ofNat 32)
          else ((peers.find? (fun p => p.index = j)).map CollPeer.data).getD [])
        let out := collOut o.op (if o.bf16 then bfp16 else fp32) xs o.m o.n me
        exec (.collMatch op peers) s = .next (s2.setColl { o with me := me, chips := l, matched := true, out := out })))) ∧
    (o.result = none → o.matched = true → ∀ s1 n,
      s.collWrites c o (if o.bf16 then 2 else 4) o.outAt (o.out.drop o.outAt) = (s1, n, none) → o.out.length ≤ n →
      ∃ v : Word64, v.getLsbD 63 = false ∧ exec (.collComplete op) s = .next (s1.endColl o v))) ∧
  (∀ (s : State) (die : Nat) (e : List Word32 × Bool × Nat × Nat) (r : List (List Word32 × Bool × Nat × Nat)),
    rd [] s.mailbox die = e :: r → exec (.mailboxDelivery die) s =
      .next ({ s with mailbox := wr [] s.mailbox die r }.emit (.mailbox die e.1 e.2.1 e.2.2.1 e.2.2.2))) ∧
  (∀ (s : State) (tid k core : Nat) (t : Team), s.team tid = some t → 1 < t.cores.length → core ∈ t.cores → core < 256 → k < 32 →
    ∃ (u : State) (t' : Team), exec (.barrierCompletionDelivery tid k core) s = .next u ∧ u.team tid = some t' ∧
      rd 0 t'.seen (256 * k + core) = (s.barRec tid t k).phase ∧
      (∀ j y, y < 256 → (j ≠ k ∨ y ≠ core) → rd 0 t'.seen (256 * j + y) = rd 0 t.seen (256 * j + y)) ∧ t'.bars = t.bars)

/-- 11 R262-R270, R281: the text engine. A bad descriptor, a privileged form without the right, a slot without a table, a grammar in
use and a bad image end their command with their codes. TXTOK ends with what it wrote and consumed; a good image waits, and
replaces its target once no earlier command uses the old contents; MBPOST appends one entry and answers its stream's number. -/
def Obligations.TextCommandsComplete : Prop :=
  ∀ (s : State) (op : Nat) (o : TextOp) (c : Actx),
    (TextReady s op o c →
      let ends (code : Nat) : Prop := exec (.textCommandComplete op) s = .next (s.endText o (errorValue code))
      let may : Prop := ∃ g t l, s.where' o.gid = some (g, t, l) ∧ l.priv = true
      ((∃ p, o.kind = .txtok p) ∨ o.kind = .txdet → o.badFields → ends codeBADARG) ∧
      (o.kind = .txtok true → ¬o.badFields → ¬may → ends codePRIV) ∧
      (∀ p, o.kind = .txtok p → ¬o.badFields → (p = true → may) → s.lexicon (bits (o.reg 2) 34 32) = none → ends codeNOTABLE) ∧
      (o.kind = .txdet → ¬o.badFields → s.lexicon (bits (o.reg 2) 34 32) = none → ends codeNOTABLE) ∧
      (∀ p x s1 more s2 o2 full, o.kind = .txtok p → ¬o.badFields → (p = true → may) → s.lexicon (bits (o.reg 2) 34 32) = some x →
        s.bytesFrom c (bits (o.reg 2) 31 0 - o.buf.length) (nth 0 o.desc 0 + BitVec.ofNat 64 o.buf.length) = (s1, more, .fin) →
        let o1 := { o with buf := o.buf ++ more }
        s1.writeUnits c (s1.launchOf o.gid) (nth 0 o.desc 1) (bits (o.reg 3) 31 0) o1
          ((x.units (p && !(bit (o.reg 2) 40)) o1.buf).drop o.units) = (s2, o2, full, .fin) →
        exec (.textCommandComplete op) s = .next (s2.endText o2 (BitVec.ofNat 64 (o2.wrote + 2 ^ 32 * o2.consumed)))) ∧
      (o.kind = .txload →
        let bad : Prop := o.reg 1 / 512 ≠ 0 ∨ (o.isGram = true ∧ o.number = 0) ∨
          (o.isGram = false ∧ (7 < o.number ∨ o.reg 0 % 4096 ≠ 0))
        (bad → ends codeBADARG) ∧ (¬bad → o.isGram = true → s.setBusy o.gid o.number = true → ends codeSETBUSY) ∧
        (¬bad → ¬(o.isGram = true ∧ s.setBusy o.gid o.number = true) →
          (∀ s1, s.loadImage c (nth 0 o.desc 0) o.isGram = .ok s1 none .ok →
            exec (.textCommandComplete op) s = .next (s1.endText o (errorValue codeBADIMAGE))) ∧
          (∀ s1 m, s.loadImage c (nth 0 o.desc 0) o.isGram = .ok s1 (some m) .ok →
            exec (.textCommandComplete op) s = .next (s1.setText { o with image := some m })) ∧
          (∀ f, s.loadImage c (nth 0 o.desc 0) o.isGram = .fault f → ∃ (t : State) (r : FRec),
            exec (.textCommandComplete op) s = .next t ∧ (∀ p ∈ t.textOps, p.id = op → p.parkSet = some r.set) ∧
            t.pushQ = s.pushQ ++ [r] ∧ r.who = .text op ∧ r.cause = f.cause))) ∧
      (o.kind = .mbpost →
        let n := bits (o.reg 1) 3 0
        let bad : Prop := n = 0 ∨ 14 < n ∨ bits (o.reg 1) 15 4 ≠ 0 ∨ bits (o.reg 1) 63 33 ≠ 0
        let stream := bits (o.reg 1) 31 16
        let k := o.die * 65536 + stream
        (bad → ends codeBADARG) ∧
        (¬bad → ∀ s1 bs, s.bytesFrom c (4 * n) (nth 0 o.desc 0) = (s1, bs, .fin) → ∃ (t : State) (ids : List Word32),
          exec (.textCommandComplete op) s = .next (t.endText o (BitVec.ofNat 64 (rd 0 s1.mbSeq k))) ∧
          rd [] t.mailbox o.die = rd [] s1.mailbox o.die ++ [(ids, bit (o.reg 1) 32, stream, rd 0 s1.mbSeq k)] ∧
          ids.length = n ∧ (∀ i, i < n → ids[i]? = some (BitVec.ofNat 32 (ofBytes ((bs.drop (4 * i)).take 4)))) ∧
          rd 0 t.mbSeq k = (rd 0 s1.mbSeq k + 1) % 2 ^ 32 ∧ (∀ j, j ≠ k → rd 0 t.mbSeq j = rd 0 s1.mbSeq j)))) ∧
    (s.textOps.find? (fun p => p.id = op) = some o → s.actx o.gid = some c → ∀ m, o.image = some m →
      let im : Image := ⟨c.part, c.root, nth 0 o.desc 0, m⟩
      (o.isGram = true → (∀ t ∈ s.treeOps, t.id < op → t.kind ≠ .trnew) → s.setBusy o.gid o.number = true →
        exec (.txloadReplacement op) s = .next (s.endText o (errorValue codeSETBUSY))) ∧
      (o.isGram = true → (∀ t ∈ s.treeOps, t.id < op → t.kind ≠ .trnew) → s.setBusy o.gid o.number = false →
        exec (.txloadReplacement op) s = .next (({ s with
          grammars := put s.grammars (c.part * 256 + o.number) im }).endText o 0)) ∧
      (o.isGram = false → (∀ p ∈ s.textOps, p.id < op → p.usesSlot = false ∧ p.loads = false) →
        exec (.txloadReplacement op) s = .next (({ s with lexicons := put s.lexicons o.number im }).endText o 0)))

/-- 08 R218-R220; 12 R294, R295, R300-R302; 13 R316; 14 R334; 21 R443-R445, R448, R454: the edges. A drained entry of another device
is checked and written under its mask; a request is performed at its place under its key, or answered with its error; an answer
ends its access. A failed flit is asked for again, and after 8 failed resends its port goes down, whose requests go over another
port. The host reads and writes lines of its own partition alone. A flip takes a page line by line. -/
def Obligations.OtherDevicesAndTheHostReachMemory : Prop :=
  (∀ (s : State) (die core line : Nat) (w : WcEntry), (s.wcOf (coreId die core))[line]? = some w →
    exec (.wcAgeDrain die core line) s =
      .next ((s.setWc (coreId die core) ((s.wcOf (coreId die core)).eraseIdx line)).sendDrain w)) ∧
  (∀ (s : State) (src : BitVec 9) (pa key : Nat) (bytes : List Byte) (mask : BitVec 64) (crc : BitVec 32),
    let i : Instr := .wcDrainArrival src (.mem pa) key bytes mask crc
    let good : Prop := crc32c ((List.range 64).map (fun i => if mask.getLsbD i then nth 0 bytes i else 0)) = crc
    ((s.heldBias pa = true ∨ s.rspStopped src.toNat (.mem pa) = true) → exec i s = .next s) ∧
    (s.heldBias pa = false → s.rspStopped src.toNat (.mem pa) = false →
      (¬good → exec i s = .next ({ s with
        crcErrors := (s.crcErrors + 1) % 2 ^ 32, crcLast := some (src.toNat, pa) }.emit (.reply src 0 .crcError []))) ∧
      (good → s.keyOk key pa = false → exec i s = .next (s.emit (.reply src 0 .keyRevoked []))) ∧
      (good → s.keyOk key pa = true → ∃ t : State, exec i s = .next (t.emit (.reply src 0 .ok [])) ∧ ∀ x, t.byteAt x =
        if pa ≤ x ∧ x < pa + 64 ∧ mask.getLsbD (x - pa) then nth 0 bytes (x - pa) else s.byteAt x))) ∧
  (∀ (s : State) (r : RemoteReq),
    (∀ pa, r.target = .mem pa → s.heldBias pa = false → s.rspStopped r.chip.toNat r.target = false →
      (s.keyOk r.key pa = false →
        (∀ n, r.op = .read n → exec (.remoteRequest r) s =
          .next (s.emit (.reply r.chip r.tag .keyRevoked (List.replicate n 0xFF)))) ∧
        (∀ bs, r.op = .write bs → exec (.remoteRequest r) s = .next (s.emit (.reply r.chip r.tag .keyRevoked [])))) ∧
      (s.keyOk r.key pa = true →
        (∀ n, r.op = .read n → s.poisoned pa = true → exec (.remoteRequest r) s =
          .next (s.emit (.reply r.chip r.tag .memError (List.replicate n 0xFF)))) ∧
        (∀ n, r.op = .read n → s.poisoned pa = false → exec (.remoteRequest r) s =
          .next (s.emit (.reply r.chip r.tag .ok ((List.range n).map (fun i => s.readKey r.key (pa + i)))))) ∧
        (∀ bs, r.op = .write bs → ∃ t : State, exec (.remoteRequest r) s = .next (t.emit (.reply r.chip r.tag .ok [])) ∧
          ∀ x, t.byteAt x = writtenByte bs pa x (s.byteAt x)) ∧
        (∀ fn ds, r.op = .rmw fn ds → s.poisoned pa = false →
          let old := BitVec.ofNat 64 (ofBytes ((List.range (AtomFn.size fn)).map (fun i => s.readKey r.key (pa + i))))
          ∃ t : State, exec (.remoteRequest r) s =
              .next (t.emit (.reply r.chip r.tag .ok ((rmwAll fn old ds).2.flatMap (fun o => toBytes o.toNat 8)))) ∧
            ∀ x, t.byteAt x = storedByte (rmwAll fn old ds).1 pa (AtomFn.size fn) x (s.byteAt x)))) ∧
    (∀ ref pos member o, r.target = .ridge ref pos member o → s.rspStopped r.chip.toNat r.target = false →
      (s.ridgeTeam ref pos member = none →
        (∀ n, r.op = .read n → exec (.remoteRequest r) s =
          .next (s.emit (.reply r.chip r.tag .departed (List.replicate n 0xFF)))) ∧
        (∀ bs, r.op = .write bs → exec (.remoteRequest r) s = .next (s.emit (.reply r.chip r.tag .departed [])))) ∧
      (∀ tid tm, s.ridgeTeam ref pos member = some tid → s.team tid = some tm →
        (∀ n, r.op = .read n → exec (.remoteRequest r) s =
          .next (s.emit (.reply r.chip r.tag .ok ((List.range n).map (fun i => rd 0 tm.scratch (o + i)))))) ∧
        (∀ bs, r.op = .write bs → ∃ (t : State) (tm' : Team), exec (.remoteRequest r) s =
            .next (t.emit (.reply r.chip r.tag .ok [])) ∧ t.team tid = some tm' ∧ t.mem = s.mem ∧
          ∀ x, rd 0 tm'.scratch x = writtenByte bs o x (rd 0 tm.scratch x))))) ∧
  (∀ (s : State) (id gid op lane : Nat) (r : Req) (g : Group) (a : LaneAcc) (st : RemoteStatus) (bs : List Byte),
    AnswerReady s id gid op lane r g a →
    (∀ f d, a.what = .load f d → ∃ (t : State) (g' : Group), exec (.remoteResponse id st bs) s = .next t ∧ look t.reqs id = none ∧
      t.group gid = some g' ∧ t.mem = s.mem ∧ g' = g.setAcc { a with stage := .returned (if st = .ok
        then BitVec.ofNat 64 (ofBytes (bs.take a.size)) else a.errorValue) }) ∧
    (∀ v f, a.what = .store v f → st = .ok →
      exec (.remoteResponse id st bs) s = .next ({ s with reqs := del s.reqs id }.finishAcc gid a none)) ∧
    (∀ b tm l, statusBit st = some b → s.team g.tid = some tm → s.launch tm.launch = some l →
      (∀ fn x y ret d, a.what ≠ .rmw fn x y ret d) → ∃ (t : State) (l' : Launch) (rec' : FRec),
        exec (.remoteResponse id st bs) s = .next t ∧ t.launch tm.launch = some l' ∧ l'.errsum.getLsbD b = true ∧
        t.pushQ = s.pushQ ++ [rec'] ∧ rec'.info = true)) ∧
  (∀ (s : State) (p ch : Nat), p < 32 → ch < 2 →
    let x := s.port p
    (x.up = true → exec (.flitReceive p ch true) s = .next (s.setPort p { x with fails := 0 })) ∧
    (x.up = true → x.fails < 8 → exec (.flitReceive p ch false) s =
      .next ((s.setPort p { x with fails := x.fails + 1 }).emit (.resend p ch))) ∧
    (x.up = true → 8 ≤ x.fails → exec (.flitReceive p ch false) s = exec (.portDown p) s) ∧
    (x.up = true → ∃ t : State, exec (.portDown p) s = .next t ∧ (t.port p).up = false ∧ (∀ q, q ≠ p → t.port q = s.port q) ∧
      (keysRise s.reqs = true → ∀ id r, look s.reqs id = some r →
        (r.port ≠ p → look t.reqs id = some r) ∧ (r.port = p → ∃ q, look t.reqs id = some { r with port := q }))) ∧
    (∀ stop : Bool, ∃ t : State, exec (if stop then .flowStop p ch else .flowGo p ch) s = .next t ∧ (t.port p).up = x.up ∧
      (t.port p).stopReq = (if ch = 0 then stop else x.stopReq) ∧ (t.port p).stopRsp = (if ch = 1 then stop else x.stopRsp) ∧
      ∀ q, q ≠ p → t.port q = s.port q)) ∧
  (∀ (s : State) (fn addr : Nat) (bytes : List Byte), hbmLine addr = true →
    let line := addr / 64
    let s1 := s.beforeHost line
    ((s.stage ≠ .ready ∨ s.heldBias addr = true) → exec (.cxlMemRead fn addr) s = .next s ∧ exec (.cxlMemWrite fn addr bytes) s = .next s) ∧
    (s.stage = .ready → s.heldBias addr = false →
      ((s1.ownLine fn line = false ∨ s1.poisoned addr = true) → exec (.cxlMemRead fn addr) s =
        .next (s1.emit (.cxlData fn (64 * line) (List.replicate 64 0xFF) true))) ∧
      (s1.ownLine fn line = true → s1.poisoned addr = false → exec (.cxlMemRead fn addr) s =
        .next (s1.emit (.cxlData fn (64 * line) ((from' (64 * line) 64).map (s1.readKey fn)) false))) ∧
      (bytes ≠ [] → addr % 64 + bytes.length ≤ 64 →
        (s1.ownLine fn line = false → exec (.cxlMemWrite fn addr bytes) s =
          .next { s1 with cxlDropped := s1.cxlDropped + 1 }) ∧
        (s1.ownLine fn line = true → ∃ t : State, exec (.cxlMemWrite fn addr bytes) s = .next t ∧
          ∀ x, t.byteAt x = writtenByte bytes addr x (s1.byteAt x))))) ∧
  (∀ (s : State) (page n : Nat),
    (look s.bias page = some (.toHost n) →
      let s1 := s.flushEverywhere (64 * page + n)
      (n < 63 → exec (.biasLineAction page) s = .next { s1 with bias := put s1.bias page (.toHost (n + 1)) }) ∧
      (63 ≤ n → exec (.biasLineAction page) s = .next ({ s1 with bias := put s1.bias page .host }.flipDone page))) ∧
    (look s.bias page = some (.toDevice n true) →
      (n < 63 → exec (.biasLineAction page) s =
        .next ({ s with bias := put s.bias page (.toDevice (n + 1) false) }.emit (.snoop page (n + 1)))) ∧
      (63 ≤ n → exec (.biasLineAction page) s = .next ({ s with bias := del s.bias page }.flipDone page))) ∧
    (look s.bias page = some (.toDevice n false) → ∀ data : Option (List Byte), (∀ bs, data = some bs → bs.length = 64) →
      ∃ t : State, exec (.backInvalidateResponse page data) s = .next t ∧ look t.bias page = some (.toDevice n true) ∧
        (data = none → t.mem = s.mem) ∧
        (∀ bs, data = some bs → ∀ x, t.byteAt x = writtenByte bs (4096 * page + 64 * n) x (s.byteAt x))))

/-- 17 R387-R391, 18 R396, 20 R428, 22 R464: fault records. The oldest set is pushed whole once the queue of 4,096 has room, and its
records take the device's numbers; the firmware takes the oldest, and forwards it to the driver of a queue with FSERV 1 that is not
stopped. A serviced record's source goes on where it was; a declined one's ends: a split traps with the record's cause, address and
lanes. A record whose source it no longer parks changes nothing. -/
def Obligations.FaultRecordsArePushedAndAnswered : Prop :=
  (∀ s : State, let rs := s.nextSet
    (s.pushQ = [] → exec .faultRecordPush s = .next s) ∧ (4096 < s.faultQ.length + rs.length → exec .faultRecordPush s = .next s) ∧
    (rs ≠ [] → s.faultQ.length + rs.length ≤ 4096 → s.rseq < 65536 → ∃ t : State, exec .faultRecordPush s = .next t ∧
      s.pushQ = rs ++ t.pushQ ∧ t.faultQ.length = s.faultQ.length + rs.length ∧ t.faultQ.take s.faultQ.length = s.faultQ ∧
      (∀ i r, rs[i]? = some r → t.faultQ[s.faultQ.length + i]? = some { r with rseq := (s.rseq + i) % 65536 }) ∧
      t.rseq = (s.rseq + rs.length) % 65536 ∧ t.groups = s.groups ∧ t.mem = s.mem)) ∧
  (∀ (s : State) (r : FRec) (rest : List FRec), s.faultQ = r :: rest →
    let s1 : State := { s with faultQ := rest, forwarded := if r.info then s.forwarded else s.forwarded ++ [r] }
    exec .faultRecordTake s = .next (if s.toDriver r.launch then s1.emit (.record r) else s1)) ∧
  (∀ (s s1 : State) (n : Nat) (r : FRec), RecordTaken s n r s1 →
    (s.toDriver r.launch = true → exec (.driverAnswer (.record n true)) s = .next (s1.serveRecord r) ∧
      exec (.driverAnswer (.record n false)) s = .next (s1.declineSource r) ∧
      exec (.faultServiceResume n) s = .next s ∧ exec (.faultDecline n) s = .next s) ∧
    (s.toDriver r.launch = false → exec (.driverAnswer (.record n true)) s = .next s ∧
      (s.recordStopped r = false → s.selfServed r = true → exec (.faultServiceResume n) s = .next (s1.serveRecord r) ∧
        exec (.faultDecline n) s = .next s) ∧
      ((s.recordStopped r = true ∨ s.selfServed r = false) → exec (.faultDecline n) s = .next (s1.declineSource r) ∧
        exec (.faultServiceResume n) s = .next s))) ∧
  (∀ (s : State) (r : FRec) (gid e : Nat) (g : Group) (en : Entry), r.who = .split gid e → s.group gid = some g →
    g.entry e = some en →
    ((en.st ≠ .parked ∨ en.parkSet ≠ some r.set) → s.declineSource r = s ∧ (s.serveRecord r).group gid = some g) ∧
    (en.st = .parked → en.parkSet = some r.set →
      (∃ g' : Group, (s.serveRecord r).group gid = some g' ∧ g' = g.updEntry e (fun en =>
        { en with parkSet := none, st := if en.slide.isSome then .awaitingFull else .ready })) ∧
      (∃ (g' : Group) (en' : Entry) (tr : TrapRec), (s.declineSource r).group gid = some g' ∧ g'.entry e = some en' ∧
        en'.st = .trapped ∧ en'.trapRec = some tr ∧ tr.cause = r.cause ∧ tr.sub = r.sub ∧ tr.mask = r.done ∧ tr.addr = r.addr ∧
        tr.pc = r.pc ∧ tr.split = e ∧ en'.pc = en.pc ∧ en'.mask = en.mask ∧ en'.parkSet = none ∧ g'.v = g.v ∧ g'.s = g.s))) ∧
  (∀ (s : State) (r : FRec) (op : Nat) (o : CpOp), r.who = .cp op → s.cpOps.find? (fun p => p.id = op) = some o →
    o.parkSet = some r.set → (∀ p ∈ (s.serveRecord r).cpOps, p.id = op → p.parkSet = none) ∧
      s.declineSource r = (s.endCp o (errorValue codeUNSERVED)).err (s.launchOf o.gid) errUNSERVED)

/-- 20 R426, R427, R429-R434, R436, R438: stops. A notice goes to the driver of a served queue, else its group is killed with HANDLED.
The driver's actions resume a split or an access program, move it to a legal address, write the state that the policy opens, kill
its lanes or its group; an action that is refused changes nothing. A group found hung is parked with a record. GSTOP obeys the
policy. A pre-empted team's groups are asked to stop; once they have, the team is saved with its registers, and resumes with them. -/
def Obligations.StopsAreNoticedHandledAndSaved : Prop :=
  (∀ (s : State) (n : StopRef) (rest : List StopRef), s.notices = n :: rest →
    let s1 : State := { s with notices := rest }
    (s1.stopRecord n = none → exec .trapNotice s = .next s1) ∧
    (∀ r, s1.stopRecord n = some r →
      (s1.toDriver (s1.launchOf n.gid) = true → exec .trapNotice s =
        .next ({ s1 with pendingNotices := s1.pendingNotices ++ [n] }.emit (.notice (s1.shown n.gid r) n.gid))) ∧
      (s1.toDriver (s1.launchOf n.gid) = false → exec .trapNotice s = .next (s1.handlerKill n.gid)))) ∧
  (∀ (s : State) (gid : Nat) (g : Group), s.group gid = some g → g.retired = false → g.killed = false →
    ∃ g' : Group, (s.handlerKill gid).group gid = some g' ∧ g'.killed = true ∧ g'.handled = true ∧ g'.v = g.v ∧ g'.s = g.s ∧
      ∀ k, k ≠ gid → (s.handlerKill gid).group k = s.group k) ∧
  (∀ (s : State) (x : StopRef) (g : Group) (r : TrapRec), StopPending s x g r →
    let debug := (s.part ((s.partOf x.gid).getD 0)).policy.debug
    exec (.handlerKillGroup x) s = .next ((s.handlerKill x.gid).answered x) ∧
    (∀ a : HandlerAction, exec (.driverAnswer (.notice x a)) s = exec (match a with
      | .resume => .handlerResume x
      | .resumeAt pc => .handlerResumeAt x pc
      | .writeState w => .handlerWriteState x w
      | .killLanes => .handlerKillLanes x
      | .killGroup => .handlerKillGroup x) s) ∧
    (x.entry = none →
      (∃ (t : State) (g' : Group), exec (.handlerResume x) s = .next t ∧ x ∉ t.pendingNotices ∧ t.group x.gid = some g' ∧
        g'.aStopped = false ∧ g'.aTrap = none ∧ g'.apc = (if g.aNext then g.apc + 4 else g.apc) ∧ g'.s = g.s ∧ g'.table = g.table) ∧
      (∀ pc : VAddr, pc.toNat % 4 = 0 → ∃ (t : State) (g' : Group), exec (.handlerResumeAt x pc) s = .next t ∧ x ∉ t.pendingNotices ∧
        t.group x.gid = some g' ∧ g'.aStopped = false ∧ g'.apc = pc.setWidth 57 ∧ g'.s = g.s) ∧
      (∀ pc : VAddr, pc.toNat % 4 ≠ 0 → exec (.handlerResumeAt x pc) s = .next s) ∧ exec (.handlerKillLanes x) s = .next s ∧
      (∀ (n : Nat) (v : Word64), n < 192 → debug = true → ∃ (t : State) (g' : Group),
        exec (.handlerWriteState x ⟨[], [], [], [(n, v)], []⟩) s = .next t ∧ t.pendingNotices = s.pendingNotices ∧
        t.group x.gid = some g' ∧ g'.getS n = v ∧ ∀ k, k ≠ n → g'.getS k = g.getS k)) ∧
    (∀ e en, x.entry = some e → g.entry e = some en →
      (en.st = .faulted → exec (.handlerResume x) s = .next s) ∧
      (en.st = .trapped → (∃ t : State, exec (.handlerResume x) s = .next t ∧ x ∉ t.pendingNotices) ∧
        (en.slide.isSome = true → ¬(r.postc = true ∧ r.xfer = true) → (∀ b ∈ g.xblock, b.entry ≠ e) →
          ∃ (t : State) (g' : Group) (en' : Entry), exec (.handlerResume x) s = .next t ∧ t.group x.gid = some g' ∧
            g'.entry e = some en' ∧ en' = { en with trapRec := none, st := .awaitingFull })) ∧
      (∀ pc : VAddr, s.resumeTarget x.gid pc = false → exec (.handlerResumeAt x pc) s = .next s) ∧
      (∀ pc : VAddr, s.resumeTarget x.gid pc = true → ∃ (t : State) (g' : Group) (en' : Entry),
        exec (.handlerResumeAt x pc) s = .next t ∧ x ∉ t.pendingNotices ∧ t.group x.gid = some g' ∧ g'.entry e = some en' ∧
        en'.pc = pc.setWidth 57 ∧ en'.mask = en.mask ∧ en'.trapRec = none ∧ en'.xfer = none ∧
        en'.st = (if en.slide.isSome then .awaitingFull else .ready) ∧ g'.v = g.v ∧ g'.s = g.s) ∧
      (∀ w, debug = false → exec (.handlerWriteState x w) s = .next s) ∧
      (∀ (n l : Nat) (v : Word32), debug = true → n < g.w → inMask en.mask l = true → l < 64 → ∃ (t : State) (g' : Group),
        exec (.handlerWriteState x ⟨[], [], [(n, l, v)], [], []⟩) s = .next t ∧ t.pendingNotices = s.pendingNotices ∧
        t.group x.gid = some g' ∧ g'.getV (g.slotOf en.wbase n) l = v ∧ g'.s = g.s ∧ g'.table = g.table) ∧
      (∃ (t : State) (g' : Group), exec (.handlerKillLanes x) s = .next t ∧ x ∉ t.pendingNotices ∧ t.group x.gid = some g' ∧
        g'.handled = true ∧ ∀ l, inMask en.mask l = true → inMask g'.left l = true))) ∧
  (∀ (s : State) (gid : Nat) (g : Group) (tm : Team) (l : Launch), s.where' gid = some (g, tm, l) → g.saved = false →
    g.lanesGone = false → g.hangSet = none → g.unstopped = true →
    (tm.saving = false → g.stopReq = false → ∃ (t : State) (g' : Group) (r : FRec), exec (.hangDetected gid) s = .next t ∧
      t.group gid = some g' ∧ t.pushQ = s.pushQ ++ [r] ∧ r.cause = .hang ∧ r.who = .hang gid ∧ g'.hangSet = some r.set ∧
      (∀ e en, g.entry e = some en → en.join = false → (en.st = .ready ∨ en.st = .awaitingFull) → ∃ en',
        g'.entry e = some en' ∧ en'.st = .parked ∧ en'.hangOld = some en.st ∧ en'.pc = en.pc ∧ en'.runpos = en.runpos) ∧
      (g.aHalted = false → g'.aStopped = true) ∧ g'.v = g.v ∧ g'.s = g.s) ∧
    (tm.saving = true → ∃ (t : State) (g' : Group), exec (.hangDetected gid) s = .next t ∧ t.group gid = some g' ∧
      (g.retired = false → g.killed = false → g'.killed = true))) ∧
  (∀ (s : State) (gid : Nat) (b : Bool), let debug := (s.part ((s.partOf gid).getD 0)).policy.debug
    (debug = true → exec (.gstopWrite gid b) s = .next (s.updGroup gid (fun g => { g with gstop := b }))) ∧
    (debug = false → exec (.gstopWrite gid b) s = .next s)) ∧
  (∀ (s : State) (sel : PreemptSel), (s.stage ≠ .ready → exec (.preemptRequest sel) s = .next (s.emit .notReady)) ∧
    (s.stage = .ready → (∀ g ∈ s.groups, g.2.hangSet = none) → ∃ t : State, exec (.preemptRequest sel) s = .next t ∧
      ∀ tid tm l, s.team tid = some tm → s.launch tm.launch = some l → tm.saved = false → tm.saving = false → tm.retired = false →
        (∀ q, sel = .queue q → l.queue = q ∧ l.ref.home = Config.chip.toNat) → (∀ p, sel = .partition p → l.part = p) →
        (∃ tm' : Team, t.team tid = some tm' ∧ tm'.saving = true) ∧
        ∀ gid g, gid ∈ tm.gids → s.group gid = some g → g.retired = false → g.killed = false →
          ∃ g' : Group, t.group gid = some g' ∧ g'.stopReq = true)) ∧
  (∀ (s : State) (tid : Nat) (tm : Team), s.team tid = some tm → tm.saving = true → (∃ g ∈ tm.gids.filterMap s.group, g.retired = false) →
    (∀ g ∈ tm.gids.filterMap s.group, g.settled = true) →
    (∀ gid g, gid ∈ tm.gids → s.group gid = some g → s.drainsDone gid g.coreId = true) →
    ∃ (u : State) (tm' : Team), exec (.teamSave tid) s = .next u ∧ u.team tid = some tm' ∧ tm'.saved = true ∧ tm'.saving = false ∧
      tm'.gids = tm.gids ∧ tm'.scratch = tm.scratch ∧ ∀ gid g, gid ∈ tm.gids → s.group gid = some g → g.retired = false →
        ∃ g' : Group, u.group gid = some g' ∧ g'.saved = true ∧ g'.v = g.v ∧ g'.s = g.s ∧ g'.p = g.p ∧ g'.k = g.k ∧
          g'.table = g.table ∧ g'.apc = g.apc ∧ g'.t = [] ∧ g'.accs = []) ∧
  (∀ (s : State) (tid die : Nat) (cores : List Nat) (tm : Team) (l : Launch), ResumeReady s tid die cores tm l →
    ∃ (u : State) (tm' : Team), exec (.teamResume tid die cores) s = .next u ∧ u.team tid = some tm' ∧ tm'.saved = false ∧
      tm'.die = die ∧ tm'.cores = cores ∧ tm'.scratch = tm.scratch ∧ ∀ gid g, gid ∈ tm.gids → s.group gid = some g →
        g.retired = false → g.killed = false → ∃ g' : Group, u.group gid = some g' ∧ g'.saved = false ∧ g'.stopReq = false ∧
          g'.v = g.v ∧ g'.s = g.s ∧ g'.p = g.p ∧ g'.table = g.table ∧ g'.apc = g.apc)

/-- 01 R44; 10 R247; 18 R393, R394, R477; 19 R418, R419; 20 R432; 21 R447, R449-R453, R456, R458: management. Before READY a mailbox
request is answered NOTREADY. A queue is created with a good configuration, and gives its partition a key; in CONFIG_LOCKED and RUN a
change is an error. Policies and firmware need both signatures; limits, operating points, keys, counters and registers take their
values, and a function reaches its own partition alone. -/
def Obligations.ManagementRequestsTakeEffect : Prop :=
  (∀ (s : State) (q : Nat) (c : QueueConfig) (d part v core ix sel fn : Nat) (set : BitVec 8) (p : Policy) (root : Nat),
    s.stage ≠ .ready → ∀ i ∈ [Instr.queueCreate q c, .queueRestart q, .permittedSetWrite d set, .plimWrite d v,
      .tenantPolicyLoad part p true true, .perfSelectWrite part d core ix sel, .keyRevoke part, .powerStatePs1, .powerStatePs2,
      .powerStatePs3, .mailboxRegisterWrite fn (.ridgeRoot part root), .mailboxRegisterWrite fn (.queueStatus q)],
    exec i s = .next (s.emit .notReady)) ∧
  (∀ (s : State) (q : Nat) (c : QueueConfig), s.stage = .ready → q < 256 → c.part < 64 →
    (((s.part c.part).tdisp = .locked ∨ (s.part c.part).tdisp = .run) → exec (.queueCreate q c) s = .next (s.enterError c.part)) ∧
    ((s.part c.part).tdisp = .unlocked → (s.queue q = none ∧ QueueConfig.ok c (s.part c.part).policy = true → ∃ (t : State) (y : Queue),
        exec (.queueCreate q c) s = .next t ∧ t.queue q = some y ∧ y.cfg = c ∧ y.st = .run ∧ y.ridx = 0 ∧ y.widx = 0 ∧ y.seq = 0 ∧
        y.busy = .none ∧ (t.part c.part).keyLoaded = true ∧ (∀ k, k ≠ q → t.queue k = s.queue k) ∧ t.mem = s.mem) ∧
      (QueueConfig.ok c (s.part c.part).policy = false → exec (.queueCreate q c) s = .next s))) ∧
  (∀ (s : State) (q : Nat) (x : Queue), s.stage = .ready → s.queue q = some x →
    (x.st ≠ .stopped → exec (.queueRestart q) s = .next s) ∧
    ((s.part x.cfg.part).tdisp = .error → exec (.queueRestart q) s = .next s) ∧
    (x.st = .stopped → (s.part x.cfg.part).tdisp ≠ .error → x.busy = .none →
      exec (.queueRestart q) s = .next ((s.updQueue q (fun x => { x with st := .run })).ringTest q))) ∧
  (∀ (s : State) (die w : Nat) (set : BitVec 8), s.stage = .ready → die < 2 →
    (set ≠ 0 → ∃ t : State, exec (.permittedSetWrite die set) s = .next t ∧ (t.die die).permitted = set ∧
      (t.die die).point = (s.die die).point ∧ (∀ k, k ≠ die → t.die k = s.die k) ∧
      (∃ p, set.getLsbD p = true ∧ (t.die die).moving.getD (t.die die).point = p)) ∧
    (∃ t : State, exec (.plimWrite die w) s = .next t ∧ (t.die die).plim = w ∧ (t.die die).alarm = (s.die die).alarm ∧
      ∀ k, k ≠ die → t.die k = s.die k)) ∧
  (∀ (s : State) (part v : Nat), part < 64 →
    (s.stage = .ready → 20 ≤ v → v ≤ 34 → ∃ t : State, exec (.hlogWrite part v) s = .next t ∧ (t.part part).hlog = v ∧
      (t.part part).policy = (s.part part).policy ∧ ∀ k, k ≠ part → t.part k = s.part k) ∧
    ((v < 20 ∨ 34 < v) → exec (.hlogWrite part v) s = .next s) ∧
    (s.stage ≠ .off → ∃ t : State, exec (.keyDelivery part) s = .next t ∧ (t.part part).keyLoaded = true ∧
      (t.part part).keyEpoch = (s.part part).keyEpoch + 1 ∧ (∀ k, k ≠ part → t.part k = s.part k) ∧ t.mem = s.mem) ∧
    (s.stage = .ready → ∃ t : State, exec (.keyRevoke part) s = .next t ∧ (t.part part).keyLoaded = false ∧
      (t.part part).policy = (s.part part).policy ∧ (∀ k, k ≠ part → t.part k = s.part k) ∧ t.mem = s.mem)) ∧
  (∀ (s : State) (part version : Nat) (p : Policy) (a b : Bool),
    (s.stage = .ready → part < 64 → ∃ t : State, exec (.tenantPolicyLoad part p true true) s = .next t ∧ (t.part part).policy = p ∧
      (∀ k, k ≠ part → t.part k = s.part k) ∧ (p.perf = false → ∀ c ∈ t.perf, c.2.2.1 ≠ part)) ∧
    (s.stage = .ready → (a = false ∨ b = false) → exec (.tenantPolicyLoad part p a b) s = .next s) ∧
    (s.stage ≠ .off → Config.firmwareVersion ≤ version →
      exec (.firmwareLoad version true true) s = .next { s with fwVersion := version }) ∧
    ((a = false ∨ b = false ∨ version < Config.firmwareVersion) → exec (.firmwareLoad version a b) s = .next s)) ∧
  (∀ (s : State) (part die core ix sel : Nat), s.stage = .ready → die < 2 → core < 96 → ix < 8 → sel < 32 →
    let key := coreId die core * 8 + ix
    ((s.part part).policy.perf = false → exec (.perfSelectWrite part die core ix sel) s = .next s) ∧
    ((s.part part).policy.perf = true → look s.perf key = none → sel ≠ 0 →
      exec (.perfSelectWrite part die core ix sel) s = .next { s with perf := put s.perf key (sel, part, 0) }) ∧
    ((s.part part).policy.perf = true → ∀ old n, look s.perf key = some (old, part, n) → ∃ t : State,
      exec (.perfSelectWrite part die core ix sel) s = .next t ∧
      look t.perf key = if sel = 0 then none else some (sel, part, n))) ∧
  (∀ (s : State) (fn part die kvb lmax row0 nr base : Nat) (pages : List Nat) (q : Nat),
    (s.stage ≠ .off → ∃ m : OutMsg, exec (.mailboxRegisterWrite fn .status) s = .next (s.emit m) ∧
      ∃ l, m = .status s.stage s.thermtrip s.crcErrors s.crcLast s.cxlDropped l) ∧
    (s.stage = .ready →
      (mayManage fn part = true → part < 64 → ∃ t1 t2 t3 : State,
        exec (.mailboxRegisterWrite fn (.ridgeRoot part base)) s = .next t1 ∧ (t1.part part).ridgeRoot = some base ∧
        exec (.mailboxRegisterWrite fn (.scaleBase part base)) s = .next t2 ∧ (t2.part part).scaleBase = some base ∧
        exec (.mailboxRegisterWrite fn (.cowPages part pages)) s = .next t3 ∧ (t3.part part).cowPages = pages ∧
        ∀ k, k ≠ part → t1.part k = s.part k ∧ t2.part k = s.part k ∧ t3.part k = s.part k) ∧
      (mayManage fn part = true → part < 64 → die < 2 → kvb % 32768 = 0 → 1 ≤ lmax → lmax ≤ 255 → row0 + nr ≤ 2 ^ 28 →
        s.rows = [] → look s.pools (poolKey part (1 - die)) = none → ∃ t : State,
          exec (.mailboxRegisterWrite fn (.pool part die kvb lmax row0 nr)) s = .next t ∧
          look t.pools (poolKey part die) = some ⟨kvb, lmax, row0, nr⟩ ∧ look t.freeRows (poolKey part die) = some (from' row0 nr)) ∧
      (mayManage fn part = false → exec (.mailboxRegisterWrite fn (.ridgeRoot part base)) s = .next s ∧
        exec (.mailboxRegisterWrite fn (.scaleBase part base)) s = .next s ∧
        exec (.mailboxRegisterWrite fn (.cowPages part pages)) s = .next s ∧
        exec (.mailboxRegisterWrite fn (.pool part die kvb lmax row0 nr)) s = .next s ∧
        ∀ x, s.queue q = some x → x.cfg.part = part → exec (.mailboxRegisterWrite fn (.queueStatus q)) s = .next s) ∧
      (∀ x, s.queue q = some x → mayManage fn x.cfg.part = true →
        exec (.mailboxRegisterWrite fn (.queueStatus q)) s = .next (s.emit (.queueStatus q x.lost)))))

/-- 21 R447, R449-R451, R454-R459; 01 R44; 15 R347; 20 R432: start, power, TDISP and errors. Interfaces are locked, started and
stopped; a failed IDE stream stops the partition's queues and kills its teams, as a function-level reset does, which also revokes its
key. The device starts, reaches READY with the ports that trained, and goes to its power states; at PS3 and at PERST# nothing stays
resident and no key loaded. Alarms are raised above their limits and cleared below them; an uncorrectable line or K-block is marked. -/
def Obligations.StartPowerAndErrorsTakeEffect : Prop :=
  (∀ (s : State) (v : Nat), v < 64 → s.stage ≠ .off →
    ((s.part v).tdisp = .unlocked → ∃ t : State, exec (.lockInterface v) s = .next t ∧ (t.part v).tdisp = .locked ∧
      ∀ k, k ≠ v → t.part k = s.part k) ∧
    ((s.part v).tdisp ≠ .unlocked → exec (.lockInterface v) s = .next s) ∧
    ((s.part v).tdisp = .locked → ∃ t : State, exec (.startInterface v) s = .next t ∧ (t.part v).tdisp = .run ∧
      ∀ k, k ≠ v → t.part k = s.part k) ∧
    ((s.part v).tdisp ≠ .locked → exec (.startInterface v) s = .next s) ∧
    (∃ t : State, exec (.stopInterface v) s = .next t ∧ (t.part v).tdisp = .unlocked ∧ ∀ k, k ≠ v → t.part k = s.part k) ∧
    (let ends (t : State) : Prop :=
      (∀ q x, s.queue q = some x → x.cfg.part = v → ∃ y, t.queue q = some y ∧ y.st = .stopped ∧ y.ridx = x.ridx) ∧
      (∀ tid tm l gid g, s.team tid = some tm → s.launch tm.launch = some l → l.part = v → tm.retired = false → gid ∈ tm.gids →
        s.group gid = some g → g.retired = false → ∃ g' : Group, t.group gid = some g' ∧ g'.killed = true)
     ((s.part v).tdisp = .run → ∃ t : State, exec (.ideFailure v) s = .next t ∧ (t.part v).tdisp = .error ∧ ends t) ∧
     (∃ t : State, exec (.flr v) s = .next t ∧ (t.part v).tdisp = .unlocked ∧ (t.part v).keyLoaded = false ∧ ends t)) ∧
    ((s.part v).tdisp ≠ .run → exec (.ideFailure v) s = .next s) ∧
    (∀ r : SpdmRequest, exec (.spdmRequest v r) s = .next (s.emit (.spdm v r s.stage s.fwVersion (s.part v).policy)))) ∧
  (∀ (s : State) (ports : BitVec 32),
    (s.stage = .off → exec .perstRelease s = .next { s with stage := .baseCamp }) ∧
    (s.stage ≠ .off → exec .perstRelease s = .next s) ∧
    (s.stage = .baseCamp → s.power ≠ .ps3 → exec (.summitComplete false ports) s = .next { s with stage := .failed } ∧
      ∃ t : State, exec (.summitComplete true ports) s = .next t ∧ t.stage = .ready ∧
        (∀ p, p < 32 → (t.port p).up = ports.getLsbD p) ∧ t.groups = s.groups ∧ t.mem = s.mem) ∧
    (s.stage ≠ .baseCamp → exec (.summitComplete true ports) s = .next s)) ∧
  (∀ s : State, let empty (t : State) : Prop :=
      ∀ n : Nat, t.group n = none ∧ t.team n = none ∧ t.launch n = none ∧ t.queue n = none ∧ look t.trees n = none ∧
        (t.part n).keyLoaded = false ∧ (t.part n).tdisp = .unlocked
    (∃ t : State, exec .perstAssertion s = .next t ∧ t.stage = .off ∧ t.power = .ps0 ∧ t.fwVersion = s.fwVersion ∧ empty t) ∧
    (s.stage = .ready → ∃ t : State, exec .powerStatePs3 s = .next t ∧ t.stage = .baseCamp ∧ t.power = .ps3 ∧ empty t) ∧
    (s.power = .ps3 → exec .powerStatePs0 s = .next { s with power := .ps0 }) ∧
    (s.power ≠ .ps3 → s.stage = .ready → exec .powerStatePs0 s = .next { s with power := .ps0, powerWant := none }) ∧
    (s.stage = .ready → s.teams = [] → exec .powerStatePs1 s = .next { s with power := .ps1, powerWant := none } ∧
      exec .powerStatePs2 s = .next { s with power := .ps2, powerWant := none })) ∧
  (∀ (s : State) (die power temp : Nat), die < 2 →
    (((s.die die).plim < power ∨ 105 < temp) → ∃ t : State, exec (.powerAlarmRaise die power temp) s = .next t ∧
      (t.die die).alarm = true ∧ (t.die die).point = (s.die die).point ∧ ∀ k, k ≠ die → t.die k = s.die k) ∧
    (power ≤ (s.die die).plim → temp ≤ 105 → exec (.powerAlarmRaise die power temp) s = .next s) ∧
    (100 * power < 95 * (s.die die).plim → temp < 100 → ∃ t : State, exec (.powerAlarmClear die power temp) s = .next t ∧
      (t.die die).alarm = false ∧ (t.die die).point = (s.die die).point ∧ ∀ k, k ≠ die → t.die k = s.die k) ∧
    ((95 * (s.die die).plim ≤ 100 * power ∨ 100 ≤ temp) → exec (.powerAlarmClear die power temp) s = .next s) ∧
    (120 ≤ temp → s.thermtrip = false → exec (.thermtrip temp) s = .next ({ s with thermtrip := true }.emit .thermtrip)) ∧
    (temp < 120 → exec (.thermtrip temp) s = .next s)) ∧
  (∀ (s : State) (die core quarter mac col : Nat), die < 2 → core < 96 → quarter < 4 → mac < 8 → col < 128 → s.mxOps = [] →
    let q := coreId die core * 4 + quarter
    exec (.macroReadback die core quarter mac col .clean) s = .next s ∧
    (∃ t : State, exec (.macroReadback die core quarter mac col .corrected) s = .next t ∧
      (t.die die).corrections = (s.die die).corrections + 1 ∧ t.macs = s.macs ∧ t.invs = s.invs) ∧
    (∀ kb, kb < 4 → ∃ t : State, exec (.macroReadback die core quarter mac col (.uncorrectable kb)) s = .next t ∧
      (let m := if rd .none s.tags (q * 8 + mac) = .bf16hi then mac - 1 else mac
       rd false t.invs (expKey q m col kb) = true ∧ ∀ k, k ≠ expKey q m col kb → rd false t.invs k = rd false s.invs k) ∧
      t.macs = s.macs ∧ t.tiles = s.tiles)) ∧
  (∀ (s : State) (pa : Nat), isHbm pa = true →
    exec (.patrolScrub pa .clean) s = .next s ∧
    (∃ t : State, exec (.patrolScrub pa .corrected) s = .next t ∧
      (t.die (dieOfPa pa)).corrections = (s.die (dieOfPa pa)).corrections + 1 ∧ t.poison = s.poison ∧ t.mem = s.mem) ∧
    (∀ n, ∃ t : State, exec (.patrolScrub pa (.uncorrectable n)) s = .next t ∧ t.poisoned pa = true ∧ t.mem = s.mem ∧
      ∀ x, x / 64 ≠ pa / 64 → t.poisoned x = s.poisoned x))
end

