-- ==== Sys2Proof/Laws/Map.lean ====
section
/-!
SUPPORT. The laws of tables: a read after a write, other keys left alone, and the canonical form kept.
-/
namespace Sys2Proof.Machine

variable {β : Type}

@[simp] theorem look_nil (k : Nat) : look ([] : AMap β) k = none := rfl
@[simp] theorem rd_nil (d : β) (k : Nat) : rd d [] k = d := rfl

@[simp] theorem look_put_self (m : AMap β) (k : Nat) (b : β) : look (put m k b) k = some b := by
  induction m with
  | nil => simp [put, look]
  | cons e r ih =>
    simp only [put]
    split
    · simp [look]
    · split
      · simp [look]
      · simp only [look]; rw [if_neg (by omega)]; exact ih

theorem look_put_ne (m : AMap β) {k j : Nat} (b : β) (h : j ≠ k) : look (put m k b) j = look m j := by
  induction m with
  | nil => simp [put, look, Ne.symm h]
  | cons e r ih =>
    simp only [put]
    split
    · simp [look, Ne.symm h]
    · split
      · subst k; simp [look, Ne.symm h]
      · simp only [look, ih]

theorem look_put (m : AMap β) (k j : Nat) (b : β) : look (put m k b) j = if j = k then some b else look m j := by
  split
  · subst j; simp
  · exact look_put_ne m b ‹_›

/-- Every key of a table with rising keys lies above its first. -/
theorem keysRise_head {k : Nat} {b : β} {r : AMap β} (h : keysRise ((k, b) :: r) = true) : ∀ e ∈ r, k < e.1 := by
  induction r generalizing k b with
  | nil => simp
  | cons e r ih =>
    obtain ⟨k', b'⟩ := e
    simp only [keysRise, Bool.and_eq_true, decide_eq_true_eq] at h
    intro x hx
    rcases List.mem_cons.1 hx with rfl | hx
    · exact h.1
    · exact Nat.lt_trans h.1 (ih h.2 x hx)

theorem keysRise_tail {e : Nat × β} {r : AMap β} (h : keysRise (e :: r) = true) : keysRise r = true := by
  cases r with
  | nil => rfl
  | cons f r => simp only [keysRise, Bool.and_eq_true] at h; exact h.2

theorem keysRise_cons {k : Nat} {b : β} {r : AMap β} (h : ∀ e ∈ r, k < e.1) (hr : keysRise r = true) :
    keysRise ((k, b) :: r) = true := by
  cases r with
  | nil => rfl
  | cons f r =>
    simp only [keysRise, Bool.and_eq_true, decide_eq_true_eq]
    exact ⟨h f (by simp), hr⟩

theorem mem_put {m : AMap β} {k : Nat} {b : β} {e : Nat × β} (h : e ∈ put m k b) : e = (k, b) ∨ e ∈ m := by
  induction m with
  | nil => simpa [put] using h
  | cons f r ih =>
    obtain ⟨k', b'⟩ := f
    simp only [put] at h
    split at h
    · rcases List.mem_cons.1 h with rfl | h
      · exact .inl rfl
      · exact .inr h
    · split at h
      · rcases List.mem_cons.1 h with rfl | h
        · exact .inl rfl
        · exact .inr (List.mem_cons_of_mem _ h)
      · rcases List.mem_cons.1 h with rfl | h
        · exact .inr (by simp)
        · rcases ih h with h | h
          · exact .inl h
          · exact .inr (List.mem_cons_of_mem _ h)

theorem mem_del {m : AMap β} {k : Nat} {e : Nat × β} (h : e ∈ del m k) : e ∈ m := by
  induction m with
  | nil => simp [del] at h
  | cons f r ih =>
    simp only [del] at h
    split at h
    · exact List.mem_cons_of_mem _ (ih h)
    · rcases List.mem_cons.1 h with rfl | h
      · simp
      · exact List.mem_cons_of_mem _ (ih h)

theorem keysRise_put {m : AMap β} (k : Nat) (b : β) (h : keysRise m = true) : keysRise (put m k b) = true := by
  induction m with
  | nil => rfl
  | cons f r ih =>
    obtain ⟨k', b'⟩ := f
    simp only [put]
    split
    · rename_i hk
      refine keysRise_cons (fun e he => ?_) h
      rcases List.mem_cons.1 he with rfl | he
      · exact hk
      · exact Nat.lt_trans hk (keysRise_head h e he)
    · split
      · subst k'; exact keysRise_cons (keysRise_head h) (keysRise_tail h)
      · refine keysRise_cons (fun e he => ?_) (ih (keysRise_tail h))
        rcases mem_put he with rfl | he
        · simp only; omega
        · exact keysRise_head h e he

theorem keysRise_del {m : AMap β} (k : Nat) (h : keysRise m = true) : keysRise (del m k) = true := by
  induction m with
  | nil => rfl
  | cons f r ih =>
    simp only [del]
    split
    · exact ih (keysRise_tail h)
    · exact keysRise_cons (fun e he => keysRise_head h e (mem_del he)) (ih (keysRise_tail h))

@[simp] theorem look_del_self (m : AMap β) (k : Nat) : look (del m k) k = none := by
  induction m with
  | nil => rfl
  | cons f r ih =>
    simp only [del]
    split
    · exact ih
    · simp only [look]; rw [if_neg (by omega)]; exact ih

theorem look_del_ne (m : AMap β) {k j : Nat} (hj : j ≠ k) : look (del m k) j = look m j := by
  induction m with
  | nil => rfl
  | cons f r ih =>
    simp only [del]
    split
    · subst k; simp [look, ih, Ne.symm hj]
    · simp only [look, ih]

section Default
variable [DecidableEq β]

/-- A read after a write to the same key. -/
@[simp] theorem rd_wr_self (d : β) (m : AMap β) (k : Nat) (b : β) : rd d (wr d m k b) k = b := by
  unfold wr rd
  split
  · subst b; simp
  · simp

/-- A write leaves every other key alone. -/
theorem rd_wr_ne (d : β) (m : AMap β) {k j : Nat} (b : β) (hj : j ≠ k) : rd d (wr d m k b) j = rd d m j := by
  unfold wr rd
  split
  · rw [look_del_ne m hj]
  · rw [look_put_ne m b hj]

theorem rd_wr (d : β) (m : AMap β) (k j : Nat) (b : β) : rd d (wr d m k b) j = if j = k then b else rd d m j := by
  split
  · subst j; exact rd_wr_self d m k b
  · exact rd_wr_ne d m b ‹_›

theorem keysRise_wr (d : β) {m : AMap β} (k : Nat) (b : β) (h : keysRise m = true) : keysRise (wr d m k b) = true := by
  unfold wr
  split
  · exact keysRise_del k h
  · exact keysRise_put k b h

/-- A write lists no entry that equals the default. -/
theorem wr_noDefault (d : β) {m : AMap β} (k : Nat) (b : β) (h : ∀ e ∈ m, e.2 ≠ d) : ∀ e ∈ wr d m k b, e.2 ≠ d := by
  intro e he
  unfold wr at he
  split at he
  · exact h e (mem_del he)
  · rename_i hb
    rcases mem_put he with rfl | he
    · exact hb
    · exact h e he

end Default

theorem mem_upd {m : AMap β} {k : Nat} {f : β → β} {e : Nat × β} (h : e ∈ upd m k f) :
    e ∈ m ∨ ∃ b, look m k = some b ∧ e = (k, f b) := by
  unfold upd at h
  split at h
  · rename_i b hb
    rcases mem_put h with rfl | h
    · exact .inr ⟨b, hb, rfl⟩
    · exact .inl h
  · exact .inl h

theorem look_upd_self (m : AMap β) (k : Nat) (f : β → β) : look (upd m k f) k = (look m k).map f := by
  unfold upd
  split
  · rename_i b hb; simp [hb]
  · rename_i hb; simp [hb]

theorem look_upd_ne (m : AMap β) {k j : Nat} (f : β → β) (h : j ≠ k) : look (upd m k f) j = look m j := by
  unfold upd
  split
  · exact look_put_ne m _ h
  · rfl

theorem keysRise_upd {m : AMap β} (k : Nat) (f : β → β) (h : keysRise m = true) : keysRise (upd m k f) = true := by
  unfold upd
  split
  · exact keysRise_put _ _ h
  · exact h

theorem keysRise_filter {m : AMap β} (p : Nat × β → Bool) (h : keysRise m = true) : keysRise (m.filter p) = true := by
  induction m with
  | nil => rfl
  | cons e r ih =>
    obtain ⟨k, b⟩ := e
    have hr := ih (keysRise_tail h)
    simp only [List.filter_cons]
    split
    · exact keysRise_cons (fun e he => keysRise_head h e (List.mem_filter.1 he).1) hr
    · exact hr

theorem look_mem {m : AMap β} {k : Nat} {b : β} (h : look m k = some b) : (k, b) ∈ m := by
  induction m with
  | nil => simp at h
  | cons e r ih =>
    simp only [look] at h
    split at h
    · obtain ⟨_, _⟩ := e; simp_all
    · exact List.mem_cons_of_mem _ (ih h)

end Sys2Proof.Machine
end

