-- ==== Sys2Proof/Laws/State.lean ====
section
/-!
SUPPORT. What each update of the state leaves alone: one lemma per field per update, true by unfolding, so that no later proof
opens a record update.
-/
namespace Sys2Proof.Machine

/-! ### Updates of the state -/

variable (s : State) (g : Group)

@[simp] theorem setGroup_tick (a) (b) : (s.setGroup a b).tick = s.tick := rfl
@[simp] theorem setGroup_agenda (a) (b) : (s.setGroup a b).agenda = s.agenda := rfl
@[simp] theorem setGroup_focus (a) (b) : (s.setGroup a b).focus = s.focus := rfl
@[simp] theorem setGroup_nextId (a) (b) : (s.setGroup a b).nextId = s.nextId := rfl
@[simp] theorem setGroup_outbox (a) (b) : (s.setGroup a b).outbox = s.outbox := rfl
@[simp] theorem setGroup_mem (a) (b) : (s.setGroup a b).mem = s.mem := rfl
@[simp] theorem setGroup_poison (a) (b) : (s.setGroup a b).poison = s.poison := rfl
@[simp] theorem setGroup_keyOf (a) (b) : (s.setGroup a b).keyOf = s.keyOf := rfl
@[simp] theorem setGroup_cc (a) (b) : (s.setGroup a b).cc = s.cc := rfl
@[simp] theorem setGroup_l1 (a) (b) : (s.setGroup a b).l1 = s.l1 := rfl
@[simp] theorem setGroup_rl (a) (b) : (s.setGroup a b).rl = s.rl := rfl
@[simp] theorem setGroup_slicePins (a) (b) : (s.setGroup a b).slicePins = s.slicePins := rfl
@[simp] theorem setGroup_pins (a) (b) : (s.setGroup a b).pins = s.pins := rfl
@[simp] theorem setGroup_tcache (a) (b) : (s.setGroup a b).tcache = s.tcache := rfl
@[simp] theorem setGroup_stcache (a) (b) : (s.setGroup a b).stcache = s.stcache := rfl
@[simp] theorem setGroup_fcache (a) (b) : (s.setGroup a b).fcache = s.fcache := rfl
@[simp] theorem setGroup_bias (a) (b) : (s.setGroup a b).bias = s.bias := rfl
@[simp] theorem setGroup_wc (a) (b) : (s.setGroup a b).wc = s.wc := rfl
@[simp] theorem setGroup_reqs (a) (b) : (s.setGroup a b).reqs = s.reqs := rfl
@[simp] theorem setGroup_ports (a) (b) : (s.setGroup a b).ports = s.ports := rfl
@[simp] theorem setGroup_crcErrors (a) (b) : (s.setGroup a b).crcErrors = s.crcErrors := rfl
@[simp] theorem setGroup_crcLast (a) (b) : (s.setGroup a b).crcLast = s.crcLast := rfl
@[simp] theorem setGroup_cxlDropped (a) (b) : (s.setGroup a b).cxlDropped = s.cxlDropped := rfl
@[simp] theorem setGroup_teams (a) (b) : (s.setGroup a b).teams = s.teams := rfl
@[simp] theorem setGroup_launches (a) (b) : (s.setGroup a b).launches = s.launches := rfl
@[simp] theorem setGroup_coreBars (a) (b) : (s.setGroup a b).coreBars = s.coreBars := rfl
@[simp] theorem setGroup_drainStore (a) (b) : (s.setGroup a b).drainStore = s.drainStore := rfl
@[simp] theorem setGroup_macs (a) (b) : (s.setGroup a b).macs = s.macs := rfl
@[simp] theorem setGroup_tags (a) (b) : (s.setGroup a b).tags = s.tags := rfl
@[simp] theorem setGroup_exps (a) (b) : (s.setGroup a b).exps = s.exps := rfl
@[simp] theorem setGroup_invs (a) (b) : (s.setGroup a b).invs = s.invs := rfl
@[simp] theorem setGroup_tiles (a) (b) : (s.setGroup a b).tiles = s.tiles := rfl
@[simp] theorem setGroup_scales (a) (b) : (s.setGroup a b).scales = s.scales := rfl
@[simp] theorem setGroup_narrow (a) (b) : (s.setGroup a b).narrow = s.narrow := rfl
@[simp] theorem setGroup_mxOps (a) (b) : (s.setGroup a b).mxOps = s.mxOps := rfl
@[simp] theorem setGroup_dlOps (a) (b) : (s.setGroup a b).dlOps = s.dlOps := rfl
@[simp] theorem setGroup_drains (a) (b) : (s.setGroup a b).drains = s.drains := rfl
@[simp] theorem setGroup_cpOps (a) (b) : (s.setGroup a b).cpOps = s.cpOps := rfl
@[simp] theorem setGroup_collOps (a) (b) : (s.setGroup a b).collOps = s.collOps := rfl
@[simp] theorem setGroup_textOps (a) (b) : (s.setGroup a b).textOps = s.textOps := rfl
@[simp] theorem setGroup_mailbox (a) (b) : (s.setGroup a b).mailbox = s.mailbox := rfl
@[simp] theorem setGroup_mbSeq (a) (b) : (s.setGroup a b).mbSeq = s.mbSeq := rfl
@[simp] theorem setGroup_lexicons (a) (b) : (s.setGroup a b).lexicons = s.lexicons := rfl
@[simp] theorem setGroup_grammars (a) (b) : (s.setGroup a b).grammars = s.grammars := rfl
@[simp] theorem setGroup_cells (a) (b) : (s.setGroup a b).cells = s.cells := rfl
@[simp] theorem setGroup_trees (a) (b) : (s.setGroup a b).trees = s.trees := rfl
@[simp] theorem setGroup_treeOps (a) (b) : (s.setGroup a b).treeOps = s.treeOps := rfl
@[simp] theorem setGroup_pools (a) (b) : (s.setGroup a b).pools = s.pools := rfl
@[simp] theorem setGroup_rows (a) (b) : (s.setGroup a b).rows = s.rows := rfl
@[simp] theorem setGroup_freeRows (a) (b) : (s.setGroup a b).freeRows = s.freeRows := rfl
@[simp] theorem setGroup_bcasts (a) (b) : (s.setGroup a b).bcasts = s.bcasts := rfl
@[simp] theorem setGroup_queues (a) (b) : (s.setGroup a b).queues = s.queues := rfl
@[simp] theorem setGroup_pushQ (a) (b) : (s.setGroup a b).pushQ = s.pushQ := rfl
@[simp] theorem setGroup_faultQ (a) (b) : (s.setGroup a b).faultQ = s.faultQ := rfl
@[simp] theorem setGroup_rseq (a) (b) : (s.setGroup a b).rseq = s.rseq := rfl
@[simp] theorem setGroup_forwarded (a) (b) : (s.setGroup a b).forwarded = s.forwarded := rfl
@[simp] theorem setGroup_notices (a) (b) : (s.setGroup a b).notices = s.notices := rfl
@[simp] theorem setGroup_pendingNotices (a) (b) : (s.setGroup a b).pendingNotices = s.pendingNotices := rfl
@[simp] theorem setGroup_parts (a) (b) : (s.setGroup a b).parts = s.parts := rfl
@[simp] theorem setGroup_dies (a) (b) : (s.setGroup a b).dies = s.dies := rfl
@[simp] theorem setGroup_perf (a) (b) : (s.setGroup a b).perf = s.perf := rfl
@[simp] theorem setGroup_stage (a) (b) : (s.setGroup a b).stage = s.stage := rfl
@[simp] theorem setGroup_power (a) (b) : (s.setGroup a b).power = s.power := rfl
@[simp] theorem setGroup_powerWant (a) (b) : (s.setGroup a b).powerWant = s.powerWant := rfl
@[simp] theorem setGroup_fwVersion (a) (b) : (s.setGroup a b).fwVersion = s.fwVersion := rfl
@[simp] theorem setGroup_thermtrip (a) (b) : (s.setGroup a b).thermtrip = s.thermtrip := rfl

@[simp] theorem updGroup_tick (a) (f) : (s.updGroup a f).tick = s.tick := rfl
@[simp] theorem updGroup_agenda (a) (f) : (s.updGroup a f).agenda = s.agenda := rfl
@[simp] theorem updGroup_focus (a) (f) : (s.updGroup a f).focus = s.focus := rfl
@[simp] theorem updGroup_nextId (a) (f) : (s.updGroup a f).nextId = s.nextId := rfl
@[simp] theorem updGroup_outbox (a) (f) : (s.updGroup a f).outbox = s.outbox := rfl
@[simp] theorem updGroup_mem (a) (f) : (s.updGroup a f).mem = s.mem := rfl
@[simp] theorem updGroup_poison (a) (f) : (s.updGroup a f).poison = s.poison := rfl
@[simp] theorem updGroup_keyOf (a) (f) : (s.updGroup a f).keyOf = s.keyOf := rfl
@[simp] theorem updGroup_cc (a) (f) : (s.updGroup a f).cc = s.cc := rfl
@[simp] theorem updGroup_l1 (a) (f) : (s.updGroup a f).l1 = s.l1 := rfl
@[simp] theorem updGroup_rl (a) (f) : (s.updGroup a f).rl = s.rl := rfl
@[simp] theorem updGroup_slicePins (a) (f) : (s.updGroup a f).slicePins = s.slicePins := rfl
@[simp] theorem updGroup_pins (a) (f) : (s.updGroup a f).pins = s.pins := rfl
@[simp] theorem updGroup_tcache (a) (f) : (s.updGroup a f).tcache = s.tcache := rfl
@[simp] theorem updGroup_stcache (a) (f) : (s.updGroup a f).stcache = s.stcache := rfl
@[simp] theorem updGroup_fcache (a) (f) : (s.updGroup a f).fcache = s.fcache := rfl
@[simp] theorem updGroup_bias (a) (f) : (s.updGroup a f).bias = s.bias := rfl
@[simp] theorem updGroup_wc (a) (f) : (s.updGroup a f).wc = s.wc := rfl
@[simp] theorem updGroup_reqs (a) (f) : (s.updGroup a f).reqs = s.reqs := rfl
@[simp] theorem updGroup_ports (a) (f) : (s.updGroup a f).ports = s.ports := rfl
@[simp] theorem updGroup_crcErrors (a) (f) : (s.updGroup a f).crcErrors = s.crcErrors := rfl
@[simp] theorem updGroup_crcLast (a) (f) : (s.updGroup a f).crcLast = s.crcLast := rfl
@[simp] theorem updGroup_cxlDropped (a) (f) : (s.updGroup a f).cxlDropped = s.cxlDropped := rfl
@[simp] theorem updGroup_teams (a) (f) : (s.updGroup a f).teams = s.teams := rfl
@[simp] theorem updGroup_launches (a) (f) : (s.updGroup a f).launches = s.launches := rfl
@[simp] theorem updGroup_coreBars (a) (f) : (s.updGroup a f).coreBars = s.coreBars := rfl
@[simp] theorem updGroup_drainStore (a) (f) : (s.updGroup a f).drainStore = s.drainStore := rfl
@[simp] theorem updGroup_macs (a) (f) : (s.updGroup a f).macs = s.macs := rfl
@[simp] theorem updGroup_tags (a) (f) : (s.updGroup a f).tags = s.tags := rfl
@[simp] theorem updGroup_exps (a) (f) : (s.updGroup a f).exps = s.exps := rfl
@[simp] theorem updGroup_invs (a) (f) : (s.updGroup a f).invs = s.invs := rfl
@[simp] theorem updGroup_tiles (a) (f) : (s.updGroup a f).tiles = s.tiles := rfl
@[simp] theorem updGroup_scales (a) (f) : (s.updGroup a f).scales = s.scales := rfl
@[simp] theorem updGroup_narrow (a) (f) : (s.updGroup a f).narrow = s.narrow := rfl
@[simp] theorem updGroup_mxOps (a) (f) : (s.updGroup a f).mxOps = s.mxOps := rfl
@[simp] theorem updGroup_dlOps (a) (f) : (s.updGroup a f).dlOps = s.dlOps := rfl
@[simp] theorem updGroup_drains (a) (f) : (s.updGroup a f).drains = s.drains := rfl
@[simp] theorem updGroup_cpOps (a) (f) : (s.updGroup a f).cpOps = s.cpOps := rfl
@[simp] theorem updGroup_collOps (a) (f) : (s.updGroup a f).collOps = s.collOps := rfl
@[simp] theorem updGroup_textOps (a) (f) : (s.updGroup a f).textOps = s.textOps := rfl
@[simp] theorem updGroup_mailbox (a) (f) : (s.updGroup a f).mailbox = s.mailbox := rfl
@[simp] theorem updGroup_mbSeq (a) (f) : (s.updGroup a f).mbSeq = s.mbSeq := rfl
@[simp] theorem updGroup_lexicons (a) (f) : (s.updGroup a f).lexicons = s.lexicons := rfl
@[simp] theorem updGroup_grammars (a) (f) : (s.updGroup a f).grammars = s.grammars := rfl
@[simp] theorem updGroup_cells (a) (f) : (s.updGroup a f).cells = s.cells := rfl
@[simp] theorem updGroup_trees (a) (f) : (s.updGroup a f).trees = s.trees := rfl
@[simp] theorem updGroup_treeOps (a) (f) : (s.updGroup a f).treeOps = s.treeOps := rfl
@[simp] theorem updGroup_pools (a) (f) : (s.updGroup a f).pools = s.pools := rfl
@[simp] theorem updGroup_rows (a) (f) : (s.updGroup a f).rows = s.rows := rfl
@[simp] theorem updGroup_freeRows (a) (f) : (s.updGroup a f).freeRows = s.freeRows := rfl
@[simp] theorem updGroup_bcasts (a) (f) : (s.updGroup a f).bcasts = s.bcasts := rfl
@[simp] theorem updGroup_queues (a) (f) : (s.updGroup a f).queues = s.queues := rfl
@[simp] theorem updGroup_pushQ (a) (f) : (s.updGroup a f).pushQ = s.pushQ := rfl
@[simp] theorem updGroup_faultQ (a) (f) : (s.updGroup a f).faultQ = s.faultQ := rfl
@[simp] theorem updGroup_rseq (a) (f) : (s.updGroup a f).rseq = s.rseq := rfl
@[simp] theorem updGroup_forwarded (a) (f) : (s.updGroup a f).forwarded = s.forwarded := rfl
@[simp] theorem updGroup_notices (a) (f) : (s.updGroup a f).notices = s.notices := rfl
@[simp] theorem updGroup_pendingNotices (a) (f) : (s.updGroup a f).pendingNotices = s.pendingNotices := rfl
@[simp] theorem updGroup_parts (a) (f) : (s.updGroup a f).parts = s.parts := rfl
@[simp] theorem updGroup_dies (a) (f) : (s.updGroup a f).dies = s.dies := rfl
@[simp] theorem updGroup_perf (a) (f) : (s.updGroup a f).perf = s.perf := rfl
@[simp] theorem updGroup_stage (a) (f) : (s.updGroup a f).stage = s.stage := rfl
@[simp] theorem updGroup_power (a) (f) : (s.updGroup a f).power = s.power := rfl
@[simp] theorem updGroup_powerWant (a) (f) : (s.updGroup a f).powerWant = s.powerWant := rfl
@[simp] theorem updGroup_fwVersion (a) (f) : (s.updGroup a f).fwVersion = s.fwVersion := rfl
@[simp] theorem updGroup_thermtrip (a) (f) : (s.updGroup a f).thermtrip = s.thermtrip := rfl

@[simp] theorem updTeam_tick (a) (f) : (s.updTeam a f).tick = s.tick := rfl
@[simp] theorem updTeam_agenda (a) (f) : (s.updTeam a f).agenda = s.agenda := rfl
@[simp] theorem updTeam_focus (a) (f) : (s.updTeam a f).focus = s.focus := rfl
@[simp] theorem updTeam_nextId (a) (f) : (s.updTeam a f).nextId = s.nextId := rfl
@[simp] theorem updTeam_outbox (a) (f) : (s.updTeam a f).outbox = s.outbox := rfl
@[simp] theorem updTeam_mem (a) (f) : (s.updTeam a f).mem = s.mem := rfl
@[simp] theorem updTeam_poison (a) (f) : (s.updTeam a f).poison = s.poison := rfl
@[simp] theorem updTeam_keyOf (a) (f) : (s.updTeam a f).keyOf = s.keyOf := rfl
@[simp] theorem updTeam_cc (a) (f) : (s.updTeam a f).cc = s.cc := rfl
@[simp] theorem updTeam_l1 (a) (f) : (s.updTeam a f).l1 = s.l1 := rfl
@[simp] theorem updTeam_rl (a) (f) : (s.updTeam a f).rl = s.rl := rfl
@[simp] theorem updTeam_slicePins (a) (f) : (s.updTeam a f).slicePins = s.slicePins := rfl
@[simp] theorem updTeam_pins (a) (f) : (s.updTeam a f).pins = s.pins := rfl
@[simp] theorem updTeam_tcache (a) (f) : (s.updTeam a f).tcache = s.tcache := rfl
@[simp] theorem updTeam_stcache (a) (f) : (s.updTeam a f).stcache = s.stcache := rfl
@[simp] theorem updTeam_fcache (a) (f) : (s.updTeam a f).fcache = s.fcache := rfl
@[simp] theorem updTeam_bias (a) (f) : (s.updTeam a f).bias = s.bias := rfl
@[simp] theorem updTeam_wc (a) (f) : (s.updTeam a f).wc = s.wc := rfl
@[simp] theorem updTeam_reqs (a) (f) : (s.updTeam a f).reqs = s.reqs := rfl
@[simp] theorem updTeam_ports (a) (f) : (s.updTeam a f).ports = s.ports := rfl
@[simp] theorem updTeam_crcErrors (a) (f) : (s.updTeam a f).crcErrors = s.crcErrors := rfl
@[simp] theorem updTeam_crcLast (a) (f) : (s.updTeam a f).crcLast = s.crcLast := rfl
@[simp] theorem updTeam_cxlDropped (a) (f) : (s.updTeam a f).cxlDropped = s.cxlDropped := rfl
@[simp] theorem updTeam_groups (a) (f) : (s.updTeam a f).groups = s.groups := rfl
@[simp] theorem updTeam_launches (a) (f) : (s.updTeam a f).launches = s.launches := rfl
@[simp] theorem updTeam_coreBars (a) (f) : (s.updTeam a f).coreBars = s.coreBars := rfl
@[simp] theorem updTeam_drainStore (a) (f) : (s.updTeam a f).drainStore = s.drainStore := rfl
@[simp] theorem updTeam_macs (a) (f) : (s.updTeam a f).macs = s.macs := rfl
@[simp] theorem updTeam_tags (a) (f) : (s.updTeam a f).tags = s.tags := rfl
@[simp] theorem updTeam_exps (a) (f) : (s.updTeam a f).exps = s.exps := rfl
@[simp] theorem updTeam_invs (a) (f) : (s.updTeam a f).invs = s.invs := rfl
@[simp] theorem updTeam_tiles (a) (f) : (s.updTeam a f).tiles = s.tiles := rfl
@[simp] theorem updTeam_scales (a) (f) : (s.updTeam a f).scales = s.scales := rfl
@[simp] theorem updTeam_narrow (a) (f) : (s.updTeam a f).narrow = s.narrow := rfl
@[simp] theorem updTeam_mxOps (a) (f) : (s.updTeam a f).mxOps = s.mxOps := rfl
@[simp] theorem updTeam_dlOps (a) (f) : (s.updTeam a f).dlOps = s.dlOps := rfl
@[simp] theorem updTeam_drains (a) (f) : (s.updTeam a f).drains = s.drains := rfl
@[simp] theorem updTeam_cpOps (a) (f) : (s.updTeam a f).cpOps = s.cpOps := rfl
@[simp] theorem updTeam_collOps (a) (f) : (s.updTeam a f).collOps = s.collOps := rfl
@[simp] theorem updTeam_textOps (a) (f) : (s.updTeam a f).textOps = s.textOps := rfl
@[simp] theorem updTeam_mailbox (a) (f) : (s.updTeam a f).mailbox = s.mailbox := rfl
@[simp] theorem updTeam_mbSeq (a) (f) : (s.updTeam a f).mbSeq = s.mbSeq := rfl
@[simp] theorem updTeam_lexicons (a) (f) : (s.updTeam a f).lexicons = s.lexicons := rfl
@[simp] theorem updTeam_grammars (a) (f) : (s.updTeam a f).grammars = s.grammars := rfl
@[simp] theorem updTeam_cells (a) (f) : (s.updTeam a f).cells = s.cells := rfl
@[simp] theorem updTeam_trees (a) (f) : (s.updTeam a f).trees = s.trees := rfl
@[simp] theorem updTeam_treeOps (a) (f) : (s.updTeam a f).treeOps = s.treeOps := rfl
@[simp] theorem updTeam_pools (a) (f) : (s.updTeam a f).pools = s.pools := rfl
@[simp] theorem updTeam_rows (a) (f) : (s.updTeam a f).rows = s.rows := rfl
@[simp] theorem updTeam_freeRows (a) (f) : (s.updTeam a f).freeRows = s.freeRows := rfl
@[simp] theorem updTeam_bcasts (a) (f) : (s.updTeam a f).bcasts = s.bcasts := rfl
@[simp] theorem updTeam_queues (a) (f) : (s.updTeam a f).queues = s.queues := rfl
@[simp] theorem updTeam_pushQ (a) (f) : (s.updTeam a f).pushQ = s.pushQ := rfl
@[simp] theorem updTeam_faultQ (a) (f) : (s.updTeam a f).faultQ = s.faultQ := rfl
@[simp] theorem updTeam_rseq (a) (f) : (s.updTeam a f).rseq = s.rseq := rfl
@[simp] theorem updTeam_forwarded (a) (f) : (s.updTeam a f).forwarded = s.forwarded := rfl
@[simp] theorem updTeam_notices (a) (f) : (s.updTeam a f).notices = s.notices := rfl
@[simp] theorem updTeam_pendingNotices (a) (f) : (s.updTeam a f).pendingNotices = s.pendingNotices := rfl
@[simp] theorem updTeam_parts (a) (f) : (s.updTeam a f).parts = s.parts := rfl
@[simp] theorem updTeam_dies (a) (f) : (s.updTeam a f).dies = s.dies := rfl
@[simp] theorem updTeam_perf (a) (f) : (s.updTeam a f).perf = s.perf := rfl
@[simp] theorem updTeam_stage (a) (f) : (s.updTeam a f).stage = s.stage := rfl
@[simp] theorem updTeam_power (a) (f) : (s.updTeam a f).power = s.power := rfl
@[simp] theorem updTeam_powerWant (a) (f) : (s.updTeam a f).powerWant = s.powerWant := rfl
@[simp] theorem updTeam_fwVersion (a) (f) : (s.updTeam a f).fwVersion = s.fwVersion := rfl
@[simp] theorem updTeam_thermtrip (a) (f) : (s.updTeam a f).thermtrip = s.thermtrip := rfl

@[simp] theorem updLaunch_tick (a) (f) : (s.updLaunch a f).tick = s.tick := rfl
@[simp] theorem updLaunch_agenda (a) (f) : (s.updLaunch a f).agenda = s.agenda := rfl
@[simp] theorem updLaunch_focus (a) (f) : (s.updLaunch a f).focus = s.focus := rfl
@[simp] theorem updLaunch_nextId (a) (f) : (s.updLaunch a f).nextId = s.nextId := rfl
@[simp] theorem updLaunch_outbox (a) (f) : (s.updLaunch a f).outbox = s.outbox := rfl
@[simp] theorem updLaunch_mem (a) (f) : (s.updLaunch a f).mem = s.mem := rfl
@[simp] theorem updLaunch_poison (a) (f) : (s.updLaunch a f).poison = s.poison := rfl
@[simp] theorem updLaunch_keyOf (a) (f) : (s.updLaunch a f).keyOf = s.keyOf := rfl
@[simp] theorem updLaunch_cc (a) (f) : (s.updLaunch a f).cc = s.cc := rfl
@[simp] theorem updLaunch_l1 (a) (f) : (s.updLaunch a f).l1 = s.l1 := rfl
@[simp] theorem updLaunch_rl (a) (f) : (s.updLaunch a f).rl = s.rl := rfl
@[simp] theorem updLaunch_slicePins (a) (f) : (s.updLaunch a f).slicePins = s.slicePins := rfl
@[simp] theorem updLaunch_pins (a) (f) : (s.updLaunch a f).pins = s.pins := rfl
@[simp] theorem updLaunch_tcache (a) (f) : (s.updLaunch a f).tcache = s.tcache := rfl
@[simp] theorem updLaunch_stcache (a) (f) : (s.updLaunch a f).stcache = s.stcache := rfl
@[simp] theorem updLaunch_fcache (a) (f) : (s.updLaunch a f).fcache = s.fcache := rfl
@[simp] theorem updLaunch_bias (a) (f) : (s.updLaunch a f).bias = s.bias := rfl
@[simp] theorem updLaunch_wc (a) (f) : (s.updLaunch a f).wc = s.wc := rfl
@[simp] theorem updLaunch_reqs (a) (f) : (s.updLaunch a f).reqs = s.reqs := rfl
@[simp] theorem updLaunch_ports (a) (f) : (s.updLaunch a f).ports = s.ports := rfl
@[simp] theorem updLaunch_crcErrors (a) (f) : (s.updLaunch a f).crcErrors = s.crcErrors := rfl
@[simp] theorem updLaunch_crcLast (a) (f) : (s.updLaunch a f).crcLast = s.crcLast := rfl
@[simp] theorem updLaunch_cxlDropped (a) (f) : (s.updLaunch a f).cxlDropped = s.cxlDropped := rfl
@[simp] theorem updLaunch_groups (a) (f) : (s.updLaunch a f).groups = s.groups := rfl
@[simp] theorem updLaunch_teams (a) (f) : (s.updLaunch a f).teams = s.teams := rfl
@[simp] theorem updLaunch_coreBars (a) (f) : (s.updLaunch a f).coreBars = s.coreBars := rfl
@[simp] theorem updLaunch_drainStore (a) (f) : (s.updLaunch a f).drainStore = s.drainStore := rfl
@[simp] theorem updLaunch_macs (a) (f) : (s.updLaunch a f).macs = s.macs := rfl
@[simp] theorem updLaunch_tags (a) (f) : (s.updLaunch a f).tags = s.tags := rfl
@[simp] theorem updLaunch_exps (a) (f) : (s.updLaunch a f).exps = s.exps := rfl
@[simp] theorem updLaunch_invs (a) (f) : (s.updLaunch a f).invs = s.invs := rfl
@[simp] theorem updLaunch_tiles (a) (f) : (s.updLaunch a f).tiles = s.tiles := rfl
@[simp] theorem updLaunch_scales (a) (f) : (s.updLaunch a f).scales = s.scales := rfl
@[simp] theorem updLaunch_narrow (a) (f) : (s.updLaunch a f).narrow = s.narrow := rfl
@[simp] theorem updLaunch_mxOps (a) (f) : (s.updLaunch a f).mxOps = s.mxOps := rfl
@[simp] theorem updLaunch_dlOps (a) (f) : (s.updLaunch a f).dlOps = s.dlOps := rfl
@[simp] theorem updLaunch_drains (a) (f) : (s.updLaunch a f).drains = s.drains := rfl
@[simp] theorem updLaunch_cpOps (a) (f) : (s.updLaunch a f).cpOps = s.cpOps := rfl
@[simp] theorem updLaunch_collOps (a) (f) : (s.updLaunch a f).collOps = s.collOps := rfl
@[simp] theorem updLaunch_textOps (a) (f) : (s.updLaunch a f).textOps = s.textOps := rfl
@[simp] theorem updLaunch_mailbox (a) (f) : (s.updLaunch a f).mailbox = s.mailbox := rfl
@[simp] theorem updLaunch_mbSeq (a) (f) : (s.updLaunch a f).mbSeq = s.mbSeq := rfl
@[simp] theorem updLaunch_lexicons (a) (f) : (s.updLaunch a f).lexicons = s.lexicons := rfl
@[simp] theorem updLaunch_grammars (a) (f) : (s.updLaunch a f).grammars = s.grammars := rfl
@[simp] theorem updLaunch_cells (a) (f) : (s.updLaunch a f).cells = s.cells := rfl
@[simp] theorem updLaunch_trees (a) (f) : (s.updLaunch a f).trees = s.trees := rfl
@[simp] theorem updLaunch_treeOps (a) (f) : (s.updLaunch a f).treeOps = s.treeOps := rfl
@[simp] theorem updLaunch_pools (a) (f) : (s.updLaunch a f).pools = s.pools := rfl
@[simp] theorem updLaunch_rows (a) (f) : (s.updLaunch a f).rows = s.rows := rfl
@[simp] theorem updLaunch_freeRows (a) (f) : (s.updLaunch a f).freeRows = s.freeRows := rfl
@[simp] theorem updLaunch_bcasts (a) (f) : (s.updLaunch a f).bcasts = s.bcasts := rfl
@[simp] theorem updLaunch_queues (a) (f) : (s.updLaunch a f).queues = s.queues := rfl
@[simp] theorem updLaunch_pushQ (a) (f) : (s.updLaunch a f).pushQ = s.pushQ := rfl
@[simp] theorem updLaunch_faultQ (a) (f) : (s.updLaunch a f).faultQ = s.faultQ := rfl
@[simp] theorem updLaunch_rseq (a) (f) : (s.updLaunch a f).rseq = s.rseq := rfl
@[simp] theorem updLaunch_forwarded (a) (f) : (s.updLaunch a f).forwarded = s.forwarded := rfl
@[simp] theorem updLaunch_notices (a) (f) : (s.updLaunch a f).notices = s.notices := rfl
@[simp] theorem updLaunch_pendingNotices (a) (f) : (s.updLaunch a f).pendingNotices = s.pendingNotices := rfl
@[simp] theorem updLaunch_parts (a) (f) : (s.updLaunch a f).parts = s.parts := rfl
@[simp] theorem updLaunch_dies (a) (f) : (s.updLaunch a f).dies = s.dies := rfl
@[simp] theorem updLaunch_perf (a) (f) : (s.updLaunch a f).perf = s.perf := rfl
@[simp] theorem updLaunch_stage (a) (f) : (s.updLaunch a f).stage = s.stage := rfl
@[simp] theorem updLaunch_power (a) (f) : (s.updLaunch a f).power = s.power := rfl
@[simp] theorem updLaunch_powerWant (a) (f) : (s.updLaunch a f).powerWant = s.powerWant := rfl
@[simp] theorem updLaunch_fwVersion (a) (f) : (s.updLaunch a f).fwVersion = s.fwVersion := rfl
@[simp] theorem updLaunch_thermtrip (a) (f) : (s.updLaunch a f).thermtrip = s.thermtrip := rfl

@[simp] theorem updPart_tick (a) (f) : (s.updPart a f).tick = s.tick := rfl
@[simp] theorem updPart_agenda (a) (f) : (s.updPart a f).agenda = s.agenda := rfl
@[simp] theorem updPart_focus (a) (f) : (s.updPart a f).focus = s.focus := rfl
@[simp] theorem updPart_nextId (a) (f) : (s.updPart a f).nextId = s.nextId := rfl
@[simp] theorem updPart_outbox (a) (f) : (s.updPart a f).outbox = s.outbox := rfl
@[simp] theorem updPart_mem (a) (f) : (s.updPart a f).mem = s.mem := rfl
@[simp] theorem updPart_poison (a) (f) : (s.updPart a f).poison = s.poison := rfl
@[simp] theorem updPart_keyOf (a) (f) : (s.updPart a f).keyOf = s.keyOf := rfl
@[simp] theorem updPart_cc (a) (f) : (s.updPart a f).cc = s.cc := rfl
@[simp] theorem updPart_l1 (a) (f) : (s.updPart a f).l1 = s.l1 := rfl
@[simp] theorem updPart_rl (a) (f) : (s.updPart a f).rl = s.rl := rfl
@[simp] theorem updPart_slicePins (a) (f) : (s.updPart a f).slicePins = s.slicePins := rfl
@[simp] theorem updPart_pins (a) (f) : (s.updPart a f).pins = s.pins := rfl
@[simp] theorem updPart_tcache (a) (f) : (s.updPart a f).tcache = s.tcache := rfl
@[simp] theorem updPart_stcache (a) (f) : (s.updPart a f).stcache = s.stcache := rfl
@[simp] theorem updPart_fcache (a) (f) : (s.updPart a f).fcache = s.fcache := rfl
@[simp] theorem updPart_bias (a) (f) : (s.updPart a f).bias = s.bias := rfl
@[simp] theorem updPart_wc (a) (f) : (s.updPart a f).wc = s.wc := rfl
@[simp] theorem updPart_reqs (a) (f) : (s.updPart a f).reqs = s.reqs := rfl
@[simp] theorem updPart_ports (a) (f) : (s.updPart a f).ports = s.ports := rfl
@[simp] theorem updPart_crcErrors (a) (f) : (s.updPart a f).crcErrors = s.crcErrors := rfl
@[simp] theorem updPart_crcLast (a) (f) : (s.updPart a f).crcLast = s.crcLast := rfl
@[simp] theorem updPart_cxlDropped (a) (f) : (s.updPart a f).cxlDropped = s.cxlDropped := rfl
@[simp] theorem updPart_groups (a) (f) : (s.updPart a f).groups = s.groups := rfl
@[simp] theorem updPart_teams (a) (f) : (s.updPart a f).teams = s.teams := rfl
@[simp] theorem updPart_launches (a) (f) : (s.updPart a f).launches = s.launches := rfl
@[simp] theorem updPart_coreBars (a) (f) : (s.updPart a f).coreBars = s.coreBars := rfl
@[simp] theorem updPart_drainStore (a) (f) : (s.updPart a f).drainStore = s.drainStore := rfl
@[simp] theorem updPart_macs (a) (f) : (s.updPart a f).macs = s.macs := rfl
@[simp] theorem updPart_tags (a) (f) : (s.updPart a f).tags = s.tags := rfl
@[simp] theorem updPart_exps (a) (f) : (s.updPart a f).exps = s.exps := rfl
@[simp] theorem updPart_invs (a) (f) : (s.updPart a f).invs = s.invs := rfl
@[simp] theorem updPart_tiles (a) (f) : (s.updPart a f).tiles = s.tiles := rfl
@[simp] theorem updPart_scales (a) (f) : (s.updPart a f).scales = s.scales := rfl
@[simp] theorem updPart_narrow (a) (f) : (s.updPart a f).narrow = s.narrow := rfl
@[simp] theorem updPart_mxOps (a) (f) : (s.updPart a f).mxOps = s.mxOps := rfl
@[simp] theorem updPart_dlOps (a) (f) : (s.updPart a f).dlOps = s.dlOps := rfl
@[simp] theorem updPart_drains (a) (f) : (s.updPart a f).drains = s.drains := rfl
@[simp] theorem updPart_cpOps (a) (f) : (s.updPart a f).cpOps = s.cpOps := rfl
@[simp] theorem updPart_collOps (a) (f) : (s.updPart a f).collOps = s.collOps := rfl
@[simp] theorem updPart_textOps (a) (f) : (s.updPart a f).textOps = s.textOps := rfl
@[simp] theorem updPart_mailbox (a) (f) : (s.updPart a f).mailbox = s.mailbox := rfl
@[simp] theorem updPart_mbSeq (a) (f) : (s.updPart a f).mbSeq = s.mbSeq := rfl
@[simp] theorem updPart_lexicons (a) (f) : (s.updPart a f).lexicons = s.lexicons := rfl
@[simp] theorem updPart_grammars (a) (f) : (s.updPart a f).grammars = s.grammars := rfl
@[simp] theorem updPart_cells (a) (f) : (s.updPart a f).cells = s.cells := rfl
@[simp] theorem updPart_trees (a) (f) : (s.updPart a f).trees = s.trees := rfl
@[simp] theorem updPart_treeOps (a) (f) : (s.updPart a f).treeOps = s.treeOps := rfl
@[simp] theorem updPart_pools (a) (f) : (s.updPart a f).pools = s.pools := rfl
@[simp] theorem updPart_rows (a) (f) : (s.updPart a f).rows = s.rows := rfl
@[simp] theorem updPart_freeRows (a) (f) : (s.updPart a f).freeRows = s.freeRows := rfl
@[simp] theorem updPart_bcasts (a) (f) : (s.updPart a f).bcasts = s.bcasts := rfl
@[simp] theorem updPart_queues (a) (f) : (s.updPart a f).queues = s.queues := rfl
@[simp] theorem updPart_pushQ (a) (f) : (s.updPart a f).pushQ = s.pushQ := rfl
@[simp] theorem updPart_faultQ (a) (f) : (s.updPart a f).faultQ = s.faultQ := rfl
@[simp] theorem updPart_rseq (a) (f) : (s.updPart a f).rseq = s.rseq := rfl
@[simp] theorem updPart_forwarded (a) (f) : (s.updPart a f).forwarded = s.forwarded := rfl
@[simp] theorem updPart_notices (a) (f) : (s.updPart a f).notices = s.notices := rfl
@[simp] theorem updPart_pendingNotices (a) (f) : (s.updPart a f).pendingNotices = s.pendingNotices := rfl
@[simp] theorem updPart_dies (a) (f) : (s.updPart a f).dies = s.dies := rfl
@[simp] theorem updPart_perf (a) (f) : (s.updPart a f).perf = s.perf := rfl
@[simp] theorem updPart_stage (a) (f) : (s.updPart a f).stage = s.stage := rfl
@[simp] theorem updPart_power (a) (f) : (s.updPart a f).power = s.power := rfl
@[simp] theorem updPart_powerWant (a) (f) : (s.updPart a f).powerWant = s.powerWant := rfl
@[simp] theorem updPart_fwVersion (a) (f) : (s.updPart a f).fwVersion = s.fwVersion := rfl
@[simp] theorem updPart_thermtrip (a) (f) : (s.updPart a f).thermtrip = s.thermtrip := rfl

@[simp] theorem updDie_tick (a) (f) : (s.updDie a f).tick = s.tick := rfl
@[simp] theorem updDie_agenda (a) (f) : (s.updDie a f).agenda = s.agenda := rfl
@[simp] theorem updDie_focus (a) (f) : (s.updDie a f).focus = s.focus := rfl
@[simp] theorem updDie_nextId (a) (f) : (s.updDie a f).nextId = s.nextId := rfl
@[simp] theorem updDie_outbox (a) (f) : (s.updDie a f).outbox = s.outbox := rfl
@[simp] theorem updDie_mem (a) (f) : (s.updDie a f).mem = s.mem := rfl
@[simp] theorem updDie_poison (a) (f) : (s.updDie a f).poison = s.poison := rfl
@[simp] theorem updDie_keyOf (a) (f) : (s.updDie a f).keyOf = s.keyOf := rfl
@[simp] theorem updDie_cc (a) (f) : (s.updDie a f).cc = s.cc := rfl
@[simp] theorem updDie_l1 (a) (f) : (s.updDie a f).l1 = s.l1 := rfl
@[simp] theorem updDie_rl (a) (f) : (s.updDie a f).rl = s.rl := rfl
@[simp] theorem updDie_slicePins (a) (f) : (s.updDie a f).slicePins = s.slicePins := rfl
@[simp] theorem updDie_pins (a) (f) : (s.updDie a f).pins = s.pins := rfl
@[simp] theorem updDie_tcache (a) (f) : (s.updDie a f).tcache = s.tcache := rfl
@[simp] theorem updDie_stcache (a) (f) : (s.updDie a f).stcache = s.stcache := rfl
@[simp] theorem updDie_fcache (a) (f) : (s.updDie a f).fcache = s.fcache := rfl
@[simp] theorem updDie_bias (a) (f) : (s.updDie a f).bias = s.bias := rfl
@[simp] theorem updDie_wc (a) (f) : (s.updDie a f).wc = s.wc := rfl
@[simp] theorem updDie_reqs (a) (f) : (s.updDie a f).reqs = s.reqs := rfl
@[simp] theorem updDie_ports (a) (f) : (s.updDie a f).ports = s.ports := rfl
@[simp] theorem updDie_crcErrors (a) (f) : (s.updDie a f).crcErrors = s.crcErrors := rfl
@[simp] theorem updDie_crcLast (a) (f) : (s.updDie a f).crcLast = s.crcLast := rfl
@[simp] theorem updDie_cxlDropped (a) (f) : (s.updDie a f).cxlDropped = s.cxlDropped := rfl
@[simp] theorem updDie_groups (a) (f) : (s.updDie a f).groups = s.groups := rfl
@[simp] theorem updDie_teams (a) (f) : (s.updDie a f).teams = s.teams := rfl
@[simp] theorem updDie_launches (a) (f) : (s.updDie a f).launches = s.launches := rfl
@[simp] theorem updDie_coreBars (a) (f) : (s.updDie a f).coreBars = s.coreBars := rfl
@[simp] theorem updDie_drainStore (a) (f) : (s.updDie a f).drainStore = s.drainStore := rfl
@[simp] theorem updDie_macs (a) (f) : (s.updDie a f).macs = s.macs := rfl
@[simp] theorem updDie_tags (a) (f) : (s.updDie a f).tags = s.tags := rfl
@[simp] theorem updDie_exps (a) (f) : (s.updDie a f).exps = s.exps := rfl
@[simp] theorem updDie_invs (a) (f) : (s.updDie a f).invs = s.invs := rfl
@[simp] theorem updDie_tiles (a) (f) : (s.updDie a f).tiles = s.tiles := rfl
@[simp] theorem updDie_scales (a) (f) : (s.updDie a f).scales = s.scales := rfl
@[simp] theorem updDie_narrow (a) (f) : (s.updDie a f).narrow = s.narrow := rfl
@[simp] theorem updDie_mxOps (a) (f) : (s.updDie a f).mxOps = s.mxOps := rfl
@[simp] theorem updDie_dlOps (a) (f) : (s.updDie a f).dlOps = s.dlOps := rfl
@[simp] theorem updDie_drains (a) (f) : (s.updDie a f).drains = s.drains := rfl
@[simp] theorem updDie_cpOps (a) (f) : (s.updDie a f).cpOps = s.cpOps := rfl
@[simp] theorem updDie_collOps (a) (f) : (s.updDie a f).collOps = s.collOps := rfl
@[simp] theorem updDie_textOps (a) (f) : (s.updDie a f).textOps = s.textOps := rfl
@[simp] theorem updDie_mailbox (a) (f) : (s.updDie a f).mailbox = s.mailbox := rfl
@[simp] theorem updDie_mbSeq (a) (f) : (s.updDie a f).mbSeq = s.mbSeq := rfl
@[simp] theorem updDie_lexicons (a) (f) : (s.updDie a f).lexicons = s.lexicons := rfl
@[simp] theorem updDie_grammars (a) (f) : (s.updDie a f).grammars = s.grammars := rfl
@[simp] theorem updDie_cells (a) (f) : (s.updDie a f).cells = s.cells := rfl
@[simp] theorem updDie_trees (a) (f) : (s.updDie a f).trees = s.trees := rfl
@[simp] theorem updDie_treeOps (a) (f) : (s.updDie a f).treeOps = s.treeOps := rfl
@[simp] theorem updDie_pools (a) (f) : (s.updDie a f).pools = s.pools := rfl
@[simp] theorem updDie_rows (a) (f) : (s.updDie a f).rows = s.rows := rfl
@[simp] theorem updDie_freeRows (a) (f) : (s.updDie a f).freeRows = s.freeRows := rfl
@[simp] theorem updDie_bcasts (a) (f) : (s.updDie a f).bcasts = s.bcasts := rfl
@[simp] theorem updDie_queues (a) (f) : (s.updDie a f).queues = s.queues := rfl
@[simp] theorem updDie_pushQ (a) (f) : (s.updDie a f).pushQ = s.pushQ := rfl
@[simp] theorem updDie_faultQ (a) (f) : (s.updDie a f).faultQ = s.faultQ := rfl
@[simp] theorem updDie_rseq (a) (f) : (s.updDie a f).rseq = s.rseq := rfl
@[simp] theorem updDie_forwarded (a) (f) : (s.updDie a f).forwarded = s.forwarded := rfl
@[simp] theorem updDie_notices (a) (f) : (s.updDie a f).notices = s.notices := rfl
@[simp] theorem updDie_pendingNotices (a) (f) : (s.updDie a f).pendingNotices = s.pendingNotices := rfl
@[simp] theorem updDie_parts (a) (f) : (s.updDie a f).parts = s.parts := rfl
@[simp] theorem updDie_perf (a) (f) : (s.updDie a f).perf = s.perf := rfl
@[simp] theorem updDie_stage (a) (f) : (s.updDie a f).stage = s.stage := rfl
@[simp] theorem updDie_power (a) (f) : (s.updDie a f).power = s.power := rfl
@[simp] theorem updDie_powerWant (a) (f) : (s.updDie a f).powerWant = s.powerWant := rfl
@[simp] theorem updDie_fwVersion (a) (f) : (s.updDie a f).fwVersion = s.fwVersion := rfl
@[simp] theorem updDie_thermtrip (a) (f) : (s.updDie a f).thermtrip = s.thermtrip := rfl

@[simp] theorem emit_tick (m) : (s.emit m).tick = s.tick := rfl
@[simp] theorem emit_agenda (m) : (s.emit m).agenda = s.agenda := rfl
@[simp] theorem emit_focus (m) : (s.emit m).focus = s.focus := rfl
@[simp] theorem emit_nextId (m) : (s.emit m).nextId = s.nextId := rfl
@[simp] theorem emit_mem (m) : (s.emit m).mem = s.mem := rfl
@[simp] theorem emit_poison (m) : (s.emit m).poison = s.poison := rfl
@[simp] theorem emit_keyOf (m) : (s.emit m).keyOf = s.keyOf := rfl
@[simp] theorem emit_cc (m) : (s.emit m).cc = s.cc := rfl
@[simp] theorem emit_l1 (m) : (s.emit m).l1 = s.l1 := rfl
@[simp] theorem emit_rl (m) : (s.emit m).rl = s.rl := rfl
@[simp] theorem emit_slicePins (m) : (s.emit m).slicePins = s.slicePins := rfl
@[simp] theorem emit_pins (m) : (s.emit m).pins = s.pins := rfl
@[simp] theorem emit_tcache (m) : (s.emit m).tcache = s.tcache := rfl
@[simp] theorem emit_stcache (m) : (s.emit m).stcache = s.stcache := rfl
@[simp] theorem emit_fcache (m) : (s.emit m).fcache = s.fcache := rfl
@[simp] theorem emit_bias (m) : (s.emit m).bias = s.bias := rfl
@[simp] theorem emit_wc (m) : (s.emit m).wc = s.wc := rfl
@[simp] theorem emit_reqs (m) : (s.emit m).reqs = s.reqs := rfl
@[simp] theorem emit_ports (m) : (s.emit m).ports = s.ports := rfl
@[simp] theorem emit_crcErrors (m) : (s.emit m).crcErrors = s.crcErrors := rfl
@[simp] theorem emit_crcLast (m) : (s.emit m).crcLast = s.crcLast := rfl
@[simp] theorem emit_cxlDropped (m) : (s.emit m).cxlDropped = s.cxlDropped := rfl
@[simp] theorem emit_groups (m) : (s.emit m).groups = s.groups := rfl
@[simp] theorem emit_teams (m) : (s.emit m).teams = s.teams := rfl
@[simp] theorem emit_launches (m) : (s.emit m).launches = s.launches := rfl
@[simp] theorem emit_coreBars (m) : (s.emit m).coreBars = s.coreBars := rfl
@[simp] theorem emit_drainStore (m) : (s.emit m).drainStore = s.drainStore := rfl
@[simp] theorem emit_macs (m) : (s.emit m).macs = s.macs := rfl
@[simp] theorem emit_tags (m) : (s.emit m).tags = s.tags := rfl
@[simp] theorem emit_exps (m) : (s.emit m).exps = s.exps := rfl
@[simp] theorem emit_invs (m) : (s.emit m).invs = s.invs := rfl
@[simp] theorem emit_tiles (m) : (s.emit m).tiles = s.tiles := rfl
@[simp] theorem emit_scales (m) : (s.emit m).scales = s.scales := rfl
@[simp] theorem emit_narrow (m) : (s.emit m).narrow = s.narrow := rfl
@[simp] theorem emit_mxOps (m) : (s.emit m).mxOps = s.mxOps := rfl
@[simp] theorem emit_dlOps (m) : (s.emit m).dlOps = s.dlOps := rfl
@[simp] theorem emit_drains (m) : (s.emit m).drains = s.drains := rfl
@[simp] theorem emit_cpOps (m) : (s.emit m).cpOps = s.cpOps := rfl
@[simp] theorem emit_collOps (m) : (s.emit m).collOps = s.collOps := rfl
@[simp] theorem emit_textOps (m) : (s.emit m).textOps = s.textOps := rfl
@[simp] theorem emit_mailbox (m) : (s.emit m).mailbox = s.mailbox := rfl
@[simp] theorem emit_mbSeq (m) : (s.emit m).mbSeq = s.mbSeq := rfl
@[simp] theorem emit_lexicons (m) : (s.emit m).lexicons = s.lexicons := rfl
@[simp] theorem emit_grammars (m) : (s.emit m).grammars = s.grammars := rfl
@[simp] theorem emit_cells (m) : (s.emit m).cells = s.cells := rfl
@[simp] theorem emit_trees (m) : (s.emit m).trees = s.trees := rfl
@[simp] theorem emit_treeOps (m) : (s.emit m).treeOps = s.treeOps := rfl
@[simp] theorem emit_pools (m) : (s.emit m).pools = s.pools := rfl
@[simp] theorem emit_rows (m) : (s.emit m).rows = s.rows := rfl
@[simp] theorem emit_freeRows (m) : (s.emit m).freeRows = s.freeRows := rfl
@[simp] theorem emit_bcasts (m) : (s.emit m).bcasts = s.bcasts := rfl
@[simp] theorem emit_queues (m) : (s.emit m).queues = s.queues := rfl
@[simp] theorem emit_pushQ (m) : (s.emit m).pushQ = s.pushQ := rfl
@[simp] theorem emit_faultQ (m) : (s.emit m).faultQ = s.faultQ := rfl
@[simp] theorem emit_rseq (m) : (s.emit m).rseq = s.rseq := rfl
@[simp] theorem emit_forwarded (m) : (s.emit m).forwarded = s.forwarded := rfl
@[simp] theorem emit_notices (m) : (s.emit m).notices = s.notices := rfl
@[simp] theorem emit_pendingNotices (m) : (s.emit m).pendingNotices = s.pendingNotices := rfl
@[simp] theorem emit_parts (m) : (s.emit m).parts = s.parts := rfl
@[simp] theorem emit_dies (m) : (s.emit m).dies = s.dies := rfl
@[simp] theorem emit_perf (m) : (s.emit m).perf = s.perf := rfl
@[simp] theorem emit_stage (m) : (s.emit m).stage = s.stage := rfl
@[simp] theorem emit_power (m) : (s.emit m).power = s.power := rfl
@[simp] theorem emit_powerWant (m) : (s.emit m).powerWant = s.powerWant := rfl
@[simp] theorem emit_fwVersion (m) : (s.emit m).fwVersion = s.fwVersion := rfl
@[simp] theorem emit_thermtrip (m) : (s.emit m).thermtrip = s.thermtrip := rfl

@[simp] theorem perfOf_tick (a b) : (s.perfOf a b).tick = s.tick := rfl
@[simp] theorem perfOf_agenda (a b) : (s.perfOf a b).agenda = s.agenda := rfl
@[simp] theorem perfOf_focus (a b) : (s.perfOf a b).focus = s.focus := rfl
@[simp] theorem perfOf_nextId (a b) : (s.perfOf a b).nextId = s.nextId := rfl
@[simp] theorem perfOf_outbox (a b) : (s.perfOf a b).outbox = s.outbox := rfl
@[simp] theorem perfOf_mem (a b) : (s.perfOf a b).mem = s.mem := rfl
@[simp] theorem perfOf_poison (a b) : (s.perfOf a b).poison = s.poison := rfl
@[simp] theorem perfOf_keyOf (a b) : (s.perfOf a b).keyOf = s.keyOf := rfl
@[simp] theorem perfOf_cc (a b) : (s.perfOf a b).cc = s.cc := rfl
@[simp] theorem perfOf_l1 (a b) : (s.perfOf a b).l1 = s.l1 := rfl
@[simp] theorem perfOf_rl (a b) : (s.perfOf a b).rl = s.rl := rfl
@[simp] theorem perfOf_slicePins (a b) : (s.perfOf a b).slicePins = s.slicePins := rfl
@[simp] theorem perfOf_pins (a b) : (s.perfOf a b).pins = s.pins := rfl
@[simp] theorem perfOf_tcache (a b) : (s.perfOf a b).tcache = s.tcache := rfl
@[simp] theorem perfOf_stcache (a b) : (s.perfOf a b).stcache = s.stcache := rfl
@[simp] theorem perfOf_fcache (a b) : (s.perfOf a b).fcache = s.fcache := rfl
@[simp] theorem perfOf_bias (a b) : (s.perfOf a b).bias = s.bias := rfl
@[simp] theorem perfOf_wc (a b) : (s.perfOf a b).wc = s.wc := rfl
@[simp] theorem perfOf_reqs (a b) : (s.perfOf a b).reqs = s.reqs := rfl
@[simp] theorem perfOf_ports (a b) : (s.perfOf a b).ports = s.ports := rfl
@[simp] theorem perfOf_crcErrors (a b) : (s.perfOf a b).crcErrors = s.crcErrors := rfl
@[simp] theorem perfOf_crcLast (a b) : (s.perfOf a b).crcLast = s.crcLast := rfl
@[simp] theorem perfOf_cxlDropped (a b) : (s.perfOf a b).cxlDropped = s.cxlDropped := rfl
@[simp] theorem perfOf_groups (a b) : (s.perfOf a b).groups = s.groups := rfl
@[simp] theorem perfOf_teams (a b) : (s.perfOf a b).teams = s.teams := rfl
@[simp] theorem perfOf_launches (a b) : (s.perfOf a b).launches = s.launches := rfl
@[simp] theorem perfOf_coreBars (a b) : (s.perfOf a b).coreBars = s.coreBars := rfl
@[simp] theorem perfOf_drainStore (a b) : (s.perfOf a b).drainStore = s.drainStore := rfl
@[simp] theorem perfOf_macs (a b) : (s.perfOf a b).macs = s.macs := rfl
@[simp] theorem perfOf_tags (a b) : (s.perfOf a b).tags = s.tags := rfl
@[simp] theorem perfOf_exps (a b) : (s.perfOf a b).exps = s.exps := rfl
@[simp] theorem perfOf_invs (a b) : (s.perfOf a b).invs = s.invs := rfl
@[simp] theorem perfOf_tiles (a b) : (s.perfOf a b).tiles = s.tiles := rfl
@[simp] theorem perfOf_scales (a b) : (s.perfOf a b).scales = s.scales := rfl
@[simp] theorem perfOf_narrow (a b) : (s.perfOf a b).narrow = s.narrow := rfl
@[simp] theorem perfOf_mxOps (a b) : (s.perfOf a b).mxOps = s.mxOps := rfl
@[simp] theorem perfOf_dlOps (a b) : (s.perfOf a b).dlOps = s.dlOps := rfl
@[simp] theorem perfOf_drains (a b) : (s.perfOf a b).drains = s.drains := rfl
@[simp] theorem perfOf_cpOps (a b) : (s.perfOf a b).cpOps = s.cpOps := rfl
@[simp] theorem perfOf_collOps (a b) : (s.perfOf a b).collOps = s.collOps := rfl
@[simp] theorem perfOf_textOps (a b) : (s.perfOf a b).textOps = s.textOps := rfl
@[simp] theorem perfOf_mailbox (a b) : (s.perfOf a b).mailbox = s.mailbox := rfl
@[simp] theorem perfOf_mbSeq (a b) : (s.perfOf a b).mbSeq = s.mbSeq := rfl
@[simp] theorem perfOf_lexicons (a b) : (s.perfOf a b).lexicons = s.lexicons := rfl
@[simp] theorem perfOf_grammars (a b) : (s.perfOf a b).grammars = s.grammars := rfl
@[simp] theorem perfOf_cells (a b) : (s.perfOf a b).cells = s.cells := rfl
@[simp] theorem perfOf_trees (a b) : (s.perfOf a b).trees = s.trees := rfl
@[simp] theorem perfOf_treeOps (a b) : (s.perfOf a b).treeOps = s.treeOps := rfl
@[simp] theorem perfOf_pools (a b) : (s.perfOf a b).pools = s.pools := rfl
@[simp] theorem perfOf_rows (a b) : (s.perfOf a b).rows = s.rows := rfl
@[simp] theorem perfOf_freeRows (a b) : (s.perfOf a b).freeRows = s.freeRows := rfl
@[simp] theorem perfOf_bcasts (a b) : (s.perfOf a b).bcasts = s.bcasts := rfl
@[simp] theorem perfOf_queues (a b) : (s.perfOf a b).queues = s.queues := rfl
@[simp] theorem perfOf_pushQ (a b) : (s.perfOf a b).pushQ = s.pushQ := rfl
@[simp] theorem perfOf_faultQ (a b) : (s.perfOf a b).faultQ = s.faultQ := rfl
@[simp] theorem perfOf_rseq (a b) : (s.perfOf a b).rseq = s.rseq := rfl
@[simp] theorem perfOf_forwarded (a b) : (s.perfOf a b).forwarded = s.forwarded := rfl
@[simp] theorem perfOf_notices (a b) : (s.perfOf a b).notices = s.notices := rfl
@[simp] theorem perfOf_pendingNotices (a b) : (s.perfOf a b).pendingNotices = s.pendingNotices := rfl
@[simp] theorem perfOf_parts (a b) : (s.perfOf a b).parts = s.parts := rfl
@[simp] theorem perfOf_dies (a b) : (s.perfOf a b).dies = s.dies := rfl
@[simp] theorem perfOf_stage (a b) : (s.perfOf a b).stage = s.stage := rfl
@[simp] theorem perfOf_power (a b) : (s.perfOf a b).power = s.power := rfl
@[simp] theorem perfOf_powerWant (a b) : (s.perfOf a b).powerWant = s.powerWant := rfl
@[simp] theorem perfOf_fwVersion (a b) : (s.perfOf a b).fwVersion = s.fwVersion := rfl
@[simp] theorem perfOf_thermtrip (a b) : (s.perfOf a b).thermtrip = s.thermtrip := rfl

@[simp] theorem done_tick (x : Issue) (g) : (x.done s g).tick = s.tick := rfl
@[simp] theorem done_agenda (x : Issue) (g) : (x.done s g).agenda = s.agenda := rfl
@[simp] theorem done_focus (x : Issue) (g) : (x.done s g).focus = s.focus := rfl
@[simp] theorem done_nextId (x : Issue) (g) : (x.done s g).nextId = s.nextId := rfl
@[simp] theorem done_outbox (x : Issue) (g) : (x.done s g).outbox = s.outbox := rfl
@[simp] theorem done_mem (x : Issue) (g) : (x.done s g).mem = s.mem := rfl
@[simp] theorem done_poison (x : Issue) (g) : (x.done s g).poison = s.poison := rfl
@[simp] theorem done_keyOf (x : Issue) (g) : (x.done s g).keyOf = s.keyOf := rfl
@[simp] theorem done_cc (x : Issue) (g) : (x.done s g).cc = s.cc := rfl
@[simp] theorem done_l1 (x : Issue) (g) : (x.done s g).l1 = s.l1 := rfl
@[simp] theorem done_rl (x : Issue) (g) : (x.done s g).rl = s.rl := rfl
@[simp] theorem done_slicePins (x : Issue) (g) : (x.done s g).slicePins = s.slicePins := rfl
@[simp] theorem done_pins (x : Issue) (g) : (x.done s g).pins = s.pins := rfl
@[simp] theorem done_tcache (x : Issue) (g) : (x.done s g).tcache = s.tcache := rfl
@[simp] theorem done_stcache (x : Issue) (g) : (x.done s g).stcache = s.stcache := rfl
@[simp] theorem done_fcache (x : Issue) (g) : (x.done s g).fcache = s.fcache := rfl
@[simp] theorem done_bias (x : Issue) (g) : (x.done s g).bias = s.bias := rfl
@[simp] theorem done_wc (x : Issue) (g) : (x.done s g).wc = s.wc := rfl
@[simp] theorem done_reqs (x : Issue) (g) : (x.done s g).reqs = s.reqs := rfl
@[simp] theorem done_ports (x : Issue) (g) : (x.done s g).ports = s.ports := rfl
@[simp] theorem done_crcErrors (x : Issue) (g) : (x.done s g).crcErrors = s.crcErrors := rfl
@[simp] theorem done_crcLast (x : Issue) (g) : (x.done s g).crcLast = s.crcLast := rfl
@[simp] theorem done_cxlDropped (x : Issue) (g) : (x.done s g).cxlDropped = s.cxlDropped := rfl
@[simp] theorem done_teams (x : Issue) (g) : (x.done s g).teams = s.teams := rfl
@[simp] theorem done_launches (x : Issue) (g) : (x.done s g).launches = s.launches := rfl
@[simp] theorem done_coreBars (x : Issue) (g) : (x.done s g).coreBars = s.coreBars := rfl
@[simp] theorem done_drainStore (x : Issue) (g) : (x.done s g).drainStore = s.drainStore := rfl
@[simp] theorem done_macs (x : Issue) (g) : (x.done s g).macs = s.macs := rfl
@[simp] theorem done_tags (x : Issue) (g) : (x.done s g).tags = s.tags := rfl
@[simp] theorem done_exps (x : Issue) (g) : (x.done s g).exps = s.exps := rfl
@[simp] theorem done_invs (x : Issue) (g) : (x.done s g).invs = s.invs := rfl
@[simp] theorem done_tiles (x : Issue) (g) : (x.done s g).tiles = s.tiles := rfl
@[simp] theorem done_scales (x : Issue) (g) : (x.done s g).scales = s.scales := rfl
@[simp] theorem done_narrow (x : Issue) (g) : (x.done s g).narrow = s.narrow := rfl
@[simp] theorem done_mxOps (x : Issue) (g) : (x.done s g).mxOps = s.mxOps := rfl
@[simp] theorem done_dlOps (x : Issue) (g) : (x.done s g).dlOps = s.dlOps := rfl
@[simp] theorem done_drains (x : Issue) (g) : (x.done s g).drains = s.drains := rfl
@[simp] theorem done_cpOps (x : Issue) (g) : (x.done s g).cpOps = s.cpOps := rfl
@[simp] theorem done_collOps (x : Issue) (g) : (x.done s g).collOps = s.collOps := rfl
@[simp] theorem done_textOps (x : Issue) (g) : (x.done s g).textOps = s.textOps := rfl
@[simp] theorem done_mailbox (x : Issue) (g) : (x.done s g).mailbox = s.mailbox := rfl
@[simp] theorem done_mbSeq (x : Issue) (g) : (x.done s g).mbSeq = s.mbSeq := rfl
@[simp] theorem done_lexicons (x : Issue) (g) : (x.done s g).lexicons = s.lexicons := rfl
@[simp] theorem done_grammars (x : Issue) (g) : (x.done s g).grammars = s.grammars := rfl
@[simp] theorem done_cells (x : Issue) (g) : (x.done s g).cells = s.cells := rfl
@[simp] theorem done_trees (x : Issue) (g) : (x.done s g).trees = s.trees := rfl
@[simp] theorem done_treeOps (x : Issue) (g) : (x.done s g).treeOps = s.treeOps := rfl
@[simp] theorem done_pools (x : Issue) (g) : (x.done s g).pools = s.pools := rfl
@[simp] theorem done_rows (x : Issue) (g) : (x.done s g).rows = s.rows := rfl
@[simp] theorem done_freeRows (x : Issue) (g) : (x.done s g).freeRows = s.freeRows := rfl
@[simp] theorem done_bcasts (x : Issue) (g) : (x.done s g).bcasts = s.bcasts := rfl
@[simp] theorem done_queues (x : Issue) (g) : (x.done s g).queues = s.queues := rfl
@[simp] theorem done_pushQ (x : Issue) (g) : (x.done s g).pushQ = s.pushQ := rfl
@[simp] theorem done_faultQ (x : Issue) (g) : (x.done s g).faultQ = s.faultQ := rfl
@[simp] theorem done_rseq (x : Issue) (g) : (x.done s g).rseq = s.rseq := rfl
@[simp] theorem done_forwarded (x : Issue) (g) : (x.done s g).forwarded = s.forwarded := rfl
@[simp] theorem done_notices (x : Issue) (g) : (x.done s g).notices = s.notices := rfl
@[simp] theorem done_pendingNotices (x : Issue) (g) : (x.done s g).pendingNotices = s.pendingNotices := rfl
@[simp] theorem done_parts (x : Issue) (g) : (x.done s g).parts = s.parts := rfl
@[simp] theorem done_dies (x : Issue) (g) : (x.done s g).dies = s.dies := rfl
@[simp] theorem done_stage (x : Issue) (g) : (x.done s g).stage = s.stage := rfl
@[simp] theorem done_power (x : Issue) (g) : (x.done s g).power = s.power := rfl
@[simp] theorem done_powerWant (x : Issue) (g) : (x.done s g).powerWant = s.powerWant := rfl
@[simp] theorem done_fwVersion (x : Issue) (g) : (x.done s g).fwVersion = s.fwVersion := rfl
@[simp] theorem done_thermtrip (x : Issue) (g) : (x.done s g).thermtrip = s.thermtrip := rfl

/-! ### Updates of a group -/

@[simp] theorem putV_tid (a b) (c) : (g.putV a b c).tid = g.tid := rfl
@[simp] theorem putV_ix (a b) (c) : (g.putV a b c).ix = g.ix := rfl
@[simp] theorem putV_stage (a b) (c) : (g.putV a b c).stage = g.stage := rfl
@[simp] theorem putV_die (a b) (c) : (g.putV a b c).die = g.die := rfl
@[simp] theorem putV_core (a b) (c) : (g.putV a b c).core = g.core := rfl
@[simp] theorem putV_quarter (a b) (c) : (g.putV a b c).quarter = g.quarter := rfl
@[simp] theorem putV_slot (a b) (c) : (g.putV a b c).slot = g.slot := rfl
@[simp] theorem putV_saved (a b) (c) : (g.putV a b c).saved = g.saved := rfl
@[simp] theorem putV_w (a b) (c) : (g.putV a b c).w = g.w := rfl
@[simp] theorem putV_s (a b) (c) : (g.putV a b c).s = g.s := rfl
@[simp] theorem putV_sst (a b) (c) : (g.putV a b c).sst = g.sst := rfl
@[simp] theorem putV_p (a b) (c) : (g.putV a b c).p = g.p := rfl
@[simp] theorem putV_k (a b) (c) : (g.putV a b c).k = g.k := rfl
@[simp] theorem putV_t (a b) (c) : (g.putV a b c).t = g.t := rfl
@[simp] theorem putV_tst (a b) (c) : (g.putV a b c).tst = g.tst := rfl
@[simp] theorem putV_oq (a b) (c) : (g.putV a b c).oq = g.oq := rfl
@[simp] theorem putV_fpFlags (a b) (c) : (g.putV a b c).fpFlags = g.fpFlags := rfl
@[simp] theorem putV_fpEnable (a b) (c) : (g.putV a b c).fpEnable = g.fpEnable := rfl
@[simp] theorem putV_mxFlags (a b) (c) : (g.putV a b c).mxFlags = g.mxFlags := rfl
@[simp] theorem putV_rspb (a b) (c) : (g.putV a b c).rspb = g.rspb := rfl
@[simp] theorem putV_tag (a b) (c) : (g.putV a b c).tag = g.tag := rfl
@[simp] theorem putV_table (a b) (c) : (g.putV a b c).table = g.table := rfl
@[simp] theorem putV_stack (a b) (c) : (g.putV a b c).stack = g.stack := rfl
@[simp] theorem putV_ages (a b) (c) : (g.putV a b c).ages = g.ages := rfl
@[simp] theorem putV_apc (a b) (c) : (g.putV a b c).apc = g.apc := rfl
@[simp] theorem putV_aHalted (a b) (c) : (g.putV a b c).aHalted = g.aHalted := rfl
@[simp] theorem putV_aStopped (a b) (c) : (g.putV a b c).aStopped = g.aStopped := rfl
@[simp] theorem putV_aTrap (a b) (c) : (g.putV a b c).aTrap = g.aTrap := rfl
@[simp] theorem putV_aSet (a b) (c) : (g.putV a b c).aSet = g.aSet := rfl
@[simp] theorem putV_aNext (a b) (c) : (g.putV a b c).aNext = g.aNext := rfl
@[simp] theorem putV_aLoad (a b) (c) : (g.putV a b c).aLoad = g.aLoad := rfl
@[simp] theorem putV_aBar (a b) (c) : (g.putV a b c).aBar = g.aBar := rfl
@[simp] theorem putV_age (a b) (c) : (g.putV a b c).age = g.age := rfl
@[simp] theorem putV_ops (a b) (c) : (g.putV a b c).ops = g.ops := rfl
@[simp] theorem putV_accs (a b) (c) : (g.putV a b c).accs = g.accs := rfl
@[simp] theorem putV_xblock (a b) (c) : (g.putV a b c).xblock = g.xblock := rfl
@[simp] theorem putV_hangCnt (a b) (c) : (g.putV a b c).hangCnt = g.hangCnt := rfl
@[simp] theorem putV_hangSet (a b) (c) : (g.putV a b c).hangSet = g.hangSet := rfl
@[simp] theorem putV_gstop (a b) (c) : (g.putV a b c).gstop = g.gstop := rfl
@[simp] theorem putV_stopReq (a b) (c) : (g.putV a b c).stopReq = g.stopReq := rfl
@[simp] theorem putV_killed (a b) (c) : (g.putV a b c).killed = g.killed := rfl
@[simp] theorem putV_handled (a b) (c) : (g.putV a b c).handled = g.handled := rfl
@[simp] theorem putV_left (a b) (c) : (g.putV a b c).left = g.left := rfl
@[simp] theorem putV_detached (a b) (c) : (g.putV a b c).detached = g.detached := rfl
@[simp] theorem putV_retired (a b) (c) : (g.putV a b c).retired = g.retired := rfl
@[simp] theorem putV_born (a b) (c) : (g.putV a b c).born = g.born := rfl
@[simp] theorem putV_waited (a b) (c) : (g.putV a b c).waited = g.waited := rfl
@[simp] theorem putV_aWaited (a b) (c) : (g.putV a b c).aWaited = g.aWaited := rfl

@[simp] theorem setVState_tid (a b) (c) : (g.setVState a b c).tid = g.tid := rfl
@[simp] theorem setVState_ix (a b) (c) : (g.setVState a b c).ix = g.ix := rfl
@[simp] theorem setVState_stage (a b) (c) : (g.setVState a b c).stage = g.stage := rfl
@[simp] theorem setVState_die (a b) (c) : (g.setVState a b c).die = g.die := rfl
@[simp] theorem setVState_core (a b) (c) : (g.setVState a b c).core = g.core := rfl
@[simp] theorem setVState_quarter (a b) (c) : (g.setVState a b c).quarter = g.quarter := rfl
@[simp] theorem setVState_slot (a b) (c) : (g.setVState a b c).slot = g.slot := rfl
@[simp] theorem setVState_saved (a b) (c) : (g.setVState a b c).saved = g.saved := rfl
@[simp] theorem setVState_w (a b) (c) : (g.setVState a b c).w = g.w := rfl
@[simp] theorem setVState_v (a b) (c) : (g.setVState a b c).v = g.v := rfl
@[simp] theorem setVState_s (a b) (c) : (g.setVState a b c).s = g.s := rfl
@[simp] theorem setVState_sst (a b) (c) : (g.setVState a b c).sst = g.sst := rfl
@[simp] theorem setVState_p (a b) (c) : (g.setVState a b c).p = g.p := rfl
@[simp] theorem setVState_k (a b) (c) : (g.setVState a b c).k = g.k := rfl
@[simp] theorem setVState_t (a b) (c) : (g.setVState a b c).t = g.t := rfl
@[simp] theorem setVState_tst (a b) (c) : (g.setVState a b c).tst = g.tst := rfl
@[simp] theorem setVState_oq (a b) (c) : (g.setVState a b c).oq = g.oq := rfl
@[simp] theorem setVState_fpFlags (a b) (c) : (g.setVState a b c).fpFlags = g.fpFlags := rfl
@[simp] theorem setVState_fpEnable (a b) (c) : (g.setVState a b c).fpEnable = g.fpEnable := rfl
@[simp] theorem setVState_mxFlags (a b) (c) : (g.setVState a b c).mxFlags = g.mxFlags := rfl
@[simp] theorem setVState_rspb (a b) (c) : (g.setVState a b c).rspb = g.rspb := rfl
@[simp] theorem setVState_tag (a b) (c) : (g.setVState a b c).tag = g.tag := rfl
@[simp] theorem setVState_table (a b) (c) : (g.setVState a b c).table = g.table := rfl
@[simp] theorem setVState_stack (a b) (c) : (g.setVState a b c).stack = g.stack := rfl
@[simp] theorem setVState_ages (a b) (c) : (g.setVState a b c).ages = g.ages := rfl
@[simp] theorem setVState_apc (a b) (c) : (g.setVState a b c).apc = g.apc := rfl
@[simp] theorem setVState_aHalted (a b) (c) : (g.setVState a b c).aHalted = g.aHalted := rfl
@[simp] theorem setVState_aStopped (a b) (c) : (g.setVState a b c).aStopped = g.aStopped := rfl
@[simp] theorem setVState_aTrap (a b) (c) : (g.setVState a b c).aTrap = g.aTrap := rfl
@[simp] theorem setVState_aSet (a b) (c) : (g.setVState a b c).aSet = g.aSet := rfl
@[simp] theorem setVState_aNext (a b) (c) : (g.setVState a b c).aNext = g.aNext := rfl
@[simp] theorem setVState_aLoad (a b) (c) : (g.setVState a b c).aLoad = g.aLoad := rfl
@[simp] theorem setVState_aBar (a b) (c) : (g.setVState a b c).aBar = g.aBar := rfl
@[simp] theorem setVState_age (a b) (c) : (g.setVState a b c).age = g.age := rfl
@[simp] theorem setVState_ops (a b) (c) : (g.setVState a b c).ops = g.ops := rfl
@[simp] theorem setVState_accs (a b) (c) : (g.setVState a b c).accs = g.accs := rfl
@[simp] theorem setVState_xblock (a b) (c) : (g.setVState a b c).xblock = g.xblock := rfl
@[simp] theorem setVState_hangCnt (a b) (c) : (g.setVState a b c).hangCnt = g.hangCnt := rfl
@[simp] theorem setVState_hangSet (a b) (c) : (g.setVState a b c).hangSet = g.hangSet := rfl
@[simp] theorem setVState_gstop (a b) (c) : (g.setVState a b c).gstop = g.gstop := rfl
@[simp] theorem setVState_stopReq (a b) (c) : (g.setVState a b c).stopReq = g.stopReq := rfl
@[simp] theorem setVState_killed (a b) (c) : (g.setVState a b c).killed = g.killed := rfl
@[simp] theorem setVState_handled (a b) (c) : (g.setVState a b c).handled = g.handled := rfl
@[simp] theorem setVState_left (a b) (c) : (g.setVState a b c).left = g.left := rfl
@[simp] theorem setVState_detached (a b) (c) : (g.setVState a b c).detached = g.detached := rfl
@[simp] theorem setVState_retired (a b) (c) : (g.setVState a b c).retired = g.retired := rfl
@[simp] theorem setVState_born (a b) (c) : (g.setVState a b c).born = g.born := rfl
@[simp] theorem setVState_waited (a b) (c) : (g.setVState a b c).waited = g.waited := rfl
@[simp] theorem setVState_aWaited (a b) (c) : (g.setVState a b c).aWaited = g.aWaited := rfl

@[simp] theorem putT_tid (a b) (c) : (g.putT a b c).tid = g.tid := rfl
@[simp] theorem putT_ix (a b) (c) : (g.putT a b c).ix = g.ix := rfl
@[simp] theorem putT_stage (a b) (c) : (g.putT a b c).stage = g.stage := rfl
@[simp] theorem putT_die (a b) (c) : (g.putT a b c).die = g.die := rfl
@[simp] theorem putT_core (a b) (c) : (g.putT a b c).core = g.core := rfl
@[simp] theorem putT_quarter (a b) (c) : (g.putT a b c).quarter = g.quarter := rfl
@[simp] theorem putT_slot (a b) (c) : (g.putT a b c).slot = g.slot := rfl
@[simp] theorem putT_saved (a b) (c) : (g.putT a b c).saved = g.saved := rfl
@[simp] theorem putT_w (a b) (c) : (g.putT a b c).w = g.w := rfl
@[simp] theorem putT_v (a b) (c) : (g.putT a b c).v = g.v := rfl
@[simp] theorem putT_vst (a b) (c) : (g.putT a b c).vst = g.vst := rfl
@[simp] theorem putT_s (a b) (c) : (g.putT a b c).s = g.s := rfl
@[simp] theorem putT_sst (a b) (c) : (g.putT a b c).sst = g.sst := rfl
@[simp] theorem putT_p (a b) (c) : (g.putT a b c).p = g.p := rfl
@[simp] theorem putT_k (a b) (c) : (g.putT a b c).k = g.k := rfl
@[simp] theorem putT_oq (a b) (c) : (g.putT a b c).oq = g.oq := rfl
@[simp] theorem putT_fpFlags (a b) (c) : (g.putT a b c).fpFlags = g.fpFlags := rfl
@[simp] theorem putT_fpEnable (a b) (c) : (g.putT a b c).fpEnable = g.fpEnable := rfl
@[simp] theorem putT_mxFlags (a b) (c) : (g.putT a b c).mxFlags = g.mxFlags := rfl
@[simp] theorem putT_rspb (a b) (c) : (g.putT a b c).rspb = g.rspb := rfl
@[simp] theorem putT_tag (a b) (c) : (g.putT a b c).tag = g.tag := rfl
@[simp] theorem putT_table (a b) (c) : (g.putT a b c).table = g.table := rfl
@[simp] theorem putT_stack (a b) (c) : (g.putT a b c).stack = g.stack := rfl
@[simp] theorem putT_ages (a b) (c) : (g.putT a b c).ages = g.ages := rfl
@[simp] theorem putT_apc (a b) (c) : (g.putT a b c).apc = g.apc := rfl
@[simp] theorem putT_aHalted (a b) (c) : (g.putT a b c).aHalted = g.aHalted := rfl
@[simp] theorem putT_aStopped (a b) (c) : (g.putT a b c).aStopped = g.aStopped := rfl
@[simp] theorem putT_aTrap (a b) (c) : (g.putT a b c).aTrap = g.aTrap := rfl
@[simp] theorem putT_aSet (a b) (c) : (g.putT a b c).aSet = g.aSet := rfl
@[simp] theorem putT_aNext (a b) (c) : (g.putT a b c).aNext = g.aNext := rfl
@[simp] theorem putT_aLoad (a b) (c) : (g.putT a b c).aLoad = g.aLoad := rfl
@[simp] theorem putT_aBar (a b) (c) : (g.putT a b c).aBar = g.aBar := rfl
@[simp] theorem putT_age (a b) (c) : (g.putT a b c).age = g.age := rfl
@[simp] theorem putT_ops (a b) (c) : (g.putT a b c).ops = g.ops := rfl
@[simp] theorem putT_accs (a b) (c) : (g.putT a b c).accs = g.accs := rfl
@[simp] theorem putT_xblock (a b) (c) : (g.putT a b c).xblock = g.xblock := rfl
@[simp] theorem putT_hangCnt (a b) (c) : (g.putT a b c).hangCnt = g.hangCnt := rfl
@[simp] theorem putT_hangSet (a b) (c) : (g.putT a b c).hangSet = g.hangSet := rfl
@[simp] theorem putT_gstop (a b) (c) : (g.putT a b c).gstop = g.gstop := rfl
@[simp] theorem putT_stopReq (a b) (c) : (g.putT a b c).stopReq = g.stopReq := rfl
@[simp] theorem putT_killed (a b) (c) : (g.putT a b c).killed = g.killed := rfl
@[simp] theorem putT_handled (a b) (c) : (g.putT a b c).handled = g.handled := rfl
@[simp] theorem putT_left (a b) (c) : (g.putT a b c).left = g.left := rfl
@[simp] theorem putT_detached (a b) (c) : (g.putT a b c).detached = g.detached := rfl
@[simp] theorem putT_retired (a b) (c) : (g.putT a b c).retired = g.retired := rfl
@[simp] theorem putT_born (a b) (c) : (g.putT a b c).born = g.born := rfl
@[simp] theorem putT_waited (a b) (c) : (g.putT a b c).waited = g.waited := rfl
@[simp] theorem putT_aWaited (a b) (c) : (g.putT a b c).aWaited = g.aWaited := rfl

@[simp] theorem setTState_tid (a b) (c) : (g.setTState a b c).tid = g.tid := rfl
@[simp] theorem setTState_ix (a b) (c) : (g.setTState a b c).ix = g.ix := rfl
@[simp] theorem setTState_stage (a b) (c) : (g.setTState a b c).stage = g.stage := rfl
@[simp] theorem setTState_die (a b) (c) : (g.setTState a b c).die = g.die := rfl
@[simp] theorem setTState_core (a b) (c) : (g.setTState a b c).core = g.core := rfl
@[simp] theorem setTState_quarter (a b) (c) : (g.setTState a b c).quarter = g.quarter := rfl
@[simp] theorem setTState_slot (a b) (c) : (g.setTState a b c).slot = g.slot := rfl
@[simp] theorem setTState_saved (a b) (c) : (g.setTState a b c).saved = g.saved := rfl
@[simp] theorem setTState_w (a b) (c) : (g.setTState a b c).w = g.w := rfl
@[simp] theorem setTState_v (a b) (c) : (g.setTState a b c).v = g.v := rfl
@[simp] theorem setTState_vst (a b) (c) : (g.setTState a b c).vst = g.vst := rfl
@[simp] theorem setTState_s (a b) (c) : (g.setTState a b c).s = g.s := rfl
@[simp] theorem setTState_sst (a b) (c) : (g.setTState a b c).sst = g.sst := rfl
@[simp] theorem setTState_p (a b) (c) : (g.setTState a b c).p = g.p := rfl
@[simp] theorem setTState_k (a b) (c) : (g.setTState a b c).k = g.k := rfl
@[simp] theorem setTState_t (a b) (c) : (g.setTState a b c).t = g.t := rfl
@[simp] theorem setTState_oq (a b) (c) : (g.setTState a b c).oq = g.oq := rfl
@[simp] theorem setTState_fpFlags (a b) (c) : (g.setTState a b c).fpFlags = g.fpFlags := rfl
@[simp] theorem setTState_fpEnable (a b) (c) : (g.setTState a b c).fpEnable = g.fpEnable := rfl
@[simp] theorem setTState_mxFlags (a b) (c) : (g.setTState a b c).mxFlags = g.mxFlags := rfl
@[simp] theorem setTState_rspb (a b) (c) : (g.setTState a b c).rspb = g.rspb := rfl
@[simp] theorem setTState_tag (a b) (c) : (g.setTState a b c).tag = g.tag := rfl
@[simp] theorem setTState_table (a b) (c) : (g.setTState a b c).table = g.table := rfl
@[simp] theorem setTState_stack (a b) (c) : (g.setTState a b c).stack = g.stack := rfl
@[simp] theorem setTState_ages (a b) (c) : (g.setTState a b c).ages = g.ages := rfl
@[simp] theorem setTState_apc (a b) (c) : (g.setTState a b c).apc = g.apc := rfl
@[simp] theorem setTState_aHalted (a b) (c) : (g.setTState a b c).aHalted = g.aHalted := rfl
@[simp] theorem setTState_aStopped (a b) (c) : (g.setTState a b c).aStopped = g.aStopped := rfl
@[simp] theorem setTState_aTrap (a b) (c) : (g.setTState a b c).aTrap = g.aTrap := rfl
@[simp] theorem setTState_aSet (a b) (c) : (g.setTState a b c).aSet = g.aSet := rfl
@[simp] theorem setTState_aNext (a b) (c) : (g.setTState a b c).aNext = g.aNext := rfl
@[simp] theorem setTState_aLoad (a b) (c) : (g.setTState a b c).aLoad = g.aLoad := rfl
@[simp] theorem setTState_aBar (a b) (c) : (g.setTState a b c).aBar = g.aBar := rfl
@[simp] theorem setTState_age (a b) (c) : (g.setTState a b c).age = g.age := rfl
@[simp] theorem setTState_ops (a b) (c) : (g.setTState a b c).ops = g.ops := rfl
@[simp] theorem setTState_accs (a b) (c) : (g.setTState a b c).accs = g.accs := rfl
@[simp] theorem setTState_xblock (a b) (c) : (g.setTState a b c).xblock = g.xblock := rfl
@[simp] theorem setTState_hangCnt (a b) (c) : (g.setTState a b c).hangCnt = g.hangCnt := rfl
@[simp] theorem setTState_hangSet (a b) (c) : (g.setTState a b c).hangSet = g.hangSet := rfl
@[simp] theorem setTState_gstop (a b) (c) : (g.setTState a b c).gstop = g.gstop := rfl
@[simp] theorem setTState_stopReq (a b) (c) : (g.setTState a b c).stopReq = g.stopReq := rfl
@[simp] theorem setTState_killed (a b) (c) : (g.setTState a b c).killed = g.killed := rfl
@[simp] theorem setTState_handled (a b) (c) : (g.setTState a b c).handled = g.handled := rfl
@[simp] theorem setTState_left (a b) (c) : (g.setTState a b c).left = g.left := rfl
@[simp] theorem setTState_detached (a b) (c) : (g.setTState a b c).detached = g.detached := rfl
@[simp] theorem setTState_retired (a b) (c) : (g.setTState a b c).retired = g.retired := rfl
@[simp] theorem setTState_born (a b) (c) : (g.setTState a b c).born = g.born := rfl
@[simp] theorem setTState_waited (a b) (c) : (g.setTState a b c).waited = g.waited := rfl
@[simp] theorem setTState_aWaited (a b) (c) : (g.setTState a b c).aWaited = g.aWaited := rfl

@[simp] theorem putS_tid (a) (c) : (g.putS a c).tid = g.tid := rfl
@[simp] theorem putS_ix (a) (c) : (g.putS a c).ix = g.ix := rfl
@[simp] theorem putS_stage (a) (c) : (g.putS a c).stage = g.stage := rfl
@[simp] theorem putS_die (a) (c) : (g.putS a c).die = g.die := rfl
@[simp] theorem putS_core (a) (c) : (g.putS a c).core = g.core := rfl
@[simp] theorem putS_quarter (a) (c) : (g.putS a c).quarter = g.quarter := rfl
@[simp] theorem putS_slot (a) (c) : (g.putS a c).slot = g.slot := rfl
@[simp] theorem putS_saved (a) (c) : (g.putS a c).saved = g.saved := rfl
@[simp] theorem putS_w (a) (c) : (g.putS a c).w = g.w := rfl
@[simp] theorem putS_v (a) (c) : (g.putS a c).v = g.v := rfl
@[simp] theorem putS_vst (a) (c) : (g.putS a c).vst = g.vst := rfl
@[simp] theorem putS_p (a) (c) : (g.putS a c).p = g.p := rfl
@[simp] theorem putS_k (a) (c) : (g.putS a c).k = g.k := rfl
@[simp] theorem putS_t (a) (c) : (g.putS a c).t = g.t := rfl
@[simp] theorem putS_tst (a) (c) : (g.putS a c).tst = g.tst := rfl
@[simp] theorem putS_oq (a) (c) : (g.putS a c).oq = g.oq := rfl
@[simp] theorem putS_fpFlags (a) (c) : (g.putS a c).fpFlags = g.fpFlags := rfl
@[simp] theorem putS_fpEnable (a) (c) : (g.putS a c).fpEnable = g.fpEnable := rfl
@[simp] theorem putS_mxFlags (a) (c) : (g.putS a c).mxFlags = g.mxFlags := rfl
@[simp] theorem putS_rspb (a) (c) : (g.putS a c).rspb = g.rspb := rfl
@[simp] theorem putS_tag (a) (c) : (g.putS a c).tag = g.tag := rfl
@[simp] theorem putS_table (a) (c) : (g.putS a c).table = g.table := rfl
@[simp] theorem putS_stack (a) (c) : (g.putS a c).stack = g.stack := rfl
@[simp] theorem putS_ages (a) (c) : (g.putS a c).ages = g.ages := rfl
@[simp] theorem putS_apc (a) (c) : (g.putS a c).apc = g.apc := rfl
@[simp] theorem putS_aHalted (a) (c) : (g.putS a c).aHalted = g.aHalted := rfl
@[simp] theorem putS_aStopped (a) (c) : (g.putS a c).aStopped = g.aStopped := rfl
@[simp] theorem putS_aTrap (a) (c) : (g.putS a c).aTrap = g.aTrap := rfl
@[simp] theorem putS_aSet (a) (c) : (g.putS a c).aSet = g.aSet := rfl
@[simp] theorem putS_aNext (a) (c) : (g.putS a c).aNext = g.aNext := rfl
@[simp] theorem putS_aLoad (a) (c) : (g.putS a c).aLoad = g.aLoad := rfl
@[simp] theorem putS_aBar (a) (c) : (g.putS a c).aBar = g.aBar := rfl
@[simp] theorem putS_age (a) (c) : (g.putS a c).age = g.age := rfl
@[simp] theorem putS_ops (a) (c) : (g.putS a c).ops = g.ops := rfl
@[simp] theorem putS_accs (a) (c) : (g.putS a c).accs = g.accs := rfl
@[simp] theorem putS_xblock (a) (c) : (g.putS a c).xblock = g.xblock := rfl
@[simp] theorem putS_hangCnt (a) (c) : (g.putS a c).hangCnt = g.hangCnt := rfl
@[simp] theorem putS_hangSet (a) (c) : (g.putS a c).hangSet = g.hangSet := rfl
@[simp] theorem putS_gstop (a) (c) : (g.putS a c).gstop = g.gstop := rfl
@[simp] theorem putS_stopReq (a) (c) : (g.putS a c).stopReq = g.stopReq := rfl
@[simp] theorem putS_killed (a) (c) : (g.putS a c).killed = g.killed := rfl
@[simp] theorem putS_handled (a) (c) : (g.putS a c).handled = g.handled := rfl
@[simp] theorem putS_left (a) (c) : (g.putS a c).left = g.left := rfl
@[simp] theorem putS_detached (a) (c) : (g.putS a c).detached = g.detached := rfl
@[simp] theorem putS_retired (a) (c) : (g.putS a c).retired = g.retired := rfl
@[simp] theorem putS_born (a) (c) : (g.putS a c).born = g.born := rfl
@[simp] theorem putS_waited (a) (c) : (g.putS a c).waited = g.waited := rfl
@[simp] theorem putS_aWaited (a) (c) : (g.putS a c).aWaited = g.aWaited := rfl

@[simp] theorem setSState_tid (a) (c) : (g.setSState a c).tid = g.tid := rfl
@[simp] theorem setSState_ix (a) (c) : (g.setSState a c).ix = g.ix := rfl
@[simp] theorem setSState_stage (a) (c) : (g.setSState a c).stage = g.stage := rfl
@[simp] theorem setSState_die (a) (c) : (g.setSState a c).die = g.die := rfl
@[simp] theorem setSState_core (a) (c) : (g.setSState a c).core = g.core := rfl
@[simp] theorem setSState_quarter (a) (c) : (g.setSState a c).quarter = g.quarter := rfl
@[simp] theorem setSState_slot (a) (c) : (g.setSState a c).slot = g.slot := rfl
@[simp] theorem setSState_saved (a) (c) : (g.setSState a c).saved = g.saved := rfl
@[simp] theorem setSState_w (a) (c) : (g.setSState a c).w = g.w := rfl
@[simp] theorem setSState_v (a) (c) : (g.setSState a c).v = g.v := rfl
@[simp] theorem setSState_vst (a) (c) : (g.setSState a c).vst = g.vst := rfl
@[simp] theorem setSState_s (a) (c) : (g.setSState a c).s = g.s := rfl
@[simp] theorem setSState_p (a) (c) : (g.setSState a c).p = g.p := rfl
@[simp] theorem setSState_k (a) (c) : (g.setSState a c).k = g.k := rfl
@[simp] theorem setSState_t (a) (c) : (g.setSState a c).t = g.t := rfl
@[simp] theorem setSState_tst (a) (c) : (g.setSState a c).tst = g.tst := rfl
@[simp] theorem setSState_oq (a) (c) : (g.setSState a c).oq = g.oq := rfl
@[simp] theorem setSState_fpFlags (a) (c) : (g.setSState a c).fpFlags = g.fpFlags := rfl
@[simp] theorem setSState_fpEnable (a) (c) : (g.setSState a c).fpEnable = g.fpEnable := rfl
@[simp] theorem setSState_mxFlags (a) (c) : (g.setSState a c).mxFlags = g.mxFlags := rfl
@[simp] theorem setSState_rspb (a) (c) : (g.setSState a c).rspb = g.rspb := rfl
@[simp] theorem setSState_tag (a) (c) : (g.setSState a c).tag = g.tag := rfl
@[simp] theorem setSState_table (a) (c) : (g.setSState a c).table = g.table := rfl
@[simp] theorem setSState_stack (a) (c) : (g.setSState a c).stack = g.stack := rfl
@[simp] theorem setSState_ages (a) (c) : (g.setSState a c).ages = g.ages := rfl
@[simp] theorem setSState_apc (a) (c) : (g.setSState a c).apc = g.apc := rfl
@[simp] theorem setSState_aHalted (a) (c) : (g.setSState a c).aHalted = g.aHalted := rfl
@[simp] theorem setSState_aStopped (a) (c) : (g.setSState a c).aStopped = g.aStopped := rfl
@[simp] theorem setSState_aTrap (a) (c) : (g.setSState a c).aTrap = g.aTrap := rfl
@[simp] theorem setSState_aSet (a) (c) : (g.setSState a c).aSet = g.aSet := rfl
@[simp] theorem setSState_aNext (a) (c) : (g.setSState a c).aNext = g.aNext := rfl
@[simp] theorem setSState_aLoad (a) (c) : (g.setSState a c).aLoad = g.aLoad := rfl
@[simp] theorem setSState_aBar (a) (c) : (g.setSState a c).aBar = g.aBar := rfl
@[simp] theorem setSState_age (a) (c) : (g.setSState a c).age = g.age := rfl
@[simp] theorem setSState_ops (a) (c) : (g.setSState a c).ops = g.ops := rfl
@[simp] theorem setSState_accs (a) (c) : (g.setSState a c).accs = g.accs := rfl
@[simp] theorem setSState_xblock (a) (c) : (g.setSState a c).xblock = g.xblock := rfl
@[simp] theorem setSState_hangCnt (a) (c) : (g.setSState a c).hangCnt = g.hangCnt := rfl
@[simp] theorem setSState_hangSet (a) (c) : (g.setSState a c).hangSet = g.hangSet := rfl
@[simp] theorem setSState_gstop (a) (c) : (g.setSState a c).gstop = g.gstop := rfl
@[simp] theorem setSState_stopReq (a) (c) : (g.setSState a c).stopReq = g.stopReq := rfl
@[simp] theorem setSState_killed (a) (c) : (g.setSState a c).killed = g.killed := rfl
@[simp] theorem setSState_handled (a) (c) : (g.setSState a c).handled = g.handled := rfl
@[simp] theorem setSState_left (a) (c) : (g.setSState a c).left = g.left := rfl
@[simp] theorem setSState_detached (a) (c) : (g.setSState a c).detached = g.detached := rfl
@[simp] theorem setSState_retired (a) (c) : (g.setSState a c).retired = g.retired := rfl
@[simp] theorem setSState_born (a) (c) : (g.setSState a c).born = g.born := rfl
@[simp] theorem setSState_waited (a) (c) : (g.setSState a c).waited = g.waited := rfl
@[simp] theorem setSState_aWaited (a) (c) : (g.setSState a c).aWaited = g.aWaited := rfl

@[simp] theorem putP_tid (a) (m c) : (g.putP a m c).tid = g.tid := by unfold Group.putP; split <;> rfl
@[simp] theorem putP_ix (a) (m c) : (g.putP a m c).ix = g.ix := by unfold Group.putP; split <;> rfl
@[simp] theorem putP_stage (a) (m c) : (g.putP a m c).stage = g.stage := by unfold Group.putP; split <;> rfl
@[simp] theorem putP_die (a) (m c) : (g.putP a m c).die = g.die := by unfold Group.putP; split <;> rfl
@[simp] theorem putP_core (a) (m c) : (g.putP a m c).core = g.core := by unfold Group.putP; split <;> rfl
@[simp] theorem putP_quarter (a) (m c) : (g.putP a m c).quarter = g.quarter := by unfold Group.putP; split <;> rfl
@[simp] theorem putP_slot (a) (m c) : (g.putP a m c).slot = g.slot := by unfold Group.putP; split <;> rfl
@[simp] theorem putP_saved (a) (m c) : (g.putP a m c).saved = g.saved := by unfold Group.putP; split <;> rfl
@[simp] theorem putP_w (a) (m c) : (g.putP a m c).w = g.w := by unfold Group.putP; split <;> rfl
@[simp] theorem putP_v (a) (m c) : (g.putP a m c).v = g.v := by unfold Group.putP; split <;> rfl
@[simp] theorem putP_vst (a) (m c) : (g.putP a m c).vst = g.vst := by unfold Group.putP; split <;> rfl
@[simp] theorem putP_s (a) (m c) : (g.putP a m c).s = g.s := by unfold Group.putP; split <;> rfl
@[simp] theorem putP_sst (a) (m c) : (g.putP a m c).sst = g.sst := by unfold Group.putP; split <;> rfl
@[simp] theorem putP_k (a) (m c) : (g.putP a m c).k = g.k := by unfold Group.putP; split <;> rfl
@[simp] theorem putP_t (a) (m c) : (g.putP a m c).t = g.t := by unfold Group.putP; split <;> rfl
@[simp] theorem putP_tst (a) (m c) : (g.putP a m c).tst = g.tst := by unfold Group.putP; split <;> rfl
@[simp] theorem putP_oq (a) (m c) : (g.putP a m c).oq = g.oq := by unfold Group.putP; split <;> rfl
@[simp] theorem putP_fpFlags (a) (m c) : (g.putP a m c).fpFlags = g.fpFlags := by unfold Group.putP; split <;> rfl
@[simp] theorem putP_fpEnable (a) (m c) : (g.putP a m c).fpEnable = g.fpEnable := by unfold Group.putP; split <;> rfl
@[simp] theorem putP_mxFlags (a) (m c) : (g.putP a m c).mxFlags = g.mxFlags := by unfold Group.putP; split <;> rfl
@[simp] theorem putP_rspb (a) (m c) : (g.putP a m c).rspb = g.rspb := by unfold Group.putP; split <;> rfl
@[simp] theorem putP_tag (a) (m c) : (g.putP a m c).tag = g.tag := by unfold Group.putP; split <;> rfl
@[simp] theorem putP_table (a) (m c) : (g.putP a m c).table = g.table := by unfold Group.putP; split <;> rfl
@[simp] theorem putP_stack (a) (m c) : (g.putP a m c).stack = g.stack := by unfold Group.putP; split <;> rfl
@[simp] theorem putP_ages (a) (m c) : (g.putP a m c).ages = g.ages := by unfold Group.putP; split <;> rfl
@[simp] theorem putP_apc (a) (m c) : (g.putP a m c).apc = g.apc := by unfold Group.putP; split <;> rfl
@[simp] theorem putP_aHalted (a) (m c) : (g.putP a m c).aHalted = g.aHalted := by unfold Group.putP; split <;> rfl
@[simp] theorem putP_aStopped (a) (m c) : (g.putP a m c).aStopped = g.aStopped := by unfold Group.putP; split <;> rfl
@[simp] theorem putP_aTrap (a) (m c) : (g.putP a m c).aTrap = g.aTrap := by unfold Group.putP; split <;> rfl
@[simp] theorem putP_aSet (a) (m c) : (g.putP a m c).aSet = g.aSet := by unfold Group.putP; split <;> rfl
@[simp] theorem putP_aNext (a) (m c) : (g.putP a m c).aNext = g.aNext := by unfold Group.putP; split <;> rfl
@[simp] theorem putP_aLoad (a) (m c) : (g.putP a m c).aLoad = g.aLoad := by unfold Group.putP; split <;> rfl
@[simp] theorem putP_aBar (a) (m c) : (g.putP a m c).aBar = g.aBar := by unfold Group.putP; split <;> rfl
@[simp] theorem putP_age (a) (m c) : (g.putP a m c).age = g.age := by unfold Group.putP; split <;> rfl
@[simp] theorem putP_ops (a) (m c) : (g.putP a m c).ops = g.ops := by unfold Group.putP; split <;> rfl
@[simp] theorem putP_accs (a) (m c) : (g.putP a m c).accs = g.accs := by unfold Group.putP; split <;> rfl
@[simp] theorem putP_xblock (a) (m c) : (g.putP a m c).xblock = g.xblock := by unfold Group.putP; split <;> rfl
@[simp] theorem putP_hangCnt (a) (m c) : (g.putP a m c).hangCnt = g.hangCnt := by unfold Group.putP; split <;> rfl
@[simp] theorem putP_hangSet (a) (m c) : (g.putP a m c).hangSet = g.hangSet := by unfold Group.putP; split <;> rfl
@[simp] theorem putP_gstop (a) (m c) : (g.putP a m c).gstop = g.gstop := by unfold Group.putP; split <;> rfl
@[simp] theorem putP_stopReq (a) (m c) : (g.putP a m c).stopReq = g.stopReq := by unfold Group.putP; split <;> rfl
@[simp] theorem putP_killed (a) (m c) : (g.putP a m c).killed = g.killed := by unfold Group.putP; split <;> rfl
@[simp] theorem putP_handled (a) (m c) : (g.putP a m c).handled = g.handled := by unfold Group.putP; split <;> rfl
@[simp] theorem putP_left (a) (m c) : (g.putP a m c).left = g.left := by unfold Group.putP; split <;> rfl
@[simp] theorem putP_detached (a) (m c) : (g.putP a m c).detached = g.detached := by unfold Group.putP; split <;> rfl
@[simp] theorem putP_retired (a) (m c) : (g.putP a m c).retired = g.retired := by unfold Group.putP; split <;> rfl
@[simp] theorem putP_born (a) (m c) : (g.putP a m c).born = g.born := by unfold Group.putP; split <;> rfl
@[simp] theorem putP_waited (a) (m c) : (g.putP a m c).waited = g.waited := by unfold Group.putP; split <;> rfl
@[simp] theorem putP_aWaited (a) (m c) : (g.putP a m c).aWaited = g.aWaited := by unfold Group.putP; split <;> rfl

@[simp] theorem putK_tid (a) (c) : (g.putK a c).tid = g.tid := by unfold Group.putK; split <;> rfl
@[simp] theorem putK_ix (a) (c) : (g.putK a c).ix = g.ix := by unfold Group.putK; split <;> rfl
@[simp] theorem putK_stage (a) (c) : (g.putK a c).stage = g.stage := by unfold Group.putK; split <;> rfl
@[simp] theorem putK_die (a) (c) : (g.putK a c).die = g.die := by unfold Group.putK; split <;> rfl
@[simp] theorem putK_core (a) (c) : (g.putK a c).core = g.core := by unfold Group.putK; split <;> rfl
@[simp] theorem putK_quarter (a) (c) : (g.putK a c).quarter = g.quarter := by unfold Group.putK; split <;> rfl
@[simp] theorem putK_slot (a) (c) : (g.putK a c).slot = g.slot := by unfold Group.putK; split <;> rfl
@[simp] theorem putK_saved (a) (c) : (g.putK a c).saved = g.saved := by unfold Group.putK; split <;> rfl
@[simp] theorem putK_w (a) (c) : (g.putK a c).w = g.w := by unfold Group.putK; split <;> rfl
@[simp] theorem putK_v (a) (c) : (g.putK a c).v = g.v := by unfold Group.putK; split <;> rfl
@[simp] theorem putK_vst (a) (c) : (g.putK a c).vst = g.vst := by unfold Group.putK; split <;> rfl
@[simp] theorem putK_s (a) (c) : (g.putK a c).s = g.s := by unfold Group.putK; split <;> rfl
@[simp] theorem putK_sst (a) (c) : (g.putK a c).sst = g.sst := by unfold Group.putK; split <;> rfl
@[simp] theorem putK_p (a) (c) : (g.putK a c).p = g.p := by unfold Group.putK; split <;> rfl
@[simp] theorem putK_t (a) (c) : (g.putK a c).t = g.t := by unfold Group.putK; split <;> rfl
@[simp] theorem putK_tst (a) (c) : (g.putK a c).tst = g.tst := by unfold Group.putK; split <;> rfl
@[simp] theorem putK_oq (a) (c) : (g.putK a c).oq = g.oq := by unfold Group.putK; split <;> rfl
@[simp] theorem putK_fpFlags (a) (c) : (g.putK a c).fpFlags = g.fpFlags := by unfold Group.putK; split <;> rfl
@[simp] theorem putK_fpEnable (a) (c) : (g.putK a c).fpEnable = g.fpEnable := by unfold Group.putK; split <;> rfl
@[simp] theorem putK_mxFlags (a) (c) : (g.putK a c).mxFlags = g.mxFlags := by unfold Group.putK; split <;> rfl
@[simp] theorem putK_rspb (a) (c) : (g.putK a c).rspb = g.rspb := by unfold Group.putK; split <;> rfl
@[simp] theorem putK_tag (a) (c) : (g.putK a c).tag = g.tag := by unfold Group.putK; split <;> rfl
@[simp] theorem putK_table (a) (c) : (g.putK a c).table = g.table := by unfold Group.putK; split <;> rfl
@[simp] theorem putK_stack (a) (c) : (g.putK a c).stack = g.stack := by unfold Group.putK; split <;> rfl
@[simp] theorem putK_ages (a) (c) : (g.putK a c).ages = g.ages := by unfold Group.putK; split <;> rfl
@[simp] theorem putK_apc (a) (c) : (g.putK a c).apc = g.apc := by unfold Group.putK; split <;> rfl
@[simp] theorem putK_aHalted (a) (c) : (g.putK a c).aHalted = g.aHalted := by unfold Group.putK; split <;> rfl
@[simp] theorem putK_aStopped (a) (c) : (g.putK a c).aStopped = g.aStopped := by unfold Group.putK; split <;> rfl
@[simp] theorem putK_aTrap (a) (c) : (g.putK a c).aTrap = g.aTrap := by unfold Group.putK; split <;> rfl
@[simp] theorem putK_aSet (a) (c) : (g.putK a c).aSet = g.aSet := by unfold Group.putK; split <;> rfl
@[simp] theorem putK_aNext (a) (c) : (g.putK a c).aNext = g.aNext := by unfold Group.putK; split <;> rfl
@[simp] theorem putK_aLoad (a) (c) : (g.putK a c).aLoad = g.aLoad := by unfold Group.putK; split <;> rfl
@[simp] theorem putK_aBar (a) (c) : (g.putK a c).aBar = g.aBar := by unfold Group.putK; split <;> rfl
@[simp] theorem putK_age (a) (c) : (g.putK a c).age = g.age := by unfold Group.putK; split <;> rfl
@[simp] theorem putK_ops (a) (c) : (g.putK a c).ops = g.ops := by unfold Group.putK; split <;> rfl
@[simp] theorem putK_accs (a) (c) : (g.putK a c).accs = g.accs := by unfold Group.putK; split <;> rfl
@[simp] theorem putK_xblock (a) (c) : (g.putK a c).xblock = g.xblock := by unfold Group.putK; split <;> rfl
@[simp] theorem putK_hangCnt (a) (c) : (g.putK a c).hangCnt = g.hangCnt := by unfold Group.putK; split <;> rfl
@[simp] theorem putK_hangSet (a) (c) : (g.putK a c).hangSet = g.hangSet := by unfold Group.putK; split <;> rfl
@[simp] theorem putK_gstop (a) (c) : (g.putK a c).gstop = g.gstop := by unfold Group.putK; split <;> rfl
@[simp] theorem putK_stopReq (a) (c) : (g.putK a c).stopReq = g.stopReq := by unfold Group.putK; split <;> rfl
@[simp] theorem putK_killed (a) (c) : (g.putK a c).killed = g.killed := by unfold Group.putK; split <;> rfl
@[simp] theorem putK_handled (a) (c) : (g.putK a c).handled = g.handled := by unfold Group.putK; split <;> rfl
@[simp] theorem putK_left (a) (c) : (g.putK a c).left = g.left := by unfold Group.putK; split <;> rfl
@[simp] theorem putK_detached (a) (c) : (g.putK a c).detached = g.detached := by unfold Group.putK; split <;> rfl
@[simp] theorem putK_retired (a) (c) : (g.putK a c).retired = g.retired := by unfold Group.putK; split <;> rfl
@[simp] theorem putK_born (a) (c) : (g.putK a c).born = g.born := by unfold Group.putK; split <;> rfl
@[simp] theorem putK_waited (a) (c) : (g.putK a c).waited = g.waited := by unfold Group.putK; split <;> rfl
@[simp] theorem putK_aWaited (a) (c) : (g.putK a c).aWaited = g.aWaited := by unfold Group.putK; split <;> rfl

@[simp] theorem orFlags_tid (a) (c) : (g.orFlags a c).tid = g.tid := rfl
@[simp] theorem orFlags_ix (a) (c) : (g.orFlags a c).ix = g.ix := rfl
@[simp] theorem orFlags_stage (a) (c) : (g.orFlags a c).stage = g.stage := rfl
@[simp] theorem orFlags_die (a) (c) : (g.orFlags a c).die = g.die := rfl
@[simp] theorem orFlags_core (a) (c) : (g.orFlags a c).core = g.core := rfl
@[simp] theorem orFlags_quarter (a) (c) : (g.orFlags a c).quarter = g.quarter := rfl
@[simp] theorem orFlags_slot (a) (c) : (g.orFlags a c).slot = g.slot := rfl
@[simp] theorem orFlags_saved (a) (c) : (g.orFlags a c).saved = g.saved := rfl
@[simp] theorem orFlags_w (a) (c) : (g.orFlags a c).w = g.w := rfl
@[simp] theorem orFlags_v (a) (c) : (g.orFlags a c).v = g.v := rfl
@[simp] theorem orFlags_vst (a) (c) : (g.orFlags a c).vst = g.vst := rfl
@[simp] theorem orFlags_s (a) (c) : (g.orFlags a c).s = g.s := rfl
@[simp] theorem orFlags_sst (a) (c) : (g.orFlags a c).sst = g.sst := rfl
@[simp] theorem orFlags_p (a) (c) : (g.orFlags a c).p = g.p := rfl
@[simp] theorem orFlags_k (a) (c) : (g.orFlags a c).k = g.k := rfl
@[simp] theorem orFlags_t (a) (c) : (g.orFlags a c).t = g.t := rfl
@[simp] theorem orFlags_tst (a) (c) : (g.orFlags a c).tst = g.tst := rfl
@[simp] theorem orFlags_oq (a) (c) : (g.orFlags a c).oq = g.oq := rfl
@[simp] theorem orFlags_fpEnable (a) (c) : (g.orFlags a c).fpEnable = g.fpEnable := rfl
@[simp] theorem orFlags_mxFlags (a) (c) : (g.orFlags a c).mxFlags = g.mxFlags := rfl
@[simp] theorem orFlags_rspb (a) (c) : (g.orFlags a c).rspb = g.rspb := rfl
@[simp] theorem orFlags_tag (a) (c) : (g.orFlags a c).tag = g.tag := rfl
@[simp] theorem orFlags_table (a) (c) : (g.orFlags a c).table = g.table := rfl
@[simp] theorem orFlags_stack (a) (c) : (g.orFlags a c).stack = g.stack := rfl
@[simp] theorem orFlags_ages (a) (c) : (g.orFlags a c).ages = g.ages := rfl
@[simp] theorem orFlags_apc (a) (c) : (g.orFlags a c).apc = g.apc := rfl
@[simp] theorem orFlags_aHalted (a) (c) : (g.orFlags a c).aHalted = g.aHalted := rfl
@[simp] theorem orFlags_aStopped (a) (c) : (g.orFlags a c).aStopped = g.aStopped := rfl
@[simp] theorem orFlags_aTrap (a) (c) : (g.orFlags a c).aTrap = g.aTrap := rfl
@[simp] theorem orFlags_aSet (a) (c) : (g.orFlags a c).aSet = g.aSet := rfl
@[simp] theorem orFlags_aNext (a) (c) : (g.orFlags a c).aNext = g.aNext := rfl
@[simp] theorem orFlags_aLoad (a) (c) : (g.orFlags a c).aLoad = g.aLoad := rfl
@[simp] theorem orFlags_aBar (a) (c) : (g.orFlags a c).aBar = g.aBar := rfl
@[simp] theorem orFlags_age (a) (c) : (g.orFlags a c).age = g.age := rfl
@[simp] theorem orFlags_ops (a) (c) : (g.orFlags a c).ops = g.ops := rfl
@[simp] theorem orFlags_accs (a) (c) : (g.orFlags a c).accs = g.accs := rfl
@[simp] theorem orFlags_xblock (a) (c) : (g.orFlags a c).xblock = g.xblock := rfl
@[simp] theorem orFlags_hangCnt (a) (c) : (g.orFlags a c).hangCnt = g.hangCnt := rfl
@[simp] theorem orFlags_hangSet (a) (c) : (g.orFlags a c).hangSet = g.hangSet := rfl
@[simp] theorem orFlags_gstop (a) (c) : (g.orFlags a c).gstop = g.gstop := rfl
@[simp] theorem orFlags_stopReq (a) (c) : (g.orFlags a c).stopReq = g.stopReq := rfl
@[simp] theorem orFlags_killed (a) (c) : (g.orFlags a c).killed = g.killed := rfl
@[simp] theorem orFlags_handled (a) (c) : (g.orFlags a c).handled = g.handled := rfl
@[simp] theorem orFlags_left (a) (c) : (g.orFlags a c).left = g.left := rfl
@[simp] theorem orFlags_detached (a) (c) : (g.orFlags a c).detached = g.detached := rfl
@[simp] theorem orFlags_retired (a) (c) : (g.orFlags a c).retired = g.retired := rfl
@[simp] theorem orFlags_born (a) (c) : (g.orFlags a c).born = g.born := rfl
@[simp] theorem orFlags_waited (a) (c) : (g.orFlags a c).waited = g.waited := rfl
@[simp] theorem orFlags_aWaited (a) (c) : (g.orFlags a c).aWaited = g.aWaited := rfl

@[simp] theorem updEntry_tid (a) (f) : (g.updEntry a f).tid = g.tid := rfl
@[simp] theorem updEntry_ix (a) (f) : (g.updEntry a f).ix = g.ix := rfl
@[simp] theorem updEntry_stage (a) (f) : (g.updEntry a f).stage = g.stage := rfl
@[simp] theorem updEntry_die (a) (f) : (g.updEntry a f).die = g.die := rfl
@[simp] theorem updEntry_core (a) (f) : (g.updEntry a f).core = g.core := rfl
@[simp] theorem updEntry_quarter (a) (f) : (g.updEntry a f).quarter = g.quarter := rfl
@[simp] theorem updEntry_slot (a) (f) : (g.updEntry a f).slot = g.slot := rfl
@[simp] theorem updEntry_saved (a) (f) : (g.updEntry a f).saved = g.saved := rfl
@[simp] theorem updEntry_w (a) (f) : (g.updEntry a f).w = g.w := rfl
@[simp] theorem updEntry_v (a) (f) : (g.updEntry a f).v = g.v := rfl
@[simp] theorem updEntry_vst (a) (f) : (g.updEntry a f).vst = g.vst := rfl
@[simp] theorem updEntry_s (a) (f) : (g.updEntry a f).s = g.s := rfl
@[simp] theorem updEntry_sst (a) (f) : (g.updEntry a f).sst = g.sst := rfl
@[simp] theorem updEntry_p (a) (f) : (g.updEntry a f).p = g.p := rfl
@[simp] theorem updEntry_k (a) (f) : (g.updEntry a f).k = g.k := rfl
@[simp] theorem updEntry_t (a) (f) : (g.updEntry a f).t = g.t := rfl
@[simp] theorem updEntry_tst (a) (f) : (g.updEntry a f).tst = g.tst := rfl
@[simp] theorem updEntry_oq (a) (f) : (g.updEntry a f).oq = g.oq := rfl
@[simp] theorem updEntry_fpFlags (a) (f) : (g.updEntry a f).fpFlags = g.fpFlags := rfl
@[simp] theorem updEntry_fpEnable (a) (f) : (g.updEntry a f).fpEnable = g.fpEnable := rfl
@[simp] theorem updEntry_mxFlags (a) (f) : (g.updEntry a f).mxFlags = g.mxFlags := rfl
@[simp] theorem updEntry_rspb (a) (f) : (g.updEntry a f).rspb = g.rspb := rfl
@[simp] theorem updEntry_tag (a) (f) : (g.updEntry a f).tag = g.tag := rfl
@[simp] theorem updEntry_stack (a) (f) : (g.updEntry a f).stack = g.stack := rfl
@[simp] theorem updEntry_ages (a) (f) : (g.updEntry a f).ages = g.ages := rfl
@[simp] theorem updEntry_apc (a) (f) : (g.updEntry a f).apc = g.apc := rfl
@[simp] theorem updEntry_aHalted (a) (f) : (g.updEntry a f).aHalted = g.aHalted := rfl
@[simp] theorem updEntry_aStopped (a) (f) : (g.updEntry a f).aStopped = g.aStopped := rfl
@[simp] theorem updEntry_aTrap (a) (f) : (g.updEntry a f).aTrap = g.aTrap := rfl
@[simp] theorem updEntry_aSet (a) (f) : (g.updEntry a f).aSet = g.aSet := rfl
@[simp] theorem updEntry_aNext (a) (f) : (g.updEntry a f).aNext = g.aNext := rfl
@[simp] theorem updEntry_aLoad (a) (f) : (g.updEntry a f).aLoad = g.aLoad := rfl
@[simp] theorem updEntry_aBar (a) (f) : (g.updEntry a f).aBar = g.aBar := rfl
@[simp] theorem updEntry_age (a) (f) : (g.updEntry a f).age = g.age := rfl
@[simp] theorem updEntry_ops (a) (f) : (g.updEntry a f).ops = g.ops := rfl
@[simp] theorem updEntry_accs (a) (f) : (g.updEntry a f).accs = g.accs := rfl
@[simp] theorem updEntry_xblock (a) (f) : (g.updEntry a f).xblock = g.xblock := rfl
@[simp] theorem updEntry_hangCnt (a) (f) : (g.updEntry a f).hangCnt = g.hangCnt := rfl
@[simp] theorem updEntry_hangSet (a) (f) : (g.updEntry a f).hangSet = g.hangSet := rfl
@[simp] theorem updEntry_gstop (a) (f) : (g.updEntry a f).gstop = g.gstop := rfl
@[simp] theorem updEntry_stopReq (a) (f) : (g.updEntry a f).stopReq = g.stopReq := rfl
@[simp] theorem updEntry_killed (a) (f) : (g.updEntry a f).killed = g.killed := rfl
@[simp] theorem updEntry_handled (a) (f) : (g.updEntry a f).handled = g.handled := rfl
@[simp] theorem updEntry_left (a) (f) : (g.updEntry a f).left = g.left := rfl
@[simp] theorem updEntry_detached (a) (f) : (g.updEntry a f).detached = g.detached := rfl
@[simp] theorem updEntry_retired (a) (f) : (g.updEntry a f).retired = g.retired := rfl
@[simp] theorem updEntry_born (a) (f) : (g.updEntry a f).born = g.born := rfl
@[simp] theorem updEntry_waited (a) (f) : (g.updEntry a f).waited = g.waited := rfl
@[simp] theorem updEntry_aWaited (a) (f) : (g.updEntry a f).aWaited = g.aWaited := rfl

@[simp] theorem issueOp_tid (a) (b) (c d) (m) : (g.issueOp a b c d m).tid = g.tid := rfl
@[simp] theorem issueOp_ix (a) (b) (c d) (m) : (g.issueOp a b c d m).ix = g.ix := rfl
@[simp] theorem issueOp_stage (a) (b) (c d) (m) : (g.issueOp a b c d m).stage = g.stage := rfl
@[simp] theorem issueOp_die (a) (b) (c d) (m) : (g.issueOp a b c d m).die = g.die := rfl
@[simp] theorem issueOp_core (a) (b) (c d) (m) : (g.issueOp a b c d m).core = g.core := rfl
@[simp] theorem issueOp_quarter (a) (b) (c d) (m) : (g.issueOp a b c d m).quarter = g.quarter := rfl
@[simp] theorem issueOp_slot (a) (b) (c d) (m) : (g.issueOp a b c d m).slot = g.slot := rfl
@[simp] theorem issueOp_saved (a) (b) (c d) (m) : (g.issueOp a b c d m).saved = g.saved := rfl
@[simp] theorem issueOp_w (a) (b) (c d) (m) : (g.issueOp a b c d m).w = g.w := rfl
@[simp] theorem issueOp_v (a) (b) (c d) (m) : (g.issueOp a b c d m).v = g.v := rfl
@[simp] theorem issueOp_vst (a) (b) (c d) (m) : (g.issueOp a b c d m).vst = g.vst := rfl
@[simp] theorem issueOp_s (a) (b) (c d) (m) : (g.issueOp a b c d m).s = g.s := rfl
@[simp] theorem issueOp_sst (a) (b) (c d) (m) : (g.issueOp a b c d m).sst = g.sst := rfl
@[simp] theorem issueOp_p (a) (b) (c d) (m) : (g.issueOp a b c d m).p = g.p := rfl
@[simp] theorem issueOp_k (a) (b) (c d) (m) : (g.issueOp a b c d m).k = g.k := rfl
@[simp] theorem issueOp_t (a) (b) (c d) (m) : (g.issueOp a b c d m).t = g.t := rfl
@[simp] theorem issueOp_tst (a) (b) (c d) (m) : (g.issueOp a b c d m).tst = g.tst := rfl
@[simp] theorem issueOp_oq (a) (b) (c d) (m) : (g.issueOp a b c d m).oq = g.oq := rfl
@[simp] theorem issueOp_fpFlags (a) (b) (c d) (m) : (g.issueOp a b c d m).fpFlags = g.fpFlags := rfl
@[simp] theorem issueOp_fpEnable (a) (b) (c d) (m) : (g.issueOp a b c d m).fpEnable = g.fpEnable := rfl
@[simp] theorem issueOp_mxFlags (a) (b) (c d) (m) : (g.issueOp a b c d m).mxFlags = g.mxFlags := rfl
@[simp] theorem issueOp_rspb (a) (b) (c d) (m) : (g.issueOp a b c d m).rspb = g.rspb := rfl
@[simp] theorem issueOp_tag (a) (b) (c d) (m) : (g.issueOp a b c d m).tag = g.tag := rfl
@[simp] theorem issueOp_table (a) (b) (c d) (m) : (g.issueOp a b c d m).table = g.table := rfl
@[simp] theorem issueOp_stack (a) (b) (c d) (m) : (g.issueOp a b c d m).stack = g.stack := rfl
@[simp] theorem issueOp_ages (a) (b) (c d) (m) : (g.issueOp a b c d m).ages = g.ages := rfl
@[simp] theorem issueOp_apc (a) (b) (c d) (m) : (g.issueOp a b c d m).apc = g.apc := rfl
@[simp] theorem issueOp_aHalted (a) (b) (c d) (m) : (g.issueOp a b c d m).aHalted = g.aHalted := rfl
@[simp] theorem issueOp_aStopped (a) (b) (c d) (m) : (g.issueOp a b c d m).aStopped = g.aStopped := rfl
@[simp] theorem issueOp_aTrap (a) (b) (c d) (m) : (g.issueOp a b c d m).aTrap = g.aTrap := rfl
@[simp] theorem issueOp_aSet (a) (b) (c d) (m) : (g.issueOp a b c d m).aSet = g.aSet := rfl
@[simp] theorem issueOp_aNext (a) (b) (c d) (m) : (g.issueOp a b c d m).aNext = g.aNext := rfl
@[simp] theorem issueOp_aLoad (a) (b) (c d) (m) : (g.issueOp a b c d m).aLoad = g.aLoad := rfl
@[simp] theorem issueOp_aBar (a) (b) (c d) (m) : (g.issueOp a b c d m).aBar = g.aBar := rfl
@[simp] theorem issueOp_age (a) (b) (c d) (m) : (g.issueOp a b c d m).age = g.age := rfl
@[simp] theorem issueOp_accs (a) (b) (c d) (m) : (g.issueOp a b c d m).accs = g.accs := rfl
@[simp] theorem issueOp_xblock (a) (b) (c d) (m) : (g.issueOp a b c d m).xblock = g.xblock := rfl
@[simp] theorem issueOp_hangCnt (a) (b) (c d) (m) : (g.issueOp a b c d m).hangCnt = g.hangCnt := rfl
@[simp] theorem issueOp_hangSet (a) (b) (c d) (m) : (g.issueOp a b c d m).hangSet = g.hangSet := rfl
@[simp] theorem issueOp_gstop (a) (b) (c d) (m) : (g.issueOp a b c d m).gstop = g.gstop := rfl
@[simp] theorem issueOp_stopReq (a) (b) (c d) (m) : (g.issueOp a b c d m).stopReq = g.stopReq := rfl
@[simp] theorem issueOp_killed (a) (b) (c d) (m) : (g.issueOp a b c d m).killed = g.killed := rfl
@[simp] theorem issueOp_handled (a) (b) (c d) (m) : (g.issueOp a b c d m).handled = g.handled := rfl
@[simp] theorem issueOp_left (a) (b) (c d) (m) : (g.issueOp a b c d m).left = g.left := rfl
@[simp] theorem issueOp_detached (a) (b) (c d) (m) : (g.issueOp a b c d m).detached = g.detached := rfl
@[simp] theorem issueOp_retired (a) (b) (c d) (m) : (g.issueOp a b c d m).retired = g.retired := rfl
@[simp] theorem issueOp_born (a) (b) (c d) (m) : (g.issueOp a b c d m).born = g.born := rfl
@[simp] theorem issueOp_waited (a) (b) (c d) (m) : (g.issueOp a b c d m).waited = g.waited := rfl
@[simp] theorem issueOp_aWaited (a) (b) (c d) (m) : (g.issueOp a b c d m).aWaited = g.aWaited := rfl

@[simp] theorem finOp_tid (a) : (g.finOp a).tid = g.tid := rfl
@[simp] theorem finOp_ix (a) : (g.finOp a).ix = g.ix := rfl
@[simp] theorem finOp_stage (a) : (g.finOp a).stage = g.stage := rfl
@[simp] theorem finOp_die (a) : (g.finOp a).die = g.die := rfl
@[simp] theorem finOp_core (a) : (g.finOp a).core = g.core := rfl
@[simp] theorem finOp_quarter (a) : (g.finOp a).quarter = g.quarter := rfl
@[simp] theorem finOp_slot (a) : (g.finOp a).slot = g.slot := rfl
@[simp] theorem finOp_saved (a) : (g.finOp a).saved = g.saved := rfl
@[simp] theorem finOp_w (a) : (g.finOp a).w = g.w := rfl
@[simp] theorem finOp_v (a) : (g.finOp a).v = g.v := rfl
@[simp] theorem finOp_vst (a) : (g.finOp a).vst = g.vst := rfl
@[simp] theorem finOp_s (a) : (g.finOp a).s = g.s := rfl
@[simp] theorem finOp_sst (a) : (g.finOp a).sst = g.sst := rfl
@[simp] theorem finOp_p (a) : (g.finOp a).p = g.p := rfl
@[simp] theorem finOp_k (a) : (g.finOp a).k = g.k := rfl
@[simp] theorem finOp_t (a) : (g.finOp a).t = g.t := rfl
@[simp] theorem finOp_tst (a) : (g.finOp a).tst = g.tst := rfl
@[simp] theorem finOp_oq (a) : (g.finOp a).oq = g.oq := rfl
@[simp] theorem finOp_fpFlags (a) : (g.finOp a).fpFlags = g.fpFlags := rfl
@[simp] theorem finOp_fpEnable (a) : (g.finOp a).fpEnable = g.fpEnable := rfl
@[simp] theorem finOp_mxFlags (a) : (g.finOp a).mxFlags = g.mxFlags := rfl
@[simp] theorem finOp_rspb (a) : (g.finOp a).rspb = g.rspb := rfl
@[simp] theorem finOp_tag (a) : (g.finOp a).tag = g.tag := rfl
@[simp] theorem finOp_table (a) : (g.finOp a).table = g.table := rfl
@[simp] theorem finOp_stack (a) : (g.finOp a).stack = g.stack := rfl
@[simp] theorem finOp_ages (a) : (g.finOp a).ages = g.ages := rfl
@[simp] theorem finOp_apc (a) : (g.finOp a).apc = g.apc := rfl
@[simp] theorem finOp_aHalted (a) : (g.finOp a).aHalted = g.aHalted := rfl
@[simp] theorem finOp_aStopped (a) : (g.finOp a).aStopped = g.aStopped := rfl
@[simp] theorem finOp_aTrap (a) : (g.finOp a).aTrap = g.aTrap := rfl
@[simp] theorem finOp_aSet (a) : (g.finOp a).aSet = g.aSet := rfl
@[simp] theorem finOp_aNext (a) : (g.finOp a).aNext = g.aNext := rfl
@[simp] theorem finOp_aLoad (a) : (g.finOp a).aLoad = g.aLoad := rfl
@[simp] theorem finOp_aBar (a) : (g.finOp a).aBar = g.aBar := rfl
@[simp] theorem finOp_age (a) : (g.finOp a).age = g.age := rfl
@[simp] theorem finOp_accs (a) : (g.finOp a).accs = g.accs := rfl
@[simp] theorem finOp_xblock (a) : (g.finOp a).xblock = g.xblock := rfl
@[simp] theorem finOp_hangCnt (a) : (g.finOp a).hangCnt = g.hangCnt := rfl
@[simp] theorem finOp_hangSet (a) : (g.finOp a).hangSet = g.hangSet := rfl
@[simp] theorem finOp_gstop (a) : (g.finOp a).gstop = g.gstop := rfl
@[simp] theorem finOp_stopReq (a) : (g.finOp a).stopReq = g.stopReq := rfl
@[simp] theorem finOp_killed (a) : (g.finOp a).killed = g.killed := rfl
@[simp] theorem finOp_handled (a) : (g.finOp a).handled = g.handled := rfl
@[simp] theorem finOp_left (a) : (g.finOp a).left = g.left := rfl
@[simp] theorem finOp_detached (a) : (g.finOp a).detached = g.detached := rfl
@[simp] theorem finOp_retired (a) : (g.finOp a).retired = g.retired := rfl
@[simp] theorem finOp_born (a) : (g.finOp a).born = g.born := rfl
@[simp] theorem finOp_waited (a) : (g.finOp a).waited = g.waited := rfl
@[simp] theorem finOp_aWaited (a) : (g.finOp a).aWaited = g.aWaited := rfl

end Sys2Proof.Machine
end

