-- ==== Sys2Proof/Laws/Registers.lean ====
section
/-!
SUPPORT. Reading registers back after the shared writes of lane instructions, and what those writes leave alone.
-/
namespace Sys2Proof.Machine

theorem mem_maskLanes {m : LaneMask} {l : Nat} : l ∈ maskLanes m ↔ l < 64 ∧ inMask m l = true := by
  simp [maskLanes, lanes64]

theorem maskLanes_nil {m : LaneMask} : maskLanes m = [] ↔ m = 0 := by
  constructor
  · intro h
    apply BitVec.eq_of_getLsbD_eq
    intro i hi
    have : i ∉ maskLanes m := by simp [h]
    simp only [mem_maskLanes, hi, true_and, Bool.not_eq_true] at this
    simpa [inMask] using this
  · rintro rfl
    simp [maskLanes, lanes64, inMask]

theorem laneBit_getLsbD {l i : Nat} (hi : i < 64) : (laneBit l).getLsbD i = decide (i = l) := by
  simp only [laneBit, BitVec.getLsbD_shiftLeft, BitVec.getLsbD_one, hi, decide_true, Bool.true_and]
  by_cases h : i = l
  · subst h; simp
  · simp only [h, decide_false, Bool.and_eq_false_iff, Bool.not_eq_false', decide_eq_true_eq, decide_eq_false_iff_not]
    omega

theorem maskOf_fold (f : Nat → Bool) (ls : List Nat) (m : LaneMask) {i : Nat} (hi : i < 64) :
    (ls.foldl (fun m l => if f l then m ||| laneBit l else m) m).getLsbD i = (m.getLsbD i || (decide (i ∈ ls) && f i)) := by
  induction ls generalizing m with
  | nil => simp
  | cons a t ih =>
    rw [List.foldl_cons, ih]
    by_cases h : i = a
    · subst h; cases hf : f i <;> simp [hf, laneBit_getLsbD hi]
    · cases hf : f a <;> simp [laneBit_getLsbD hi, h]

theorem maskOf_getLsbD (f : Nat → Bool) {i : Nat} (hi : i < 64) : (maskOf f).getLsbD i = f i := by
  rw [maskOf, maskOf_fold f _ _ hi]; simp [lanes64, hi]

theorem inMask_maskOf (f : Nat → Bool) {i : Nat} (hi : i < 64) : inMask (maskOf f) i = f i := maskOf_getLsbD f hi

/-! ### Folds over lanes -/

/-- A fold keeps whatever each step keeps. -/
theorem foldl_keeps {α β γ : Type} (h : α → γ) (f : α → β → α) (hf : ∀ a b, h (f a b) = h a) (l : List β) (a : α) :
    h (l.foldl f a) = h a := by
  induction l generalizing a with
  | nil => rfl
  | cons b t ih => rw [List.foldl_cons, ih, hf]

theorem overLanes_keeps {γ : Type} (h : Group → γ) (m : LaneMask) (f : Group → Nat → Group) (hf : ∀ g l, h (f g l) = h g)
    (g : Group) : h (g.overLanes m f) = h g := foldl_keeps h f hf _ g

theorem writeDst_keeps {γ : Type} (h : Group → γ) (hv : ∀ g k l x, h (Group.putV g k l x) = h g)
    (ht : ∀ g k l x, h (Group.putT g k l x) = h g) (g : Group) (wb : Nat) (o : Operand) (m : LaneMask) (f : Nat → Word32) :
    h (g.writeDst wb o m f) = h g := by
  unfold Group.writeDst
  split
  · exact overLanes_keeps h m _ (fun g l => hv g _ l _) g
  · exact overLanes_keeps h m _ (fun g l => ht g _ l _) g
  · rfl

theorem raise_keeps {γ : Type} (h : Group → γ) (hf : ∀ g l x, h (Group.orFlags g l x) = h g) (g : Group) (m : LaneMask)
    (fl : Nat → BitVec 5) : h (g.raise m fl) = h g := by
  refine overLanes_keeps h m _ (fun g l => ?_) g
  split
  · rfl
  · exact hf g l _

/-! ### Vector and temporary registers -/

theorem getV_putV (g : Group) {k l k' l' : Nat} (x : Word32) (hl : l < 64) (hl' : l' < 64) :
    (g.putV k l x).getV k' l' = if k' = k ∧ l' = l then x else g.getV k' l' := by
  simp only [Group.getV, Group.putV, rd_wr]
  congr 1
  apply propext; omega

theorem vState_putV (g : Group) {k l k' l' : Nat} (x : Word32) (hl : l < 64) (hl' : l' < 64) :
    (g.putV k l x).vState k' l' = if k' = k ∧ l' = l then .full else g.vState k' l' := by
  simp only [Group.vState, Group.putV, rd]
  by_cases h : k' = k ∧ l' = l
  · obtain ⟨rfl, rfl⟩ := h; simp
  · rw [look_del_ne _ (by omega), if_neg h]

theorem vState_setVState (g : Group) {k l k' l' : Nat} (x : Fullness) (hl : l < 64) (hl' : l' < 64) :
    (g.setVState k l x).vState k' l' = if k' = k ∧ l' = l then x else g.vState k' l' := by
  simp only [Group.vState, Group.setVState, rd_wr]
  congr 1
  apply propext; omega

theorem getT_putT (g : Group) {k l k' l' : Nat} (x : Word32) (hl : l < 64) (hl' : l' < 64) :
    (g.putT k l x).getT k' l' = if k' = k ∧ l' = l then x else g.getT k' l' := by
  simp only [Group.getT, Group.putT, rd_wr]
  congr 1
  apply propext; omega

theorem tState_putT (g : Group) {k l k' l' : Nat} (x : Word32) (hl : l < 64) (hl' : l' < 64) :
    (g.putT k l x).tState k' l' = if k' = k ∧ l' = l then .full else g.tState k' l' := by
  simp only [Group.tState, Group.putT, rd_wr]
  congr 1
  apply propext; omega

/-- Writes of one V register over lanes, read back. -/
theorem foldl_putV (wb n : Nat) (f : Nat → Word32) (k : Nat) {l : Nat} (hl : l < 64) (ls : List Nat) (hls : ∀ j ∈ ls, j < 64)
    (g : Group) :
    let g' := ls.foldl (fun g j => g.putV (g.slotOf wb n) j (f j)) g
    g'.getV k l = (if k = g.slotOf wb n ∧ l ∈ ls then f l else g.getV k l) ∧
    g'.vState k l = (if k = g.slotOf wb n ∧ l ∈ ls then .full else g.vState k l) := by
  induction ls generalizing g with
  | nil => simp
  | cons j t ih =>
    have hj := hls j List.mem_cons_self
    have := ih (fun i hi => hls i (List.mem_cons_of_mem _ hi)) (g.putV (g.slotOf wb n) j (f j))
    dsimp only at this ⊢
    rw [List.foldl_cons, this.1, this.2, getV_putV _ _ hj hl, vState_putV _ _ hj hl]
    rw [show (g.putV (g.slotOf wb n) j (f j)).slotOf wb n = g.slotOf wb n from rfl]
    by_cases h1 : k = g.slotOf wb n <;> by_cases h2 : l = j <;> by_cases h3 : l ∈ t <;> simp [h1, h2, h3]

/-- Writes of one T register over lanes, read back. -/
theorem foldl_putT (n : Nat) (f : Nat → Word32) (k : Nat) {l : Nat} (hl : l < 64) (ls : List Nat) (hls : ∀ j ∈ ls, j < 64)
    (g : Group) :
    let g' := ls.foldl (fun g j => g.putT n j (f j)) g
    g'.getT k l = (if k = n ∧ l ∈ ls then f l else g.getT k l) ∧
    g'.tState k l = (if k = n ∧ l ∈ ls then .full else g.tState k l) := by
  induction ls generalizing g with
  | nil => simp
  | cons j t ih =>
    have hj := hls j List.mem_cons_self
    have := ih (fun i hi => hls i (List.mem_cons_of_mem _ hi)) (g.putT n j (f j))
    dsimp only at this ⊢
    rw [List.foldl_cons, this.1, this.2, getT_putT _ _ hj hl, tState_putT _ _ hj hl]
    by_cases h1 : k = n <;> by_cases h2 : l = j <;> by_cases h3 : l ∈ t <;> simp [h1, h2, h3]

theorem maskLanes_lt {m : LaneMask} : ∀ j ∈ maskLanes m, j < 64 := fun _ h => (mem_maskLanes.1 h).1

/-- A result written to V, T or ZERO, read back (04 R123). -/
theorem writeDst_read (g : Group) (wb : Nat) (o : Operand) (m : LaneMask) (f : Nat → Word32) (k : Nat) {l : Nat} (hl : l < 64) :
    (g.writeDst wb o m f).getV k l = (if g.destOf wb o = .v k ∧ inMask m l then f l else g.getV k l) ∧
    (g.writeDst wb o m f).vState k l = (if g.destOf wb o = .v k ∧ inMask m l then .full else g.vState k l) ∧
    (g.writeDst wb o m f).getT k l = (if g.destOf wb o = .t k ∧ inMask m l then f l else g.getT k l) ∧
    (g.writeDst wb o m f).tState k l = (if g.destOf wb o = .t k ∧ inMask m l then .full else g.tState k l) := by
  cases o with
  | v n =>
    have h := foldl_putV wb n.toNat f k hl (maskLanes m) maskLanes_lt g
    have ht : ∀ {γ : Type} (p : Group → γ), (∀ g k l x, p (Group.putV g k l x) = p g) →
        p (g.writeDst wb (.v n) m f) = p g := fun p hp => overLanes_keeps p m _ (fun g l => hp g _ l _) g
    refine ⟨?_, ?_, ?_, ?_⟩
    · exact h.1.trans (by simp only [Group.destOf, mem_maskLanes, hl, true_and, Dest.v.injEq, Dest.t.injEq, eq_comm (a := k)])
    · exact h.2.trans (by simp only [Group.destOf, mem_maskLanes, hl, true_and, Dest.v.injEq, Dest.t.injEq, eq_comm (a := k)])
    · simpa [Group.destOf] using ht (fun g => g.getT k l) (fun _ _ _ _ => rfl)
    · simpa [Group.destOf] using ht (fun g => g.tState k l) (fun _ _ _ _ => rfl)
  | t n =>
    have h := foldl_putT n.toNat f k hl (maskLanes m) maskLanes_lt g
    have ht : ∀ {γ : Type} (p : Group → γ), (∀ g k l x, p (Group.putT g k l x) = p g) →
        p (g.writeDst wb (.t n) m f) = p g := fun p hp => overLanes_keeps p m _ (fun g l => hp g _ l _) g
    refine ⟨?_, ?_, ?_, ?_⟩
    · simpa [Group.destOf] using ht (fun g => g.getV k l) (fun _ _ _ _ => rfl)
    · simpa [Group.destOf] using ht (fun g => g.vState k l) (fun _ _ _ _ => rfl)
    · exact h.1.trans (by simp only [Group.destOf, mem_maskLanes, hl, true_and, Dest.v.injEq, Dest.t.injEq, eq_comm (a := k)])
    · exact h.2.trans (by simp only [Group.destOf, mem_maskLanes, hl, true_and, Dest.v.injEq, Dest.t.injEq, eq_comm (a := k)])
  | _ => simp [Group.writeDst, Group.destOf]

/-- Flags raised over lanes, read back (03 R93). -/
theorem foldl_orFlags (fl : Nat → BitVec 5) {l : Nat} (ls : List Nat) (hn : ls.Nodup) (g : Group) :
    (ls.foldl (fun g j => if fl j = 0 then g else g.orFlags j (fl j)) g).fpFlagsOf l =
      if l ∈ ls then g.fpFlagsOf l ||| fl l else g.fpFlagsOf l := by
  induction ls generalizing g with
  | nil => simp
  | cons j t ih =>
    rw [List.foldl_cons, ih (List.nodup_cons.1 hn).2]
    have hj := (List.nodup_cons.1 hn).1
    have step : (if fl j = 0 then g else g.orFlags j (fl j)).fpFlagsOf l = if l = j then g.fpFlagsOf l ||| fl l else g.fpFlagsOf l := by
      by_cases h0 : fl j = 0
      · by_cases h : l = j
        · subst h; simp [h0]
        · simp [h0, h]
      · by_cases h : l = j
        · subst h; rw [if_neg h0, if_pos rfl]; simp [Group.orFlags, Group.fpFlagsOf]
        · rw [if_neg h0, if_neg h]; simp [h, Group.orFlags, Group.fpFlagsOf, rd_wr]
    rw [step]
    by_cases h : l = j
    · subst h; simp [hj]
    · simp [h]

theorem nodup_maskLanes (m : LaneMask) : (maskLanes m).Nodup := (List.nodup_range).filter _

theorem fpFlagsOf_raise (g : Group) (m : LaneMask) (fl : Nat → BitVec 5) {l : Nat} (hl : l < 64) :
    (g.raise m fl).fpFlagsOf l = if inMask m l then g.fpFlagsOf l ||| fl l else g.fpFlagsOf l := by
  rw [Group.raise, Group.overLanes, foldl_orFlags fl _ (nodup_maskLanes m)]
  simp [mem_maskLanes, hl]

/-- Raising nothing changes nothing. -/
@[simp] theorem raise_none (g : Group) (m : LaneMask) : g.raise m (fun _ => 0) = g := by
  have : ∀ ls : List Nat, ls.foldl (fun (g : Group) (_ : Nat) => g) g = g := fun ls => by induction ls <;> simp_all
  simp [Group.raise, Group.overLanes, this]

end Sys2Proof.Machine
end

