-- ==== Sys2Proof/Laws/Issue.lean ====
section
/-!
SUPPORT. What the shared issue of lane words can do: `State.issueAlu` and the operations over it, each outcome said once.
-/
namespace Sys2Proof.Machine

variable {s t : State} {x : Issue} {gp : BitVec 3} {neg : Bool} {imm : BitVec 32} {srcs : LaneMask → Src × Src × Src}
  {f : Issue → LaneMask → (Nat → Word32) → (Nat → Word32) → (Nat → Word32) → Result} {a b c : Nat → Word32} {g : Group}

theorem fpTrap_zero (g : Group) (m : LaneMask) : g.fpTrap m (fun _ => 0) = (0, 0) := by
  have h : ∀ ls : List Nat, ls.foldl (fun (r : LaneMask × BitVec 5) l =>
      let t := (0 : BitVec 5) &&& g.fpEnableOf l; if t = 0 then r else (r.1 ||| laneBit l, r.2 ||| t)) (0, 0) = (0, 0) := by
    intro ls
    induction ls with
    | nil => rfl
    | cons j t ih => simp
  exact h _

theorem noTrap_zero (g : Group) (m : LaneMask) : noTrap g m (fun _ => 0) := by rw [noTrap, fpTrap_zero]

/-- The issue of a word none of whose conditions is enabled and whose destination waits for no fill. -/
theorem issueAlu_next (hi : s.issuer = some x) (hf : x.commitWait = false) (hl : x.active gp neg ≠ 0)
    (hs : s.fetch x imm (srcs (x.active gp neg)).1 (srcs (x.active gp neg)).2.1 (srcs (x.active gp neg)).2.2 = .ok a b c g none)
    (ht : noTrap g (x.active gp neg) (f x (x.active gp neg) a b c).fl)
    (hw : (f x (x.active gp neg) a b c).waits g = false) :
    s.issueAlu gp neg imm srcs f = .next (x.done s
      (((f x (x.active gp neg) a b c).write g).raise (x.active gp neg) (f x (x.active gp neg) a b c).fl)) := by
  unfold noTrap at ht
  simp only [State.issueAlu, hi, hf, hs, ht, hw, if_neg hl]
  simp

theorem issueAlu_inactive (hi : s.issuer = some x) (hf : x.commitWait = false) (hl : x.active gp neg = 0) :
    s.issueAlu gp neg imm srcs f = .next (x.done s x.g) := by
  simp [State.issueAlu, hi, hf, hl]

theorem issueAlu_hold (hi : s.issuer = some x) (hf : x.commitWait = false) (hl : x.active gp neg ≠ 0)
    (hs : s.fetch x imm (srcs (x.active gp neg)).1 (srcs (x.active gp neg)).2.1 (srcs (x.active gp neg)).2.2 = .hold) :
    s.issueAlu gp neg imm srcs f = .next s := by
  simp only [State.issueAlu, hi, hf, hs, if_neg hl]
  simp

theorem issueAlu_empty {m : LaneMask} (hi : s.issuer = some x) (hf : x.commitWait = false) (hl : x.active gp neg ≠ 0)
    (hs : s.fetch x imm (srcs (x.active gp neg)).1 (srcs (x.active gp neg)).2.1 (srcs (x.active gp neg)).2.2 = .trap m) :
    s.issueAlu gp neg imm srcs f = .next (s.trapPrecise x.gid x.e (x.trapRec .emptyRead 0 m)) := by
  simp only [State.issueAlu, hi, hf, hs, if_neg hl]
  simp

/-- An enabled condition before the commit point (03 R93). -/
theorem issueAlu_fp (hi : s.issuer = some x) (hf : x.commitWait = false) (hl : x.active gp neg ≠ 0)
    (hs : s.fetch x imm (srcs (x.active gp neg)).1 (srcs (x.active gp neg)).2.1 (srcs (x.active gp neg)).2.2 = .ok a b c g none)
    (ht : (g.fpTrap (x.active gp neg) (f x (x.active gp neg) a b c).fl).1 ≠ 0) (hc : x.en.afterCommit = false) :
    s.issueAlu gp neg imm srcs f = .next (s.trapPrecise x.gid x.e { x.trapRec .fp 0
      (g.fpTrap (x.active gp neg) (f x (x.active gp neg) a b c).fl).1 with
      flags := (g.fpTrap (x.active gp neg) (f x (x.active gp neg) a b c).fl).2 }) := by
  simp only [State.issueAlu, hi, hf, hs, if_neg hl, hc]
  rw [if_neg (by simp), if_pos ⟨ht, rfl⟩]

/-- An enabled condition after the commit point: the word completes and the trap is noted. -/
theorem issueAlu_fpPost (hi : s.issuer = some x) (hf : x.commitWait = false) (hl : x.active gp neg ≠ 0)
    (hs : s.fetch x imm (srcs (x.active gp neg)).1 (srcs (x.active gp neg)).2.1 (srcs (x.active gp neg)).2.2 = .ok a b c g none)
    (ht : (g.fpTrap (x.active gp neg) (f x (x.active gp neg) a b c).fl).1 ≠ 0) (hc : x.en.afterCommit = true)
    (hw : (f x (x.active gp neg) a b c).waits g = false) :
    s.issueAlu gp neg imm srcs f = .next (x.done s
      ((((f x (x.active gp neg) a b c).write g).raise (x.active gp neg) (f x (x.active gp neg) a b c).fl).notePost x.e
        ⟨.fp, x.en.pos, (g.fpTrap (x.active gp neg) (f x (x.active gp neg) a b c).fl).1,
          (g.fpTrap (x.active gp neg) (f x (x.active gp neg) a b c).fl).2⟩)) := by
  simp only [State.issueAlu, hi, hf, hs, if_neg hl, hc, hw, if_pos ht]
  simp

/-- Everything that an issue can lead to. -/
theorem issueAlu_cases (h : s.issueAlu gp neg imm srcs f = .next t) :
    t = s ∨ ∃ x, s.issuer = some x ∧
      (t = x.done s x.g ∨ (∃ r, t = s.trapPrecise x.gid x.e r) ∨
       ∃ a b c g post, s.fetch x imm (srcs (x.active gp neg)).1 (srcs (x.active gp neg)).2.1 (srcs (x.active gp neg)).2.2 =
          .ok a b c g post ∧
        ∃ ps : List PostTrap, t = x.done s (ps.foldl (fun g p => g.notePost x.e p)
          (((f x (x.active gp neg) a b c).write g).raise (x.active gp neg) (f x (x.active gp neg) a b c).fl))) := by
  unfold State.issueAlu at h
  split at h
  · cases h
  · next x hx =>
    dsimp only at h
    split at h
    · cases h; exact .inl rfl
    · split at h
      · cases h; exact .inr ⟨x, hx, .inl rfl⟩
      · split at h
        · cases h; exact .inl rfl
        · cases h; exact .inr ⟨x, hx, .inr (.inl ⟨_, rfl⟩)⟩
        · next va vb vc g' post hf =>
          split at h
          · cases h; exact .inr ⟨x, hx, .inr (.inl ⟨_, rfl⟩)⟩
          · split at h
            · cases h; exact .inl rfl
            · cases h
              refine .inr ⟨x, hx, .inr (.inr ⟨va, vb, vc, g', post, hf, ?_⟩)⟩
              cases post with
              | none => split
                        · exact ⟨[_], rfl⟩
                        · exact ⟨[], rfl⟩
              | some e => split
                          · exact ⟨[_, _], rfl⟩
                          · exact ⟨[_], rfl⟩

variable {w : Lane}

/-- A word that computes each lane from its own sources. -/
theorem laneOp_next (h : LaneReady w s x a b c g) (hp : g.pendingIn (x.dst w) (x.on w) = false)
    (op : Word32 → Word32 → Word32 → FRes) (ht : noTrap g (x.on w) (fun l => (op (a l) (b l) (c l)).fl)) :
    s.laneOp w op = .next (x.wrote s w g (fun l => op (a l) (b l) (c l))) :=
  issueAlu_next h.issuer h.free h.lanes (srcs := laneSrcs w) h.fetched ht hp

theorem laneInt_next (h : LaneReady w s x a b c g) (hp : g.pendingIn (x.dst w) (x.on w) = false)
    (op : Word32 → Word32 → Word32 → Word32) :
    s.laneInt w op = .next (x.wrote s w g (fun l => ⟨op (a l) (b l) (c l), 0⟩)) :=
  laneOp_next h hp _ (noTrap_zero _ _)

/-- The fetch of a word that reads no lane operand: nothing pops. -/
theorem fetch_noSrcs (s : State) (x : Issue) (imm : BitVec 32) (m : LaneMask) :
    s.fetch x imm (noSrcs m).1 (noSrcs m).2.1 (noSrcs m).2.2 = .ok (fun _ => 0) (fun _ => 0) (fun _ => 0) x.g none := rfl

theorem bare_next (h : BareReady gp neg s x)
    (ht : noTrap x.g (x.active gp neg) (f x (x.active gp neg) (fun _ => 0) (fun _ => 0) (fun _ => 0)).fl)
    (hw : (f x (x.active gp neg) (fun _ => 0) (fun _ => 0) (fun _ => 0)).waits x.g = false) :
    s.issueAlu gp neg imm noSrcs f = .next (x.done s
      (((f x (x.active gp neg) (fun _ => 0) (fun _ => 0) (fun _ => 0)).write x.g).raise (x.active gp neg)
        (f x (x.active gp neg) (fun _ => 0) (fun _ => 0) (fun _ => 0)).fl)) :=
  issueAlu_next h.issuer h.free h.lanes (fetch_noSrcs s x imm _) ht hw

/-! ### Which words issue so -/

theorem add_form (w : Lane) (s : State) : ∃ f, exec (.add w) s = s.issueAlu w.gp w.neg w.imm (laneSrcs w) f := by
  show ∃ f, execAdd w s = _
  unfold execAdd State.laneInt State.laneOp; exact ⟨_, rfl⟩
theorem sub_form (w : Lane) (s : State) : ∃ f, exec (.sub w) s = s.issueAlu w.gp w.neg w.imm (laneSrcs w) f := by
  show ∃ f, execSub w s = _
  unfold execSub State.laneInt State.laneOp; exact ⟨_, rfl⟩
theorem mul_form (w : Lane) (s : State) : ∃ f, exec (.mul w) s = s.issueAlu w.gp w.neg w.imm (laneSrcs w) f := by
  show ∃ f, execMul w s = _
  unfold execMul State.laneInt State.laneOp; exact ⟨_, rfl⟩
theorem mulhi_form (w : Lane) (s : State) : ∃ f, exec (.mulhi w) s = s.issueAlu w.gp w.neg w.imm (laneSrcs w) f := by
  show ∃ f, execMulhi w s = _
  unfold execMulhi State.laneInt State.laneOp; exact ⟨_, rfl⟩
theorem mad_form (w : Lane) (s : State) : ∃ f, exec (.mad w) s = s.issueAlu w.gp w.neg w.imm (laneSrcs w) f := by
  show ∃ f, execMad w s = _
  unfold execMad State.laneInt State.laneOp; exact ⟨_, rfl⟩
theorem div_form (w : Lane) (s : State) : ∃ f, exec (.div w) s = s.issueAlu w.gp w.neg w.imm (laneSrcs w) f := by
  show ∃ f, execDiv w s = _
  unfold execDiv State.laneInt State.laneOp; exact ⟨_, rfl⟩
theorem rem_form (w : Lane) (s : State) : ∃ f, exec (.rem w) s = s.issueAlu w.gp w.neg w.imm (laneSrcs w) f := by
  show ∃ f, execRem w s = _
  unfold execRem State.laneInt State.laneOp; exact ⟨_, rfl⟩
theorem abs_form (w : Lane) (s : State) : ∃ f, exec (.abs w) s = s.issueAlu w.gp w.neg w.imm (laneSrcs w) f := by
  show ∃ f, execAbs w s = _
  unfold execAbs State.laneInt State.laneOp; exact ⟨_, rfl⟩
theorem neg_form (w : Lane) (s : State) : ∃ f, exec (.neg w) s = s.issueAlu w.gp w.neg w.imm (laneSrcs w) f := by
  show ∃ f, execNeg w s = _
  unfold execNeg State.laneInt State.laneOp; exact ⟨_, rfl⟩
theorem min_form (w : Lane) (s : State) : ∃ f, exec (.min w) s = s.issueAlu w.gp w.neg w.imm (laneSrcs w) f := by
  show ∃ f, execMin w s = _
  unfold execMin State.laneInt State.laneOp; exact ⟨_, rfl⟩
theorem max_form (w : Lane) (s : State) : ∃ f, exec (.max w) s = s.issueAlu w.gp w.neg w.imm (laneSrcs w) f := by
  show ∃ f, execMax w s = _
  unfold execMax State.laneInt State.laneOp; exact ⟨_, rfl⟩
theorem clamp_form (w : Lane) (s : State) : ∃ f, exec (.clamp w) s = s.issueAlu w.gp w.neg w.imm (laneSrcs w) f := by
  show ∃ f, execClamp w s = _
  unfold execClamp State.laneInt State.laneOp; exact ⟨_, rfl⟩
theorem and_form (w : Lane) (s : State) : ∃ f, exec (.and w) s = s.issueAlu w.gp w.neg w.imm (laneSrcs w) f := by
  show ∃ f, execAnd w s = _
  unfold execAnd State.laneInt State.laneOp; exact ⟨_, rfl⟩
theorem or_form (w : Lane) (s : State) : ∃ f, exec (.or w) s = s.issueAlu w.gp w.neg w.imm (laneSrcs w) f := by
  show ∃ f, execOr w s = _
  unfold execOr State.laneInt State.laneOp; exact ⟨_, rfl⟩
theorem xor_form (w : Lane) (s : State) : ∃ f, exec (.xor w) s = s.issueAlu w.gp w.neg w.imm (laneSrcs w) f := by
  show ∃ f, execXor w s = _
  unfold execXor State.laneInt State.laneOp; exact ⟨_, rfl⟩
theorem not_form (w : Lane) (s : State) : ∃ f, exec (.not w) s = s.issueAlu w.gp w.neg w.imm (laneSrcs w) f := by
  show ∃ f, execNot w s = _
  unfold execNot State.laneInt State.laneOp; exact ⟨_, rfl⟩
theorem andn_form (w : Lane) (s : State) : ∃ f, exec (.andn w) s = s.issueAlu w.gp w.neg w.imm (laneSrcs w) f := by
  show ∃ f, execAndn w s = _
  unfold execAndn State.laneInt State.laneOp; exact ⟨_, rfl⟩
theorem shl_form (w : Lane) (s : State) : ∃ f, exec (.shl w) s = s.issueAlu w.gp w.neg w.imm (laneSrcs w) f := by
  show ∃ f, execShl w s = _
  unfold execShl State.laneInt State.laneOp; exact ⟨_, rfl⟩
theorem shr_form (w : Lane) (s : State) : ∃ f, exec (.shr w) s = s.issueAlu w.gp w.neg w.imm (laneSrcs w) f := by
  show ∃ f, execShr w s = _
  unfold execShr State.laneInt State.laneOp; exact ⟨_, rfl⟩
theorem rot_form (w : Lane) (s : State) : ∃ f, exec (.rot w) s = s.issueAlu w.gp w.neg w.imm (laneSrcs w) f := by
  show ∃ f, execRot w s = _
  unfold execRot State.laneInt State.laneOp; exact ⟨_, rfl⟩
theorem popc_form (w : Lane) (s : State) : ∃ f, exec (.popc w) s = s.issueAlu w.gp w.neg w.imm (laneSrcs w) f := by
  show ∃ f, execPopc w s = _
  unfold execPopc State.laneInt State.laneOp; exact ⟨_, rfl⟩
theorem clz_form (w : Lane) (s : State) : ∃ f, exec (.clz w) s = s.issueAlu w.gp w.neg w.imm (laneSrcs w) f := by
  show ∃ f, execClz w s = _
  unfold execClz State.laneInt State.laneOp; exact ⟨_, rfl⟩
theorem ctz_form (w : Lane) (s : State) : ∃ f, exec (.ctz w) s = s.issueAlu w.gp w.neg w.imm (laneSrcs w) f := by
  show ∃ f, execCtz w s = _
  unfold execCtz State.laneInt State.laneOp; exact ⟨_, rfl⟩
theorem brev_form (w : Lane) (s : State) : ∃ f, exec (.brev w) s = s.issueAlu w.gp w.neg w.imm (laneSrcs w) f := by
  show ∃ f, execBrev w s = _
  unfold execBrev State.laneInt State.laneOp; exact ⟨_, rfl⟩
theorem bfx_form (w : Lane) (s : State) : ∃ f, exec (.bfx w) s = s.issueAlu w.gp w.neg w.imm (laneSrcs w) f := by
  show ∃ f, execBfx w s = _
  unfold execBfx State.laneInt State.laneOp; exact ⟨_, rfl⟩
theorem bfi_form (w : Lane) (s : State) : ∃ f, exec (.bfi w) s = s.issueAlu w.gp w.neg w.imm (laneSrcs w) f := by
  show ∃ f, execBfi w s = _
  unfold execBfi State.laneInt State.laneOp; exact ⟨_, rfl⟩
theorem bperm_form (w : Lane) (s : State) : ∃ f, exec (.bperm w) s = s.issueAlu w.gp w.neg w.imm (laneSrcs w) f := by
  show ∃ f, execBperm w s = _
  unfold execBperm State.laneInt State.laneOp; exact ⟨_, rfl⟩
theorem addFloat_form (w : Lane) (s : State) : ∃ f, exec (.addFloat w) s = s.issueAlu w.gp w.neg w.imm (laneSrcs w) f := by
  show ∃ f, execAddFloat w s = _
  unfold execAddFloat State.laneFloat State.laneOp; exact ⟨_, rfl⟩
theorem subFloat_form (w : Lane) (s : State) : ∃ f, exec (.subFloat w) s = s.issueAlu w.gp w.neg w.imm (laneSrcs w) f := by
  show ∃ f, execSubFloat w s = _
  unfold execSubFloat State.laneFloat State.laneOp; exact ⟨_, rfl⟩
theorem mulFloat_form (w : Lane) (s : State) : ∃ f, exec (.mulFloat w) s = s.issueAlu w.gp w.neg w.imm (laneSrcs w) f := by
  show ∃ f, execMulFloat w s = _
  unfold execMulFloat State.laneFloat State.laneOp; exact ⟨_, rfl⟩
theorem fma_form (w : Lane) (s : State) : ∃ f, exec (.fma w) s = s.issueAlu w.gp w.neg w.imm (laneSrcs w) f := by
  show ∃ f, execFma w s = _
  unfold execFma State.laneFloat State.laneOp; exact ⟨_, rfl⟩
theorem divFloat_form (w : Lane) (s : State) : ∃ f, exec (.divFloat w) s = s.issueAlu w.gp w.neg w.imm (laneSrcs w) f := by
  show ∃ f, execDivFloat w s = _
  unfold execDivFloat State.laneFloat State.laneOp; exact ⟨_, rfl⟩
theorem sqrt_form (w : Lane) (s : State) : ∃ f, exec (.sqrt w) s = s.issueAlu w.gp w.neg w.imm (laneSrcs w) f := by
  show ∃ f, execSqrt w s = _
  unfold execSqrt State.laneFloat State.laneOp; exact ⟨_, rfl⟩
theorem rsqrt_form (w : Lane) (s : State) : ∃ f, exec (.rsqrt w) s = s.issueAlu w.gp w.neg w.imm (laneSrcs w) f := by
  show ∃ f, execRsqrt w s = _
  unfold execRsqrt State.laneFloat State.laneOp; exact ⟨_, rfl⟩
theorem rcp_form (w : Lane) (s : State) : ∃ f, exec (.rcp w) s = s.issueAlu w.gp w.neg w.imm (laneSrcs w) f := by
  show ∃ f, execRcp w s = _
  unfold execRcp State.laneFloat State.laneOp; exact ⟨_, rfl⟩
theorem minFloat_form (w : Lane) (s : State) : ∃ f, exec (.minFloat w) s = s.issueAlu w.gp w.neg w.imm (laneSrcs w) f := by
  show ∃ f, execMinFloat w s = _
  unfold execMinFloat State.laneFloat State.laneOp; exact ⟨_, rfl⟩
theorem maxFloat_form (w : Lane) (s : State) : ∃ f, exec (.maxFloat w) s = s.issueAlu w.gp w.neg w.imm (laneSrcs w) f := by
  show ∃ f, execMaxFloat w s = _
  unfold execMaxFloat State.laneFloat State.laneOp; exact ⟨_, rfl⟩
theorem absFloat_form (w : Lane) (s : State) : ∃ f, exec (.absFloat w) s = s.issueAlu w.gp w.neg w.imm (laneSrcs w) f := by
  show ∃ f, execAbsFloat w s = _
  unfold execAbsFloat State.laneFloat State.laneOp; exact ⟨_, rfl⟩
theorem negFloat_form (w : Lane) (s : State) : ∃ f, exec (.negFloat w) s = s.issueAlu w.gp w.neg w.imm (laneSrcs w) f := by
  show ∃ f, execNegFloat w s = _
  unfold execNegFloat State.laneFloat State.laneOp; exact ⟨_, rfl⟩
theorem classFloat_form (w : Lane) (s : State) : ∃ f, exec (.classFloat w) s = s.issueAlu w.gp w.neg w.imm (laneSrcs w) f := by
  show ∃ f, execClassFloat w s = _
  unfold execClassFloat State.laneFloat State.laneOp; exact ⟨_, rfl⟩
theorem rint_form (w : Lane) (s : State) : ∃ f, exec (.rint w) s = s.issueAlu w.gp w.neg w.imm (laneSrcs w) f := by
  show ∃ f, execRint w s = _
  unfold execRint State.laneFloat State.laneOp; exact ⟨_, rfl⟩
theorem copysign_form (w : Lane) (s : State) : ∃ f, exec (.copysign w) s = s.issueAlu w.gp w.neg w.imm (laneSrcs w) f := by
  show ∃ f, execCopysign w s = _
  unfold execCopysign State.laneFloat State.laneOp; exact ⟨_, rfl⟩
theorem exp2_form (w : Lane) (s : State) : ∃ f, exec (.exp2 w) s = s.issueAlu w.gp w.neg w.imm (laneSrcs w) f := by
  show ∃ f, execExp2 w s = _
  unfold execExp2 State.laneFloat State.laneOp; exact ⟨_, rfl⟩
theorem log2_form (w : Lane) (s : State) : ∃ f, exec (.log2 w) s = s.issueAlu w.gp w.neg w.imm (laneSrcs w) f := by
  show ∃ f, execLog2 w s = _
  unfold execLog2 State.laneFloat State.laneOp; exact ⟨_, rfl⟩
theorem sin_form (w : Lane) (s : State) : ∃ f, exec (.sin w) s = s.issueAlu w.gp w.neg w.imm (laneSrcs w) f := by
  show ∃ f, execSin w s = _
  unfold execSin State.laneFloat State.laneOp; exact ⟨_, rfl⟩
theorem cos_form (w : Lane) (s : State) : ∃ f, exec (.cos w) s = s.issueAlu w.gp w.neg w.imm (laneSrcs w) f := by
  show ∃ f, execCos w s = _
  unfold execCos State.laneFloat State.laneOp; exact ⟨_, rfl⟩
theorem tanh_form (w : Lane) (s : State) : ∃ f, exec (.tanh w) s = s.issueAlu w.gp w.neg w.imm (laneSrcs w) f := by
  show ∃ f, execTanh w s = _
  unfold execTanh State.laneFloat State.laneOp; exact ⟨_, rfl⟩
theorem sigmoid_form (w : Lane) (s : State) : ∃ f, exec (.sigmoid w) s = s.issueAlu w.gp w.neg w.imm (laneSrcs w) f := by
  show ∃ f, execSigmoid w s = _
  unfold execSigmoid State.laneFloat State.laneOp; exact ⟨_, rfl⟩
theorem gelu_form (w : Lane) (s : State) : ∃ f, exec (.gelu w) s = s.issueAlu w.gp w.neg w.imm (laneSrcs w) f := by
  show ∃ f, execGelu w s = _
  unfold execGelu State.laneFloat State.laneOp; exact ⟨_, rfl⟩
theorem clampFloat_form (w : Lane) (s : State) : ∃ f, exec (.clampFloat w) s = s.issueAlu w.gp w.neg w.imm (laneSrcs w) f := by
  show ∃ f, execClampFloat w s = _
  unfold execClampFloat State.laneFloat State.laneOp; exact ⟨_, rfl⟩
theorem dot2_form (w : Lane) (s : State) : ∃ f, exec (.dot2 w) s = s.issueAlu w.gp w.neg w.imm (laneSrcs w) f := by
  show ∃ f, execDot2 w s = _
  unfold execDot2 State.laneOp; exact ⟨_, rfl⟩
theorem cvt_form (w : Lane) (s : State) : ∃ f, exec (.cvt w) s = s.issueAlu w.gp w.neg w.imm (laneSrcs w) f := by
  show ∃ f, execCvt w s = _
  unfold execCvt State.laneOp; exact ⟨_, rfl⟩
theorem mov_form (w : Lane) (s : State) : ∃ f, exec (.mov w) s = s.issueAlu w.gp w.neg w.imm (laneSrcs w) f := by
  show ∃ f, execMov w s = _
  unfold execMov State.laneInt State.laneOp; exact ⟨_, rfl⟩
theorem packB32_form (w : Lane) (s : State) : ∃ f, exec (.packB32 w) s = s.issueAlu w.gp w.neg w.imm (laneSrcs w) f := by
  show ∃ f, execPackB32 w s = _
  unfold execPackB32 State.laneInt State.laneOp; exact ⟨_, rfl⟩
theorem packFloat_form (w : Lane) (s : State) : ∃ f, exec (.packFloat w) s = s.issueAlu w.gp w.neg w.imm (laneSrcs w) f := by
  show ∃ f, execPackFloat w s = _
  unfold execPackFloat State.laneOp; exact ⟨_, rfl⟩
theorem unpackB32_form (w : Lane) (s : State) : ∃ f, exec (.unpackB32 w) s = s.issueAlu w.gp w.neg w.imm (laneSrcs w) f := by
  show ∃ f, execUnpackB32 w s = _
  unfold execUnpackB32 State.laneInt State.laneOp; exact ⟨_, rfl⟩
theorem unpackFloat_form (w : Lane) (s : State) : ∃ f, exec (.unpackFloat w) s = s.issueAlu w.gp w.neg w.imm (laneSrcs w) f := by
  show ∃ f, execUnpackFloat w s = _
  unfold execUnpackFloat State.laneOp; exact ⟨_, rfl⟩
theorem cmp_form (w : Lane) (s : State) : ∃ f, exec (.cmp w) s = s.issueAlu w.gp w.neg w.imm (laneSrcs w) f := by
  show ∃ f, execCmp w s = _
  unfold execCmp; exact ⟨_, rfl⟩
theorem cmpFloat_form (w : Lane) (s : State) : ∃ f, exec (.cmpFloat w) s = s.issueAlu w.gp w.neg w.imm (laneSrcs w) f := by
  show ∃ f, execCmpFloat w s = _
  unfold execCmpFloat; exact ⟨_, rfl⟩
theorem pset_form (w : Lane) (s : State) : ∃ f, exec (.pset w) s = s.issueAlu w.gp w.neg w.imm (laneSrcs w) f := by
  show ∃ f, execPset w s = _
  unfold execPset; exact ⟨_, rfl⟩
theorem sel_form (w : Lane) (s : State) : ∃ f, exec (.sel w) s = s.issueAlu w.gp w.neg w.imm (laneSrcs w) f := by
  show ∃ f, execSel w s = _
  unfold execSel; exact ⟨_, rfl⟩
theorem stov_form (w : Lane) (s : State) : ∃ f, exec (.stov w) s = s.issueAlu w.gp w.neg w.imm (laneSrcs w) f := by
  show ∃ f, execStov w s = _
  unfold execStov; exact ⟨_, rfl⟩
theorem shfl_form (w : Lane) (s : State) : ∃ f, exec (.shfl w) s = s.issueAlu w.gp w.neg w.imm (laneSrcs w) f := by
  show ∃ f, execShfl w s = _
  unfold execShfl; exact ⟨_, rfl⟩
theorem vballotS_form (w : Lane) (s : State) : ∃ f, exec (.vballotS w) s = s.issueAlu w.gp w.neg w.imm (laneSrcs w) f := by
  show ∃ f, execVballotS w s = _
  unfold execVballotS; exact ⟨_, rfl⟩
theorem vballotV_form (w : Lane) (s : State) : ∃ f, exec (.vballotV w) s = s.issueAlu w.gp w.neg w.imm (laneSrcs w) f := by
  show ∃ f, execVballotV w s = _
  unfold execVballotV; exact ⟨_, rfl⟩
theorem vmatch_form (w : Lane) (s : State) : ∃ f, exec (.vmatch w) s = s.issueAlu w.gp w.neg w.imm (laneSrcs w) f := by
  show ∃ f, execVmatch w s = _
  unfold execVmatch; exact ⟨_, rfl⟩
theorem vreduce_form (w : Lane) (s : State) : ∃ f, exec (.vreduce w) s = s.issueAlu w.gp w.neg w.imm (laneSrcs w) f := by
  show ∃ f, execVreduce w s = _
  unfold execVreduce; exact ⟨_, rfl⟩
theorem vscan_form (w : Lane) (s : State) : ∃ f, exec (.vscan w) s = s.issueAlu w.gp w.neg w.imm (laneSrcs w) f := by
  show ∃ f, execVscan w s = _
  unfold execVscan; exact ⟨_, rfl⟩
theorem pand_form (w : Lane) (s : State) : ∃ srcs f, exec (.pand w) s = s.issueAlu w.gp w.neg w.imm srcs f := by
  show ∃ srcs f, execPand w s = _
  unfold execPand State.predOp; exact ⟨_, _, rfl⟩
theorem por_form (w : Lane) (s : State) : ∃ srcs f, exec (.por w) s = s.issueAlu w.gp w.neg w.imm srcs f := by
  show ∃ srcs f, execPor w s = _
  unfold execPor State.predOp; exact ⟨_, _, rfl⟩
theorem pxor_form (w : Lane) (s : State) : ∃ srcs f, exec (.pxor w) s = s.issueAlu w.gp w.neg w.imm srcs f := by
  show ∃ srcs f, execPxor w s = _
  unfold execPxor State.predOp; exact ⟨_, _, rfl⟩
theorem pnot_form (w : Lane) (s : State) : ∃ srcs f, exec (.pnot w) s = s.issueAlu w.gp w.neg w.imm srcs f := by
  show ∃ srcs f, execPnot w s = _
  unfold execPnot State.predOp; exact ⟨_, _, rfl⟩
theorem pget_form (w : Lane) (s : State) : ∃ srcs f, exec (.pget w) s = s.issueAlu w.gp w.neg w.imm srcs f := by
  show ∃ srcs f, execPget w s = _
  unfold execPget; exact ⟨_, _, rfl⟩
theorem vtosB32_form (w : Lane) (s : State) : ∃ srcs f, exec (.vtosB32 w) s = s.issueAlu w.gp w.neg w.imm srcs f := by
  show ∃ srcs f, execVtosB32 w s = _
  unfold execVtosB32 State.vtos; exact ⟨_, _, rfl⟩
theorem vtosN32_form (w : Lane) (s : State) : ∃ srcs f, exec (.vtosN32 w) s = s.issueAlu w.gp w.neg w.imm srcs f := by
  show ∃ srcs f, execVtosN32 w s = _
  unfold execVtosN32 State.vtos; exact ⟨_, _, rfl⟩
theorem vtosS32_form (w : Lane) (s : State) : ∃ srcs f, exec (.vtosS32 w) s = s.issueAlu w.gp w.neg w.imm srcs f := by
  show ∃ srcs f, execVtosS32 w s = _
  unfold execVtosS32 State.vtos; exact ⟨_, _, rfl⟩
theorem empty_form (w : Lane) (s : State) : ∃ srcs f, exec (.empty w) s = s.issueAlu w.gp w.neg w.imm srcs f := by
  show ∃ srcs f, execEmpty w s = _
  unfold execEmpty State.setBitsOf; exact ⟨_, _, rfl⟩
theorem fill_form (w : Lane) (s : State) : ∃ srcs f, exec (.fill w) s = s.issueAlu w.gp w.neg w.imm srcs f := by
  show ∃ srcs f, execFill w s = _
  unfold execFill State.setBitsOf; exact ⟨_, _, rfl⟩
theorem srd_form (w : Lane) (s : State) : ∃ srcs f, exec (.srd w) s = s.issueAlu w.gp w.neg w.imm srcs f := by
  show ∃ srcs f, execSrd w s = _
  unfold execSrd; exact ⟨_, _, rfl⟩

/-- Words whose three source fields are tested over the active lanes issue through `State.issueAlu`. -/
theorem sourceWords_form (w : Lane) (s : State) :
    ∀ i ∈ sourceWords w, ∃ f, exec i s = s.issueAlu w.gp w.neg w.imm (laneSrcs w) f := by
  simp only [sourceWords, intArithmetic, logicTable, countTable, fieldTable, floatTable, moveTable, List.map_cons, List.map_nil,
    List.cons_append, List.nil_append, List.forall_mem_cons, List.not_mem_nil, false_imp_iff, implies_true, and_true]
  exact ⟨add_form w s, sub_form w s, mul_form w s, mulhi_form w s, mad_form w s, div_form w s, rem_form w s, abs_form w s,
    neg_form w s, min_form w s, max_form w s, clamp_form w s, and_form w s, or_form w s, xor_form w s, not_form w s,
    andn_form w s, shl_form w s, shr_form w s, rot_form w s, popc_form w s, clz_form w s, ctz_form w s, brev_form w s,
    bfx_form w s, bfi_form w s, bperm_form w s, addFloat_form w s, subFloat_form w s, mulFloat_form w s, fma_form w s, divFloat_form w s,
    sqrt_form w s, rsqrt_form w s, rcp_form w s, minFloat_form w s, maxFloat_form w s, absFloat_form w s, negFloat_form w s, classFloat_form w s,
    rint_form w s, copysign_form w s, exp2_form w s, log2_form w s, sin_form w s, cos_form w s, tanh_form w s, sigmoid_form w s,
    gelu_form w s, clampFloat_form w s, dot2_form w s, cvt_form w s, mov_form w s, packB32_form w s, packFloat_form w s, unpackB32_form w s,
    unpackFloat_form w s, cmp_form w s, cmpFloat_form w s, pset_form w s, sel_form w s, stov_form w s, shfl_form w s, vballotS_form w s,
    vballotV_form w s, vmatch_form w s, vreduce_form w s, vscan_form w s⟩

/-- Every word of opcodes 0x00-0x8C, and SRD, issues through `State.issueAlu`. -/
theorem aluWords_form (w : Lane) (s : State) :
    ∀ i ∈ aluWords w, ∃ srcs f, exec i s = s.issueAlu w.gp w.neg w.imm srcs f := by
  intro i hi
  rw [aluWords, List.append_assoc, List.mem_append] at hi
  rcases hi with hi | hi
  · obtain ⟨f, h⟩ := sourceWords_form w s i hi
    exact ⟨_, f, h⟩
  · revert i
    simp only [predicateTable, List.map_cons, List.map_nil, List.cons_append, List.nil_append, List.forall_mem_cons,
      List.not_mem_nil, false_imp_iff, implies_true, and_true]
    exact ⟨pand_form w s, por_form w s, pxor_form w s, pnot_form w s, pget_form w s, vtosB32_form w s, vtosN32_form w s, vtosS32_form w s,
    empty_form w s, fill_form w s, srd_form w s⟩

end Sys2Proof.Machine
end

