-- ==== Sys2Proof/Laws/Translation.lean ====
section
/-!
SUPPORT. What translation answers when the translation caches hold only what the tables say: a walk is a function of the page, a cached
translation is the walk's, and a translation changes the caches alone. With it, what the front end reads.
-/
namespace Sys2Proof.Machine

/-- Every translation held for the context's root is the one that its tables give. -/
def State.TcOk (s : State) (c : Actx) : Prop :=
  ∀ (va : VAddr) (l : Leaf), (look s.tcache c.root).bind (fun m => look m (va.toNat / 4096 % 2 ^ 45)) = some l →
    s.walk c.part va 4 c.root = .ok l

theorem tcOk_nil {s : State} {c : Actx} (h : s.tcache = []) : s.TcOk c := by
  intro va l e
  rw [h] at e
  simp at e

/-- An entry is found by the page's bits. -/
theorem walkAt_page {s : State} {key : Nat} {va vb : VAddr} (h : va.toNat / 4096 % 2 ^ 45 = vb.toNat / 4096 % 2 ^ 45) {n t : Nat}
    (hn : n ≤ 4) {r : Leaf ⊕ Nat} (e : s.walkAt key va n t = .ok r) : s.walkAt key vb n t = .ok r := by
  have hx : va.toNat / 2 ^ (12 + 9 * n) % 512 = vb.toNat / 2 ^ (12 + 9 * n) % 512 := by
    interval_cases n <;> norm_num at h ⊢ <;> omega
  have k : s.walkAt key vb n t = (s.walkAt key va n t).mapError (fun f => { f with addr := vb }) := by
    unfold State.walkAt
    simp only [hx]
    simp only [apply_ite (Except.mapError _)]
    rfl
  rw [k, e]
  rfl

/-- A walk that succeeds answers the same for every address of the page. -/
theorem walk_page {s : State} {key : Nat} {va vb : VAddr} (h : va.toNat / 4096 % 2 ^ 45 = vb.toNat / 4096 % 2 ^ 45) {l : Leaf} :
    ∀ (n t : Nat), n ≤ 4 → s.walk key va n t = .ok l → s.walk key vb n t = .ok l := by
  intro n
  induction n with
  | zero =>
    intro t hn e
    unfold State.walk at e ⊢
    split at e
    · rename_i l' q
      rw [walkAt_page h hn q]
      exact e
    · cases e
    · cases e
  | succ n ih =>
    intro t hn e
    unfold State.walk at e ⊢
    split at e
    · rename_i l' q
      rw [walkAt_page h hn q]
      exact e
    · rename_i t' q
      rw [walkAt_page h hn q]
      exact ih t' (by omega) e
    · cases e

/-- Walks read memory, not the caches. -/
theorem walk_tcache (s : State) (x : AMap (AMap Leaf)) (key : Nat) (va : VAddr) (n t : Nat) :
    ({ s with tcache := x } : State).walk key va n t = s.walk key va n t := by
  induction n generalizing t with
  | zero => rfl
  | succ n ih =>
    unfold State.walk
    simp only [ih]
    rfl

theorem leaf_eq {s : State} {c : Actx} (h : s.TcOk c) (va : VAddr) : s.leaf c.root c.part va = s.walk c.part va 4 c.root := by
  unfold State.leaf
  simp only
  split
  · rename_i l e
    rw [h va l e]
    split <;> rfl
  · rfl

theorem tcOk_cacheLeaf {s : State} {c : Actx} (h : s.TcOk c) {va : VAddr} {l : Leaf} (w : s.walk c.part va 4 c.root = .ok l) :
    (s.cacheLeaf c.root va l).TcOk c := by
  intro vb l' e
  unfold State.cacheLeaf at e ⊢
  rw [walk_tcache]
  simp only at e
  split at e
  · rw [look_put_self] at e
    simp only [Option.bind_some] at e
    rw [look_put] at e
    split at e
    · rename_i hp
      cases e
      exact walk_page hp.symm 4 _ le_rfl w
    · rename_i hp
      refine h vb l' ?_
      cases hr : look s.tcache c.root with
      | none => rw [hr] at e; simp at e
      | some m => rw [hr] at e; simpa using e
  · exact h vb l' e

theorem pin_keeps {s s' : State} {c : Actx} {l : Leaf} {va : VAddr} {k : Nat} (h : s.pin c l va = .ok (s', k)) :
    s' = { s with pins := s'.pins } := by
  unfold State.pin at h
  simp only at h
  split at h
  · cases h; rfl
  · split at h
    · cases h
    · cases h; rfl

theorem pinLine_keeps {s s' : State} {pa : Nat} {va : VAddr} (h : s.pinLine pa va = .ok s') : s' = { s with slicePins := s'.slicePins } := by
  unfold State.pinLine at h
  simp only at h
  split at h
  · cases h; rfl
  · split at h
    · cases h
    · cases h; rfl

/-- All that a translation changes: the translation caches, and the pages and lines that are pinned. -/
theorem translate_keeps {s s' : State} {c : Actx} {need : Need} {sc : Bool} {va : VAddr} {t : Target}
    (h : s.translate c need sc va = .ok (s', t)) :
    s' = { s with tcache := s'.tcache, stcache := s'.stcache, pins := s'.pins, slicePins := s'.slicePins } := by
  unfold State.translate at h
  split at h
  · cases h
  split at h
  · split at h
    · cases h; rfl
    · cases h
  split at h
  · cases h
  split at h
  · cases h
  simp only at h
  split at h
  · cases h
  split at h
  · cases h
  split at h
  · cases h; split <;> rfl
  split at h
  · split at h
    · cases h
    · cases h; split <;> rfl
  split at h
  · cases h; split <;> rfl
  · split at h
    · cases h
    · rename_i q
      cases h
      have := pin_keeps q
      generalize s'.pins = x at this
      subst this
      split <;> rfl
  · split at h
    · cases h
    · rename_i q
      cases h
      have := pinLine_keeps q
      generalize s'.slicePins = x at this
      subst this
      split <;> rfl
  · cases h; split <;> rfl

theorem feRead_keeps {s s' : State} {c : Actx} {va : VAddr} {n : Nat} {bs : List Byte} (h : s.feRead c va n = .ok s' bs) :
    s' = { s with tcache := s'.tcache, stcache := s'.stcache, pins := s'.pins, slicePins := s'.slicePins } := by
  unfold State.feRead at h
  split at h
  · cases h
  · rename_i q
    split at h
    · cases h
    · split at h
      · cases h; exact translate_keeps q
      · cases h

/-- The leaf of an address by the tables alone, and where it then stands: HBM in device bias, on a plain page. -/
def State.leafOr (s : State) (c : Actx) (va : VAddr) : Leaf :=
  match s.walk c.part va 4 c.root with
  | .ok l => l
  | .error _ => default
def State.spotOf (s : State) (c : Actx) (va : VAddr) : Place :=
  .cached (((s.leafOr c va).pfn + va.toNat % (s.leafOr c va).size) % 2 ^ 47)
def State.targetOf (s : State) (c : Actx) (va : VAddr) : Target :=
  let l := s.leafOr c va
  ⟨s.spotOf c va, l.key, l.efmt, l.gap, l.tid, l.home, l.kv⟩

/-- What makes a translation of such an address succeed, and an access there, in terms of the tables alone. -/
def State.goodFor (s : State) (c : Actx) (need : Need) (va : VAddr) : Bool :=
  canonical va && decide (va.toNat < scratchBase) && (match s.walk c.part va 4 c.root with
    | .ok _ => true
    | .error _ => false) &&
  (let l := s.leafOr c va
   let pa := l.pfn + va.toNat % l.size
   (permit (s.keyPermitted c) need l va).isNone && l.efmt == 0 && l.home == 0 && !(inHole (pa % 2 ^ 47)) &&
     decide (pa / 2 ^ 47 % 512 = Config.chip.toNat) && decide (pa % 2 ^ 47 < hostBase) && !(s.placeHeld (s.spotOf c va)) &&
     decide (s.statusOf (s.spotOf c va) l.key = .ok))

theorem leafOr_of {s : State} {c : Actx} {need : Need} {va : VAddr} (g : s.goodFor c need va = true) :
    s.walk c.part va 4 c.root = .ok (s.leafOr c va) := by
  unfold State.goodFor at g
  simp only [Bool.and_eq_true] at g
  obtain ⟨⟨-, g⟩, -⟩ := g
  unfold State.leafOr
  split at g
  · rename_i l w
    rw [w]
  · cases g

/-- A translation: its target, and a change of the translation cache alone. -/
theorem translate_good {s : State} {c : Actx} (h : s.TcOk c) {need : Need} {va : VAddr} (g : s.goodFor c need va = true) :
    ∃ x, s.translate c need false va = .ok ({ s with tcache := x }, s.targetOf c va) ∧ ({ s with tcache := x } : State).TcOk c ∧
      s.placeHeld (s.targetOf c va).place = false ∧ s.statusOf (s.targetOf c va).place (s.targetOf c va).key = .ok := by
  have w := leafOr_of g
  unfold State.goodFor at g
  simp only [Bool.and_eq_true, decide_eq_true_eq, Option.isNone_iff_eq_none, beq_iff_eq, Bool.not_eq_true'] at g
  obtain ⟨⟨⟨g1, g2⟩, -⟩, ⟨⟨⟨⟨⟨⟨⟨p1, p2⟩, p3⟩, p4⟩, p5⟩, p6⟩, p7⟩, p8⟩⟩ := g
  refine ⟨(s.cacheLeaf c.root va (s.leafOr c va)).tcache, ?_, tcOk_cacheLeaf h w, p7, p8⟩
  unfold State.translate
  rw [leaf_eq h, w]
  simp only [g1, p1, p3, p4, p5, Bool.not_true, Bool.false_eq_true, if_false, Bool.false_and, Bool.true_eq_false, ne_eq,
    not_true_eq_false]
  rw [if_neg (by omega), if_neg (by omega)]
  unfold State.targetOf State.spotOf
  simp only [p2, p3]
  rfl

theorem leafOr_tcache (s : State) (x : AMap (AMap Leaf)) (c : Actx) (va : VAddr) :
    ({ s with tcache := x } : State).leafOr c va = s.leafOr c va := by
  unfold State.leafOr
  rw [walk_tcache]
theorem goodFor_tcache (s : State) (x : AMap (AMap Leaf)) (c : Actx) (need : Need) (va : VAddr) :
    ({ s with tcache := x } : State).goodFor c need va = s.goodFor c need va := by
  unfold State.goodFor State.spotOf
  rw [walk_tcache, leafOr_tcache]
  rfl
theorem targetOf_tcache (s : State) (x : AMap (AMap Leaf)) (c : Actx) (va : VAddr) :
    ({ s with tcache := x } : State).targetOf c va = s.targetOf c va := by
  unfold State.targetOf State.spotOf
  rw [leafOr_tcache]

/-- The bytes that the front end reads there. -/
def State.feBytes (s : State) (c : Actx) (va : VAddr) (n : Nat) : List Byte :=
  (List.range n).map (s.placeByte c (.strong .system) (s.spotOf c va) (s.leafOr c va).key)
def State.feGood (s : State) (c : Actx) (va : VAddr) : Bool := s.goodFor c .read va

theorem feRead_good {s : State} {c : Actx} (h : s.TcOk c) {va : VAddr} (g : s.feGood c va = true) (n : Nat) :
    ∃ x, s.feRead c va n = .ok { s with tcache := x } (s.feBytes c va n) ∧ ({ s with tcache := x } : State).TcOk c := by
  obtain ⟨x, e, t, p, q⟩ := translate_good h g
  refine ⟨x, ?_, t⟩
  unfold State.feRead
  rw [e]
  simp only
  have q1 : ({ s with tcache := x } : State).placeHeld (s.targetOf c va).place = false := p
  have q2 : ({ s with tcache := x } : State).statusOf (s.targetOf c va).place (s.targetOf c va).key = .ok := q
  rw [q1, q2]
  rfl

/-- A front-end write there is stored, behind a change of the translation cache alone. -/
theorem feWrite_good {s : State} {c : Actx} (h : s.TcOk c) {va : VAddr} (g : s.goodFor c .write va = true) (bs : List Byte) :
    ∃ x, s.feWrite c va bs = .ok (({ s with tcache := x } : State).storeFrom c (.strong .system) (s.spotOf c va) (s.leafOr c va).key 0 bs) () := by
  obtain ⟨x, e, -, p, q⟩ := translate_good h g
  refine ⟨x, ?_⟩
  unfold State.feWrite
  rw [e]
  simp only
  have q1 : ({ s with tcache := x } : State).placeHeld (s.targetOf c va).place = false := p
  have q2 : ({ s with tcache := x } : State).statusOf (s.targetOf c va).place (s.targetOf c va).key = .ok := q
  unfold State.targetOf State.spotOf at q1 q2 ⊢
  simp only at q1 q2 ⊢
  rw [q1, q2]
  rfl

/-- Which address k pieces of 8 bytes from va begin at. -/
def pieces (va : VAddr) (k : Nat) : List VAddr := (List.range k).map (fun i => va + BitVec.ofNat 64 (8 * i))

theorem feBytes_tcache (s : State) (x : AMap (AMap Leaf)) (c : Actx) (va : VAddr) (n : Nat) :
    ({ s with tcache := x } : State).feBytes c va n = s.feBytes c va n := by
  unfold State.feBytes State.spotOf
  rw [leafOr_tcache]
  rfl

theorem feGood_tcache (s : State) (x : AMap (AMap Leaf)) (c : Actx) (va : VAddr) :
    ({ s with tcache := x } : State).feGood c va = s.feGood c va := goodFor_tcache s x c .read va

/-- Consecutive front-end reads: the bytes that the tables give, and a change of the caches alone. -/
theorem feReads_good {c : Actx} (k : Nat) : ∀ {s : State} {va : VAddr}, s.TcOk c → (pieces va k).all (s.feGood c) = true →
    ∃ x, s.feReads c k va = .ok { s with tcache := x } ((pieces va k).flatMap (fun a => s.feBytes c a 8)) ∧
      ({ s with tcache := x } : State).TcOk c := by
  induction k with
  | zero => intro s va h _; exact ⟨s.tcache, rfl, h⟩
  | succ k ih =>
    intro s va h g
    have hp : pieces va (k + 1) = va :: pieces (va + 8) k := by
      unfold pieces
      rw [List.range_succ_eq_map, List.map_cons, List.map_map]
      congr 1
      · simp
      · refine List.map_congr_left (fun i _ => ?_)
        simp only [Function.comp]
        bv_omega
    rw [hp, List.all_cons, Bool.and_eq_true] at g
    obtain ⟨x, e, hx⟩ := feRead_good h g.1 8
    have g2 : (pieces (va + 8) k).all (({ s with tcache := x } : State).feGood c) = true := by
      rw [show ({ s with tcache := x } : State).feGood c = s.feGood c from funext (feGood_tcache s x c)]
      exact g.2
    obtain ⟨y, e2, hy⟩ := ih hx g2
    refine ⟨y, ?_, hy⟩
    unfold State.feReads
    rw [e, hp, List.flatMap_cons]
    simp only [e2]
    simp only [feBytes_tcache]

/-! ### Code words (02 R79) -/

/-- The lines of a fetch unit by the tables alone. -/
def State.linesOf (s : State) (c : Actx) (base n : Nat) : List (Nat × List Byte) :=
  (List.range n).map (fun i =>
    let va := BitVec.ofNat 64 (base + 64 * i)
    (placePa (s.spotOf c va) / 64 + 1, (List.range 64).map (s.placeByte c (.strong .device) (s.spotOf c va) (s.leafOr c va).key)))
def State.unitGood (s : State) (c : Actx) (need : Need) (base n : Nat) : Bool :=
  (List.range n).all (fun i => s.goodFor c need (BitVec.ofNat 64 (base + 64 * i)))

theorem codeLines_good {s : State} {c : Actx} (h : s.TcOk c) {need : Need} {base n : Nat} (g : s.unitGood c need base n = true) :
    s.codeLines c need base n = s.linesOf c base n := by
  unfold State.codeLines State.linesOf
  refine List.map_congr_left (fun i hi => ?_)
  obtain ⟨x, e, -⟩ := translate_good h (List.all_eq_true.mp g i hi)
  rw [e]
  rfl

/-- The bytes of a fetch unit, and the key and tags that the fetch path holds them under. -/
def State.unitBytes (s : State) (c : Actx) (base n : Nat) : List Byte := (s.linesOf c base n).flatMap Prod.snd
def State.unitTags (s : State) (c : Actx) (base n : Nat) : List Nat := (s.linesOf c base n).map Prod.fst
def State.unitKey (s : State) (c : Actx) (base n : Nat) : Nat :=
  2 * ((s.unitTags c base n).find? (fun t => t != 0)).getD 0 + (if n = 1 then 1 else 0)
/-- What the fetch path holds of the unit, if anything, is what memory holds. -/
def State.FcOk (s : State) (c : Actx) (base n : Nat) : Prop :=
  ∀ bs, look s.fcache (s.unitKey c base n) = some (s.unitTags c base n, bs) → bs = s.unitBytes c base n

theorem fcOk_nil {s : State} {c : Actx} {base n : Nat} (h : s.fcache = []) : s.FcOk c base n := by
  intro bs e
  rw [h] at e
  simp at e

/-- A change of the caches alone. -/
def State.caches (s : State) (x : AMap (AMap Leaf)) (y : AMap (List Nat × List Byte)) : State := { s with tcache := x, fcache := y }
theorem walk_caches (s : State) (x : AMap (AMap Leaf)) (y : AMap (List Nat × List Byte)) (key : Nat) (va : VAddr) (n t : Nat) :
    (s.caches x y).walk key va n t = s.walk key va n t := by
  unfold State.caches
  induction n generalizing t with
  | zero => rfl
  | succ n ih =>
    unfold State.walk
    simp only [ih]
    rfl
theorem leafOr_caches (s : State) (x : AMap (AMap Leaf)) (y : AMap (List Nat × List Byte)) (c : Actx) (va : VAddr) :
    (s.caches x y).leafOr c va = s.leafOr c va := by
  unfold State.leafOr
  rw [walk_caches]
theorem linesOf_caches (s : State) (x : AMap (AMap Leaf)) (y : AMap (List Nat × List Byte)) (c : Actx) (base n : Nat) :
    (s.caches x y).linesOf c base n = s.linesOf c base n := by
  unfold State.linesOf State.spotOf
  simp only [leafOr_caches]
  rfl
theorem goodFor_caches (s : State) (x : AMap (AMap Leaf)) (y : AMap (List Nat × List Byte)) (c : Actx) (need : Need) (va : VAddr) :
    (s.caches x y).goodFor c need va = s.goodFor c need va := by
  unfold State.goodFor State.spotOf
  rw [walk_caches, leafOr_caches]
  rfl
theorem unitGood_caches (s : State) (x : AMap (AMap Leaf)) (y : AMap (List Nat × List Byte)) (c : Actx) (need : Need) (base n : Nat) :
    (s.caches x y).unitGood c need base n = s.unitGood c need base n := by
  unfold State.unitGood
  simp only [goodFor_caches]

/-- A unit's fetch: the bytes that memory holds; the fetch path changes and stays right. -/
theorem codeUnit_good {s : State} {c : Actx} (h : s.TcOk c) {need : Need} {base n : Nat} (g : s.unitGood c need base n = true)
    (f : s.FcOk c base n) : ∃ y, s.codeUnit c need base n = (s.unitBytes c base n, { s with fcache := y }) ∧
      ({ s with fcache := y } : State).FcOk c base n := by
  have keep : ∀ y : AMap (List Nat × List Byte),
      (∀ bs, look y (s.unitKey c base n) = some (s.unitTags c base n, bs) → bs = s.unitBytes c base n) →
      ({ s with fcache := y } : State).FcOk c base n := by
    intro y k
    have e := linesOf_caches s s.tcache y c base n
    intro bs q
    unfold State.unitKey State.unitTags at q k
    unfold State.unitBytes at k ⊢
    rw [show ({ s with fcache := y } : State).linesOf c base n = s.linesOf c base n from e] at q ⊢
    exact k bs q
  have new : ∀ b : Bool, ∀ bs, look (if b = true then put s.fcache (s.unitKey c base n) (s.unitTags c base n, s.unitBytes c base n) else s.fcache)
      (s.unitKey c base n) = some (s.unitTags c base n, bs) → bs = s.unitBytes c base n := by
    intro b bs q
    split at q
    · rw [look_put_self] at q
      cases q
      rfl
    · exact f bs q
  unfold State.codeUnit
  rw [codeLines_good h g]
  simp only
  have key : 2 * (List.find? (fun t => t != 0) (List.map Prod.fst (s.linesOf c base n))).getD 0 + (if n = 1 then 1 else 0) =
      s.unitKey c base n := rfl
  have tags : List.map Prod.fst (s.linesOf c base n) = s.unitTags c base n := rfl
  have bytes : List.flatMap Prod.snd (s.linesOf c base n) = s.unitBytes c base n := rfl
  rw [key, tags, bytes]
  split
  · rename_i t bs q
    split
    · rename_i ht
      subst ht
      rw [f bs q]
      refine ⟨_, by rw [ite_self], keep _ ?_⟩
      intro b q2
      split at q2
      · exact f b q2
      · exact new _ b q2
    · exact ⟨_, rfl, keep _ (new _)⟩
  · exact ⟨_, rfl, keep _ (new _)⟩

/-- A code word in one line: the bytes that memory holds, and a change of the caches alone, which stay right. -/
theorem codeWord_good {s : State} {c : Actx} {need : Need} {unit va n : Nat} (h : s.TcOk c)
    (g : s.unitGood c need (va / (64 * unit) * (64 * unit)) unit = true) (g' : s.goodFor c need (BitVec.ofNat 64 va) = true)
    (g'' : s.goodFor c need (BitVec.ofNat 64 (va + n - 1)) = true) (f : s.FcOk c (va / (64 * unit) * (64 * unit)) unit) :
    ∃ x y, s.codeWord c need unit va n = .ok (s.caches x y)
        (((s.unitBytes c (va / (64 * unit) * (64 * unit)) unit).drop (va % (64 * unit))).take n) ∧
      (s.caches x y).TcOk c ∧ (s.caches x y).FcOk c (va / (64 * unit) * (64 * unit)) unit := by
  obtain ⟨x, e, t, p, q⟩ := translate_good h g'
  obtain ⟨y, u, k⟩ := codeUnit_good h g f
  have fc : ∀ z, (s.caches z y).FcOk c (va / (64 * unit) * (64 * unit)) unit := by
    intro z bs a
    have l1 := linesOf_caches s z y c (va / (64 * unit) * (64 * unit)) unit
    have l2 := linesOf_caches s s.tcache y c (va / (64 * unit) * (64 * unit)) unit
    have kk := k bs
    unfold State.unitKey State.unitTags at a kk
    unfold State.unitBytes at kk ⊢
    rw [l1] at a ⊢
    rw [show ({ s with fcache := y } : State).linesOf c (va / (64 * unit) * (64 * unit)) unit =
      s.linesOf c (va / (64 * unit) * (64 * unit)) unit from l2] at kk
    exact kk a
  have tc : ∀ z, ({ s with tcache := z } : State).TcOk c → (s.caches z y).TcOk c := by
    intro z a vb l b
    have := a vb l b
    rw [walk_tcache] at this
    rw [walk_caches]
    exact this
  have p1 : ({ s with tcache := x } : State).placeHeld (s.targetOf c (BitVec.ofNat 64 va)).place = false := p
  have q1 : ({ s with tcache := x } : State).statusOf (s.targetOf c (BitVec.ofNat 64 va)).place (s.targetOf c (BitVec.ofNat 64 va)).key =
      .ok := q
  unfold State.codeWord
  simp only [e, p1, q1, u, Bool.false_eq_true, if_false, ne_eq, not_true_eq_false]
  by_cases hl : va / 64 = (va + n - 1) / 64
  · simp only [hl, if_true]
    exact ⟨x, y, rfl, tc x t, fc x⟩
  · simp only [hl, if_false]
    obtain ⟨x2, e2, t2, p2, q2⟩ := translate_good (s := { s with tcache := x }) t (need := need) (va := BitVec.ofNat 64 (va + n - 1))
      (by rw [goodFor_tcache]; exact g'')
    simp only [e2]
    have p3 : ({ s with tcache := x2 } : State).placeHeld (({ s with tcache := x } : State).targetOf c (BitVec.ofNat 64 (va + n - 1))).place =
        false := p2
    have q3 : ({ s with tcache := x2 } : State).statusOf (({ s with tcache := x } : State).targetOf c (BitVec.ofNat 64 (va + n - 1))).place
        (({ s with tcache := x } : State).targetOf c (BitVec.ofNat 64 (va + n - 1))).key = .ok := q2
    simp only [p3, q3, Bool.false_eq_true, if_false, ne_eq, not_true_eq_false]
    exact ⟨x2, y, rfl, tc x2 t2, fc x2⟩

/-! ### Passes of a prologue (18 R399) -/

/-- A word of a pass is one of the program's own, an access, or none. -/
theorem passExec_cases (p : Pass) (c : Actx) (i : Instr) : p.exec c i = .stop ∨ (∃ f, p.exec c i = p.word f) ∨
    (∃ d a off n, p.exec c i = p.load c d a off n) ∨ (∃ d a off n, p.exec c i = p.store d a off n) ∨
    ∃ fn d a off, p.exec c i = p.rmw fn d a off := by
  cases i <;> first
    | exact .inl rfl
    | exact .inr (.inl ⟨_, rfl⟩)
    | exact .inr (.inr (.inl ⟨_, _, _, _, rfl⟩))
    | exact .inr (.inr (.inr (.inl ⟨_, _, _, _, rfl⟩)))
    | exact .inr (.inr (.inr (.inr ⟨_, _, _, _, rfl⟩)))

/-- What a step of memory reads leaves alone: everything but the translation caches, the pinned pages and lines, and the fetch paths. -/
def State.ReadsOnly (s s' : State) : Prop :=
  s' = { s with tcache := s'.tcache, stcache := s'.stcache, pins := s'.pins, slicePins := s'.slicePins, fcache := s'.fcache }

theorem readsOnly_refl (s : State) : s.ReadsOnly s := rfl
theorem readsOnly_trans {a b c : State} (h : a.ReadsOnly b) (k : b.ReadsOnly c) : a.ReadsOnly c := by
  unfold State.ReadsOnly at *
  rw [h] at k
  exact k
theorem readsOnly_mem {a b : State} (h : a.ReadsOnly b) : b.mem = a.mem := by rw [h]
theorem translate_reads {s s' : State} {c : Actx} {need : Need} {sc : Bool} {va : VAddr} {t : Target}
    (h : s.translate c need sc va = .ok (s', t)) : s.ReadsOnly s' := by
  have k := translate_keeps h
  have f : s'.fcache = s.fcache := by rw [k]
  unfold State.ReadsOnly
  rw [f]
  exact k
theorem feRead_reads {s s' : State} {c : Actx} {va : VAddr} {n : Nat} {bs : List Byte} (h : s.feRead c va n = .ok s' bs) :
    s.ReadsOnly s' := by
  have k := feRead_keeps h
  have f : s'.fcache = s.fcache := by rw [k]
  unfold State.ReadsOnly
  rw [f]
  exact k
theorem feReads_reads {c : Actx} (k : Nat) : ∀ {s s' : State} {va : VAddr} {bs : List Byte}, s.feReads c k va = .ok s' bs →
    s.ReadsOnly s' := by
  induction k with
  | zero => intro s s' va bs h; cases h; exact readsOnly_refl s
  | succ k ih =>
    intro s s' va bs h
    unfold State.feReads at h
    split at h
    · cases h
    · cases h
    · rename_i q
      split at h
      · cases h
      · cases h
      · rename_i q2
        cases h
        exact readsOnly_trans (feRead_reads q) (ih q2)

/-- A code word's read leaves memory and everything but the caches alone. -/
theorem codeWord_reads {s s' : State} {c : Actx} {need : Need} {unit va n : Nat} {bs : List Byte}
    (h : s.codeWord c need unit va n = .ok s' bs) : s.ReadsOnly s' := by
  unfold State.codeWord at h
  simp only at h
  have check : ∀ {a : State} {b : State} {x : Nat}, (match a.translate c need false (BitVec.ofNat 64 x) with
      | .error f => (Code.fault { f with addr := BitVec.ofNat 64 va } : Code Unit)
      | .ok (s, t) =>
        if s.placeHeld t.place = true then .held
        else if s.statusOf t.place t.key ≠ .ok then .fault ⟨.xlate, xMemErr, 0, BitVec.ofNat 64 va⟩
        else .ok s ()) = Code.ok b () → a.ReadsOnly b := by
    intro a b x e
    split at e
    · cases e
    · rename_i q
      split at e
      · cases e
      · split at e
        · cases e
        · cases e
          exact translate_reads q
  split at h
  · cases h
  · cases h
  · rename_i s1 _ q1
    have k1 := check q1
    split at h
    · cases h
    · cases h
    · rename_i s2 _ q2
      have k2 : s.ReadsOnly s2 := by
        split at q2
        · cases q2; exact k1
        · exact readsOnly_trans k1 (check q2)
      cases h
      unfold State.ReadsOnly at k2 ⊢
      rw [k2]
theorem laneWord_reads {s s' : State} {c : Actx} {va : Nat} {x : LaneWord} (h : s.laneWord c va = .ok s' x) : s.ReadsOnly s' := by
  unfold State.laneWord at h
  split at h
  · cases h
  · cases h
  · rename_i q
    cases h
    exact codeWord_reads q
theorem accessWordAt_reads {s s' : State} {c : Actx} {va : Nat} {x : AccessWord} (h : s.accessWordAt c va = .ok s' x) : s.ReadsOnly s' := by
  unfold State.accessWordAt at h
  split at h
  · cases h
  · cases h
  · rename_i q
    cases h
    exact codeWord_reads q
theorem runWords_reads {c : Actx} (k : Nat) : ∀ {s s' : State} {va : Nat} {r : List LaneWord × Option LaneWord},
    s.runWords c k va = .ok s' r → s.ReadsOnly s' := by
  induction k with
  | zero => intro s s' va r h; cases h; exact readsOnly_refl s
  | succ k ih =>
    intro s s' va r h
    unfold State.runWords at h
    split at h
    · cases h
    · cases h
    · rename_i q
      split at h
      · cases h; exact laneWord_reads q
      · split at h
        · cases h
        · cases h
        · rename_i q2
          cases h
          exact readsOnly_trans (laneWord_reads q) (ih q2)

/-- A pass reads memory; what it writes goes into its window and its registers. -/
theorem passExec_reads {p p' : Pass} {c : Actx} {i : Instr} (h : p.exec c i = .go p' ∨ p.exec c i = .halt p') : p.s.ReadsOnly p'.s := by
  have word : ∀ f, p.word f = .go p' ∨ p.word f = .halt p' → p'.s = p.s := by
    intro f h
    unfold Pass.word at h
    repeat' split at h
    all_goals simp at h
    all_goals subst h; rfl
  rcases passExec_cases p c i with e | ⟨f, e⟩ | ⟨d, a, off, n, e⟩ | ⟨d, a, off, n, e⟩ | ⟨fn, d, a, off, e⟩ <;> rw [e] at h
  · simp at h
  · rw [word f h]; exact readsOnly_refl _
  · unfold Pass.load at h
    simp only at h
    split at h
    · simp at h
    · split at h
      · simp at h; subst h; exact readsOnly_refl _
      · split at h
        · simp at h
        · simp at h
        · rename_i q
          simp at h; subst h
          exact feRead_reads q
  · unfold Pass.store at h
    simp only at h
    repeat' split at h
    all_goals simp at h
    subst h; exact readsOnly_refl _
  · unfold Pass.rmw at h
    simp only at h
    repeat' split at h
    all_goals simp at h
    subst h; exact readsOnly_refl _
theorem passStep_reads {p p' : Pass} {c : Actx} {x : Cap} (h : p.step c x = .go p' ∨ p.step c x = .halt p') : p.s.ReadsOnly p'.s := by
  unfold Pass.step at h
  simp only at h
  split at h
  · simp at h
  · split at h
    · simp at h
    · simp at h
    · rename_i q
      split at h
      · exact readsOnly_trans (accessWordAt_reads q) (passExec_reads h)
      · simp at h
theorem passRun_reads {c : Actx} {x : Cap} (n : Nat) : ∀ {p p' : Pass}, Pass.run c x n p = .halt p' → p.s.ReadsOnly p'.s := by
  induction n with
  | zero => intro p p' h; cases h
  | succ n ih =>
    intro p p' h
    unfold Pass.run at h
    split at h
    · rename_i q
      exact readsOnly_trans (passStep_reads (.inl q)) (ih h)
    · exact passStep_reads (.inr h)

end Sys2Proof.Machine
end

