-- ==== Sys2Proof/Tests/Slice0.lean ====
section
/-!
SUPPORT. Own tests: ill-formed terms are refused, and words written out from the spec's encodings decode to what they stand for.
-/
namespace Sys2Proof.Tests
open Sys2Proof.Machine
set_option Elab.async false

/-! ### Ill-formed lane terms (02 R56-R66): one field at a time against a well-formed ADD -/

def okAdd : Lane := { plainLane with dst := .v 1, sa := .v 2, sb := .v 3 }

theorem test_add_wellFormed : (Instr.add okAdd).wellFormed 256 = true := by decide
theorem test_fmt_refused : (Instr.add { okAdd with fmt := .b32 }).wellFormed 256 = false := by decide
theorem test_mod_refused : (Instr.add { okAdd with mod := 2 }).wellFormed 256 = false := by decide
theorem test_xop_refused : (Instr.add { okAdd with xop := 1 }).wellFormed 256 = false := by decide
theorem test_imm_refused : (Instr.add { okAdd with imm := 1 }).wellFormed 256 = false := by decide
theorem test_ep_of_unused_refused : (Instr.add { okAdd with epc := true }).wellFormed 256 = false ∧
    (Instr.not { okAdd with fmt := .b32, sb := .zero, epb := true }).wellFormed 256 = false := by decide
theorem test_epa_of_unused_refused :
    (Instr.nop { plainLane with epa := true }).wellFormed 256 = false := by decide
theorem test_dst_refused : (Instr.add { okAdd with dst := .s 1 }).wellFormed 256 = false := by decide
theorem test_sa_refused : (Instr.add { okAdd with sa := .s 192 }).wellFormed 256 = false := by decide
theorem test_sb_window_refused : (Instr.add { okAdd with sb := .v 64 }).wellFormed 64 = false := by decide
theorem test_sc_refused : (Instr.add { okAdd with sc := .v 0 }).wellFormed 256 = false := by decide
theorem test_bra_dst_refused :
    (Instr.bra { neg := false, gp := 7, dst := .v 1, rejoin := 0, imm := 1 }).wellFormed 256 = false ∧
    (Instr.bra { neg := false, gp := 7, dst := .zero, rejoin := 0, imm := 1 }).wellFormed 256 = true := by decide
theorem test_jmpi_refused :
    (Instr.jmpi { neg := false, gp := 7, dst := .zero, rejoin := 0, imm := 0 }).wellFormed 256 = false ∧
    (Instr.jmpi { neg := false, gp := 7, dst := .v 1, rejoin := 0, imm := 1 }).wellFormed 256 = false ∧
    (Instr.jmpi { neg := false, gp := 7, dst := .v 1, rejoin := 0, imm := 0 }).wellFormed 256 = true := by decide

/-! ### Ill-formed access terms (02 R70-R74) and drain terms (16 R366) -/

theorem test_access_registers_refused :
    (Instr.accessAdd 192 0 0).wellFormed 256 = false ∧ (Instr.accessAdd 0 192 0).wellFormed 256 = false ∧
    (Instr.accessAdd 0 0 254).wellFormed 256 = false ∧ (Instr.accessAdd 255 191 0).wellFormed 256 = true := by decide
theorem test_k_registers_refused :
    (Instr.accessCmp 0 4 0 0).wellFormed 256 = false ∧ (Instr.kand 0 4 0).wellFormed 256 = false ∧
    (Instr.kand 0 0 4).wellFormed 256 = false := by decide
theorem test_shift_count_refused :
    (Instr.shli 0 0 64).wellFormed 256 = false ∧ (Instr.shli 0 0 63).wellFormed 256 = true := by decide
theorem test_access_kind_refused :
    (Instr.lds 0 0 2 .team 0).wellFormed 256 = false ∧ (Instr.sts 0 0 1 .team 0).wellFormed 256 = false ∧
    (Instr.sts 0 0 3 .team 0).wellFormed 256 = false := by decide
theorem test_descriptor_refused :
    (Instr.cpnd 0 185).wellFormed 256 = false ∧ (Instr.cpnd 0 184).wellFormed 256 = true ∧
    (Instr.agset 3 0 0 0).wellFormed 256 = false := by decide
theorem test_special_number_refused :
    (Instr.accessSrd 0 0).wellFormed 256 = false ∧ (Instr.accessSwr 0 0x03).wellFormed 256 = false ∧
    (Instr.sete 255).wellFormed 256 = false := by decide
theorem test_drain_fields_refused :
    (Instr.drainFn 0 0 5).wellFormed 256 = false ∧ (Instr.drainSel 0 0 0 4).wellFormed 256 = false ∧
    (Instr.drainConst 0 6).wellFormed 256 = false ∧ (Instr.drainStoreb 0 0 0).wellFormed 256 = false ∧
    (Instr.drainStoreb 0 0 4).wellFormed 256 = false := by decide

/-! ### Words written out from the spec's encodings (02 R53-R76; the chapters' worked words) -/

theorem test_lane_words : ∀ p ∈ specLaneWords, decodeLane 256 p.2.lastBit p.1 = .ok p.2 := by decide +kernel
theorem test_access_words : ∀ p ∈ specAccessWords, decodeAccess p.1 = .ok p.2 := by decide +kernel
theorem test_drain_words : ∀ p ∈ specDrainWords, decodeDrain p.1 = .ok p.2 := by decide +kernel

/-- A lane word from its fields (02 R53 Table 1), unguarded, with no EP bit and not last: DST, SA, SB and SC are operand codes. -/
def laneW (op : BitVec 8) (fmt mod : BitVec 4) (dst sa sb sc : BitVec 9) (xop : BitVec 4) (imm : BitVec 32) : LaneWord :=
  op ++ fmt ++ mod ++ 0b0111#4 ++ dst ++ sa ++ sb ++ sc ++ 0#4 ++ xop ++ imm

/-- What the words of one shape decode to: OP and constructor, for the given other fields. -/
def decodesAs (f : BitVec 8 → LaneWord) (l : Lane) (t : List (BitVec 8 × (Lane → Instr))) : Bool :=
  t.all (fun p => match decodeLane 256 l.last (f p.1) with
    | .ok i => decide (i = p.2 l)
    | .error _ => false)

/-- V1, V2, V3, V4: codes 1-4. -/
def lane3 (f : Fmt) (mod xop : BitVec 4) : Lane :=
  { plainLane with fmt := f, mod := mod, xop := xop, dst := .v 1, sa := .v 2, sb := .v 3, sc := .v 4 }
def lane2 (f : Fmt) (mod xop : BitVec 4) : Lane := { lane3 f mod xop with sc := .zero }
def lane1 (f : Fmt) (mod xop : BitVec 4) : Lane := { lane2 f mod xop with sb := .zero }

/-- 05 Tables 3, 4 and 6. -/
theorem test_integer_words :
    decodesAs (fun op => laneW op 0 1 1 2 3 0x1E1 0 0) (lane2 .s32 1 0) [(0x00, .add), (0x01, .sub), (0x02, .mul), (0x05, .div)] ∧
    decodesAs (fun op => laneW op 3 0 1 2 3 0x1E1 0 0) (lane2 .n16 0 0) [(0x03, .mulhi), (0x06, .rem), (0x09, .min), (0x0A, .max)] ∧
    decodesAs (fun op => laneW op 4 0 1 2 0x1E1 0x1E1 0 0) (lane1 .s8 0 0) [(0x07, .abs), (0x08, .neg)] ∧
    decodesAs (fun op => laneW op 1 0 1 2 3 4 0 0) (lane3 .n32 0 0) [(0x04, .mad), (0x0B, .clamp)] := by decide +kernel
theorem test_logic_words :
    decodesAs (fun op => laneW op 6 0 1 2 3 0x1E1 0 0) (lane2 .b32 0 0)
      [(0x0C, .and), (0x0D, .or), (0x0E, .xor), (0x10, .andn), (0x11, .shl), (0x12, .shr), (0x13, .rot)] ∧
    decodesAs (fun op => laneW op 0 0 1 2 3 0x1E1 0 0) (lane2 .s32 0 0) [(0x11, .shl), (0x12, .shr), (0x14, .bfx)] ∧
    decodesAs (fun op => laneW op 6 0 1 2 3 4 0 0) (lane3 .b32 0 0) [(0x15, .bfi), (0x1A, .bperm)] ∧
    decodesAs (fun op => laneW op 6 0 1 2 0x1E1 0x1E1 0 0) (lane1 .b32 0 0)
      [(0x0F, .not), (0x16, .popc), (0x17, .clz), (0x18, .ctz), (0x19, .brev)] := by decide +kernel
theorem test_predicate_words :
    decodesAs (fun op => laneW op 0 5 1 2 3 0x1E1 0 0) (lane2 .s32 5 0) [(0x20, .cmp)] ∧
    decodesAs (fun op => laneW op 0 0 1 2 3 0x1E1 0 0) (lane2 .s32 0 0) [(0x21, .pand), (0x22, .por), (0x23, .pxor)] ∧
    decodesAs (fun op => laneW op 0 0 1 2 0x1E1 0x1E1 0 0) (lane1 .s32 0 0) [(0x24, .pnot), (0x26, .pget), (0x27, .pset)] ∧
    decodesAs (fun op => laneW op 6 0 1 2 3 0x1E1 5 0) (lane2 .b32 0 5) [(0x25, .sel)] := by decide +kernel
/-- 05 Table 7. -/
theorem test_float_words :
    decodesAs (fun op => laneW op 0xB 1 1 2 3 0x1E1 0 0) (lane2 .f16x2 1 0)
      [(0x40, .addFloat), (0x41, .subFloat), (0x42, .mulFloat), (0x44, .divFloat)] ∧
    decodesAs (fun op => laneW op 0xC 0 1 2 3 0x1E1 0 0) (lane2 .bf16x2 0 0) [(0x48, .minFloat), (0x49, .maxFloat), (0x4F, .copysign)] ∧
    decodesAs (fun op => laneW op 0xA 7 1 2 3 0x1E1 0 0) (lane2 .bf16 7 0) [(0x4C, .cmpFloat)] ∧
    decodesAs (fun op => laneW op 0xC 3 1 2 3 4 0 0) (lane3 .bf16x2 3 0) [(0x43, .fma), (0x57, .dot2)] ∧
    decodesAs (fun op => laneW op 8 0 1 2 3 4 0 0) (lane3 .f32 0 0) [(0x58, .clampFloat)] ∧
    decodesAs (fun op => laneW op 9 2 1 2 0x1E1 0x1E1 0 0) (lane1 .f16 2 0)
      [(0x45, .sqrt), (0x46, .rsqrt), (0x47, .rcp), (0x4E, .rint), (0x50, .exp2), (0x51, .log2), (0x52, .sin), (0x53, .cos),
       (0x54, .tanh), (0x55, .sigmoid), (0x56, .gelu)] ∧
    decodesAs (fun op => laneW op 8 0 1 2 0x1E1 0x1E1 0 0) (lane1 .f32 0 0)
      [(0x4A, .absFloat), (0x4B, .negFloat), (0x4D, .classFloat)] := by decide +kernel
/-- 05 R154-R164; 04 R112, R113, R127. -/
theorem test_move_words :
    decodesAs (fun op => laneW op 9 1 1 2 0x1E1 0x1E1 8 0) (lane1 .f16 1 8) [(0x80, .cvt)] ∧
    decodesAs (fun op => laneW op 6 0 1 2 0x1E1 0x1E1 0 0) (lane1 .b32 0 0) [(0x81, .mov)] ∧
    decodesAs (fun op => laneW op 6 0 1 2 3 0x1E1 0 0) (lane2 .b32 0 0) [(0x82, .packB32)] ∧
    decodesAs (fun op => laneW op 0xB 2 1 2 3 0x1E1 0 0) (lane2 .f16x2 2 0) [(0x82, .packFloat)] ∧
    decodesAs (fun op => laneW op 6 0 1 2 0x1E1 0x1E1 1 0) (lane1 .b32 0 1) [(0x83, .unpackB32)] ∧
    decodesAs (fun op => laneW op 0xC 0 1 2 0x1E1 0x1E1 1 0) (lane1 .bf16x2 0 1) [(0x83, .unpackFloat)] ∧
    decodesAs (fun op => laneW op 6 0 1 0x114 0x1E1 0x1E1 1 0) { lane1 .b32 0 1 with sa := .s 20 } [(0x8A, .stov)] ∧
    decodesAs (fun op => laneW op 0 0 1 0x1E1 0x1E1 0x1E1 0 0) { plainLane with dst := .v 1 } [(0x8B, .empty), (0x8C, .fill)] ∧
    decodesAs (fun op => laneW op 0 0 1 0x1E1 0x1E1 0x1E1 0 0x104) { plainLane with dst := .v 1, imm := 0x104 } [(0xF4, .srd)] ∧
    decodesAs (fun op => laneW op 0 0 0x1E1 2 0x1E1 0x1E1 0 0x10) { plainLane with sa := .v 2, imm := 0x10 } [(0xF5, .swr)] := by
  decide +kernel
theorem test_cross_lane_words :
    decodesAs (fun op => laneW op 6 0 1 2 3 0x1E1 3 0) (lane2 .b32 0 3) [(0x84, .shfl)] ∧
    decodesAs (fun op => laneW op 6 0 1 2 0x1E1 0x1E1 1 0) (lane1 .b32 0 1) [(0x85, .vballotV)] ∧
    decodesAs (fun op => laneW op 6 0 0x114 2 0x1E1 0x1E1 0 0) { lane1 .b32 0 0 with dst := .s 20 } [(0x85, .vballotS)] ∧
    decodesAs (fun op => laneW op 8 0 1 2 0x1E1 0x1E1 3 0) (lane1 .f32 0 3) [(0x86, .vmatch)] ∧
    decodesAs (fun op => laneW op 0 1 1 2 0x1E1 0x1E1 0 0) (lane1 .s32 1 0) [(0x87, .vreduce)] ∧
    decodesAs (fun op => laneW op 6 0 1 2 0x1E1 0x1E1 0xD 0) (lane1 .b32 0 0xD) [(0x88, .vscan)] ∧
    decodesAs (fun op => laneW op 6 0 0x114 2 3 0x1E1 0 0) { lane2 .b32 0 0 with dst := .s 20 } [(0x89, .vtosB32)] ∧
    decodesAs (fun op => laneW op 1 0 0x114 2 0x1E1 0x1E1 0 0) { lane1 .n32 0 0 with dst := .s 20 } [(0x89, .vtosN32)] ∧
    decodesAs (fun op => laneW op 0 0 0x114 2 0x1E1 0x1E1 0 0) { lane1 .s32 0 0 with dst := .s 20 } [(0x89, .vtosS32)] := by
  decide +kernel
/-- 02 R56, R59 and 13 R304, R311: the base is S20 (code 0x114), the offset V3, the data V4. -/
def memLane (f : Fmt) (mod xop : BitVec 4) : Lane :=
  { lane3 f mod xop with sa := .s 20 }
theorem test_memory_words :
    decodesAs (fun op => laneW op 2 0 1 0x114 3 0x1E1 8 0xFFFFFFFC) { memLane .s16 0 8 with sc := .zero, imm := 0xFFFFFFFC }
      [(0xA0, .ld)] ∧
    decodesAs (fun op => laneW op 6 6 0x1E1 0x114 3 4 3 0) { memLane .b32 6 3 with dst := .zero } [(0xA1, .st)] ∧
    decodesAs (fun op => laneW op 1 4 1 0x114 3 4 4 0) (memLane .n32 4 4) [(0xA8, .atomAdd), (0xA9, .atomMin), (0xAA, .atomMax)] ∧
    decodesAs (fun op => laneW op 6 11 1 0x114 3 4 2 0) (memLane .b32 11 2)
      [(0xAB, .atomAnd), (0xAC, .atomOr), (0xAD, .atomXor), (0xAE, .atomXchg), (0xAF, .atomCas)] ∧
    decodesAs (fun op => laneW op 8 4 0x1E1 0x114 3 4 0xB 0) { memLane .f32 4 0xB with dst := .zero }
      [(0xA8, .redAdd), (0xA9, .redMin), (0xAA, .redMax)] ∧
    decodesAs (fun op => laneW op 6 4 0x1E1 0x114 3 4 9 0) { memLane .b32 4 9 with dst := .zero }
      [(0xAB, .redAnd), (0xAC, .redOr), (0xAD, .redXor)] := by decide +kernel
/-- 07 R191. Control words stand last; the reconvergence offset of BRA and JMPI is SA:SB:SC, here −1 and 9. -/
theorem test_control_words :
    (fun last : LaneWord => decodesAs (fun op => laneW op 0 0 0x1E1 0x1E1 0x1E1 0x1E1 0 7 ||| last) { plainLane with last := true, imm := 7 }
        [(0xC2, .call), (0xC5, .brk), (0xC6, .exit), (0xC7, .trap), (0xC8, .bkpt)] ∧
      decodesAs (fun op => laneW op 0 0 0x1E1 0x1E1 0x1E1 0x1E1 0 0 ||| last) { plainLane with last := true } [(0xC4, .ret), (0xC9, .nop)] ∧
      decodesAs (fun op => laneW op 0 0 0x114 0x1E1 0x1E1 0x1E1 0 0 ||| last) { plainLane with last := true, dst := .s 20 } [(0xC3, .calli)] ∧
      decodeLane 256 true (laneW 0xC0 0 0 0x1E1 0x1FF 0x1FF 0x1FF 0 0xFFFFFFFF ||| last) =
        .ok (.bra { neg := false, gp := 7, dst := .zero, rejoin := 0x7FFFFFF, imm := 0xFFFFFFFF }) ∧
      decodeLane 256 true (laneW 0xC1 0 0 3 0 0 9 0 0 ||| last) =
        .ok (.jmpi { neg := false, gp := 7, dst := .v 3, rejoin := 9, imm := 0 })) (1#96 <<< 36) := by decide +kernel
/-- 15 R340, R341; 11 R277. The address is S20 (0x114), the drain descriptor S21. -/
theorem test_matrix_words :
    decodesAs (fun op => laneW op 0xE 0 0x1E1 0x114 0x1E1 0x1E1 0 0x110) { plainLane with fmt := .xb6, sa := .s 20, imm := 0x110 }
      [(0xD0, .mldb)] ∧
    decodesAs (fun op => laneW op 4 0 0x1E1 0x1E1 0x115 0x1E1 0 0x850102) { plainLane with fmt := .s8, sb := .s 21, imm := 0x850102 }
      [(0xD2, .mdrn)] ∧
    decodesAs (fun op => laneW op 0 0 0x1E1 0x1E1 0x1E1 0x1E1 0 0x102) { plainLane with imm := 0x102 } [(0xD3, .mzero)] ∧
    decodesAs (fun op => laneW op 0 0 1 0x114 0x1E1 0x1E1 0 0) { plainLane with dst := .v 1, sa := .s 20 } [(0xD4, .mdrawCl)] := by
  decide +kernel
/-- 09 R227. Handle S20 (0x114), branch S21 or node V3, tokens V4. -/
theorem test_tree_words :
    decodesAs (fun op => laneW op 0 0 1 0x114 0x1E1 0x1E1 1 0) { plainLane with dst := .v 1, sa := .s 20, xop := 1 }
      [(0xE0, .trnew), (0xE6, .trtag)] ∧
    decodesAs (fun op => laneW op 0 0 1 0x114 0x115 4 0 0) { memLane .s32 0 0 with sb := .s 21 } [(0xE1, .tradd)] ∧
    decodesAs (fun op => laneW op 0 0 1 0x114 3 0x1E1 0 0) { memLane .s32 0 0 with sc := .zero } [(0xE2, .trfork)] ∧
    decodesAs (fun op => laneW op 0 0 1 0x114 0x115 0x1E1 0 0) { memLane .s32 0 0 with sb := .s 21, sc := .zero }
      [(0xE3, .trpruneBr), (0xE4, .trcommit)] ∧
    decodesAs (fun op => laneW op 0 0 1 0x114 0x115 0x1E1 3 0) { memLane .s32 0 3 with sb := .s 21, sc := .zero } [(0xE3, .trpruneSub)] ∧
    decodesAs (fun op => laneW op 0 0 1 0x114 3 0x1E1 0xB 0) { memLane .s32 0 0xB with sc := .zero } [(0xE5, .trinfo)] ∧
    decodesAs (fun op => laneW op 0 0 1 0x114 3 0x116 3 0) { memLane .s32 0 3 with sc := .s 22 } [(0xE9, .kvslotOwn)] := by
  decide +kernel
/-- 14 R325; 19 R409. -/
theorem test_system_words :
    decodesAs (fun op => laneW op 0 6 0x1E1 0x1E1 0x1E1 0x1E1 2 0) { plainLane with mod := 6, xop := 2 } [(0xF0, .fence)] ∧
    decodesAs (fun op => laneW op 0 0 0x1E1 0x1E1 0x1E1 0x1E1 1 0x1401) { plainLane with xop := 1, imm := 0x1401 } [(0xF2, .barArrive)] ∧
    decodesAs (fun op => laneW op 0 0 0x1E1 0x1E1 0x1E1 0x1E1 2 1) { plainLane with xop := 2, imm := 1 } [(0xF2, .barWait)] := by
  decide +kernel

/-- 02 R69, R76: A-form and I-form access words from their fields; op, fn and the registers S3, S4, S5. -/
def accessA (op : BitVec 6) (fn : BitVec 2) (d a b : BitVec 8) : AccessWord := op ++ fn ++ d ++ a ++ b
def accessI (op : BitVec 6) (d a : BitVec 8) (i : BitVec 10) : AccessWord := op ++ d ++ a ++ i
def accessX (op : BitVec 6) (d : BitVec 8) (sub : BitVec 6) (a : BitVec 8) (i : BitVec 4) : AccessWord := op ++ d ++ sub ++ a ++ i

theorem test_access_arithmetic_words :
    (∀ p ∈ [(0#6, 0#2, Instr.accessAdd 3 4 5), (0, 1, .accessSub 3 4 5), (0, 2, .accessMul 3 4 5), (0, 3, .accessMulhi 3 4 5),
        (1, 0, .accessAnd 3 4 5), (1, 1, .accessOr 3 4 5), (1, 2, .accessXor 3 4 5), (1, 3, .accessAndn 3 4 5),
        (2, 0, .accessShl 3 4 5), (2, 1, .accessShr 3 4 5), (2, 2, .sar 3 4 5), (2, 3, .accessRot 3 4 5),
        (3, 0, .accessMin 3 4 5), (3, 1, .accessMax 3 4 5), (3, 2, .minu 3 4 5), (3, 3, .maxu 3 4 5),
        (4, 0, .accessDiv 3 4 5), (4, 1, .accessRem 3 4 5), (4, 2, .divu 3 4 5), (4, 3, .remu 3 4 5),
        (0x0E, 3, .accessCmp 3 3 4 5)], decodeAccess (accessA p.1 p.2.1 3 4 5) = .ok p.2.2) ∧
    (∀ p ∈ [(0#2, Instr.kand 1 2 3), (1, .kor 1 2 3), (2, .kxor 1 2 3), (3, .kandn 1 2 3)],
      decodeAccess (accessA 0x0F p.1 1 2 3) = .ok p.2) ∧
    (∀ p ∈ [(0x05#6, Instr.addi 3 4 7), (0x06, .andi 3 4 7), (0x07, .ori 3 4 7), (0x08, .xori 3 4 7), (0x09, .shli 3 4 7),
        (0x0A, .shri 3 4 7), (0x0B, .sari 3 4 7), (0x10, .ld64 3 4 7), (0x11, .ld32 3 4 7), (0x12, .st64 3 4 7), (0x13, .st32 3 4 7)],
      decodeAccess (accessI p.1 3 4 7) = .ok p.2) ∧
    decodeAccess (0x0C#6 ++ 3#8 ++ 0x2ABCD#18) = .ok (.movi 3 0x2ABCD) ∧ decodeAccess (0x0D#6 ++ 3#8 ++ 1#18) = .ok (.exti 3 1) := by
  decide +kernel
theorem test_access_memory_and_control_words :
    decodeAccess (accessX 0x14 3 0b010100 4 5) = .ok (.lds 3 4 1 .team 5) ∧
    decodeAccess (accessX 0x15 3 0b100110 4 5) = .ok (.sts 3 4 2 .device 5) ∧
    decodeAccess (accessX 0x16 3 0b111011 4 5) = .ok (.aadd 3 4 3 .system 5) ∧
    decodeAccess (accessX 0x17 3 0b000000 4 5) = .ok (.axchg 3 4 0 .split 5) ∧
    decodeAccess (0x18#6 ++ 2#2 ++ 1#1 ++ 0x7FFFFF#23) = .ok (.br 2 true 0x7FFFFF) ∧
    decodeAccess (0x19#6 ++ 0#2 ++ 0#1 ++ 5#23) = .ok (.calla 0 false 5) ∧
    decodeAccess (accessA 0x1A 0 0xFF 4 0xFF) = .ok (.jr 4) ∧ decodeAccess (accessA 0x1A 1 0xFF 4 0xFF) = .ok (.jrl 4) ∧
    decodeAccess (accessA 0x1B 0 0xFF 0xFF 0xFF) = .ok .halt := by decide +kernel
/-- 06 Table 5; 11 R262; 16 R362; 17 R372. -/
theorem test_engine_words :
    decodeAccess (accessX 0x20 0xFF 0b100111 40 0) = .ok (.agset 2 1 3 40) ∧
    decodeAccess (accessX 0x21 9 0b000011 0xFF 0) = .ok (.aggo 9 3) ∧ decodeAccess (accessX 0x22 0xFF 0b000010 0xFF 0) = .ok (.aghalt 2) ∧
    decodeAccess (accessX 0x23 0xFF 0b000011 40 1) = .ok (.qputRegister 3 40) ∧
    decodeAccess (accessX 0x23 0xFF 0b000011 40 0) = .ok (.qputMemory 3 40) ∧ decodeAccess (accessX 0x24 9 0 40 0) = .ok (.cpnd 9 40) ∧
    decodeAccess (accessX 0x25 9 0 40 1) = .ok (.collAllReduce 9 40 true) ∧
    decodeAccess (accessX 0x25 9 1 40 0) = .ok (.collReduceScatter 9 40 false) ∧
    decodeAccess (accessX 0x25 9 2 40 1) = .ok (.collAllGather 9 40 true) ∧
    decodeAccess (accessX 0x26 9 1 40 0) = .ok (.txtok 9 true 40) ∧ decodeAccess (accessX 0x27 9 0 40 0) = .ok (.txdet 9 40) ∧
    decodeAccess (accessX 0x28 9 0 40 0) = .ok (.txload 9 40) ∧ decodeAccess (accessX 0x29 9 63 40 0) = .ok (.dload 9 63 40) ∧
    decodeAccess (accessX 0x2A 0xFF 0 40 0) = .ok (.mbpost 0xFF 40) := by decide +kernel
theorem test_access_system_words :
    decodeAccess (accessX 0x30 0xFF 0b100110 0xFF 0) = .ok (.accessFence .full .device) ∧
    decodeAccess (accessX 0x31 0xFF 63 0xFF 4) = .ok (.accessWaitc 63 .tr) ∧
    decodeAccess (accessX 0x32 0xFF 7 5 0) = .ok (.accessBarSync 7 5) ∧ decodeAccess (accessX 0x32 0xFF 7 0xFF 2) = .ok (.accessBarWait 7) ∧
    decodeAccess (accessX 0x33 3 0x12 0xFF 0) = .ok (.accessSrd 3 0x12) ∧ decodeAccess (accessX 0x34 3 2 0xFF 0) = .ok (.accessSwr 3 2) ∧
    decodeAccess (accessX 0x35 3 0 0xFF 0) = .ok (.sete 3) ∧ decodeAccess (accessX 0x36 3 0 0xFF 0) = .ok (.setf 3) ∧
    decodeAccess (accessX 0x37 0xFF 0 0xFF 0) = .ok .accessNop ∧ decodeAccess (accessX 0x38 0xFF 63 0xFF 15) = .ok (.accessTrap 1023) ∧
    decodeAccess (accessX 0x39 0xFF 1 0xFF 2) = .ok (.accessBkpt 18) := by decide +kernel
/-- 16 R366: op, dst, srcA, srcB, f. -/
theorem test_drain_op_words :
    ∀ p ∈ [(2#5 ++ 1#2 ++ 2#3 ++ 3#3 ++ 0#3, Instr.drainMul 1 2 3), (3#5 ++ 1#2 ++ 2#3 ++ 3#3 ++ 0#3, .drainMad 1 2 3),
      (4#5 ++ 1#2 ++ 2#3 ++ 3#3 ++ 0#3, .drainMax 1 2 3), (5#5 ++ 1#2 ++ 2#3 ++ 3#3 ++ 0#3, .drainMin 1 2 3),
      (6#5 ++ 1#2 ++ 2#3 ++ 3#3 ++ 0#3, .drainClamp 1 2 3), (7#5 ++ 1#2 ++ 2#3 ++ 0#3 ++ 0#3, .drainRelu 1 2),
      (8#5 ++ 1#2 ++ 2#3 ++ 0#3 ++ 4#3, .drainFn 1 2 4), (10#5 ++ 1#2 ++ 0#3 ++ 0#3 ++ 5#3, .drainConst 1 5),
      (11#5 ++ 1#2 ++ 2#3 ++ 0#3 ++ 0#3, .drainMov 1 2), (13#5 ++ 1#2 ++ 2#3 ++ 0#3 ++ 3#3, .drainStoreb 1 2 3)],
      decodeDrain p.1 = .ok p.2 := by decide +kernel

/-- 02 R77 Table 12: encodings that are no instruction. -/
theorem test_other_words_refused :
    decodeLane 256 false (laneW 0x1B 0 0 1 2 3 0x1E1 0 0) = .error .opcode ∧
    decodeLane 256 false (laneW 0x00 7 0 1 2 3 0x1E1 0 0) = .error .fmt ∧
    decodeLane 256 false (laneW 0x00 0 0 0x1CC 2 3 0x1E1 0 0) = .error .dst ∧
    decodeAccess (accessA 0x1A 2 0xFF 4 0xFF) = .error .fn ∧ decodeAccess (accessA 0 0 192 4 5) = .error .dst := by decide +kernel
end Sys2Proof.Tests
end

