-- ==== Sys2Proof/Tests/LaneWitness.lean ====
section
/-!
SUPPORT. States and operands that meet the hypotheses of the claims about lane words, clause by clause, and effect tests of lane
words with values that the spec states.
-/
namespace Sys2Proof.Tests
open Sys2Proof.Machine
set_option Elab.async false

/-- A split of one group of 64 lanes, in a run of one word, at that word. -/
def laneState (f : Group → Group) : State :=
  { (State.reset.placeLaneWord (1#96 <<< 36)).updGroup 1 f with focus := .lane 1 0 }
def laneGroup (f : Group → Group) : Group := ((laneState f).group 1).getD default
def laneIssue (f : Group → Group) : Issue := ⟨1, 0, laneGroup f, ((laneGroup f).entry 0).getD default⟩

/-- Some operands stand ready for w in the group that f leaves. -/
abbrev canIssue (w : Lane) (f : Group → Group) (p : (Nat → Word32) → (Nat → Word32) → (Nat → Word32) → Group → Prop) : Prop :=
  ∃ a b c g, LaneReady w (laneState f) (laneIssue f) a b c g ∧ p a b c g

theorem witness_ready : canIssue (lane3 .s32 0 0) id (fun _ _ _ g => g.pendingIn ((laneIssue id).dst (lane3 .s32 0 0))
    ((laneIssue id).on (lane3 .s32 0 0)) = false) :=
  ⟨_, _, _, _, ⟨rfl, by decide +kernel, by decide +kernel, rfl⟩, by decide +kernel⟩

theorem witness_bare : BareReady 7 false (laneState id) (laneIssue id) := ⟨rfl, by decide +kernel, by decide +kernel⟩

/-- 03 R93: nothing is enabled at reset, so no condition traps; here 1 ÷ 0 and an addition. -/
theorem witness_float : canIssue (lane3 .f32 0 0) id (fun a b _ g => g.pendingIn ((laneIssue id).dst (lane3 .f32 0 0))
      ((laneIssue id).on (lane3 .f32 0 0)) = false ∧
    noTrap g ((laneIssue id).on (lane3 .f32 0 0)) (fun l => (perElem .f32 (fun F x y _ => fadd F .rne x y) (a l) (b l) 0).fl) ∧
    noTrap g ((laneIssue id).on (lane3 .f32 0 0)) (fun l => (perElem .f32 (fun F x _ _ => frcp F .rne x) (a l) (b l) 0).fl) ∧
    noTrap g ((laneIssue id).on (lane3 .f32 0 0)) (fun l => (⟨a l, 0⟩ : FRes).fl)) :=
  ⟨_, _, _, _, ⟨rfl, by decide +kernel, by decide +kernel, rfl⟩, by decide +kernel, by decide +kernel, by decide +kernel,
    by decide +kernel⟩

/-- 03 R88: in range and outside it on each side, for .s8 and .n8. -/
theorem witness_range : intMin .s8 ≤ -128 ∧ (-128 : Int) ≤ intMax .s8 ∧ (-129 : Int) < intMin .s8 ∧ intMax .s8 < 128 ∧
    wrapInt .s8 128 = -128 ∧ satInt .s8 128 = 127 ∧ wrapInt .n8 (-1) = 255 ∧ satInt .n8 (-1) = 0 := by decide

/-- The compares: a condition below 6, and a floating compare that raises nothing enabled. -/
theorem witness_compare : canIssue (lane2 .s32 5 0) id (fun a b _ g => (lane2 .s32 5 0).mod.toNat < 6 ∧
    noTrap g ((laneIssue id).on (lane2 .s32 5 0)) (fun l => (fcmp (ffOf .f32) 5 (a l) (b l)).2)) :=
  ⟨_, _, _, _, ⟨rfl, by decide +kernel, by decide +kernel, rfl⟩, by decide, by decide +kernel⟩

def stovLane : Lane := { lane1 .b32 0 1 with sa := .s 20 }
theorem witness_stov : canIssue stovLane id (fun _ _ _ g => g.pendingIn ((laneIssue id).dst stovLane)
    ((laneIssue id).on stovLane) = false ∧ stovLane.sa = .s 20) :=
  ⟨_, _, _, _, ⟨rfl, by decide +kernel, by decide +kernel, rfl⟩, by decide +kernel, rfl⟩

/-- 04 Table 2: each special register has its number. -/
theorem witness_special : ∀ p ∈ specialTable (laneState id) (laneIssue id), (BitVec.ofNat 32 p.1).toNat % 64 = p.1 := by
  intro p hp
  simp only [specialTable, List.mem_cons, List.not_mem_nil, or_false] at hp
  rcases hp with rfl | rfl | rfl | rfl | rfl | rfl | rfl | rfl <;> rfl

def ballotLane : Lane := { lane2 .b32 0 0 with dst := .s 20 }
theorem witness_scalar_result : canIssue ballotLane id (fun _ _ _ g => ballotLane.dst = .s 20 ∧ g.sState 20 ≠ .pending) :=
  ⟨_, _, _, _, ⟨rfl, by decide +kernel, by decide +kernel, rfl⟩, rfl, by decide +kernel⟩

/-- VTOS: only the lowest active lane need be full; here V2 is empty in lane 5. -/
theorem witness_vtos : BareReady 7 false (laneState (fun g => g.setVState 2 5 .empty)) (laneIssue (fun g => g.setVState 2 5 .empty)) ∧
    ∃ a b c g, (laneState (fun g => g.setVState 2 5 .empty)).fetchLane (laneIssue (fun g => g.setVState 2 5 .empty)) ballotLane
      (laneBit (lowLane ((laneIssue (fun g => g.setVState 2 5 .empty)).on ballotLane))) = .ok a b c g none ∧ g.sState 20 ≠ .pending :=
  ⟨⟨rfl, by decide +kernel, by decide +kernel⟩, _, _, _, _, rfl, by decide +kernel⟩

def sumLane : Lane := { lane1 .s32 1 0 with dst := .s 20 }
theorem witness_reduction : reductionForm sumLane ∧ reductionForm (lane1 .s32 0 8) ∧ canIssue sumLane id (fun a _ _ g =>
      g.sState 20 ≠ .pending ∧ noTrap g ((laneIssue id).on sumLane)
        (fun _ => (reduceValue sumLane ((maskLanes ((laneIssue id).on sumLane)).map a)).fl)) ∧
    canIssue (lane1 .s32 0 8) id (fun a _ _ g =>
      (∀ n, (lane1 .s32 0 8).dst ≠ .s n) ∧ g.pendingIn ((laneIssue id).dst (lane1 .s32 0 8)) ((laneIssue id).on (lane1 .s32 0 8)) = false ∧
      noTrap g ((laneIssue id).on sumLane) (fun l => (scanValue (lane1 .s32 0 8) ((laneIssue id).on sumLane) a l).fl)) :=
  ⟨.inr ⟨by decide, by decide⟩, .inr ⟨by decide, by decide⟩, ⟨_, _, _, _, ⟨rfl, by decide +kernel, by decide +kernel, rfl⟩, by decide +kernel, by decide +kernel⟩,
    ⟨_, _, _, _, ⟨rfl, by decide +kernel, by decide +kernel, rfl⟩, by decide, by decide +kernel, by decide +kernel⟩⟩

/-- EMPTY, FILL and SWR. The window base that SWR requests is a multiple of 8: 65,280 is the last that leaves room for a window of
256 registers, and 65,288 the first that does not (04 R117). -/
def swrLane (n : BitVec 32) : Lane := { plainLane with sa := .v 2, imm := n }
theorem witness_register_bits : (laneIssue id).g.pendingIn ((laneIssue id).dst { plainLane with dst := .v 1 })
      ((laneIssue id).on { plainLane with dst := .v 1 }) = false ∧
    (∀ n ∈ [(0x00 : BitVec 32), 0x01, 0x02, 0x12, 0x112, 0x10], ∃ a b c g,
      LaneReady { swrLane n with sb := .zero, sc := .zero } (laneState id) (laneIssue id) a b c g) ∧
    (∃ a b c g, LaneReady (swrLane 0x10) (laneState (fun g => g.putV 2 0 65280)) (laneIssue (fun g => g.putV 2 0 65280)) a b c g ∧
      (a 0).toNat / 8 % 8192 * 8 + g.w = 65536) ∧
    (∃ a b c g, LaneReady (swrLane 0x10) (laneState (fun g => g.putV 2 0 65288)) (laneIssue (fun g => g.putV 2 0 65288)) a b c g ∧
      65536 < (a 0).toNat / 8 % 8192 * 8 + g.w) := by
  refine ⟨by decide +kernel, ?_, ⟨_, _, _, _, ⟨rfl, by decide +kernel, by decide +kernel, rfl⟩, by decide +kernel⟩,
    ⟨_, _, _, _, ⟨rfl, by decide +kernel, by decide +kernel, rfl⟩, by decide +kernel⟩⟩
  intro n hn
  simp only [List.mem_cons, List.not_mem_nil, or_false] at hn
  rcases hn with rfl | rfl | rfl | rfl | rfl | rfl <;> exact ⟨_, _, _, _, rfl, by decide +kernel, by decide +kernel, rfl⟩

/-- 02 R60: P0 holds no lane at reset. -/
theorem witness_no_lane : (laneState id).issuer = some (laneIssue id) ∧ (laneIssue id).commitWait = false ∧
    (laneIssue id).on { okAdd with gp := 0 } = 0 := ⟨rfl, by decide +kernel, by decide +kernel⟩

/-- 04 R125: V2 empty in lane 5, under each empty policy. -/
theorem witness_empty_source :
    (laneState (fun g => g.setVState 2 5 .empty)).fetchLane (laneIssue (fun g => g.setVState 2 5 .empty)) okAdd
      ((laneIssue (fun g => g.setVState 2 5 .empty)).on okAdd) = .hold ∧
    (laneState (fun g => g.setVState 2 5 .empty)).fetchLane (laneIssue (fun g => g.setVState 2 5 .empty)) { okAdd with epa := true }
      ((laneIssue (fun g => g.setVState 2 5 .empty)).on okAdd) = .trap 0x20 := ⟨rfl, rfl⟩

/-- An enabled condition: DZ of 1 ÷ 0 in lane 5, before the commit point and after it. -/
def dzGroup (cmt : Nat) (g : Group) : Group :=
  { ((g.putV 2 5 0x3F800000).updEntry 0 (fun en => { en with cmt := cmt, run := [0, 0, 0], runpos := cmt })) with
    fpEnable := [(5, DZ)] }
theorem witness_condition : ∀ n ∈ [0, 1], canIssue (lane2 .f32 0 0) (dzGroup n) (fun a b c g =>
    (g.fpTrap ((laneIssue (dzGroup n)).on (lane2 .f32 0 0))
      (fun l => (perElem .f32 (fun F x y _ => fdiv F .rne x y) (a l) (b l) (c l)).fl)) = (0x20, DZ) ∧
    (laneIssue (dzGroup n)).en.afterCommit = decide (n = 1) ∧
    g.pendingIn ((laneIssue (dzGroup n)).dst (lane2 .f32 0 0)) ((laneIssue (dzGroup n)).on (lane2 .f32 0 0)) = false) := by
  intro n hn
  simp only [List.mem_cons, List.not_mem_nil, or_false] at hn
  rcases hn with rfl | rfl <;>
    exact ⟨_, _, _, _, ⟨rfl, by decide +kernel, by decide +kernel, rfl⟩, by decide +kernel, by decide +kernel, by decide +kernel⟩

theorem witness_precise_trap : (laneState id).group 1 = some (laneGroup id) ∧ (laneGroup id).entry 0 = some (laneIssue id).en :=
  ⟨rfl, rfl⟩

/-! ### Effects, with the spec's values. Sources V2, V3, V4; result V1 -/

/-- What V1 of lane l holds after i, in the group that f leaves. -/
def v1After (f : Group → Group) (i : Instr) (l : Nat) : Option Word32 :=
  match exec i (laneState f) with
  | .next s => (s.group 1).map (fun g => g.getV 1 l)
  | _ => none
def twoIn (l : Nat) (a b : Word32) (g : Group) : Group := (g.putV 2 l a).putV 3 l b

/-- 05 R137, R138: wrapping, saturation, division by zero and the most negative dividend. -/
theorem test_add_wraps : v1After (twoIn 3 127 1) (.add (lane2 .s8 0 0)) 3 = some 0xFFFFFF80 := by decide +kernel
theorem test_add_saturates : v1After (twoIn 3 127 1) (.add (lane2 .s8 1 0)) 3 = some 127 := by decide +kernel
theorem test_div_zero : v1After (twoIn 3 0xFFFFFFFF 0) (.div (lane2 .s32 0 0)) 3 = some 0x80000000 := by decide +kernel
theorem test_div_corner : v1After (twoIn 3 0x80000000 0xFFFFFFFF) (.div (lane2 .s32 1 0)) 3 = some 0x7FFFFFFF := by decide +kernel
/-- 05 R140. -/
theorem test_shr_all : v1After (twoIn 3 0x80000000 40) (.shr (lane2 .s32 0 0)) 3 = some 0xFFFFFFFF := by decide +kernel
/-- 05 R141: POS 4, WID 8. -/
theorem test_bfx_signed : v1After (twoIn 3 0xFF0 0x804) (.bfx (lane2 .s32 0 0)) 3 = some 0xFFFFFFFF := by decide +kernel
/-- 05 R142: bytes 7, 0 and the sign of byte 4. -/
theorem test_bperm : v1After (fun g => (twoIn 3 0x00000011 0x22000080 g).putV 4 3 0x0C07) (.bperm (lane3 .b32 0 0)) 3 = some 0x11FF1122 := by
  decide +kernel

/-- 05 R161 Table 13: the worked keys, lane 6 in another split. -/
def matchGroup (g : Group) : Group :=
  let keys : List Word32 := [0, 0x3FC00000, 0x80000000, 0x7FC00000, 0x3FC00000, 0x7F800001, 0x3FC00000, 0x40000000]
  { (lanes64.zip keys).foldl (fun g p => g.putV 2 p.1 p.2) g with
    table := upd g.table 0 (fun en => { en with mask := 0xBF }) }
theorem test_vmatch_lead : [0, 1, 2, 3, 4, 5, 7].map (v1After matchGroup (.vmatch (lane1 .f32 0 0))) =
    [0, 1, 0, 3, 1, 3, 7].map some := by decide +kernel
theorem test_vmatch_mask : [0, 1, 2, 3, 4, 5, 7].map (v1After matchGroup (.vmatch (lane1 .f32 0 2))) =
    [0x05, 0x12, 0x05, 0x28, 0x12, 0x28, 0x80].map some := by decide +kernel

/-- 05 R162: the float sum of 2^24, 1, 1, 1 is 2^24; of 1, 1, 1, 2^24 it is 2^24 + 4. -/
def sumGroup (vs : List Word32) (g : Group) : Group :=
  { (lanes64.zip vs).foldl (fun g p => g.putV 2 p.1 p.2) g with table := upd g.table 0 (fun en => { en with mask := 0xF }) }
theorem test_vreduce_down : v1After (sumGroup [0x4B800000, 0x3F800000, 0x3F800000, 0x3F800000]) (.vreduce (lane1 .f32 0 0)) 2 =
    some 0x4B800000 := by decide +kernel
theorem test_vreduce_up : v1After (sumGroup [0x3F800000, 0x3F800000, 0x3F800000, 0x4B800000]) (.vreduce (lane1 .f32 0 0)) 2 =
    some 0x4B800002 := by decide +kernel
/-- 05 R163: an exclusive scan gives the first lane the identity and each later one the inclusive value before it. -/
theorem test_vscan_exclusive : [0, 1, 2, 3].map (v1After (sumGroup [5, 6, 7, 8]) (.vscan (lane1 .s32 0 8))) =
    [0, 5, 11, 18].map some := by decide +kernel

/-- 05 R146: 1 ÷ 0 is +∞; an exact tie goes to even. -/
theorem test_float_div : v1After (twoIn 3 0x3F800000 0) (.divFloat (lane2 .f32 0 0)) 3 = some 0x7F800000 := by decide +kernel
theorem test_float_add_tie : v1After (twoIn 3 0x4B800000 0x3F800000) (.addFloat (lane2 .f32 0 0)) 3 = some 0x4B800000 := by
  decide +kernel

end Sys2Proof.Tests
end

