-- ==== Sys2Proof/Tests/UnitWitness.lean ====
section
/-!
SUPPORT. States and operands that meet the hypotheses of the claims about memory, control, matrix, tree and synchronisation words of
lanes, clause by clause.
-/
namespace Sys2Proof.Tests
open Sys2Proof.Machine
set_option Elab.async false

theorem ofAny {α : Type} {o : Option α} {p : α → Bool} (h : o.any p = true) : ∃ x, o = some x ∧ p x = true := by
  cases o with
  | none => simp at h
  | some x => exact ⟨x, rfl, by simpa using h⟩

/-- A memory word stands ready in the group that f leaves. -/
abbrev canSend (w : Lane) (cas : Bool) (f : Group → Group) (p : (Nat → Word32) → Group → Prop) : Prop :=
  ∃ off data cmp g, MemReady w (laneState f) (laneIssue f) cas off data cmp g ∧ p off g

/-- Aligned addresses, for a store and for CAS, whose DST is a source; lane 63 has the highest address. -/
theorem witness_memory_send : ∀ p ∈ [(memLane .f32 0 0, false), (memLane .b32 4 1, true)],
    canSend p.1 p.2 (fun g => g.putV 3 63 0x7FFFFFFC) (fun off g =>
      (∀ l, l < 64 → inMask ((laneIssue (fun g => g.putV 3 63 0x7FFFFFFC)).due p.1) l → (laneAddr p.1 g off l).toNat % 4 = 0 ∧
        (laneState (fun g => g.putV 3 63 0x7FFFFFFC)).ridgeGone g (laneAddr p.1 g off l) = false) ∧
      g.count .vm ≠ 63 ∧
      g.pendingIn ((laneIssue (fun g => g.putV 3 63 0x7FFFFFFC)).dst p.1) ((laneIssue (fun g => g.putV 3 63 0x7FFFFFFC)).due p.1) =
        false) := by
  intro p hp
  simp only [List.mem_cons, List.not_mem_nil, or_false] at hp
  rcases hp with rfl | rfl <;>
    exact ⟨_, _, _, _, ⟨rfl, by decide +kernel, by decide +kernel, by decide +kernel, _, rfl⟩, by decide +kernel, by decide +kernel,
      by decide +kernel⟩

/-- 13 R305: one lane's address is odd. -/
theorem witness_memory_align : canSend (memLane .f32 0 0) false (fun g => g.putV 3 5 1) (fun off g =>
    maskOf (fun l => inMask ((laneIssue (fun g => g.putV 3 5 1)).due (memLane .f32 0 0)) l &&
      decide ((laneAddr (memLane .f32 0 0) g off l).toNat % 4 ≠ 0)) = 0x20) :=
  ⟨_, _, _, _, ⟨rfl, by decide +kernel, by decide +kernel, by decide +kernel, _, rfl⟩, by decide +kernel⟩

/-- 12 R298: member 1 has departed, and S20 points into its window. -/
def goneState : State :=
  let s := laneState (fun g => g.putS 20 0xFFFFFF8001000000)
  { s with launches := upd s.launches 1 (fun l => { l with params := { l.params with width := 2 } }),
           teams := upd s.teams 1 (fun t => { t with others := [(1, .departed)] }) }
theorem witness_memory_gone : ∃ off data cmp g x, MemReady (memLane .f32 0 0) goneState x false off data cmp g ∧
    maskOf (fun l => inMask (x.due (memLane .f32 0 0)) l && decide ((laneAddr (memLane .f32 0 0) g off l).toNat % 4 ≠ 0)) = 0 ∧
    maskOf (fun l => inMask (x.due (memLane .f32 0 0)) l && goneState.ridgeGone g (laneAddr (memLane .f32 0 0) g off l)) ≠ 0 :=
  ⟨_, _, _, _, laneIssue (fun g => g.putS 20 0xFFFFFF8001000000),
    ⟨rfl, by decide +kernel, by decide +kernel, by decide +kernel, _, rfl⟩, by decide +kernel, by decide +kernel⟩

/-- No lane is due: the word was performed in every lane before a replay. -/
def allDone (g : Group) : Group := g.updEntry 0 (fun en => { en with doneIx := 1, done := BitVec.allOnes 64 })
theorem witness_memory_done : (laneState allDone).issuer = some (laneIssue allDone) ∧ (laneIssue allDone).commitWait = false ∧
    (laneIssue allDone).due (memLane .f32 0 0) = 0 := ⟨rfl, by decide +kernel, by decide +kernel⟩

/-- JMPI's and CALLI's register is full. -/
theorem witness_indirect : ∃ v b c g, (laneState id).fetch (laneIssue id) 0 ⟨.v 2, false, BitVec.allOnes 64⟩
    ⟨.zero, false, BitVec.allOnes 64⟩ ⟨.zero, false, BitVec.allOnes 64⟩ = .ok v b c g none := ⟨_, _, _, _, rfl⟩

/-- Matrix words: an aligned address; the MMA's image stands in the scratchpad. -/
def mmaLane : Lane := { plainLane with fmt := .xb8, sa := .s 20, sb := .s 21, imm := 0x850102 }
def scratchGroup (g : Group) : Group := g.putS 20 0xFFFFFF0000000000
theorem witness_matrix : canIssue mmaLane scratchGroup (fun _ _ _ g => g.count .mx ≠ 63 ∧ mmaLane.imm.getLsbD 29 = false ∧
    ∀ p ∈ matrixTable mmaLane, mxAddrOk (laneState scratchGroup) (laneIssue scratchGroup) mmaLane p.2 (g.uniform mmaLane.sa)) := by
  refine ⟨_, _, _, _, ⟨rfl, by decide +kernel, by decide +kernel, rfl⟩, by decide +kernel, by decide, ?_⟩
  intro p hp
  simp only [matrixTable, List.mem_cons, List.not_mem_nil, or_false] at hp
  have ok : ∀ g t l, (laneState scratchGroup).where' (laneIssue scratchGroup).gid = some (g, t, l) →
      inScratch l 0xFFFFFF0000000000 (aImageBytes mmaLane.fmt) = true := by
    intro g t l h
    have e : (laneState scratchGroup).where' (laneIssue scratchGroup).gid = some (laneGroup scratchGroup, Team.start 1 0 0 [0] [1] oneLaunch,
      { oneLaunch with nextTeam := 1 }) := rfl
    rw [e] at h
    obtain ⟨-, -, rfl⟩ := by simpa using h
    decide +kernel
  rcases hp with rfl | rfl | rfl | rfl
  · exact ⟨nofun, fun _ h => absurd h (by decide)⟩
  · exact ⟨fun _ => ⟨by decide +kernel, ok⟩, nofun⟩
  · exact ⟨nofun, nofun⟩
  · exact ⟨nofun, nofun⟩

/-- Tree words whose addresses need no check, and the masks at addresses that the space maps for writing. -/
theorem witness_tree : ∃ y, (laneState id).actx 1 = some y ∧ canIssue (memLane .s32 0 0) id (fun _ b c g => g.count .tr ≠ 63 ∧
    g.pendingIn (g.destOf (laneIssue id).en.wbase (memLane .s32 0 0).dst) ((laneIssue id).on (memLane .s32 0 0)) = false ∧
    ∀ p ∈ (treeTable (memLane .s32 0 0)).take 9,
      treeAddrOk (laneState id) y (treeOpOf (laneState id) (laneIssue id) (memLane .s32 0 0) y g p.2.1 p.2.2.1 p.2.2.2.2 b c)) := by
  refine ⟨_, rfl, _, _, _, _, ⟨rfl, by decide +kernel, by decide +kernel, rfl⟩, by decide +kernel, by decide +kernel, ?_⟩
  intro p hp
  simp only [treeTable, List.take, List.mem_cons, List.not_mem_nil, or_false] at hp
  rcases hp with rfl | rfl | rfl | rfl | rfl | rfl | rfl | rfl | rfl <;> trivial

/-- The tile and request addresses of AMASK, GMASK and MDRAW, in the scratchpad; the class request has a
reserved bit set, which MDRAW answers with a status. -/
def drawGroup (g : Group) : Group := g.updEntry 0 (fun en => { en with mask := 1 })
def drawState : State :=
  let s := laneState drawGroup
  { s with teams := upd s.teams 1 (fun t => { t with scratch := [(11, 0xFF)] }) }
def drawOp (y : Actx) (k : TreeKind) : TreeOp :=
  { treeOpOf drawState (laneIssue drawGroup) (memLane .s32 0 0) y (laneGroup drawGroup) k false false (fun _ => 0) (fun _ => 0) with
    a := 0xFFFFFF0000000000, c := 0xFFFFFF0000000000 }
theorem witness_tree_addresses : ∃ y, drawState.actx 1 = some y ∧ (drawState.drawCheck y (drawOp y .drawCl)).isNone = true ∧
    (drawState.drawCheck y (drawOp y (.drawTok 2))).isNone = true ∧
    drawState.writeCheck y 1024 1 (drawOp y .amask).c = none ∧ drawState.writeCheck y 4096 8 (drawOp y .amask).c = none ∧
    drawState.writeCheck y 64 2 ((drawOp y .amask).c + 32768) = none := by
  have h : (drawState.actx 1).any (fun y => (drawState.drawCheck y (drawOp y .drawCl)).isNone &&
    (drawState.drawCheck y (drawOp y (.drawTok 2))).isNone && decide (drawState.writeCheck y 1024 1 (drawOp y .amask).c = none) &&
    decide (drawState.writeCheck y 4096 8 (drawOp y .amask).c = none) &&
    decide (drawState.writeCheck y 64 2 ((drawOp y .amask).c + 32768) = none)) = true := by decide +kernel
  obtain ⟨y, e, k⟩ := ofAny h
  simp only [Bool.and_eq_true, decide_eq_true_eq] at k
  exact ⟨y, e, k.1.1.1.1, k.1.1.1.2, k.1.1.2, k.1.2, k.2⟩

/-- TRTAG: S20 holds the largest tag, and one above it. -/
theorem witness_tag : ((laneGroup (fun g => g.putS 20 0xFFFFFFFF)).uniform (.s 20)).toNat < 2 ^ 32 ∧
    2 ^ 32 ≤ ((laneGroup (fun g => g.putS 20 0x100000000)).uniform (.s 20)).toNat := by decide +kernel

/-- Fences: nothing in flight, for a narrow and a wide release; and a load in flight. -/
def oneLoad (g : Group) : Group :=
  { g with accs := [{ op := 1, stream := .lane, entry := 0, index := 1, pc := 204, lane := 3, po := BitVec.allOnes 64, fence := 0,
                      addr := 0x2000, size := 4, kind := .weak, scope := .split, nt := false, what := .load .f32 (.v 5), stage := .issued,
                      place := .cached 0, key := 0, home := 0, efmt := 0, gap := 0, record := none, faultCause := .xlate, faultSub := 0,
                      faultLevel := 0, faultAddr := 0 }] }
theorem fenceClear_nil {s : State} {gid : Nat} {g : Group} {l : List LaneAcc} {rel : Bool} {sc : Scope} (e : l = [])
    (h : rel = true → Scope.atLeastRidge sc = true → s.drainsDone gid g.coreId = true) : fenceClear s gid g l rel sc := by
  subst e
  exact ⟨fun a h => absurd h List.not_mem_nil, h⟩
theorem witness_fence : fenceClear (laneState id) 1 (laneGroup id) ((laneGroup id).earlier (some (laneIssue id).en.mask)) true .device ∧
    fenceClear (laneState id) 1 (laneGroup id) ((laneGroup id).earlier (some (laneIssue id).en.mask)) true .team ∧
    (∃ a, a ∈ (laneGroup oneLoad).earlier (some (laneIssue oneLoad).en.mask)) :=
  ⟨fenceClear_nil (by decide +kernel) (fun _ _ => by decide +kernel), fenceClear_nil (by decide +kernel) (fun _ _ => by decide +kernel),
    List.exists_mem_of_length_pos (by decide +kernel)⟩

/-- Barriers: the team is there and the record has room. -/
theorem witness_barrier : ∃ t, (laneState id).team (laneGroup id).tid = some t ∧
    ((laneState id).releaseAct (laneGroup id) .team).barRoom (laneGroup id).tid t 5 = true :=
  ofAny (p := fun t => ((laneState id).releaseAct (laneGroup id) .team).barRoom (laneGroup id).tid t 5) (by decide +kernel)

/-- 19 R405: every class of WAITC. -/
theorem witness_classes : ∀ n < 5, (Cls.ofCode (BitVec.ofNat 4 n)).isSome = true := by decide

end Sys2Proof.Tests
end

