-- ==== Sys2Proof/Tests/AccessWitness.lean ====
section
/-!
SUPPORT. States and operands that meet the hypotheses of the claims about access words, drain words and steps, clause by clause, and
effect tests with values that the spec states.
-/
namespace Sys2Proof.Tests
open Sys2Proof.Machine
set_option Elab.async false

/-- The access program of one group, at a word. -/
def accState (f : Group → Group) : State := { (State.reset.placeAccessWord 0).updGroup 1 f with focus := .access 1 }
def accGroup (f : Group → Group) : Group := ((accState f).group 1).getD default

theorem witness_access_ready : AccessReady (accState id) 1 (accGroup id) [4, 5] [3] ∧ AccessReady (accState id) 1 (accGroup id) [0xFF] [0xFF] ∧
    AccessReady (accState id) 1 (accGroup id) [] [] :=
  ⟨⟨rfl, by decide +kernel, by decide +kernel⟩, ⟨rfl, by decide +kernel, by decide +kernel⟩, ⟨rfl, by decide +kernel, by decide +kernel⟩⟩

/-- A source is empty; a destination waits for a fill. -/
theorem witness_access_hold : (accState (fun g => g.setSState 4 .empty)).accessIssuer = some (1, accGroup (fun g => g.setSState 4 .empty)) ∧
    (accGroup (fun g => g.setSState 4 .empty)).fullS 4 = false ∧
    (accState (fun g => g.setSState 3 .pending)).accessIssuer = some (1, accGroup (fun g => g.setSState 3 .pending)) ∧
    (accGroup (fun g => g.setSState 3 .pending)).busyS 3 = true := ⟨rfl, by decide +kernel, rfl, by decide +kernel⟩

/-- Memory words at an aligned and at an odd address, the second below the first by the most negative immediate. -/
theorem witness_access_memory : AccessReady (accState (fun g => g.putS 4 0x1008)) 1 (accGroup (fun g => g.putS 4 0x1008)) [4, 3] [3] ∧
    (BitVec.ofInt 64 (((accGroup (fun g => g.putS 4 0x1008)).readS 4).toNat + (0x200 : BitVec 10).toInt)).toNat % 8 = 0 ∧
    (BitVec.ofInt 64 (((accGroup (fun g => g.putS 4 0x1008)).readS 4).toNat + (0x1FF : BitVec 10).toInt)).toNat % 4 ≠ 0 :=
  ⟨⟨rfl, by decide +kernel, by decide +kernel⟩, by decide +kernel, by decide +kernel⟩

/-- Jumps: an aligned canonical target, and one that is not aligned; TRAP and BKPT: the group is not stopped. -/
theorem witness_access_jump : (accState (fun g => g.putS 4 0xFFFFFFFFFFFFFFFC)).accessIssuer =
      some (1, accGroup (fun g => g.putS 4 0xFFFFFFFFFFFFFFFC)) ∧
    (accGroup (fun g => g.putS 4 0xFFFFFFFFFFFFFFFC)).fullS 4 = true ∧
    ((accGroup (fun g => g.putS 4 0xFFFFFFFFFFFFFFFC)).readS 4).toNat % 4 = 0 ∧
    canonical ((accGroup (fun g => g.putS 4 0xFFFFFFFFFFFFFFFC)).readS 4) = true ∧
    (accGroup (fun g => g.putS 4 0xFFFFFFFFFFFFFFFC)).busyS 191 = false ∧
    ((accGroup (fun g => g.putS 4 0x1002)).readS 4).toNat % 4 ≠ 0 ∧ (accGroup id).gstop = false ∧
    xor ((accGroup id).getK 0) false = true ∧ xor ((accGroup id).getK 0) true = false :=
  ⟨rfl, by decide +kernel, by decide +kernel, by decide +kernel, by decide +kernel, by decide +kernel, by decide +kernel,
    by decide +kernel, by decide +kernel⟩

/-- Synchronisation: nothing in flight, a count of 1,024, room at the record; and a program that waits for a phase that is done. -/
theorem witness_access_sync : fenceClear (accState id) 1 (accGroup id) ((accGroup id).earlier none) true .system ∧
    ((accGroup (fun g => g.putS 4 1024)).fullS 4 = true ∧ ((accGroup (fun g => g.putS 4 1024)).readS 4).toNat = 1024) ∧
    (∃ t, (accState id).team (accGroup id).tid = some t ∧
      ((accState id).releaseAct (accGroup id) .team).barRoom (accGroup id).tid t 31 = true) ∧ (accGroup id).aBar = none ∧
    (accGroup (fun g => { g with aBar := some ⟨5, 0⟩ })).aBar = some ⟨5, 0⟩ ∧
    (accState (fun g => { g with aBar := some ⟨5, 0⟩ })).barsDone (accGroup (fun g => { g with aBar := some ⟨5, 0⟩ })) [⟨5, 0⟩] = true :=
  ⟨fenceClear_nil (by decide +kernel) (fun _ _ => by decide +kernel), ⟨by decide +kernel, by decide +kernel⟩,
    ofAny (p := fun t => ((accState id).releaseAct (accGroup id) .team).barRoom (accGroup id).tid t 31) (by decide +kernel), by decide +kernel,
    by decide +kernel, by decide +kernel⟩

/-- Engine commands: descriptors up to S191, counters below 63; for each k of 06 Table 5 with its counter. -/
theorem witness_engine : (∀ p ∈ [((0xFF : SReg), (190 : SReg), 2, none), (9, 0xFF, 0, none), (9, 184, 8, some Cls.cp), (9, 188, 4, some .cl),
      (9, 188, 4, some .tr), (9, 190, 2, some .tr), (9, 191, 1, some .mx)],
      EngineReady (accState id) 1 (accGroup id) p.1 p.2.1 p.2.2.1 p.2.2.2) ∧
    ((accGroup id).ageOf 3).busy = false ∧ (accState id).mailUsed (accGroup id).die < 256 := by
  refine ⟨?_, by decide +kernel, by decide +kernel⟩
  intro p hp
  simp only [List.mem_cons, List.not_mem_nil, or_false] at hp
  rcases hp with rfl | rfl | rfl | rfl | rfl | rfl | rfl
  · exact ⟨rfl, by decide +kernel, by decide +kernel, nofun⟩
  · exact ⟨rfl, by decide +kernel, by decide +kernel, nofun⟩
  all_goals exact ⟨rfl, by decide +kernel, by decide +kernel, fun c h => by cases h; decide +kernel⟩

/-- QPUT: 15 entries stand; the last 256 bytes of the scratchpad. -/
def fifteen (g : Group) : Group := { g.putS 4 0xFFFFFF000000FF00 with oq := [(2, List.replicate 15 ⟨[], none⟩)] }
theorem witness_qput : AccessReady (accState fifteen) 1 (accGroup fifteen) [4] [] ∧ ((accGroup fifteen).queue 2).length = 15 ∧
    ((accGroup fifteen).readS 4).toNat % 256 = 0 ∧ scratchBase ≤ ((accGroup fifteen).readS 4).toNat ∧
    ((accGroup fifteen).earlier none).isEmpty = true ∧
    ∃ w, (accState fifteen).where' 1 = some w ∧ decide (((accGroup fifteen).readS 4).toNat + 256 = scratchBase + scratchSize w.2.2) = true :=
  ⟨⟨rfl, by decide +kernel, by decide +kernel⟩, by decide +kernel, by decide +kernel, by decide +kernel, by decide +kernel,
    ofAny (by decide +kernel)⟩

/-! ### Drains (16) -/

def drainState (f : Drain → Drain) (h : MxOp → MxOp) : State :=
  let s := State.reset.placeDrainWord 0
  { s with drains := upd s.drains 1 f, mxOps := s.mxOps.map h, focus := .drain 1 }

/-- A column before the last, the last one with a row to come, and the last one of the last row; n = 8 is the widest operation. -/
theorem witness_drain_end : ((drainState id id).drainIssuer.map (fun x => (x.1.col, x.2.1.n))) = some (0, 1) ∧
    ((drainState (fun d => { d with col := 1022, row := 63 }) (fun o => { o with n := 8 })).drainIssuer.any (fun x =>
      decide (x.1.col + 1 < 128 * x.2.1.n))) = true ∧
    ((drainState (fun d => { d with col := 1023, row := 62 }) (fun o => { o with n := 8 })).drainIssuer.any (fun x =>
      decide (128 * x.2.1.n ≤ x.1.col + 1 ∧ (maskLanes x.2.1.rows).filter (fun r => decide (x.1.row < r)) = [63]))) = true ∧
    ((drainState (fun d => { d with col := 1023, row := 63 }) (fun o => { o with n := 8 })).drainIssuer.any (fun x =>
      decide (128 * x.2.1.n ≤ x.1.col + 1 ∧ (maskLanes x.2.1.rows).filter (fun r => decide (x.1.row < r)) = []))) = true := by
  decide +kernel

/-- STORE: to the scratchpad, and to an address that nothing maps; STOREB before its block's last column. -/
theorem witness_drain_store :
    ((drainState (fun d => { d with out0 := scratchBase }) id).drainIssuer.any (fun x =>
      ((drainState (fun d => { d with out0 := scratchBase }) id).actx x.2.1.gid).any (fun y =>
        (((drainState (fun d => { d with out0 := scratchBase }) id).formatCheck y .write (x.1.outAddr 0 (x.1.col * storeSize 0)) 0).isNone &&
          match (drainState (fun d => { d with out0 := scratchBase }) id).engWrite y (x.1.outAddr 0 (x.1.col * storeSize 0)) (toBytes 0 4) with
          | .ok _ _ _ => true
          | _ => false)))) = true ∧
    ((drainState id id).drainIssuer.any (fun x => ((drainState id id).actx x.2.1.gid).any (fun y =>
      ((drainState id id).formatCheck y .write (x.1.outAddr 0 (x.1.col * storeSize 0)) 0).isSome && decide (x.1.col % 32 ≠ 31)))) = true := by
  decide +kernel

/-! ### Steps (01 R31) -/

/-- The next step runs a lane word, an access word, an access word that does not decode, a drain word, and an event. -/
theorem witness_step_lane : (State.reset.withFetchWord 96 0xC9007F0F87C3E11000000000).choose.1 = .lane 1 0 ∧
    (({ (State.reset.withFetchWord 96 0xC9007F0F87C3E11000000000).choose.2 with focus := .lane 1 0 } : State).issuer.any (fun x =>
      decide (decodeLane x.g.w (decide (x.en.pos = x.en.len)) (x.en.run.getD x.en.runpos 0) =
        .ok (.nop { plainLane with last := true })))) = true := by decide +kernel
/-- NOP: op 0x37 with its register fields unused; 0x1C is unassigned (02 R76). -/
def stepsAccess (x : Nat) (p : Except Reject Instr → Bool) : Bool :=
  let s := State.reset.withFetchWord 32 x
  let s1 : State := { s.choose.2 with focus := .access 1 }
  decide (s.choose.1 = .access 1) && (s1.group 1).any (fun g => g.accessLive && (s1.actx 1).any (fun y =>
    match s1.accessWordAt y (g.apc.signExtend 64).toNat with
    | .ok _ x => p (decodeAccess x)
    | _ => false))
theorem witness_step_access : stepsAccess (0x37 * 2 ^ 26 + 0xFF * 2 ^ 18 + 0xFF * 2 ^ 4) (fun r => decide (r = .ok .accessNop)) = true ∧
    stepsAccess (0x1C * 2 ^ 26) (fun r => decide (r = .error .opcode)) = true := by decide +kernel
theorem witness_step_drain : (State.reset.withFetchWord 16 0x5800).choose.1 = .drain 1 ∧
    (({ (State.reset.withFetchWord 16 0x5800).choose.2 with focus := .drain 1 } : State).drainLive 1).any (fun x =>
      decide (decodeDrain (x.1.image.getD x.1.word 0) = .ok (.drainMov 0 0))) = true := by decide +kernel
theorem witness_step_event : ({ State.reset with agenda := [.event .perstRelease] } : State).choose.1 = .event .perstRelease ∧
    Instr.perstRelease.origin = .event := by decide +kernel

/-- A state whose memory has its canonical form, and whose step answers a next state. -/
theorem witness_memory_form : Memory.wf (State.reset.withFetchWord 96 0xC9007F0F87C3E11000000000).mem ∧
    ∃ s', step (State.reset.withFetchWord 96 0xC9007F0F87C3E11000000000) = .next s' := by
  refine ⟨by decide +kernel, ?_⟩
  have h : (match step (State.reset.withFetchWord 96 0xC9007F0F87C3E11000000000) with | .next _ => true | _ => false) = true := by decide +kernel
  split at h
  · exact ⟨_, ‹_›⟩
  · cases h

/-! ### Effects, with the spec's values -/

def sAfter (f : Group → Group) (i : Instr) (n : SReg) : Option Word64 :=
  match exec i (accState f) with
  | .next s => (s.group 1).map (fun g => g.readS n)
  | _ => none
/-- 06 R168: the quotient corners. -/
theorem test_access_div_zero : sAfter (fun g => (g.putS 4 (BitVec.ofInt 64 (-5))).putS 5 0) (.accessDiv 3 4 5) 3 = some 0x8000000000000000 := by
  decide +kernel
theorem test_access_div_corner : sAfter (fun g => (g.putS 4 0x8000000000000000).putS 5 0xFFFFFFFFFFFFFFFF) (.accessDiv 3 4 5) 3 =
    some 0x8000000000000000 := by decide +kernel
/-- 02 R76: EXTI appends 18 bits. -/
theorem test_access_exti : sAfter (fun g => g.putS 3 0x3FFFF) (.exti 3 0x15555) 3 = some 0xFFFFD5555 := by decide +kernel
/-- 06 R178: JRL's link is the next word's address. -/
theorem test_access_link : sAfter (fun g => g.putS 4 0x2000) (.jrl 4) 191 = some 0x1004 := by decide +kernel
/-- 16 R366: RELU of −1.0 is +0; CONST 2 is −∞. -/
def dAfter (f : Drain → Drain) (i : Instr) : Option Word32 :=
  match exec i (drainState f id) with
  | .next s => (look s.drains 1).map Drain.d1
  | _ => none
theorem test_drain_relu : dAfter (fun d => { d with d0 := 0xBF800000 }) (.drainRelu 1 0) = some 0 := by decide +kernel
theorem test_drain_const : dAfter id (.drainConst 1 2) = some 0xFF800000 := by decide +kernel

end Sys2Proof.Tests
end

