-- ==== Sys2Proof/Tests/FrontWitness.lean ====
section
/-!
SUPPORT. States that meet the hypotheses of the claims about the front end, clause by clause.
-/
namespace Sys2Proof.Tests
open Sys2Proof.Machine
set_option Elab.async false

/-- One group, and an address space whose first GiB is one readable and writable leaf of HBM and whose second
is one of host memory, with some bytes above its tables; partition 0
runs. -/
def feBase (m : List Host.Cell) : State :=
  { (State.reset.oneGroup id).updPart 0 (fun p => { p with tdisp := .run }) with
    mem := [(0x10000, 0x01), (0x10001, 0x20), (0x10002, 0x01), (0x12000, 0x01), (0x12001, 0x40), (0x12002, 0x01), (0x14000, 0x7B),
      (0x14010, 0x7B), (0x14015, 0x40)] ++ m }

/-- A queue with every capability, whose ring of 16 slots stands at 0x40000, with one packet pending. -/
def anyCap : Cap := ⟨0, 2 ^ 64, true⟩
def feQueue : Queue :=
  { cfg := { ring := ⟨0x40000, 1024, true⟩, rlog := 4, prio := 0, priv := false, part := 0, root := 0x10000, crec := anyCap, clog := 4,
             dcap := anyCap, xcap := anyCap, ecap := anyCap, fserv := true },
    st := .run, ridx := 0, widx := 1, seq := 0, lost := none, busy := .none }
def pktState (x : Queue) (p : Nat) : State :=
  { feBase (((List.range 64).map (fun i => (0x40000 + i, BitVec.ofNat 8 (p / 256 ^ i)))).filter (fun c => c.2 != 0)) with queues := [(3, x)] }

/-- What must hold of a packet's bytes at the ring for it to be read. -/
def pktStands (x : Queue) (p : Nat) : Bool :=
  let s := pktState x p
  (pieces 0x40000 8).all (s.feGood x.ctx) && decide (ofBytes ((pieces 0x40000 8).flatMap (fun a => s.feBytes x.ctx a 8)) = p) &&
    decide (s.queue 3 = some x) && decide (s.stage = .ready)

theorem packet_ready {x : Queue} {p : Nat} (h : pktStands x p = true) (hr : x.cfg.ring.base = 0x40000) (h0 : x.ridx = 0)
    (hs : x.st = .run) (hb : x.busy = .none) (hp : x.pending ≠ 0) :
    ∃ y, PacketReady (pktState x p) 3 x { pktState x p with tcache := y } p ∧ ({ pktState x p with tcache := y } : State).TcOk x.ctx := by
  unfold pktStands at h
  simp only [Bool.and_eq_true, decide_eq_true_eq] at h
  obtain ⟨⟨⟨h1, h2⟩, h3⟩, h4⟩ := h
  obtain ⟨y, e, k⟩ := feReads_good 8 (tcOk_nil (s := pktState x p) (c := x.ctx) rfl) h1
  refine ⟨y, ⟨h3, h4, hs, hb, hp, _, ?_, h2.symm⟩, k⟩
  rw [hr, h0]
  exact e

/-- A packet of TYPE t with fields A, B and C, and bits 15:8. -/
def pkt (t sub a b c : Nat) : Nat := t + 2 ^ 8 * sub + 2 ^ 64 * a + 2 ^ 128 * b + 2 ^ 192 * c

/-- A bad form: TYPE 6 is unknown; a good form outside its capability: DCAP's tag is clear. -/
theorem witness_bad_packet : (∃ s1, PacketReady (pktState feQueue 6) 3 feQueue s1 6) ∧ badPacket 6 = true := by
  obtain ⟨y, k, -⟩ := packet_ready (x := feQueue) (p := 6) (by decide +kernel) rfl rfl rfl rfl (by decide)
  exact ⟨⟨_, k⟩, by decide⟩
def noCaps : Queue := { feQueue with cfg := { feQueue.cfg with dcap := ⟨0, 2 ^ 64, false⟩, ecap := ⟨0, 0, true⟩ } }
theorem witness_capability : ∀ p ∈ [pkt 1 0 0x41000 0 0, pkt 2 0 0x41000 0x42000 0, pkt 3 0x60 0x41000 0x1000 0, pkt 4 0x60 0x41000 5 0,
      pkt 5 0x60 0x41000 5 0, pkt 5 0x61 0x41000 5 0],
    (∃ s1, PacketReady (pktState noCaps p) 3 noCaps s1 p) ∧ badPacket p = false ∧ capsOk noCaps.cfg p = false := by
  have one : ∀ p, pktStands noCaps p = true → ∃ s1, PacketReady (pktState noCaps p) 3 noCaps s1 p := by
    intro p h
    obtain ⟨y, k, -⟩ := packet_ready h rfl rfl rfl rfl (by decide)
    exact ⟨_, k⟩
  intro p hp
  simp only [List.mem_cons, List.not_mem_nil, or_false] at hp
  rcases hp with rfl | rfl | rfl | rfl | rfl | rfl
  all_goals exact ⟨one _ (by decide +kernel), by decide +kernel, by decide +kernel⟩
/-- Doorbells: a full ring, and one packet more. -/
theorem witness_doorbell : (pktState feQueue 0).queue 3 = some feQueue ∧ ((16 : BitVec 32) - feQueue.ridx).toNat ≤ 2 ^ feQueue.cfg.rlog ∧
    ((17 : BitVec 32) - feQueue.ridx).toNat > 2 ^ feQueue.cfg.rlog ∧ feQueue.st = .run := by decide +kernel

/-- NOP. -/
theorem witness_nop : (∃ s1, PacketReady (pktState feQueue 0) 3 feQueue s1 0) ∧ badPacket 0 = false ∧ capsOk feQueue.cfg 0 = true ∧
    pktType 0 = 0 := by
  obtain ⟨y, k, -⟩ := packet_ready (x := feQueue) (p := 0) (by decide +kernel) rfl rfl rfl rfl (by decide)
  exact ⟨⟨_, k⟩, by decide, by decide, by decide⟩

/-- The bytes of consecutive reads after the packet was read. -/
theorem reads_after {s : State} {c : Actx} {y : AMap (AMap Leaf)} (k : Nat) (va : VAddr) (h : ({ s with tcache := y } : State).TcOk c)
    (g : (pieces va k).all (s.feGood c) = true) : ∃ z, ({ s with tcache := y } : State).feReads c k va =
      .ok { s with tcache := z } ((pieces va k).flatMap (fun a => s.feBytes c a 8)) ∧ ({ s with tcache := z } : State).TcOk c := by
  have g' : (pieces va k).all (({ s with tcache := y } : State).feGood c) = true := by
    rw [show ({ s with tcache := y } : State).feGood c = s.feGood c from funext (feGood_tcache s y c)]
    exact g
  obtain ⟨z, e, t⟩ := feReads_good k h g'
  refine ⟨z, ?_, t⟩
  rw [e]
  simp only [feBytes_tcache]

/-- DISPATCH and PROLOGUE of a descriptor of zeros at 0x41000. -/
theorem witness_dispatch : ∃ s1 s2 s3 args, PacketReady (pktState feQueue (pkt 1 0 0x41000 0 0)) 3 feQueue s1 (pkt 1 0 0x41000 0 0) ∧
    ∃ head, s1.feReads feQueue.ctx 24 0x41000 = .ok s2 head ∧ capCovers feQueue.cfg.dcap 0x41000 (192 + 8 * descArgs head) = true ∧
      s2.feReads feQueue.ctx (descArgs head) (0x41000 + 192) = .ok s3 args ∧
      (descParams (head ++ args)).laneEntry.any (s3.entryHeld feQueue.ctx) = false := by
  obtain ⟨y, k, t⟩ := packet_ready (x := feQueue) (p := pkt 1 0 0x41000 0 0) (by decide +kernel) rfl rfl rfl rfl (by decide)
  obtain ⟨z, e, -⟩ := reads_after 24 0x41000 t (by decide +kernel)
  have a : descArgs ((pieces 0x41000 24).flatMap (fun a => (pktState feQueue (pkt 1 0 0x41000 0 0)).feBytes feQueue.ctx a 8)) = 0 := by
    decide +kernel
  refine ⟨_, _, { pktState feQueue (pkt 1 0 0x41000 0 0) with tcache := z }, [], k, _, e, ?_, ?_, ?_⟩
  · rw [a]; decide +kernel
  · rw [a]; rfl
  · have l : (descParams ((pieces 0x41000 24).flatMap (fun a => (pktState feQueue (pkt 1 0 0x41000 0 0)).feBytes feQueue.ctx a 8) ++ [])).laneEntry =
        [0, 0, 0, 0] := by decide +kernel
    rw [l]
    rfl
theorem witness_prologue : ∃ s1 s2 bs, PacketReady (pktState feQueue (pkt 2 0 0x41000 0x42000 7)) 3 feQueue s1 (pkt 2 0 0x41000 0x42000 7) ∧
    s1.feReads feQueue.ctx 88 0x41000 = .ok s2 bs := by
  obtain ⟨y, k, t⟩ := packet_ready (x := feQueue) (p := pkt 2 0 0x41000 0x42000 7) (by decide +kernel) rfl rfl rfl rfl (by decide)
  obtain ⟨z, e, -⟩ := reads_after 88 0x41000 t (by decide +kernel)
  exact ⟨_, _, _, k, e⟩

/-- CMAINT, plain forms and flips: a range that is not mapped (it begins in the scratchpad aperture), and one that is. -/
def maint (f base : Nat) : Nat := pkt 3 (0x60 + f) base 0x1000 0
theorem witness_cmaint_unmapped : ∀ f ∈ [0, 4], (∃ s1, PacketReady (pktState feQueue (maint f scratchBase)) 3 feQueue s1
      (maint f scratchBase) ∧ none ∈ (rangePages scratchBase 0x1000).map (s1.cmaintPage feQueue.ctx)) ∧
    badPacket (maint f scratchBase) = false ∧ bits (maint f scratchBase) 11 8 = f ∧ pktA (maint f scratchBase) = scratchBase := by
  have one : ∀ p, pktStands feQueue p = true → ∃ s1, PacketReady (pktState feQueue p) 3 feQueue s1 p ∧
      none ∈ (rangePages scratchBase 0x1000).map (s1.cmaintPage feQueue.ctx) := by
    intro p h
    obtain ⟨y, k, -⟩ := packet_ready h rfl rfl rfl rfl (by decide)
    refine ⟨_, k, List.mem_map.mpr ⟨scratchBase, by decide +kernel, ?_⟩⟩
    unfold State.cmaintPage
    rw [if_pos (.inr le_rfl)]
  intro f hf
  simp only [List.mem_cons, List.not_mem_nil, or_false] at hf
  rcases hf with rfl | rfl
  all_goals exact ⟨one _ (by decide +kernel), by decide +kernel, by decide +kernel, by decide +kernel⟩

theorem cmaintPage_of {s : State} {c : Actx} (h : s.TcOk c) {va : Nat} {l : Leaf} (k : canonical (BitVec.ofNat 64 va) = true)
    (lo : va < scratchBase) (w : s.walk c.part (BitVec.ofNat 64 va) 4 c.root = .ok l)
    (p : inHole ((l.pfn + va % l.size) / 4096 * 4096 % 2 ^ 47) = false) :
    s.cmaintPage c va = some ((l.pfn + va % l.size) / 4096 * 4096, l.home) := by
  unfold State.cmaintPage
  simp only
  rw [if_neg (by rw [k]; simp; omega), leaf_eq h, w]
  simp only
  rw [p]
  simp
/-- What a walk gives. -/
def walks (s : State) (va : VAddr) (e : Nat) : Bool :=
  match s.walk 0 va 4 0x10000 with
  | .ok l => decide (l = leafOf 2 e)
  | .error _ => false
theorem walk_of {s : State} {va : VAddr} {e : Nat} {y : AMap (AMap Leaf)} (w : walks s va e = true) :
    ({ s with tcache := y } : State).walk feQueue.ctx.part va 4 feQueue.ctx.root = .ok (leafOf 2 e) := by
  rw [walk_tcache]
  unfold walks at w
  split at w
  · rename_i l q
    rw [← of_decide_eq_true w]
    exact q
  · cases w
theorem witness_cmaint_mapped : ∀ f ∈ [2, 5, 6], (∃ s1, PacketReady (pktState feQueue (maint f 0x41000)) 3 feQueue s1
      (maint f 0x41000) ∧ (rangePages 0x41000 0x1000).map (s1.cmaintPage feQueue.ctx) = [some (0x41000, 0)]) ∧
    badPacket (maint f 0x41000) = false ∧ localHbm 0x41000 = true := by
  have one : ∀ p, pktStands feQueue p = true → walks (pktState feQueue p) 0x41000 0x7B = true → ∃ s1,
      PacketReady (pktState feQueue p) 3 feQueue s1 p ∧ (rangePages 0x41000 0x1000).map (s1.cmaintPage feQueue.ctx) = [some (0x41000, 0)] := by
    intro p h w
    obtain ⟨y, k, t⟩ := packet_ready h rfl rfl rfl rfl (by decide)
    refine ⟨_, k, ?_⟩
    rw [show rangePages 0x41000 0x1000 = [0x41000] by decide +kernel, List.map_cons, List.map_nil,
      cmaintPage_of t (by decide +kernel) (by decide +kernel) (walk_of w) (by decide +kernel),
      show (((leafOf 2 0x7B).pfn + 0x41000 % (leafOf 2 0x7B).size) / 4096 * 4096, (leafOf 2 0x7B).home) = (0x41000, 0) by decide +kernel]
  intro f hf
  simp only [List.mem_cons, List.not_mem_nil, or_false] at hf
  rcases hf with rfl | rfl | rfl
  all_goals exact ⟨one _ (by decide +kernel) (by decide +kernel), by decide +kernel, by decide +kernel⟩

/-- A flip of a page of host memory. -/
theorem witness_flip_elsewhere : (∃ s1, PacketReady (pktState feQueue (maint 5 0x40041000)) 3 feQueue s1 (maint 5 0x40041000) ∧
      (rangePages 0x40041000 0x1000).map (s1.cmaintPage feQueue.ctx) = [some (2 ^ 46 + 0x41000, 0)]) ∧
    localHbm (2 ^ 46 + 0x41000) = false := by
  obtain ⟨y, k, t⟩ := packet_ready (x := feQueue) (p := maint 5 0x40041000) (by decide +kernel) rfl rfl rfl rfl (by decide)
  refine ⟨⟨_, k, ?_⟩, by decide +kernel⟩
  have w : walks (pktState feQueue (maint 5 0x40041000)) 0x40041000 (0x7B + 2 ^ 46) = true := by decide +kernel
  rw [show rangePages 0x40041000 0x1000 = [0x40041000] by decide +kernel, List.map_cons, List.map_nil,
    cmaintPage_of t (by decide +kernel) (by decide +kernel) (walk_of w) (by decide +kernel),
    show (((leafOf 2 (0x7B + 2 ^ 46)).pfn + 0x40041000 % (leafOf 2 (0x7B + 2 ^ 46)).size) / 4096 * 4096, (leafOf 2 (0x7B + 2 ^ 46)).home) =
      (2 ^ 46 + 0x41000, 0) by decide +kernel]

/-- WAITEV: the event at 0x41000 reads 0, so a target of 0 is reached and one of 5 is not. -/
theorem witness_waitev : ∀ v ∈ [0, 5], (∃ s1 s2 bs, PacketReady (pktState feQueue (pkt 4 0xB0 0x41000 v 0)) 3 feQueue s1
      (pkt 4 0xB0 0x41000 v 0) ∧ s1.feRead feQueue.ctx 0x41000 8 = .ok s2 bs ∧ ofBytes bs = 0) ∧ badPacket (pkt 4 0xB0 0x41000 v 0) = false := by
  have one : ∀ p, pktStands feQueue p = true → (pktState feQueue p).feGood feQueue.ctx 0x41000 = true →
      ofBytes ((pktState feQueue p).feBytes feQueue.ctx 0x41000 8) = 0 → ∃ s1 s2 bs, PacketReady (pktState feQueue p) 3 feQueue s1 p ∧
        s1.feRead feQueue.ctx 0x41000 8 = .ok s2 bs ∧ ofBytes bs = 0 := by
    intro p h g z
    obtain ⟨y, k, t⟩ := packet_ready h rfl rfl rfl rfl (by decide)
    obtain ⟨u, e, -⟩ := feRead_good t (va := 0x41000) (by rw [feGood_tcache]; exact g) 8
    exact ⟨_, _, _, k, e, by rw [feBytes_tcache]; exact z⟩
  intro v hv
  simp only [List.mem_cons, List.not_mem_nil, or_false] at hv
  rcases hv with rfl | rfl
  all_goals exact ⟨one _ (by decide +kernel) (by decide +kernel) (by decide +kernel), by decide +kernel⟩

end Sys2Proof.Tests
end

