-- ==== Sys2Proof/Tests/PacketWitness.lean ====
section
/-!
SUPPORT. States that meet the hypotheses of the claims about packets of several steps, clause by clause.
-/
namespace Sys2Proof.Tests
open Sys2Proof.Machine
set_option Elab.async false

/-- A queue in a packet that takes several steps, with a program at 0x41000. -/
def busyQueue (b : Busy) : Queue := { feQueue with busy := b }
def busyState (st : QState) (b : Busy) (words : List AccessWord) : State :=
  { feBase (((words.flatMap (fun w => toBytes w.toNat 4)).zipIdx.map (fun x => (0x41000 + x.2, x.1))).filter (fun c => c.2 != 0)) with
    queues := [(3, { busyQueue b with st := st })] }

/-- One word of a pass, by the tables alone. -/
theorem pass_step {p : Pass} {c : Actx} {cap : Cap} {va base : Nat} (i : Instr) (a : (p.g.apc.signExtend 64).toNat = va)
    (b : va / 64 * 64 = base) (cov : capCovers cap va 4 = true) (t : p.s.TcOk c) (u : p.s.unitGood c .accessExec base 1 = true)
    (g : p.s.goodFor c .accessExec (BitVec.ofNat 64 va) = true) (g' : p.s.goodFor c .accessExec (BitVec.ofNat 64 (va + 4 - 1)) = true)
    (f : p.s.FcOk c base 1) (d : decodeAccess (BitVec.ofNat 32 (ofBytes (((p.s.unitBytes c base 1).drop (va % 64)).take 4))) = .ok i) :
    ∃ x y, p.step c cap = Pass.exec { p with s := p.s.caches x y } c i ∧ (p.s.caches x y).TcOk c ∧ (p.s.caches x y).FcOk c base 1 := by
  subst b
  have e : va / (64 * 1) * (64 * 1) = va / 64 * 64 := by omega
  obtain ⟨x, y, w, h, k⟩ := codeWord_good (need := .accessExec) (unit := 1) (va := va) (n := 4) t (by rw [e]; exact u) g g'
    (by rw [e]; exact f)
  rw [e] at w k
  rw [show va % (64 * 1) = va % 64 by omega] at w
  refine ⟨x, y, ?_, h, k⟩
  unfold Pass.step State.accessWordAt
  simp only [a, cov, w, d, Bool.not_true, Bool.false_eq_true, if_false]

def passOf (words : List AccessWord) : Pass :=
  ⟨(busyState .run (.prologue 0x41000 7 (List.replicate 1024 0) 0) words).frontAcquire .system, passGroup 0x41000 7 0, List.replicate 1024 0⟩
def passGood (words : List AccessWord) (va : Nat) (i : Instr) : Bool :=
  let s := (passOf words).s
  let c := feQueue.ctx
  s.unitGood c .accessExec 0x41000 1 && s.goodFor c .accessExec (BitVec.ofNat 64 va) && s.goodFor c .accessExec (BitVec.ofNat 64 (va + 4 - 1)) &&
    decide (decodeAccess (BitVec.ofNat 32 (ofBytes (((s.unitBytes c 0x41000 1).drop (va % 64)).take 4))) = .ok i)

theorem halt_word (s : State) (w : List Byte) (k : BitVec 4) (a : PC) : Pass.word ⟨s, { passGroup 0x41000 7 0 with k := k, apc := a }, w⟩ execHalt =
    .halt ⟨s, { passGroup 0x41000 7 0 with k := k, apc := a + 4, aHalted := true }, w⟩ := rfl
/-- The K registers with one bit set. -/
def kBit (n : Nat) : BitVec 4 := ((passGroup 0x41000 7 0).putK n true).k
theorem kand_one (s : State) (w : List Byte) : Pass.word ⟨s, passGroup 0x41000 7 0, w⟩ (execKand 1 0 0) =
    .go ⟨s, { passGroup 0x41000 7 0 with k := kBit 1, apc := 0x41004 }, w⟩ := rfl
theorem kand_two (s : State) (w : List Byte) : Pass.word ⟨s, passGroup 0x41000 7 0, w⟩ (execKand 2 0 0) =
    .go ⟨s, { passGroup 0x41000 7 0 with k := kBit 2, apc := 0x41004 }, w⟩ := rfl
/-- Where a pass that has set no, the first or the second of K1 and K2 ends. -/
def passEnd (s : State) (k : BitVec 4) (a : PC) : Pass := ⟨s, { passGroup 0x41000 7 0 with k := k, apc := a, aHalted := true }, List.replicate 1024 0⟩

/-- A program of HALT alone. -/
theorem pass_halts : ∃ x y, Pass.run feQueue.ctx anyCap 4096 (passOf [encodeAccess .halt]) =
    .halt (passEnd ((passOf [encodeAccess .halt]).s.caches x y) 0 0x41004) := by
  have k : passGood [encodeAccess .halt] 0x41000 .halt = true := by decide +kernel
  unfold passGood at k
  simp only [Bool.and_eq_true, decide_eq_true_eq] at k
  obtain ⟨⟨⟨k1, k2⟩, k3⟩, k4⟩ := k
  obtain ⟨x, y, e, -, -⟩ := pass_step (p := passOf [encodeAccess .halt]) (c := feQueue.ctx) (cap := anyCap) (va := 0x41000) (base := 0x41000)
    .halt (by decide +kernel) (by decide) (by decide +kernel) (tcOk_nil rfl) k1 k2 k3 (fcOk_nil rfl) k4
  refine ⟨x, y, ?_⟩
  show Pass.run _ _ (4095 + 1) _ = _
  unfold Pass.run
  rw [e]
  rfl

/-- A program of KAND Kn, K0, K0 and HALT. -/
theorem pass_sets (n : SReg) (k : BitVec 4) (hk : ∀ s w, Pass.word ⟨s, passGroup 0x41000 7 0, w⟩ (execKand n 0 0) =
      .go ⟨s, { passGroup 0x41000 7 0 with k := k, apc := 0x41004 }, w⟩)
    (h1 : passGood [encodeAccess (.kand n 0 0), encodeAccess .halt] 0x41000 (.kand n 0 0) = true)
    (h2 : passGood [encodeAccess (.kand n 0 0), encodeAccess .halt] 0x41004 .halt = true) :
    ∃ x y, Pass.run feQueue.ctx anyCap 4096 (passOf [encodeAccess (.kand n 0 0), encodeAccess .halt]) =
      .halt (passEnd ((passOf [encodeAccess (.kand n 0 0), encodeAccess .halt]).s.caches x y) k 0x41008) := by
  unfold passGood at h1 h2
  simp only [Bool.and_eq_true, decide_eq_true_eq] at h1 h2
  obtain ⟨⟨⟨k1, k2⟩, k3⟩, k4⟩ := h1
  obtain ⟨⟨⟨m1, m2⟩, m3⟩, m4⟩ := h2
  obtain ⟨x, y, e, t, f⟩ := pass_step (p := passOf [encodeAccess (.kand n 0 0), encodeAccess .halt]) (c := feQueue.ctx) (cap := anyCap)
    (va := 0x41000) (base := 0x41000) (.kand n 0 0) rfl (by decide) (by decide +kernel) (tcOk_nil rfl) k1 k2 k3 (fcOk_nil rfl) k4
  let s := (passOf [encodeAccess (.kand n 0 0), encodeAccess .halt]).s
  obtain ⟨x2, y2, e2, -, -⟩ := pass_step (p := ⟨s.caches x y, { passGroup 0x41000 7 0 with k := k, apc := 0x41004 }, List.replicate 1024 0⟩)
    (c := feQueue.ctx) (cap := anyCap) (va := 0x41004) (base := 0x41000) .halt rfl (by decide) (by decide +kernel) t
    (by rw [unitGood_caches]; exact k1) (by rw [goodFor_caches]; exact m2) (by rw [goodFor_caches]; exact m3) f
    (by unfold State.unitBytes; rw [linesOf_caches]; exact m4)
  refine ⟨x2, y2, ?_⟩
  show Pass.run _ _ (4095 + 1) _ = _
  unfold Pass.run
  rw [e]
  have hx : Pass.exec { (passOf [encodeAccess (.kand n 0 0), encodeAccess .halt]) with s := s.caches x y } feQueue.ctx (.kand n 0 0) =
      .go ⟨s.caches x y, { passGroup 0x41000 7 0 with k := k, apc := 0x41004 }, List.replicate 1024 0⟩ := hk _ _
  rw [hx]
  show Pass.run _ _ (4094 + 1) _ = _
  unfold Pass.run
  rw [e2]
  rfl
theorem passEnd_k (s : State) (k : BitVec 4) (a : PC) (n : Nat) : (passEnd s k a).g.getK n = { passGroup 0x41000 7 0 with k := k }.getK n := rfl

/-- A state that stands at a prologue pass. -/
def passState (words : List AccessWord) : State := busyState .run (.prologue 0x41000 7 (List.replicate 1024 0) 0) words
def passQueue : Queue := busyQueue (.prologue 0x41000 7 (List.replicate 1024 0) 0)
/-- What the launch of a window of zeros needs. -/
theorem launch_of (s : State) : ∃ s2, s.launchBytes 3 passQueue 0 (List.replicate 1024 0) = some s2 := by
  have l : (descParams (List.replicate 1024 0)).laneEntry = [0, 0, 0, 0] := by decide +kernel
  unfold State.launchBytes
  simp only [l]
  exact ⟨_, rfl⟩
/-- LongPacketsComplete, passes: none in XCAP; HALT alone; K1 set; K2 set. -/
theorem witness_passes :
    (∃ cap, ((passState []).queue 3 = some passQueue ∧ passQueue.st = .run ∧ (passState []).stage = .ready) ∧
      Pass.run feQueue.ctx cap 4096 (passOf []) = .stop) ∧
    (∃ e, Pass.run feQueue.ctx anyCap 4096 (passOf [encodeAccess .halt]) = .halt e ∧ e.g.getK 1 = false ∧ e.g.getK 2 = false ∧
      ∃ s2, ({ e.s with groups := (passState [encodeAccess .halt]).groups, focus := (passState [encodeAccess .halt]).focus } : State).launchBytes
        3 passQueue 0 e.win = some s2) ∧
    (∃ e, Pass.run feQueue.ctx anyCap 4096 (passOf [encodeAccess (.kand 1 0 0), encodeAccess .halt]) = .halt e ∧ e.g.getK 1 = true) ∧
    (∃ e, Pass.run feQueue.ctx anyCap 4096 (passOf [encodeAccess (.kand 2 0 0), encodeAccess .halt]) = .halt e ∧ e.g.getK 1 = false ∧
      e.g.getK 2 = true ∧ ∃ s2, ({ e.s with groups := (passState [encodeAccess (.kand 2 0 0), encodeAccess .halt]).groups,
                                            focus := (passState [encodeAccess (.kand 2 0 0), encodeAccess .halt]).focus } : State).launchBytes
        3 passQueue 0 e.win = some s2) := by
  refine ⟨⟨⟨0, 0, true⟩, ⟨by decide +kernel, rfl, rfl⟩, rfl⟩, ?_, ?_, ?_⟩
  · obtain ⟨x, y, e⟩ := pass_halts
    exact ⟨_, e, (passEnd_k _ _ _ _).trans (by decide +kernel), (passEnd_k _ _ _ _).trans (by decide +kernel), launch_of _⟩
  · obtain ⟨x, y, e⟩ := pass_sets 1 (kBit 1) kand_one (by decide +kernel) (by decide +kernel)
    exact ⟨_, e, (passEnd_k _ _ _ _).trans (by decide +kernel)⟩
  · obtain ⟨x, y, e⟩ := pass_sets 2 (kBit 2) kand_two (by decide +kernel) (by decide +kernel)
    exact ⟨_, e, (passEnd_k _ _ _ _).trans (by decide +kernel), (passEnd_k _ _ _ _).trans (by decide +kernel), launch_of _⟩
/-- CMAINT's completion, and a WAITEV's read: the event at 0x41000 reads 0 or 5. -/
theorem witness_busy : (busyState .run (.cmaint 6 0x41000 0x42000 [0x41000]) []).queue 3 = some (busyQueue (.cmaint 6 0x41000 0x42000 [0x41000])) ∧
    (busyState .run (.cmaint 4 0 0 [0x41000]) []).queue 3 = some (busyQueue (.cmaint 4 0 0 [0x41000])) := by decide +kernel
theorem witness_reread : ∀ v ∈ [5, 4], ∃ s2 bs, (busyState .wait (.waitev 0x41000 5 .system) [BitVec.ofNat 32 v]).feRead feQueue.ctx 0x41000 8 = .ok s2 bs ∧
    ofBytes bs = v ∧ (busyState .wait (.waitev 0x41000 5 .system) [BitVec.ofNat 32 v]).queue 3 =
      some { busyQueue (.waitev 0x41000 5 .system) with st := .wait } := by
  have one : ∀ w : AccessWord, (busyState .wait (.waitev 0x41000 5 .system) [w]).feGood feQueue.ctx 0x41000 = true → ∃ s2 bs,
      (busyState .wait (.waitev 0x41000 5 .system) [w]).feRead feQueue.ctx 0x41000 8 = .ok s2 bs ∧
      bs = (busyState .wait (.waitev 0x41000 5 .system) [w]).feBytes feQueue.ctx 0x41000 8 := by
    intro w h
    obtain ⟨x, e, -⟩ := feRead_good (tcOk_nil rfl) h 8
    exact ⟨_, _, e, rfl⟩
  intro v hv
  simp only [List.mem_cons, List.not_mem_nil, or_false] at hv
  rcases hv with rfl | rfl
  · obtain ⟨s2, bs, e, h⟩ := one (BitVec.ofNat 32 5) (by decide +kernel)
    exact ⟨s2, bs, e, by rw [h]; decide +kernel, by decide +kernel⟩
  · obtain ⟨s2, bs, e, h⟩ := one (BitVec.ofNat 32 4) (by decide +kernel)
    exact ⟨s2, bs, e, by rw [h]; decide +kernel, by decide +kernel⟩

/-- SIGNAL: an earlier launch of the queue stands, and none does. -/
def signalBusy : Busy := .signal true 0x41000 5 .system
theorem witness_signal : (∃ l ∈ ({ busyState .run signalBusy [] with launches := [(1, { oneLaunch with queue := 3 })] } : State).launches,
      l.2.ofQueue 3 = true) ∧
    (∀ l ∈ ({ busyState .run signalBusy [] with launches := [] } : State).launches, l.2.ofQueue 3 = false) ∧
    ∃ s2 t, ({ busyState .run signalBusy [] with launches := [] } : State).frontRelease.translate feQueue.ctx .rmw false 0x41000 = .ok (s2, t) ∧
      s2.placeHeld t.place = false ∧ (∀ chip tg, t.place ≠ .remote chip tg) ∧ s2.statusOf t.place t.key = .ok := by
  refine ⟨by decide +kernel, by decide +kernel, ?_⟩
  obtain ⟨x, e, -, p, q⟩ := translate_good (s := ({ busyState .run signalBusy [] with launches := [] } : State).frontRelease)
    (c := feQueue.ctx) (need := .rmw) (va := 0x41000) (tcOk_nil rfl) (by decide +kernel)
  exact ⟨_, _, e, p, nofun, q⟩

/-- A launch of which everything has completed, and the place of its record. -/
def doneState : State := { busyState .run .none [] with launches := [(1, { oneLaunch with queue := 3, nextTeam := 1, teamsLeft := 0, ended := true })] }
theorem witness_record : ∃ l, doneState.launch 1 = some l ∧ (l.queue = 3 ∧ l.complete = true ∧ l.ref.home = Config.chip.toNat) ∧
    doneState.wc = [] ∧ doneState.reqs = [] ∧ doneState.frontRelease.queue 3 = some (busyQueue .none) ∧
    ∃ s2, doneState.frontRelease.writeRecord 3 (busyQueue .none) l.seq l.record = some s2 := by
  refine ⟨_, rfl, ⟨rfl, by decide +kernel, rfl⟩, rfl, rfl, by decide +kernel, ?_⟩
  obtain ⟨x, e⟩ := feWrite_good (s := doneState.frontRelease) (c := feQueue.ctx) (va := 0) (tcOk_nil rfl) (by decide +kernel)
    ({ oneLaunch with queue := 3, nextTeam := 1, teamsLeft := 0, ended := true } : Launch).record
  unfold State.writeRecord
  rw [show BitVec.ofNat 64 ((busyQueue .none).cfg.crec.base + 64 * (({ oneLaunch with queue := 3, nextTeam := 1, teamsLeft := 0, ended := true } : Launch).seq %
    2 ^ (busyQueue .none).cfg.clog)) = 0 by decide +kernel, show (busyQueue .none).ctx = feQueue.ctx from rfl]
  simp only [e]
  exact ⟨_, rfl⟩
end Sys2Proof.Tests
end

