-- ==== Sys2Proof/Tests/WorkWitness.lean ====
section
/-!
SUPPORT. States that meet the hypotheses of the claims about placement, retirement, ridge members, runs and waiting splits, clause
by clause.
-/
namespace Sys2Proof.Tests
open Sys2Proof.Machine
set_option Elab.async false

/-! ### Placement -/

/-- One launch whose teams wait, and no team. -/
def waitingLaunch (f : LaunchParams → LaunchParams) (member : Nat) : Launch :=
  Launch.start 0 0 0 0 0 false false 0 0 0x10000 (f oneParams) member ⟨0, 0, 0⟩
def placeState (l : Launch) (f : Die → Die) : State :=
  ({ State.reset with launches := [(1, l)], stage := .ready } : State).updDie 1 f
theorem placement_ready {l : Launch} {f : Die → Die} {cores : List Nat} (h : ((placeState l f).launch 1 = some l ∧ (placeState l f).places = true ∧ l.waits = true ∧
      l.reserved = none ∧ (placeState l f).savedTeam 1 = false ∧
      (placeState l f).fits 1 l (fun _ => true) (fun _ _ => true) 1 cores = true) ∧
      ∀ o ∈ (placeState l f).launches, Launch.before o (1, l) = true → (placeState l f).placeable o.1 o.2 = false) :
    PlacementReady (placeState l f) 1 l 1 cores :=
  ⟨h.1.1, h.1.2.1, h.1.2.2.1, h.1.2.2.2.1, h.1.2.2.2.2.1, h.1.2.2.2.2.2, h.2⟩

/-- A team of one group; one of 17 groups of window 256 on two cores; a point too high; a ridge launch. -/
def wide (p : LaunchParams) : LaunchParams := { p with n := [16, 0, 0, 1] }
def ridge2 (p : LaunchParams) : LaunchParams := { p with width := 2, chips := [0, 5] }
theorem witness_placement :
    (PlacementReady (placeState (waitingLaunch id 0) id) 1 (waitingLaunch id 0) 1 [95] ∧
      ((placeState (waitingLaunch id 0) id).die 1).moving = none ∧
      ((placeState (waitingLaunch id 0) id).die 1).point ≤ (placeState (waitingLaunch id 0) id).pointOf 1 (waitingLaunch id 0)) ∧
    PlacementReady (placeState (waitingLaunch wide 0) id) 1 (waitingLaunch wide 0) 1 [95, 0] ∧
    (PlacementReady (placeState (waitingLaunch id 0) (fun d => { d with point := 7 })) 1 (waitingLaunch id 0) 1 [95] ∧
      (placeState (waitingLaunch id 0) (fun d => { d with point := 7 })).pointOf 1 (waitingLaunch id 0) <
        ((placeState (waitingLaunch id 0) (fun d => { d with point := 7 })).die 1).point) ∧
    (PlacementReady (placeState (waitingLaunch ridge2 0) id) 1 (waitingLaunch ridge2 0) 1 [0] ∧ (waitingLaunch ridge2 0).isRidge = true) ∧
    ((placeState (waitingLaunch id 0) (fun d => { d with moving := some 7 })).die 1).moving = some 7 :=
  ⟨⟨placement_ready (by decide +kernel), by decide +kernel, by decide +kernel⟩, placement_ready (by decide +kernel),
    ⟨placement_ready (by decide +kernel), by decide +kernel⟩, ⟨placement_ready (by decide +kernel), by decide +kernel⟩, by decide +kernel⟩

/-! ### Retirement -/

/-- One group whose lanes have all left, the last or not the last of its team. -/
def retireState (live : Nat) : State :=
  (State.reset.oneGroup (fun g => { g with left := BitVec.allOnes 64, table := [] })).updTeam 1 (fun t => { t with live := live })
theorem witness_retire : ∀ n ∈ [1, 2], ∃ g tm l, (retireState n).group 1 = some g ∧ (retireState n).team g.tid = some tm ∧
    (retireState n).launch tm.launch = some l ∧ g.lanesGone = true ∧ g.retired = false ∧ g.saved = false ∧ g.ops = [] ∧ g.accs = [] ∧
    tm.retired = false ∧ tm.others = [] ∧ tm.saved = false ∧ tm.live = n := by
  intro n hn
  simp only [List.mem_cons, List.not_mem_nil, or_false] at hn
  rcases hn with rfl | rfl <;> exact ⟨_, _, _, rfl, rfl, rfl, rfl, rfl, rfl, rfl, rfl, rfl, rfl, rfl, rfl⟩

/-! ### Ridge members -/

def someParams : RidgeParams := { launch := ⟨5, 0, 9⟩, member := 1, prio := 0, fserv := false, part := 63, params := ridge2 oneParams }
theorem witness_ridge_parameters : (0 < someParams.member ∧ someParams.member < someParams.params.width) ∧
    ∀ r ∈ [none, some 0x10000], ((({ State.reset with stage := .ready } : State).updPart 63 (fun p => { p with ridgeRoot := r })).part 63).ridgeRoot = r ∧
      ∀ l ∈ (({ State.reset with stage := .ready } : State).updPart 63 (fun p => { p with ridgeRoot := r })).launches, l.2.ref ≠ someParams.launch := by
  decide +kernel

/-- A reservation of the next position, at member 0 of two and of three, and at member 1. -/
def reservedState (w m : Nat) : State :=
  { State.reset with launches := [(1, { waitingLaunch (fun p => { p with width := w, chips := [0, 5, 6] }) m with reserved := some (0, [3]) })] }
theorem witness_ridge_replies : (∃ l, (reservedState 2 0).launch 1 = some l ∧ l.isRidge = true ∧ l.waits = true ∧ l.member = 0 ∧ 1 < l.params.width ∧
      1 ∉ l.memberTotals ∧ l.reserved = some (0, [3]) ∧ 1 ∉ l.replies ∧ l.replies.length + 1 = l.params.width - 1) ∧
    (∃ l, (reservedState 3 0).launch 1 = some l ∧ l.isRidge = true ∧ l.waits = true ∧ l.member = 0 ∧ 2 < l.params.width ∧
      l.reserved = some (0, [3]) ∧ 2 ∉ l.replies ∧ l.replies.length + 1 ≠ l.params.width - 1) ∧
    ∃ l, (reservedState 2 1).launch 1 = some l ∧ l.isRidge = true ∧ l.waits = true ∧ l.member ≠ 0 ∧ 0 < l.params.width ∧
      l.reserved = some (0, [3]) :=
  ⟨⟨_, rfl, by decide +kernel, by decide +kernel, rfl, by decide +kernel, by decide +kernel, rfl, by decide +kernel, rfl⟩,
    ⟨_, rfl, by decide +kernel, by decide +kernel, rfl, by decide +kernel, rfl, by decide +kernel, by decide +kernel⟩,
    ⟨_, rfl, by decide +kernel, by decide +kernel, by decide +kernel, by decide +kernel, rfl⟩⟩

/-- A team of a ridge launch of two members; it has departed, or it is saved. -/
def ridgeTeam (f : Team → Team) : State :=
  let s := State.reset.oneGroup id
  { s with launches := upd s.launches 1 (fun l => { l with params := ridge2 l.params }),
           teams := upd s.teams 1 (fun t => f { t with others := [(1, .live)] }) }
def savedRidge : State :=
  let s := ridgeTeam (fun t => { t with saved := true })
  { s with groups := upd s.groups 1 (fun g => { g with saved := true }) }
theorem witness_ridge_notices :
    (∃ tm l, (ridgeTeam id).teamAt 1 0 = some (1, tm) ∧ (ridgeTeam id).team 1 = some tm ∧ (ridgeTeam id).launch 1 = some l ∧ 0 < tm.live ∧
      look tm.others 1 = some .live ∧ (ridgeTeam id).reqs = [] ∧ (ridgeTeam id).wc = []) ∧
    (∃ tm, (ridgeTeam (fun t => { t with departed := true })).teamAt 1 0 = some (1, tm) ∧ 0 < tm.live ∧ tm.departed = true ∧
      (look tm.others 1).isSome = true ∧ 1 ∉ tm.acks) ∧
    ∃ tm l c, savedRidge.teamAt 1 0 = some (1, tm) ∧ savedRidge.launch 1 = some l ∧
      savedRidge.pickCores 1 l (savedRidge.returning tm) (savedRidge.resumeRoom tm 0) 0 = some c := by
  refine ⟨⟨_, _, rfl, rfl, rfl, by decide +kernel, by decide +kernel, rfl, rfl⟩, ⟨_, rfl, by decide +kernel, rfl, by decide +kernel, by decide +kernel⟩,
    ⟨_, _, [0], rfl, rfl, ?_⟩⟩
  decide +kernel

/-! ### Runs -/

/-- Three lane words from 0x42000, and a split that stands at a PC. -/
def runState (pc : PC) (ws : List LaneWord) : State :=
  (feBase (((ws.flatMap (fun w => toBytes w.toNat 12)).zipIdx.map (fun x => (0x42000 + x.2, x.1))).filter (fun c => c.2 != 0))).updGroup 1
    (fun g => g.updEntry 0 (fun en => { en with pc := pc }))
def runCtx : Actx := ⟨0x10000, 0, some 1, 1, 1, 0⟩
theorem run_stands (pc : PC) (ws : List LaneWord) : ∃ g g0 tm l en, (runState pc ws).group 1 = some g ∧ (runState pc ws).actx 1 = some runCtx ∧
    (runState pc ws).where' 1 = some (g0, tm, l) ∧ g.entry 0 = some en ∧ en.canEnter g = true ∧ en.pc = pc ∧ g.w = 256 ∧ l.params.width = 1 :=
  ⟨_, _, _, _, _, rfl, rfl, rfl, rfl, rfl, rfl, rfl, rfl⟩

/-- A lane word by the tables alone. -/
theorem lane_word {s : State} {c : Actx} {va base : Nat} (w : LaneWord) (b : va / 192 * 192 = base) (t : s.TcOk c)
    (u : s.unitGood c .laneExec base 3 = true) (g : s.goodFor c .laneExec (BitVec.ofNat 64 va) = true)
    (g' : s.goodFor c .laneExec (BitVec.ofNat 64 (va + 12 - 1)) = true) (f : s.FcOk c base 3)
    (d : BitVec.ofNat 96 (ofBytes (((s.unitBytes c base 3).drop (va % 192)).take 12)) = w) :
    ∃ x y, s.laneWord c va = .ok (s.caches x y) w ∧ (s.caches x y).TcOk c ∧ (s.caches x y).FcOk c base 3 := by
  subst b
  obtain ⟨x, y, e, h, k⟩ := codeWord_good (need := .laneExec) (unit := 3) (va := va) (n := 12) t u g g' f
  refine ⟨x, y, ?_, h, k⟩
  unfold State.laneWord
  rw [e]
  simp only
  rw [← d]

def runGood (s : State) (ws : List LaneWord) : Bool :=
  s.unitGood runCtx .laneExec 0x42000 3 && (ws.zipIdx).all (fun w =>
    let va := 0x42000 + 12 * w.2
    s.goodFor runCtx .laneExec (BitVec.ofNat 64 va) && s.goodFor runCtx .laneExec (BitVec.ofNat 64 (va + 12 - 1)) &&
      decide (BitVec.ofNat 96 (ofBytes (((s.unitBytes runCtx 0x42000 3).drop (va % 192)).take 12)) = w.1))
theorem run_word {s : State} {ws : List LaneWord} (h : runGood s ws = true) {k : Nat} {w : LaneWord} (hk : ws.zipIdx.contains (w, k) = true)
    (hb : k < 16) {x : AMap (AMap Leaf)} {y : AMap (List Nat × List Byte)} (t : (s.caches x y).TcOk runCtx) (f : (s.caches x y).FcOk runCtx 0x42000 3) :
    ∃ x' y', (s.caches x y).laneWord runCtx (0x42000 + 12 * k) = .ok (s.caches x' y') w ∧ (s.caches x' y').TcOk runCtx ∧
      (s.caches x' y').FcOk runCtx 0x42000 3 := by
  unfold runGood at h
  rw [Bool.and_eq_true] at h
  have hm := List.all_eq_true.mp h.2 (w, k) (by simpa using hk)
  simp only [Bool.and_eq_true, decide_eq_true_eq] at hm
  obtain ⟨⟨m1, m2⟩, m3⟩ := hm
  exact lane_word w (by omega) t (by rw [unitGood_caches]; exact h.1) (by rw [goodFor_caches]; exact m1) (by rw [goodFor_caches]; exact m2) f
    (by unfold State.unitBytes; rw [linesOf_caches]; exact m3)

/-- What entry at the second of three words reads: the word, the one before it, and the run up to its trailer. -/
theorem run_reads {ws : List LaneWord} {a b c : LaneWord} (e : ws = [a, b, c]) (h : runGood (runState 0x4200C ws) ws = true) :
    ∃ s1, (runState 0x4200C ws).laneWord runCtx 0x4200C = .ok s1 b ∧ ∃ s2, s1.wordBefore runCtx 0x4200C = .ok s2 a ∧
      (LaneWord.op b ≠ 0xFE → LaneWord.op c = 0xFE → ∃ s3, s2.runWords runCtx 25 0x4200C = .ok s3 ([b], some c)) := by
  subst e
  have t0 : ((runState 0x4200C [a, b, c]).caches [] []).TcOk runCtx := tcOk_nil rfl
  have f0 : ((runState 0x4200C [a, b, c]).caches [] []).FcOk runCtx 0x42000 3 := fcOk_nil rfl
  have start : runState 0x4200C [a, b, c] = (runState 0x4200C [a, b, c]).caches [] [] := rfl
  generalize runState 0x4200C [a, b, c] = s at *
  obtain ⟨x1, y1, e1, t1, f1⟩ := run_word h (k := 1) (w := b) (by simp) (by omega) t0 f0
  obtain ⟨x2, y2, e2, t2, f2⟩ := run_word h (k := 0) (w := a) (by simp) (by omega) t1 f1
  obtain ⟨x3, y3, e3, t3, f3⟩ := run_word h (k := 1) (w := b) (by simp) (by omega) t2 f2
  obtain ⟨x4, y4, e4, -, -⟩ := run_word h (k := 2) (w := c) (by simp) (by omega) t3 f3
  refine ⟨_, start ▸ e1, _, e2, fun hb hc => ⟨s.caches x4 y4, ?_⟩⟩
  show State.runWords _ _ (23 + 1 + 1) _ = _
  unfold State.runWords
  have e3' : (s.caches x2 y2).laneWord runCtx 0x4200C = .ok (s.caches x3 y3) b := e3
  have e4' : (s.caches x3 y3).laneWord runCtx (0x4200C + 12) = .ok (s.caches x4 y4) c := e4
  rw [e3']
  simp only [hb, if_false]
  unfold State.runWords
  rw [e4']
  simp only [hc, if_true]

/-- A head or trailer with LEN n and no await (02 R55). -/
def endWord (n : Nat) : LaneWord :=
  BitVec.ofNat 96 (0xFE * 2 ^ 88 + n * 2 ^ 83 + ((List.range 8).map (fun k => Operand.zero.code.toNat * 2 ^ (63 - 9 * k))).sum)
def nopWord : LaneWord := encodeLane (.nop { plainLane with last := true })

/-- RunsAreCheckedAtEntry, clause by clause: a PC that is no multiple of 12; nothing mapped there; a head there; no head before it; a
trailer with another length; a good run. -/
theorem witness_runs :
    (((1 : PC).signExtend 64).toNat % 12 ≠ 0) ∧
    (((0xC0000000 : PC).signExtend 64).toNat % 12 = 0 ∧ ∃ f, (runState 0xC0000000 []).laneWord runCtx 0xC0000000 = .fault f) ∧
    (∃ s1 x, (runState 0x4200C [endWord 1, endWord 1, nopWord]).laneWord runCtx 0x4200C = .ok s1 x ∧ LaneWord.op x = 0xFE) ∧
    (∃ s1 x s2 b, (runState 0x4200C [nopWord, nopWord, endWord 1]).laneWord runCtx 0x4200C = .ok s1 x ∧ LaneWord.op x ≠ 0xFE ∧
      s1.wordBefore runCtx 0x4200C = .ok s2 b ∧ LaneWord.op b ≠ 0xFE) ∧
    ∀ n ∈ [1, 2], ∃ s1 x s2 b s3, (runState 0x4200C [endWord 1, nopWord, endWord n]).laneWord runCtx 0x4200C = .ok s1 x ∧
      LaneWord.op x ≠ 0xFE ∧ s1.wordBefore runCtx 0x4200C = .ok s2 b ∧ LaneWord.op b = 0xFE ∧
      s2.runWords runCtx 25 0x4200C = .ok s3 ([nopWord], some (endWord n)) ∧
      (n = 1 → ∃ r, checkRun 256 false [nopWord] (some (endWord n)) = .ok r) ∧
      (n = 2 → ∃ bad, checkRun 256 false [nopWord] (some (endWord n)) = .error bad) := by
  refine ⟨by decide, ⟨by decide, ?_⟩, ?_, ?_, ?_⟩
  · have h : (match (runState 0xC0000000 []).laneWord runCtx 0xC0000000 with | .fault _ => true | _ => false) = true := by decide +kernel
    split at h
    · exact ⟨_, ‹_›⟩
    · cases h
  · obtain ⟨s1, e, -⟩ := run_reads (ws := [endWord 1, endWord 1, nopWord]) rfl (by decide +kernel)
    exact ⟨s1, _, e, by decide +kernel⟩
  · obtain ⟨s1, e, s2, e2, -⟩ := run_reads (ws := [nopWord, nopWord, endWord 1]) rfl (by decide +kernel)
    exact ⟨s1, _, s2, _, e, by decide +kernel, e2, by decide +kernel⟩
  · have good : ∃ r, checkRun 256 false [nopWord] (some (endWord 1)) = .ok r := by
      have h : (match checkRun 256 false [nopWord] (some (endWord 1)) with | .ok _ => true | _ => false) = true := by decide +kernel
      split at h
      · exact ⟨_, ‹_›⟩
      · cases h
    have bad : ∃ r, checkRun 256 false [nopWord] (some (endWord 2)) = .error r := by
      have h : (match checkRun 256 false [nopWord] (some (endWord 2)) with | .error _ => true | _ => false) = true := by decide +kernel
      split at h
      · exact ⟨_, ‹_›⟩
      · cases h
    intro n hn
    simp only [List.mem_cons, List.not_mem_nil, or_false] at hn
    rcases hn with rfl | rfl
    · obtain ⟨s1, e, s2, e2, e3⟩ := run_reads (ws := [endWord 1, nopWord, endWord 1]) rfl (by decide +kernel)
      obtain ⟨s3, e3⟩ := e3 (by decide +kernel) (by decide +kernel)
      exact ⟨s1, _, s2, _, s3, e, by decide +kernel, e2, by decide +kernel, e3, fun _ => good, fun h => absurd h (by decide)⟩
    · obtain ⟨s1, e, s2, e2, e3⟩ := run_reads (ws := [endWord 1, nopWord, endWord 2]) rfl (by decide +kernel)
      obtain ⟨s3, e3⟩ := e3 (by decide +kernel) (by decide +kernel)
      exact ⟨s1, _, s2, _, s3, e, by decide +kernel, e2, by decide +kernel, e3, fun h => absurd h (by decide), fun _ => bad⟩

/-- A split at the end of its run. -/
def doneRun (f : Entry → Entry) : State := laneState (fun g => g.updEntry 0 (fun en => f { en with runpos := en.len }))

theorem run_done {f : Entry → Entry} {p : Entry → Bool} (h : ((doneRun f).group 1).any (fun g => (g.entry 0).any (fun en => !en.join && decide (en.st = .ready) &&
      en.inRun && decide (en.runpos = en.len) && en.holds.isEmpty && !g.saved && !g.killed && g.accs.isEmpty && p en)) = true) :
    ∃ g en, RunDone (doneRun f) 1 0 g en ∧ p en = true := by
  obtain ⟨g, e, h⟩ := ofAny h
  obtain ⟨en, e2, h⟩ := ofAny h
  simp only [Bool.and_eq_true, Bool.not_eq_true', decide_eq_true_eq, List.isEmpty_iff] at h
  obtain ⟨⟨⟨⟨⟨⟨⟨⟨h1, h2⟩, h3⟩, h4⟩, h5⟩, h6⟩, h7⟩, h8⟩, h9⟩ := h
  exact ⟨g, en, ⟨e, e2, h1, h2, h3, h4, by rw [h8]; simp, h5, ⟨h6, h7⟩⟩, h9⟩

/-- CompletedRunsGoOn: no transfer; a DEADNODE noted after the commit; a base requested. -/
theorem witness_completed :
    (∃ g en, RunDone (doneRun id) 1 0 g en ∧ decide (postRecord en 0 = none ∧ en.xfer = none ∧ en.reqBase = none ∧ en.barWait = [] ∧
      en.parent = .none ∧ en.slide = none ∧ en.runAwait = []) = true) ∧
    (∃ g en, RunDone (doneRun (fun en => { en with post := [⟨.deadNode, 1, 1, 0⟩] })) 1 0 g en ∧ (postRecord en 0).isSome = true) ∧
    (∃ g en, RunDone (doneRun (fun en => { en with reqBase := some 255 })) 1 0 g en ∧
      decide (postRecord en 0 = none ∧ en.reqBase = some 255 ∧ 255 ≠ en.wbase) = true) :=
  ⟨run_done (by decide +kernel), run_done (p := fun en => (postRecord en 0).isSome) (by decide +kernel), run_done (by decide +kernel)⟩

/-- WaitingSplitsGoOn: an await that is satisfied; a join in the stack without pending lanes; a slide that waits for nothing, whose
spills fault (RSPB points nowhere) or are none; fills that fault or are none. -/
def waiting (f : Entry → Entry) (g : Group → Group) : State :=
  laneState (fun x => g (x.updEntry 0 (fun en => f { en with run := [], st := .awaitingFull })))
def sliding (a b : Nat) (moved : Bool) : State := waiting (fun en => { en with slide := some ⟨1, a, b, .goOn, moved⟩ }) id
/-- What a slide's accesses answer: 0 fault, 1 ok. -/
def slideAnswers (a b : Nat) (moved : Bool) (n : Nat) : Bool :=
  ((sliding a b moved).group 1).any (fun g => ((sliding a b moved).actx 1).any (fun c => (g.entry 0).any (fun en => en.slide.any (fun sl =>
    decide (en.st = .awaitingFull ∧ sl.moved = moved) && !(g.slideWaits sl) && !g.saved && !g.killed &&
    if moved then
      match (sliding a b moved).fillRegs c sl.lanes g (slideRegs g.w sl.src sl.dst).2.2.2 with
      | .fault _ => decide (n = 0)
      | .ok _ g1 _ => decide (n = 1 ∧ sl.after = .goOn ∧ en.resumeCtl = false ∧ en.parent = .none ∧ en.await = [] ∧ en.barWait = [] ∧ g1.entry 0 = some en)
      | .held => false
    else
      match engFold (fun s x => s.spillReg c g sl.lanes x) (sliding a b moved) (slideRegs g.w sl.src sl.dst).1 with
      | .fault _ => decide (n = 0)
      | .ok s1 _ _ => decide (n = 1 ∧ s1.group 1 = some g)
      | .held => false))))
theorem witness_waiting :
    (((waiting id id).group 1).any (fun g => (g.entry 0).any (fun en => !en.join && decide (en.st = .awaitingFull ∧ en.slide = none) && !g.saved &&
      !g.killed && g.awaitFull en && (waiting id id).barsDone g en.barWait && decide (en.parent = .none) && !en.resumeCtl)) = true) ∧
    (((waiting id (fun g => { g with stack := [(63, { Entry.fresh 1 0 0 0 .none 1 with join := true })] })).group 1).any (fun g =>
      (look g.stack 63).any (fun j => decide (j.pend = 0) && g.freeEntry.isSome && !g.saved && !g.killed)) = true) ∧
    slideAnswers 0 8 false 0 = true ∧ slideAnswers 255 0 false 1 = true ∧ slideAnswers 8 0 true 0 = true ∧ slideAnswers 0 255 true 1 = true := by
  refine ⟨by decide +kernel, by decide +kernel, by decide +kernel, by decide +kernel, by decide +kernel, by decide +kernel⟩
end Sys2Proof.Tests
end

