-- ==== Sys2Proof/Tests/EdgeWitness.lean ====
section
/-!
SUPPORT. States that meet the hypotheses of the claims about accesses between issue and performance, and about other devices and the
host, clause by clause.
-/
namespace Sys2Proof.Tests
open Sys2Proof.Machine
set_option Elab.async false

/-- A group with one access in flight, of lane 3 of split 0 or of the access program, and what the claim says of it. -/
def oneAcc (f : LaneAcc → LaneAcc) (g : Group) : Group := { g with accs := (oneLoad g).accs.map f }
def accInFlight (f : LaneAcc → LaneAcc) : State := laneState (oneAcc f)
def finds (f : LaneAcc → LaneAcc) (lane : Nat) (p : Group → Actx → LaneAcc → Bool) : Bool :=
  ((accInFlight f).group 1).any (fun g => ((accInFlight f).actx 1).any (fun c => (g.acc 1 lane).any (p g c)))
/-- Translation accepts it at a plain page, or makes it fault. -/
def accepts (f : LaneAcc → LaneAcc) (lane : Nat) (ok : Bool) (p : Group → LaneAcc → Bool) : Bool :=
  finds f lane (fun g c a => decide (a.stage = .issued) && p g a &&
    match (accInFlight f).translate c a.need (a.stream == .lane) a.addr with
    | .ok (_, t) => ok && decide (t.efmt = 0)
    | .error _ => !ok)
def inScratchpad (a : LaneAcc) : LaneAcc := { a with addr := 0xFFFFFF000000FFFC }
def ofProgram (a : LaneAcc) : LaneAcc := { a with stream := .access, lane := 0 }
def weakStore (a : LaneAcc) : LaneAcc := { a with what := .store 5 .n32 }

theorem witness_accepted :
    accepts inScratchpad 3 true (fun g a => decide (a.stream = .lane) && g.accs.all (fun b => decide (b.op = 1 → b.stage ≠ .faulted))) = true ∧
    accepts (fun a => ofProgram (weakStore (inScratchpad a))) 0 true (fun _ a => decide (a.stream = .access ∧ a.kind = .weak) && !a.isLoad) = true ∧
    accepts (fun a => ofProgram (inScratchpad a)) 0 true (fun _ a => decide (a.stream = .access) && a.isLoad) = true ∧
    accepts ofProgram 0 false (fun _ a => decide (a.stream = .access)) = true ∧
    accepts id 3 false (fun g a => decide (a.stream = .lane ∧ g.accs = [a] ∧ a.op = 1 ∧ a.lane = 3) &&
      (g.entry a.entry).any (fun en => decide (en.st = .ready))) = true := by
  refine ⟨by decide +kernel, by decide +kernel, by decide +kernel, by decide +kernel, by decide +kernel⟩

/-- Settlement, a value that has come back, and a load of a byte whose key is and is not loaded. -/
def accepted (key : Nat) (a : LaneAcc) : LaneAcc := { a with stage := .accepted, place := .cached 0, key := key }
theorem witness_completes :
    finds (fun a => weakStore (accepted 0 a)) 3 (fun _ _ a => decide (a.stage = .accepted) && !a.returns && !a.isRemote) = true ∧
    finds (fun a => { a with stage := .returned 0xFFFFFFFFFFFFFFFF }) 3 (fun _ _ a => decide (a.what = .load .f32 (.v 5) ∧
      a.stage = .returned 0xFFFFFFFFFFFFFFFF ∧ a.isAcquire = false)) = true ∧
    finds (fun a => { a with what := .rmw .add32 1 0 true (.v 5), stage := .returned 7 }) 3 (fun _ _ a =>
      decide (a.what = .rmw .add32 1 0 true (.v 5) ∧ a.stage = .returned 7)) = true ∧
    ∀ key ∈ [0, 63], finds (accepted key) 3 (fun g _ a => decide (a.what = .load .f32 (.v 5) ∧ a.stage = .accepted ∧ a.record = none) && g.mayPerform a &&
      !((accInFlight (accepted key)).placeHeld a.place) && !a.isRemote && decide (((accInFlight (accepted key)).statusOf a.place a.key = .ok) = (key = 0))) = true := by
  refine ⟨by decide +kernel, by decide +kernel, by decide +kernel, ?_⟩
  intro key hk
  simp only [List.mem_cons, List.not_mem_nil, or_false] at hk
  rcases hk with rfl | rfl
  · decide +kernel
  · decide +kernel

/-- Stores ready at each kind of place: at home with a key that is loaded and one that is not, in the scratchpad, in the cluster's cache. -/
def settledAt (p : Place) (key : Nat) (a : LaneAcc) : LaneAcc := { a with what := .store 0x123456789ABCDEF0 .n32, stage := .settled, place := p, key := key }
def storeReady (p : Place) (key : Nat) (q : LaneAcc → Bool) : Bool :=
  finds (settledAt p key) 3 (fun g _ a => decide (a.what = .store 0x123456789ABCDEF0 .n32 ∧ a.stage = .settled ∧ a.record = none) && !a.isRelease &&
    !a.isAcquire && g.accs.all (fun b => decide (b.op = 1 → b.stage ≠ .issued)) && g.mayPerform a && !((accInFlight (settledAt p key)).placeHeld a.place) &&
    decide (a.size ≤ 8) && q a)
theorem store_ready {p : Place} {key : Nat} {q : LaneAcc → Bool} (h : storeReady p key q = true) :
    ∃ c g a, StoreReady (accInFlight (settledAt p key)) 1 1 3 c g a 0x123456789ABCDEF0 ∧ a.size ≤ 8 ∧ q a = true := by
  unfold storeReady finds at h
  obtain ⟨g, e1, h⟩ := ofAny h
  obtain ⟨c, e2, h⟩ := ofAny h
  obtain ⟨a, e3, h⟩ := ofAny h
  simp only [Bool.and_eq_true, Bool.not_eq_true', decide_eq_true_eq, List.all_eq_true] at h
  obtain ⟨⟨⟨⟨⟨⟨⟨h1, h2⟩, h3⟩, h4⟩, h5⟩, h6⟩, h7⟩, h8⟩ := h
  exact ⟨c, g, a, ⟨e1, e2, e3, ⟨_, h1.1⟩, h1.2.1, h1.2.2, ⟨h2, h3⟩, h4, h5, h6⟩, h7, h8⟩
theorem witness_stores :
    (∃ c g a, StoreReady (accInFlight (settledAt (.home 0xFFC) 0)) 1 1 3 c g a 0x123456789ABCDEF0 ∧ a.size ≤ 8 ∧
      decide ((accInFlight (settledAt (.home 0xFFC) 0)).statusOf a.place a.key ≠ .keyRev) = true) ∧
    (∃ c g a, StoreReady (accInFlight (settledAt (.home 0xFFC) 9)) 1 1 3 c g a 0x123456789ABCDEF0 ∧ a.size ≤ 8 ∧
      decide ((accInFlight (settledAt (.home 0xFFC) 9)).statusOf a.place a.key = .keyRev) = true) ∧
    (∃ c g a, StoreReady (accInFlight (settledAt (.scratch 1 0xFFFC) 0)) 1 1 3 c g a 0x123456789ABCDEF0 ∧ a.size ≤ 8 ∧
      ((accInFlight (settledAt (.scratch 1 0xFFFC) 0)).team 1).isSome = true) ∧
    (∃ c g a, StoreReady (accInFlight (settledAt (.cached 0xFFC) 0)) 1 1 3 c g a 0x123456789ABCDEF0 ∧ a.size ≤ 8 ∧
      (decide (a.mode = .weak false ∧ (accInFlight (settledAt (.cached 0xFFC) 0)).statusOf a.place a.key ≠ .keyRev) &&
        !((accInFlight (settledAt (.cached 0xFFC) 0)).uncached 0xFFC)) = true) :=
  ⟨store_ready (q := fun a => decide ((accInFlight (settledAt (.home 0xFFC) 0)).statusOf a.place a.key ≠ .keyRev)) (by decide +kernel),
    store_ready (q := fun a => decide ((accInFlight (settledAt (.home 0xFFC) 9)).statusOf a.place a.key = .keyRev)) (by decide +kernel),
    store_ready (q := fun _ => ((accInFlight (settledAt (.scratch 1 0xFFFC) 0)).team 1).isSome) (by decide +kernel),
    store_ready (q := fun a => decide (a.mode = .weak false ∧ (accInFlight (settledAt (.cached 0xFFC) 0)).statusOf a.place a.key ≠ .keyRev) &&
        !((accInFlight (settledAt (.cached 0xFFC) 0)).uncached 0xFFC)) (by decide +kernel)⟩

/-- An atomic at its home, and a load and a store of another device. -/
theorem witness_atomics :
    (finds (fun a => { accepted 0 a with what := .rmw .cas 1 0 true (.v 5), place := .home 0xFFC }) 3 (fun g _ a =>
      g.mayPerform a && !a.isRelease && !a.isAcquire && decide (a.stage = .accepted ∧ g.sameWord a = [a] ∧ a.size ≤ 8 ∧
        (∀ b ∈ g.accs, b.op = 1 → b.stage ≠ .issued)) &&
      decide ((accInFlight (fun a => { accepted 0 a with what := .rmw .cas 1 0 true (.v 5), place := .home 0xFFC })).statusOf a.place a.key = .ok)) = true) ∧
    ∀ w ∈ [(AccWhat.load .f32 (.v 5), AccStage.accepted), (AccWhat.store 5 .n32, AccStage.settled)],
      finds (fun a => { a with what := w.1, stage := w.2, place := .remote 5 (.mem 0x1000) }) 3 (fun g c a =>
        g.mayPerform a && !((accInFlight (fun a => { a with what := w.1, stage := w.2, place := .remote 5 (.mem 0x1000) })).placeHeld a.place) &&
        !a.isRelease && !a.isAcquire && decide (∀ b ∈ g.accs, b.op = 1 → b.stage ≠ .issued) && decide (a.record = none) &&
        !((accInFlight (fun a => { a with what := w.1, stage := w.2, place := .remote 5 (.mem 0x1000) })).reqStopped 5 (.mem 0x1000)) &&
        ((accInFlight (fun a => { a with what := w.1, stage := w.2, place := .remote 5 (.mem 0x1000) })).wcOf g.coreId).isEmpty && decide (c.gid = some 1)) = true := by
  refine ⟨by decide +kernel, ?_⟩
  intro w hw
  simp only [List.mem_cons, List.not_mem_nil, or_false] at hw
  rcases hw with rfl | rfl
  · decide +kernel
  · decide +kernel

/-! ### Other devices and the host -/

/-- An entry in a core's buffer. -/
def oneEntry : WcEntry := { chip := 5, target := .mem 0x1000, key := 0, data := [(0, 1), (63, 2)], writers := [1] }
theorem witness_entry : (({ State.reset with wc := [(191, [oneEntry])] } : State).wcOf (coreId 1 95))[0]? = some oneEntry := by decide +kernel

/-- An arriving entry: a page that flips; a check that fails; a key that is not loaded; a good one. -/
def edgeState (m : List Host.Cell) (b : AMap Bias) (poison : List Nat) : State :=
  { State.reset.oneGroup id with mem := m, bias := b, poison := poison }
def goodCrc : BitVec 32 := crc32c ((List.range 64).map (fun i => if (1 : BitVec 64).getLsbD i then nth 0 ([7] : List Byte) i else 0))
theorem witness_arrival : (edgeState [] [(1, .toHost 0)] []).heldBias 0x1FC0 = true ∧
    ((edgeState [] [] []).heldBias 0x1FC0 = false ∧ (edgeState [] [] []).rspStopped 5 (.mem 0x1FC0) = false ∧
      crc32c ((List.range 64).map (fun i => if (1 : BitVec 64).getLsbD i then nth 0 ([7] : List Byte) i else 0)) ≠ 0 ∧
      (edgeState [] [] []).keyOk 63 0x1FC0 = false ∧ (edgeState [] [] []).keyOk 0 0x1FC0 = true) ∧
    (edgeState [] [] [0x7F]).poisoned 0x1FC0 = true ∧ (edgeState [] [] [0x7F]).poisoned 0x2000 = false := by decide +kernel

/-- A request to a window: no such team, and one. -/
theorem witness_window : (ridgeTeam id).ridgeTeam ⟨0, 0, 0⟩ 7 0 = none ∧
    (∃ tm, (ridgeTeam id).ridgeTeam ⟨0, 0, 0⟩ 0 0 = some 1 ∧ (ridgeTeam id).team 1 = some tm) ∧
    (ridgeTeam id).rspStopped 5 (.ridge ⟨0, 0, 0⟩ 0 0 0) = false :=
  ⟨by decide +kernel, ⟨_, by decide +kernel, rfl⟩, by decide +kernel⟩

/-- An answer to a load and to a store; every error has its bit. -/
def sentState (w : AccWhat) : State :=
  { accInFlight (fun a => { a with what := w, stage := .sent, place := .remote 5 (.mem 0x1000) }) with
    reqs := [(77, { who := .acc 1 1 3, chip := 5, target := .mem 0x1000, port := 0 })] }
theorem answer_ready {w : AccWhat} {q : LaneAcc → Bool} (h : ((sentState w).group 1).any (fun g => (g.acc 1 3).any (fun a =>
      decide (a.stage = .sent ∧ a.op = 1 ∧ a.lane = 3) && q a)) = true) :
    ∃ r g a, AnswerReady (sentState w) 77 1 1 3 r g a ∧ q a = true := by
  obtain ⟨g, e1, h⟩ := ofAny h
  obtain ⟨a, e2, h⟩ := ofAny h
  simp only [Bool.and_eq_true, decide_eq_true_eq] at h
  exact ⟨_, g, a, ⟨rfl, rfl, ⟨_, rfl⟩, e1, e2, h.1.1, h.1.2⟩, h.2⟩
theorem witness_answers : (∀ w ∈ [AccWhat.load .f32 (.v 5), AccWhat.store 5 .n32], ∃ r g a, AnswerReady (sentState w) 77 1 1 3 r g a ∧
      decide (a.what = w) = true) ∧
    (∀ st ∈ [RemoteStatus.memError, .keyRevoked, .crcError, .departed], (statusBit st).isSome = true) ∧ statusBit .ok = none := by
  refine ⟨?_, by decide, by decide⟩
  intro w hw
  simp only [List.mem_cons, List.not_mem_nil, or_false] at hw
  rcases hw with rfl | rfl
  · exact answer_ready (q := fun a => decide (a.what = .load .f32 (.v 5))) (by decide +kernel)
  · exact answer_ready (q := fun a => decide (a.what = .store 5 .n32)) (by decide +kernel)

/-- Ports: up with 0 and with 8 failed resends; a request over port 31. -/
theorem witness_ports : (State.reset.port 31).up = true ∧ (State.reset.port 31).fails < 8 ∧
    ((State.reset.setPort 31 { State.reset.port 31 with fails := 8 }).port 31).up = true ∧
    8 ≤ ((State.reset.setPort 31 { State.reset.port 31 with fails := 8 }).port 31).fails ∧ keysRise (sentState (.load .f32 .none)).reqs = true := by
  decide +kernel

/-- Host accesses to the last line of HBM: before READY, of another partition's bytes, of its own, of a line that is poisoned. -/
def hostState (k : AMap (Nat × Nat)) (p : List Nat) : State := { edgeState [] [] p with keyOf := k }
theorem witness_host : hbmLine (hbmEnd - 64) = true ∧ State.reset.stage ≠ .ready ∧ (hostState [] []).stage = .ready ∧
    (hostState [] []).heldBias (hbmEnd - 64) = false ∧
    ((hostState [(hbmEnd - 64, (5, 0))] []).beforeHost ((hbmEnd - 64) / 64)).ownLine 0 ((hbmEnd - 64) / 64) = false ∧
    ((hostState [] []).beforeHost ((hbmEnd - 64) / 64)).ownLine 0 ((hbmEnd - 64) / 64) = true ∧
    ((hostState [] []).beforeHost ((hbmEnd - 64) / 64)).poisoned (hbmEnd - 64) = false ∧
    ((hostState [] [(hbmEnd - 64) / 64]).beforeHost ((hbmEnd - 64) / 64)).poisoned (hbmEnd - 64) = true ∧
    ([1, 2] : List Byte) ≠ [] ∧ (hbmEnd - 64 + 62) % 64 + ([1, 2] : List Byte).length ≤ 64 := by decide +kernel

/-- Flips of page 5 at their first and last line. -/
theorem witness_flips : ∀ n ∈ [0, 63], look (edgeState [] [(5, .toHost n)] []).bias 5 = some (.toHost n) ∧
    look (edgeState [] [(5, .toDevice n true)] []).bias 5 = some (.toDevice n true) ∧
    look (edgeState [] [(5, .toDevice n false)] []).bias 5 = some (.toDevice n false) := by decide +kernel

end Sys2Proof.Tests
end

