-- ==== Sys2Proof/Tests/TreeWitness.lean ====
section
/-!
SUPPORT. States that meet the hypotheses of the claims about tree operations, broadcasts and compaction, clause by clause.
-/
namespace Sys2Proof.Tests
open Sys2Proof.Machine
set_option Elab.async false

/-- A tree operation of lane 0 of group 1 at its unit. -/
def opFor (k : TreeKind) (a b : Word64) (x : Word32) : TreeOp :=
  { id := 9, gid := 1, entry := 0, index := 1, kind := k, part := 0, die := 0, lanes := 1, dst := .v 5, a := a, b := b, c := 0,
    x := x :: List.replicate 63 0, chk := false, reply := none, noLegal := false }
/-- A tree with one node and one branch, as TRNEW makes it, and the operation. -/
def withTree (o : TreeOp) : State :=
  let s := laneState id
  { (s.trnew (opFor .trnew 5 0 0) 0x10000).1 with treeOps := [o] }
def h1 : Word64 := BitVec.ofNat 64 (handleOf 0 0 1)

theorem arrival_ready {s : State} {o : TreeOp} {q : Group → Actx → Bool} (h : s.treeOps.find? (fun p => p.id = o.id) = some o ∧ o.reply = none ∧ s.trReady o = true)
    (k : (s.group o.gid).any (fun g => (s.actx o.gid).any (fun c => !(s.setLoading o c) && q g c)) = true) :
    ∃ g c, ArrivalReady s o g c ∧ q g c = true := by
  obtain ⟨g, e1, k⟩ := ofAny k
  obtain ⟨c, e2, k⟩ := ofAny k
  simp only [Bool.and_eq_true, Bool.not_eq_true'] at k
  exact ⟨g, c, ⟨h.1, e1, e2, h.2.1, h.2.2, k.1⟩, k.2⟩

/-- TreeOperationsArrive: what a unit answers; a dead handle; a node that lives, one that does not, a number that is none; branches out of
range and dead; TRADD on the root's leaf; TRNEW with a free slot. -/
theorem witness_arrivals :
    (∃ g c, ArrivalReady (withTree (opFor .tag h1 0 0)) (opFor .tag h1 0 0) g c ∧
      ((withTree (opFor .tag h1 0 0)).performTr (opFor .tag h1 0 0) g c).isSome = true) ∧
    (∃ g c, ArrivalReady (withTree (opFor .tradd 0 0 0)) (opFor .tradd 0 0 0) g c ∧ ((opFor .tradd 0 0 0).tree (withTree (opFor .tradd 0 0 0))).isNone = true) ∧
    (∀ x ∈ [(0 : Word32), 65535, 65536], ∃ g c, ArrivalReady (withTree (opFor (.info 5) h1 0 x)) (opFor (.info 5) h1 0 x) g c ∧
      ((opFor (.info 5) h1 0 x).tree (withTree (opFor (.info 5) h1 0 x))).any (fun t => decide ((look t.2.nodes x.toNat).isSome = (x = 0)) && (look t.2.branches 0).isSome) = true) ∧
    (∀ b ∈ [(63 : Word64), 64], ∃ g c, ArrivalReady (withTree (opFor .pruneBr h1 b 0)) (opFor .pruneBr h1 b 0) g c ∧
      ((opFor .pruneBr h1 b 0).tree (withTree (opFor .pruneBr h1 b 0))).any (fun t => (look t.2.branches b.toNat).isNone) = true) ∧
    (∃ g c, ArrivalReady (withTree (opFor .tradd h1 0 0x3FFFF)) (opFor .tradd h1 0 0x3FFFF) g c ∧
      ((opFor .tradd h1 0 0x3FFFF).tree (withTree (opFor .tradd h1 0 0x3FFFF))).any (fun t => (look t.2.branches 0).any (fun br =>
        decide (br.leaf = 0) && (look t.2.nodes 0).any (fun pn => decide (t.2.nodes.length < 65536 ∧ t.2.bset pn.seg = laneBit 0 ∧ t.2.gset = 0 ∧
          t.2.layers = 0 ∧ lowestFree t.2.nodes 0 65536 = some 1 ∧ (opFor .tradd h1 0 0x3FFFF).lanes = laneBit 0)))) = true) ∧
    (∃ g c, ArrivalReady (withTree (opFor .trnew 0x3FFFF 0 0)) (opFor .trnew 0x3FFFF 0 0) g c ∧
      decide (bits (0x3FFFF : Word64).toNat 63 18 = 0 ∧ (withTree (opFor .trnew 0x3FFFF 0 0)).freeTreeSlot 0 = some 1) = true) := by
  refine ⟨?_, ?_, ?_, ?_, ?_, ?_⟩
  · exact arrival_ready (q := fun g c => ((withTree (opFor .tag h1 0 0)).performTr (opFor .tag h1 0 0) g c).isSome) (by decide +kernel) (by decide +kernel)
  · exact arrival_ready (q := fun _ _ => ((opFor .tradd 0 0 0).tree (withTree (opFor .tradd 0 0 0))).isNone) (by decide +kernel) (by decide +kernel)
  · intro x hx
    simp only [List.mem_cons, List.not_mem_nil, or_false] at hx
    rcases hx with rfl | rfl | rfl
    all_goals exact arrival_ready (by decide +kernel) (by decide +kernel)
  · intro b hb
    simp only [List.mem_cons, List.not_mem_nil, or_false] at hb
    rcases hb with rfl | rfl
    all_goals exact arrival_ready (by decide +kernel) (by decide +kernel)
  · exact arrival_ready (by decide +kernel) (by decide +kernel)
  · exact arrival_ready (by decide +kernel) (by decide +kernel)

/-- Replies: DEADNODE under .chk that holds the run; a TAG operation's; GMASK's. -/
def replied (k : TreeKind) (chk : Bool) (res : Word32) : State :=
  { laneState (fun g => { (g.updEntry 0 (fun en => { en with holds := [9] })) with tag := 0x1001 }) with
    treeOps := [{ opFor k 0x1001 0 0 with chk := chk, reply := some (List.replicate 64 res) }] }
theorem witness_replies : ∀ p ∈ [(TreeKind.tradd, true, treeErr stDEADNODE), (.tag, false, treeErr stDEADTREE), (.gmask 6, false, 0)],
    ((replied p.1 p.2.1 p.2.2).treeOps.find? (fun q => q.id = 9)).any (fun o => decide (o.reply = some (List.replicate 64 p.2.2)) &&
      ((replied p.1 p.2.1 p.2.2).group o.gid).any (fun g => (g.entry o.entry).any (fun en => en.holds.contains o.id))) = true := by
  intro p hp
  simp only [List.mem_cons, List.not_mem_nil, or_false] at hp
  rcases hp with rfl | rfl | rfl
  all_goals decide +kernel

/-- Broadcasts: one that has yet to reach the group's core, and one that has; the last acknowledgement and one before it. -/
def broadcastState (release : Bool) (reached acked : List Nat) (rows : List Nat) : State :=
  { laneState (fun g => { g with tag := 0x1001 }) with bcasts := [⟨4, release, [(1, 0)], 0, rows, reached, acked, []⟩] }
theorem witness_broadcasts :
    (∀ r ∈ [false, true], ((broadcastState r [] [] []).bcast 4).any (fun x => decide (x.release = r ∧ coreId 0 0 ∉ x.reached)) = true ∧
      ((broadcastState r [0] [] []).bcast 4).any (fun x => decide (x.release = r ∧ coreId 0 0 ∈ x.reached ∧ coreId 0 0 ∉ x.acked ∧ x.waits = [])) = true) ∧
    (((broadcastState false [] [] []).group 1).any (fun g => ((broadcastState false [] [] []).team g.tid).any (fun tm =>
      ((broadcastState false [] [] []).launch tm.launch).any (fun l => decide (g.coreId = coreId 0 0 ∧ l.part = 0) && !g.retired &&
        tagMatches g.tag [(1, 0)]))) = true) ∧
    keysRise (broadcastState false [] [] []).groups = true ∧
    (∀ g ∈ (broadcastState false [0] [] []).groups, g.2.coreId = coreId 0 0 → g.2.killed = true → g.2.accs = []) ∧
    (∀ n ∈ [190, 191], ((broadcastState true (List.range 192) (List.range n) (if n = 191 then [7] else [])).bcast 4).any (fun x =>
      decide (if n = 191 then x.acked.length + 1 = 192 else x.acked.length + 1 < 192 ∧ x.rows = [])) = true) := by
  refine ⟨by decide +kernel, by decide +kernel, by decide +kernel, by decide +kernel, by decide +kernel⟩

/-- A tree of two layers with a compaction: at its first slot, with pages that nothing maps; finished; finished without layers. -/
def compaction (finished : Bool) : Compaction :=
  ⟨[0], [(0, [4])], [4], 0, 0, 0, 1, 0, false, none, finished⟩
def compacting (layers : Nat) (finished : Bool) : State :=
  let s := withTree (opFor .tag h1 0 0)
  let b : Branch := { leaf := 0, age := 0, rows := [3], fill := 1 }
  { s with trees := upd s.trees 0 (fun t => { t with layers := layers, busy := true, branches := [(0, b)], comp := some (compaction finished) }),
           pools := [(poolKey 0 0, { kvb := 0xC0000000, lmax := 2, row0 := 0, nr := 8 })] }
theorem witness_compaction :
    ((look (compacting 2 false).trees (treeKey 0 0)).any (fun t => t.comp.any (fun k => !k.finished && !k.full &&
      decide (k.parkSet = none ∧ k.kset.length ≤ k.asgBranch) && (t.pathAt (k.kset[k.ord]?.getD 0) k.depth).isSome &&
      (look (compacting 2 false).pools (poolKey t.owner 0)).any (fun p =>
        match (compacting 2 false).copyLines (pageActx t.root t.owner 0) (slotLines p 3 ((k.row k.ord (k.depth / 16)).getD 0) k.layer 0 0) with
        | .fault _ => true
        | _ => false))) = true) ∧
    (∀ n ∈ [0, 2], (look (compacting n true).trees (treeKey 0 0)).any (fun t => t.comp.any (fun k => k.finished && decide (t.layers = n))) = true) := by
  refine ⟨by decide +kernel, by decide +kernel⟩

end Sys2Proof.Tests
end

