-- ==== Sys2Proof/Tests/EngineWitness.lean ====
section
/-!
SUPPORT. States that meet the hypotheses of the claims about the matrix sequencer, the other engines and the text engine, clause by clause.
-/
namespace Sys2Proof.Tests
open Sys2Proof.Machine
set_option Elab.async false

/-! ### The matrix sequencer (15, 16) -/

/-- An operation of group 1 on all 8 tiles and rows. -/
def mxOp (k : MxKind) (st : MxStage) : MxOp :=
  { id := 1, gid := 1, kind := k, fmt := .s8, rows := BitVec.allOnes 64, addr := 0xFFFFFF0000000000, desc := 0xFFFFFF0000004000, ti := 0, mj := 0,
    n := 8, den := true, slot := 63, stage := st, bar := none, curT := 0, curC := 0, flags := 0x10, narrow := false, pc := 204, index := 1,
    parkSet := none }
def mxState (o : MxOp) : State := { laneState id with mxOps := [o] }

theorem matrix_ready {o : MxOp} (h : (mxState o).mxOps.find? (fun p => p.id = o.id) = some o ∧ o.ti + o.n ≤ 8)
    (k : ((mxState o).group o.gid).any (fun g => ((mxState o).actx o.gid).any (fun _ => ((mxState o).team g.tid).any (fun _ =>
      (mxState o).mxReady o g))) = true) : ∃ g c tm, MatrixReady (mxState o) o g c tm := by
  obtain ⟨g, e1, k⟩ := ofAny k
  obtain ⟨c, e2, k⟩ := ofAny k
  obtain ⟨tm, e3, k⟩ := ofAny k
  exact ⟨g, c, tm, ⟨h.1, e1, e2, e3, k, h.2⟩⟩

/-- MatrixOperationsStartAndComplete: an operation of each kind whose turn has come; a macro whose tag fits, and one whose tag does not. -/
def tagged : State := { mxState (mxOp .mma .queued) with tags := [(0, .int8), (7, .bf16lo)] }
theorem witness_matrix_starts :
    (∀ k ∈ [MxKind.mldb, .mma, .mdrn, .mzero], ∃ g c tm, MatrixReady (mxState (mxOp k .queued)) (mxOp k .queued) g c tm) ∧
    tagged.mxReady (mxOp .mma .queued) (laneGroup id) = true ∧
    compatible .s8 (rd .none tagged.tags 0) (rd .none tagged.tags 1) = true ∧ rd false tagged.invs (expKey 0 0 127 3) = false ∧
    compatible .s8 (rd .none tagged.tags 7) (rd .none tagged.tags 8) = false ∧ (laneGroup id).quarterId = 0 := by
  refine ⟨?_, by decide +kernel, by decide +kernel, by decide +kernel, by decide +kernel, by decide +kernel⟩
  intro k hk
  simp only [List.mem_cons, List.not_mem_nil, or_false] at hk
  rcases hk with rfl | rfl | rfl | rfl
  all_goals exact matrix_ready (by decide +kernel) (by decide +kernel)

/-- An operation that runs, one that is finished, and a linked one. -/
theorem witness_matrix_ends :
    (mxState (mxOp .mdrn .running)).mxOps.find? (fun p => p.id = 1) = some (mxOp .mdrn .running) ∧ (mxOp .mdrn .running).stage ≠ .finished ∧
    (mxState (mxOp .mma .finished)).mxOps.find? (fun p => p.id = 1) = some (mxOp .mma .finished) ∧
    ((mxState (mxOp .mma .finished)).group 1).isSome = true ∧
    (∀ n ∈ [0, 1], (mxState { mxOp .mma .linked with bar := some ⟨31, n⟩ }).mxOps.find? (fun p => p.id = 1) =
        some { mxOp .mma .linked with bar := some ⟨31, n⟩ } ∧
      ((mxState { mxOp .mma .linked with bar := some ⟨31, n⟩ }).group 1).any (fun g => !g.saved &&
        decide ((mxState { mxOp .mma .linked with bar := some ⟨31, n⟩ }).barsDone g [⟨31, n⟩] = (n = 0))) = true) := by
  decide +kernel

/-- Drains that start: no image; a slot of another team; no scratchpad place; a descriptor whose mask stands at address 1; a good one. -/
def startState (k : MxKind) (desc : VAddr) (slot : Option Nat) (mem : List (Nat × Byte)) : State :=
  let s := mxState { mxOp k .running with desc := desc }
  { s with teams := upd s.teams 1 (fun t => { t with scratch := mem }),
           drainStore := match slot with
             | some t => [(63, ⟨true, t, List.replicate 32 0x5800⟩)]
             | none => [] }
def startIs (k : MxKind) (desc : VAddr) (slot : Option Nat) (mem : List (Nat × Byte)) (p : Launch → Team → Option DrainSlot → Bool) : Bool :=
  ((startState k desc slot mem).mxOps.find? (fun p => p.id = 1)).any (fun o => decide (o.stage = .running ∧ (o.kind = .mdrn ∨ o.kind = .mma) ∧ o.den = true) &&
    ((startState k desc slot mem).where' o.gid).any (fun w => !w.1.saved && decide (w.1.tid = 1) &&
      p w.2.2 w.2.1 (look (startState k desc slot mem).drainStore (slotKey w.1.coreId o.slot))))
theorem witness_drain_starts : ∀ k ∈ [MxKind.mdrn, .mma],
    startIs k 0xFFFFFF0000004000 none [] (fun _ _ x => x.isNone) = true ∧
    startIs k 0xFFFFFF0000004000 (some 2) [] (fun _ _ x => x.any (fun y => decide (y.owner ≠ 1))) = true ∧
    startIs k 0xFFFFFF000000FFC1 (some 1) [] (fun l _ _ => !(inScratch l 0xFFFFFF000000FFC1 64)) = true ∧
    startIs k 0xFFFFFF000000FFC0 (some 1) [(0xFFF8, 1)] (fun l t x => x.any (fun y => y.full && decide (y.owner = 1) &&
      inScratch l 0xFFFFFF000000FFC0 64 && !(drainDescOk l 8 y.image (drainDesc (t.scratchBytes 0xFFC0 64))))) = true ∧
    startIs k 0xFFFFFF000000FFC0 (some 1) [] (fun l t x => x.any (fun y => y.full && decide (y.owner = 1) &&
      inScratch l 0xFFFFFF000000FFC0 64 && drainDescOk l 8 y.image (drainDesc (t.scratchBytes 0xFFC0 64)))) = true := by
  intro k hk
  simp only [List.mem_cons, List.not_mem_nil, or_false] at hk
  rcases hk with rfl | rfl
  · decide +kernel
  · decide +kernel

/-- A command of group 1 that nothing holds. -/
def commands (s : State) (p : Group → Actx → Bool) : Bool :=
  (s.group 1).any (fun g => (s.actx 1).any (fun c => !g.saved && p g c))
theorem command_of {s : State} {p : Group → Actx → Bool} (h : commands s p = true) : ∃ g c, CommandOf s 1 g c ∧ p g c = true := by
  obtain ⟨g, e, h⟩ := ofAny h
  obtain ⟨c, e2, h⟩ := ofAny h
  simp only [Bool.and_eq_true, Bool.not_eq_true'] at h
  exact ⟨g, c, ⟨e, e2, h.1⟩, h.2⟩
def readsOk {α : Type} (x : Eng α) (p : α → Bool) : Bool :=
  match x with
  | .ok _ v .ok => p v
  | _ => false
def readsFault {α : Type} (x : Eng α) : Bool :=
  match x with
  | .fault _ => true
  | _ => false

/-- DLOAD: a bad address; a slot of another team; a good image, whose word 0 is END; and one of 32 MOVs without END. -/
def moves : List (Nat × Byte) := (List.range 32).map (fun i => (0xFFC1 + 2 * i, 0x58))
def dlOp (a : VAddr) : DlOp := { id := 4, gid := 1, token := 9, addr := a, slot := 63, parkSet := none, pc := 0 }
def dlState (a : VAddr) (owner : Nat) (mem : List (Nat × Byte)) : State :=
  let s := laneState id
  { s with dlOps := [dlOp a], drainStore := [(63, ⟨true, owner, []⟩)], teams := upd s.teams 1 (fun t => { t with scratch := mem }) }
theorem witness_dload :
    (∃ g c, CommandOf (dlState 32 1 []) 1 g c ∧ decide ((32 : VAddr).toNat % 64 ≠ 0) = true) ∧
    (∃ g c, CommandOf (dlState 64 2 []) 1 g c ∧ (look (dlState 64 2 []).drainStore (slotKey g.coreId 63)).any (fun x => x.full && decide (x.owner ≠ g.tid)) = true) ∧
    (∀ m ∈ [[], moves], ∃ g c, CommandOf (dlState 0xFFFFFF000000FFC0 1 m) 1 g c ∧
      (look (dlState 0xFFFFFF000000FFC0 1 m).drainStore (slotKey g.coreId 63)).all (fun x => decide (x.owner = g.tid)) = true ∧
      readsOk ((dlState 0xFFFFFF000000FFC0 1 m).engRead c 0xFFFFFF000000FFC0 64) (fun bs =>
        decide (drainImageBad (imageWords bs) 0 = if m = [] then none else some 31)) = true) ∧
    (dlState 32 1 []).dlOps.find? (fun p => p.id = 4) = some (dlOp 32) := by
  refine ⟨command_of (by decide +kernel), command_of (p := fun g _ => (look (dlState 64 2 []).drainStore (slotKey g.coreId 63)).any (fun x => x.full && decide (x.owner ≠ g.tid))) (by decide +kernel), ?_, by decide +kernel⟩
  intro m hm
  simp only [List.mem_cons, List.not_mem_nil, or_false] at hm
  have one : ∀ q : Group → Actx → Bool × Bool, commands (dlState 0xFFFFFF000000FFC0 1 m) (fun g c => (q g c).1 && (q g c).2) = true →
      ∃ g c, CommandOf (dlState 0xFFFFFF000000FFC0 1 m) 1 g c ∧ (q g c).1 = true ∧ (q g c).2 = true := by
    intro q h
    obtain ⟨g, c, k, h⟩ := command_of h
    exact ⟨g, c, k, by simpa using h⟩
  rcases hm with rfl | rfl
  · exact one (fun g c => (_, _)) (by decide +kernel)
  · exact one (fun g c => (_, _)) (by decide +kernel)

/-! ### The other engines (17, 11) -/

/-- AGE: the last 64 bytes of the scratchpad, which can be read, with an entry that does not fill; an address that nothing maps. -/
def ageOfBase (base len : Nat) : Age := { Age.reset with st := .run, base := base, len := len, size := 0, queue := 3, token := 9 }
def ageState (a : Age) : State := laneState (fun g => g.setAge 3 a)
def ageIs (a : Age) (p : Age → Bool) (q : Eng (List Word32) → Bool) : Bool :=
  commands (ageState a) (fun g c => !g.lanesGone && decide ((g.ageOf 3).st = .run) && p (g.ageOf 3) && !(g.queueFull (g.ageOf 3).queue) &&
    q ((ageState a).ageReads c (g.ageOf 3) (from' (g.ageOf 3).next 64)))
def midStream (a : Age) : Bool := !a.badArg && !a.halt && decide (a.err = none ∧ a.next < a.len)
theorem witness_age :
    ageIs (ageOfBase 0x1FFFF000000FFC0 63) midStream (fun x => readsOk x (fun _ => true)) = true ∧
    ageIs (ageOfBase 0x2000 64) midStream (fun x => readsFault x) = true ∧
    ageIs { ageOfBase 0x2000 64 with len := 0 } (fun a => a.badArg && decide (a.err = none)) (fun _ => true) = true ∧
    (∀ a ∈ [{ ageOfBase 0x2000 64 with halt := true }, { ageOfBase 0x2000 64 with next := 64 }],
      ageIs a (fun a => !a.badArg && decide (a.err = none ∧ (a.halt = true ∨ a.len ≤ a.next))) (fun _ => true) = true) := by
  refine ⟨by decide +kernel, by decide +kernel, by decide +kernel, ?_⟩
  intro a ha
  simp only [List.mem_cons, List.not_mem_nil, or_false] at ha
  rcases ha with rfl | rfl
  · decide +kernel
  · decide +kernel

/-- CPND: a reserved bit; a padded element outside its bounds, written to the scratchpad; the same to an address that nothing maps. -/
def cpOp (r0 dst : Word64) : CpOp := { id := 4, gid := 1, token := 9, desc := [r0, dst, 0, 0, 0, 0, 0, 0], written := 0, parkSet := none, pc := 0 }
def cpState (r0 dst : Word64) : State := { laneState id with cpOps := [cpOp r0 dst] }
def cpIs (r0 dst : Word64) (p : State × Nat × Option CpFault → Bool) : Bool :=
  commands (cpState r0 dst) (fun _ c => ((cpState r0 dst).cpOps.find? (fun p => p.id = 4)).any (fun o => !(cpDesc o.desc).bad &&
    decide (o.parkSet = none ∧ (∀ q ∈ (cpState r0 dst).cpOps, q.gid = o.gid → 4 ≤ q.id) ∧ o.written ≤ (cpDesc o.desc).total) &&
    p ((cpState r0 dst).cpWalk (cpState r0 dst) c o (cpDesc o.desc) ((cpDesc o.desc).total - o.written) o.written)))
theorem witness_copy :
    (cpDesc (cpOp 0xC000000000000000 0).desc).bad = true ∧ (cpDesc (cpOp 0x2000000000000000 0).desc).bad = true ∧
    cpIs 0x1000000000000000 0x1FFFF000000FFFF (fun x => decide (x.2 = (1, none))) = true ∧
    cpIs 0x1000000000000000 0x2000 (fun x => decide (x.2.1 = 0) && x.2.2.isSome) = true := by
  refine ⟨by decide +kernel, by decide +kernel, by decide +kernel, by decide +kernel⟩

/-- COLL: a result that stands; a member that departed; a list of this chip and chip 5, read from the scratchpad, whose peer agrees
or not (whether both chips are of the partition is a constant without a value: one clause or the other applies); a result to write. -/
def collOp (f : CollOp → CollOp) : CollOp :=
  f { id := 4, gid := 1, token := 9, op := 2, bf16 := false, src := 0xFFFFFF0000000040, dst := 0xFFFFFF000000FFF8, n := 1, m := 2, cid := 7,
      listAddr := 0xFFFFFF0000000000, chips := [], me := 0, out := [], outAt := 0, matched := false, parkSet := none, result := none, pc := 0 }
def collState (f : CollOp → CollOp) : State :=
  let s := laneState id
  { s with collOps := [collOp f], teams := upd s.teams 1 (fun t => { t with scratch := [(2, 5)] }) }
def collIs (f : CollOp → CollOp) (p : Actx → CollOp → Bool) : Bool :=
  commands (collState f) (fun _ c => ((collState f).collOps.find? (fun p => p.id = 4)).any (fun o => decide (o.parkSet = none) && p c o))
def goodPeer (n : Nat) : CollPeer := { index := 1, op := 2, bf16 := false, n := n, m := 2, chips := [0, 5], data := [1] }
theorem witness_collective :
    collIs (fun o => { o with result := some 3 }) (fun _ o => decide (o.result = some 3)) = true ∧
    (∃ p ∈ [goodPeer 1, { goodPeer 1 with chips := [] }], p.chips = []) ∧
    collIs id (fun c o => decide (o.result = none ∧ o.matched = false) && match (collState id).collReads c 2 o.m 0 o.listAddr with
      | .ok (s1, l, st) => decide (l = [0, 5] ∧ st = .ok ∧ (∀ x ∈ l, x < 512) ∧
          l.zipIdx.filter (fun p => p.1 = Config.chip.toNat) = [(Config.chip.toNat, 0)] ∧ [goodPeer 1].length = o.m - 1 ∧
          (∀ j, j < o.m → j = 0 ∨ ∃ p ∈ [goodPeer 1], p.index = j) ∧
          (∃ p ∈ [goodPeer 2], p.op ≠ o.op ∨ p.bf16 ≠ o.bf16 ∨ p.n ≠ o.n ∨ p.m ≠ o.m ∨ p.chips ≠ l) ∧
          (∀ p ∈ [goodPeer 1], p.op = o.op ∧ p.bf16 = o.bf16 ∧ p.n = o.n ∧ p.m = o.m ∧ p.chips = l)) &&
        match s1.collReads c 4 o.n 0 o.src with
        | .ok (_, _, st2) => decide (st2 = .ok)
        | .error _ => false
      | .error _ => false) = true ∧
    collIs (fun o => { o with matched := true, out := [1, 2] }) (fun c o => decide (o.result = none ∧ o.matched = true) &&
      match (collState (fun o => { o with matched := true, out := [1, 2] })).collWrites c o 4 o.outAt (o.out.drop o.outAt) with
      | (_, n, none) => decide (o.out.length ≤ n)
      | _ => false) = true := by
  refine ⟨by decide +kernel, by decide +kernel, by decide +kernel, by decide +kernel⟩

/-- The mailbox, and a barrier of a team that spans two cores. -/
def spanning : State := { laneState id with teams := upd (laneState id).teams 1 (fun t => { t with cores := [0, 95] }) }
theorem witness_deliveries :
    rd [] ({ laneState id with mailbox := [(1, [([7], true, 65535, 3)])] } : State).mailbox 1 = ([7], true, 65535, 3) :: [] ∧
    (spanning.team 1).any (fun t => decide (1 < t.cores.length ∧ 95 ∈ t.cores)) = true := by decide +kernel

/-! ### The text engine (11) -/

/-- A command, with tables in slot 0 and none in slot 7, and a tree that uses grammar 255. -/
def textOp (k : TextKind) (d : List Word64) : TextOp :=
  { id := 4, gid := 1, die := 0, token := 9, kind := k, desc := d, consumed := 0, wrote := 0, units := 0, buf := [], pos := 0, begun := false,
    parkSet := none, image := none, pc := 0 }
def textState (o : TextOp) (priv : Bool) (mem : List (Nat × Byte)) : State :=
  let s := withTree (opFor .tag h1 0 0)
  { s with
    treeOps := [], textOps := [o], lexicons := [(0, ⟨0, 0x10000, 0xFFFFFF0000000000, []⟩)],
    launches := upd s.launches 1 (fun l => { l with priv := priv }),
    teams := upd s.teams 1 (fun t => { t with scratch := mem }),
    trees := upd s.trees 0 (fun t => { t with gset := 255 }) }
def textIs (o : TextOp) (priv : Bool) (mem : List (Nat × Byte)) (p : State → Actx → Bool) : Bool :=
  ((textState o priv mem).textOps.find? (fun p => p.id = 4) = some o && decide (o.parkSet = none ∧ o.image = none) &&
    !((textState o priv mem).textWaits o) && ((textState o priv mem).actx o.gid).any (fun c => p (textState o priv mem) c))
theorem text_ready {o : TextOp} {priv : Bool} {mem : List (Nat × Byte)} {p : State → Actx → Bool} (h : textIs o priv mem p = true) :
    ∃ c, TextReady (textState o priv mem) 4 o c ∧ p (textState o priv mem) c = true := by
  unfold textIs at h
  simp only [Bool.and_eq_true, Bool.not_eq_true', decide_eq_true_eq] at h
  obtain ⟨⟨⟨h1, h2⟩, h3⟩, h4⟩ := h
  obtain ⟨c, e, h4⟩ := ofAny h4
  exact ⟨c, ⟨h1, e, h2.1, h2.2, h3⟩, h4⟩
def mayUse (o : TextOp) (s : State) : Bool := (s.where' o.gid).any (fun w => w.2.2.priv)
/-- TextCommandsComplete: TXTOK and TXDET without a table, with a reserved bit, a privileged TXTOK without and with the right. -/
def slot7 : Word64 := 0x700000000
theorem witness_text_codes :
    (∀ k ∈ [TextKind.txtok false, .txtok true, .txdet], (∃ c, TextReady (textState (textOp k [0, 0, slot7, 0]) true []) 4 (textOp k [0, 0, slot7, 0]) c ∧
        (textState (textOp k [0, 0, slot7, 0]) true []).lexicon 7 = none) ∧ ¬(textOp k [0, 0, slot7, 0]).badFields ∧
      (textOp k [0, 0, 0x800000000, 0]).badFields) ∧
    (textOp (.txtok false) [0, 2, 0, 0]).badFields ∧ (textOp .txdet [0, 0, 0, 32]).badFields ∧
    mayUse (textOp (.txtok true) []) (textState (textOp (.txtok true) []) false []) = false ∧
    mayUse (textOp (.txtok true) []) (textState (textOp (.txtok true) []) true []) = true := by
  refine ⟨?_, ?_, ?_, by decide +kernel, by decide +kernel⟩
  · intro k hk
    simp only [List.mem_cons, List.not_mem_nil, or_false] at hk
    have one : ∀ k, textIs (textOp k [0, 0, slot7, 0]) true [] (fun _ _ => true) = true →
        ∃ c, TextReady (textState (textOp k [0, 0, slot7, 0]) true []) 4 (textOp k [0, 0, slot7, 0]) c ∧
          (textState (textOp k [0, 0, slot7, 0]) true []).lexicon 7 = none := by
      intro k h
      obtain ⟨c, k, -⟩ := text_ready h
      exact ⟨c, k, rfl⟩
    rcases hk with rfl | rfl | rfl
    all_goals refine ⟨one _ (by decide +kernel), ?_, ?_⟩
    all_goals unfold TextOp.badFields textOp; decide +kernel
  · unfold TextOp.badFields textOp; decide +kernel
  · unfold TextOp.badFields textOp; decide +kernel

/-- TXTOK of an empty source. -/
def emptyTok (p : Bool) : TextOp := textOp (.txtok p) [0xFFFFFF0000000000, 0xFFFFFF0000000100, 0, 8]
theorem witness_tokens (p : Bool) : ∃ c x s1 more s2 o2 full, TextReady (textState (emptyTok p) true []) 4 (emptyTok p) c ∧
    (textState (emptyTok p) true []).lexicon (bits ((emptyTok p).reg 2) 34 32) = some x ∧
    (textState (emptyTok p) true []).bytesFrom c (bits ((emptyTok p).reg 2) 31 0 - (emptyTok p).buf.length)
      (nth 0 (emptyTok p).desc 0 + BitVec.ofNat 64 (emptyTok p).buf.length) = (s1, more, .fin) ∧
    s1.writeUnits c (s1.launchOf (emptyTok p).gid) (nth 0 (emptyTok p).desc 1) (bits ((emptyTok p).reg 3) 31 0)
      { emptyTok p with buf := (emptyTok p).buf ++ more } ((x.units (p && !(bit ((emptyTok p).reg 2) 40)) ((emptyTok p).buf ++ more)).drop (emptyTok p).units) =
        (s2, o2, full, .fin) := by
  have h : textIs (emptyTok p) true [] (fun _ _ => true) = true := by
    cases p
    · decide +kernel
    · decide +kernel
  obtain ⟨c, k, -⟩ := text_ready h
  have e : ∀ x : Lexicon, ∀ q : Bool, x.units q [] = [] := fun _ _ => rfl
  have l : ∃ x, (textState (emptyTok p) true []).lexicon (bits ((emptyTok p).reg 2) 34 32) = some x := by
    refine ⟨_, Option.map_eq_some_iff.mpr ⟨⟨0, 0x10000, 0xFFFFFF0000000000, []⟩, ?_, rfl⟩⟩
    cases p
    · decide +kernel
    · decide +kernel
  obtain ⟨x, l⟩ := l
  refine ⟨c, x, textState (emptyTok p) true [], [], textState (emptyTok p) true [], emptyTok p, false, k, l, rfl, ?_⟩
  show State.writeUnits _ _ _ _ _ _ ((Lexicon.units _ _ []).drop 0) = _
  rw [e]
  rfl

/-- TXLOAD: bad operands; a grammar in use; an image of zeros; a lexicon of one token; an address that nothing maps. -/
def loadOp (base k : Word64) : TextOp := textOp .txload [base, k]
def lexiconBytes : List (Nat × Byte) := [(0, 1), (16, 64), (20, 64), (24, 64), (40, 8), (44, 0)]
theorem witness_loads :
    ((loadOp 0 512).reg 1 / 512 ≠ 0 ∧ (loadOp 0 256).isGram = true ∧ (loadOp 0 256).number = 0 ∧ (loadOp 0 8).isGram = false ∧ 7 < (loadOp 0 8).number ∧
      (loadOp 4095 7).reg 0 % 4096 ≠ 0) ∧
    textIs (loadOp 0 511) true [] (fun s _ => decide ((loadOp 0 511).isGram = true) && s.setBusy 1 (loadOp 0 511).number) = true ∧
    textIs (loadOp 0xFFFFFF0000000000 7) true [] (fun s c => readsOk (s.loadImage c 0xFFFFFF0000000000 false) Option.isNone) = true ∧
    textIs (loadOp 0xFFFFFF0000000000 257) true [] (fun s c => !(s.setBusy 1 1) && readsOk (s.loadImage c 0xFFFFFF0000000000 true) Option.isNone) = true ∧
    textIs (loadOp 0xFFFFFF0000000000 0) true lexiconBytes (fun s c => readsOk (s.loadImage c 0xFFFFFF0000000000 false) Option.isSome) = true ∧
    textIs (loadOp 0x2000 0) true [] (fun s c => readsFault (s.loadImage c 0x2000 false)) = true := by
  refine ⟨by decide +kernel, by decide +kernel, by decide +kernel, by decide +kernel, by decide +kernel, by decide +kernel⟩

/-- MBPOST: no ids, 15 ids, and 14 ids from the end of the scratchpad. -/
def postOp (n : Word64) : TextOp := textOp .mbpost [0xFFFFFF000000FFC8, n]
theorem witness_posts : bits ((postOp 0).reg 1) 3 0 = 0 ∧ 14 < bits ((postOp 15).reg 1) 3 0 ∧ bits ((postOp 0x1FFFF000E).reg 1) 15 4 = 0 ∧
    bits ((postOp 0x1FFFF000E).reg 1) 63 33 = 0 ∧
    textIs (postOp 0x1FFFF000E) true [] (fun s c => match s.bytesFrom c 56 (nth 0 (postOp 0x1FFFF000E).desc 0) with
      | (_, bs, .fin) => decide (bs.length = 56)
      | _ => false) = true := by
  refine ⟨by decide +kernel, by decide +kernel, by decide +kernel, by decide +kernel, by decide +kernel⟩

/-- Replacements: a grammar in use, one that is not, and a lexicon that no earlier command uses. -/
theorem witness_replacements : ∀ n ∈ [(511 : Word64), 257, 7],
    ((textState { loadOp 0 n with image := some [] } true []).textOps.find? (fun p => p.id = 4)).any (fun o => decide (o.image = some [] ∧ o.isGram = (7 < n)) &&
      ((textState { loadOp 0 n with image := some [] } true []).actx o.gid).isSome &&
      decide (∀ t ∈ (textState { loadOp 0 n with image := some [] } true []).treeOps, t.id < 4 → t.kind ≠ .trnew) &&
      decide (∀ p ∈ (textState { loadOp 0 n with image := some [] } true []).textOps, p.id < 4 → p.usesSlot = false ∧ p.loads = false) &&
      decide ((textState { loadOp 0 n with image := some [] } true []).setBusy o.gid o.number = (n = 511))) = true := by
  intro n hn
  simp only [List.mem_cons, List.not_mem_nil, or_false] at hn
  rcases hn with rfl | rfl | rfl
  · decide +kernel
  · decide +kernel
  · decide +kernel

end Sys2Proof.Tests
end

