-- ==== Sys2Proof/Tests/StopWitness.lean ====
section
/-!
SUPPORT. States that meet the hypotheses of the claims about fault records, stops, management, start, power and errors, clause by clause.
-/
namespace Sys2Proof.Tests
open Sys2Proof.Machine
set_option Elab.async false

/-! ### Fault records (17, 18, 22) -/

def oneRecord (w : FWho) (set : Nat) (l : Option Nat) (c : Cause) (info : Bool) : FRec :=
  { State.reset.frec 0 .engine .copy c 0 0 0 0 w with set := set, launch := l, info := info }
/-- A state whose launch's records go to the driver or not, with its queue stopped or not. -/
def faultState (fserv stopped : Bool) (f : State → State) : State :=
  let s := laneState id
  f { s with launches := upd s.launches 1 (fun l => { l with fserv := fserv, queue := 3 }),
             queues := if stopped then [(3, { feQueue with st := .stopped })] else [] }

/-- FaultRecordsArePushedAndAnswered: nothing to push; a full queue; two records of one set, the second the queue's last, RSEQ at its end. -/
theorem witness_pushes :
    (laneState id).pushQ = [] ∧
    (∀ n ∈ [4094, 4095], let s := faultState true false (fun s =>
        { s with rseq := 65535, faultQ := List.replicate n (oneRecord .nothing 0 none .perm true),
                 pushQ := [oneRecord (.cp 1) 5 (some 1) .xlate false, oneRecord (.cp 2) 5 (some 1) .perm false, oneRecord (.cp 3) 6 (some 1) .perm false] })
      s.nextSet.length = 2 ∧ s.rseq < 65536 ∧ (s.faultQ.length + s.nextSet.length ≤ 4096 ↔ n = 4094)) := by decide +kernel

/-- A record that was taken: of a driver's queue, of the firmware's with KVFULL, of the firmware's with another cause, of a stopped queue. -/
def takenState (fserv stopped : Bool) (c : Cause) : State :=
  faultState fserv stopped (fun s => { s with forwarded := [{ oneRecord (.cp 4) 5 (some 1) c false with rseq := 65535 }] })
theorem witness_taken :
    ((faultState true false (fun s => { s with faultQ := [oneRecord .nothing 0 (some 1) .perm true] })).faultQ = oneRecord .nothing 0 (some 1) .perm true :: []) ∧
    ∀ p ∈ [(true, false, Cause.xlate, true, false, false), (false, false, .kvFull, false, false, true), (false, false, .xlate, false, false, false),
        (true, true, .kvFull, false, true, true)],
      ∃ r s1, RecordTaken (takenState p.1 p.2.1 p.2.2.1) 65535 r s1 ∧ (takenState p.1 p.2.1 p.2.2.1).toDriver r.launch = p.2.2.2.1 ∧
        (takenState p.1 p.2.1 p.2.2.1).recordStopped r = p.2.2.2.2.1 ∧ (takenState p.1 p.2.1 p.2.2.1).selfServed r = p.2.2.2.2.2 := by
  refine ⟨by decide +kernel, ?_⟩
  intro p hp
  simp only [List.mem_cons, List.not_mem_nil, or_false] at hp
  rcases hp with rfl | rfl | rfl | rfl
  all_goals exact ⟨_, _, ⟨rfl, rfl⟩, by decide +kernel, by decide +kernel, by decide +kernel⟩

/-- A split that a record parks, with and without a slide; one that it no longer parks; a copy that it parks. -/
def parked (set : Nat) (sl : Option Slide) : State :=
  laneState (fun g => g.updEntry 0 (fun en => { en with st := .parked, parkSet := some set, slide := sl }))
theorem witness_parked :
    (∀ sl ∈ [none, some (⟨1, 0, 8, .goOn, false⟩ : Slide)], ((parked 5 sl).group 1).any (fun g => (g.entry 0).any (fun en =>
      decide (en.st = .parked ∧ en.parkSet = some (oneRecord (.split 1 0) 5 (some 1) .perm false).set ∧ en.slide = sl))) = true) ∧
    (((parked 6 none).group 1).any (fun g => (g.entry 0).any (fun en =>
      decide (en.parkSet ≠ some (oneRecord (.split 1 0) 5 (some 1) .perm false).set))) = true) ∧
    (({ laneState id with cpOps := [{ cpOp 0 0 with parkSet := some 5 }] } : State).cpOps.find? (fun p => p.id = 4)).any (fun o =>
      decide (o.parkSet = some (oneRecord (.cp 4) 5 (some 1) .perm false).set)) = true := by decide +kernel

/-! ### Stops (20) -/

def aStop (split : Nat) : TrapRec :=
  { mask := 1, addr := 0, pc := 0x4200C, code := 0, flags := 0, postc := false, xfer := false, index := 1, acc := false, split := split, sub := 0,
    cause := .illop }
/-- A group with a stop that the driver has been told of, above the three words of a run. -/
def stopState (debug : Bool) (x : StopRef) (g : Group → Group) (e : Entry → Entry) : State :=
  let s := (runState 0x4200C [endWord 1, nopWord, endWord 1]).updGroup 1 (fun y => g (y.updEntry 0 e))
  { s.updPart 0 (fun p => { p with policy := { p.policy with debug := debug } }) with
    launches := upd s.launches 1 (fun l => { l with fserv := true }), pendingNotices := [x] }
def splitStop : StopRef := ⟨1, some 0⟩
def accessStop : StopRef := ⟨1, none⟩
def trappedAs (st : SplitState) (sl : Option Slide) (en : Entry) : Entry := { en with st := st, trapRec := some (aStop 0), slide := sl }
def stoppedAccess (next : Bool) (g : Group) : Group := { g with aHalted := false, aStopped := true, aTrap := some (aStop 0), aNext := next }

def stopIs (s : State) (x : StopRef) (p : Group → TrapRec → Bool) : Bool :=
  decide (x ∈ s.pendingNotices) && s.toDriver (s.launchOf x.gid) && (s.group x.gid).any (fun g => (s.stopRecord x).any (p g))
theorem stop_pending {s : State} {x : StopRef} {p : Group → TrapRec → Bool} (h : stopIs s x p = true) : ∃ g r, StopPending s x g r ∧ p g r = true := by
  unfold stopIs at h
  simp only [Bool.and_eq_true, decide_eq_true_eq] at h
  obtain ⟨⟨h1, h2⟩, h3⟩ := h
  obtain ⟨g, e1, h3⟩ := ofAny h3
  obtain ⟨r, e2, h3⟩ := ofAny h3
  exact ⟨g, r, ⟨h1, h2, e1, e2⟩, h3⟩

/-- An address of a run's first word: the words before it and there can be read, and only the former is a head. -/
theorem target_good {s : State} {a b c : LaneWord} (hx : s.actx 1 = some runCtx) (ht : s.tcache = []) (hf : s.fcache = [])
    (h : runGood s [a, b, c] = true) (ha : LaneWord.op a = 0xFE) (hb : LaneWord.op b ≠ 0xFE) : s.resumeTarget 1 0x4200C = true := by
  have start : s = s.caches [] [] := by
    cases s
    cases ht
    cases hf
    rfl
  have t0 : (s.caches [] []).TcOk runCtx := tcOk_nil rfl
  have f0 : (s.caches [] []).FcOk runCtx 0x42000 3 := fcOk_nil rfl
  obtain ⟨x1, y1, e1, t1, f1⟩ := run_word h (k := 1) (w := b) (by simp) (by omega) t0 f0
  obtain ⟨x2, y2, e2, -, -⟩ := run_word h (k := 0) (w := a) (by simp) (by omega) t1 f1
  have e1' : s.laneWord runCtx 0x4200C = .ok (s.caches x1 y1) b := by
    rw [start]
    exact e1
  have e2' : (s.caches x1 y1).wordBefore runCtx 0x4200C = .ok (s.caches x2 y2) a := e2
  have bad : s.targetBad runCtx 0x4200C = none := by
    unfold State.targetBad
    have n : (0x4200C : VAddr).toNat = 0x4200C := rfl
    rw [n, if_neg (by decide), e1']
    simp only
    rw [e2']
    simp only [ha, hb]
    rfl
  unfold State.resumeTarget
  rw [hx]
  simp only [bad, Option.isNone]

/-- StopsAreNoticedHandledAndSaved: notices of the driver's queue and of the firmware's; a stop that is gone; a group that stands. -/
def noticed (fserv : Bool) (st : SplitState) : State :=
  let s := stopState false splitStop id (trappedAs st none)
  { s with launches := upd s.launches 1 (fun l => { l with fserv := fserv }), notices := [splitStop], pendingNotices := [] }
theorem witness_notices :
    (∀ b ∈ [true, false], (noticed b .trapped).notices = splitStop :: [] ∧
      (({ noticed b .trapped with notices := [] } : State).stopRecord splitStop).isSome = true ∧
      ({ noticed b .trapped with notices := [] } : State).toDriver (({ noticed b .trapped with notices := [] } : State).launchOf 1) = b) ∧
    ({ noticed true .ready with notices := [] } : State).stopRecord splitStop = none ∧
    ((noticed true .trapped).group 1).any (fun g => !g.retired && !g.killed) = true := by decide +kernel

/-- The stopped access program: after the word and at it, an aligned PC and one that is not; a write of S191. -/
theorem witness_access_stop : (∀ n ∈ [true, false], ∃ g r, StopPending (stopState true accessStop (stoppedAccess n) id) accessStop g r ∧ decide (g.aNext = n) = true) ∧
    (0xFFFFFFFFFFFFFFFC : VAddr).toNat % 4 = 0 ∧ (0xFFFFFFFFFFFFFFFF : VAddr).toNat % 4 ≠ 0 ∧ (191 : Nat) < 192 ∧
    ((stopState true accessStop (stoppedAccess true) id).part (((stopState true accessStop (stoppedAccess true) id).partOf 1).getD 0)).policy.debug = true := by
  refine ⟨?_, by decide, by decide, by decide, by decide +kernel⟩
  intro n hn
  simp only [List.mem_cons, List.not_mem_nil, or_false] at hn
  rcases hn with rfl | rfl
  · exact stop_pending (p := fun g _ => decide (g.aNext = true)) (by decide +kernel)
  · exact stop_pending (p := fun g _ => decide (g.aNext = false)) (by decide +kernel)

/-- A stopped split: it can go no further; it trapped, with and without a slide; debugging is open or not. -/
def someSlide : Option Slide := some ⟨1, 0, 8, .goOn, false⟩
def splitStopIs (debug : Bool) (st : SplitState) (sl : Option Slide) : Bool :=
  stopIs (stopState debug splitStop id (trappedAs st sl)) splitStop (fun g r => (g.entry 0).any (fun en => decide (en.st = st ∧ en.slide = sl) &&
    !(r.postc && r.xfer) && g.xblock.all (fun b => decide (b.entry ≠ 0)) && inMask en.mask 63 && decide (255 < g.w)) &&
    decide (((stopState debug splitStop id (trappedAs st sl)).part (((stopState debug splitStop id (trappedAs st sl)).partOf 1).getD 0)).policy.debug = debug))
theorem witness_split_stop : splitStopIs true .faulted none = true ∧ splitStopIs false .trapped none = true ∧ splitStopIs true .trapped none = true ∧
    splitStopIs true .trapped someSlide = true := by
  refine ⟨by decide +kernel, by decide +kernel, by decide +kernel, by decide +kernel⟩
theorem witness_resume_at : (stopState false splitStop id (trappedAs .trapped none)).resumeTarget 1 1 = false ∧
    (stopState false splitStop id (trappedAs .trapped none)).resumeTarget 1 0x4200C = true :=
  ⟨by decide +kernel, target_good (a := endWord 1) (b := nopWord) (c := endWord 1) (by decide +kernel) (by decide +kernel) (by decide +kernel)
    (by decide +kernel) (by decide) (by decide)⟩

/-- A group that hangs, of a team that is asked to save and of one that is not. -/
theorem witness_hang : ∀ b ∈ [true, false], (((laneState id).updTeam 1 (fun t => { t with saving := b })).where' 1).any (fun w =>
    !w.1.saved && !w.1.lanesGone && decide (w.1.hangSet = none ∧ w.2.1.saving = b) && w.1.unstopped && !w.1.stopReq) = true := by decide +kernel

/-- A pre-emption's team; groups that have settled; a saved team whose groups can be placed again on its core and on core 95 of die 1. -/
def teamState (saving saved : Bool) : State :=
  let s := State.reset.oneGroup (fun g => { g with saved := saved, stopReq := saving })
  { s with teams := upd s.teams 1 (fun t => { t with saving := saving, saved := saved }) }
theorem witness_preempt : ((teamState false false).team 1).any (fun t => !t.saved && !t.saving && !t.retired && ((teamState false false).launch t.launch).any (fun l =>
      decide (l.queue = 0 ∧ l.ref.home = Config.chip.toNat ∧ l.part = 0)) && t.gids.all (fun n => ((teamState false false).group n).any (fun g =>
      !g.retired && !g.killed && decide (g.hangSet = none)))) = true ∧ (teamState false false).stage = .ready ∧ State.reset.stage ≠ .ready := by decide +kernel

theorem witness_save : ((teamState true false).team 1).any (fun t => t.saving && t.gids.all (fun n => ((teamState true false).group n).any (fun g =>
    !g.retired && g.settled && (teamState true false).drainsDone n g.coreId))) = true := by decide +kernel

def resumeIs (die : Nat) (cores : List Nat) : Bool :=
  ((teamState false true).team 1).any (fun t => ((teamState false true).launch t.launch).any (fun l => t.saved && !t.retired && (teamState false true).places &&
    (teamState false true).fits t.launch l ((teamState false true).returning t) ((teamState false true).resumeRoom t die) die cores &&
    (teamState false true).launches.all (fun o => !(Launch.before o (t.launch, l)) || !((teamState false true).placeable o.1 o.2)) &&
    ((teamState false true).pointReady die l).2 && (decide (t.gids = [1]) && (((teamState false true).group 1).any (fun g => !g.retired && !g.killed)))))
theorem resume_ready {die : Nat} {cores : List Nat} (h : resumeIs die cores = true) :
    ∃ tm l, ResumeReady (teamState false true) 1 die cores tm l ∧ tm.gids = [1] := by
  unfold resumeIs at h
  obtain ⟨tm, e1, h⟩ := ofAny h
  obtain ⟨l, e2, h⟩ := ofAny h
  simp only [Bool.and_eq_true, Bool.not_eq_true', decide_eq_true_eq, List.all_eq_true, Bool.or_eq_true] at h
  obtain ⟨⟨⟨⟨⟨⟨h1, h2⟩, h3⟩, h4⟩, h5⟩, h6⟩, h7⟩ := h
  refine ⟨tm, l, ⟨e1, e2, h1, h2, h3, h4, fun o ho hb => ?_, _, Prod.ext rfl h6⟩, h7.1⟩
  rcases h5 o ho with h | h
  · rw [hb] at h
    exact absurd h (by decide)
  · exact h
theorem witness_resume : (∃ tm l, ResumeReady (teamState false true) 1 0 [0] tm l ∧ tm.gids = [1]) ∧
    ∃ tm l, ResumeReady (teamState false true) 1 1 [95] tm l ∧ tm.gids = [1] :=
  ⟨resume_ready (by decide +kernel), resume_ready (by decide +kernel)⟩

/-! ### Management (18, 19, 21) -/

def readyState (f : Partition → Partition) : State := { State.reset.oneGroup id with parts := [(0, f { State.reset.part 0 with keyLoaded := true })] }
/-- ManagementRequestsTakeEffect: stages; interfaces; queues with good and bad configurations, that are stopped, busy or run. -/
theorem witness_management : State.reset.stage ≠ .ready ∧ (readyState id).stage = .ready ∧
    (∀ x ∈ [Tdisp.unlocked, .locked, .run, .error], ((readyState (fun p => { p with tdisp := x })).part 0).tdisp = x) ∧
    (readyState id).queue 255 = none ∧ QueueConfig.ok feQueue.cfg ((readyState id).part 0).policy = true ∧
    QueueConfig.ok { feQueue.cfg with rlog := 17 } ((readyState id).part 0).policy = false ∧
    (∀ st ∈ [QState.run, .stopped], ({ readyState id with queues := [(255, { feQueue with st := st })] } : State).queue 255 = some { feQueue with st := st }) ∧
    feQueue.busy = .none := by decide +kernel

/-- Policies with and without performance counting; a counter of the partition; no rows; register values at their bounds. -/
def perfState (perf : Bool) : State :=
  { readyState (fun p => { p with policy := { p.policy with perf := perf } }) with perf := [(coreId 1 95 * 8 + 7, (31, 0, 9))] }
theorem witness_counters : (∀ b ∈ [true, false], ((perfState b).part 0).policy.perf = b) ∧ look (perfState true).perf (coreId 1 95 * 8 + 7) = some (31, 0, 9) ∧
    look (perfState true).perf 0 = none ∧ mayManage 64 63 = true ∧ mayManage 63 63 = true ∧ mayManage 62 63 = false ∧ (readyState id).rows = [] ∧
    look (readyState id).pools (poolKey 63 0) = none ∧ 0x80008000 % 32768 = 0 ∧ 1 + (2 ^ 28 - 1) ≤ 2 ^ 28 ∧ Config.firmwareVersion ≤ 0 := by decide +kernel

/-! ### Start, power and errors (21) -/

/-- StartPowerAndErrorsTakeEffect: stages and power states; no team and a team; limits, temperatures. -/
theorem witness_start : (∀ x ∈ [Stage.off, .baseCamp, .ready], ({ State.reset with stage := x } : State).stage = x) ∧ State.reset.power ≠ .ps3 ∧
    ({ State.reset with power := .ps3 } : State).power = .ps3 ∧ State.reset.teams = [] ∧ (laneState id).teams ≠ [] ∧
    ((State.reset.die 1).plim < (State.reset.die 1).plim + 1 ∧ 0 ≤ (State.reset.die 1).plim ∧ 0 < 95 * (State.reset.die 1).plim) ∧ State.reset.thermtrip = false ∧
    State.reset.mxOps = [] ∧ rd .none ({ State.reset with tags := [(7, .bf16hi)] } : State).tags (0 * 8 + 7) = .bf16hi ∧
    isHbm (hbmEnd - 1) = true ∧ isHbm hbmEnd = false := by decide +kernel

end Sys2Proof.Tests
end

