-- ==== Sys2Proof/Tests/CopyWitness.lean ====
section
/-!
SUPPORT. A compaction's copy of a slot that succeeds (CompactionMovesAndSwitches): zeros copied on mapped pages change the translation cache and
the bytes' keys alone.
-/
namespace Sys2Proof.Tests
open Sys2Proof.Machine
set_option Elab.async false

/-- Every byte was last written under the partition's present key. -/
def OwnKeys (s : State) (key : Nat) (k : AMap (Nat × Nat)) : Prop := ∀ pa x, look k pa = some x → x = (key, (s.part key).keyEpoch)
theorem readKey_own {s : State} {key : Nat} (h : OwnKeys s key s.keyOf) (pa : Nat) : s.readKey key pa = s.byteAt pa := by
  unfold State.readKey
  split
  · split
    · rfl
    · rename_i x e
      rw [if_pos (h _ _ e)]
  · rfl
/-- A change of the translation cache and of the keys. -/
def movedBy (s : State) (x : AMap (AMap Leaf)) (k : AMap (Nat × Nat)) : State := { s with tcache := x, keyOf := k }
theorem own_moved {s : State} {key : Nat} {x : AMap (AMap Leaf)} {k : AMap (Nat × Nat)} (h : OwnKeys s key k) :
    OwnKeys (movedBy s x k) key (movedBy s x k).keyOf := h
theorem readKey_moved {s : State} {key : Nat} {x : AMap (AMap Leaf)} {k : AMap (Nat × Nat)} (h : OwnKeys s key s.keyOf) (h' : OwnKeys s key k)
    (pa : Nat) : (movedBy s x k).readKey key pa = s.readKey key pa := by
  rw [readKey_own h, readKey_own (own_moved h')]
  rfl
theorem walkAt_moved {s : State} {key : Nat} {x : AMap (AMap Leaf)} {k : AMap (Nat × Nat)} (h : OwnKeys s key s.keyOf) (h' : OwnKeys s key k)
    (va : VAddr) (n t : Nat) : (movedBy s x k).walkAt key va n t = s.walkAt key va n t := by
  have r : (movedBy s x k).read16 key = s.read16 key := by
    funext pa
    unfold State.read16
    rw [show (movedBy s x k).readKey key = s.readKey key from funext (readKey_moved h h')]
  have p : (movedBy s x k).poisoned = s.poisoned := rfl
  have q : (movedBy s x k).keyOk = s.keyOk := rfl
  unfold State.walkAt
  rw [r, p, q]
theorem walk_moved {s : State} {key : Nat} {x : AMap (AMap Leaf)} {k : AMap (Nat × Nat)} (h : OwnKeys s key s.keyOf) (h' : OwnKeys s key k)
    (va : VAddr) (n t : Nat) : (movedBy s x k).walk key va n t = s.walk key va n t := by
  induction n generalizing t with
  | zero =>
    unfold State.walk
    rw [walkAt_moved h h']
  | succ n ih =>
    unfold State.walk
    rw [walkAt_moved h h']
    simp only [ih]
theorem del_none {β : Type} {m : AMap β} {k : Nat} (h : look m k = none) : del m k = m := by
  induction m with
  | nil => rfl
  | cons e r ih =>
    obtain ⟨a, b⟩ := e
    unfold look at h
    unfold del
    by_cases c : k = a
    · simp [c] at h
    · have c' : ¬a = k := fun e => c e.symm
      rw [if_neg c, ih (by simpa [c'] using h)]
theorem dropL1_none {s : State} (h' : s.l1 = []) (cl pa : Nat) : s.dropL1 cl pa = s := by
  have e : ∀ l : List Nat, l.foldl (fun (m : AMap Byte) i => del m (cKey (cl * 8 + i) pa)) [] = [] := by
    intro l
    induction l with
    | nil => rfl
    | cons a l ih => exact ih
  unfold State.dropL1
  rw [h', e, ← h']
theorem foldl_same {α β : Type} {f : α → β → α} {a : α} (h : ∀ b, f a b = a) (l : List β) : l.foldl f a = a := by
  induction l with
  | nil => rfl
  | cons b l ih => rw [List.foldl_cons, h, ih]
theorem flushLine_none {s : State} (h : s.cc = []) (h' : s.l1 = []) (cl line : Nat) : s.flushLine cl line = s := by
  unfold State.flushLine
  refine foldl_same (fun pa => ?_) _
  have e : look s.cc (cKey cl pa) = none := by rw [h]; rfl
  rw [e]
  exact dropL1_none h' cl pa

theorem goodFor_moved {s : State} {c : Actx} {x : AMap (AMap Leaf)} {k : AMap (Nat × Nat)} (h : OwnKeys s c.part s.keyOf) (h' : OwnKeys s c.part k)
    (need : Need) (va : VAddr) : (movedBy s x k).goodFor c need va = s.goodFor c need va ∧ (movedBy s x k).leafOr c va = s.leafOr c va ∧
      (movedBy s x k).spotOf c va = s.spotOf c va := by
  have e : (movedBy s x k).leafOr c va = s.leafOr c va := by
    unfold State.leafOr
    rw [walk_moved h h']
  have e2 : (movedBy s x k).spotOf c va = s.spotOf c va := by
    unfold State.spotOf
    rw [e]
  refine ⟨?_, e, e2⟩
  unfold State.goodFor
  rw [walk_moved h h', e, e2]
  rfl
theorem tcOk_moved {s : State} {c : Actx} {x : AMap (AMap Leaf)} {k : AMap (Nat × Nat)} (h : OwnKeys s c.part s.keyOf) (h' : OwnKeys s c.part k)
    (t : ({ s with tcache := x } : State).TcOk c) : (movedBy s x k).TcOk c := by
  intro va l e
  rw [walk_moved h h', ← walk_tcache s x]
  exact t va l e

/-- Zeros written where nothing stands change the keys alone. -/
theorem store_zeros {s : State} {c : Actx} {pb : Nat} {x : AMap (AMap Leaf)} (ok : s.keyOk c.part pb = true) (z : ∀ i, i < 64 → look s.mem (pb + i) = none) :
    ∀ (bs : List Byte) (i : Nat) (k : AMap (Nat × Nat)), (∀ b ∈ bs, b = 0) → i + bs.length ≤ 64 → OwnKeys s c.part k →
      ∃ k', (movedBy s x k).storeFrom c (.strong .device) (.cached pb) c.part i bs = movedBy s x k' ∧ OwnKeys s c.part k' := by
  intro bs
  induction bs with
  | nil => intro i k _ _ o; exact ⟨k, rfl, o⟩
  | cons b bs ih =>
    intro i k hb hi o
    rw [List.length_cons] at hi
    obtain rfl : b = 0 := hb b List.mem_cons_self
    have o' : OwnKeys s c.part (if isHbm (pb + i) then put k (pb + i) (c.part, (s.part c.part).keyEpoch) else k) := by
      intro pa y e
      split at e
      · rw [look_put] at e
        split at e
        · exact (Option.some.inj e).symm
        · exact o pa y e
      · exact o pa y e
    have one : (movedBy s x k).placeStore c (.strong .device) (.cached pb) c.part i 0 =
        movedBy s x (if isHbm (pb + i) then put k (pb + i) (c.part, (s.part c.part).keyEpoch) else k) := by
      have w : (movedBy s x k).writeKey c.part (pb + i) 0 =
          { movedBy s x (if isHbm (pb + i) then put k (pb + i) (c.part, (s.part c.part).keyEpoch) else k) with mem := del s.mem (pb + i) } := rfl
      rw [del_none (z i (by omega))] at w
      have q : (movedBy s x k).keyOk c.part pb = true := ok
      unfold State.placeStore
      simp only [Mode.wide, Bool.or_true, Bool.true_or, if_true, q]
      exact w
    unfold State.storeFrom
    rw [one]
    exact ih (i + 1) _ (fun b h => hb b (List.mem_cons_of_mem _ h)) (by omega) o'

theorem copyLine_of {s s1 s2 s3 : State} {c : Actx} {a b : VAddr} {x y : Target} {pa pb : Nat} (e1 : s.translate c .read false a = .ok (s1, x))
    (e2 : s1.translate c .write false b = .ok (s2, y)) (kx : (x.kv && x.efmt == 0) = true) (ky : (y.kv && y.efmt == 0) = true)
    (px : x.place = .cached pa) (py : y.place = .cached pb) (h1 : s2.placeHeld (.cached pa) = false) (h2 : s2.placeHeld (.cached pb) = false)
    (h3 : s2.statusOf (.cached pa) x.key = .ok) (f : ∀ z, s2.flushLine (clusterOf c.cid) z = s2)
    (e3 : s2.storeFrom c (.strong .device) (.cached pb) y.key 0 ((List.range 64).map (s2.placeByte c (.strong .device) (.cached pa) x.key)) = s3) :
    s.copyLine c a b = .ok s3 false .ok := by
  have b1 : s2.readPlace c (.strong .device) (.cached pa) x.key 64 =
      ((List.range 64).map (s2.placeByte c (.strong .device) (.cached pa) x.key), s2) := by
    unfold State.readPlace State.beforeAccess
    simp only [Mode.wide, if_true, f]
  have b2 : ∀ bs, s2.writePlace c (.strong .device) (.cached pb) y.key bs = s2.storeFrom c (.strong .device) (.cached pb) y.key 0 bs := by
    intro bs
    unfold State.writePlace State.beforeAccess
    simp only [Mode.wide, if_true, f]
  unfold State.copyLine State.kvTranslate
  rw [e1]
  simp only [kx, if_true]
  rw [e2]
  simp only [ky, if_true, px, py, h1, h2, h3, Bool.or_self, Bool.false_eq_true, if_false, b1, b2, e3]
  rfl

/-- The address at which a place is cached. -/
def cachedAt (p : Place) : Nat :=
  match p with
  | .cached pa => pa
  | _ => 0
/-- What makes the copy of a line succeed, by the tables alone. -/
def lineGood (s : State) (c : Actx) (l : VAddr × VAddr) : Bool :=
  s.goodFor c .read l.1 && s.goodFor c .write l.2 && [l.1, l.2].all (fun va =>
    let x := s.leafOr c va
    x.kv && x.efmt == 0 && decide (x.key = c.part) && (List.range 64).all (fun i => (look s.mem (cachedAt (s.spotOf c va) + i)).isNone))
theorem zeros_read {s : State} {c : Actx} {pa : Nat} {x : AMap (AMap Leaf)} (o : OwnKeys s c.part s.keyOf)
    (z : ∀ i, i < 64 → look s.mem (pa + i) = none) :
    ∀ b ∈ (List.range 64).map ((movedBy s x s.keyOf).placeByte c (.strong .device) (.cached pa) c.part), b = 0 := by
  intro y hy
  obtain ⟨i, hi, rfl⟩ := List.mem_map.mp hy
  unfold State.placeByte
  simp only [Mode.wide, Bool.or_true, if_true]
  rw [readKey_moved o o, readKey_own o]
  show (look s.mem (pa + i)).getD 0 = 0
  rw [z i (List.mem_range.mp hi)]
  rfl
theorem status_key {s : State} {key pa : Nat} (q : s.statusOf (.cached pa) key = .ok) : s.keyOk key pa = true := by
  unfold State.statusOf at q
  simp only at q
  split at q
  · cases q
  · rename_i n
    simpa using n
theorem held_moved (s : State) (x : AMap (AMap Leaf)) (k : AMap (Nat × Nat)) (p : Place) : (movedBy s x k).placeHeld p = s.placeHeld p := rfl
theorem status_moved (s : State) (x : AMap (AMap Leaf)) (k : AMap (Nat × Nat)) (p : Place) (n : Nat) :
    (movedBy s x k).statusOf p n = s.statusOf p n := rfl
theorem translate_moved {s : State} {c : Actx} (h : s.TcOk c) {need : Need} {va : VAddr} (g : s.goodFor c need va = true) :
    ∃ x, s.translate c need false va = .ok (movedBy s x s.keyOf, s.targetOf c va) ∧ (movedBy s x s.keyOf).TcOk c ∧
      s.placeHeld (.cached (cachedAt (s.spotOf c va))) = false ∧ s.statusOf (.cached (cachedAt (s.spotOf c va))) (s.leafOr c va).key = .ok :=
  translate_good h g
theorem target_moved {s : State} {c : Actx} {x : AMap (AMap Leaf)} (o : OwnKeys s c.part s.keyOf) (va : VAddr) :
    (movedBy s x s.keyOf).targetOf c va = s.targetOf c va := by
  unfold State.targetOf
  rw [(goodFor_moved o o .read va).2.1, (goodFor_moved o o .read va).2.2]
theorem moved_twice (s : State) (x y : AMap (AMap Leaf)) (k l : AMap (Nat × Nat)) : movedBy (movedBy s x k) y l = movedBy s y l := rfl
theorem moved_keys (s : State) (x : AMap (AMap Leaf)) (k : AMap (Nat × Nat)) : (movedBy s x k).keyOf = k := rfl
theorem flush_moved {s : State} (h : s.cc = []) (h' : s.l1 = []) {x : AMap (AMap Leaf)} {k : AMap (Nat × Nat)} {cl : Nat} (z : Nat) :
    (movedBy s x k).flushLine cl z = movedBy s x k :=
  flushLine_none (show (movedBy s x k).cc = [] from h) (show (movedBy s x k).l1 = [] from h') cl z
theorem copyLine_zero {s : State} {c : Actx} {l : VAddr × VAddr} (hc : s.cc = []) (hl : s.l1 = []) (t : s.TcOk c) (o : OwnKeys s c.part s.keyOf)
    (g : lineGood s c l = true) : ∃ x k, s.copyLine c l.1 l.2 = .ok (movedBy s x k) false .ok ∧ (movedBy s x k).TcOk c ∧ OwnKeys s c.part k := by
  obtain ⟨a, b⟩ := l
  unfold lineGood at g
  simp only [Bool.and_eq_true, List.all_cons, List.all_nil, Bool.and_true, beq_iff_eq, decide_eq_true_eq, List.all_eq_true, List.mem_range,
    Option.isNone_iff_eq_none] at g
  obtain ⟨⟨ga, gb⟩, ⟨⟨⟨a1, a2⟩, a3⟩, a4⟩, ⟨⟨b1, b2⟩, b3⟩, b4⟩ := g
  obtain ⟨x1, e1, t1, p1, q1⟩ := translate_moved t ga
  obtain ⟨x2, e2, t2, -, -⟩ := translate_moved (need := .write) (va := b) t1 (by rw [(goodFor_moved o o .write b).1]; exact gb)
  obtain ⟨-, -, -, p2, q2⟩ := translate_moved t gb
  rw [target_moved o, moved_twice, moved_keys] at e2
  rw [moved_twice, moved_keys] at t2
  rw [a3] at q1
  rw [b3] at q2
  obtain ⟨k, e3, o3⟩ := store_zeros (x := x2) (status_key q2) b4 _ 0 s.keyOf (zeros_read (x := x2) o a4) (by simp) o
  have ka : (s.targetOf c a).key = c.part := a3
  have kb : (s.targetOf c b).key = c.part := b3
  have va : ((s.targetOf c a).kv && (s.targetOf c a).efmt == 0) = true := by
    show ((s.leafOr c a).kv && (s.leafOr c a).efmt == 0) = true
    rw [a1, a2]
    rfl
  have vb : ((s.targetOf c b).kv && (s.targetOf c b).efmt == 0) = true := by
    show ((s.leafOr c b).kv && (s.leafOr c b).efmt == 0) = true
    rw [b1, b2]
    rfl
  have pa : (s.targetOf c a).place = .cached (cachedAt (s.spotOf c a)) := rfl
  have pb : (s.targetOf c b).place = .cached (cachedAt (s.spotOf c b)) := rfl
  have t3 : (movedBy s x2 k).TcOk c := by
    exact tcOk_moved (s := s) o o3 t2
  refine ⟨x2, k, ?_, t3, o3⟩
  exact copyLine_of e1 e2 va vb pa pb (by rw [held_moved]; exact p1) (by rw [held_moved]; exact p2) (by rw [status_moved, ka]; exact q1)
    (flush_moved hc hl) (by rw [ka, kb]; exact e3)
theorem lineGood_moved {s : State} {c : Actx} {x : AMap (AMap Leaf)} {k : AMap (Nat × Nat)} (h : OwnKeys s c.part s.keyOf) (h' : OwnKeys s c.part k)
    (l : VAddr × VAddr) : lineGood (movedBy s x k) c l = lineGood s c l := by
  unfold lineGood
  rw [(goodFor_moved h h' .read l.1).1, (goodFor_moved h h' .write l.2).1]
  simp only [List.all_cons, List.all_nil, (goodFor_moved h h' .read l.1).2.1, (goodFor_moved h h' .read l.1).2.2, (goodFor_moved h h' .read l.2).2.1,
    (goodFor_moved h h' .read l.2).2.2]
  rfl
theorem copyLines_zero {s : State} {c : Actx} (hc : s.cc = []) (hl : s.l1 = []) (o : OwnKeys s c.part s.keyOf) (ls : List (VAddr × VAddr))
    (g : ls.all (lineGood s c) = true) : ∀ (x : AMap (AMap Leaf)) (k : AMap (Nat × Nat)), (movedBy s x k).TcOk c → OwnKeys s c.part k →
      ∃ x' k', (movedBy s x k).copyLines c ls = .ok (movedBy s x' k') false .ok := by
  induction ls with
  | nil => intro x k _ _; exact ⟨x, k, rfl⟩
  | cons l ls ih =>
    intro x k t o'
    rw [List.all_cons, Bool.and_eq_true] at g
    obtain ⟨x1, k1, e1, t1, o1⟩ := copyLine_zero (s := movedBy s x k) (c := c) (l := l) hc hl t o' (by rw [lineGood_moved o o']; exact g.1)
    rw [moved_twice] at e1 t1
    obtain ⟨x2, k2, e2⟩ := ih g.2 x1 k1 t1 o1
    refine ⟨x2, k2, ?_⟩
    unfold State.copyLines
    simp only [e1, e2, Bool.or_self]

theorem copies_start {s : State} {c : Actx} (hc : s.cc = []) (hl : s.l1 = []) (ht : s.tcache = []) (hk : s.keyOf = []) (ls : List (VAddr × VAddr))
    (g : ls.all (lineGood s c) = true) : ∃ x y, s.copyLines c ls = .ok (movedBy s x y) false .ok := by
  have start : movedBy s [] [] = s := by
    rw [← ht, ← hk]
    rfl
  have o : OwnKeys s c.part [] := fun pa x e => by simp at e
  have o' : OwnKeys s c.part s.keyOf := by rw [hk]; exact o
  obtain ⟨x, y, e⟩ := copyLines_zero hc hl o' ls g [] [] (by rw [start]; exact tcOk_nil ht) o
  rw [start] at e
  exact ⟨x, y, e⟩

/-- The pool's first GiB, on pages of HBM with KV = 1: the copy of a slot succeeds. -/
def mappedPool : State :=
  { compacting 2 false with
    mem := [(0x10000, 0x01), (0x10001, 0x20), (0x10002, 0x01), (0x12000, 0x01), (0x12001, 0x40), (0x12002, 0x01), (0x14030, 0x7B), (0x14033, 0x40),
      (0x1403C, 0x02)] }
theorem witness_copy_of_a_slot : ∃ t k p n x y, look mappedPool.trees (treeKey 0 0) = some t ∧ t.comp = some k ∧ k.finished = false ∧ k.full = false ∧
    k.parkSet = none ∧ k.kset.length ≤ k.asgBranch ∧ look mappedPool.pools (poolKey t.owner 0) = some p ∧
    t.pathAt (k.kset[k.ord]?.getD 0) k.depth = some n ∧
    mappedPool.copyLines (pageActx t.root t.owner 0) (slotLines p 3 ((k.row k.ord (k.depth / 16)).getD 0) k.layer 0 0) = .ok (movedBy mappedPool x y) false .ok := by
  have h : (look mappedPool.trees (treeKey 0 0)).any (fun t => t.comp.any (fun k => (look mappedPool.pools (poolKey t.owner 0)).any (fun p =>
      (t.pathAt (k.kset[k.ord]?.getD 0) k.depth).any (fun _ => !k.finished && !k.full && decide (k.parkSet = none ∧ k.kset.length ≤ k.asgBranch) &&
        (slotLines p 3 ((k.row k.ord (k.depth / 16)).getD 0) k.layer 0 0).all (lineGood mappedPool (pageActx t.root t.owner 0)))))) = true := by
    decide +kernel
  obtain ⟨t, e1, h⟩ := ofAny h
  obtain ⟨k, e2, h⟩ := ofAny h
  obtain ⟨p, e3, h⟩ := ofAny h
  obtain ⟨n, e4, h⟩ := ofAny h
  simp only [Bool.and_eq_true, Bool.not_eq_true', decide_eq_true_eq] at h
  obtain ⟨⟨⟨h1, h2⟩, h3⟩, h4⟩ := h
  have hk : mappedPool.keyOf = [] := by decide +kernel
  have ht : mappedPool.tcache = [] := by decide +kernel
  obtain ⟨x, y, e5⟩ := copies_start (by decide +kernel) (by decide +kernel) ht hk _ h4
  exact ⟨t, k, p, n, x, y, e1, e2, h1, h2, h3.1, h3.2, e3, e4, e5⟩

end Sys2Proof.Tests
end

section
/-!
PROOFS. Every step completes (O37): each shared operation of words and each event answers a next state, and the decoders answer only
words of their own stream.
-/
namespace Sys2Proof.Machine

/-! ### Every meaning answers a next state

The device has no stop of its own: a word's meaning answers a next state when its stream stands at a word, an event's always. -/

/-- The meaning answers a next state. -/
def Completes (o : Out) : Prop := ∃ t, o = .next t

theorem completes_next (t : State) : Completes (.next t) := ⟨t, rfl⟩

theorem completes_ite {c : Prop} [Decidable c] {a b : Out} (ha : Completes a) (hb : Completes b) :
    Completes (if c then a else b) := by
  split
  · exact ha
  · exact hb

section LaneWords
variable {s : State} {x : Issue} (hx : s.issuer = some x)
include hx

theorem issueAlu_completes {gp : BitVec 3} {neg : Bool} {imm : BitVec 32} {srcs : LaneMask → Src × Src × Src}
    {f : Issue → LaneMask → (Nat → Word32) → (Nat → Word32) → (Nat → Word32) → Result} :
    Completes (s.issueAlu gp neg imm srcs f) := by
  fun_cases State.issueAlu s gp neg imm srcs f
  case case1 h => simp [h] at hx
  all_goals exact completes_next _

theorem control_completes {neg : Bool} {gp : BitVec 3} {f : Issue → LaneMask → Xfer} : Completes (s.control neg gp f) := by
  fun_cases State.control s neg gp f
  case case1 h => simp [h] at hx
  all_goals exact completes_next _

theorem indirect_completes {neg : Bool} {gp : BitVec 3} {dst : Operand} {kind : XferKind} {rc : Issue → Option PC} :
    Completes (s.indirect neg gp dst kind rc) := by
  fun_cases State.indirect s neg gp dst kind rc
  case case1 h => simp [h] at hx
  all_goals exact completes_next _

theorem plainLane_completes {w : Lane} {f : Issue → LaneMask → Out} (hf : ∀ y m, Completes (f y m)) :
    Completes (s.plainLane w f) := by
  fun_cases State.plainLane s w f
  case case1 h => simp [h] at hx
  case case4 => exact hf _ _
  all_goals exact completes_next _

omit hx in
theorem queueMx_completes {w : Lane} {kind : MxKind} {rows : LaneMask} {g : Group} :
    Completes (s.queueMx x w kind rows g) := by
  fun_cases State.queueMx s x w kind rows g <;> exact completes_next _

theorem issueMx_completes {w : Lane} {kind : MxKind} : Completes (s.issueMx w kind) := by
  fun_cases State.issueMx s w kind
  case case1 h => simp [h] at hx
  case case8 => exact queueMx_completes
  all_goals exact completes_next _

theorem issueTr_completes {w : Lane} {kind : TreeKind} {chk hold : Bool}
    {xs : (Nat → Word32) → (Nat → Word32) → (Nat → Word32) → Nat → Word32} {pre : State → Actx → TreeOp → Option TrStop} :
    Completes (s.issueTr w kind chk hold xs pre) := by
  fun_cases State.issueTr s w kind chk hold xs pre
  case case1 h => simp [h] at hx
  all_goals exact completes_next _

theorem execTrtag_completes {w : Lane} : Completes (execTrtag w s) := by
  fun_cases execTrtag w s
  case case1 h => simp [h] at hx
  case case6 => exact issueTr_completes hx
  all_goals exact completes_next _

theorem execSwr_completes {w : Lane} : Completes (execSwr w s) := by
  fun_cases execSwr w s
  case case1 h => simp [h] at hx
  all_goals exact completes_next _

theorem memLane_completes {w : Lane} {size : Nat} {cas : Bool} {what : Dest → BitVec 64 → BitVec 64 → AccWhat} :
    Completes (s.memLane w size cas what) := by
  fun_cases State.memLane s w size cas what
  case case1 h => simp [h] at hx
  all_goals exact completes_next _

theorem laneOp_completes {w : Lane} {f : Word32 → Word32 → Word32 → FRes} : Completes (s.laneOp w f) := by
  unfold State.laneOp; exact issueAlu_completes hx

theorem laneInt_completes {w : Lane} {f : Word32 → Word32 → Word32 → Word32} : Completes (s.laneInt w f) := by
  unfold State.laneInt; exact laneOp_completes hx

theorem laneFloat_completes {w : Lane} {op : FF → Rm → Word32 → Word32 → Word32 → FRes} : Completes (s.laneFloat w op) := by
  unfold State.laneFloat; exact laneOp_completes hx

theorem predOp_completes {w : Lane} {f : LaneMask → LaneMask → LaneMask} : Completes (s.predOp w f) := by
  unfold State.predOp; exact issueAlu_completes hx

theorem vtos_completes {w : Lane} {f : Word32 → Word32 → Word64} : Completes (s.vtos w f) := by
  unfold State.vtos; exact issueAlu_completes hx

theorem setBitsOf_completes {w : Lane} {f : Fullness} : Completes (s.setBitsOf w f) := by
  unfold State.setBitsOf; exact issueAlu_completes hx

theorem atomLane_completes {w : Lane} {ret : Bool} {fn : AtomFn} : Completes (s.atomLane w ret fn) := by
  unfold State.atomLane; exact memLane_completes hx

/-- A lane word whose split stands at it answers a next state. -/
theorem lane_completes (i : Instr) (h : i.origin = .lane) : Completes (exec i s) := by
  cases i <;> cases h <;> dsimp only [exec]
  case add | sub | mul | mulhi | mad | div | rem | abs | neg | min | max | clamp | and | or | xor | not | andn | shl | shr |
      rot | bfx | bfi | popc | clz | ctz | brev | bperm | mov | packB32 | unpackB32 => exact laneInt_completes hx
  case cmp | sel | pget | pset | cmpFloat | shfl | vballotS | vballotV | vmatch | vreduce | vscan | stov | srd =>
    exact issueAlu_completes hx
  case pand | por | pxor | pnot => exact predOp_completes hx
  case addFloat | subFloat | mulFloat | fma | divFloat | sqrt | rsqrt | rcp | minFloat | maxFloat | absFloat | negFloat |
      classFloat | rint | copysign | exp2 | log2 | sin | cos | tanh | sigmoid | gelu | clampFloat =>
    exact laneFloat_completes hx
  case dot2 | cvt | packFloat | unpackFloat =>
    dsimp only [execDot2, execCvt, execPackFloat, execUnpackFloat]; exact laneOp_completes hx
  case vtosB32 | vtosN32 | vtosS32 =>
    dsimp only [execVtosB32, execVtosN32, execVtosS32]; exact vtos_completes hx
  case empty | fill => exact setBitsOf_completes hx
  case swr => exact execSwr_completes hx
  case ld | st => exact memLane_completes hx
  case atomAdd | atomMin | atomMax | atomAnd | atomOr | atomXor | atomXchg | atomCas | redAdd | redMin | redMax | redAnd |
      redOr | redXor => exact atomLane_completes hx
  case bra | call | ret | brk | exit | trap | bkpt | nop => exact control_completes hx
  case jmpi | calli => exact indirect_completes hx
  case mldb | mma | mdrn | mzero => exact issueMx_completes hx
  case mdrawCl | mdrawTok | trnew | tradd | trfork | trpruneBr | trpruneSub | trcommit | trinfo | amask | gmask | kvslotRd |
      kvslotOwn => exact issueTr_completes hx
  case trtag => exact execTrtag_completes hx
  case fence | barWait | ridgeDetach => exact plainLane_completes hx (fun _ _ => completes_next _)
  case waitc => exact plainLane_completes hx (fun _ _ => completes_ite (completes_next _) (completes_next _))
  case barSync | barArrive => exact plainLane_completes hx (fun _ _ => by split <;> exact completes_next _)

end LaneWords

section AccessWords
variable {s : State} {gid : Nat} {g : Group} (hx : s.accessIssuer = some (gid, g))
include hx

theorem accessWord_completes {srcs dsts : List SReg} {f : Nat → Group → Out} (hf : ∀ n g, Completes (f n g)) :
    Completes (s.accessWord srcs dsts f) := by
  fun_cases State.accessWord s srcs dsts f
  case case1 h => simp [h] at hx
  case case2 => exact hf _ _
  case case3 => exact completes_next _

theorem accessOp_completes {srcs : List SReg} {d : SReg} {f : Group → Word64} : Completes (s.accessOp srcs d f) := by
  unfold State.accessOp; exact accessWord_completes hx (fun _ _ => completes_next _)

theorem accessAlu_completes {d a b : SReg} {f : Word64 → Word64 → Word64} : Completes (s.accessAlu d a b f) := by
  unfold State.accessAlu; exact accessOp_completes hx

theorem accessImm_completes {d a : SReg} {f : Word64 → Word64} : Completes (s.accessImm d a f) := by
  unfold State.accessImm; exact accessOp_completes hx

theorem accessK_completes {d a b : SReg} {f : Bool → Bool → Bool} : Completes (s.accessK d a b f) := by
  unfold State.accessK; exact accessWord_completes hx (fun _ _ => completes_next _)

theorem accessMem_completes {srcs dsts : List SReg} {a : SReg} {off : VAddr} {size : Nat} {kind : Kind} {sc : Scope}
    {what : Group → AccWhat} : Completes (s.accessMem srcs dsts a off size kind sc what) := by
  unfold State.accessMem
  exact accessWord_completes hx (fun _ _ => completes_ite (completes_next _) (completes_next _))

theorem accessJumpReg_completes {a : SReg} {link : Bool} : Completes (s.accessJumpReg a link) := by
  unfold State.accessJumpReg
  exact accessWord_completes hx (fun _ _ => completes_ite (completes_next _) (completes_ite (completes_next _) (completes_next _)))

theorem accessBreak_completes {cause : Cause} {c : BitVec 10} : Completes (s.accessBreak cause c) := by
  unfold State.accessBreak; exact accessWord_completes hx (fun _ _ => completes_next _)

omit hx in
theorem accessPhase_completes {w : BarWait} : Completes (s.accessPhase gid g w) := by
  fun_cases State.accessPhase s gid g w <;> exact completes_next _

theorem engineWord_completes {t a : SReg} {k : Nat} {cls : Option Cls} {ready : Group → Bool}
    {f : State → Nat → Nat → Group → List Word64 → State} : Completes (s.engineWord t a k cls ready f) := by
  unfold State.engineWord
  exact accessWord_completes hx (fun _ _ => completes_ite (completes_next _) (completes_next _))

theorem collWord_completes {t a : SReg} {op : Nat} {bf16 : Bool} : Completes (s.collWord t a op bf16) := by
  unfold State.collWord; exact engineWord_completes hx

theorem textWord_completes {t a : SReg} {k : Nat} {kind : TextKind} {ready : Group → Bool} :
    Completes (s.textWord t a k kind ready) := by
  unfold State.textWord; exact engineWord_completes hx

theorem execCalla_completes {k : BitVec 2} {n : Bool} {o : BitVec 23} : Completes (execCalla k n o s) := by
  fun_cases execCalla k n o s
  case case1 h => simp [h] at hx
  all_goals exact completes_next _

/-- An access word whose program stands at it answers a next state. -/
theorem access_completes (i : Instr) (h : i.origin = .access) : Completes (exec i s) := by
  cases i <;> cases h <;> dsimp only [exec]
  case accessAdd | accessSub | accessMul | accessMulhi | accessAnd | accessOr | accessXor | accessAndn | accessShl | accessShr |
      sar | accessRot | accessMin | accessMax | minu | maxu | accessDiv | accessRem | divu | remu => exact accessAlu_completes hx
  case addi | andi | ori | xori | shli | shri | sari => exact accessImm_completes hx
  case movi | exti | accessSrd => exact accessOp_completes hx
  case kand | kor | kxor | kandn => exact accessK_completes hx
  case ld64 | ld32 | st64 | st32 | lds | sts | aadd | axchg => exact accessMem_completes hx
  case jr | jrl => exact accessJumpReg_completes hx
  case calla => exact execCalla_completes hx
  case accessTrap | accessBkpt => exact accessBreak_completes hx
  case agset | aggo | aghalt | cpnd | dload => exact engineWord_completes hx
  case collAllReduce | collReduceScatter | collAllGather => exact collWord_completes hx
  case txtok | txdet | txload | mbpost => exact textWord_completes hx
  case accessCmp | br | halt | accessNop | accessSwr | sete | setf | accessFence =>
    exact accessWord_completes hx (fun _ _ => completes_next _)
  case qputRegister | accessWaitc | accessBarArrive =>
    exact accessWord_completes hx (fun _ _ => by split <;> exact completes_next _)
  case qputMemory =>
    exact accessWord_completes hx (fun _ _ => completes_ite (completes_next _) (completes_ite (completes_next _)
      (completes_ite (completes_next _) (completes_next _))))
  case accessBarSync =>
    refine accessWord_completes hx (fun _ _ => ?_)
    split
    · exact accessPhase_completes
    · split <;> exact completes_next _
  case accessBarWait =>
    refine accessWord_completes hx (fun _ _ => ?_)
    split
    · exact accessPhase_completes
    · exact completes_next _

end AccessWords

section DrainWords
variable {s : State} {d : Drain} {o : MxOp} {g : Group} (hx : s.drainIssuer = some (d, o, g))
include hx

theorem drainOp_completes {dst : BitVec 2} {f : Drain → FRes} : Completes (s.drainOp dst f) := by
  fun_cases State.drainOp s dst f
  case case1 h => simp [h] at hx
  case case2 => exact completes_next _

/-- A drain word whose drain stands at it answers a next state. -/
theorem drain_completes (i : Instr) (h : i.origin = .drain) : Completes (exec i s) := by
  cases i <;> cases h <;> dsimp only [exec]
  case drainEnd =>
    fun_cases execDrainEnd s
    case case1 h => simp [h] at hx
    all_goals exact completes_next _
  case drainStore sc a f =>
    fun_cases execDrainStore sc a f s
    case case1 h => simp [h] at hx
    all_goals exact completes_next _
  case drainStoreb sc a f =>
    fun_cases execDrainStoreb sc a f s
    case case1 h => simp [h] at hx
    all_goals exact completes_next _
  all_goals exact drainOp_completes hx

end DrainWords

/-! ### Events -/

theorem failOut_completes {s old : State} {q : Nat} {x : Queue} {bitNo : Nat} {skip : Bool} :
    Completes (s.failOut old q x bitNo skip) := completes_next _

theorem consume_completes {s : State} {q : Nat} {mine : Nat → Bool} {f : State → Queue → Nat → Out}
    (hf : ∀ s x p, Completes (f s x p)) : Completes (s.consume q mine f) := by
  fun_cases State.consume s q mine f
  case case8 => exact hf _ _ _
  all_goals exact completes_next _

theorem eventTest_completes {s old : State} {q : Nat} {x : Queue} {va : VAddr} {target : Nat} {sc : Scope} :
    Completes (s.eventTest old q x va target sc) := by
  fun_cases State.eventTest s old q x va target sc <;> exact completes_next _

theorem cmaint_completes {s : State} {q form : Nat} {next : State → State} : Completes (s.cmaint q form next) :=
  consume_completes (fun _ _ _ => completes_ite failOut_completes (completes_next _))

theorem signalPacket_completes {s : State} {q : Nat} {add : Bool} : Completes (s.signalPacket q add) :=
  consume_completes (fun _ _ _ => completes_next _)

theorem tdispMove_completes {s : State} {v : Nat} {f : Tdisp → Option Tdisp} : Completes (s.tdispMove v f) := by
  fun_cases State.tdispMove s v f <;> exact completes_next _

theorem execDispatch_completes {q : Nat} {s : State} : Completes (execDispatch q s) := by
  refine consume_completes (fun s1 x p => ?_)
  dsimp only
  split
  · exact completes_next _
  · exact failOut_completes
  · refine completes_ite failOut_completes ?_
    split
    · exact completes_next _
    · exact failOut_completes
    · split <;> exact completes_next _

theorem execPrologue_completes {q : Nat} {s : State} : Completes (execPrologue q s) := by
  refine consume_completes (fun s1 x p => ?_)
  split <;> exact completes_next _

theorem execWaitevReread_completes {q : Nat} {s : State} : Completes (execWaitevReread q s) := by
  fun_cases execWaitevReread q s
  case case2 => exact eventTest_completes
  all_goals exact completes_next _

/-- Every branch of an event's meaning ends in a next state. -/
theorem event_completes (s : State) (i : Instr) (h : i.origin = .event) : Completes (exec i s) := by
  cases i <;> cases h <;> dsimp only [exec]
  case packetNop => exact consume_completes (fun _ _ _ => completes_next _)
  case dispatch => exact execDispatch_completes
  case prologue => exact execPrologue_completes
  case cmaintWritebackInvalidate | cmaintWriteback | cmaintTranslation | cmaintFetchInvalidate | cmaintFlipToHost |
      cmaintFlipToDevice | cmaintUnpin => exact cmaint_completes
  case waitev => exact consume_completes (fun _ _ _ => eventTest_completes)
  case waitevReread => exact execWaitevReread_completes
  case signalWrite | signalAdd => exact signalPacket_completes
  case lockInterface | startInterface | stopInterface => exact tdispMove_completes
  case doorbell => fun_cases execDoorbell <;> exact completes_next _
  case prologuePass => fun_cases execProloguePass <;> exact completes_next _
  case signalRelease => fun_cases execSignalRelease <;> exact completes_next _
  case teamPlacement => fun_cases execTeamPlacement <;> exact completes_next _
  case opChangeSettled => fun_cases execOpChangeSettled <;> exact completes_next _
  case groupRetire => fun_cases execGroupRetire <;> exact completes_next _
  case completionRecordWrite => fun_cases execCompletionRecordWrite <;> exact completes_next _
  case ridgeLaunchParameters => fun_cases execRidgeLaunchParameters <;> exact completes_next _
  case ridgeMemberTotals => fun_cases execRidgeMemberTotals <;> exact completes_next _
  case ridgeDetachNotice => fun_cases execRidgeDetachNotice <;> exact completes_next _
  case ridgeDeparture => fun_cases execRidgeDeparture <;> exact completes_next _
  case ridgeDepartureAck => fun_cases execRidgeDepartureAck <;> exact completes_next _
  case runEntry => fun_cases execRunEntry <;> exact completes_next _
  case runCompletion => fun_cases execRunCompletion <;> exact completes_next _
  case awaitSatisfied => fun_cases execAwaitSatisfied <;> exact completes_next _
  case joinFill => fun_cases execJoinFill <;> exact completes_next _
  case windowSlide => fun_cases execWindowSlide <;> exact completes_next _
  case slideFillsLanded => fun_cases execSlideFillsLanded <;> exact completes_next _
  case loadCompletion => fun_cases execLoadCompletion <;> exact completes_next _
  case treeOperationArrival => fun_cases execTreeOperationArrival <;> exact completes_next _
  case treeReply => fun_cases execTreeReply <;> exact completes_next _
  case cancelBroadcast => fun_cases execCancelBroadcast <;> exact completes_next _
  case cancelAck => fun_cases execCancelAck <;> exact completes_next _
  case releaseBroadcast => fun_cases execReleaseBroadcast <;> exact completes_next _
  case releaseAck => fun_cases execReleaseAck <;> exact completes_next _
  case compactionMove => fun_cases execCompactionMove <;> exact completes_next _
  case compactionSwitch => fun_cases execCompactionSwitch <;> exact completes_next _
  case wcAgeDrain => fun_cases execWcAgeDrain <;> exact completes_next _
  case wcDrainArrival => fun_cases execWcDrainArrival <;> exact completes_next _
  case remoteRequest => fun_cases execRemoteRequest <;> exact completes_next _
  case remoteResponse => fun_cases execRemoteResponse <;> exact completes_next _
  case flitReceive => fun_cases execFlitReceive <;> exact completes_next _
  case portDown => fun_cases execPortDown <;> exact completes_next _
  case cxlMemRead => fun_cases execCxlMemRead <;> exact completes_next _
  case cxlMemWrite => fun_cases execCxlMemWrite <;> exact completes_next _
  case biasLineAction => fun_cases execBiasLineAction <;> exact completes_next _
  case backInvalidateResponse => fun_cases execBackInvalidateResponse <;> exact completes_next _
  case faultRecordPush => fun_cases execFaultRecordPush <;> exact completes_next _
  case faultRecordTake => fun_cases execFaultRecordTake <;> exact completes_next _
  case faultServiceResume => fun_cases execFaultServiceResume <;> exact completes_next _
  case faultDecline => fun_cases execFaultDecline <;> exact completes_next _
  case driverAnswer => fun_cases execDriverAnswer <;> exact completes_next _
  case trapNotice => fun_cases execTrapNotice <;> exact completes_next _
  case hangDetected => fun_cases execHangDetected <;> exact completes_next _
  case teamSave => fun_cases execTeamSave <;> exact completes_next _
  case teamResume => fun_cases execTeamResume <;> exact completes_next _
  case gstopWrite => fun_cases execGstopWrite <;> exact completes_next _
  case firmwareLoad => fun_cases execFirmwareLoad <;> exact completes_next _
  case keyDelivery => fun_cases execKeyDelivery <;> exact completes_next _
  case hlogWrite => fun_cases execHlogWrite <;> exact completes_next _
  case mailboxRegisterWrite => fun_cases execMailboxRegisterWrite <;> exact completes_next _
  case powerStatePs0 => fun_cases execPowerStatePs0 <;> exact completes_next _
  case spdmRequest => fun_cases execSpdmRequest <;> exact completes_next _
  case ideFailure => fun_cases execIdeFailure <;> exact completes_next _
  case flr => fun_cases execFlr <;> exact completes_next _
  case perstRelease => fun_cases execPerstRelease <;> exact completes_next _
  case summitComplete => fun_cases execSummitComplete <;> exact completes_next _
  case powerAlarmRaise => fun_cases execPowerAlarmRaise <;> exact completes_next _
  case powerAlarmClear => fun_cases execPowerAlarmClear <;> exact completes_next _
  case thermtrip => fun_cases execThermtrip <;> exact completes_next _
  case macroReadback => fun_cases execMacroReadback <;> exact completes_next _
  case patrolScrub => fun_cases execPatrolScrub <;> exact completes_next _
  case matrixOpStart => fun_cases execMatrixOpStart <;> exact completes_next _
  case matrixOpComplete => fun_cases execMatrixOpComplete <;> exact completes_next _
  case drainStart => fun_cases execDrainStart <;> exact completes_next _
  case linkedOpRelease => fun_cases execLinkedOpRelease <;> exact completes_next _
  case barrierCompletionDelivery => fun_cases execBarrierCompletionDelivery <;> exact completes_next _
  case ageEntry => fun_cases execAgeEntry <;> exact completes_next _
  case ageStreamEnd => fun_cases execAgeStreamEnd <;> exact completes_next _
  case cpndComplete => fun_cases execCpndComplete <;> exact completes_next _
  case collMatch => fun_cases execCollMatch <;> exact completes_next _
  case collComplete => fun_cases execCollComplete <;> exact completes_next _
  case textCommandComplete => fun_cases execTextCommandComplete <;> exact completes_next _
  case txloadReplacement => fun_cases execTxloadReplacement <;> exact completes_next _
  case dloadComplete => fun_cases execDloadComplete <;> exact completes_next _
  case mailboxDelivery => fun_cases execMailboxDelivery <;> exact completes_next _
  case accessAccepted => fun_cases execAccessAccepted <;> exact completes_next _
  case storeSettled => fun_cases execStoreSettled <;> exact completes_next _
  case accessPerformed => fun_cases execAccessPerformed <;> exact completes_next _
  case cmaintCompletion => fun_cases execCmaintCompletion <;> exact completes_next _
  case ridgePlacementReply => fun_cases execRidgePlacementReply <;> exact completes_next _
  case ridgePreemptNotice => fun_cases execRidgePreemptNotice <;> exact completes_next _
  case flowStop | flowGo | handlerResume | handlerResumeAt | handlerWriteState | handlerKillLanes | handlerKillGroup |
      preemptRequest | queueCreate | queueRestart | permittedSetWrite | tenantPolicyLoad | keyRevoke | plimWrite |
      perfSelectWrite | powerStatePs1 | powerStatePs2 | powerStatePs3 | perstAssertion =>
    exact completes_next _

/-! ### What the decoders answer -/

theorem laneCtor_origin {op : BitVec 8} {fmt xop : BitVec 4} {dst : BitVec 9} {c : Lane → Instr}
    (h : laneCtor op fmt xop dst = some c) (l : Lane) : (c l).origin = .lane := by
  revert h
  fun_cases laneCtor op fmt xop dst
  all_goals rintro ⟨⟩
  all_goals repeat' split
  all_goals rfl

theorem decodeLane_origin {w : Nat} {last : Bool} {x : LaneWord} {i : Instr} (h : decodeLane w last x = .ok i) :
    i.origin = .lane := by
  unfold decodeLane at h
  revert h
  fun_cases decodeRaw w last (RawLane.ofWord x)
  all_goals rintro ⟨⟩
  case case29 => exact laneCtor_origin ‹_› _
  all_goals rfl

theorem regsOk_ok {a b c : Bool} {i j : Instr} (h : regsOk a b c i = .ok j) : j = i := by
  unfold regsOk at h
  split_ifs at h
  exact (Except.ok.inj h).symm

/-- In each row of the table the word's instruction is checked by `regsOk`, answered at once, or refused; the rows of four take
it by `fn`. -/
theorem decodeAccess_origin {x : AccessWord} {i : Instr} (h : decodeAccess x = .ok i) : i.origin = .access := by
  unfold decodeAccess at h
  dsimp only at h
  generalize (BitVec.extractLsb' 24 2 x).toNat = fn at h
  split at h
  case h_1 | h_2 | h_3 | h_4 | h_5 | h_16 =>
    obtain rfl := regsOk_ok h
    rcases fn with _ | _ | _ | _ <;> rfl
  all_goals repeat' split at h
  all_goals first | (obtain rfl := regsOk_ok h; rfl) | (cases h <;> rfl)

theorem decodeDrain_origin {x : DrainWord} {i : Instr} (h : decodeDrain x = .ok i) : i.origin = .drain := by
  unfold decodeDrain at h
  dsimp only at h
  split at h
  all_goals repeat' split at h
  all_goals cases h
  all_goals rfl

/-! ### A step -/

theorem accessIssuer_of_live {s : State} {gid : Nat} {g : Group} (hf : s.focus = .access gid) (hg : s.group gid = some g)
    (hl : g.accessLive = true) : s.accessIssuer = some (gid, g) := by
  unfold State.accessIssuer
  rw [hf]
  simp [hg, hl]

theorem accessIssuer_readsOnly {s s' : State} (h : s.ReadsOnly s') : s'.accessIssuer = s.accessIssuer := by
  rw [h]; rfl

theorem drainIssuer_of_focus {s : State} {op : Nat} (hf : s.focus = .drain op) : s.drainIssuer = s.drainLive op := by
  unfold State.drainIssuer
  rw [hf]

theorem isWord_origin {i : Instr} (h : isWord i = false) : i.origin = .event := by
  cases i <;> cases h <;> rfl

theorem nextLane_completes {s t : State} {gid e : Nat} {i : Instr} (h : s.nextLane gid e = .run i t) : Completes (exec i t) := by
  revert h
  fun_cases State.nextLane s gid e with
  | case2 s' x hx j hj =>
    intro h
    obtain ⟨rfl, rfl⟩ := Fetched.run.inj h
    exact lane_completes hx _ (decodeLane_origin hj)
  | _ => rintro ⟨⟩

theorem nextAccess_completes {s t : State} {gid : Nat} {i : Instr} (h : s.nextAccess gid = .run i t) : Completes (exec i t) := by
  revert h
  fun_cases State.nextAccess s gid with
  | case4 s' g c hc hg hl s2 x hw j hj =>
    intro h
    obtain ⟨rfl, rfl⟩ := Fetched.run.inj h
    have hx : s'.accessIssuer = some (gid, g) := accessIssuer_of_live rfl hg (by simpa using hl)
    exact access_completes ((accessIssuer_readsOnly (accessWordAt_reads hw)).trans hx) _ (decodeAccess_origin hj)
  | _ => rintro ⟨⟩

theorem nextDrain_completes {s t : State} {op : Nat} {i : Instr} (h : s.nextDrain op = .run i t) : Completes (exec i t) := by
  revert h
  fun_cases State.nextDrain s op with
  | case2 s' d o g hd j hj =>
    intro h
    obtain ⟨rfl, rfl⟩ := Fetched.run.inj h
    exact drain_completes ((drainIssuer_of_focus rfl).trans hd) _ (decodeDrain_origin hj)
  | _ => rintro ⟨⟩

/-- An instruction that an agent's move runs completes: an event's meaning always does, a word's because its stream stands at it. -/
theorem moveOf_completes {s t : State} {a : Agent} {i : Instr} (h : s.moveOf a = .run i t) : Completes (exec i t) := by
  revert h
  fun_cases State.moveOf s a with
  | case3 j hj =>
    rintro ⟨⟩
    exact event_completes _ _ (isWord_origin (by simpa using hj))
  | case4 gid e => exact nextLane_completes
  | case5 gid => exact nextAccess_completes
  | case6 op => exact nextDrain_completes
  | _ => rintro ⟨⟩

/-- Settles O37: the step's agent either changes the state alone or runs an instruction, and every such run completes. -/
theorem noStepStops : Obligations.NoStepStops := by
  intro s
  unfold step
  split
  · exact ⟨_, rfl⟩
  · exact moveOf_completes ‹_›

end Sys2Proof.Machine
end

section
/-!
PROOFS. What a step runs (O33): an agent's move is the instruction at which its stream stands.
-/
namespace Sys2Proof.Machine

theorem step_run {s t : State} {i : Instr} (h : s.choose.2.moveOf s.choose.1 = .run i t) : step s = exec i t := by
  unfold step; rw [h]

theorem step_done {s t : State} (h : s.choose.2.moveOf s.choose.1 = .done t) : step s = .next t := by
  unfold step; rw [h]

theorem isWord_of_event {i : Instr} (h : i.origin = .event) : isWord i = false := by
  cases i <;> cases h <;> rfl

/-- A split that stands at a word runs it. -/
theorem nextLane_run {s : State} {gid e : Nat} {x : Issue} {i : Instr} (hx : { s with focus := .lane gid e }.issuer = some x)
    (hi : decodeLane x.g.w (decide (x.en.pos = x.en.len)) (x.en.run.getD x.en.runpos 0) = .ok i) :
    s.nextLane gid e = .run i { s with focus := .lane gid e } := by
  have hi' : decodeLane x.g.w (x.en.pos == x.en.len) (x.en.run.getD x.en.runpos 0) = .ok i := hi
  simp only [State.nextLane, hx, hi']

section Access
variable {s s2 : State} {gid : Nat} {g : Group} {c : Actx} {x : AccessWord}
  (hg : { s with focus := .access gid }.group gid = some g) (hc : { s with focus := .access gid }.actx gid = some c)
  (hl : g.accessLive = true) (hw : { s with focus := .access gid }.accessWordAt c (g.apc.signExtend 64).toNat = .ok s2 x)
include hg hc hl hw

/-- An access program that stands at a word runs it. -/
theorem nextAccess_run {i : Instr} (hi : decodeAccess x = .ok i) : s.nextAccess gid = .run i s2 := by
  simp [State.nextAccess, hg, hc, hl, hw, hi]

/-- An access word that does not decode stops its program. -/
theorem nextAccess_trap {r : Reject} (hi : decodeAccess x = .error r) : s.nextAccess gid =
    .done (s2.trapAccess gid (TrapRec.of (if r.isOperand then .illopnd else .illop) 0 0 g.apc 0 0) false) := by
  simp [State.nextAccess, hg, hc, hl, hw, hi]

end Access

/-- A drain that stands at a word runs it. -/
theorem nextDrain_run {s : State} {op : Nat} {d : Drain} {o : MxOp} {g : Group} {i : Instr}
    (hd : { s with focus := .drain op }.drainLive op = some (d, o, g)) (hi : decodeDrain (d.image.getD d.word 0) = .ok i) :
    s.nextDrain op = .run i { s with focus := .drain op } := by
  simp only [State.nextDrain, hd, hi]

theorem moveOf_event {s : State} {i : Instr} (h : i.origin = .event) :
    s.moveOf (.event i) = .run i { s with focus := .event i } := by
  simp [State.moveOf, isWord_of_event h]

theorem choose_agenda {s : State} {b : Agent} {r : List Agent} (h : s.agenda = b :: r) :
    s.choose = (b, { s with tick := s.tick + 1, agenda := r }) := by
  unfold State.choose; rw [h]

/-- Settles O33: the move of the agent chosen is the word at which it stands, decoded, or the event that it names. -/
theorem stepRunsTheDecodedInstruction : Obligations.StepRunsTheDecodedInstruction := by
  intro s
  refine ⟨?_, ?_, ?_, ?_, fun b r h => choose_agenda h⟩
  · intro gid e x i ha hx hi
    rw [ha] at hx ⊢
    exact step_run (by rw [ha]; exact nextLane_run hx hi)
  · intro gid g y s2 x ha hg hy hl hw
    rw [ha] at hg hy hw
    exact ⟨fun i hi => step_run (by rw [ha]; exact nextAccess_run hg hy hl hw hi),
      fun r hr => step_done (by rw [ha]; exact nextAccess_trap hg hy hl hw hr)⟩
  · intro op d o g i ha hd hi
    rw [ha] at hd ⊢
    exact step_run (by rw [ha]; exact nextDrain_run hd hi)
  · intro i ha hi
    rw [ha]
    exact step_run (by rw [ha]; exact moveOf_event hi)

end Sys2Proof.Machine
end

section
/-!
SUPPORT. Reading the tables of the state after an update: the entry that was updated, the others, and the tables that an update of
another table leaves alone.
-/
namespace Sys2Proof.Machine

variable (s : State)

/-! ### The table updated -/

@[simp] theorem group_setGroup_self (k : Nat) (g : Group) : (s.setGroup k g).group k = some g := look_put_self _ _ _
theorem group_setGroup_ne {k j : Nat} (g : Group) (h : j ≠ k) : (s.setGroup k g).group j = s.group j := look_put_ne _ _ h
@[simp] theorem group_updGroup_self (k : Nat) (f : Group → Group) : (s.updGroup k f).group k = (s.group k).map f := look_upd_self _ _ _
theorem group_updGroup_ne {k j : Nat} (f : Group → Group) (h : j ≠ k) : (s.updGroup k f).group j = s.group j := look_upd_ne _ _ h
@[simp] theorem team_updTeam_self (k : Nat) (f : Team → Team) : (s.updTeam k f).team k = (s.team k).map f := look_upd_self _ _ _
theorem team_updTeam_ne {k j : Nat} (f : Team → Team) (h : j ≠ k) : (s.updTeam k f).team j = s.team j := look_upd_ne _ _ h
@[simp] theorem launch_updLaunch_self (k : Nat) (f : Launch → Launch) : (s.updLaunch k f).launch k = (s.launch k).map f := look_upd_self _ _ _
theorem launch_updLaunch_ne {k j : Nat} (f : Launch → Launch) (h : j ≠ k) : (s.updLaunch k f).launch j = s.launch j := look_upd_ne _ _ h
@[simp] theorem queue_updQueue_self (k : Nat) (f : Queue → Queue) : (s.updQueue k f).queue k = (s.queue k).map f := look_upd_self _ _ _
theorem queue_updQueue_ne {k j : Nat} (f : Queue → Queue) (h : j ≠ k) : (s.updQueue k f).queue j = s.queue j := look_upd_ne _ _ h
@[simp] theorem part_updPart_self (k : Nat) (f : Partition → Partition) : (s.updPart k f).part k = f (s.part k) := by
  simp [State.updPart, State.part, rd]
theorem part_updPart_ne {k j : Nat} (f : Partition → Partition) (h : j ≠ k) : (s.updPart k f).part j = s.part j := by
  simp [State.updPart, State.part, rd, look_put_ne _ _ h]
@[simp] theorem die_updDie_self (k : Nat) (f : Die → Die) : (s.updDie k f).die k = f (s.die k) := by
  simp [State.updDie, State.die, rd]
theorem die_updDie_ne {k j : Nat} (f : Die → Die) (h : j ≠ k) : (s.updDie k f).die j = s.die j := by
  simp [State.updDie, State.die, rd, look_put_ne _ _ h]

/-! ### The other tables -/

@[simp] theorem group_updTeam (a : Nat) (f : Team → Team) (k : Nat) : (s.updTeam a f).group k = s.group k := rfl
@[simp] theorem group_updLaunch (a : Nat) (f : Launch → Launch) (k : Nat) : (s.updLaunch a f).group k = s.group k := rfl
@[simp] theorem group_updDie (a : Nat) (f : Die → Die) (k : Nat) : (s.updDie a f).group k = s.group k := rfl
@[simp] theorem group_emit (m : OutMsg) (k : Nat) : (s.emit m).group k = s.group k := rfl
@[simp] theorem team_setGroup (a : Nat) (g : Group) (k : Nat) : (s.setGroup a g).team k = s.team k := rfl
@[simp] theorem team_updGroup (a : Nat) (f : Group → Group) (k : Nat) : (s.updGroup a f).team k = s.team k := rfl
@[simp] theorem team_updLaunch (a : Nat) (f : Launch → Launch) (k : Nat) : (s.updLaunch a f).team k = s.team k := rfl
@[simp] theorem team_updDie (a : Nat) (f : Die → Die) (k : Nat) : (s.updDie a f).team k = s.team k := rfl
@[simp] theorem team_emit (m : OutMsg) (k : Nat) : (s.emit m).team k = s.team k := rfl
@[simp] theorem launch_setGroup (a : Nat) (g : Group) (k : Nat) : (s.setGroup a g).launch k = s.launch k := rfl
@[simp] theorem launch_updGroup (a : Nat) (f : Group → Group) (k : Nat) : (s.updGroup a f).launch k = s.launch k := rfl
@[simp] theorem launch_updTeam (a : Nat) (f : Team → Team) (k : Nat) : (s.updTeam a f).launch k = s.launch k := rfl
@[simp] theorem launch_updDie (a : Nat) (f : Die → Die) (k : Nat) : (s.updDie a f).launch k = s.launch k := rfl
@[simp] theorem launch_emit (m : OutMsg) (k : Nat) : (s.emit m).launch k = s.launch k := rfl
@[simp] theorem launch_updQueue (a : Nat) (f : Queue → Queue) (k : Nat) : (s.updQueue a f).launch k = s.launch k := rfl
@[simp] theorem queue_emit (m : OutMsg) (k : Nat) : (s.emit m).queue k = s.queue k := rfl
@[simp] theorem updQueue_nextId (a : Nat) (f : Queue → Queue) : (s.updQueue a f).nextId = s.nextId := rfl

/-! ### Messages -/

theorem mem_emit_self (m : OutMsg) : m ∈ (s.emit m).outbox := by simp [State.emit]

theorem mem_emit {m x : OutMsg} (h : x ∈ s.outbox) : x ∈ (s.emit m).outbox := by simp [State.emit, h]

/-- Sending the message of every element of a list sends that of each. -/
theorem mem_foldl_emit {β : Type} (f : β → OutMsg) {l : List β} {b : β} (h : b ∈ l) :
    f b ∈ (l.foldl (fun s b => s.emit (f b)) s).outbox := by
  have keep : ∀ (l : List β) (s : State) (x : OutMsg), x ∈ s.outbox → x ∈ (l.foldl (fun s b => s.emit (f b)) s).outbox := by
    intro l
    induction l with
    | nil => exact fun _ _ hx => hx
    | cons c r ih => exact fun s x hx => ih _ x (mem_emit s hx)
  induction l generalizing s with
  | nil => cases h
  | cons c r ih =>
    rcases List.mem_cons.1 h with rfl | h
    · exact keep r _ _ (mem_emit_self s _)
    · exact ih _ h

end Sys2Proof.Machine
end

section
/-!
PROOFS. A group at its start (O35).
-/
namespace Sys2Proof.Machine

/-- Writing a list's values at the numbers that they stand at leaves each value at its number. -/
theorem rd_foldl_zipIdx (args : List Word64) : ∀ (n : Nat) (m : AMap Word64) (k : Nat),
    rd 0 ((args.zipIdx n).foldl (fun m a => wr 0 m a.2 a.1) m) k =
      if n ≤ k ∧ k < n + args.length then (args[k - n]?).getD 0 else rd 0 m k := by
  induction args with
  | nil => intro n m k; simp
  | cons a r ih =>
    intro n m k
    rw [List.zipIdx_cons, List.foldl_cons, ih, rd_wr]
    rcases Nat.lt_trichotomy k n with hk | rfl | hk
    · rw [if_neg (by omega), if_neg (by omega), if_neg (by omega)]
    · simp
    · obtain ⟨j, rfl⟩ : ∃ j, k = n + 1 + j := ⟨k - (n + 1), by omega⟩
      have e1 : n + 1 + j - (n + 1) = j := by omega
      have e2 : n + 1 + j - n = j + 1 := by omega
      rw [e1, e2, List.getElem?_cons_succ, List.length_cons, if_neg (by omega : n + 1 + j ≠ n)]
      exact if_congr (by omega) rfl rfl

theorem getS_start (tid ix stage die core quarter slot born k : Nat) (l : Launch) :
    (Group.start tid ix stage die core quarter slot l born).getS k = (l.params.args[k]?).getD 0 := by
  refine (rd_foldl_zipIdx l.params.args 0 [] k).trans ?_
  split
  · simp
  · rename_i h
    rw [List.getElem?_eq_none (by omega)]
    rfl

/-- Settles O35: the launch's arguments are written from S0 on, and every other table of the group is empty, so that it reads as its
default. -/
theorem groupsStartAtTheirResetValues : Obligations.GroupsStartAtTheirResetValues := by
  intro tid ix stage die core quarter slot born l
  refine ⟨fun k => ⟨getS_start .., rfl⟩, fun k lane _ => ⟨rfl, rfl, rfl⟩, fun k hk => ?_, rfl, rfl, fun k h0 hk => ?_,
    fun lane _ => ⟨rfl, rfl⟩, rfl, rfl, rfl, fun q => rfl, rfl, rfl, rfl, rfl, ⟨_, rfl, rfl, rfl, rfl, rfl, rfl, ?_⟩, ?_, ?_, rfl⟩
  · simp [Group.getP, Group.start, Nat.ne_of_lt hk]
  · simp [Group.getK, Group.start, Nat.ne_of_gt h0]
  all_goals simp [Group.start, Entry.fresh, nth]

end Sys2Proof.Machine
end

section
/-!
PROOFS. A launch is consumed (O40).
-/
namespace Sys2Proof.Machine

/-- The launch that a queue's packet makes, as its checks leave it. -/
def Launch.taken (s : State) (q : Nat) (x : Queue) (pass : Nat) (p : LaunchParams) (e : Option Nat) : Launch :=
  let l := Launch.start q x.seq.toNat pass x.ridx.toNat x.cfg.prio x.cfg.fserv x.cfg.priv (s.part x.cfg.part).policy.keys x.cfg.part
    x.cfg.root p 0 ⟨Config.chip.toNat, q, x.seq.toNat⟩
  match e with
  | some b => { l with ended := true, teamsLeft := 0, errsum := 1#64 <<< b }
  | none => l

/-- Beside messages to other members, a launch's consumption adds the launch and moves its queue's SEQ. -/
theorem launchWith_keeps {γ : Type} (h : State → γ) (he : ∀ s m, h (State.emit s m) = h s) (s : State) (q : Nat) (x : Queue) (pass : Nat)
    (p : LaunchParams) (e : Option Nat) : h (s.launchWith q x pass p e) =
      h (({ s with nextId := s.nextId + 1, launches := put s.launches s.nextId (Launch.taken s q x pass p e) }).updQueue q
        (fun x => { x with seq := x.seq + 1 })) := by
  unfold State.launchWith
  dsimp only
  split
  · exact (foldl_keeps h _ (fun _ _ => he _ _) _ _).trans (by cases e <;> rfl)
  · cases e <;> rfl

theorem launch_launchWith (s : State) (q : Nat) (x : Queue) (pass : Nat) (p : LaunchParams) (e : Option Nat) (n : Nat) :
    (s.launchWith q x pass p e).launch n = if n = s.nextId then some (Launch.taken s q x pass p e) else s.launch n := by
  rw [launchWith_keeps (fun s => s.launch n) (fun _ _ => rfl)]
  exact look_put ..

theorem queues_launchWith (s : State) (q : Nat) (x : Queue) (pass : Nat) (p : LaunchParams) (e : Option Nat) :
    (s.launchWith q x pass p e).queues = upd s.queues q (fun x => { x with seq := x.seq + 1 }) :=
  launchWith_keeps State.queues (fun _ _ => rfl) s q x pass p e

theorem nextId_launchWith (s : State) (q : Nat) (x : Queue) (pass : Nat) (p : LaunchParams) (e : Option Nat) :
    (s.launchWith q x pass p e).nextId = s.nextId + 1 :=
  launchWith_keeps State.nextId (fun _ _ => rfl) s q x pass p e

/-- Settles O40: the new launch stands under the next number, and only its queue and its number's entry change. -/
theorem launchesTakeTheirQueuesNextNumber : Obligations.LaunchesTakeTheirQueuesNextNumber := by
  intro s q x pass p e hq
  let y : Queue := { x with seq := x.seq + 1, ridx := x.ridx + 1, busy := .none, st := if x.st = .wait then .run else x.st }
  have hl : ∀ n, ((s.launchWith q x pass p e).consumed q).launch n =
      if n = s.nextId then some (Launch.taken s q x pass p e) else s.launch n := launch_launchWith s q x pass p e
  have hy : ((s.launchWith q x pass p e).consumed q).queue q = some y := by
    have hx : (s.launchWith q x pass p e).queue q = some { x with seq := x.seq + 1 } := by
      unfold State.queue at hq ⊢
      rw [queues_launchWith, look_upd_self, hq]; rfl
    unfold State.consumed
    rw [queue_updQueue_self, hx]; rfl
  have hn : ∀ n, n ≠ q → ((s.launchWith q x pass p e).consumed q).queue n = s.queue n := by
    intro n h
    unfold State.consumed
    rw [queue_updQueue_ne _ _ h]
    unfold State.queue
    rw [queues_launchWith, look_upd_ne _ _ h]
  refine ⟨_, Launch.taken s q x pass p e, y, rfl, (hl _).trans (if_pos rfl), hy, ?_⟩
  have hid : ((s.launchWith q x pass p e).consumed q).nextId = s.nextId + 1 := nextId_launchWith s q x pass p e
  cases e with
  | none =>
    exact ⟨rfl, rfl, rfl, rfl, rfl, rfl, rfl, rfl, rfl, rfl, rfl, rfl, rfl, rfl, rfl, hid, fun n h => (hl n).trans (if_neg h), hn,
      fun _ => ⟨rfl, rfl, rfl⟩, nofun⟩
  | some b =>
    exact ⟨rfl, rfl, rfl, rfl, rfl, rfl, rfl, rfl, rfl, rfl, rfl, rfl, rfl, rfl, rfl, hid, fun n h => (hl n).trans (if_neg h), hn,
      nofun, by rintro b ⟨⟩; exact ⟨rfl, rfl, rfl, rfl⟩⟩

end Sys2Proof.Machine
end

section
/-!
PROOFS. Placement of teams (O42).
-/
namespace Sys2Proof.Machine

/-! ### The start of a team -/

theorem length_from' (a n : Nat) : (from' a n).length = n := by simp [from']

/-- Clearing matrix state keeps what does not speak of it. -/
theorem clearQuarters_keeps {γ : Type} (h : State → γ) (hc : ∀ s q, h (State.clearQuarter s q) = h s) (s : State) (l : List (Nat × Nat)) :
    h (l.foldl (fun s q => if s.quarterUsed q.2 then s else s.clearQuarter q.2) s) = h s := by
  refine foldl_keeps h _ (fun s q => ?_) l s
  split
  · rfl
  · exact hc s q.2

theorem freeGroupSlot_lt (s : State) (die core q : Nat) : s.freeGroupSlot die core q < 8 := by
  unfold State.freeGroupSlot
  dsimp only
  cases h : (List.range 8).find? _ with
  | none => decide
  | some i => simpa using List.mem_range.1 (List.mem_of_find?_eq_some h)

/-- The group of an index of a team, at its seat, in some slot. -/
def Group.seated (tid : Nat) (l : Launch) (die : Nat) (cores : List Nat) (ix slot born : Nat) : Group :=
  Group.start tid ix (stageOf l.params ix) die (nth 0 cores (seat l.params.w ix).1) (seat l.params.w ix).2 slot l born

/-- Seating one group of a team. -/
def State.seatGroup (tid : Nat) (l : Launch) (die : Nat) (cores : List Nat) (s : State) (ix : Nat) : State :=
  s.setGroup (tid + 1 + ix) (Group.seated tid l die cores ix
    (s.freeGroupSlot die (nth 0 cores (seat l.params.w ix).1) (seat l.params.w ix).2) s.tick)

/-- The state in which a starting team's groups are seated. -/
def State.teamState (s : State) (lid : Nat) (l : Launch) (die : Nat) (cores : List Nat) : State :=
  let s1 := (quartersOf die cores).foldl (fun s q => if s.quarterUsed q.2 then s else s.clearQuarter q.2) s
  { s1 with
    nextId := s.nextId + 1 + LaunchParams.groups l.params
    teams := put s1.teams s.nextId (Team.start lid l.nextTeam die cores (from' (s.nextId + 1) (LaunchParams.groups l.params)) l)
    launches := put s1.launches lid { l with nextTeam := l.nextTeam + 1, reserved := none, replies := [] } }

theorem startTeam_eq (s : State) (lid : Nat) (l : Launch) (die : Nat) (cores : List Nat) : s.startTeam lid l die cores =
    (List.range (LaunchParams.groups l.params)).foldl (State.seatGroup s.nextId l die cores) (s.teamState lid l die cores) := rfl

/-- Seating groups changes the table of groups alone. -/
theorem startTeam_keeps {γ : Type} (h : State → γ) (hg : ∀ s k g, h (State.setGroup s k g) = h s) (s : State) (lid : Nat) (l : Launch)
    (die : Nat) (cores : List Nat) : h (s.startTeam lid l die cores) = h (s.teamState lid l die cores) := by
  rw [startTeam_eq]
  exact foldl_keeps h _ (fun s _ => hg s _ _) _ _

/-- A team's groups once they are all seated: each at its number, in a slot of the quarter. -/
theorem group_seated (tid : Nat) (l : Launch) (die : Nat) (cores : List Nat) (s : State) : ∀ (n ix : Nat), ix < n →
    ∃ slot born, slot < 8 ∧ ((List.range n).foldl (State.seatGroup tid l die cores) s).group (tid + 1 + ix) =
      some (Group.seated tid l die cores ix slot born) := by
  intro n
  induction n with
  | zero => exact fun ix h => absurd h (Nat.not_lt_zero ix)
  | succ n ih =>
    intro ix h
    rw [List.range_succ, List.foldl_append, List.foldl_cons, List.foldl_nil]
    unfold State.seatGroup
    by_cases e : ix = n
    · subst e
      exact ⟨_, _, freeGroupSlot_lt _ _ _ _, group_setGroup_self _ _ _⟩
    · obtain ⟨slot, born, hs, hg⟩ := ih ix (by omega)
      exact ⟨slot, born, hs, by rw [group_setGroup_ne _ _ (by omega)]; exact hg⟩

theorem team_startTeam (s : State) (lid : Nat) (l : Launch) (die : Nat) (cores : List Nat) : (s.startTeam lid l die cores).team s.nextId =
    some (Team.start lid l.nextTeam die cores (from' (s.nextId + 1) (LaunchParams.groups l.params)) l) := by
  rw [startTeam_keeps (fun t => t.team s.nextId) (fun _ _ _ => rfl)]
  exact look_put_self _ _ _

theorem launch_startTeam (s : State) (lid : Nat) (l : Launch) (die : Nat) (cores : List Nat) : (s.startTeam lid l die cores).launch lid =
    some { l with nextTeam := l.nextTeam + 1, reserved := none, replies := [] } := by
  rw [startTeam_keeps (fun t => t.launch lid) (fun _ _ _ => rfl)]
  exact look_put_self _ _ _

/-! ### Placement -/

/-- What a placement that nothing hinders does: the wait for the operating point, the start, or the reservation. -/
theorem execTeamPlacement_ready {s : State} {lid die : Nat} {l : Launch} {cores : List Nat} (h : PlacementReady s lid l die cores) :
    exec (.teamPlacement lid die cores) s =
      (let (s1, ok) := s.pointReady die l
      if !ok then .next s1
      else if !l.isRidge then .next (s1.startTeam lid l die cores)
      else
        let s2 := s1.updLaunch lid (fun l => { l with reserved := some (die, cores), replies := [] })
        let asked := if l.member = 0 then (List.range l.params.width).filter (fun m => m != 0) else [0]
        .next (asked.foldl (fun s m => s.emit (.ridge l.ref l.nextTeam m ridgePLACE)) s2)) := by
  have hfirst : s.launches.any (fun o => Launch.before o (lid, l) && s.placeable o.1 o.2) = false := by
    simp only [List.any_eq_false, Bool.and_eq_true, not_and, Bool.not_eq_true]
    exact h.first
  show execTeamPlacement lid die cores s = _
  unfold execTeamPlacement
  rw [h.launch]
  dsimp only
  rw [if_neg (by simp [h.places, h.waits, h.unreserved, h.unsaved, h.fits, hfirst])]

theorem pointReady_still {s : State} {die : Nat} {l : Launch} (hm : (s.die die).moving = none) : s.pointReady die l =
    if (s.die die).point ≤ s.pointOf die l then (s, true)
    else (s.updDie die (fun d => { d with moving := some (s.pointOf die l) }), false) := by
  unfold State.pointReady
  dsimp only
  rw [hm]

section Placed
variable {s : State} {lid die : Nat} {l : Launch} {cores : List Nat} (h : PlacementReady s lid l die cores)
  (hm : (s.die die).moving = none)
include h hm

theorem place_starts (hp : (s.die die).point ≤ s.pointOf die l) (hr : l.isRidge = false) :
    exec (.teamPlacement lid die cores) s = .next (s.startTeam lid l die cores) := by
  rw [execTeamPlacement_ready h, pointReady_still hm, if_pos hp]
  simp [hr]

theorem place_waits (hp : s.pointOf die l < (s.die die).point) : exec (.teamPlacement lid die cores) s =
    .next (s.updDie die (fun d => { d with moving := some (s.pointOf die l) })) := by
  rw [execTeamPlacement_ready h, pointReady_still hm, if_neg (by omega)]
  rfl

theorem place_reserves (hp : (s.die die).point ≤ s.pointOf die l) (hr : l.isRidge = true) :
    exec (.teamPlacement lid die cores) s =
      .next ((if l.member = 0 then (List.range l.params.width).filter (fun m => m != 0) else [0]).foldl
        (fun s m => s.emit (.ridge l.ref l.nextTeam m ridgePLACE))
        (s.updLaunch lid (fun l => { l with reserved := some (die, cores), replies := [] }))) := by
  rw [execTeamPlacement_ready h, pointReady_still hm, if_pos hp]
  simp [hr]

end Placed

theorem emits_keep {β γ : Type} (h : State → γ) (he : ∀ s m, h (State.emit s m) = h s) (f : β → OutMsg) (l : List β) (s : State) :
    h (l.foldl (fun s b => s.emit (f b)) s) = h s := foldl_keeps h _ (fun s b => he s (f b)) l s

/-- Settles O42: the placement's guards hold by `PlacementReady`; the operating point and the launch's width choose its branch. -/
theorem teamsArePlacedWhole : Obligations.TeamsArePlacedWhole := by
  refine ⟨fun s lid die l cores h hm => ⟨fun hp hr => ?_, place_waits h hm, fun hp hr => ?_⟩, fun s d q hd hq => ?_⟩
  · refine ⟨_, _, _, place_starts h hm hp hr, team_startTeam .., rfl, rfl, rfl, rfl, length_from' _ _, launch_startTeam .., rfl, rfl,
      fun ix hix => ?_⟩
    obtain ⟨slot, born, hs, hg⟩ := group_seated s.nextId l die cores (s.teamState lid l die cores) _ ix hix
    exact ⟨_, hg, rfl, rfl, rfl, rfl, rfl, hs, rfl, rfl⟩
  · refine ⟨_, { l with reserved := some (die, cores), replies := [] }, place_reserves h hm hp hr, ?_, rfl, rfl, ?_, ?_, fun m h0 hw hmem => ?_⟩
    · refine (emits_keep (fun t => t.launch lid) (fun _ _ => rfl) _ _ _).trans ?_
      rw [launch_updLaunch_self, h.launch]; rfl
    · exact emits_keep State.groups (fun _ _ => rfl) _ _ _
    · exact emits_keep State.teams (fun _ _ => rfl) _ _ _
    · refine mem_foldl_emit _ (fun m => OutMsg.ridge l.ref l.nextTeam m ridgePLACE) ?_
      rw [if_pos hmem]
      simpa using ⟨hw, Nat.ne_of_gt h0⟩
  · refine ⟨s.updDie d (fun x => { x with point := q, moving := none }), ?_, by simp, by simp, fun d' hd' => die_updDie_ne s _ hd'⟩
    show execOpChangeSettled d s = _
    unfold execOpChangeSettled
    rw [hq]
    exact if_pos hd

end Sys2Proof.Machine
end

section
/-!
PROOFS. Retirement of groups and teams (O43).
-/
namespace Sys2Proof.Machine

/-! ### What retirement leaves alone -/

/-- The groups, teams and launches. -/
def State.work (s : State) : AMap Group × AMap Team × AMap Launch := (s.groups, s.teams, s.launches)

theorem writeKeys_work (key : Nat) (bs : List Byte) : ∀ (s : State) (pa : Nat), (s.writeKeys key pa bs).work = s.work := by
  induction bs with
  | nil => exact fun _ _ => rfl
  | cons b r ih => exact fun s pa => ih _ _

theorem unpin_work (s : State) (f : Pin → Bool) : (s.unpin f).work = s.work := by
  unfold State.unpin
  refine foldl_keeps State.work _ (fun s p => ?_) _ s
  split
  · exact writeKeys_work _ _ s _
  · rfl

theorem retarget_work (s : State) (die : Nat) : (s.retarget die).work = s.work := by
  unfold State.retarget
  dsimp only
  split
  · rfl
  · split <;> rfl

theorem powerTest_work (s : State) : s.powerTest.work = s.work := by
  unfold State.powerTest
  split
  · split <;> rfl
  · rfl

theorem leaveCores_work (s : State) (tid : Nat) (t : Team) : (s.leaveCores tid t).work = (s.freeBars tid).work := by
  unfold State.leaveCores
  refine foldl_keeps State.work _ (fun s c => ?_) _ _
  split
  · rfl
  · exact unpin_work _ _

section Work
variable {s t : State} (h : t.work = s.work) (k : Nat)
include h
theorem group_of_work : t.group k = s.group k := congrArg (fun w : AMap Group × AMap Team × AMap Launch => look w.1 k) h
theorem team_of_work : t.team k = s.team k := congrArg (fun w : AMap Group × AMap Team × AMap Launch => look w.2.1 k) h
theorem launch_of_work : t.launch k = s.launch k := congrArg (fun w : AMap Group × AMap Team × AMap Launch => look w.2.2 k) h
end Work

/-- A team without its barrier records. -/
def Team.barless (t : Team) : Team := { t with bars := [], phases := [] }

theorem team_updTeam_map {γ : Type} (φ : Team → γ) {f : Team → Team} (hf : ∀ t, φ (f t) = φ t) (s : State) (a k : Nat) :
    ((s.updTeam a f).team k).map φ = (s.team k).map φ := by
  by_cases h : k = a
  · subst h
    rw [team_updTeam_self, Option.map_map]
    exact congrArg (fun g => Option.map g (s.team k)) (funext hf)
  · rw [team_updTeam_ne s f h]

theorem putBar_team (s : State) (tid : Nat) (t : Team) (k : Nat) (r : BarRec) (j : Nat) :
    ((s.putBar tid t k r).team j).map Team.barless = (s.team j).map Team.barless := by
  unfold State.putBar
  split
  · exact team_updTeam_map Team.barless (f := fun t => { t with bars := put t.bars k r }) (fun _ => rfl) s tid j
  · exact team_updTeam_map Team.barless (f := fun t => { t with phases := wr 0 t.phases k r.phase }) (fun _ => rfl) s tid j

theorem putBar_groups (s : State) (tid : Nat) (t : Team) (k : Nat) (r : BarRec) : (s.putBar tid t k r).groups = s.groups := by
  unfold State.putBar; split <;> rfl

theorem putBar_launches (s : State) (tid : Nat) (t : Team) (k : Nat) (r : BarRec) : (s.putBar tid t k r).launches = s.launches := by
  unfold State.putBar; split <;> rfl

/-- A test of a barrier phase stores records and counts events, and nothing else. -/
theorem barTest_keeps {γ : Type} (h : State → γ) (hb : ∀ s tid t k r, h (State.putBar s tid t k r) = h s)
    (hp : ∀ (s : State) x, h { s with perf := x } = h s) (tid k : Nat) : ∀ (n : Nat) (s : State), h (s.barTest tid k n) = h s := by
  intro n
  induction n with
  | zero => exact fun _ => rfl
  | succ n ih =>
    intro s
    rw [State.barTest]
    cases s.team tid with
    | none => rfl
    | some t =>
      dsimp only
      by_cases hw : !(s.barRec tid t k).bound ∨
          (s.barRec tid t k).arr < (if (s.barRec tid t k).count ≠ 0 then (s.barRec tid t k).count else s.liveGroups tid)
      · rw [if_pos hw]
      · rw [if_neg hw, ih, hp, hb]

theorem retestBars_keeps {γ : Type} (h : State → γ) (hb : ∀ s tid t k r, h (State.putBar s tid t k r) = h s)
    (hp : ∀ (s : State) x, h { s with perf := x } = h s) (s : State) (tid : Nat) : h (s.retestBars tid) = h s := by
  unfold State.retestBars
  refine foldl_keeps h _ (fun s k => ?_) _ s
  split
  · rfl
  · split
    · exact barTest_keeps h hb hp tid k _ s
    · rfl

theorem group_retestBars (s : State) (tid k : Nat) : (s.retestBars tid).group k = s.group k :=
  congrArg (fun m => look m k) (retestBars_keeps State.groups putBar_groups (fun _ _ => rfl) s tid)

theorem launch_retestBars (s : State) (tid k : Nat) : (s.retestBars tid).launch k = s.launch k :=
  congrArg (fun m => look m k) (retestBars_keeps State.launches putBar_launches (fun _ _ => rfl) s tid)

theorem team_retestBars {s : State} {k : Nat} {t : Team} (tid : Nat) (h : s.team k = some t) :
    ∃ t', (s.retestBars tid).team k = some t' ∧ t'.barless = t.barless := by
  have e := retestBars_keeps (fun s => (s.team k).map Team.barless) (fun s tid t i r => putBar_team s tid t i r k)
    (fun _ _ => rfl) s tid
  rw [h, Option.map_some, Option.map_eq_some_iff] at e
  exact e

theorem fields_of_barless {t u : Team} (h : t.barless = u.barless) : t.live = u.live ∧ t.killed = u.killed ∧ t.retired = u.retired ∧
    t.others = u.others ∧ t.saved = u.saved ∧ t.launch = u.launch ∧ t.statusMax = u.statusMax ∧ t.nonZero = u.nonZero := by
  have f {γ : Type} (φ : Team → γ) : φ t.barless = φ u.barless := congrArg φ h
  exact ⟨f Team.live, f Team.killed, f Team.retired, f Team.others, f Team.saved, f Team.launch, f Team.statusMax, f Team.nonZero⟩

/-! ### The team's test -/

/-- The group as it retires (01 R50; 17 R375). -/
def Group.gone (g : Group) : Group :=
  { g with retired := true, oq := [], age := [], table := [], stack := [], aLoad := none, aBar := none, aTrap := none, aSet := none,
           hangSet := none, xblock := [] }

/-- A team that one of its groups has left. -/
def Team.lost (g : Group) (t : Team) : Team :=
  { t with live := t.live - 1, killed := if g.killed || g.handled then t.killed + 1 else t.killed }

/-- A launch with a team's values in its totals (19 R414). -/
def Launch.totalled (t : Team) (l : Launch) : Launch :=
  { l with teamsLeft := l.teamsLeft - 1,
           tot := { l.tot with statusMax := max l.tot.statusMax t.statusMax, nonZero := (l.tot.nonZero + t.nonZero) % 2 ^ 64,
                               killed := (l.tot.killed + t.killed) % 2 ^ 64 } }

theorem teamTest_live {s : State} {tid : Nat} {t : Team} (h : s.team tid = some t) (hl : t.live ≠ 0) : s.teamTest tid = s := by
  unfold State.teamTest
  rw [h]
  exact if_pos (.inr hl)

/-- A done team that no other member holds retires. -/
theorem teamTest_last {s : State} {tid : Nat} {t : Team} (h : s.team tid = some t) (hr : t.retired = false) (hl : t.live = 0)
    (ho : t.others = []) :
    s.teamTest tid = (s.updTeam tid (fun t => { t with done := true })).retireTeam tid { t with done := true } := by
  have hd : (s.updTeam tid (fun t => { t with done := true })).team tid = some { t with done := true } := by
    rw [team_updTeam_self, h]; rfl
  have ht : (s.updTeam tid (fun t => { t with done := true })).detachTest tid = s.updTeam tid (fun t => { t with done := true }) := by
    unfold State.detachTest
    rw [hd]
    exact if_pos (.inr (.inl (by simp [ho])))
  have hm : ({ t with done := true } : Team).mayRetire = true := by simp [Team.mayRetire, ho]
  unfold State.teamTest
  rw [h]
  dsimp only
  rw [if_neg (by simp [hr, hl]), ht, hd]
  exact if_pos hm

theorem group_retireTeam (s : State) (tid : Nat) (t : Team) (h : t.saved = false) (k : Nat) : (s.retireTeam tid t).group k = s.group k := by
  unfold State.retireTeam
  rw [h]
  dsimp only
  rw [group_of_work (powerTest_work _), group_of_work (retarget_work _ _), group_updLaunch, group_updTeam]
  exact group_of_work (leaveCores_work s tid t) k

theorem launch_retireTeam (s : State) (tid : Nat) (t : Team) (h : t.saved = false) :
    (s.retireTeam tid t).launch t.launch = (s.launch t.launch).map (Launch.totalled t) := by
  unfold State.retireTeam
  rw [h]
  dsimp only
  rw [launch_of_work (powerTest_work _), launch_of_work (retarget_work _ _), launch_updLaunch_self, launch_updTeam]
  exact congrArg (Option.map _) (launch_of_work (leaveCores_work s tid t) _)

theorem team_retireTeam {s : State} {tid : Nat} {t : Team} (h : t.saved = false) (ht : s.team tid = some t) :
    ∃ t', (s.retireTeam tid t).team tid = some t' ∧ t'.retired = true ∧ t'.live = t.live ∧ t'.killed = t.killed := by
  have hc : (s.leaveCores tid t).team tid = some { t with bars := [] } := by
    rw [team_of_work (leaveCores_work s tid t)]
    exact (team_updTeam_self s tid _).trans (by rw [ht]; rfl)
  unfold State.retireTeam
  rw [h]
  dsimp only
  rw [team_of_work (powerTest_work _), team_of_work (retarget_work _ _), team_updLaunch, team_updTeam_self]
  simp only [Bool.false_eq_true, if_false, hc]
  exact ⟨_, rfl, rfl, rfl, rfl⟩

/-! ### The group's retirement -/

/-- The state in which a retiring group's team is tested. -/
def State.groupGone (s : State) (gid : Nat) (g : Group) (lid : Nat) : State :=
  (({ s.setGroup gid g.gone with
      notices := s.notices.filter (fun n => n.gid != gid)
      pendingNotices := s.pendingNotices.filter (fun n => n.gid != gid) } : State).updTeam g.tid (Team.lost g)).updLaunch lid
    (fun l => { l with ieee := l.ieee ||| g.ieee })

theorem execGroupRetire_next {s : State} {gid : Nat} {g : Group} {tm : Team} (hg : s.group gid = some g) (ht : s.team g.tid = some tm)
    (hl : g.lanesGone = true) (hr : g.retired = false) (hs : g.saved = false) (ho : g.ops = []) (ha : g.accs = []) :
    exec (.groupRetire gid) s = .next (((s.groupGone gid g tm.launch).retestBars g.tid).teamTest g.tid) := by
  show execGroupRetire gid s = _
  unfold execGroupRetire
  rw [hg]
  dsimp only
  rw [if_neg (by simp [hl, hr, hs, ho, ha])]
  split
  next t h =>
    cases (congrArg (Option.map (Team.lost g)) ht).symm.trans ((team_updTeam_self _ _ _).symm.trans h)
    rfl
  next h => cases (congrArg (Option.map (Team.lost g)) ht).symm.trans ((team_updTeam_self _ _ _).symm.trans h)

section Gone
variable (s : State) (gid : Nat) (g : Group) (lid : Nat)

theorem group_groupGone : (s.groupGone gid g lid).group gid = some g.gone := group_setGroup_self s gid _

theorem group_groupGone_ne {k : Nat} (h : k ≠ gid) : (s.groupGone gid g lid).group k = s.group k := group_setGroup_ne s _ h

theorem team_groupGone : (s.groupGone gid g lid).team g.tid = (s.team g.tid).map (Team.lost g) := team_updTeam_self _ _ _

theorem launch_groupGone :
    (s.groupGone gid g lid).launch lid = (s.launch lid).map (fun l => { l with ieee := l.ieee ||| g.ieee }) :=
  launch_updLaunch_self _ _ _

end Gone

section Last
variable {s : State} {tid : Nat} {t : Team} {l : Launch} (h : s.team tid = some t) (hr : t.retired = false) (hs : t.saved = false)
  (hl : t.live = 0) (ho : t.others = [])
include h hr hs hl ho

/-- A done team's retirement leaves the groups. -/
theorem group_teamTest_last (k : Nat) : (s.teamTest tid).group k = s.group k := by
  rw [teamTest_last h hr hl ho]
  exact group_retireTeam _ tid { t with done := true } hs k

theorem launch_teamTest_last (hla : s.launch t.launch = some l) : (s.teamTest tid).launch t.launch = some (Launch.totalled t l) := by
  rw [teamTest_last h hr hl ho]
  exact (launch_retireTeam _ tid { t with done := true } hs).trans (congrArg (Option.map (Launch.totalled t)) hla)

theorem team_teamTest_last : ∃ t', (s.teamTest tid).team tid = some t' ∧ t'.retired = true ∧ t'.live = t.live ∧ t'.killed = t.killed := by
  rw [teamTest_last h hr hl ho]
  exact team_retireTeam (t := { t with done := true }) hs ((team_updTeam_self s tid _).trans (congrArg (Option.map _) h))

end Last

theorem killed_lost (g : Group) (t : Team) : (Team.lost g t).killed = t.killed + (if g.killed ∨ g.handled then 1 else 0) := by
  unfold Team.lost
  cases g.killed <;> cases g.handled <;> rfl

/-- Settles O43: the team's test does nothing while a group lives, and retires the team after its last one. -/
theorem groupsAndTeamsRetire : Obligations.GroupsAndTeamsRetire := by
  unfold Obligations.GroupsAndTeamsRetire
  intro s gid g tm l hg ht hla hl hr hs ho ha htr hto hts
  have hx := execGroupRetire_next hg ht hl hr hs ho ha
  obtain ⟨u, hu, hb⟩ := team_retestBars g.tid ((team_groupGone s gid g tm.launch).trans (congrArg (Option.map _) ht))
  obtain ⟨hlive, hk, hre, hot, hsa, hlaunch, hstat, hzero⟩ := fields_of_barless hb
  have hgg := (group_retestBars _ g.tid gid).trans (group_groupGone s gid g tm.launch)
  have hgn := fun k (hk : k ≠ gid) => (group_retestBars _ g.tid k).trans (group_groupGone_ne s gid g tm.launch hk)
  have hll := (launch_retestBars _ g.tid _).trans ((launch_groupGone s gid g tm.launch).trans (congrArg (Option.map _) hla))
  generalize (s.groupGone gid g tm.launch).retestBars g.tid = v at hx hu hgg hgn hll
  have hlive : u.live = tm.live - 1 := hlive
  have hkilled := hk.trans (killed_lost g tm)
  have hretired := hre.trans htr
  by_cases h0 : u.live = 0
  · obtain ⟨tm', ht', hret, hlv, hkl⟩ := team_teamTest_last hu hretired (hsa.trans hts) h0 (hot.trans hto)
    have hlr := launch_teamTest_last hu hretired (hsa.trans hts) h0 (hot.trans hto) ((congrArg v.launch hlaunch).trans hll)
    have hgr := group_teamTest_last hu hretired (hsa.trans hts) h0 (hot.trans hto)
    refine ⟨_, g.gone, tm', _, hx, (hgr gid).trans hgg, rfl, Bool.and_false _, rfl, rfl, rfl, fun k hk => (hgr k).trans (hgn k hk), ht',
      hlv.trans hlive, hkl.trans hkilled, (congrArg _ hlaunch.symm).trans hlr, rfl, fun h => ?_, fun _ => ⟨hret, rfl, ?_, ?_, ?_⟩⟩
    · exact absurd h (by rw [hlive] at h0; omega)
    · rw [← show u.statusMax = tm.statusMax from hstat]; rfl
    · rw [← show u.nonZero = tm.nonZero from hzero]; rfl
    · rw [hkl]; rfl
  · rw [teamTest_live hu h0] at hx
    exact ⟨v, g.gone, u, _, hx, hgg, rfl, Bool.and_false _, rfl, rfl, rfl, hgn, hu, hlive, hkilled, hll, rfl,
      fun _ => ⟨hretired, rfl, rfl⟩, fun h => absurd (hlive.trans (by rw [h])) h0⟩

end Sys2Proof.Machine
end

section
/-!
PROOFS. What other members of a ridge launch say (O44).
-/
namespace Sys2Proof.Machine

/-! ### Parameters -/

section Parameters
variable {s : State} {p : RidgeParams} (hst : s.stage = .ready) (h0 : 0 < p.member) (hw : p.member < p.params.width)
  (hnew : ∀ l ∈ s.launches, l.2.ref ≠ p.launch)
include hst h0 hw hnew

/-- Parameters of a launch that this member does not have yet are taken. -/
theorem ridgeParameters_new : ¬ (s.stage ≠ .ready ∨ p.member = 0 ∨ p.params.width ≤ p.member ∨
    s.launches.any (fun l => l.2.ref = p.launch)) := by
  simp only [List.any_eq_true, not_or, not_not, not_exists, not_and, decide_eq_true_eq]
  exact ⟨hst, by omega, by omega, hnew⟩

theorem ridgeParameters_refused (hr : (s.part p.part).ridgeRoot = none) :
    exec (.ridgeLaunchParameters p) s = .next (s.emit (.ridge p.launch 0 p.member ridgeREFUSED)) := by
  show execRidgeLaunchParameters p s = _
  unfold execRidgeLaunchParameters
  dsimp only
  rw [if_neg (ridgeParameters_new hst h0 hw hnew), hr]

theorem ridgeParameters_started {root : Nat} (hr : (s.part p.part).ridgeRoot = some root) :
    ∃ (t : State) (l : Launch), exec (.ridgeLaunchParameters p) s = .next t ∧ t.launch s.nextId = some l ∧ l.root = root ∧
      l.params = p.params ∧ l.member = p.member ∧ l.ref = p.launch ∧ l.prio = p.prio ∧ l.fserv = p.fserv ∧ l.part = p.part := by
  show ∃ (t : State) (l : Launch), execRidgeLaunchParameters p s = _ ∧ _
  unfold execRidgeLaunchParameters
  dsimp only
  rw [if_neg (ridgeParameters_new hst h0 hw hnew), hr]
  exact ⟨_, _, rfl, look_put_self _ _ _, rfl, rfl, rfl, rfl, rfl, rfl, rfl⟩

end Parameters

/-! ### Totals and replies -/

theorem ridgeTotals_added {s : State} {lid m : Nat} {l : Launch} (hl : s.launch lid = some l) (hr : l.isRidge = true)
    (hm : m < l.params.width) (h0 : l.member = 0) (hp : 0 < m) (hn : m ∉ l.memberTotals) (v : Totals) :
    exec (.ridgeMemberTotals lid m v) s = .next (s.updLaunch lid (fun l => { l with
      memberTotals := l.memberTotals ++ [m],
      tot := { statusMax := max l.tot.statusMax v.statusMax, nonZero := (l.tot.nonZero + v.nonZero) % 2 ^ 64,
               killed := (l.tot.killed + v.killed) % 2 ^ 64, faults := min (l.tot.faults + v.faults) 0xFFFFFFFF } })) := by
  show execRidgeMemberTotals lid m v s = _
  unfold execRidgeMemberTotals
  rw [hl]
  exact if_neg (by simp [hr, h0, hn]; omega)

/-- Member 0's word to the others about a position. -/
def State.tellRidge (s : State) (l : Launch) (what : Nat) : State :=
  ((List.range l.params.width).filter (fun m => m != 0)).foldl (fun s m => s.emit (.ridge l.ref l.nextTeam m what)) s

theorem tellRidge_keeps {γ : Type} (h : State → γ) (he : ∀ s m, h (State.emit s m) = h s) (s : State) (l : Launch) (what : Nat) :
    h (s.tellRidge l what) = h s := emits_keep h he _ _ s

theorem mem_tellRidge (s : State) {l : Launch} (what : Nat) {k : Nat} (h0 : 0 < k) (hk : k < l.params.width) :
    OutMsg.ridge l.ref l.nextTeam k what ∈ (s.tellRidge l what).outbox :=
  mem_foldl_emit s (fun m => OutMsg.ridge l.ref l.nextTeam m what) (by simpa using ⟨hk, by omega⟩)

section Reply
variable {s : State} {lid m die : Nat} {l : Launch} {cores : List Nat} (hl : s.launch lid = some l) (hr : l.isRidge = true)
  (hm : m < l.params.width) (hw : l.waits = true) (hne : m ≠ l.member) (hres : l.reserved = some (die, cores))
include hl hr hm hw hne hres

/-- What a reply for the waiting position does: a refusal gives up the reservation, an agreement is member 0's word or is counted. -/
theorem ridgeReply_waiting (hz : l.member = 0 ∨ m = 0) (ok : Bool) : exec (.ridgePlacementReply lid l.nextTeam m ok) s =
    if !ok then
      .next (if l.member = 0 then (s.updLaunch lid (fun l => { l with reserved := none, replies := [] })).tellRidge l ridgeRELEASE
        else s.updLaunch lid (fun l => { l with reserved := none, replies := [] }))
    else if l.member ≠ 0 then .next (s.startTeam lid l die cores)
    else if (if l.replies.contains m then l.replies else l.replies ++ [m]).length = l.params.width - 1 then
      .next ((s.startTeam lid l die cores).tellRidge l ridgeSTART)
    else .next (s.updLaunch lid (fun y => { y with replies := if l.replies.contains m then l.replies else l.replies ++ [m] })) := by
  have hc : ¬ (!l.isRidge ∨ !l.waits ∨ l.nextTeam ≠ l.nextTeam ∨ m = l.member ∨ l.params.width ≤ m ∨ (l.member ≠ 0 ∧ m ≠ 0)) := by
    simp only [hr, hw, hne, Nat.not_le.2 hm]
    simp
    omega
  show execRidgePlacementReply lid l.nextTeam m ok s = _
  unfold execRidgePlacementReply
  rw [hl]
  dsimp only
  rw [if_neg hc, hres]
  rfl

theorem ridgeReply_word (h0 : l.member ≠ 0) (hz : m = 0) : exec (.ridgePlacementReply lid l.nextTeam m true) s =
    .next (s.startTeam lid l die cores) := by
  rw [ridgeReply_waiting hl hr hm hw hne hres (.inr hz)]
  exact if_pos h0

theorem ridgeReply_counted (h0 : l.member = 0) (hn : m ∉ l.replies) (hlast : l.replies.length + 1 ≠ l.params.width - 1) :
    exec (.ridgePlacementReply lid l.nextTeam m true) s = .next (s.updLaunch lid (fun y => { y with replies := l.replies ++ [m] })) := by
  rw [ridgeReply_waiting hl hr hm hw hne hres (.inl h0)]
  simp [h0, hn, hlast]

theorem ridgeReply_last (h0 : l.member = 0) (hn : m ∉ l.replies) (hlast : l.replies.length + 1 = l.params.width - 1) :
    exec (.ridgePlacementReply lid l.nextTeam m true) s = .next ((s.startTeam lid l die cores).tellRidge l ridgeSTART) := by
  rw [ridgeReply_waiting hl hr hm hw hne hres (.inl h0)]
  simp [h0, hn, hlast]

/-- A refusal gives up the reservation and keeps the teams and the groups. -/
theorem ridgeReply_released (hz : l.member = 0 ∨ m = 0) : ∃ t : State,
    exec (.ridgePlacementReply lid l.nextTeam m false) s = .next t ∧
      t.launch lid = some { l with reserved := none, replies := [] } ∧ t.teams = s.teams ∧ t.groups = s.groups := by
  have hu : (s.updLaunch lid (fun l => { l with reserved := none, replies := [] })).launch lid =
      some { l with reserved := none, replies := [] } := by rw [launch_updLaunch_self, hl]; rfl
  refine ⟨_, (ridgeReply_waiting hl hr hm hw hne hres hz false).trans (if_pos rfl), ?_⟩
  split
  · exact ⟨(tellRidge_keeps (fun t => t.launch lid) (fun _ _ => rfl) _ _ _).trans hu,
      tellRidge_keeps State.teams (fun _ _ => rfl) _ _ _, tellRidge_keeps State.groups (fun _ _ => rfl) _ _ _⟩
  · exact ⟨hu, rfl, rfl⟩

end Reply

/-! ### Notices of a position -/

/-- While a group of the team lives, a notice changes the team and nothing retires. -/
theorem updTeam_teamTest_live {s : State} {tid : Nat} {t : Team} (h : s.team tid = some t) {f : Team → Team} (hl : (f t).live ≠ 0) :
    (s.updTeam tid f).teamTest tid = s.updTeam tid f :=
  teamTest_live ((team_updTeam_self s tid f).trans (congrArg (Option.map f) h)) hl

section Notices
variable {s : State} {lid pos m tid : Nat} {tm : Team} (hat : s.teamAt lid pos = some (tid, tm))
include hat

theorem ridgeDetachNotice_next : exec (.ridgeDetachNotice lid pos m) s = .next
    ((s.updTeam tid (fun t => { t with others := upd t.others m (fun x => if x = .live then .detached else x) })).teamTest tid) := by
  show execRidgeDetachNotice lid pos m s = _
  unfold execRidgeDetachNotice
  rw [hat]

variable (htm : s.team tid = some tm)
include htm

theorem ridgeDetach_noted (hl : 0 < tm.live) {v : MemberState} (hv : look tm.others m = some v) :
    ∃ (t : State) (tm' : Team), exec (.ridgeDetachNotice lid pos m) s = .next t ∧
      t.team tid = some tm' ∧ look tm'.others m = some (if v = .live then .detached else v) ∧
      (∀ k, k ≠ m → look tm'.others k = look tm.others k) ∧ tm'.live = tm.live ∧ t.groups = s.groups := by
  refine ⟨_, _, (ridgeDetachNotice_next hat).trans (congrArg _ (updTeam_teamTest_live htm (Nat.ne_of_gt hl))),
    (team_updTeam_self _ _ _).trans (congrArg _ htm), ?_, fun k hk => look_upd_ne _ _ hk, rfl, rfl⟩
  exact (look_upd_self _ _ _).trans (congrArg _ hv)

theorem ridgeAck_noted (hl : 0 < tm.live) (hd : tm.departed = true) (ho : (look tm.others m).isSome = true) (ha : m ∉ tm.acks) :
    exec (.ridgeDepartureAck lid pos m) s = .next (s.updTeam tid (fun t => { t with acks := t.acks ++ [m] })) := by
  show execRidgeDepartureAck lid pos m s = _
  unfold execRidgeDepartureAck
  rw [hat]
  dsimp only
  rw [if_neg (by simpa [hd, ha] using Option.isSome_iff_ne_none.1 ho)]
  exact congrArg _ (updTeam_teamTest_live htm (Nat.ne_of_gt hl))

end Notices

theorem drainWc_empty {s : State} (h : s.wc = []) (cid : Nat) (f : WcEntry → Bool) : s.drainWc cid f = s := by
  have e : s.setWc cid [] = s := by
    show ({ s with wc := wr [] s.wc cid [] } : State) = s
    rw [h]
    exact (congrArg (fun w => ({ s with wc := w } : State)) h.symm)
  unfold State.drainWc
  rw [show s.wcOf cid = [] by unfold State.wcOf; rw [h]; rfl]
  exact e

theorem drainWcs_empty (f : WcEntry → Bool) (cs : List Nat) {s : State} (h : s.wc = []) :
    cs.foldl (fun s c => s.drainWc c f) s = s := by
  induction cs with
  | nil => rfl
  | cons c r ih => rw [List.foldl_cons, drainWc_empty h, ih]

/-- With no request to the member open, its departure is acknowledged at once (12 R300). -/
theorem ackTest_departed {s : State} {tid : Nat} {t : Team} {m : Nat} (h : s.team tid = some t) (ho : look t.others m = some .departed)
    (hq : s.reqs = []) (ref : LaunchRef) (pos : Nat) : s.ackTest tid ref pos m =
      (s.updTeam tid (fun t => { t with others := put t.others m .acked })).emit (.ridge ref pos m ridgeACK) := by
  unfold State.ackTest
  rw [h]
  exact if_neg (by simp [ho, hq])

theorem ridgeDeparture_acked {s : State} {lid pos m tid : Nat} {tm : Team} {l : Launch} (hat : s.teamAt lid pos = some (tid, tm))
    (htm : s.team tid = some tm) (hla : s.launch lid = some l) (ho : (look tm.others m).isSome = true)
    (ha : look tm.others m ≠ some .acked) (hq : s.reqs = []) (hwc : s.wc = []) (hl : 0 < tm.live) :
    ∃ (t : State) (tm' : Team), exec (.ridgeDeparture lid pos m) s = .next t ∧ t.team tid = some tm' ∧
      look tm'.others m = some .acked ∧ OutMsg.ridge l.ref pos m ridgeACK ∈ t.outbox := by
  let s1 := s.updTeam tid (fun t => { t with others := put t.others m .departed })
  have h1 : s1.team tid = some { tm with others := put tm.others m .departed } :=
    (team_updTeam_self _ _ _).trans (congrArg _ htm)
  let s2 := (s1.updTeam tid (fun t => { t with others := put t.others m .acked })).emit (.ridge l.ref pos m ridgeACK)
  have h2 : s2.team tid = some { tm with others := put (put tm.others m .departed) m .acked } :=
    (team_updTeam_self _ _ _).trans (congrArg _ h1)
  refine ⟨s2, _, ?_, h2, look_put_self _ _ _, mem_emit_self _ _⟩
  show execRidgeDeparture lid pos m s = _
  unfold execRidgeDeparture
  rw [hat, hla]
  dsimp only
  rw [if_neg (by simpa [ha] using Option.isSome_iff_ne_none.1 ho), drainWcs_empty _ _ (s := s1) hwc,
    ackTest_departed h1 (look_put_self _ _ _) hq]
  exact congrArg _ (teamTest_live h2 (Nat.ne_of_gt hl))

section Preempt
variable {s : State} {lid pos m tid : Nat} {tm : Team} {l : Launch} (hat : s.teamAt lid pos = some (tid, tm))
  (hla : s.launch lid = some l) (ho : (look tm.others m).isSome = true)
include hat hla ho

theorem ridgePreempt_saves : exec (.ridgePreemptNotice lid pos m false) s = .next (s.preemptTeam tid) := by
  show execRidgePreemptNotice lid pos m false s = _
  unfold execRidgePreemptNotice
  rw [hat, hla]
  dsimp only
  rw [if_neg (by simpa using Option.isSome_iff_ne_none.1 ho)]
  rfl

theorem ridgePreempt_resumes {c : List Nat} (hc : s.pickCores lid l (s.returning tm) (s.resumeRoom tm 0) 0 = some c) :
    exec (.ridgePreemptNotice lid pos m true) s = .next ((s.tryResume tid 0 c).getD s) := by
  show execRidgePreemptNotice lid pos m true s = _
  unfold execRidgePreemptNotice
  rw [hat, hla]
  dsimp only
  rw [if_neg (by simpa using Option.isSome_iff_ne_none.1 ho), hc]
  rfl

end Preempt

/-- Settles O44: each message in the branch that its clause's premises choose. -/
theorem ridgeMembersKeepInStep : Obligations.RidgeMembersKeepInStep := by
  refine ⟨fun s p hst h0 hw hnew => ⟨ridgeParameters_refused hst h0 hw hnew, fun _ => ridgeParameters_started hst h0 hw hnew⟩,
    fun s lid l m hl hr hm => ⟨fun h0 hp hn v => ?_, fun hw hne die cores hres =>
      ⟨ridgeReply_word hl hr hm hw hne hres, ridgeReply_counted hl hr hm hw hne hres, fun h0 hn hlast => ?_, fun hz => ?_⟩⟩,
    fun s lid pos m tid tm l hat htm hla => ⟨fun hl => ⟨fun v => ridgeDetach_noted hat htm hl, ridgeAck_noted hat htm hl⟩,
      ridgeDeparture_acked hat htm hla, fun ho => ⟨ridgePreempt_saves hat hla ho, fun c => ridgePreempt_resumes hat hla ho⟩⟩⟩
  · exact ⟨_, _, ridgeTotals_added hl hr hm h0 hp hn v, (launch_updLaunch_self _ _ _).trans (congrArg _ hl), rfl, rfl, rfl, rfl, rfl⟩
  · exact ⟨_, ridgeReply_last hl hr hm hw hne hres h0 hn hlast, tellRidge_keeps State.teams (fun _ _ => rfl) _ _ _,
      tellRidge_keeps State.groups (fun _ _ => rfl) _ _ _, fun k => mem_tellRidge _ _⟩
  · obtain ⟨t, ht, htl, hteams, hgroups⟩ := ridgeReply_released hl hr hm hw hne hres hz
    exact ⟨t, _, ht, htl, rfl, rfl, hteams, hgroups⟩

end Sys2Proof.Machine
end

section
/-!
SUPPORT. Entries of the split table, and splits between runs that no join holds (07 R188, R195).
-/
namespace Sys2Proof.Machine

/-- What some element establishes and every element keeps holds after the fold. -/
theorem foldl_establishes {α β : Type} {P : α → Prop} {f : α → β → α} {b : β} (hb : ∀ a, P (f a b)) :
    ∀ (l : List β), (∀ a, ∀ c ∈ l, P a → P (f a c)) → ∀ a, P a ∨ b ∈ l → P (l.foldl f a) := by
  intro l
  induction l with
  | nil => exact fun _ a h => h.resolve_right (List.not_mem_nil)
  | cons c r ih =>
    intro hk a h
    refine ih (fun a c hc => hk a c (List.mem_cons_of_mem _ hc)) _ ?_
    rcases h with h | h
    · exact .inl (hk a c List.mem_cons_self h)
    · rcases List.mem_cons.1 h with rfl | h
      · exact .inl (hb a)
      · exact .inr h

section Entries
variable (g : Group) (e : Nat)

@[simp] theorem entry_setEntry_self (en : Entry) : (g.setEntry e en).entry e = some en := look_put_self _ _ _
@[simp] theorem entry_updEntry_self (f : Entry → Entry) : (g.updEntry e f).entry e = (g.entry e).map f := look_upd_self _ _ _
theorem entry_updEntry_ne (f : Entry → Entry) {n : Nat} (h : n ≠ e) : (g.updEntry e f).entry n = g.entry n := look_upd_ne _ _ h
@[simp] theorem entry_finalPops (n : Nat) : (g.finalPops n).entry e = g.entry e := rfl
@[simp] theorem entry_returnPops (n : Nat) : (g.returnPops n).entry e = g.entry e := rfl

end Entries

/-- The entry of a split that no join holds, once it is settled (07 R195). -/
def Entry.settled (en : Entry) (g : Group) : Entry := { en with st := if g.awaitFull en then .ready else .awaitingFull }

/-- A split between runs that waits for its registers at most, with no join to arrive at. -/
structure Entry.Alone (en : Entry) : Prop where
  split : en.join = false
  slide : en.slide = none
  barWait : en.barWait = []
  parent : en.parent = .none
  ready : en.st = .ready ∨ en.st = .awaitingFull

theorem settle_alone {g : Group} {e : Nat} {en : Entry} (h : g.entry e = some en) (ha : en.Alone) (id : Nat) :
    g.settle id e = g.setEntry e (en.settled g) := by
  obtain ⟨hj, hs, hb, hp, -⟩ := ha
  unfold Group.settle Group.settleN Entry.settled
  rw [h]
  dsimp only
  rw [hs, hb, hp]
  cases hf : g.awaitFull en <;> simp [hj, Group.byParent]

/-- A split with an empty await list is ready once it is settled. -/
theorem settled_await_nil {en : Entry} (h : en.await = []) (g : Group) : (en.settled g).st = .ready := by
  unfold Entry.settled Group.awaitFull
  rw [h]; rfl

theorem noticeAll_one {s : State} {gid e : Nat} {g : Group} {en : Entry} (hg : s.group gid = some g) (hen : g.entry e = some en)
    (hst : en.st ≠ .faulted) : s.noticeAll gid [e] = s := by
  unfold State.noticeAll
  rw [List.foldl_cons, List.foldl_nil, hg, Option.bind_some, hen]
  exact if_neg hst

/-- Joins wait for their lanes: settling changes none. -/
theorem settleAll_join {g : Group} {e : Nat} {en : Entry} (h : g.entry e = some en) (hj : en.join = true) (hst : en.st ≠ .faulted)
    (s : State) (gid id : Nat) : s.settleAll gid id g [e] = s.setGroup gid g := by
  have hi : g.settleIf id e = g := by
    unfold Group.settleIf Group.settle Group.settleN
    rw [h]
    dsimp only
    rw [if_pos hj, ite_self]
  show (s.setGroup gid (g.settleIf id e)).noticeAll gid [e] = _
  rw [hi]
  exact noticeAll_one (group_setGroup_self s gid g) h hst

theorem settleAll_alone {g : Group} {e : Nat} {en : Entry} (h : g.entry e = some en) (ha : en.Alone) (s : State) (gid id : Nat) :
    s.settleAll gid id g [e] = s.setGroup gid (g.setEntry e (en.settled g)) := by
  have hi : g.settleIf id e = g.setEntry e (en.settled g) := by
    unfold Group.settleIf
    rw [h]
    dsimp only
    rw [if_neg (by rcases ha.ready with r | r <;> simp [r]), settle_alone h ha]
  have hst : (en.settled g).st ≠ .faulted := by
    unfold Entry.settled
    cases g.awaitFull en <;> exact fun h => nomatch h
  show (s.setGroup gid (g.settleIf id e)).noticeAll gid [e] = _
  rw [hi]
  exact noticeAll_one (group_setGroup_self s gid _) (entry_setEntry_self g e _) hst

/-! ### Stops -/

/-- A stop marks the entry and gives its notice (20 R426). -/
theorem stopSplit_live {s : State} {gid e : Nat} {g : Group} (h : s.group gid = some g) (hk : g.killed = false) (st : SplitState)
    (r : TrapRec) : (s.stopSplit gid e st r).group gid =
        some (g.updEntry e (fun en => { en with st := st, trapRec := some r, hangOld := none })) ∧
      (s.stopSplit gid e st r).notices = s.notices ++ [⟨gid, some e⟩] := by
  have hu : (s.updGroup gid (fun g => g.updEntry e (fun en => { en with st := st, trapRec := some r, hangOld := none }))).group gid =
      some (g.updEntry e (fun en => { en with st := st, trapRec := some r, hangOld := none })) := by
    rw [group_updGroup_self, h]; rfl
  unfold State.stopSplit State.notice
  rw [hu]
  dsimp only
  rw [if_neg (by rw [show (g.updEntry e _).killed = g.killed from rfl, hk]; decide)]
  exact ⟨hu, rfl⟩

end Sys2Proof.Machine
end

section
/-!
PROOFS. Run entry (O45).
-/
namespace Sys2Proof.Machine

/-! ### Temporaries at run entry -/

theorem tState_setTState (g : Group) {k l k' l' : Nat} (x : Fullness) (hl : l < 64) (hl' : l' < 64) :
    (g.setTState k l x).tState k' l' = if k' = k ∧ l' = l then x else g.tState k' l' := by
  simp only [Group.tState, Group.setTState, rd_wr]
  congr 1
  apply propext; omega

theorem tState_updEntry (g : Group) (e : Nat) (f : Entry → Entry) (n l : Nat) : (g.updEntry e f).tState n l = g.tState n l := rfl

/-- Clearing temporaries changes their bits and the accesses' destinations. -/
theorem clearTemps_keeps {γ : Type} (h : Group → γ) (ht : ∀ g n l x, h (Group.setTState g n l x) = h g)
    (ha : ∀ (g : Group) x, h { g with accs := x } = h g) (g : Group) (e : Nat) (m : LaneMask) : h (g.clearTemps e m) = h g :=
  (ha _ _).trans (foldl_keeps h _ (fun g n => overLanes_keeps h m _ (fun g l => ht g n l _) g) _ g)

/-- Emptying a temporary in the lanes of a mask: it is empty there, and what was empty stays so. -/
theorem tState_overLanes_empty (g : Group) (m : LaneMask) (k n : Nat) {l : Nat} (hl : l < 64)
    (h : g.tState n l = .empty ∨ (n = k ∧ inMask m l = true)) :
    (g.overLanes m (fun g l => g.setTState k l .empty)).tState n l = .empty := by
  have keep : ∀ (g : Group) (c : Nat), c < 64 → g.tState n l = .empty → (g.setTState k c .empty).tState n l = .empty := by
    intro g c hc h
    rw [tState_setTState g _ hc hl]
    split
    · rfl
    · exact h
  by_cases hk : n = k
  · subst hk
    exact foldl_establishes (P := fun g => g.tState n l = .empty) (b := l) (fun g => by rw [tState_setTState g _ hl hl, if_pos ⟨rfl, rfl⟩])
      (maskLanes m) (fun g c hc => keep g c (maskLanes_lt c hc)) g (h.imp_right fun h => mem_maskLanes.2 ⟨hl, h.2⟩)
  · exact List.foldlRecOn (motive := fun g : Group => g.tState n l = .empty) (maskLanes m) _ (h.resolve_right fun h => hk h.1)
      (fun g hg c hc => keep g c (maskLanes_lt c hc) hg)

theorem tState_clearTemps (g : Group) (e : Nat) {m : LaneMask} {n l : Nat} (hn : n < 8) (hl : l < 64) (hm : inMask m l = true) :
    (g.clearTemps e m).tState n l = .empty :=
  foldl_establishes (P := fun g : Group => g.tState n l = .empty) (f := fun g n => g.overLanes m (fun g l => g.setTState n l .empty)) (b := n)
    (fun g => tState_overLanes_empty g m n n hl (.inr ⟨rfl, hm⟩)) (List.range 8)
    (fun g c _ h => tState_overLanes_empty g m c n hl (.inl h)) g (.inr (List.mem_range.2 hn))

/-! ### The steps of the entry, in order -/

section Steps
variable {s : State} {gid e : Nat} {g : Group} {c : Actx} {g0 : Group} {tm : Team} {l : Launch} {en : Entry}
  (hg : s.group gid = some g) (hc : s.actx gid = some c) (hw : s.where' gid = some (g0, tm, l)) (hen : g.entry e = some en)
  (hcan : en.canEnter g = true)
include hg hc hw hen hcan

theorem runEntry_misaligned (hva : (en.pc.signExtend 64).toNat % 12 ≠ 0) : exec (.runEntry gid e) s =
    .next (s.trapPrecise gid e { TrapRec.of .align 0 en.mask en.pc 1 e with addr := en.pc }) := by
  show execRunEntry gid e s = _
  simp [execRunEntry, hg, hc, hw, hen, hcan, hva]

variable (hva : (en.pc.signExtend 64).toNat % 12 = 0)
include hva

theorem runEntry_fault {f : XFault} (hx : s.laneWord c (en.pc.signExtend 64).toNat = .fault f) :
    exec (.runEntry gid e) s = .next (s.parkFetch gid e en f) := by
  show execRunEntry gid e s = _
  simp [execRunEntry, hg, hc, hw, hen, hcan, hva, hx]

variable {s1 : State} {x : LaneWord} (hx : s.laneWord c (en.pc.signExtend 64).toNat = .ok s1 x)
include hx

theorem runEntry_trailer (h : LaneWord.op x = 0xFE#8) : exec (.runEntry gid e) s =
    .next (s1.trapPrecise gid e (TrapRec.of .illop 0 en.mask en.pc 1 e)) := by
  show execRunEntry gid e s = _
  simp [execRunEntry, hg, hc, hw, hen, hcan, hva, hx, h]

variable {s2 : State} {b : LaneWord} (hop : LaneWord.op x ≠ 0xFE#8) (hb : s1.wordBefore c (en.pc.signExtend 64).toNat = .ok s2 b)
include hop hb

theorem runEntry_headless (h : LaneWord.op b ≠ 0xFE#8) : exec (.runEntry gid e) s =
    .next (s2.trapPrecise gid e (TrapRec.of .illop 0 en.mask en.pc 1 e)) := by
  show execRunEntry gid e s = _
  simp [execRunEntry, hg, hc, hw, hen, hcan, hva, hx, hop, hb, h]

variable {s3 : State} {words : List LaneWord} {trailer : Option LaneWord} (hbop : LaneWord.op b = 0xFE#8)
  (hr : s2.runWords c 25 (en.pc.signExtend 64).toNat = .ok s3 (words, trailer))
include hbop hr

theorem runEntry_bad {bad : RunTrap} (h : checkRun g.w (decide (1 < l.params.width)) words trailer = .error bad) :
    exec (.runEntry gid e) s =
      .next (s3.trapPrecise gid e (TrapRec.of (if bad.illopnd then .illopnd else .illop) 0 en.mask en.pc bad.index e)) := by
  show execRunEntry gid e s = _
  simp [execRunEntry, hg, hc, hw, hen, hcan, hva, hx, hop, hb, hbop, hr, h]

theorem runEntry_good {r : RunOk} (h : checkRun g.w (decide (1 < l.params.width)) words trailer = .ok r) :
    exec (.runEntry gid e) s =
      .next ((s3.dropTempReplies gid e).setGroup gid ((g.clearTemps e en.mask).updEntry e (fun en =>
        { en with run := words ++ [trailer.getD 0], runpos := 0, cmt := r.cmt, runAwait := r.awaits, await := [] }))) := by
  show execRunEntry gid e s = _
  simp [execRunEntry, hg, hc, hw, hen, hcan, hva, hx, hop, hb, hbop, hr, h]

end Steps

/-- Settles O45: the checks in their order, each with its step. -/
theorem runsAreCheckedAtEntry : Obligations.RunsAreCheckedAtEntry := by
  intro s gid e g c g0 tm l en hg hc hw hen hcan
  refine ⟨runEntry_misaligned hg hc hw hen hcan, fun f hva => runEntry_fault hg hc hw hen hcan hva, fun s1 x hva hx =>
    ⟨runEntry_trailer hg hc hw hen hcan hva hx, fun s2 b hop hb => ⟨runEntry_headless hg hc hw hen hcan hva hx hop hb,
      fun s3 words trailer hbop hr => ⟨fun bad => runEntry_bad hg hc hw hen hcan hva hx hop hb hbop hr, fun r h => ?_⟩⟩⟩⟩
  have keeps {γ : Type} (h : Group → γ) (ht : ∀ g n l x, h (Group.setTState g n l x) = h g)
      (ha : ∀ (g : Group) x, h { g with accs := x } = h g) : h (g.clearTemps e en.mask) = h g := clearTemps_keeps h ht ha g e en.mask
  refine ⟨_, _, _, runEntry_good hg hc hw hen hcan hva hx hop hb hbop hr h, group_setGroup_self _ _ _,
    (entry_updEntry_self _ e _).trans (congrArg (Option.map _) ((keeps (fun g => g.entry e) (fun _ _ _ _ => rfl) (fun _ _ => rfl)).trans hen)),
    rfl, rfl, rfl, rfl, rfl, rfl, rfl,
    fun n lane hn hl hm => (tState_updEntry _ e _ n lane).trans (tState_clearTemps g e hn hl hm), ?_, ?_, ?_, ?_, fun n hn => ?_,
    fun k hk => group_setGroup_ne _ _ hk⟩
  · exact (updEntry_v _ e _).trans (keeps Group.v (fun _ _ _ _ => rfl) (fun _ _ => rfl))
  · exact (updEntry_vst _ e _).trans (keeps Group.vst (fun _ _ _ _ => rfl) (fun _ _ => rfl))
  · exact (updEntry_s _ e _).trans (keeps Group.s (fun _ _ _ _ => rfl) (fun _ _ => rfl))
  · exact (updEntry_p _ e _).trans (keeps Group.p (fun _ _ _ _ => rfl) (fun _ _ => rfl))
  · exact (entry_updEntry_ne _ e _ hn).trans (keeps (fun g => g.entry n) (fun _ _ _ _ => rfl) (fun _ _ => rfl))

end Sys2Proof.Machine
end

section
/-!
PROOFS. Run completion (O46).
-/
namespace Sys2Proof.Machine

/-- The entry of a completed run: at its next run's PC, with its await list and its base. -/
def Entry.completed (post : Option TrapRec) (base : Nat) (en : Entry) : Entry :=
  { en.endRun with pc := en.next, await := en.runAwait, doneIx := 0, done := 0, wbase := base,
                   xfer := if post.isSome then en.xfer else none }

/-- An entry that the completed run of `en` leaves to slide to another base. -/
def Entry.sliding (en : Entry) (post : Option TrapRec) (base : Nat) (y : Entry) : Entry :=
  { y with st := .awaitingFull, xfer := en.xfer,
           slide := some ⟨en.mask, en.wbase, base, if post.isNone ∧ en.xfer.isSome then .transfer else .goOn, false⟩ }

/-- The group of a completed run. -/
def Group.completed (g : Group) (e : Nat) (f : Entry → Entry) : Group := (g.finalPops e).updEntry e f

/-- The group of a completed run whose entry is to slide. -/
def Group.sliding (g : Group) (e : Nat) (en : Entry) (base : Nat) : Group :=
  (g.completed e (Entry.completed (postRecord en e) base)).updEntry e (en.sliding (postRecord en e) base)

theorem entry_completed {g : Group} {e : Nat} {en : Entry} (h : g.entry e = some en) (f : Entry → Entry) :
    (g.completed e f).entry e = some (f en) := (entry_updEntry_self _ e f).trans (congrArg _ h)

theorem entry_sliding {g : Group} {e : Nat} {en : Entry} (h : g.entry e = some en) (base : Nat) :
    (g.sliding e en base).entry e = some (en.sliding (postRecord en e) base (Entry.completed (postRecord en e) base en)) :=
  (entry_updEntry_self _ e _).trans (congrArg _ (entry_completed h _))

section Completion
variable {s : State} {gid e : Nat} {g : Group} {en : Entry} (h : RunDone s gid e g en)
include h

/-- The guards of a completion hold for a run that stands complete. -/
theorem RunDone.completes : ¬ (en.join ∨ en.st ≠ .ready ∨ !en.inRun ∨ en.runpos ≠ en.len ∨
    g.accs.any (fun a => a.stream == .lane && a.entry == e && a.stage == .issued) ∨ !en.holds.isEmpty ∨ g.saved ∨ g.killed) := by
  have ha : g.accs.any (fun a => a.stream == .lane && a.entry == e && a.stage == .issued) = false := by
    simp only [List.any_eq_false, Bool.and_eq_true, beq_iff_eq, not_and]
    exact fun a hm hs => h.accepted a hm hs.1 hs.2
  rw [ha]
  simp [h.split, h.ready, h.inRun, h.last, h.unheld, h.live]

/-- With its base in place, a completed run's post-commit trap or transfer follows. -/
theorem runCompletion_stays (hb : en.reqBase.getD en.wbase = en.wbase) : exec (.runCompletion gid e) s =
    .next ((s.setGroup gid (g.completed e (Entry.completed (postRecord en e) en.wbase))).afterRun gid e (postRecord en e) en.xfer
      (TrapRec.of .trap 0 0 en.pc en.len e)) := by
  show execRunCompletion gid e s = _
  unfold execRunCompletion
  rw [h.group]
  dsimp only
  rw [h.entry]
  dsimp only
  rw [if_neg h.completes, hb, if_neg (not_not.2 rfl)]
  rfl

/-- A requested base is slid to before the transfer; a post-commit trap is taken at once. -/
theorem runCompletion_slides {b : Nat} (hb : en.reqBase = some b) (hne : b ≠ en.wbase) : ∃ u : State,
    u.group gid = some (g.sliding e en b) ∧ u.notices = s.notices ∧ exec (.runCompletion gid e) s =
      .next ((postRecord en e).elim u (fun t => u.stopSplit gid e .trapped t)) := by
  refine ⟨(s.setGroup gid (g.completed e (Entry.completed (postRecord en e) b))).setGroup gid (g.sliding e en b),
    group_setGroup_self _ _ _, rfl, ?_⟩
  show execRunCompletion gid e s = _
  unfold execRunCompletion
  rw [h.group]
  dsimp only
  rw [h.entry]
  dsimp only
  rw [if_neg h.completes, hb, Option.getD_some, if_pos hne]
  unfold Group.sliding
  cases postRecord en e <;> rfl

/-- A post-commit trap marks the completed entry, whether or not it is to slide. -/
theorem runCompletion_traps {r : TrapRec} (hr : postRecord en e = some r) : ∃ (u : State) (g1 : Group) (en1 : Entry),
    exec (.runCompletion gid e) s = .next (u.stopSplit gid e .trapped r) ∧ u.group gid = some g1 ∧ g1.killed = g.killed ∧
      g1.entry e = some en1 ∧ en1.pc = en.next ∧ en1.xfer = en.xfer ∧ en1.mask = en.mask ∧ u.notices = s.notices := by
  by_cases hb : en.reqBase.getD en.wbase = en.wbase
  · refine ⟨_, _, _, ?_, group_setGroup_self s gid (g.completed e (Entry.completed (postRecord en e) en.wbase)), rfl,
      entry_completed h.entry _, rfl, ?_, rfl, rfl⟩
    · rw [runCompletion_stays h hb, hr]; rfl
    · unfold Entry.completed; rw [hr]; rfl
  · obtain ⟨b, hq⟩ : ∃ b, en.reqBase = some b := Option.ne_none_iff_exists'.1 (fun hn => hb (by rw [hn]; rfl))
    obtain ⟨u, hu, hn, hx⟩ := runCompletion_slides h hq (fun hbw => hb (by rw [hq]; exact hbw))
    exact ⟨u, _, _, by rw [hx, hr]; rfl, hu, rfl, entry_sliding h.entry b, rfl, rfl, rfl, hn⟩

/-- With nothing to wait for but registers, a completed run's split is settled. -/
theorem runCompletion_settles (hp : postRecord en e = none) (hx : en.xfer = none) (hq : en.reqBase = none) (hw : en.barWait = [])
    (hpar : en.parent = .none) (hs : en.slide = none) :
    exec (.runCompletion gid e) s = .next ((({ s.setGroup gid (g.completed e (Entry.completed none en.wbase)) with
      nextId := s.nextId + 1 } : State)).setGroup gid ((g.completed e (Entry.completed none en.wbase)).setEntry e
        ((Entry.completed none en.wbase en).settled (g.completed e (Entry.completed none en.wbase))))) := by
  rw [runCompletion_stays h (by rw [hq]; rfl), hp, hx]
  unfold State.afterRun
  dsimp only
  rw [group_setGroup_self]
  exact congrArg _ (settleAll_alone (entry_completed h.entry _) ⟨h.split, hs, hw, hpar, .inl h.ready⟩ _ _ _)

end Completion

/-- Settles O46: with its base in place a split is settled or trapped; with another base requested it is left to slide. -/
theorem completedRunsGoOn : Obligations.CompletedRunsGoOn := by
  intro s gid e g en h
  refine ⟨fun hp hx hq hw hpar hs => ?_, fun r hr => ?_, fun b hp hq hne => ?_⟩
  · refine ⟨_, _, _, runCompletion_settles h hp hx hq hw hpar hs, group_setGroup_self _ _ _, entry_setEntry_self _ _ _, rfl, rfl, rfl, rfl,
      rfl, rfl, fun ha => ?_, ?_, rfl, rfl, rfl, rfl⟩
    · have hf : (g.completed e (Entry.completed none en.wbase)).awaitFull (Entry.completed none en.wbase en) = true := by
        show en.runAwait.all _ = true
        rw [ha]; rfl
      unfold Entry.settled
      rw [hf]; rfl
    · unfold Entry.settled
      split
      · exact .inl rfl
      · exact .inr rfl
  · obtain ⟨u, g1, en1, hx, hg1, hk1, he1, hpc, hxf, hm, hn⟩ := runCompletion_traps h hr
    obtain ⟨hst, hno⟩ := stopSplit_live hg1 (hk1.trans h.live.2) .trapped r
    exact ⟨_, _, _, hx, hst, (entry_updEntry_self _ e _).trans (congrArg _ he1), rfl, rfl, hpc, hxf, hm, by rw [hno, hn]⟩
  · obtain ⟨u, hu, -, hx⟩ := runCompletion_slides h hq hne
    refine ⟨u, _, _, by rw [hx, hp]; rfl, hu, entry_sliding h.entry b, rfl, rfl, rfl, rfl, ?_⟩
    unfold Entry.sliding
    rw [hp]
    cases en.xfer <;> rfl

end Sys2Proof.Machine
end

section
/-!
PROOFS. Splits that wait for registers, joins or slides (O47).
-/
namespace Sys2Proof.Machine

/-! ### Await lists -/

/-- An acquire changes caches alone. -/
theorem acquireAct_keeps (s : State) (lid : Nat) (g : Group) (sc : Scope) :
    (s.acquireAct lid g sc).groups = s.groups ∧ (s.acquireAct lid g sc).mem = s.mem := by
  unfold State.acquireAct
  dsimp only
  split <;> split <;> exact ⟨rfl, rfl⟩

/-- A split that goes on alone between runs is settled. -/
theorem goOn_alone {s : State} {gid e : Nat} {g : Group} {en : Entry} (hg : s.group gid = some g) (hen : g.entry e = some en)
    (hr : en.resumeCtl = false) (ha : en.Alone) (id : Nat) : s.goOn gid e id = s.setGroup gid (g.setEntry e (en.settled g)) := by
  unfold State.goOn
  rw [hg]
  dsimp only
  rw [hen]
  dsimp only
  rw [if_neg (by simp [hr]), settleAll_alone hen ha]

theorem goOn_join {s : State} {gid e : Nat} {g : Group} {en : Entry} (hg : s.group gid = some g) (hen : g.entry e = some en)
    (hr : en.resumeCtl = false) (hj : en.join = true) (hst : en.st ≠ .faulted) (id : Nat) : s.goOn gid e id = s.setGroup gid g := by
  unfold State.goOn
  rw [hg]
  dsimp only
  rw [hen]
  dsimp only
  rw [if_neg (by simp [hr]), settleAll_join hen hj hst]

/-- A satisfied await: its acquire, if a barrier was waited for, keeps groups and memory, and the split is settled. -/
theorem awaitSatisfied_settles {s : State} {gid e : Nat} {g : Group} {en : Entry} (hg : s.group gid = some g) (hen : g.entry e = some en)
    (hj : en.join = false) (hst : en.st = .awaitingFull) (hs : en.slide = none) (hsv : g.saved = false) (hk : g.killed = false)
    (hf : g.awaitFull en = true) (hb : s.barsDone g en.barWait = true) (hp : en.parent = .none) (hr : en.resumeCtl = false) :
    ∃ t : State, exec (.awaitSatisfied gid e) s = .next t ∧ t.mem = s.mem ∧ t.group gid =
      some ((g.updEntry e (fun en => { en with barWait := [] })).setEntry e { en with barWait := [], st := .ready }) := by
  let s1 := if en.barWait.isEmpty then s else s.acquireAct ((s.launchOf gid).getD 0) g .team
  obtain ⟨hg1, hm1⟩ : s1.groups = s.groups ∧ s1.mem = s.mem := by
    by_cases h : en.barWait.isEmpty
    · rw [show s1 = s from if_pos h]; exact ⟨rfl, rfl⟩
    · rw [show s1 = _ from if_neg h]; exact acquireAct_keeps _ _ _ _
  let s2 := s1.updGroup gid (fun g => g.updEntry e (fun en => { en with barWait := [] }))
  have hg2 : s2.group gid = some (g.updEntry e (fun en => { en with barWait := [] })) :=
    (group_updGroup_self s1 gid _).trans (congrArg (Option.map _) ((congrArg (fun m => look m gid) hg1).trans hg))
  have he2 : (g.updEntry e (fun en => { en with barWait := [] })).entry e = some { en with barWait := [] } :=
    (entry_updEntry_self g e _).trans (congrArg _ hen)
  have hset : ({ en with barWait := [] } : Entry).settled (g.updEntry e (fun en => { en with barWait := [] })) =
      { en with barWait := [], st := .ready } := by
    unfold Entry.settled
    rw [show (g.updEntry e (fun en => { en with barWait := [] })).awaitFull { en with barWait := [] } = true from hf]
    rfl
  refine ⟨({ s2 with nextId := s2.nextId + 1 } : State).setGroup gid _, ?_, hm1, group_setGroup_self _ _ _⟩
  show execAwaitSatisfied gid e s = _
  unfold execAwaitSatisfied
  rw [hg]
  dsimp only
  rw [hen]
  dsimp only
  rw [if_neg (by simp [hj, hst, hs, hsv, hk, hf, hb]), ← hset]
  exact congrArg _ (goOn_alone (s := { s2 with nextId := s2.nextId + 1 }) hg2 he2 hr ⟨hj, hs, rfl, hp, .inr hst⟩ s2.nextId)

/-! ### Joins in the stack -/

theorem joinFill_fuses {s : State} {gid k : Nat} {g : Group} {j : Entry} (hg : s.group gid = some g) (hj : look g.stack k = some j)
    (hsv : g.saved = false) (hk : g.killed = false) (hp : j.pend = 0) (hf : g.freeEntry.isSome = true) :
    exec (.joinFill gid k) s = .next ({ s with nextId := s.nextId + 1 }.setGroup gid (g.fuse s.nextId (.slot k))) := by
  show execJoinFill gid k s = _
  unfold execJoinFill
  rw [hg]
  dsimp only
  rw [hj]
  exact if_neg (by simpa [hsv, hk, hp] using Option.isSome_iff_ne_none.1 hf)

/-! ### Slides -/

theorem group_memError (s : State) (lid : Option Nat) (st : MemStatus) (k : Nat) : (s.memError lid st).group k = s.group k := by
  cases st <;> cases lid <;> rfl

/-- A register is 0 and full in a lane. -/
def Group.FreshAt (g : Group) (slot lane : Nat) : Prop := g.getV slot lane = 0 ∧ g.vState slot lane = .full

theorem freshAt_putV {g : Group} {k c slot lane : Nat} (hc : c < 64) (hl : lane < 64)
    (h : g.FreshAt slot lane ∨ (slot = k ∧ lane = c)) : (g.putV k c 0).FreshAt slot lane := by
  unfold Group.FreshAt
  rw [getV_putV g 0 hc hl, vState_putV g 0 hc hl]
  by_cases hk : slot = k ∧ lane = c
  · rw [if_pos hk, if_pos hk]; exact ⟨rfl, rfl⟩
  · rw [if_neg hk, if_neg hk]; exact h.resolve_right hk

/-- A slide makes a register fresh in the split's lanes (04 R118). -/
def Group.freshen (g : Group) (m : LaneMask) (x : Nat) : Group := g.overLanes m (fun g l => g.putV (x % g.w) l 0)

theorem freshen_keeps {γ : Type} (h : Group → γ) (hv : ∀ g k l x, h (Group.putV g k l x) = h g) (g : Group) (m : LaneMask) (x : Nat) :
    h (g.freshen m x) = h g := overLanes_keeps h m _ (fun g l => hv g _ l _) g

theorem freshAt_freshen {g : Group} {m : LaneMask} {x slot lane : Nat} (hl : lane < 64)
    (h : g.FreshAt slot lane ∨ (slot = x % g.w ∧ inMask m lane = true)) : (g.freshen m x).FreshAt slot lane := by
  let P (y : Group) : Prop := y.w = g.w → y.FreshAt slot lane
  have keep : ∀ (y : Group), ∀ c ∈ maskLanes m, P y → P (y.putV (x % y.w) c 0) := fun y c hc hy hw =>
    freshAt_putV (maskLanes_lt c hc) hl (.inl (hy hw))
  have hw : (g.freshen m x).w = g.w := freshen_keeps Group.w (fun _ _ _ _ => rfl) g m x
  rcases h with h | ⟨hs, hm⟩
  · exact List.foldlRecOn (motive := P) (maskLanes m) _ (fun _ => h) (fun y hy c hc => keep y c hc hy) hw
  · exact foldl_establishes (P := P) (b := lane) (fun y hw => freshAt_putV hl hl (.inr ⟨by rw [hs, ← hw]; rfl, rfl⟩))
      (maskLanes m) keep g (.inr (mem_maskLanes.2 ⟨hl, hm⟩)) hw

/-- Making registers fresh makes each of them fresh. -/
theorem freshAt_freshenAll (m : LaneMask) (g : Group) {xs : List Nat} {x lane : Nat} (hx : x ∈ xs) (hl : lane < 64)
    (hm : inMask m lane = true) : (xs.foldl (fun g x => g.freshen m x) g).FreshAt (x % g.w) lane := by
  let P (y : Group) : Prop := y.w = g.w → y.FreshAt (x % g.w) lane
  have hw (y : Group) (c : Nat) : (y.freshen m c).w = y.w := freshen_keeps Group.w (fun _ _ _ _ => rfl) y m c
  exact foldl_establishes (P := P) (b := x) (fun y h => freshAt_freshen hl (.inr ⟨by rw [← h, hw], hm⟩)) xs
    (fun y c _ hy h => freshAt_freshen hl (.inl (hy ((hw y c).symm.trans h)))) g (.inr hx)
    (foldl_keeps Group.w _ hw xs g)

theorem freshenAll_keeps {γ : Type} (h : Group → γ) (hv : ∀ g k l x, h (Group.putV g k l x) = h g) (m : LaneMask) (xs : List Nat)
    (g : Group) : h (xs.foldl (fun g x => g.freshen m x) g) = h g := foldl_keeps h _ (fun g x => freshen_keeps h hv g m x) xs g

/-- The entry of a split whose slide is done. -/
def Entry.landed (after : SlideThen) (en : Entry) : Entry :=
  { en with slide := none, st := .ready, xfer := if after = .goOn ∧ en.resumeCtl then en.xfer else none }

section Slide
variable {s : State} {gid e : Nat} {g : Group} {c : Actx} {en : Entry} {sl : Slide} (hg : s.group gid = some g)
  (hc : s.actx gid = some c) (hen : g.entry e = some en) (hsl : en.slide = some sl) (hst : en.st = .awaitingFull)
  (hsv : g.saved = false) (hk : g.killed = false)
include hg hc hen hsl hst hsv hk

section Spills
variable (hmv : sl.moved = false) (hw : g.slideWaits sl = false)
include hmv hw

theorem windowSlide_fault {f : XFault}
    (hs : engFold (fun s x => s.spillReg c g sl.lanes x) s (slideRegs g.w sl.src sl.dst).1 = .fault f) :
    exec (.windowSlide gid e) s = .next (s.slideFault gid e en sl f) := by
  show execWindowSlide gid e s = _
  simp [execWindowSlide, hg, hc, hen, hsl, hst, hsv, hk, hmv, hw, hs]

theorem windowSlide_spilled {s1 : State} {u : Unit} {st : MemStatus}
    (hs : engFold (fun s x => s.spillReg c g sl.lanes x) s (slideRegs g.w sl.src sl.dst).1 = .ok s1 u st) :
    exec (.windowSlide gid e) s = .next ((s1.memError (s1.launchOf gid) st).updGroup gid (fun y =>
      ((slideRegs g.w sl.src sl.dst).2.1.foldl (fun g x => g.freshen sl.lanes x) y).updEntry e
        (fun en => { en with slide := some { sl with moved := true } }))) := by
  show execWindowSlide gid e s = _
  simp [execWindowSlide, hg, hc, hen, hsl, hst, hsv, hk, hmv, hw, hs]
  rfl

end Spills

section Fills
variable (hmv : sl.moved = true)
include hmv

theorem slideFills_fault {f : XFault} (hf : s.fillRegs c sl.lanes g (slideRegs g.w sl.src sl.dst).2.2.2 = .fault f) :
    exec (.slideFillsLanded gid e) s = .next (s.slideFault gid e en sl f) := by
  show execSlideFillsLanded gid e s = _
  simp [execSlideFillsLanded, hg, hc, hen, hsl, hst, hsv, hk, hmv, hf]

theorem slideFills_goOn {s1 : State} {g1 : Group} {st : MemStatus}
    (hf : s.fillRegs c sl.lanes g (slideRegs g.w sl.src sl.dst).2.2.2 = .ok s1 g1 st) (ha : sl.after = .goOn) : ∃ (u : State) (id : Nat),
      exec (.slideFillsLanded gid e) s = .next (u.goOn gid e id) ∧ u.group gid = some (g1.updEntry e (Entry.landed .goOn)) := by
  refine ⟨{ (s1.memError (s1.launchOf gid) st).setGroup gid (g1.updEntry e (Entry.landed .goOn)) with
    nextId := (s1.memError (s1.launchOf gid) st).nextId + 1 }, (s1.memError (s1.launchOf gid) st).nextId, ?_, group_setGroup_self _ _ _⟩
  show execSlideFillsLanded gid e s = _
  unfold execSlideFillsLanded
  rw [hg, hc]
  dsimp only
  rw [hen]
  dsimp only
  rw [hsl]
  dsimp only
  rw [if_neg (by simp [hmv, hst, hsv, hk]), hf]
  dsimp only
  rw [ha]
  cases en.xfer <;> rfl

end Fills
end Slide

/-- Settles O47: each wait that is over leads to the settling of its split, a fault to the slide's record. -/
theorem waitingSplitsGoOn : Obligations.WaitingSplitsGoOn := by
  refine ⟨fun s gid e g en hg hen hj hst hs hsv hk hf hb hp hr => ?_, fun s gid k g j hg hj hsv hk hp hf => joinFill_fuses hg hj hsv hk hp hf,
    fun s gid e g c en sl hg hc hen hsl hst hsv hk => ⟨fun hmv hw => ⟨fun f => windowSlide_fault hg hc hen hsl hst hsv hk hmv hw,
      fun s1 u st hs hg1 => ?_⟩, fun hmv => ⟨fun f => slideFills_fault hg hc hen hsl hst hsv hk hmv,
      fun s1 g1 st hf ha hr hp haw hb hen1 => ?_⟩⟩⟩
  · obtain ⟨t, hx, hm, ht⟩ := awaitSatisfied_settles hg hen hj hst hs hsv hk hf hb hp hr
    exact ⟨t, _, _, hx, ht, entry_setEntry_self _ _ _, rfl, rfl, rfl, rfl, rfl, rfl, hm⟩
  · let regs := slideRegs g.w sl.src sl.dst
    refine ⟨_, _, { en with slide := some { sl with moved := true } }, windowSlide_spilled hg hc hen hsl hst hsv hk hmv hw hs,
      (group_updGroup_self _ _ _).trans (congrArg (Option.map _) ((group_memError _ _ _ _).trans hg1)), ?_, rfl, hst,
      fun x hx lane hl hm => ?_, ?_, ?_⟩
    · exact (entry_updEntry_self _ e _).trans (congrArg (Option.map _)
        ((freshenAll_keeps (fun g => g.entry e) (fun _ _ _ _ => rfl) sl.lanes regs.2.1 g).trans hen))
    · exact freshAt_freshenAll sl.lanes g hx hl hm
    · exact freshenAll_keeps Group.s (fun _ _ _ _ => rfl) sl.lanes regs.2.1 g
    · exact freshenAll_keeps Group.p (fun _ _ _ _ => rfl) sl.lanes regs.2.1 g
  · obtain ⟨u, id, hx, hu⟩ := slideFills_goOn hg hc hen hsl hst hsv hk hmv hf ha
    have he1 : (g1.updEntry e (Entry.landed .goOn)).entry e = some (Entry.landed .goOn en) :=
      (entry_updEntry_self g1 e _).trans (congrArg _ hen1)
    cases hj : en.join with
    | true =>
      rw [goOn_join hu he1 hr hj (fun h => nomatch h)] at hx
      exact ⟨_, _, _, hx, group_setGroup_self _ _ _, he1, rfl, rfl, rfl, rfl, rfl⟩
    | false =>
      rw [goOn_alone hu he1 hr ⟨hj, rfl, hb, hp, .inl rfl⟩] at hx
      refine ⟨_, _, _, hx, group_setGroup_self _ _ _, entry_setEntry_self _ _ _, rfl, ?_, rfl, rfl, rfl⟩
      exact settled_await_nil (en := Entry.landed .goOn en) haw _

end Sys2Proof.Machine
end

section
/-!
PROOFS. Management: queues, policies, keys, limits, counters and mailbox registers (O59).
-/
namespace Sys2Proof.Machine

/-! ### Mailbox requests (21 R456) -/

theorem mailReady_early {s : State} (h : s.stage ≠ .ready) (f : State → State) : s.mailReady f = .next (s.emit .notReady) :=
  congrArg _ (if_neg h)

theorem mailReady_ready {s : State} (h : s.stage = .ready) (f : State → State) : s.mailReady f = .next (f s) := congrArg _ (if_pos h)

theorem mailbox_early {s : State} (h : s.stage ≠ .ready) (q : Nat) (c : QueueConfig) (d part v core ix sel fn : Nat) (set : BitVec 8)
    (p : Policy) (root : Nat) : ∀ i ∈ [Instr.queueCreate q c, .queueRestart q, .permittedSetWrite d set, .plimWrite d v,
      .tenantPolicyLoad part p true true, .perfSelectWrite part d core ix sel, .keyRevoke part, .powerStatePs1, .powerStatePs2,
      .powerStatePs3, .mailboxRegisterWrite fn (.ridgeRoot part root), .mailboxRegisterWrite fn (.queueStatus q)],
    exec i s = .next (s.emit .notReady) := by
  simp only [List.forall_mem_cons, List.not_mem_nil, false_implies, implies_true, and_true]
  refine ⟨show execQueueCreate q c s = _ from mailReady_early h _, show execQueueRestart q s = _ from mailReady_early h _,
    show execPermittedSetWrite d set s = _ from mailReady_early h _, show execPlimWrite d v s = _ from mailReady_early h _,
    show execTenantPolicyLoad part p true true s = _ from mailReady_early h _,
    show execPerfSelectWrite part d core ix sel s = _ from mailReady_early h _, show execKeyRevoke part s = _ from mailReady_early h _,
    show State.sleep s .ps1 = _ from mailReady_early h _, show State.sleep s .ps2 = _ from mailReady_early h _,
    show execPowerStatePs3 s = _ from mailReady_early h _,
    show execMailboxRegisterWrite fn (.ridgeRoot part root) s = _ from mailReady_early h _,
    ?_⟩
  show execMailboxRegisterWrite fn (.queueStatus q) s = _
  unfold execMailboxRegisterWrite
  exact mailReady_early h _

/-! ### Queues (18 R393, R394) -/

section Create
variable {s : State} {q : Nat} {c : QueueConfig} (hr : s.stage = .ready) (hq : q < 256) (hp : c.part < 64)
include hr hq hp

theorem queueCreate_locked (h : (s.part c.part).tdisp = .locked ∨ (s.part c.part).tdisp = .run) :
    exec (.queueCreate q c) s = .next (s.enterError c.part) := by
  show execQueueCreate q c s = _
  refine (mailReady_ready hr _).trans ?_
  dsimp only
  rw [if_neg (by omega)]
  rcases h with h | h <;> rw [h]

variable (ht : (s.part c.part).tdisp = .unlocked)
include ht

/-- A queue with its configuration's start values. -/
def Queue.created (c : QueueConfig) : Queue := { cfg := c, st := .run, ridx := 0, widx := 0, seq := 0, lost := none, busy := .none }

theorem queueCreate_unlocked : exec (.queueCreate q c) s =
    .next (if (s.queue q).isSome ∨ !(QueueConfig.ok c (s.part c.part).policy) then s
      else { (if (s.part c.part).keyLoaded then s else s.updPart c.part Partition.newKey) with
        queues := put (if (s.part c.part).keyLoaded then s else s.updPart c.part Partition.newKey).queues q (Queue.created c) }) := by
  show execQueueCreate q c s = _
  refine (mailReady_ready hr _).trans ?_
  dsimp only
  rw [if_neg (by omega), ht]
  rfl

theorem queueCreate_good (hn : s.queue q = none) (hok : QueueConfig.ok c (s.part c.part).policy = true) : ∃ t : State,
    exec (.queueCreate q c) s = .next t ∧ t.queue q = some (Queue.created c) ∧ (t.part c.part).keyLoaded = true ∧
      (∀ k, k ≠ q → t.queue k = s.queue k) ∧ t.mem = s.mem := by
  refine ⟨_, queueCreate_unlocked hr hq hp ht, ?_⟩
  rw [if_neg (by simp [hn, hok])]
  cases hk : (s.part c.part).keyLoaded with
  | true => exact ⟨look_put_self _ _ _, hk, fun k h => look_put_ne _ _ h, rfl⟩
  | false => exact ⟨look_put_self _ _ _, congrArg Partition.keyLoaded (part_updPart_self s c.part _), fun k h => look_put_ne _ _ h, rfl⟩

theorem queueCreate_bad (hok : QueueConfig.ok c (s.part c.part).policy = false) : exec (.queueCreate q c) s = .next s := by
  rw [queueCreate_unlocked hr hq hp ht, if_pos (.inr (by simp [hok]))]

end Create

section Restart
variable {s : State} {q : Nat} {x : Queue} (hr : s.stage = .ready) (hx : s.queue q = some x)
include hr hx

theorem queueRestart_kept (h : x.st ≠ .stopped ∨ (s.part x.cfg.part).tdisp = .error) : exec (.queueRestart q) s = .next s := by
  show execQueueRestart q s = _
  refine (mailReady_ready hr _).trans ?_
  dsimp only
  rw [hx]
  exact congrArg _ (if_pos h)

theorem queueRestart_runs (h : x.st = .stopped) (he : (s.part x.cfg.part).tdisp ≠ .error) (hb : x.busy = .none) :
    exec (.queueRestart q) s = .next ((s.updQueue q (fun x => { x with st := .run })).ringTest q) := by
  show execQueueRestart q s = _
  refine (mailReady_ready hr _).trans ?_
  dsimp only
  rw [hx]
  dsimp only
  rw [if_neg (by simp [h, he]), hb]

end Restart

/-! ### Operating points and limits (01 R44; 21 R458, R459) -/

/-- A hint maps to a permitted point, where one is permitted. -/
theorem mapHint_permitted {set : BitVec 8} (h : set ≠ 0) (hint : Nat) : set.getLsbD (mapHint set hint) = true := by
  have hall : ∀ p ∈ (List.range 8).filter (fun i => set.getLsbD i), set.getLsbD p = true := fun p hp => (List.mem_filter.1 hp).2
  unfold mapHint
  split
  next hn =>
    refine absurd (BitVec.eq_of_getLsbD_eq fun i hi => ?_) h
    simpa using List.filter_eq_nil_iff.1 hn i (List.mem_range.2 hi)
  next p r hpr =>
    rw [hpr] at hall
    refine List.foldlRecOn (motive := fun a => set.getLsbD a = true) r _ (hall p List.mem_cons_self) fun a ha b hb => ?_
    split
    · exact hall b (List.mem_cons_of_mem _ hb)
    · exact ha

theorem permittedSetWrite_moves {s : State} {die : Nat} {set : BitVec 8} (hr : s.stage = .ready) (hd : die < 2) (hs : set ≠ 0) :
    ∃ t : State, exec (.permittedSetWrite die set) s = .next t ∧ (t.die die).permitted = set ∧
      (t.die die).point = (s.die die).point ∧ (∀ k, k ≠ die → t.die k = s.die k) ∧
      (∃ p, set.getLsbD p = true ∧ (t.die die).moving.getD (t.die die).point = p) := by
  refine ⟨_, show execPermittedSetWrite die set s = _ from (mailReady_ready hr _).trans (congrArg _ (if_neg (not_or.2 ⟨Nat.not_le.2 hd, hs⟩))),
    ?_, ?_, fun k hk => die_updDie_ne s _ hk, _, ?_, rfl⟩
  · rw [die_updDie_self]
  · rw [die_updDie_self]
  · rw [die_updDie_self]
    dsimp only
    by_cases h : set.getLsbD ((s.die die).moving.getD (s.die die).point) = true
    · rw [if_pos h]; exact h
    · rw [if_neg h]; exact mapHint_permitted hs _

/-! ### Policies and debug (21 R452, R453) -/

/-- Closing debug changes groups alone. -/
theorem closeDebug_keeps {γ : Type} (h : State → γ) (hg : ∀ s k f, h (State.updGroup s k f) = h s) (s : State) (part : Nat) :
    h (s.closeDebug part) = h s := by
  unfold State.closeDebug
  refine foldl_keeps h _ (fun s tid => ?_) _ s
  split
  · exact foldl_keeps h _ (fun s g => hg s g _) _ s
  · rfl

theorem tenantPolicyLoad_signed {s : State} {part : Nat} (hr : s.stage = .ready) (hp : part < 64) (p : Policy) : ∃ t : State,
    exec (.tenantPolicyLoad part p true true) s = .next t ∧ (t.part part).policy = p ∧ (∀ k, k ≠ part → t.part k = s.part k) ∧
      (p.perf = false → ∀ c ∈ t.perf, c.2.2.1 ≠ part) := by
  let s1 := s.updPart part (fun x => { x with policy := p })
  let s2 : State := if p.perf then s1 else { s1 with perf := s1.perf.filter (fun c => c.2.2.1 != part) }
  have hx : exec (.tenantPolicyLoad part p true true) s = .next (if p.debug then s2 else s2.closeDebug part) :=
    show execTenantPolicyLoad part p true true s = _ from (mailReady_ready hr _).trans (congrArg _ (if_neg (by simp; omega)))
  have keeps {γ : Type} (h : State → γ) (hg : ∀ s k f, h (State.updGroup s k f) = h s) :
      h (if p.debug then s2 else s2.closeDebug part) = h s2 := by
    split
    · rfl
    · exact closeDebug_keeps h hg s2 part
  have hparts (k : Nat) : s2.part k = s1.part k := by unfold s2; split <;> rfl
  refine ⟨_, hx, ?_, fun k hk => ?_, fun hf => ?_⟩
  · rw [keeps (fun s => s.part part) (fun _ _ _ => rfl), hparts, part_updPart_self]
  · rw [keeps (fun s => s.part k) (fun _ _ _ => rfl), hparts, part_updPart_ne _ _ hk]
  · rw [keeps State.perf (fun _ _ _ => rfl), show s2 = _ from if_neg (by simp [hf])]
    intro c hc
    simpa using (List.mem_filter.1 hc).2

theorem tenantPolicyLoad_unsigned {s : State} (hr : s.stage = .ready) (part : Nat) (p : Policy) {a b : Bool} (h : a = false ∨ b = false) :
    exec (.tenantPolicyLoad part p a b) s = .next s :=
  show execTenantPolicyLoad part p a b s = _ from (mailReady_ready hr _).trans (congrArg _ (if_pos (.inr (by simpa using h))))

/-! ### Counters (19 R418, R419) -/

section Counters
variable {s : State} {part die core ix sel : Nat} (hr : s.stage = .ready)
include hr

theorem perfSelect_locked (h : (s.part part).policy.perf = false) : exec (.perfSelectWrite part die core ix sel) s = .next s :=
  show execPerfSelectWrite part die core ix sel s = _ from (mailReady_ready hr _).trans (congrArg _ (if_pos (.inl (by simp [h]))))

variable (hd : die < 2) (hc : core < 96) (hi : ix < 8) (hs : sel < 32) (hp : (s.part part).policy.perf = true)
include hd hc hi hs hp

theorem perfSelect_opens (hn : look s.perf (coreId die core * 8 + ix) = none) (h0 : sel ≠ 0) :
    exec (.perfSelectWrite part die core ix sel) s = .next { s with perf := put s.perf (coreId die core * 8 + ix) (sel, part, 0) } := by
  show execPerfSelectWrite part die core ix sel s = _
  refine (mailReady_ready hr _).trans ?_
  dsimp only
  rw [if_neg (by simp [hp]; omega), hn]
  exact congrArg _ (if_neg h0)

/-- A counter that the partition has opened takes a new event and keeps its count, or is closed. -/
theorem perfSelect_changes {old n : Nat} (ho : look s.perf (coreId die core * 8 + ix) = some (old, part, n)) : ∃ t : State,
    exec (.perfSelectWrite part die core ix sel) s = .next t ∧
      look t.perf (coreId die core * 8 + ix) = if sel = 0 then none else some (sel, part, n) := by
  refine ⟨_, show execPerfSelectWrite part die core ix sel s = _ from mailReady_ready hr _, ?_⟩
  dsimp only
  rw [if_neg (by simp [hp]; omega), ho]
  dsimp only
  rw [if_neg (not_not.2 rfl)]
  by_cases h0 : sel = 0
  · rw [if_pos h0, if_pos h0]; exact look_del_self _ _
  · rw [if_neg h0, if_neg h0]; exact look_put_self _ _ _

end Counters

theorem plimWrite_takes {s : State} {die : Nat} (hr : s.stage = .ready) (hd : die < 2) (w : Nat) : ∃ t : State,
    exec (.plimWrite die w) s = .next t ∧ (t.die die).plim = w ∧ (t.die die).alarm = (s.die die).alarm ∧
      ∀ k, k ≠ die → t.die k = s.die k :=
  ⟨s.updDie die (fun d => { d with plim := w }),
   show execPlimWrite die w s = _ from (mailReady_ready hr _).trans (congrArg _ (if_neg (Nat.not_le.2 hd))),
   by rw [die_updDie_self], by rw [die_updDie_self], fun k hk => die_updDie_ne s _ hk⟩

/-! ### Limits and keys of partitions (20 R432; 21 R449-R451) -/

section Partitions
variable {s : State} {part : Nat} (hp : part < 64)
include hp

theorem hlogWrite_takes {v : Nat} (hr : s.stage = .ready) (hlo : 20 ≤ v) (hhi : v ≤ 34) : ∃ t : State,
    exec (.hlogWrite part v) s = .next t ∧ (t.part part).hlog = v ∧ (t.part part).policy = (s.part part).policy ∧
      ∀ k, k ≠ part → t.part k = s.part k :=
  ⟨s.updPart part (fun p => { p with hlog := v }),
   show execHlogWrite part v s = _ from if_neg (by simp only [hr, not_or, not_lt, not_le, ne_eq, not_not, and_true]; omega),
   by rw [part_updPart_self], by rw [part_updPart_self], fun k hk => part_updPart_ne s _ hk⟩

theorem keyDelivery_takes (hr : s.stage ≠ .off) : ∃ t : State, exec (.keyDelivery part) s = .next t ∧ (t.part part).keyLoaded = true ∧
    (t.part part).keyEpoch = (s.part part).keyEpoch + 1 ∧ (∀ k, k ≠ part → t.part k = s.part k) ∧ t.mem = s.mem :=
  ⟨s.updPart part Partition.newKey, show execKeyDelivery part s = _ from if_neg (not_or.2 ⟨Nat.not_le.2 hp, hr⟩),
   by rw [part_updPart_self]; rfl, by rw [part_updPart_self]; rfl, fun k hk => part_updPart_ne s _ hk, rfl⟩

theorem keyRevoke_takes (hr : s.stage = .ready) : ∃ t : State, exec (.keyRevoke part) s = .next t ∧ (t.part part).keyLoaded = false ∧
    (t.part part).policy = (s.part part).policy ∧ (∀ k, k ≠ part → t.part k = s.part k) ∧ t.mem = s.mem :=
  ⟨s.updPart part Partition.revoke,
   show execKeyRevoke part s = _ from (mailReady_ready hr _).trans (congrArg _ (if_neg (Nat.not_le.2 hp))),
   by rw [part_updPart_self]; rfl, by rw [part_updPart_self]; rfl, fun k hk => part_updPart_ne s _ hk, rfl⟩

end Partitions

theorem hlogWrite_outside {v : Nat} (h : v < 20 ∨ 34 < v) (s : State) (part : Nat) : exec (.hlogWrite part v) s = .next s :=
  show execHlogWrite part v s = _ from if_pos (.inr (h.elim .inl fun h => .inr (.inl h)))

/-! ### Firmware (21 R447) -/

theorem firmwareLoad_signed {s : State} {version : Nat} (hr : s.stage ≠ .off) (hv : Config.firmwareVersion ≤ version) :
    exec (.firmwareLoad version true true) s = .next { s with fwVersion := version } :=
  show execFirmwareLoad version true true s = _ from if_neg (by simp [hr, Nat.not_lt.2 hv])

theorem firmwareLoad_refused {version : Nat} {a b : Bool} (h : a = false ∨ b = false ∨ version < Config.firmwareVersion) (s : State) :
    exec (.firmwareLoad version a b) s = .next s :=
  show execFirmwareLoad version a b s = _ from if_pos (.inr (by simpa using h))

/-! ### Mailbox registers (10 R247; 21 R447) -/

theorem statusRead_answers {s : State} (hr : s.stage ≠ .off) (fn : Nat) : exec (.mailboxRegisterWrite fn .status) s =
    .next (s.emit (.status s.stage s.thermtrip s.crcErrors s.crcLast s.cxlDropped ((List.range 2).map (fun d => (s.die d).corrections)))) :=
  show execMailboxRegisterWrite fn .status s = _ from if_neg hr

section Registers
variable {s : State} {fn part : Nat} (hr : s.stage = .ready)
include hr

section Own
variable (hm : mayManage fn part = true) (hp : part < 64)
include hm hp

theorem ridgeRoot_taken (root : Nat) : exec (.mailboxRegisterWrite fn (.ridgeRoot part root)) s =
    .next (s.updPart part (fun p => { p with ridgeRoot := some root })) :=
  show execMailboxRegisterWrite fn (.ridgeRoot part root) s = _ from
    (mailReady_ready hr _).trans (congrArg _ (if_pos (by simp [hm, hp])))

theorem scaleBase_taken (base : Nat) : exec (.mailboxRegisterWrite fn (.scaleBase part base)) s =
    .next (s.updPart part (fun p => { p with scaleBase := some base })) :=
  show execMailboxRegisterWrite fn (.scaleBase part base) s = _ from
    (mailReady_ready hr _).trans (congrArg _ (if_pos (by simp [hm, hp])))

theorem cowPages_taken (pages : List Nat) : exec (.mailboxRegisterWrite fn (.cowPages part pages)) s =
    .next (s.updPart part (fun p => { p with cowPages := pages })) :=
  show execMailboxRegisterWrite fn (.cowPages part pages) s = _ from
    (mailReady_ready hr _).trans (congrArg _ (if_pos (by simp [hm, hp])))

/-- A good pool descriptor that meets no rows in use and no other pool is taken. -/
theorem pool_taken {die kvb lmax row0 nr : Nat} (hd : die < 2) (hk : kvb % 32768 = 0) (hlo : 1 ≤ lmax) (hhi : lmax ≤ 255)
    (hn : row0 + nr ≤ 2 ^ 28) (hrows : s.rows = []) (ho : look s.pools (poolKey part (1 - die)) = none) :
    exec (.mailboxRegisterWrite fn (.pool part die kvb lmax row0 nr)) s =
      .next { s with pools := put s.pools (poolKey part die) { kvb := kvb, lmax := lmax, row0 := row0, nr := nr },
                     freeRows := put s.freeRows (poolKey part die) (from' row0 nr) } := by
  show execMailboxRegisterWrite fn (.pool part die kvb lmax row0 nr) s = _
  refine (mailReady_ready hr _).trans (congrArg _ ?_)
  rw [if_pos hm]
  unfold State.setPool
  rw [hrows, ho]
  dsimp only
  refine if_neg ?_
  simp only [List.any_nil, Bool.or_self, Bool.false_eq_true, not_or, not_le, not_lt, ne_eq, not_not, not_false_eq_true, and_true]
  omega

end Own

/-- Registers of another partition are not reached. -/
theorem registers_refused (hm : mayManage fn part = false) (base die kvb lmax row0 nr : Nat) (pages : List Nat) (q : Nat) :
    exec (.mailboxRegisterWrite fn (.ridgeRoot part base)) s = .next s ∧
    exec (.mailboxRegisterWrite fn (.scaleBase part base)) s = .next s ∧
    exec (.mailboxRegisterWrite fn (.cowPages part pages)) s = .next s ∧
    exec (.mailboxRegisterWrite fn (.pool part die kvb lmax row0 nr)) s = .next s ∧
    ∀ x, s.queue q = some x → x.cfg.part = part → exec (.mailboxRegisterWrite fn (.queueStatus q)) s = .next s := by
  refine ⟨?_, ?_, ?_, ?_, ?_⟩
  · show execMailboxRegisterWrite fn (.ridgeRoot part base) s = _
    exact (mailReady_ready hr _).trans (congrArg _ (if_neg (by simp [hm])))
  · show execMailboxRegisterWrite fn (.scaleBase part base) s = _
    exact (mailReady_ready hr _).trans (congrArg _ (if_neg (by simp [hm])))
  · show execMailboxRegisterWrite fn (.cowPages part pages) s = _
    exact (mailReady_ready hr _).trans (congrArg _ (if_neg (by simp [hm])))
  · show execMailboxRegisterWrite fn (.pool part die kvb lmax row0 nr) s = _
    exact (mailReady_ready hr _).trans (congrArg _ (if_neg (by simp [hm])))
  · rintro x hx rfl
    show execMailboxRegisterWrite fn (.queueStatus q) s = _
    unfold execMailboxRegisterWrite
    dsimp only
    rw [mailReady_ready hr, hx]
    exact congrArg _ (if_neg (by simp [hm]))

theorem queueStatus_answered {q : Nat} {x : Queue} (hx : s.queue q = some x) (hm : mayManage fn x.cfg.part = true) :
    exec (.mailboxRegisterWrite fn (.queueStatus q)) s = .next (s.emit (.queueStatus q x.lost)) := by
  show execMailboxRegisterWrite fn (.queueStatus q) s = _
  unfold execMailboxRegisterWrite
  dsimp only
  rw [mailReady_ready hr, hx]
  exact congrArg _ (if_pos hm)

end Registers

/-- Settles O59: each request, with what its checks let through. -/
theorem managementRequestsTakeEffect : Obligations.ManagementRequestsTakeEffect := by
  refine ⟨fun s q c d part v core ix sel fn set p root h => mailbox_early h q c d part v core ix sel fn set p root,
    fun s q c hr hq hp => ⟨queueCreate_locked hr hq hp, fun ht => ⟨fun hg => ?_, queueCreate_bad hr hq hp ht⟩⟩,
    fun s q x hr hx => ⟨fun h => queueRestart_kept hr hx (.inl h), fun h => queueRestart_kept hr hx (.inr h), queueRestart_runs hr hx⟩,
    fun s die w set hr hd => ⟨permittedSetWrite_moves hr hd, plimWrite_takes hr hd w⟩,
    fun s part v hp => ⟨hlogWrite_takes hp, fun h => hlogWrite_outside h s part, keyDelivery_takes hp, keyRevoke_takes hp⟩,
    fun s part version p a b => ⟨fun hr hp => tenantPolicyLoad_signed hr hp p, fun hr => tenantPolicyLoad_unsigned hr part p,
      firmwareLoad_signed, fun h => firmwareLoad_refused h s⟩,
    fun s part die core ix sel hr hd hc hi hs => ⟨perfSelect_locked hr, perfSelect_opens hr hd hc hi hs,
      fun hp old n => perfSelect_changes hr hd hc hi hs hp⟩,
    fun s fn part die kvb lmax row0 nr base pages q => ⟨fun h => ⟨_, statusRead_answers h fn, _, rfl⟩, fun hr =>
      ⟨fun hm hp => ?_, fun hm hp hd hk hlo hhi hn hrows ho => ⟨_, pool_taken hr hm hp hd hk hlo hhi hn hrows ho, look_put_self _ _ _,
        look_put_self _ _ _⟩, fun hm => registers_refused hr hm base die kvb lmax row0 nr pages q, fun x => queueStatus_answered hr⟩⟩⟩
  · obtain ⟨t, hx, hy, hkey, hn, hmem⟩ := queueCreate_good hr hq hp ht hg.1 hg.2
    exact ⟨t, _, hx, hy, rfl, rfl, rfl, rfl, rfl, rfl, hkey, hn, hmem⟩
  · refine ⟨_, _, _, ridgeRoot_taken hr hm hp base, ?_, scaleBase_taken hr hm hp base, ?_, cowPages_taken hr hm hp pages, ?_,
      fun k hk => ⟨part_updPart_ne s _ hk, part_updPart_ne s _ hk, part_updPart_ne s _ hk⟩⟩
    · rw [part_updPart_self]
    · rw [part_updPart_self]
    · rw [part_updPart_self]

end Sys2Proof.Machine
end

section
/-!
SUPPORT. Codes and the values that they name, both ways: operands, formats, scopes, fence kinds, counter classes and single bits
(02 R57, R58, R63, R76).
-/
namespace Sys2Proof

theorem Operand.ofCode_code {o : Operand} (h : ∀ n, o = .s n → n.toNat < 192) : Operand.ofCode o.code = some o := by
  have fits : ∀ k, k < 512 → (BitVec.ofNat 9 k).toNat = k := fun k hk => Nat.mod_eq_of_lt hk
  cases o with
  | v n =>
    have := n.isLt
    simp (disch := omega) only [code, ofCode, fits, if_pos]
    rw [BitVec.ofNat_toNat, BitVec.setWidth_eq]
  | s n =>
    have := h n rfl
    simp (disch := omega) only [code, ofCode, fits, if_pos, if_neg, Nat.add_sub_cancel_left, BitVec.ofNat_toNat,
      BitVec.setWidth_eq]
  | t n | oq n | special n =>
    have := n.isLt
    simp (disch := omega) only [code, ofCode, fits, if_pos, if_neg, Nat.add_sub_cancel_left, BitVec.ofNat_toNat,
      BitVec.setWidth_eq]
  | imm | zero => rfl

theorem Operand.code_ofCode {c : BitVec 9} {o : Operand} (h : Operand.ofCode c = some o) : o.code = c := by
  revert h
  fun_cases Operand.ofCode c
  all_goals rintro ⟨⟩
  all_goals
    apply BitVec.eq_of_toNat_eq
    simp only [code, BitVec.toNat_ofNat, BitVec.reduceToNat]
    omega

theorem Operand.eq_imm_iff {c : BitVec 9} {o : Operand} (h : Operand.ofCode c = some o) : c = 0x1E0 ↔ o = .imm := by
  constructor
  · rintro rfl; exact (Option.some.inj h).symm
  · rintro rfl; exact (Operand.code_ofCode h).symm

theorem Fmt.ofCode_code (f : Fmt) : Fmt.ofCode f.code = some f := by cases f <;> rfl

theorem Fmt.code_ofCode {c : BitVec 4} {f : Fmt} (h : Fmt.ofCode c = some f) : f.code = c := by
  revert h
  fun_cases Fmt.ofCode c
  all_goals rintro ⟨⟩
  all_goals exact BitVec.eq_of_toNat_eq (Eq.symm ‹c.toNat = _›)

theorem Fmt.code_injective {f g : Fmt} (h : f.code = g.code) : f = g := by
  simpa [Fmt.ofCode_code] using congrArg Fmt.ofCode h

theorem Scope.ofCode_code (s : Scope) : Scope.ofCode s.code = some s := by cases s <;> rfl

theorem Scope.code_ofCode {c : BitVec 4} {s : Scope} (h : Scope.ofCode c = some s) : s.code = c := by
  revert h
  fun_cases Scope.ofCode c
  all_goals rintro ⟨⟩
  all_goals exact BitVec.eq_of_toNat_eq (Eq.symm ‹c.toNat = _›)

theorem FenceKind.code_ofCode {c : BitVec 2} {k : FenceKind} (h : FenceKind.ofCode c = some k) : k.code = c := by
  revert h
  fun_cases FenceKind.ofCode c
  all_goals rintro ⟨⟩
  all_goals exact BitVec.eq_of_toNat_eq (Eq.symm ‹c.toNat = _›)

theorem Cls.ofCode_code (c : Cls) : Cls.ofCode c.code = some c := by cases c <;> rfl

theorem Cls.code_ofCode {c : BitVec 4} {k : Cls} (h : Cls.ofCode c = some k) : k.code = c := by
  revert h
  fun_cases Cls.ofCode c
  all_goals rintro ⟨⟩
  all_goals exact BitVec.eq_of_toNat_eq (Eq.symm ‹c.toNat = _›)

theorem bit1_eq_one (b : Bool) : (bit1 b == 1) = b := by cases b <;> rfl

theorem bit1_beq_one (x : BitVec 1) : bit1 (x == 1) = x := by revert x; decide

/-! ### Checks of one bit -/

theorem true_and2 {a b : Bool} (ha : a = true) (hb : b = true) : (a && b) = true := by rw [ha, hb]; rfl

theorem true_and3 {a b c : Bool} (ha : a = true) (hb : b = true) (hc : c = true) : (a && b && c) = true :=
  true_and2 (true_and2 ha hb) hc

theorem passes_of_not {b : Bool} (h : ¬(!b) = true) : b = true := by simpa using h

end Sys2Proof
end

section
/-!
PROOFS. Lane words (O30): a word's fields are those of its instruction (02 R53), OP with FMT, XOP and DST names the constructor
(R75), and the decoder's checks (R78) are those that make an instruction well-formed.
-/
namespace Sys2Proof

/-! ### The fields of a word -/

theorem ofWord_word (r : RawLane) : RawLane.ofWord r.word = r := by
  simp (disch := decide) only [RawLane.ofWord, RawLane.word, BitVec.extractLsb'_append_eq_of_le,
    BitVec.extractLsb'_append_eq_of_add_le, Nat.reduceSub, BitVec.extractLsb'_eq_self]

theorem word_ofWord (x : LaneWord) : (RawLane.ofWord x).word = x := by
  unfold RawLane.ofWord RawLane.word
  simp (disch := rfl) only [BitVec.extractLsb'_append_extractLsb'_eq_extractLsb']
  exact BitVec.extractLsb'_eq_self

theorem rejoin_parts (x : BitVec 27) : x.extractLsb' 18 9 ++ x.extractLsb' 9 9 ++ x.extractLsb' 0 9 = x := by
  simp (disch := rfl) only [BitVec.extractLsb'_append_extractLsb'_eq_extractLsb']
  exact BitVec.extractLsb'_eq_self

theorem parts_rejoin (a b c : BitVec 9) : (a ++ b ++ c).extractLsb' 18 9 = a ∧ (a ++ b ++ c).extractLsb' 9 9 = b ∧
    (a ++ b ++ c).extractLsb' 0 9 = c := by
  simp (disch := decide) only [BitVec.extractLsb'_append_eq_of_le, BitVec.extractLsb'_append_eq_of_add_le, Nat.reduceSub,
    BitVec.extractLsb'_eq_self, and_self]

/-- The fields of a lane word of operation op. -/
def Lane.raw (l : Lane) (op : BitVec 8) : RawLane :=
  { op := op, fmt := l.fmt.code, mod := l.mod, gn := bit1 l.neg, gp := l.gp, dst := l.dst.code, sa := l.sa.code,
    sb := l.sb.code, sc := l.sc.code, epa := bit1 l.epa, epb := bit1 l.epb, epc := bit1 l.epc, last := bit1 l.last,
    xop := l.xop, imm := l.imm }

/-- The fields of BRA and JMPI (07 R191). -/
def Jump.raw (j : Jump) (op : BitVec 8) : RawLane :=
  { op := op, fmt := 0, mod := 0, gn := bit1 j.neg, gp := j.gp, dst := j.dst.code, sa := j.rejoin.extractLsb' 18 9,
    sb := j.rejoin.extractLsb' 9 9, sc := j.rejoin.extractLsb' 0 9, epa := 0, epb := 0, epc := 0, last := 1, xop := 0,
    imm := j.imm }

theorem raw_bra (j : Jump) : (Instr.bra j).raw = j.raw 0xC0 := rfl
theorem raw_jmpi (j : Jump) : (Instr.jmpi j).raw = j.raw 0xC1 := rfl

section Shaped
variable {w : Nat} {i : Instr} {s : Shape} {l : Lane} (hs : i.shape = some s) (hl : i.lane = some l)
include hs

theorem Shape.op_ne_jump : ¬(s.op = 0xC0 ∨ s.op = 0xC1) := by
  cases i <;> cases hs
  all_goals decide

include hl

theorem raw_of_lane : i.raw = l.raw s.op := by
  unfold Instr.raw
  split
  · cases hs
  · cases hs
  · rw [hs, hl]; rfl

theorem laneWellFormed_of_lane : i.laneWellFormed w = l.wellFormed w s := by
  unfold Instr.laneWellFormed
  split
  · cases hs
  · cases hs
  · rw [hs, hl]

end Shaped

theorem lastBit_of_lane {i : Instr} {l : Lane} (h : i.lane = some l) : i.lastBit = l.last := by
  rw [Instr.lastBit, h]

/-! ### What a field accepts -/

/-- Whatever a field accepts, an S code that it accepts names one of S0-S191 (02 R63). -/
theorem Role.ok_s {r : Role} {w : Nat} {den : Bool} {n : BitVec 8} (h : r.ok w den (.s n) = true) : n.toNat < 192 := by
  cases r <;> simp_all [Role.ok]

theorem Role.ofCode_code {r : Role} {w : Nat} {den : Bool} {o : Operand} (h : r.ok w den o = true) :
    Operand.ofCode o.code = some o :=
  Operand.ofCode_code (by rintro n rfl; exact Role.ok_s h)

/-- The codes of S0-S191 (02 R63). -/
theorem Role.sreg_code {w : Nat} {den : Bool} {o : Operand} (h : Role.sreg.ok w den o = true) :
    0x100 ≤ o.code.toNat ∧ o.code.toNat < 0x1C0 := by
  cases o with
  | s n =>
    have := Role.ok_s h
    simp only [Operand.code, BitVec.toNat_ofNat]
    omega
  | _ => simp [Role.ok] at h

theorem Role.dst_code {w : Nat} {den : Bool} {o : Operand} (h : Role.dst.ok w den o = true) :
    ¬(0x100 ≤ o.code.toNat ∧ o.code.toNat < 0x1C0) := by
  cases o with
  | v n | t n =>
    have := n.isLt
    simp only [Operand.code, BitVec.toNat_ofNat]
    omega
  | zero => decide
  | _ => simp [Role.ok] at h

/-- Some operand field names IMM: on codes and on the operands that they name. -/
theorem contains_imm {a b c d : Operand} {ca cb cc cd : BitVec 9} (ha : Operand.ofCode ca = some a)
    (hb : Operand.ofCode cb = some b) (hc : Operand.ofCode cc = some c) (hd : Operand.ofCode cd = some d) :
    (ca = 0x1E0 ∨ cb = 0x1E0 ∨ cc = 0x1E0 ∨ cd = 0x1E0) ↔ [a, b, c, d].contains .imm = true := by
  rw [Operand.eq_imm_iff ha, Operand.eq_imm_iff hb, Operand.eq_imm_iff hc, Operand.eq_imm_iff hd]
  simp [eq_comm (a := Operand.imm)]

/-- The check of an EP bit, as well-formedness and as the decoder say it (02 R61). -/
theorem ep_passes {u e : Bool} : (u || !e) = true ↔ (!u && e) = false := by cases u <;> simp

theorem Lane.wellFormed_iff {l : Lane} {w : Nat} {s : Shape} : l.wellFormed w s = true ↔
    s.fmts.contains l.fmt = true ∧ s.mod.ok l.fmt l.xop l.mod = true ∧ s.xop.ok l.fmt l.xop = true ∧
    s.imm.ok l.fmt l.imm ([l.dst, l.sa, l.sb, l.sc].contains .imm) = true ∧ (s.sa.inUse (l.imm.getLsbD 23) || !l.epa) = true ∧
    (s.sb.inUse (l.imm.getLsbD 23) || !l.epb) = true ∧ (s.sc.inUse (l.imm.getLsbD 23) || !l.epc) = true ∧
    s.dst.ok w (l.imm.getLsbD 23) l.dst = true ∧ s.sa.ok w (l.imm.getLsbD 23) l.sa = true ∧
    s.sb.ok w (l.imm.getLsbD 23) l.sb = true ∧ s.sc.ok w (l.imm.getLsbD 23) l.sc = true := by
  simp only [Lane.wellFormed, Bool.and_eq_true, and_assoc]

theorem laneWellFormed_cases {w : Nat} {i : Instr} (h : i.laneWellFormed w = true) :
    (∃ j, i = .bra j ∧ j.dst = .zero) ∨ (∃ j, i = .jmpi j ∧ Role.target.ok w false j.dst = true ∧ j.imm = 0) ∨
    ∃ s l, i.shape = some s ∧ i.lane = some l ∧ l.wellFormed w s = true := by
  unfold Instr.laneWellFormed at h
  split at h
  · exact .inl ⟨_, rfl, eq_of_beq h⟩
  · obtain ⟨ht, hi⟩ := (Bool.and_eq_true _ _).mp h
    exact .inr (.inl ⟨_, rfl, ht, eq_of_beq hi⟩)
  · split at h
    · next s l hs hl => exact .inr (.inr ⟨s, l, hs, hl, h⟩)
    · cases h

/-! ### Which instruction a word names -/

theorem atom_xop {x : BitVec 4} (h : Shape.atomX.contains x.toNat = true) : x.getLsbD 3 = false := by
  revert x; decide

theorem red_xop {x : BitVec 4} (h : Shape.redX.contains x.toNat = true) : x.getLsbD 3 = true := by
  revert x; decide

theorem low_xop {x : BitVec 4} (h : [0, 1].contains x.toNat = true) : x.getLsbD 1 = false := by
  revert x; decide

theorem high_xop {x : BitVec 4} (h : [2, 3].contains x.toNat = true) : x.getLsbD 1 = true := by
  revert x; decide

theorem only_xop {n : Nat} {x : BitVec 4} (h : [n].contains x.toNat = true) : x = BitVec.ofNat 4 n := by
  have : x.toNat = n := by simpa using h
  simp [← this]

theorem only_fmt {f g : Fmt} (h : [f].contains g = true) : g.code = f.code := by
  have : g = f := by simpa using h
  rw [this]

theorem code_ne_of_contains {fs : List Fmt} {f g : Fmt} (hf : fs.contains f = true) (hg : fs.contains g = false) :
    f.code ≠ g.code := by
  intro h
  rw [Fmt.code_injective h, hg] at hf
  exact Bool.false_ne_true hf

/-- A well-formed lane instruction's codes name its constructor (02 R75 Table 10): where several instructions have one OP, FMT, XOP
or DST tells them apart. -/
theorem laneCtor_of_wellFormed {w : Nat} {i : Instr} {s : Shape} {l : Lane} (hs : i.shape = some s) (hl : i.lane = some l)
    (hw : l.wellFormed w s = true) : ∃ c, laneCtor s.op l.fmt.code l.xop l.dst.code = some c ∧ c l = i := by
  obtain ⟨hf, -, hx, -, -, -, -, hd, -⟩ := Lane.wellFormed_iff.1 hw
  cases i <;> cases hs <;> cases hl
  case packB32 | unpackB32 => exact ⟨_, congrArg some (if_pos (only_fmt hf)), rfl⟩
  case packFloat | unpackFloat => exact ⟨_, congrArg some (if_neg (code_ne_of_contains hf (g := .b32) rfl)), rfl⟩
  case vballotS => exact ⟨_, congrArg some (if_pos (Role.sreg_code hd)), rfl⟩
  case vballotV => exact ⟨_, congrArg some (if_neg (Role.dst_code hd)), rfl⟩
  case vtosN32 => exact ⟨_, congrArg some (if_pos (only_fmt hf)), rfl⟩
  case vtosS32 =>
    exact ⟨_, congrArg some ((if_neg (code_ne_of_contains hf (g := .n32) rfl)).trans (if_pos (only_fmt hf))), rfl⟩
  case vtosB32 =>
    exact ⟨_, congrArg some ((if_neg (code_ne_of_contains hf (g := .n32) rfl)).trans
      (if_neg (code_ne_of_contains hf (g := .s32) rfl))), rfl⟩
  case atomAdd | atomMin | atomMax | atomAnd | atomOr | atomXor =>
    exact ⟨_, congrArg some (if_neg (by rw [atom_xop hx]; decide)), rfl⟩
  case redAdd | redMin | redMax | redAnd | redOr | redXor => exact ⟨_, congrArg some (if_pos (red_xop hx)), rfl⟩
  case trpruneBr | kvslotRd => exact ⟨_, congrArg some (if_neg (by rw [low_xop hx]; decide)), rfl⟩
  case trpruneSub | kvslotOwn => exact ⟨_, congrArg some (if_pos (high_xop hx)), rfl⟩
  case mdrawTok | barArrive => exact ⟨_, congrArg some (if_pos (only_xop hx)), rfl⟩
  case mdrawCl => exact ⟨_, congrArg some (if_neg (by rw [only_xop hx]; decide)), rfl⟩
  case barWait => exact ⟨_, congrArg some ((if_neg (by rw [only_xop hx]; decide)).trans (if_pos (only_xop hx))), rfl⟩
  case barSync =>
    exact ⟨_, congrArg some ((if_neg (by rw [only_xop hx]; decide)).trans (if_neg (by rw [only_xop hx]; decide))), rfl⟩
  all_goals exact ⟨_, rfl, rfl⟩

/-- A constructor that a word names has the word's OP in its shape, whatever the other fields hold. -/
theorem laneCtor_shape {op : BitVec 8} {fmt xop : BitVec 4} {dst : BitVec 9} {c : Lane → Instr}
    (h : laneCtor op fmt xop dst = some c) : ∃ s : Shape, (∀ l, (c l).shape = some s ∧ (c l).lane = some l) ∧ s.op = op := by
  revert h
  fun_cases laneCtor op fmt xop dst
  all_goals rintro ⟨⟩
  all_goals repeat' split
  all_goals exact ⟨_, fun _ => ⟨rfl, rfl⟩, BitVec.eq_of_toNat_eq (Eq.symm ‹op.toNat = _›)⟩

/-! ### From instructions to words and back -/

theorem decodeRaw_lane {w : Nat} {i : Instr} {s : Shape} {l : Lane} (hs : i.shape = some s) (hl : i.lane = some l)
    (hw : l.wellFormed w s = true) : decodeRaw w l.last (l.raw s.op) = .ok i := by
  obtain ⟨c, hc, rfl⟩ := laneCtor_of_wellFormed hs hl hw
  obtain ⟨s', hs', -⟩ := laneCtor_shape hc
  cases hs.symm.trans (hs' l).1
  obtain ⟨hf, hm, hx, hi, hea, heb, hec, hd, ha, hb, hc'⟩ := Lane.wellFormed_iff.1 hw
  have cd := Role.ofCode_code hd
  have ca := Role.ofCode_code ha
  have cb := Role.ofCode_code hb
  have cc := Role.ofCode_code hc'
  unfold decodeRaw
  refine (if_neg (Shape.op_ne_jump hs)).trans ?_
  dsimp only [Lane.raw]
  simp only [contains_imm cd ca cb cc, Bool.decide_eq_true, hc, hs', Fmt.ofCode_code, cd, ca, cb, cc, bit1_eq_one, hf, hm, hx,
    hi, ep_passes.1 hea, ep_passes.1 heb, ep_passes.1 hec, hd, ha, hb, hc', Bool.not_true, Bool.or_false, bne_self_eq_false,
    Bool.false_eq_true, if_false]

theorem decodeRaw_bra {w : Nat} {j : Jump} (h : j.dst = .zero) : decodeRaw w true (j.raw 0xC0) = .ok (.bra j) := by
  obtain ⟨neg, gp, d, rejoin, imm⟩ := j
  obtain rfl : d = .zero := h
  unfold decodeRaw
  refine (if_pos (.inl rfl)).trans ?_
  simp only [Jump.raw, rejoin_parts, bit1_eq_one]
  rfl

theorem decodeRaw_jmpi {w : Nat} {j : Jump} (hd : Role.target.ok w false j.dst = true) (hi : j.imm = 0) :
    decodeRaw w true (j.raw 0xC1) = .ok (.jmpi j) := by
  obtain ⟨neg, gp, d, rejoin, imm⟩ := j
  obtain rfl : imm = 0 := hi
  unfold decodeRaw
  refine (if_pos (.inr rfl)).trans ?_
  simp only [Jump.raw, rejoin_parts, bit1_eq_one, Role.ofCode_code hd, hd]
  rfl

/-- The decoder reads back the fields that the encoder writes. -/
theorem decodeRaw_raw {w : Nat} {i : Instr} (h : i.laneWellFormed w = true) : decodeRaw w i.lastBit i.raw = .ok i := by
  obtain ⟨j, rfl, hd⟩ | ⟨j, rfl, hd, hi⟩ | ⟨s, l, hs, hl, hw⟩ := laneWellFormed_cases h
  · exact decodeRaw_bra hd
  · exact decodeRaw_jmpi hd hi
  · rw [raw_of_lane hs hl, lastBit_of_lane hl]
    exact decodeRaw_lane hs hl hw

/-- Settles O30: a word's fields are those of its instruction, and they pass every check of the decoder. -/
theorem laneEncodingsReadBack : Obligations.LaneEncodingsReadBack := by
  intro w i _ hw
  rw [decodeLane, encodeLane, ofWord_word]
  exact decodeRaw_raw hw

/-- The fields of a word that passes the checks on BRA and JMPI. -/
theorem Jump.raw_eq {r : RawLane} {j : Jump} (hf : ¬r.fmt ≠ 0) (hm : ¬r.mod ≠ 0) (hx : ¬r.xop ≠ 0)
    (he : ¬(r.epa ≠ 0 ∨ r.epb ≠ 0 ∨ r.epc ≠ 0)) (hl : ¬((r.last == 1) != true) = true) (hn : j.neg = (r.gn == 1))
    (hg : j.gp = r.gp) (hd : Operand.ofCode r.dst = some j.dst) (hj : j.rejoin = r.sa ++ r.sb ++ r.sc) (hi : j.imm = r.imm) :
    j.raw r.op = r := by
  obtain ⟨h1, h2, h3⟩ := parts_rejoin r.sa r.sb r.sc
  rw [Jump.raw, hn, hg, hj, hi, Operand.code_ofCode hd, h1, h2, h3, bit1_beq_one]
  cases r
  simp_all

/-- A word that decodes passes the checks that make its instruction well-formed, and its fields are that instruction's, but for
LAST of BRA and JMPI. -/
theorem decodeRaw_inv {w : Nat} {last : Bool} {r : RawLane} {i : Instr} (h : decodeRaw w last r = .ok i) :
    i.laneWellFormed w = true ∧ ((i.isControl = true → last = true) → i.lastBit = last ∧ i.raw = r) := by
  revert h
  fun_cases decodeRaw w last r
  all_goals rintro ⟨⟩
  case case8 hop jmp hf hm hx hi he hl d hd j hj hok =>
    refine ⟨true_and2 hok (beq_iff_eq.2 (not_not.1 (not_and.1 hi hj))), fun hc => ?_⟩
    obtain rfl := hc rfl
    exact ⟨rfl, (congrArg j.raw (Eq.symm hj)).trans (Jump.raw_eq hf hm hx he hl rfl rfl hd rfl rfl)⟩
  case case10 hop jmp hf hm hx hi he hl hj hd j =>
    refine ⟨rfl, fun hc => ?_⟩
    obtain rfl := hc rfl
    exact ⟨rfl, (congrArg j.raw (hop.resolve_right hj).symm).trans (Jump.raw_eq hf hm hx he hl rfl rfl hd rfl rfl)⟩
  case case29 hop c hc s hs f hf named den hfmt hmod hxop himm hep hl d hd hdok a ha haok b hb hbok e he heok =>
    obtain ⟨s', hs', hop'⟩ := laneCtor_shape hc
    cases (hs' _).1.symm.trans hs
    simp only [Bool.not_eq_true, Bool.or_eq_false_iff] at hep
    obtain ⟨⟨hepa, hepb⟩, hepc⟩ := hep
    simp only [named, contains_imm hd ha hb he, Bool.decide_eq_true] at himm
    rw [laneWellFormed_of_lane (hs' _).1 (hs' _).2, raw_of_lane (hs' _).1 (hs' _).2, lastBit_of_lane (hs' _).2]
    refine ⟨Lane.wellFormed_iff.2 ⟨passes_of_not hfmt, passes_of_not hmod, passes_of_not hxop, passes_of_not himm,
      ep_passes.2 hepa, ep_passes.2 hepb, ep_passes.2 hepc, passes_of_not hdok, passes_of_not haok, passes_of_not hbok,
      passes_of_not heok⟩, fun _ => ⟨by simpa using hl, ?_⟩⟩
    simp only [Lane.raw, hop', Fmt.code_ofCode hf, Operand.code_ofCode hd, Operand.code_ofCode ha, Operand.code_ofCode hb,
      Operand.code_ofCode he, bit1_beq_one]

/-- A lane word that decodes, but for a control word before a run's end, is the encoding of what it decodes to. -/
theorem decodeLane_inv {w : Nat} {last : Bool} {x : LaneWord} {i : Instr} (h : decodeLane w last x = .ok i)
    (hc : i.isControl = true → last = true) : i.laneWellFormed w = true ∧ i.lastBit = last ∧ encodeLane i = x := by
  obtain ⟨hw, hr⟩ := decodeRaw_inv h
  obtain ⟨hl, hraw⟩ := hr hc
  exact ⟨hw, hl, by rw [encodeLane, hraw, word_ofWord]⟩

end Sys2Proof
end

section
/-!
PROOFS. Access and drain words (O31): the fields of the forms of 02 R69 and R73, and for each row of R76 and 16 R366 the decoder and
the encoder against each other.
-/
namespace Sys2Proof

/-! ### The fields of a form -/

theorem formA_fields (op : BitVec 6) (fn : BitVec 2) (d a b : SReg) :
    (formA op fn d a b).extractLsb' 26 6 = op ∧ (formA op fn d a b).extractLsb' 24 2 = fn ∧
    (formA op fn d a b).extractLsb' 16 8 = d ∧ (formA op fn d a b).extractLsb' 8 8 = a ∧
    (formA op fn d a b).extractLsb' 0 8 = b := by
  simp (disch := decide) only [formA, BitVec.extractLsb'_append_eq_of_le, BitVec.extractLsb'_append_eq_of_add_le,
    Nat.reduceSub, BitVec.extractLsb'_eq_self, and_self]

theorem formI_fields (op : BitVec 6) (d a : SReg) (i : BitVec 10) :
    (formI op d a i).extractLsb' 26 6 = op ∧ (formI op d a i).extractLsb' 18 8 = d ∧
    (formI op d a i).extractLsb' 10 8 = a ∧ (formI op d a i).extractLsb' 0 10 = i := by
  simp (disch := decide) only [formI, BitVec.extractLsb'_append_eq_of_le, BitVec.extractLsb'_append_eq_of_add_le,
    Nat.reduceSub, BitVec.extractLsb'_eq_self, and_self]

theorem formU_fields (op : BitVec 6) (d : SReg) (i : BitVec 18) :
    (formU op d i).extractLsb' 26 6 = op ∧ (formU op d i).extractLsb' 18 8 = d ∧ (formU op d i).extractLsb' 0 18 = i := by
  simp (disch := decide) only [formU, BitVec.extractLsb'_append_eq_of_le, BitVec.extractLsb'_append_eq_of_add_le,
    Nat.reduceSub, BitVec.extractLsb'_eq_self, and_self]

theorem formB_fields (op : BitVec 6) (k : BitVec 2) (n : Bool) (o : BitVec 23) :
    (formB op k n o).extractLsb' 26 6 = op ∧ (formB op k n o).extractLsb' 24 2 = k ∧
    (formB op k n o).extractLsb' 23 1 = bit1 n ∧ (formB op k n o).extractLsb' 0 23 = o := by
  simp (disch := decide) only [formB, BitVec.extractLsb'_append_eq_of_le, BitVec.extractLsb'_append_eq_of_add_le,
    Nat.reduceSub, BitVec.extractLsb'_eq_self, and_self]

theorem formX_fields (op : BitVec 6) (d : SReg) (sub : BitVec 6) (a : SReg) (i : BitVec 4) :
    (formX op d sub a i).extractLsb' 26 6 = op ∧ (formX op d sub a i).extractLsb' 18 8 = d ∧
    (formX op d sub a i).extractLsb' 12 6 = sub ∧ (formX op d sub a i).extractLsb' 4 8 = a ∧
    (formX op d sub a i).extractLsb' 0 4 = i := by
  simp (disch := decide) only [formX, BitVec.extractLsb'_append_eq_of_le, BitVec.extractLsb'_append_eq_of_add_le,
    Nat.reduceSub, BitVec.extractLsb'_eq_self, and_self]

theorem drainWord_fields (op : BitVec 5) (d : BitVec 2) (a b f : BitVec 3) :
    (drainWord op d a b f).extractLsb' 11 5 = op ∧ (drainWord op d a b f).extractLsb' 9 2 = d ∧
    (drainWord op d a b f).extractLsb' 6 3 = a ∧ (drainWord op d a b f).extractLsb' 3 3 = b ∧
    (drainWord op d a b f).extractLsb' 0 3 = f := by
  simp (disch := decide) only [drainWord, BitVec.extractLsb'_append_eq_of_le, BitVec.extractLsb'_append_eq_of_add_le,
    Nat.reduceSub, BitVec.extractLsb'_eq_self, and_self]

theorem drainWord_stream (op : BitVec 5) (s : BitVec 1) (a b f : BitVec 3) :
    (drainWord op (0#1 ++ s) a b f).extractLsb' 9 1 = s := by
  simp (disch := decide) only [drainWord, BitVec.extractLsb'_append_eq_of_le, BitVec.extractLsb'_append_eq_of_add_le,
    Nat.reduceSub, BitVec.extractLsb'_eq_self]

/-! ### Fields made of smaller ones -/

theorem append_fields {m n : Nat} (a : BitVec m) (b : BitVec n) :
    (a ++ b).extractLsb' n m = a ∧ (a ++ b).extractLsb' 0 n = b :=
  ⟨BitVec.extractLsb'_append_eq_left, BitVec.extractLsb'_append_eq_right⟩

theorem agset_fields (z q x : BitVec 2) : (z ++ q ++ x).extractLsb' 4 2 = z ∧ (z ++ q ++ x).extractLsb' 2 2 = q ∧
    (z ++ q ++ x).extractLsb' 0 2 = x := by
  simp (disch := decide) only [BitVec.extractLsb'_append_eq_of_le, BitVec.extractLsb'_append_eq_of_add_le, Nat.reduceSub,
    BitVec.extractLsb'_eq_self, and_self]

theorem zero_append_lt (m : Nat) {n : Nat} (b : BitVec n) : (0#m ++ b).toNat < 2 ^ n := by
  simpa using b.isLt

/-- The kinds of STS: relaxed and release (06 R173). -/
theorem sts_kind (k : BitVec 2) : (k.toNat % 2 == 0 && decide (k.toNat ≤ 2)) = (k.toNat == 0 || k.toNat == 2) := by
  revert k; decide

/-! ### The register checks -/

theorem regsOk_iff {a b c : Bool} {i j : Instr} : regsOk a b c i = .ok j ↔ a = true ∧ b = true ∧ c = true ∧ i = j := by
  cases a <;> cases b <;> cases c <;> simp [regsOk]

theorem regsOk_pass {a b c : Bool} {i : Instr} (h : (a && b && c) = true) : regsOk a b c i = .ok i := by
  simp only [Bool.and_eq_true, and_assoc] at h
  obtain ⟨ha, hb, hc⟩ := h
  exact regsOk_iff.2 ⟨ha, hb, hc, rfl⟩

theorem regsOk_pass2 {a b : Bool} {i : Instr} (h : (a && b) = true) : regsOk a b true i = .ok i :=
  regsOk_pass ((Bool.and_true _).trans h)

/-! ### From instructions to words -/

/-- In each row the word's fields are those written, and they pass the checks that make the instruction well-formed. -/
theorem decodeAccess_encode {i : Instr} (ho : i.origin = .access) (h : i.accessWellFormed = true) :
    decodeAccess (encodeAccess i) = .ok i := by
  cases i
  case accessAdd d a b | accessSub d a b | accessMul d a b | accessMulhi d a b | accessAnd d a b | accessOr d a b |
      accessXor d a b | accessAndn d a b | accessShl d a b | accessShr d a b | sar d a b | accessRot d a b | accessMin d a b |
      accessMax d a b | minu d a b | maxu d a b | accessDiv d a b | accessRem d a b | divu d a b | remu d a b |
      accessCmp c d a b | kand d a b | kor d a b | kxor d a b | kandn d a b =>
    change decodeAccess (formA _ _ d a b) = _
    simp only [decodeAccess, formA_fields, BitVec.reduceToNat]
    exact regsOk_pass h
  case addi d a i | andi d a i | ori d a i | xori d a i | ld64 d a i | ld32 d a i | st64 d a i | st32 d a i =>
    change decodeAccess (formI _ d a i) = _
    simp only [decodeAccess, formI_fields, BitVec.reduceToNat]
    exact regsOk_pass2 h
  case shli d a i | shri d a i | sari d a i =>
    change decodeAccess (formI _ d a i) = _
    simp only [decodeAccess, formI_fields, BitVec.reduceToNat]
    obtain ⟨h, ha⟩ := Bool.and_eq_true_iff.mp h
    obtain ⟨hlt, hd⟩ := Bool.and_eq_true_iff.mp h
    exact (if_pos (of_decide_eq_true hlt)).trans (regsOk_pass2 (true_and2 hd ha))
  case movi d i | exti d i =>
    change decodeAccess (formU _ d i) = _
    simp only [decodeAccess, formU_fields, BitVec.reduceToNat]
    exact regsOk_pass2 (true_and2 h rfl)
  case lds d a k s i | sts d a k s i =>
    change decodeAccess (formX _ d (k ++ s.code) a i) = _
    simp only [decodeAccess, formX_fields, BitVec.reduceToNat, append_fields, Scope.ofCode_code, ← sts_kind]
    obtain ⟨h, ha⟩ := Bool.and_eq_true_iff.mp h
    obtain ⟨hk, hd⟩ := Bool.and_eq_true_iff.mp h
    exact (if_pos hk).trans (regsOk_pass2 (true_and2 hd ha))
  case aadd d a k s i | axchg d a k s i =>
    change decodeAccess (formX _ d (k ++ s.code) a i) = _
    simp only [decodeAccess, formX_fields, BitVec.reduceToNat, append_fields, Scope.ofCode_code]
    exact regsOk_pass2 h
  case br k n o | calla k n o =>
    change decodeAccess (formB _ k n o) = _
    simp only [decodeAccess, formB_fields, BitVec.reduceToNat, bit1_eq_one]
  case jr a | jrl a =>
    change decodeAccess (formA _ _ 0xFF a 0xFF) = _
    simp only [decodeAccess, formA_fields, BitVec.reduceToNat]
    exact (if_neg (by decide)).trans (regsOk_iff.2 ⟨rfl, h, rfl, rfl⟩)
  case agset z q x a =>
    obtain ⟨hz, ha⟩ := Bool.and_eq_true_iff.mp h
    have hz := of_decide_eq_true hz
    change decodeAccess (formX _ 0xFF (z ++ q ++ x) a 0) = _
    simp only [decodeAccess, formX_fields, BitVec.reduceToNat, agset_fields]
    exact (if_neg (not_or.2 ⟨by omega, not_not.2 rfl⟩)).trans (regsOk_pass2 (true_and2 rfl ha))
  case aggo t x | aghalt x =>
    change decodeAccess (formX _ _ (0#4 ++ x) 0xFF 0) = _
    simp only [decodeAccess, formX_fields, BitVec.reduceToNat, append_fields]
    have := zero_append_lt 4 x
    exact (if_neg (not_or.2 ⟨by omega, not_not.2 rfl⟩)).trans (regsOk_pass2 (true_and2 h rfl))
  case qputRegister q a | qputMemory q a =>
    change decodeAccess (formX _ _ (0#4 ++ q) a _) = _
    simp only [decodeAccess, formX_fields, BitVec.reduceToNat, append_fields]
    have := zero_append_lt 4 q
    exact (if_neg (by omega)).trans (regsOk_pass2 h)
  case cpnd t a | txdet t a | txload t a | mbpost t a | dload t slot a =>
    change decodeAccess (formX _ t _ a _) = _
    simp only [decodeAccess, formX_fields, BitVec.reduceToNat]
    exact regsOk_pass2 h
  case collAllReduce t a y | collReduceScatter t a y | collAllGather t a y | txtok t y a =>
    cases y
    all_goals
      change decodeAccess (formX _ t _ a _) = _
      simp only [decodeAccess, formX_fields, BitVec.reduceToNat]
      exact regsOk_pass2 h
  case accessFence k s => cases k <;> cases s <;> rfl
  case accessWaitc n c =>
    change decodeAccess (formX _ _ n _ _) = _
    simp only [decodeAccess, formX_fields, Cls.ofCode_code, BitVec.reduceToNat]
    rfl
  case accessBarSync k a | accessBarArrive k a =>
    change decodeAccess (formX _ _ (0#1 ++ k) a _) = _
    simp only [decodeAccess, formX_fields, BitVec.reduceToNat, append_fields]
    have := zero_append_lt 1 k
    exact (if_neg (by omega)).trans (regsOk_pass2 h)
  case accessBarWait k =>
    change decodeAccess (formX _ _ (0#1 ++ k) _ _) = _
    simp only [decodeAccess, formX_fields, BitVec.reduceToNat, append_fields]
    have := zero_append_lt 1 k
    exact (if_neg (by omega)).trans (regsOk_pass2 h)
  case accessSrd d n | accessSwr d n =>
    change decodeAccess (formX _ d n _ _) = _
    simp only [decodeAccess, formX_fields, BitVec.reduceToNat]
    obtain ⟨hn, hd⟩ := Bool.and_eq_true_iff.mp h
    exact (if_pos ⟨trivial, by simpa [or_assoc] using hn⟩).trans (regsOk_pass2 (true_and2 hd rfl))
  case sete d | setf d =>
    change decodeAccess (formX _ d _ _ _) = _
    simp only [decodeAccess, formX_fields, BitVec.reduceToNat]
    exact regsOk_pass2 (true_and2 h rfl)
  case halt | accessNop => rfl
  case accessTrap c | accessBkpt c =>
    change decodeAccess (formX _ _ _ _ _) = _
    simp only [decodeAccess, formX_fields, BitVec.reduceToNat, BitVec.extractLsb'_append_extractLsb']
    rfl
  all_goals cases ho

theorem decodeDrain_encode {i : Instr} (ho : i.origin = .drain) (h : i.drainWellFormed = true) :
    decodeDrain (encodeDrain i) = .ok i := by
  cases i
  case drainEnd => rfl
  case drainAdd d a b | drainMul d a b | drainMad d a b | drainMax d a b | drainMin d a b | drainClamp d a b =>
    change decodeDrain (drainWord _ d a b 0) = _
    simp only [decodeDrain, drainWord_fields, BitVec.reduceToNat]
    rfl
  case drainRelu d a | drainMov d a =>
    change decodeDrain (drainWord _ d a 0 0) = _
    simp only [decodeDrain, drainWord_fields, BitVec.reduceToNat]
    rfl
  case drainFn d a f | drainSel d a b f | drainConst d f =>
    change decodeDrain (drainWord _ d _ _ f) = _
    simp only [decodeDrain, drainWord_fields, BitVec.reduceToNat]
    exact if_pos h
  case drainStore s a f =>
    have hs := zero_append_lt 1 s
    change decodeDrain (drainWord _ (0#1 ++ s) a 0 f) = _
    simp only [decodeDrain, drainWord_fields, drainWord_stream, BitVec.reduceToNat]
    exact if_pos (true_and2 (decide_eq_true (Nat.le_of_lt_succ hs)) rfl)
  case drainStoreb s a f =>
    have hs := zero_append_lt 1 s
    obtain ⟨h1, h3⟩ := Bool.and_eq_true_iff.1 h
    change decodeDrain (drainWord _ (0#1 ++ s) a 0 f) = _
    simp only [decodeDrain, drainWord_fields, drainWord_stream, BitVec.reduceToNat]
    exact if_pos (true_and2 (true_and3 (decide_eq_true (Nat.le_of_lt_succ hs)) rfl h1) h3)
  all_goals cases ho

/-- Settles O31: each row of the two tables, its fields read back. -/
theorem accessAndDrainEncodingsReadBack : Obligations.AccessAndDrainEncodingsReadBack :=
  fun _ => ⟨decodeAccess_encode, decodeDrain_encode⟩

end Sys2Proof
end

section
/-!
PROOFS. Only encodings decode (O32), and the spec's worked words (O29): a word that passes the decoder's checks is made of the fields
that the encoder writes for its instruction.
-/
namespace Sys2Proof

/-! ### A word from its fields -/

theorem formA_of {x : AccessWord} {op : BitVec 6} {fn : BitVec 2} {d a b : SReg}
    (hop : (x.extractLsb' 26 6).toNat = op.toNat) (hfn : x.extractLsb' 24 2 = fn) (hd : x.extractLsb' 16 8 = d)
    (ha : x.extractLsb' 8 8 = a) (hb : x.extractLsb' 0 8 = b) : formA op fn d a b = x := by
  rw [← BitVec.eq_of_toNat_eq hop, ← hfn, ← hd, ← ha, ← hb, formA]
  simp (disch := rfl) only [BitVec.extractLsb'_append_extractLsb'_eq_extractLsb']
  exact BitVec.extractLsb'_eq_self

theorem formI_of {x : AccessWord} {op : BitVec 6} (hop : (x.extractLsb' 26 6).toNat = op.toNat) :
    formI op (x.extractLsb' 18 8) (x.extractLsb' 10 8) (x.extractLsb' 0 10) = x := by
  rw [← BitVec.eq_of_toNat_eq hop, formI]
  simp (disch := rfl) only [BitVec.extractLsb'_append_extractLsb'_eq_extractLsb']
  exact BitVec.extractLsb'_eq_self

theorem formU_of {x : AccessWord} {op : BitVec 6} (hop : (x.extractLsb' 26 6).toNat = op.toNat) :
    formU op (x.extractLsb' 18 8) (x.extractLsb' 0 18) = x := by
  rw [← BitVec.eq_of_toNat_eq hop, formU]
  simp (disch := rfl) only [BitVec.extractLsb'_append_extractLsb'_eq_extractLsb']
  exact BitVec.extractLsb'_eq_self

theorem formB_of {x : AccessWord} {op : BitVec 6} (hop : (x.extractLsb' 26 6).toNat = op.toNat) :
    formB op (x.extractLsb' 24 2) (x.extractLsb' 23 1 == 1) (x.extractLsb' 0 23) = x := by
  rw [← BitVec.eq_of_toNat_eq hop, formB, bit1_beq_one]
  simp (disch := rfl) only [BitVec.extractLsb'_append_extractLsb'_eq_extractLsb']
  exact BitVec.extractLsb'_eq_self

theorem formX_of {x : AccessWord} {op : BitVec 6} {d : SReg} {sub : BitVec 6} {a : SReg} {i : BitVec 4}
    (hop : (x.extractLsb' 26 6).toNat = op.toNat) (hd : x.extractLsb' 18 8 = d) (hs : x.extractLsb' 12 6 = sub)
    (ha : x.extractLsb' 4 8 = a) (hi : x.extractLsb' 0 4 = i) : formX op d sub a i = x := by
  rw [← BitVec.eq_of_toNat_eq hop, ← hd, ← hs, ← ha, ← hi, formX]
  simp (disch := rfl) only [BitVec.extractLsb'_append_extractLsb'_eq_extractLsb']
  exact BitVec.extractLsb'_eq_self

theorem drainWord_of {x : DrainWord} {op : BitVec 5} {d : BitVec 2} {a b f : BitVec 3}
    (hop : (x.extractLsb' 11 5).toNat = op.toNat) (hd : x.extractLsb' 9 2 = d) (ha : x.extractLsb' 6 3 = a)
    (hb : x.extractLsb' 3 3 = b) (hf : x.extractLsb' 0 3 = f) : drainWord op d a b f = x := by
  rw [← BitVec.eq_of_toNat_eq hop, ← hd, ← ha, ← hb, ← hf, drainWord]
  simp (disch := rfl) only [BitVec.extractLsb'_append_extractLsb'_eq_extractLsb']
  exact BitVec.extractLsb'_eq_self

/-! ### A field from smaller ones -/

theorem fn_cases (f : BitVec 2) : f = 0 ∨ f = 1 ∨ f = 2 ∨ f = 3 := by revert f; decide

theorem sub_of_kind {s : BitVec 6} {k : BitVec 2} {sc : Scope} (hk : k = s.extractLsb' 4 2)
    (hs : Scope.ofCode (s.extractLsb' 0 4) = some sc) : s = k ++ sc.code := by
  rw [hk, Scope.code_ofCode hs]
  exact (BitVec.extractLsb'_append_extractLsb' (w := 2) (len := 4)).symm

theorem sub_of_agset (s : BitVec 6) : s = s.extractLsb' 4 2 ++ s.extractLsb' 2 2 ++ s.extractLsb' 0 2 := by revert s; decide

theorem sub_of_stream {s : BitVec 6} (h : ¬3 < s.toNat) : s = 0#4 ++ s.extractLsb' 0 2 := by revert s; decide

theorem sub_of_barrier {s : BitVec 6} (h : ¬31 < s.toNat) : s = 0#1 ++ s.extractLsb' 0 5 := by revert s; decide

theorem sub_of_flag {s : BitVec 6} (h : s.toNat ≤ 1) : s = 0#5 ++ bit1 (s == 1) := by revert s; decide

theorem sub_cases {s : BitVec 6} (h : s.toNat ≤ 2) : s = 0 ∨ s = 1 ∨ s = 2 := by bv_omega

theorem imm_of_flag {i : BitVec 4} (h : i.toNat ≤ 1) : i = 0#3 ++ bit1 (i == 1) := by revert i; decide

/-- A store's stream, bit 9 of a drain word whose D is 0 or 1. -/
theorem d_of_stream {x : DrainWord} (h : (x.extractLsb' 9 2).toNat ≤ 1) : x.extractLsb' 9 2 = 0#1 ++ x.extractLsb' 9 1 := by
  have low : x.extractLsb' 9 1 = (x.extractLsb' 9 2).extractLsb' 0 1 := by
    ext k hk
    simp
    omega
  have zero : ∀ d : BitVec 2, d.toNat ≤ 1 → d = 0#1 ++ d.extractLsb' 0 1 := by decide
  rw [low]
  exact zero _ h

/-! ### Checks that have been passed -/

theorem ok_of_unless {c : Prop} [Decidable c] {r : Reject} {e : Except Reject Instr} {i : Instr}
    (h : (if c then .error r else e) = .ok i) : ¬c ∧ e = .ok i := by
  split at h
  · cases h
  · exact ⟨‹_›, h⟩

theorem ok_of_when {c : Prop} [Decidable c] {r : Reject} {e : Except Reject Instr} {i : Instr}
    (h : (if c then e else .error r) = .ok i) : c ∧ e = .ok i := by
  split at h
  · exact ⟨‹_›, h⟩
  · cases h

section Checks
variable {c k a b : Bool} {p q : Prop} {r : Reject} {i j : Instr}

theorem regsOk_of_when [Decidable p] (h : (if p then regsOk a b true i else .error r) = .ok j) :
    p ∧ a = true ∧ b = true ∧ i = j := by
  obtain ⟨hp, h⟩ := ok_of_when h
  obtain ⟨ha, hb, -, hi⟩ := regsOk_iff.1 h
  exact ⟨hp, ha, hb, hi⟩

theorem regsOk_of_both (h : (if (c && k) = true then regsOk a b true i else .error r) = .ok j) :
    c = true ∧ k = true ∧ a = true ∧ b = true ∧ i = j := by
  obtain ⟨hck, h⟩ := regsOk_of_when h
  obtain ⟨hc, hk⟩ := Bool.and_eq_true_iff.1 hck
  exact ⟨hc, hk, h⟩

theorem regsOk_of_neither [Decidable (p ∨ q)] (h : (if p ∨ q then .error r else regsOk a b true i) = .ok j) :
    ¬p ∧ ¬q ∧ a = true ∧ b = true ∧ i = j := by
  obtain ⟨hpq, h⟩ := ok_of_unless h
  obtain ⟨hp, hq⟩ := not_or.1 hpq
  obtain ⟨ha, hb, -, hi⟩ := regsOk_iff.1 h
  exact ⟨hp, hq, ha, hb, hi⟩

end Checks

/-! ### From words to instructions -/

/-- Row by row of 02 R76: the checks that the word has passed make its instruction well-formed, and say what stands in the fields
that the instruction does not name. -/
theorem decodeAccess_inv {x : AccessWord} {i : Instr} (h : decodeAccess x = .ok i) :
    i.accessWellFormed = true ∧ encodeAccess i = x := by
  unfold decodeAccess at h
  dsimp only at h
  split at h
  case h_1 hop | h_2 hop | h_3 hop | h_4 hop | h_5 hop | h_16 hop =>
    obtain ⟨hd, ha, hb, rfl⟩ := regsOk_iff.1 h
    rcases fn_cases (x.extractLsb' 24 2) with hfn | hfn | hfn | hfn
    all_goals rw [hfn]
    all_goals exact ⟨true_and3 hd ha hb, formA_of hop hfn rfl rfl rfl⟩
  case h_6 hop | h_7 hop | h_8 hop | h_9 hop | h_17 hop | h_18 hop | h_19 hop | h_20 hop =>
    obtain ⟨hd, ha, -, rfl⟩ := regsOk_iff.1 h
    exact ⟨true_and2 hd ha, formI_of hop⟩
  case h_10 hop | h_11 hop | h_12 hop =>
    obtain ⟨hlt, hd, ha, rfl⟩ := regsOk_of_when h
    exact ⟨true_and3 (decide_eq_true hlt) hd ha, formI_of hop⟩
  case h_13 hop | h_14 hop =>
    obtain ⟨hd, -, -, rfl⟩ := regsOk_iff.1 h
    exact ⟨hd, formU_of hop⟩
  case h_15 hop =>
    obtain ⟨hd, ha, hb, rfl⟩ := regsOk_iff.1 h
    exact ⟨true_and3 hd ha hb, formA_of hop rfl rfl rfl rfl⟩
  case h_21 hop =>
    split at h
    · cases h
    · next hsc =>
      obtain ⟨hk, hd, ha, rfl⟩ := regsOk_of_when h
      exact ⟨true_and3 hk hd ha, formX_of hop rfl (sub_of_kind rfl hsc) rfl rfl⟩
  case h_22 hop =>
    split at h
    · cases h
    · next hsc =>
      obtain ⟨hk, hd, ha, rfl⟩ := regsOk_of_when h
      exact ⟨true_and3 ((sts_kind _).trans hk) hd ha, formX_of hop rfl (sub_of_kind rfl hsc) rfl rfl⟩
  case h_23 hop | h_24 hop =>
    split at h
    · cases h
    · next hsc =>
      obtain ⟨-, hd, ha, rfl⟩ := regsOk_of_when h
      exact ⟨true_and2 hd ha, formX_of hop rfl (sub_of_kind rfl hsc) rfl rfl⟩
  case h_25 hop | h_26 hop =>
    cases h
    exact ⟨rfl, formB_of hop⟩
  case h_27 hop =>
    obtain ⟨hle, h⟩ := ok_of_unless h
    obtain ⟨hd, ha, hb, rfl⟩ := regsOk_iff.1 h
    rcases fn_cases (x.extractLsb' 24 2) with hfn | hfn | hfn | hfn
    · rw [hfn]; exact ⟨ha, formA_of hop hfn (eq_of_beq hd) rfl (eq_of_beq hb)⟩
    · rw [hfn]; exact ⟨ha, formA_of hop hfn (eq_of_beq hd) rfl (eq_of_beq hb)⟩
    · simp [hfn] at hle
    · simp [hfn] at hle
  case h_28 hop =>
    obtain ⟨hfn, h⟩ := ok_of_unless h
    obtain ⟨hd, ha, hb, rfl⟩ := regsOk_iff.1 h
    exact ⟨rfl, formA_of hop (not_not.1 hfn) (eq_of_beq hd) (eq_of_beq ha) (eq_of_beq hb)⟩
  case h_29 hop =>
    obtain ⟨hz, hi, hd, ha, rfl⟩ := regsOk_of_neither h
    exact ⟨true_and2 (decide_eq_true (Nat.le_of_not_lt hz)) ha, formX_of hop (eq_of_beq hd) (sub_of_agset _) rfl (not_not.1 hi)⟩
  case h_30 hop =>
    obtain ⟨hs, hi, hd, ha, rfl⟩ := regsOk_of_neither h
    exact ⟨hd, formX_of hop rfl (sub_of_stream hs) (eq_of_beq ha) (not_not.1 hi)⟩
  case h_31 hop =>
    obtain ⟨hs, hi, hd, ha, rfl⟩ := regsOk_of_neither h
    exact ⟨rfl, formX_of hop (eq_of_beq hd) (sub_of_stream hs) (eq_of_beq ha) (not_not.1 hi)⟩
  case h_32 hop =>
    obtain ⟨hs, hi, hd, ha, rfl⟩ := regsOk_of_neither h
    by_cases h1 : x.extractLsb' 0 4 = 1
    · rw [if_pos h1]
      exact ⟨ha, formX_of hop (eq_of_beq hd) (sub_of_stream hs) rfl h1⟩
    · rw [if_neg h1]
      exact ⟨ha, formX_of hop (eq_of_beq hd) (sub_of_stream hs) rfl (by bv_omega)⟩
  case h_33 hop | h_36 hop | h_37 hop | h_39 hop =>
    obtain ⟨hs, hi, hd, ha, rfl⟩ := regsOk_of_both h
    exact ⟨true_and2 hd ha, formX_of hop rfl (eq_of_beq hs) rfl (eq_of_beq hi)⟩
  case h_34 hop =>
    obtain ⟨hs, hi, hd, ha, rfl⟩ := regsOk_of_both h
    rcases sub_cases (of_decide_eq_true hs) with hs | hs | hs
    all_goals rw [hs]
    all_goals exact ⟨true_and2 hd ha, formX_of hop rfl hs rfl (imm_of_flag (of_decide_eq_true hi))⟩
  case h_35 hop =>
    obtain ⟨hs, hi, hd, ha, rfl⟩ := regsOk_of_both h
    exact ⟨true_and2 hd ha, formX_of hop rfl (sub_of_flag (of_decide_eq_true hs)) rfl (eq_of_beq hi)⟩
  case h_38 hop =>
    obtain ⟨hi, hd, ha, rfl⟩ := regsOk_of_when h
    exact ⟨true_and2 hd ha, formX_of hop rfl rfl rfl (eq_of_beq hi)⟩
  case h_40 hop =>
    split at h
    · next hk hsc =>
      obtain ⟨hi, h⟩ := ok_of_unless h
      obtain ⟨hd, ha, -, rfl⟩ := regsOk_iff.1 h
      exact ⟨rfl, formX_of hop (eq_of_beq hd) (sub_of_kind (FenceKind.code_ofCode hk) hsc) (eq_of_beq ha) (not_not.1 hi)⟩
    · cases h
  case h_41 hop =>
    split at h
    · next hc =>
      obtain ⟨hd, ha, -, rfl⟩ := regsOk_iff.1 h
      exact ⟨rfl, formX_of hop (eq_of_beq hd) rfl (eq_of_beq ha) (Cls.code_ofCode hc).symm⟩
    · cases h
  case h_42 hop =>
    obtain ⟨hc, h⟩ := ok_of_unless h
    obtain ⟨hs, hi⟩ := not_or.1 hc
    split at h
    · next h0 =>
      obtain ⟨hd, ha, -, rfl⟩ := regsOk_iff.1 h
      exact ⟨ha, formX_of hop (eq_of_beq hd) (sub_of_barrier hs) rfl (BitVec.eq_of_toNat_eq h0)⟩
    · next h1 =>
      obtain ⟨hd, ha, -, rfl⟩ := regsOk_iff.1 h
      exact ⟨ha, formX_of hop (eq_of_beq hd) (sub_of_barrier hs) rfl (BitVec.eq_of_toNat_eq h1)⟩
    · next h0 h1 =>
      obtain ⟨hd, ha, -, rfl⟩ := regsOk_iff.1 h
      simp only [imp_false] at h0 h1
      exact ⟨rfl, formX_of hop (eq_of_beq hd) (sub_of_barrier hs) (eq_of_beq ha) (by bv_omega)⟩
  case h_43 hop | h_44 hop =>
    obtain ⟨⟨hi, hn⟩, hd, ha, rfl⟩ := regsOk_of_when h
    exact ⟨true_and2 (by simpa [or_assoc] using hn) hd, formX_of hop rfl rfl (eq_of_beq ha) hi⟩
  case h_45 hop | h_46 hop =>
    obtain ⟨hs, hi, hd, ha, rfl⟩ := regsOk_of_neither h
    exact ⟨hd, formX_of hop rfl (not_not.1 hs) (eq_of_beq ha) (not_not.1 hi)⟩
  case h_47 hop =>
    obtain ⟨hs, hi, hd, ha, rfl⟩ := regsOk_of_neither h
    exact ⟨rfl, formX_of hop (eq_of_beq hd) (not_not.1 hs) (eq_of_beq ha) (not_not.1 hi)⟩
  case h_48 hop | h_49 hop =>
    obtain ⟨hd, ha, -, rfl⟩ := regsOk_iff.1 h
    exact ⟨rfl, formX_of hop (eq_of_beq hd) (append_fields _ _).1.symm (eq_of_beq ha) (append_fields _ _).2.symm⟩
  case h_50 => cases h

/-- The same for 16 R366. -/
theorem decodeDrain_inv {x : DrainWord} {i : Instr} (h : decodeDrain x = .ok i) :
    i.drainWellFormed = true ∧ encodeDrain i = x := by
  unfold decodeDrain at h
  dsimp only at h
  split at h
  case h_1 hop =>
    obtain ⟨hx, ⟨⟩⟩ := ok_of_when h
    exact ⟨rfl, (eq_of_beq hx).symm⟩
  case h_2 hop | h_3 hop | h_4 hop | h_5 hop | h_6 hop | h_7 hop =>
    obtain ⟨hf, ⟨⟩⟩ := ok_of_when h
    exact ⟨rfl, drainWord_of hop rfl rfl rfl hf⟩
  case h_8 hop | h_12 hop =>
    obtain ⟨⟨hb, hf⟩, ⟨⟩⟩ := ok_of_when h
    exact ⟨rfl, drainWord_of hop rfl rfl hb hf⟩
  case h_9 hop =>
    obtain ⟨hc, ⟨⟩⟩ := ok_of_when h
    obtain ⟨hb, hf⟩ := Bool.and_eq_true_iff.1 hc
    exact ⟨hf, drainWord_of hop rfl rfl (eq_of_beq hb) rfl⟩
  case h_10 hop =>
    obtain ⟨hf, ⟨⟩⟩ := ok_of_when h
    exact ⟨hf, drainWord_of hop rfl rfl rfl rfl⟩
  case h_11 hop =>
    obtain ⟨hc, ⟨⟩⟩ := ok_of_when h
    simp only [Bool.and_eq_true] at hc
    obtain ⟨⟨ha, hb⟩, hf⟩ := hc
    exact ⟨hf, drainWord_of hop rfl (eq_of_beq ha) (eq_of_beq hb) rfl⟩
  case h_13 hop =>
    obtain ⟨hc, ⟨⟩⟩ := ok_of_when h
    obtain ⟨hd, hb⟩ := Bool.and_eq_true_iff.1 hc
    exact ⟨rfl, drainWord_of hop (d_of_stream (of_decide_eq_true hd)) rfl (eq_of_beq hb) rfl⟩
  case h_14 hop =>
    obtain ⟨hc, ⟨⟩⟩ := ok_of_when h
    simp only [Bool.and_eq_true] at hc
    obtain ⟨⟨⟨hd, hb⟩, h1⟩, h3⟩ := hc
    exact ⟨true_and2 h1 h3, drainWord_of hop (d_of_stream (of_decide_eq_true hd)) rfl (eq_of_beq hb) rfl⟩
  case h_15 => cases h

/-- Settles O32: in each stream the checks that a word has passed make it the encoding of a well-formed instruction. -/
theorem onlyEncodingsDecode : Obligations.OnlyEncodingsDecode :=
  ⟨fun _ _ _ _ h hc => ⟨Machine.decodeLane_origin h, decodeLane_inv h hc⟩,
    fun _ _ h => ⟨Machine.decodeAccess_origin h, decodeAccess_inv h⟩,
    fun _ _ h => ⟨Machine.decodeDrain_origin h, decodeDrain_inv h⟩⟩

/-! ### Worked words -/

theorem specLaneWords_encode :
    ∀ p ∈ Machine.specLaneWords, p.2.origin = .lane ∧ p.2.laneWellFormed 256 = true ∧ encodeLane p.2 = p.1 := by decide

theorem specAccessWords_encode :
    ∀ p ∈ Machine.specAccessWords, p.2.origin = .access ∧ p.2.accessWellFormed = true ∧ encodeAccess p.2 = p.1 := by decide

theorem specDrainWords_encode :
    ∀ p ∈ Machine.specDrainWords, p.2.origin = .drain ∧ p.2.drainWellFormed = true ∧ encodeDrain p.2 = p.1 := by decide

/-- Settles O29: each word is the encoding of a well-formed instruction, so that it decodes to it (O30, O31). -/
theorem workedWordsDecodeAsTheSpecSays : Obligations.WorkedWordsDecodeAsTheSpecSays := by
  refine ⟨fun p hp => ?_, fun p hp => ?_, fun p hp => ?_⟩
  · obtain ⟨ho, hw, he⟩ := specLaneWords_encode p hp
    exact ⟨he ▸ laneEncodingsReadBack 256 p.2 ho hw, he⟩
  · obtain ⟨ho, hw, he⟩ := specAccessWords_encode p hp
    exact ⟨he ▸ decodeAccess_encode ho hw, he⟩
  · obtain ⟨ho, hw, he⟩ := specDrainWords_encode p hp
    exact ⟨he ▸ decodeDrain_encode ho hw, he⟩

end Sys2Proof
end

section
/-!
PROOFS. Words with no active lane (O11), and access registers read back (O20): what S reads after a write, and what completes or holds
a word.
-/
namespace Sys2Proof.Machine

theorem swr_inactive {w : Lane} {s : State} {x : Issue} (hx : s.issuer = some x) (hf : x.commitWait = false) (hm : x.on w = 0) :
    exec (.swr w) s = .next (x.done s x.g) := by
  change execSwr w s = _
  unfold execSwr
  simp [hx, hf, hm]

/-- Settles O11: SWR tests its active lanes first, and every other word of these classes issues through `State.issueAlu`, which
completes at once without an active lane. -/
theorem noActiveLaneChangesNothing : Obligations.NoActiveLaneChangesNothing := by
  intro w s x hx hf hm i hi
  rcases List.mem_cons.1 hi with rfl | hi
  · exact swr_inactive hx hf hm
  · obtain ⟨srcs, f, h⟩ := aluWords_form w s i hi
    exact h.trans (issueAlu_inactive hx hf hm)

theorem getS_putS (g : Group) (k n : Nat) (v : Word64) : (g.putS k v).getS n = if n = k then v else g.getS n :=
  rd_wr 0 g.s k n v

theorem sState_putS (g : Group) (k n : Nat) (v : Word64) : (g.putS k v).sState n = if n = k then .full else g.sState n := by
  unfold Group.sState Group.putS rd
  split
  · next h => rw [h, look_del_self]; rfl
  · next h => rw [look_del_ne _ h]

theorem readS_none (g : Group) : g.readS 0xFF = 0 := if_pos rfl

theorem writeS_none (g : Group) (v : Word64) : g.writeS 0xFF v = g := if_pos rfl

theorem readS_writeS (g : Group) (d r : SReg) (v : Word64) :
    (g.writeS d v).readS r = if r = 0xFF then 0 else if r = d then v else g.readS r := by
  unfold Group.readS Group.writeS
  by_cases hr : r = 0xFF
  · simp only [if_pos hr]
  by_cases hd : d = 0xFF
  · subst hd; simp only [if_pos, if_neg hr]
  · simp only [if_neg hr, if_neg hd, getS_putS, BitVec.toNat_inj]

theorem fullS_writeS_self (g : Group) {d : SReg} (v : Word64) (hd : d ≠ 0xFF) : (g.writeS d v).fullS d = true := by
  unfold Group.fullS Group.writeS
  rw [if_neg hd, sState_putS, if_pos rfl]
  exact Bool.or_true _

theorem fullS_writeS_ne (g : Group) {d r : SReg} (v : Word64) (hr : r ≠ d) : (g.writeS d v).fullS r = g.fullS r := by
  unfold Group.fullS Group.writeS
  split
  · rfl
  · rw [sState_putS, if_neg (fun h => hr (BitVec.toNat_inj.1 h))]

/-- A word with an empty source or a busy destination holds. -/
theorem accessWord_holds {s : State} {gid : Nat} {g : Group} {srcs dsts : List SReg} {f : Nat → Group → Out}
    (hx : s.accessIssuer = some (gid, g)) (h : (srcs.all g.fullS && dsts.all (fun d => !g.busyS d)) = false) :
    s.accessWord srcs dsts f = .next s := by
  simp [State.accessWord, hx, h]

theorem accessAlu_holds {s : State} {gid : Nat} {g : Group} {d a b : SReg} {f : Word64 → Word64 → Word64}
    (hx : s.accessIssuer = some (gid, g)) (h : g.fullS a = false ∨ g.fullS b = false ∨ g.busyS d = true) :
    s.accessAlu d a b f = .next s := by
  refine accessWord_holds hx ?_
  rcases h with h | h | h <;> simp [h]

theorem accessTable_form (s : State) (d a b : SReg) : ∀ p ∈ accessTable d a b, ∃ f, exec p.1 s = s.accessAlu d a b f := by
  simp only [accessTable, List.forall_mem_cons, List.not_mem_nil, false_imp_iff, implies_true, and_true]
  and_intros
  all_goals dsimp only [exec]
  all_goals exact ⟨_, rfl⟩

theorem group_accessNext_self (s : State) (gid : Nat) (g : Group) : (s.accessNext gid g).group gid = some g.accessDone :=
  group_setGroup_self _ _ _

theorem group_accessNext_ne (s : State) {gid k : Nat} (g : Group) (h : k ≠ gid) : (s.accessNext gid g).group k = s.group k :=
  group_setGroup_ne _ _ h

/-- Settles O20: the laws of a register written and read, and the hold of a word whose registers are not ready. -/
theorem accessRegistersReadBack : Obligations.AccessRegistersReadBack := by
  refine ⟨fun g d r v => ⟨readS_writeS g d r v, fullS_writeS_self g v, fullS_writeS_ne g v, writeS_none g v, readS_none g⟩,
    fun s gid g => ⟨g.accessDone, group_accessNext_self s gid g, rfl, rfl, rfl, rfl, rfl, rfl, fun k => group_accessNext_ne s g⟩,
    fun s gid g d a b hx h p hp => ?_⟩
  obtain ⟨f, hf⟩ := accessTable_form s d a b p hp
  exact hf.trans (accessAlu_holds hx h)

end Sys2Proof.Machine
end

section
/-!
PROOFS. Floating-point, dot, conversion, move and pack words (O3): each table's row is what its word does in a lane.
-/
namespace Sys2Proof.Machine

/-! ### The low and the high half of a register (03 R89) -/

theorem toNat_half (a : Word32) (h : Nat) : (half a h).toNat = a.toNat / 2 ^ (16 * h) % 65536 :=
  Nat.mod_eq_of_lt (Nat.lt_trans (Nat.mod_lt _ (by decide)) (by decide))

theorem toNat_and_0xFFFF (a : Word32) : (a &&& 0xFFFF).toNat = a.toNat % 2 ^ 16 :=
  Nat.and_two_pow_sub_one_eq_mod a.toNat 16

theorem half_zero (a : Word32) : half a 0 = a &&& 0xFFFF :=
  BitVec.eq_of_toNat_eq <| by rw [toNat_half, toNat_and_0xFFFF]; omega

theorem half_one (a : Word32) : half a 1 = a >>> 16 :=
  BitVec.eq_of_toNat_eq <| by
    rw [toNat_half, BitVec.toNat_ushiftRight, Nat.shiftRight_eq_div_pow]
    omega

/-- Bit 0 of UNPACK's XOP names the half that it reads (05 R155). -/
theorem half_xop (a : Word32) (x : BitVec 4) :
    half a (x.toNat % 2) = if x.getLsbD 0 then a >>> 16 else a &&& 0xFFFF := by
  rw [BitVec.getLsbD, Nat.testBit_zero]
  rcases Nat.mod_two_eq_zero_or_one x.toNat with h | h
  · simp [h, half_zero]
  · simp [h, half_one]

/-- PACK's word of two low halves, as a number (05 R155). -/
theorem lowHalves_or_eq_ofNat (a b : Word32) :
    (b <<< 16) ||| (a &&& 0xFFFF) = BitVec.ofNat 32 (a.toNat % 65536 + 65536 * (b.toNat % 65536)) := by
  have high : (b <<< 16).toNat = 2 ^ 16 * (b.toNat % 65536) := by
    rw [BitVec.toNat_shiftLeft, Nat.shiftLeft_eq]; omega
  apply BitVec.eq_of_toNat_eq
  rw [BitVec.toNat_or, toNat_and_0xFFFF, high, ← Nat.two_pow_add_eq_or_of_lt (Nat.mod_lt _ (by decide)), BitVec.toNat_ofNat]
  omega

/-! ### Each row of the two tables -/

theorem floatTable_exec (w : Lane) (s : State) : ∀ p ∈ floatTable w, exec p.1 s = s.laneFloat w p.2 := by
  simp only [floatTable, List.forall_mem_cons, List.not_mem_nil, false_imp_iff, implies_true, and_true]
  and_intros
  all_goals rfl

theorem packB32_exec (w : Lane) (s : State) : exec (.packB32 w) s =
    s.laneOp w (fun a b _ => ⟨BitVec.ofNat 32 (a.toNat % 65536 + 65536 * (b.toNat % 65536)), 0⟩) := by
  simp only [← lowHalves_or_eq_ofNat]
  rfl

theorem unpackB32_exec (w : Lane) (s : State) : exec (.unpackB32 w) s =
    s.laneOp w (fun a _ _ => ⟨if w.xop.getLsbD 0 then a >>> 16 else a &&& 0xFFFF, 0⟩) := by
  simp only [← half_xop]
  rfl

theorem unpackFloat_exec (w : Lane) (s : State) : exec (.unpackFloat w) s = s.laneOp w (fun a _ _ =>
    fcvt (ffOf w.fmt) fp32 .rne false (if w.xop.getLsbD 0 then a >>> 16 else a &&& 0xFFFF)) := by
  simp only [← half_xop]
  rfl

theorem moveTable_exec (w : Lane) (s : State) : ∀ p ∈ moveTable w, exec p.1 s = s.laneOp w p.2 := by
  simp only [moveTable, List.forall_mem_cons, List.not_mem_nil, false_imp_iff, implies_true, and_true]
  exact ⟨rfl, rfl, rfl, packB32_exec w s, rfl, unpackB32_exec w s, unpackFloat_exec w s⟩

/-- Settles O3: a row's word issues as `State.laneOp` of the operation in its row, and that completes when nothing enabled is raised. -/
theorem floatAndMoveWordsWriteTheirTable : Obligations.FloatAndMoveWordsWriteTheirTable :=
  ⟨fun w s _ _ _ _ _ hr hp p hm ht => (floatTable_exec w s p hm).trans (laneOp_next hr hp _ ht),
    fun w s _ _ _ _ _ hr hp p hm ht => (moveTable_exec w s p hm).trans (laneOp_next hr hp _ ht)⟩

end Sys2Proof.Machine
end

section
/-!
PROOFS. Registers and predicates read back (O5, O6), and the fullness and special-register words (O10).
-/
namespace Sys2Proof.Machine

/-! ### Predicates (04 R110, 02 R66) -/

theorem getP_putP_self {g : Group} {n : Nat} (hn : n ≠ 7) (m v : LaneMask) :
    (g.putP n m v).getP n = (g.getP n &&& ~~~m) ||| (v &&& m) := by
  simp [Group.putP, Group.getP, hn]

theorem getP_putP_ne {g : Group} {n k : Nat} (hk : k ≠ n) (m v : LaneMask) : (g.putP n m v).getP k = g.getP k := by
  unfold Group.putP
  split
  · rfl
  · simp [Group.getP, rd_wr_ne, hk]

theorem getK_putK (g : Group) {n k : Nat} (h0 : 0 < n) (hk : k < 4) (b : Bool) :
    (g.putK n b).getK k = if k = n then b else g.getK k := by
  have bit : ((1#4 : BitVec 4) <<< n).getLsbD k = decide (k = n) := by
    rw [BitVec.getLsbD_shiftLeft, BitVec.getLsbD_one]
    simp only [hk, decide_true, Bool.true_and]
    by_cases h : k < n <;> simp [h] <;> omega
  have new : (if b then (1#4 : BitVec 4) <<< n else 0).getLsbD k = (b && decide (k = n)) := by
    cases b
    · simp
    · exact bit
  by_cases hk0 : k = 0
  · subst hk0
    rw [if_neg (Nat.ne_of_lt h0)]
    rfl
  · simp only [Group.putK, Group.getK, if_neg (Nat.ne_of_gt h0), if_neg hk0, BitVec.getLsbD_or, BitVec.getLsbD_and, BitVec.getLsbD_not,
      bit, new]
    by_cases h : k = n
    · rw [if_pos h, decide_eq_true h]; simp
    · rw [if_neg h, decide_eq_false h]; simp [hk]

/-- Settles O6: a write to P7 or K0 is discarded, and any other predicate is read back by the two laws above. -/
theorem hardWiredPredicatesReadOne : Obligations.HardWiredPredicatesReadOne := by
  intro g n m v b
  refine ⟨rfl, rfl, fun hn => getP_putP_self hn m v, fun k hk => getP_putP_ne hk m v, fun h0 h4 => ?_, fun k hk hne h4 => ?_, rfl, rfl⟩
  · rw [getK_putK g h0 h4, if_pos rfl]
  · rcases Nat.eq_zero_or_pos n with rfl | h0
    · rfl
    · rw [getK_putK g h0 hk, if_neg hne]

/-! ### Results (04 R123, 03 R93) -/

@[simp] theorem group_done_self (x : Issue) (s : State) (g : Group) :
    (x.done s g).group x.gid = some (g.updEntry x.e (fun en => { en with runpos := en.runpos + 1 })) := group_setGroup_self _ _ _

theorem group_done_ne {x : Issue} {k : Nat} (hk : k ≠ x.gid) (s : State) (g : Group) : (x.done s g).group k = s.group k :=
  group_setGroup_ne _ _ hk

/-- Raising conditions leaves every lane register and its fullness as it was. -/
theorem raise_read (g : Group) (m : LaneMask) (fl : Nat → BitVec 5) (k l : Nat) :
    (g.raise m fl).getV k l = g.getV k l ∧ (g.raise m fl).vState k l = g.vState k l ∧
    (g.raise m fl).getT k l = g.getT k l ∧ (g.raise m fl).tState k l = g.tState k l :=
  ⟨raise_keeps (·.getV k l) (fun _ _ _ => rfl) .., raise_keeps (·.vState k l) (fun _ _ _ => rfl) ..,
    raise_keeps (·.getT k l) (fun _ _ _ => rfl) .., raise_keeps (·.tState k l) (fun _ _ _ => rfl) ..⟩

/-- Settles O5: the destination is read back by `writeDst_read` under the raised conditions, and these by `fpFlagsOf_raise` over the
write. -/
theorem resultsStandInTheirDestination : Obligations.ResultsStandInTheirDestination := by
  intro x s w g r
  have keeps := (raise_keeps (fun g => (g.s, g.sst, g.p, g.k, g.fpEnable, g.oq, g.rspb)) (fun _ _ _ => rfl)
    (g.writeDst x.en.wbase w.dst (x.on w) (fun l => (r l).val)) (x.on w) (fun l => (r l).fl)).trans
    (writeDst_keeps (fun g => (g.s, g.sst, g.p, g.k, g.fpEnable, g.oq, g.rspb)) (fun _ _ _ _ => rfl) (fun _ _ _ _ => rfl) ..)
  simp only [Prod.mk.injEq] at keeps
  refine ⟨_, group_done_self .., fun k l hl => ?_, fun l hl => ?_, keeps⟩
  · obtain ⟨wv, wvs, wt, wts⟩ := writeDst_read g x.en.wbase w.dst (x.on w) (fun l => (r l).val) k hl
    obtain ⟨rv, rvs, rt, rts⟩ := raise_read (g.writeDst x.en.wbase w.dst (x.on w) (fun l => (r l).val)) (x.on w) (fun l => (r l).fl) k l
    exact ⟨rv.trans wv, rvs.trans wvs, rt.trans wt, rts.trans wts⟩
  · refine (fpFlagsOf_raise _ (x.on w) (fun l => (r l).fl) hl).trans ?_
    rw [writeDst_keeps (·.fpFlagsOf l) (fun _ _ _ _ => rfl) (fun _ _ _ _ => rfl)]

/-! ### Fullness (04 R127) -/

/-- Writing a table at each of a list's keys. -/
theorem rd_foldl_wr {β : Type} [DecidableEq β] (d : β) (v : Nat → β) (ks : List Nat) (m : AMap β) (j : Nat) :
    rd d (ks.foldl (fun m k => wr d m k (v k)) m) j = if j ∈ ks then v j else rd d m j := by
  induction ks generalizing m with
  | nil => rfl
  | cons k r ih =>
    rw [List.foldl_cons, ih, rd_wr]
    by_cases hr : j ∈ r
    · rw [if_pos hr, if_pos (List.mem_cons_of_mem k hr)]
    · rw [if_neg hr]
      by_cases hk : j = k
      · rw [if_pos hk, if_pos (hk ▸ List.mem_cons_self), hk]
      · rw [if_neg hk, if_neg (fun h => (List.mem_cons.1 h).elim hk hr)]

theorem setVState_lanes (g : Group) (k : Nat) (f : Fullness) (ls : List Nat) :
    ls.foldl (fun g l => g.setVState k l f) g =
      { g with vst := (ls.map (64 * k + ·)).foldl (fun m j => wr .full m j f) g.vst } := by
  induction ls generalizing g with
  | nil => rfl
  | cons l r ih => exact ih (g.setVState k l f)

/-- The bits of a V register set over lanes, read back. -/
theorem vState_setVState_lanes (g : Group) (k : Nat) (f : Fullness) (m : LaneMask) (k' : Nat) {l : Nat} (hl : l < 64) :
    (g.overLanes m (fun g l => g.setVState k l f)).vState k' l = if k' = k ∧ inMask m l then f else g.vState k' l := by
  rw [Group.overLanes, setVState_lanes, Group.vState, rd_foldl_wr .full (fun _ => f)]
  refine if_congr ?_ rfl rfl
  simp only [List.mem_map, mem_maskLanes]
  constructor
  · rintro ⟨j, ⟨hj, hm⟩, he⟩
    obtain ⟨rfl, rfl⟩ : k = k' ∧ j = l := by omega
    exact ⟨rfl, hm⟩
  · rintro ⟨rfl, hm⟩
    exact ⟨l, ⟨hl, hm⟩, rfl⟩

theorem setBitsOf_next {w : Lane} {s : State} {x : Issue} (h : BareReady w.gp w.neg s x)
    (hp : x.g.pendingIn (x.dst w) (x.on w) = false) (f : Fullness) :
    s.setBitsOf w f = .next (x.done s (x.g.overLanes (x.on w) (fun g l => g.setDest (x.dst w) l f))) := by
  refine (bare_next h (noTrap_zero _ _) hp).trans ?_
  exact congrArg (fun g => Host.Outcome.next (x.done s g)) (raise_none ..)

/-- EMPTY and FILL of a V register: its bits in the active lanes are set, and nothing else of the group changes. -/
theorem setBitsOf_reads {w : Lane} {s : State} {x : Issue} {n : BitVec 8} (h : BareReady w.gp w.neg s x) (hd : w.dst = .v n)
    (hp : x.g.pendingIn (x.dst w) (x.on w) = false) (f : Fullness) :
    ∃ g' : Group, s.setBitsOf w f = .next (x.done s g') ∧ g' = { x.g with vst := g'.vst } ∧
      ∀ k l, l < 64 → g'.vState k l = if k = x.g.slotOf x.en.wbase n.toNat ∧ inMask (x.on w) l then f else x.g.vState k l := by
  have hdst : x.dst w = .v (x.g.slotOf x.en.wbase n.toNat) := by rw [Issue.dst, hd]; rfl
  refine ⟨_, setBitsOf_next h hp f, ?_, fun k l hl => ?_⟩
  · rw [hdst, Group.overLanes]
    simp only [Group.setDest, setVState_lanes]
  · rw [hdst]
    exact vState_setVState_lanes x.g _ f (x.on w) k hl

/-! ### SWR (04 R113, R117) -/

/-- What SWR does with its source values: the register that its number names is written, or the window base requested. -/
def Issue.swr (x : Issue) (s : State) (w : Lane) (m : LaneMask) (a : Nat → Word32) (g : Group) : Out :=
  match w.imm.toNat % 64 with
  | 0x00 => .next (x.done s { g with fpFlags := (maskLanes m).foldl (fun f l => wr 0 f l ((a l).setWidth 5)) g.fpFlags })
  | 0x01 => .next (x.done s { g with fpEnable := (maskLanes m).foldl (fun f l => wr 0 f l ((a l).setWidth 5)) g.fpEnable })
  | 0x02 => .next (x.done s { g with mxFlags := (a (lowLane m)).setWidth 5 })
  | 0x10 =>
    if bits (a (lowLane m)).toNat 15 3 * 8 + g.w ≤ 65536 then
      .next (x.done s (g.updEntry x.e (fun en => { en with reqBase := some (bits (a (lowLane m)).toNat 15 3 * 8) })))
    else .next (s.trapPrecise x.gid x.e (x.trapRec .illopnd 1 m))
  | _ => .next (x.done s { g with rspb := putHalf g.rspb (w.imm.getLsbD 8) (a (lowLane m)) })

section
variable {x : Issue} {s : State} {w : Lane} {m : LaneMask} {a : Nat → Word32} {g : Group}

theorem swr_fpFlags (h : w.imm.toNat % 64 = 0x00) : x.swr s w m a g =
    .next (x.done s { g with fpFlags := (maskLanes m).foldl (fun f l => wr 0 f l ((a l).setWidth 5)) g.fpFlags }) := by
  simp only [Issue.swr, h]

theorem swr_fpEnable (h : w.imm.toNat % 64 = 0x01) : x.swr s w m a g =
    .next (x.done s { g with fpEnable := (maskLanes m).foldl (fun f l => wr 0 f l ((a l).setWidth 5)) g.fpEnable }) := by
  simp only [Issue.swr, h]

theorem swr_mxFlags (h : w.imm.toNat % 64 = 0x02) : x.swr s w m a g =
    .next (x.done s { g with mxFlags := (a (lowLane m)).setWidth 5 }) := by
  simp only [Issue.swr, h]

theorem swr_rspb (h : w.imm.toNat % 64 = 0x12) : x.swr s w m a g =
    .next (x.done s { g with rspb := putHalf g.rspb (w.imm.getLsbD 8) (a (lowLane m)) }) := by
  simp only [Issue.swr, h]

theorem swr_wbase {b : Nat} (h : w.imm.toNat % 64 = 0x10) (hb : bits (a (lowLane m)).toNat 15 3 * 8 = b) (hle : b + g.w ≤ 65536) :
    x.swr s w m a g = .next (x.done s (g.updEntry x.e (fun en => { en with reqBase := some b }))) := by
  subst hb
  simp only [Issue.swr, h]
  exact if_pos hle

theorem swr_wbase_outside {b : Nat} (h : w.imm.toNat % 64 = 0x10) (hb : bits (a (lowLane m)).toNat 15 3 * 8 = b)
    (hlt : 65536 < b + g.w) : x.swr s w m a g = .next (s.trapPrecise x.gid x.e (x.trapRec .illopnd 1 m)) := by
  subst hb
  simp only [Issue.swr, h]
  exact if_neg (Nat.not_le.2 hlt)

end

theorem swr_ready {w : Lane} {s : State} {x : Issue} {a b c : Nat → Word32} {g : Group}
    (h : LaneReady { w with sb := .zero, sc := .zero } s x a b c g) : exec (.swr w) s = x.swr s w (x.on w) a g := by
  obtain ⟨hx, hf, hl, hs⟩ := h
  show execSwr w s = _
  simp only [execSwr, hx, hf, if_neg hl, hs, Bool.false_eq_true, if_false]
  rfl

theorem rd_lanes_wr {β : Type} [DecidableEq β] (d : β) (v : Nat → β) (m : LaneMask) (t : AMap β) {l : Nat} (hl : l < 64) :
    rd d ((maskLanes m).foldl (fun t k => wr d t k (v k)) t) l = if inMask m l then v l else rd d t l := by
  rw [rd_foldl_wr]
  exact if_congr (by simp [mem_maskLanes, hl]) rfl rfl

theorem putHalf_low (v : Word64) (x : Word32) {m : Word64} (hm : m = BitVec.allOnes 64 <<< 32) :
    putHalf v false x = (v &&& m) ||| x.setWidth 64 := by
  apply BitVec.eq_of_getLsbD_eq
  intro i hi
  rw [putHalf, if_neg (by decide), hm, BitVec.getLsbD_append]
  simp only [BitVec.getLsbD_or, BitVec.getLsbD_and, BitVec.getLsbD_shiftLeft, BitVec.getLsbD_allOnes, BitVec.getLsbD_setWidth,
    BitVec.getLsbD_ushiftRight]
  by_cases h : i < 32
  · simp [h, hi]
  · simp [h, hi, show 32 + (i - 32) = i by omega, show i - 32 < 32 by omega, show i - 32 < 64 by omega,
      BitVec.getLsbD_of_ge x i (by omega)]

theorem putHalf_high (v : Word64) (x : Word32) {m : Word64} (hm : m = BitVec.allOnes 64 >>> 32) :
    putHalf v true x = (v &&& m) ||| (x.setWidth 64 <<< 32) := by
  apply BitVec.eq_of_getLsbD_eq
  intro i hi
  rw [putHalf, if_pos rfl, hm, BitVec.getLsbD_append]
  simp only [BitVec.getLsbD_or, BitVec.getLsbD_and, BitVec.getLsbD_shiftLeft, BitVec.getLsbD_allOnes, BitVec.getLsbD_setWidth,
    BitVec.getLsbD_ushiftRight]
  by_cases h : i < 32
  · simp [h, show 32 + i < 64 by omega]
  · simp [h, hi, show ¬32 + i < 64 by omega, show i - 32 < 64 by omega]

/-- Settles O10: EMPTY and FILL issue as `State.setBitsOf`, and SWR does what its number says. -/
theorem registerBitWordsWriteTheirTable : Obligations.RegisterBitWordsWriteTheirTable := by
  refine ⟨fun w s x n h hd hp p hm => ?_, fun w s x a b c g h => ?_⟩
  · simp only [List.mem_cons, List.not_mem_nil, or_false] at hm
    obtain rfl | rfl := hm
    · exact setBitsOf_reads h hd hp .empty
    · exact setBitsOf_reads h hd hp .full
  · rw [swr_ready h]
    refine ⟨fun hn => ⟨_, swr_fpFlags hn, rfl, fun l hl => rd_lanes_wr 0 (fun l => (a l).setWidth 5) _ _ hl⟩,
      fun hn => ⟨_, swr_fpEnable hn, rfl, fun l hl => rd_lanes_wr 0 (fun l => (a l).setWidth 5) _ _ hl⟩, swr_mxFlags,
      fun hn => ?_, fun hn => ?_⟩
    · intro v
      have hv : putHalf g.rspb (w.imm.getLsbD 8) (a (lowLane (x.on w))) = v := by
        unfold v
        cases w.imm.getLsbD 8
        · exact putHalf_low _ _ (by decide)
        · exact putHalf_high _ _ (by decide)
      rw [swr_rspb hn, hv]
    · intro b'
      have hb : bits (a (lowLane (x.on w))).toNat 15 3 * 8 = b' := congrArg (· % 8192 * 8) (Nat.shiftRight_eq_div_pow _ 3)
      exact ⟨swr_wbase hn hb, swr_wbase_outside hn hb⟩

end Sys2Proof.Machine
end

section
/-!
PROOFS. Empty sources and enabled conditions (O12).
-/
namespace Sys2Proof.Machine

section
variable {w : Lane} {s : State} {x : Issue} {a b c : Nat → Word32} {g : Group} (h : LaneReady w s x a b c g)
  (op : Word32 → Word32 → Word32 → FRes) (ht : (g.fpTrap (x.on w) (fun l => (op (a l) (b l) (c l)).fl)).1 ≠ 0)
include h ht

/-- A lane word that raises an enabled condition before the commit point (03 R93). -/
theorem laneOp_fp (hc : x.en.afterCommit = false) : s.laneOp w op = .next (s.trapPrecise x.gid x.e
    { x.trapRec .fp 0 (g.fpTrap (x.on w) (fun l => (op (a l) (b l) (c l)).fl)).1 with
      flags := (g.fpTrap (x.on w) (fun l => (op (a l) (b l) (c l)).fl)).2 }) :=
  issueAlu_fp h.issuer h.free h.lanes (srcs := laneSrcs w) h.fetched ht hc

/-- The same after the commit point (01 R38): results and flags stand, and the trap is noted. -/
theorem laneOp_fpPost (hc : x.en.afterCommit = true) (hp : g.pendingIn (x.dst w) (x.on w) = false) :
    s.laneOp w op = .next (x.done s
      (((g.writeDst x.en.wbase w.dst (x.on w) (fun l => (op (a l) (b l) (c l)).val)).raise (x.on w)
        (fun l => (op (a l) (b l) (c l)).fl)).notePost x.e
        ⟨.fp, x.en.pos, (g.fpTrap (x.on w) (fun l => (op (a l) (b l) (c l)).fl)).1,
          (g.fpTrap (x.on w) (fun l => (op (a l) (b l) (c l)).fl)).2⟩)) :=
  issueAlu_fpPost h.issuer h.free h.lanes (srcs := laneSrcs w) h.fetched ht hc hp

end

/-- Settles O12: the words of `sourceWords` issue through `State.issueAlu`, whose laws say when it holds, traps EMPTYREAD, traps FP and
notes FP for the run's completion. -/
theorem sourcesAndConditionsTrapAsSaid : Obligations.SourcesAndConditionsTrapAsSaid := by
  refine ⟨fun w s x h i hi => ?_, fun w s x a b c g h p hp => ?_⟩
  · obtain ⟨hx, hf, hl⟩ := h
    obtain ⟨f, hform⟩ := sourceWords_form w s i hi
    exact ⟨fun hs => hform.trans (issueAlu_hold (srcs := laneSrcs w) hx hf hl hs),
      fun t hs => hform.trans (issueAlu_empty (srcs := laneSrcs w) hx hf hl hs)⟩
  · intro r t ht
    have hform : exec p.1 s = s.laneOp w (perElem w.fmt (fun F => p.2 F (Rm.ofCode w.mod))) := floatTable_exec w s p hp
    rw [hform]
    exact ⟨laneOp_fp h _ ht, laneOp_fpPost h _ ht⟩

end Sys2Proof.Machine
end

section
/-!
PROOFS. The frame of the register words of lanes (O14): what an issue changes of the state and of its group, and what each word's result
writes.
-/
namespace Sys2Proof.Machine

/-! ### The state around the issuing group -/

/-- From s to t only group gid, the performance counters and the notices change, and every new notice is group gid's. -/
structure State.TouchesGroup (s t : State) (gid : Nat) : Prop where
  rest : t = { s with groups := t.groups, perf := t.perf, notices := t.notices }
  groups : ∀ k, k ≠ gid → t.group k = s.group k
  notices : ∀ n, n ∉ s.notices → n ∈ t.notices → n.gid = gid

theorem touchesGroup_refl (s : State) (gid : Nat) : s.TouchesGroup s gid := ⟨rfl, fun _ _ => rfl, fun _ hn hm => (hn hm).elim⟩

theorem touchesGroup_done (x : Issue) (s : State) (g : Group) : s.TouchesGroup (x.done s g) x.gid :=
  ⟨rfl, fun _ hk => group_done_ne hk s g, fun _ hn hm => (hn hm).elim⟩

theorem touchesGroup_trapPrecise (s : State) (gid e : Nat) (r : TrapRec) : s.TouchesGroup (s.trapPrecise gid e r) gid := by
  have kept : ∀ k, k ≠ gid → ((s.updGroup gid (fun g => g.abandon e)).updGroup gid (fun g => g.updEntry e (fun en =>
      { en with st := .trapped, trapRec := some r, hangOld := none }))).group k = s.group k := fun k hk => by
    rw [group_updGroup_ne _ _ hk, group_updGroup_ne _ _ hk]
  unfold State.trapPrecise State.stopSplit State.notice
  split
  · split
    · exact ⟨rfl, kept, fun _ hn hm => (hn hm).elim⟩
    · refine ⟨rfl, kept, fun n hn hm => ?_⟩
      rcases List.mem_append.1 hm with hm | hm
      · exact (hn hm).elim
      · rw [List.mem_singleton.1 hm]
  · exact ⟨rfl, kept, fun _ hn hm => (hn hm).elim⟩

theorem group_notice (s : State) (gid : Nat) (e : Option Nat) (k : Nat) : (s.notice gid e).group k = s.group k := by
  unfold State.notice
  split
  · split <;> rfl
  · rfl

theorem group_trapPrecise {s : State} {gid : Nat} {g : Group} (h : s.group gid = some g) (e : Nat) (r : TrapRec) :
    (s.trapPrecise gid e r).group gid =
      some ((g.abandon e).updEntry e (fun en => { en with st := .trapped, trapRec := some r, hangOld := none })) := by
  rw [State.trapPrecise, State.stopSplit, group_notice, group_updGroup_self, group_updGroup_self, h]
  rfl

theorem group_of_issuer {s : State} {x : Issue} (h : s.issuer = some x) : s.group x.gid = some x.g := by
  unfold State.issuer at h
  split at h
  · split at h
    · cases h
    · next hg =>
      split at h
      · cases h
      · split at h
        · cases h; exact hg
        · cases h
  · cases h

/-! ### The issuing group -/

/-- From g to g' only the split table and the operand queues change. -/
def Group.SameRegs (g g' : Group) : Prop := g' = { g with oq := g'.oq, table := g'.table }

theorem sameRegs_refl (g : Group) : g.SameRegs g := rfl

theorem Group.SameRegs.trans {a b c : Group} (hab : a.SameRegs b) (hbc : b.SameRegs c) : a.SameRegs c := by
  unfold Group.SameRegs at *
  rw [hbc, hab]

theorem sameRegs_updEntry (g : Group) (e : Nat) (f : Entry → Entry) : g.SameRegs (g.updEntry e f) := rfl

theorem sameRegs_abandon (g : Group) (e : Nat) : g.SameRegs (g.abandon e) := rfl

theorem sameRegs_popOf (g : Group) (e : Nat) (o : Operand) (yes : Bool) : g.SameRegs (g.popOf e o yes) := by
  unfold Group.popOf
  split
  · split <;> rfl
  · rfl

theorem sameRegs_notePosts (e : Nat) (ps : List PostTrap) (g : Group) : g.SameRegs (ps.foldl (fun g p => g.notePost e p) g) := by
  induction ps generalizing g with
  | nil => rfl
  | cons p r ih => exact (sameRegs_updEntry g e _).trans (ih _)

/-- Operand fetch changes queues alone. -/
theorem sameRegs_fetch {s : State} {x : Issue} {imm : BitVec 32} {a b c : Src} {va vb vc : Nat → Word32} {g : Group}
    {post : Option LaneMask} (h : s.fetch x imm a b c = .ok va vb vc g post) : x.g.SameRegs g := by
  unfold State.fetch at h
  dsimp only at h
  split at h
  · cases h
  · cases h
  · split at h
    · cases h
    · cases h
    · split at h
      · cases h
      · cases h
      · cases h
        exact ((sameRegs_popOf ..).trans (sameRegs_popOf ..)).trans (sameRegs_popOf ..)

/-- From g to g' only the split table, the operand queues and the special registers change. -/
def Group.SameFiles (g g' : Group) : Prop :=
  g' = { g with oq := g'.oq, table := g'.table, fpFlags := g'.fpFlags, fpEnable := g'.fpEnable, mxFlags := g'.mxFlags, rspb := g'.rspb }

theorem Group.SameRegs.sameFiles {g g' : Group} (h : g.SameRegs g') : g.SameFiles g' := by
  rw [h]; rfl

theorem Group.SameFiles.trans {a b c : Group} (hab : a.SameFiles b) (hbc : b.SameFiles c) : a.SameFiles c := by
  unfold Group.SameFiles at *
  rw [hbc, hab]

/-- What an issue of split x leaves: its group is the only one touched, and stands as g' with what the step did to it. -/
structure Issue.Leaves (x : Issue) (s t : State) (g' : Group) : Prop where
  issuer : s.issuer = some x
  touches : s.TouchesGroup t x.gid
  group : t.group x.gid = some g'

section
variable {s : State} {x : Issue} (hx : s.issuer = some x)
include hx

theorem leaves_same : x.Leaves s s x.g := ⟨hx, touchesGroup_refl s x.gid, group_of_issuer hx⟩

theorem leaves_done (g : Group) : ∃ g', x.Leaves s (x.done s g) g' ∧ g.SameRegs g' :=
  ⟨_, ⟨hx, touchesGroup_done x s g, group_done_self x s g⟩, sameRegs_updEntry g x.e _⟩

theorem leaves_trap (r : TrapRec) : ∃ g', x.Leaves s (s.trapPrecise x.gid x.e r) g' ∧ x.g.SameRegs g' :=
  ⟨_, ⟨hx, touchesGroup_trapPrecise s x.gid x.e r, group_trapPrecise (group_of_issuer hx) x.e r⟩,
    (sameRegs_abandon x.g x.e).trans (sameRegs_updEntry _ x.e _)⟩

end

theorem issueAlu_issuer {s t : State} {gp : BitVec 3} {neg : Bool} {imm : BitVec 32} {srcs : LaneMask → Src × Src × Src}
    {f : Issue → LaneMask → (Nat → Word32) → (Nat → Word32) → (Nat → Word32) → Result}
    (h : s.issueAlu gp neg imm srcs f = .next t) : ∃ x, s.issuer = some x := by
  cases hx : s.issuer with
  | none => simp [State.issueAlu, hx] at h
  | some x => exact ⟨x, rfl⟩

/-- An issue leaves the group's registers, or what its result wrote over them. -/
theorem issueAlu_leaves {s t : State} {gp : BitVec 3} {neg : Bool} {imm : BitVec 32} {srcs : LaneMask → Src × Src × Src}
    {f : Issue → LaneMask → (Nat → Word32) → (Nat → Word32) → (Nat → Word32) → Result}
    (h : s.issueAlu gp neg imm srcs f = .next t) : ∃ (x : Issue) (g' : Group), x.Leaves s t g' ∧ (x.g.SameRegs g' ∨
      ∃ a b c g, x.g.SameRegs g ∧ Group.SameRegs (((f x (x.active gp neg) a b c).write g).raise (x.active gp neg)
        (f x (x.active gp neg) a b c).fl) g') := by
  rcases issueAlu_cases h with rfl | ⟨x, hx, rfl | ⟨r, rfl⟩ | ⟨a, b, c, g, post, hf, ps, rfl⟩⟩
  · obtain ⟨x, hx⟩ := issueAlu_issuer h
    exact ⟨x, x.g, leaves_same hx, .inl (sameRegs_refl x.g)⟩
  · obtain ⟨g', hl, hg⟩ := leaves_done hx x.g
    exact ⟨x, g', hl, .inl hg⟩
  · obtain ⟨g', hl, hg⟩ := leaves_trap hx r
    exact ⟨x, g', hl, .inl hg⟩
  · obtain ⟨g', hl, hg⟩ := leaves_done hx (ps.foldl (fun g p => g.notePost x.e p)
      (((f x (x.active gp neg) a b c).write g).raise (x.active gp neg) (f x (x.active gp neg) a b c).fl))
    exact ⟨x, g', hl, .inr ⟨a, b, c, g, sameRegs_fetch hf, (sameRegs_notePosts x.e ps _).trans hg⟩⟩

/-! ### What a result writes -/

/-- The special registers of a group that lane words can write. -/
def Group.specials (g : Group) : AMap (BitVec 5) × AMap (BitVec 5) × BitVec 5 × Word64 := (g.fpFlags, g.fpEnable, g.mxFlags, g.rspb)

/-- What no lane word of these classes changes of its group. -/
def Group.fixed (g : Group) := (g.w, g.tag, g.k, g.apc, g.aTrap, g.ops, g.accs, g.stack, g.left)

/-- From g to g' a V or T register changes in the lanes of m of the destination d alone, and an S register or predicate only where o
names it. -/
structure Group.WritesOnly (d : Dest) (m : LaneMask) (o : Operand) (g g' : Group) : Prop where
  v : ∀ k l, l < 64 → ¬(d = .v k ∧ inMask m l) → g'.getV k l = g.getV k l
  t : ∀ k l, l < 64 → ¬(d = .t k ∧ inMask m l) → g'.getT k l = g.getT k l
  s : ∀ n : BitVec 8, o ≠ .s n → g'.getS n.toNat = g.getS n.toNat
  p : ∀ k, (∀ n, o = .v n → n.toNat ≠ k) → g'.getP k = g.getP k
  fixed : g'.fixed = g.fixed

section
variable {d : Dest} {m : LaneMask} {o : Operand}

theorem writesOnly_refl (g : Group) : Group.WritesOnly d m o g g :=
  ⟨fun _ _ _ _ => rfl, fun _ _ _ _ => rfl, fun _ _ => rfl, fun _ _ => rfl, rfl⟩

theorem Group.WritesOnly.trans {a b c : Group} (hab : Group.WritesOnly d m o a b) (hbc : Group.WritesOnly d m o b c) :
    Group.WritesOnly d m o a c :=
  ⟨fun k l hl h => (hbc.v k l hl h).trans (hab.v k l hl h), fun k l hl h => (hbc.t k l hl h).trans (hab.t k l hl h),
    fun n h => (hbc.s n h).trans (hab.s n h), fun k h => (hbc.p k h).trans (hab.p k h), hbc.fixed.trans hab.fixed⟩

theorem Group.SameFiles.writesOnly {g g' : Group} (h : g.SameFiles g') : Group.WritesOnly d m o g g' := by
  rw [h]
  exact ⟨fun _ _ _ _ => rfl, fun _ _ _ _ => rfl, fun _ _ => rfl, fun _ _ => rfl, rfl⟩

theorem Group.SameRegs.specials {g g' : Group} (h : g.SameRegs g') : g'.specials = g.specials := by
  rw [h]; rfl

theorem writesOnly_raise (g : Group) (fl : Nat → BitVec 5) : Group.WritesOnly d m o g (g.raise m fl) := by
  have keeps {γ : Type} (h : Group → γ) (hf : ∀ g l x, h (Group.orFlags g l x) = h g) := raise_keeps h hf g m fl
  exact ⟨fun k l _ _ => (raise_read g m fl k l).1, fun k l _ _ => (raise_read g m fl k l).2.2.1,
    fun n _ => keeps (·.getS n.toNat) (fun _ _ _ => rfl), fun k _ => keeps (·.getP k) (fun _ _ _ => rfl),
    keeps Group.fixed (fun _ _ _ => rfl)⟩

theorem putP_eq (g : Group) (n : Nat) (m v : LaneMask) : g.putP n m v = { g with p := (g.putP n m v).p } := by
  unfold Group.putP
  split <;> rfl

theorem writesOnly_putP (g : Group) {n : BitVec 8} (ho : o = .v n) (m' v : LaneMask) :
    Group.WritesOnly d m o g (g.putP n.toNat m' v) where
  v k l _ _ := by rw [putP_eq]; rfl
  t k l _ _ := by rw [putP_eq]; rfl
  s n _ := by rw [putP_eq]; rfl
  p k h := getP_putP_ne (Ne.symm (h n ho)) m' v
  fixed := by rw [putP_eq]; rfl

theorem specials_putP (g : Group) (n : Nat) (m v : LaneMask) : (g.putP n m v).specials = g.specials := by
  rw [putP_eq]; rfl

theorem writesOnly_putS (g : Group) {n : BitVec 8} (ho : o = .s n) (v : Word64) : Group.WritesOnly d m o g (g.putS n.toNat v) where
  v _ _ _ _ := rfl
  t _ _ _ _ := rfl
  s k h := (getS_putS g n.toNat k.toNat v).trans (if_neg fun hk => h (ho.trans (congrArg _ (BitVec.toNat_inj.1 hk).symm)))
  p _ _ := rfl
  fixed := rfl

end

theorem setDest_bits (g : Group) (d : Dest) (l : Nat) (f : Fullness) : g.setDest d l f =
    { g with vst := (g.setDest d l f).vst, tst := (g.setDest d l f).tst, sst := (g.setDest d l f).sst } := by
  cases d <;> rfl

/-- Setting bits over lanes keeps whatever does not depend on fullness. -/
theorem setDest_lanes_keeps {γ : Type} (h : Group → γ)
    (hb : ∀ (g : Group) vst tst sst, h { g with vst := vst, tst := tst, sst := sst } = h g)
    (g : Group) (m : LaneMask) (d : Dest) (f : Fullness) : h (g.overLanes m (fun g l => g.setDest d l f)) = h g :=
  overLanes_keeps h m _ (fun g l => (congrArg h (setDest_bits g d l f)).trans (hb ..)) g

/-- A result that writes its word's destination in its word's lanes alone, and no special register. -/
structure Result.Framed (x : Issue) (w : Lane) (r : Result) : Prop where
  writes : ∀ g : Group, g.w = x.g.w → Group.WritesOnly (x.dst w) (x.on w) w.dst g (r.write g)
  specials : ∀ g : Group, (r.write g).specials = g.specials

theorem destOf_congr {g g' : Group} (h : g.w = g'.w) (wb : Nat) (o : Operand) : g.destOf wb o = g'.destOf wb o := by
  cases o <;> simp [Group.destOf, Group.slotOf, h]

section
variable (x : Issue) (w : Lane)

theorem framed_lanes (r : Nat → FRes) : Result.Framed x w (.lanes x w (x.on w) r) where
  writes g hw := by
    have hd : g.destOf x.en.wbase w.dst = x.dst w := destOf_congr hw _ _
    have read := fun k l (hl : l < 64) => writeDst_read g x.en.wbase w.dst (x.on w) (fun l => (r l).val) k hl
    have keeps {γ : Type} (h : Group → γ) (hv : ∀ g k l x, h (Group.putV g k l x) = h g)
        (ht : ∀ g k l x, h (Group.putT g k l x) = h g) :=
      writeDst_keeps h hv ht g x.en.wbase w.dst (x.on w) (fun l => (r l).val)
    refine ⟨fun k l hl h => ?_, fun k l hl h => ?_, fun n _ => ?_, fun k _ => ?_, ?_⟩
    · exact (read k l hl).1.trans (if_neg (hd ▸ h))
    · exact (read k l hl).2.2.1.trans (if_neg (hd ▸ h))
    · exact keeps (·.getS n.toNat) (fun _ _ _ _ => rfl) (fun _ _ _ _ => rfl)
    · exact keeps (·.getP k) (fun _ _ _ _ => rfl) (fun _ _ _ _ => rfl)
    · exact keeps Group.fixed (fun _ _ _ _ => rfl) (fun _ _ _ _ => rfl)
  specials _ := writeDst_keeps Group.specials (fun _ _ _ _ => rfl) (fun _ _ _ _ => rfl) ..

theorem framed_pred (m : LaneMask) (r : Nat → Bool × BitVec 5) : Result.Framed x w (.pred w m r) := by
  unfold Result.pred
  split
  · next n hn =>
    exact ⟨fun g _ => writesOnly_putP g hn .., fun g => specials_putP g ..⟩
  · exact ⟨fun g _ => writesOnly_refl g, fun g => rfl⟩

theorem framed_scalar (v : Word64) (fl : Nat → BitVec 5) : Result.Framed x w (.scalar w v fl) := by
  unfold Result.scalar
  split
  · next n hn =>
    exact ⟨fun g _ => writesOnly_putS g hn v, fun g => rfl⟩
  · exact ⟨fun g _ => writesOnly_refl g, fun g => rfl⟩

theorem framed_bits (d : Dest) (f : Fullness) (fl : Nat → BitVec 5) (waits : Group → Bool) :
    Result.Framed x w ⟨fl, waits, fun g => g.overLanes (x.on w) (fun g l => g.setDest d l f)⟩ where
  writes _ _ :=
    ⟨fun k l _ _ => setDest_lanes_keeps (·.getV k l) (fun _ _ _ _ => rfl) ..,
      fun k l _ _ => setDest_lanes_keeps (·.getT k l) (fun _ _ _ _ => rfl) ..,
      fun n _ => setDest_lanes_keeps (·.getS n.toNat) (fun _ _ _ _ => rfl) ..,
      fun k _ => setDest_lanes_keeps (·.getP k) (fun _ _ _ _ => rfl) ..,
      setDest_lanes_keeps Group.fixed (fun _ _ _ _ => rfl) ..⟩
  specials _ := setDest_lanes_keeps Group.specials (fun _ _ _ _ => rfl) ..

end

/-! ### Which result each word has -/

/-- A word that issues through `State.issueAlu` with a framed result, and raises conditions only if its class does. -/
def FramedWord (w : Lane) (s : State) (i : Instr) : Prop :=
  ∃ srcs f, exec i s = s.issueAlu w.gp w.neg w.imm srcs f ∧ ∀ x a b c,
    Result.Framed x w (f x (x.on w) a b c) ∧ (i ∈ raisingWords w ∨ (f x (x.on w) a b c).fl = noFlags)

section
variable {w : Lane} {s : State} {i : Instr}

theorem framedWord_laneOp {op : Word32 → Word32 → Word32 → FRes} (h : exec i s = s.laneOp w op)
    (hr : i ∈ raisingWords w ∨ ∀ a b c, (op a b c).fl = 0) : FramedWord w s i :=
  ⟨_, _, h, fun x a b c => ⟨framed_lanes x w _, hr.imp_right (fun h0 => funext (fun l => h0 (a l) (b l) (c l)))⟩⟩

theorem framedWord_laneInt (h : ∃ op, exec i s = s.laneInt w op) : FramedWord w s i := by
  obtain ⟨op, h⟩ := h
  exact framedWord_laneOp h (.inr fun _ _ _ => rfl)

theorem framedWord_predOp (h : ∃ f, exec i s = s.predOp w f) : FramedWord w s i := by
  obtain ⟨f, h⟩ := h
  exact ⟨noSrcs, _, h, fun x _ _ _ => ⟨framed_pred x w _ _, .inr rfl⟩⟩

theorem framedWord_vtos (h : ∃ f, exec i s = s.vtos w f) : FramedWord w s i := by
  obtain ⟨f, h⟩ := h
  exact ⟨_, _, h, fun x _ _ _ => ⟨framed_scalar x w _ _, .inr rfl⟩⟩

theorem framedWord_bits (h : ∃ f, exec i s = s.setBitsOf w f) : FramedWord w s i := by
  obtain ⟨f, h⟩ := h
  exact ⟨noSrcs, _, h, fun x _ _ _ => ⟨framed_bits x w _ f _ _, .inr rfl⟩⟩

end

section
variable (w : Lane) (s : State)

theorem integerWords_form : ∀ i ∈ (intArithmetic w).map Prod.fst ++ (logicTable w).map Prod.fst ++ (countTable w).map Prod.fst ++
    (fieldTable w).map Prod.fst, ∃ op, exec i s = s.laneInt w op := by
  simp only [intArithmetic, logicTable, countTable, fieldTable, List.map_cons, List.map_nil, List.cons_append, List.nil_append,
    List.forall_mem_cons, List.not_mem_nil, false_imp_iff, implies_true, and_true]
  and_intros
  all_goals dsimp only [exec]
  all_goals exact ⟨_, rfl⟩

theorem mem_raisingWords {i : Instr}
    (h : i ∈ [Instr.dot2 w, .cvt w, .packFloat w, .unpackFloat w, .cmpFloat w, .vreduce w, .vscan w, .swr w]) : i ∈ raisingWords w :=
  List.mem_append_right _ h

theorem floatTable_framed : ∀ i ∈ (floatTable w).map Prod.fst, FramedWord w s i := by
  intro i hi
  obtain ⟨p, hp, rfl⟩ := List.mem_map.1 hi
  exact framedWord_laneOp (floatTable_exec w s p hp) (.inl (List.mem_append_left _ hi))

theorem moveTable_framed : ∀ i ∈ (moveTable w).map Prod.fst, FramedWord w s i := by
  intro i hi
  obtain ⟨p, hp, rfl⟩ := List.mem_map.1 hi
  refine framedWord_laneOp (moveTable_exec w s p hp) ?_
  revert p
  simp only [moveTable, List.forall_mem_cons, List.not_mem_nil, false_imp_iff, implies_true, and_true]
  exact ⟨fun _ => .inl (mem_raisingWords w (by simp)), fun _ => .inl (mem_raisingWords w (by simp)), fun _ => .inr trivial,
    fun _ => .inr trivial, fun _ => .inl (mem_raisingWords w (by simp)), fun _ => .inr trivial,
    fun _ => .inl (mem_raisingWords w (by simp))⟩

/-- SHFL raises nothing, whichever lane it reads. -/
theorem shfl_framed : FramedWord w s (.shfl w) := by
  unfold FramedWord
  dsimp only [exec]
  refine ⟨laneSrcs w, _, rfl, fun x a b c => ⟨framed_lanes x w _, .inr (funext fun l => ?_)⟩⟩
  dsimp only [Result.lanes, noFlags]
  split <;> rfl

/-- VMATCH raises nothing, whichever form it has. -/
theorem vmatch_framed : FramedWord w s (.vmatch w) := by
  unfold FramedWord
  dsimp only [exec]
  refine ⟨laneSrcs w, _, rfl, fun x a b c => ⟨framed_lanes x w _, .inr (funext fun l => ?_)⟩⟩
  dsimp only [Result.lanes, noFlags]
  split <;> rfl

/-- VREDUCE's result is an S register's or a lane register's, as its destination is. -/
theorem vreduce_framed : FramedWord w s (.vreduce w) := by
  unfold FramedWord
  dsimp only [exec]
  refine ⟨laneSrcs w, _, rfl, fun x a b c => ⟨?_, .inl (mem_raisingWords w (by simp))⟩⟩
  dsimp only
  split
  · exact framed_scalar x w _ _
  · exact framed_lanes x w _

/-- The compares, SEL and STOV, and the cross-lane words with three sources. -/
theorem compareWords_framed : ∀ i ∈ [Instr.cmp w, .cmpFloat w, .pset w, .sel w, .stov w, .shfl w, .vballotS w, .vballotV w, .vmatch w,
    .vreduce w, .vscan w], FramedWord w s i := by
  simp only [List.forall_mem_cons, List.not_mem_nil, false_imp_iff, implies_true, and_true]
  refine ⟨?_, ?_, ?_, ?_, ?_, shfl_framed w s, ?_, ?_, vmatch_framed w s, vreduce_framed w s, ?_⟩
  all_goals dsimp only [FramedWord, exec]
  · exact ⟨_, _, rfl, fun x _ _ _ => ⟨framed_pred x w _ _, .inr rfl⟩⟩
  · exact ⟨_, _, rfl, fun x _ _ _ => ⟨framed_pred x w _ _, .inl (mem_raisingWords w (by simp))⟩⟩
  · exact ⟨_, _, rfl, fun x _ _ _ => ⟨framed_pred x w _ _, .inr rfl⟩⟩
  · exact ⟨_, _, rfl, fun x _ _ _ => ⟨framed_lanes x w _, .inr rfl⟩⟩
  · exact ⟨_, _, rfl, fun x _ _ _ => ⟨framed_lanes x w _, .inr rfl⟩⟩
  · exact ⟨_, _, rfl, fun x _ _ _ => ⟨framed_scalar x w _ _, .inr rfl⟩⟩
  · exact ⟨_, _, rfl, fun x _ _ _ => ⟨framed_lanes x w _, .inr rfl⟩⟩
  · exact ⟨_, _, rfl, fun x _ _ _ => ⟨framed_lanes x w _, .inl (mem_raisingWords w (by simp))⟩⟩

/-- The predicate operations. -/
theorem predicateTable_framed : ∀ i ∈ (predicateTable w).map Prod.fst, FramedWord w s i := by
  simp only [predicateTable, List.map_cons, List.map_nil, List.forall_mem_cons, List.not_mem_nil, false_imp_iff, implies_true, and_true]
  and_intros
  all_goals refine framedWord_predOp ?_; dsimp only [exec]
  all_goals exact ⟨_, rfl⟩

/-- PGET, VTOS, EMPTY, FILL and SRD. -/
theorem moveWords_framed : ∀ i ∈ [Instr.pget w, .vtosB32 w, .vtosN32 w, .vtosS32 w, .empty w, .fill w, .srd w], FramedWord w s i := by
  simp only [List.forall_mem_cons, List.not_mem_nil, false_imp_iff, implies_true, and_true]
  refine ⟨?_, framedWord_vtos ?_, framedWord_vtos ?_, framedWord_vtos ?_, framedWord_bits ?_, framedWord_bits ?_, ?_⟩
  all_goals dsimp only [FramedWord, exec]
  · exact ⟨_, _, rfl, fun x _ _ _ => ⟨framed_lanes x w _, .inr rfl⟩⟩
  · exact ⟨_, rfl⟩
  · exact ⟨_, rfl⟩
  · exact ⟨_, rfl⟩
  · exact ⟨_, rfl⟩
  · exact ⟨_, rfl⟩
  · exact ⟨_, _, rfl, fun x _ _ _ => ⟨framed_lanes x w _, .inr rfl⟩⟩

theorem aluWords_framed : ∀ i ∈ aluWords w, FramedWord w s i := by
  intro i hi
  rw [aluWords, sourceWords, List.mem_append, List.mem_append, List.mem_append, List.mem_append, List.mem_append] at hi
  rcases hi with ((((hi | hi) | hi) | hi) | hi) | hi
  · exact framedWord_laneInt (integerWords_form w s i hi)
  · exact floatTable_framed w s i hi
  · exact moveTable_framed w s i hi
  · exact compareWords_framed w s i hi
  · exact predicateTable_framed w s i hi
  · exact moveWords_framed w s i hi

end

/-! ### SWR -/

/-- What SWR does with its values changes a special register, requests a window base, or traps. -/
theorem swr_leaves {x : Issue} {s t : State} {w : Lane} {m : LaneMask} {a : Nat → Word32} {g : Group} (hx : s.issuer = some x)
    (hg : x.g.SameFiles g) (h : x.swr s w m a g = .next t) : ∃ g', x.Leaves s t g' ∧ x.g.SameFiles g' := by
  have wrote {g1 : Group} (h1 : g.SameFiles g1) : ∃ g', x.Leaves s (x.done s g1) g' ∧ x.g.SameFiles g' := by
    obtain ⟨g', hl, hs⟩ := leaves_done hx g1
    exact ⟨g', hl, (hg.trans h1).trans hs.sameFiles⟩
  unfold Issue.swr at h
  split at h
  · cases h; exact wrote rfl
  · cases h; exact wrote rfl
  · cases h; exact wrote rfl
  · split at h
    · cases h; exact wrote rfl
    · cases h
      obtain ⟨g', hl, hs⟩ := leaves_trap hx (x.trapRec .illopnd 1 m)
      exact ⟨g', hl, hs.sameFiles⟩
  · cases h; exact wrote rfl

theorem execSwr_leaves {w : Lane} {s t : State} (h : exec (.swr w) s = .next t) :
    ∃ (x : Issue) (g' : Group), x.Leaves s t g' ∧ x.g.SameFiles g' := by
  replace h : execSwr w s = .next t := h
  unfold execSwr at h
  split at h
  · cases h
  · next x hx =>
    dsimp only at h
    split at h
    · cases h; exact ⟨x, x.g, leaves_same hx, rfl⟩
    · split at h
      · cases h
        obtain ⟨g', hl, hs⟩ := leaves_done hx x.g
        exact ⟨x, g', hl, hs.sameFiles⟩
      · split at h
        · cases h; exact ⟨x, x.g, leaves_same hx, rfl⟩
        · cases h
          obtain ⟨g', hl, hs⟩ := leaves_trap hx _
          exact ⟨x, g', hl, hs.sameFiles⟩
        · next a _ _ g post hf =>
          cases post with
          | none => exact ⟨x, swr_leaves hx (sameRegs_fetch hf).sameFiles h⟩
          | some e => exact ⟨x, swr_leaves hx ((sameRegs_fetch hf).trans (sameRegs_updEntry g x.e _)).sameFiles h⟩

/-! ### The frame -/

/-- A framed word leaves its group with its destination written, and its special registers but for the conditions that it raised. -/
theorem framedWord_leaves {w : Lane} {s t : State} {i : Instr} (hi : FramedWord w s i) (h : exec i s = .next t) :
    ∃ (x : Issue) (g' : Group), x.Leaves s t g' ∧ Group.WritesOnly (x.dst w) (x.on w) w.dst x.g g' ∧
      (i ∉ raisingWords w → g'.specials = x.g.specials) ∧
      g'.fpEnable = x.g.fpEnable ∧ g'.mxFlags = x.g.mxFlags ∧ g'.rspb = x.g.rspb := by
  obtain ⟨srcs, f, hform, hf⟩ := hi
  obtain ⟨x, g', hl, hs | ⟨a, b, c, g, hg, hs⟩⟩ := issueAlu_leaves (hform.symm.trans h)
  · exact ⟨x, g', hl, hs.sameFiles.writesOnly, fun _ => hs.specials, by rw [hs], by rw [hs], by rw [hs]⟩
  · obtain ⟨⟨hw, hsp⟩, hr⟩ := hf x a b c
    have written := (hg.sameFiles.writesOnly.trans (hw g (by rw [hg]))).trans ((writesOnly_raise _ _).trans hs.sameFiles.writesOnly)
    have raised := (raise_keeps (fun g => (g.fpEnable, g.mxFlags, g.rspb)) (fun _ _ _ => rfl)
      ((f x (x.on w) a b c).write g) (x.on w) (f x (x.on w) a b c).fl).trans (congrArg Prod.snd ((hsp g).trans hg.specials))
    have hsp' := congrArg Prod.snd hs.specials
    refine ⟨x, g', hl, written, fun hn => ?_, ?_⟩
    · have hfl : (f x (x.on w) a b c).fl = fun _ => 0 := hr.resolve_left hn
      have hs' := hs.specials
      rw [show x.active w.gp w.neg = x.on w from rfl, hfl, raise_none] at hs'
      exact (hs'.trans (hsp g)).trans hg.specials
    · simpa only [Group.specials, Prod.mk.injEq] using hsp'.trans raised

/-- Settles O14: SWR keeps the register files, and every other word's result is framed; the state around the group is as
`State.TouchesGroup` says. -/
theorem laneWordsChangeTheirGroupAlone : Obligations.LaneWordsChangeTheirGroupAlone := by
  intro w s t i hi h
  have frame : ∃ (x : Issue) (g' : Group), x.Leaves s t g' ∧ Group.WritesOnly (x.dst w) (x.on w) w.dst x.g g' ∧
      (i ∉ raisingWords w → g'.specials = x.g.specials) ∧
      (i ≠ .swr w → g'.fpEnable = x.g.fpEnable ∧ g'.mxFlags = x.g.mxFlags ∧ g'.rspb = x.g.rspb) := by
    rcases List.mem_cons.1 hi with rfl | hi
    · obtain ⟨x, g', hl, hs⟩ := execSwr_leaves h
      exact ⟨x, g', hl, hs.writesOnly, fun hn => (hn (mem_raisingWords w (by simp))).elim, fun hn => (hn rfl).elim⟩
    · obtain ⟨x, g', hl, hw, hf, hr⟩ := framedWord_leaves (aluWords_framed w s i hi) h
      exact ⟨x, g', hl, hw, hf, fun _ => hr⟩
  obtain ⟨x, g', ⟨hx, ⟨hrest, hgroups, hnotices⟩, hg'⟩, ⟨hv, ht, hs, hp, hfixed⟩, hflags, hspecials⟩ := frame
  simp only [Group.fixed, Prod.mk.injEq] at hfixed
  refine ⟨fun pa => ?_, ?_, ?_, ?_, ?_, ?_, ?_, ?_, ?_, x, hx, hgroups, hnotices, fun g hg => ?group⟩
  case group =>
    obtain rfl : g' = g := Option.some.inj (hg'.symm.trans hg)
    exact ⟨hv, ht, hs, hp, fun hn l _ => congrArg (rd 0 · l) (congrArg Prod.fst (hflags hn)), hspecials, hfixed.2⟩
  all_goals rw [hrest]
  rfl

end Sys2Proof.Machine
end

section
/-!
PROOFS. The other engines (O54): AGE streams, the copy engine, collectives, the mailbox and barrier completions.
-/
namespace Sys2Proof.Machine

/-! ### Ends of commands (04 R128; 19 R405) -/

/-- The group of a command that ends: its token is written, and its operation retires. -/
def Group.ended (g : Group) (id : Nat) (t : Token) (v : Word64) : Group := (if t = 0xFF then g else g.putS t.toNat v).finOp id

theorem group_endCommand {s : State} {gid : Nat} {g : Group} (hg : s.group gid = some g) (id : Nat) (t : Token) (v : Word64) :
    (s.endCommand gid id t v).group gid = some (g.ended id t v) := by
  rw [State.endCommand, group_updGroup_self, hg]
  rfl

theorem getS_ended (g : Group) (id : Nat) (t : Token) (v : Word64) (k : Nat) :
    (g.ended id t v).getS k = if t ≠ 0xFF ∧ k = t.toNat then v else g.getS k := by
  by_cases ht : t = 0xFF
  · simp [Group.ended, ht]; rfl
  · simp only [Group.ended, ne_eq, ht, not_false_eq_true, true_and]
    exact getS_putS g t.toNat k v

theorem sState_ended (g : Group) (id : Nat) (t : Token) (v : Word64) (k : Nat) :
    (g.ended id t v).sState k = if t ≠ 0xFF ∧ k = t.toNat then .full else g.sState k := by
  by_cases ht : t = 0xFF
  · simp [Group.ended, ht]; rfl
  · simp only [Group.ended, ne_eq, ht, not_false_eq_true, true_and]
    exact sState_putS g t.toNat k v

theorem ended_rest (g : Group) (id : Nat) (t : Token) (v : Word64) :
    (g.ended id t v).ops = (g.finOp id).ops ∧ (g.ended id t v).v = g.v ∧ (g.ended id t v).table = g.table := by
  unfold Group.ended
  split <;> exact ⟨rfl, rfl, rfl⟩

/-! ### Fault records of engines (17 R387, R388) -/

theorem frec_fields (s : State) (gid : Nat) (src : FSource) (e : FEngine) (cause : Cause) (sub level : Nat) (addr : VAddr) (pc : PC)
    (who : FWho) : let r := s.frec gid src e cause sub level addr pc who
    r.who = who ∧ r.cause = cause ∧ r.addr = addr.setWidth 57 := by
  unfold State.frec
  split <;> exact ⟨rfl, rfl, rfl⟩

/-- An engine's fault pushes one record, alone in its set. -/
theorem engineFault_pushes (s : State) (gid : Nat) (e : FEngine) (f : XFault) (pc : PC) (index estate : Nat) (who : FWho) :
    ∃ r : FRec, s.engineFault gid e f pc index estate who = ({ s with pushQ := s.pushQ ++ [r], nextId := s.nextId + 1 }, s.nextId) ∧
      r.who = who ∧ r.set = s.nextId ∧ r.cause = f.cause ∧ r.addr = f.addr.setWidth 57 := by
  obtain ⟨hw, hc, ha⟩ := frec_fields s gid .engine e f.cause f.sub f.level f.addr pc who
  exact ⟨_, rfl, hw, rfl, hc, ha⟩

/-! ### AGE streams (17 R378, R379) -/

@[simp] theorem ageOf_setAge (g : Group) (x : Nat) (a : Age) : (g.setAge x a).ageOf x = a := by
  simp [Group.setAge, Group.ageOf]

section Age
variable {s : State} {gid x : Nat} {g : Group} {c : Actx} (h : CommandOf s gid g c) (hl : g.lanesGone = false)
  (hr : (g.ageOf x).st = .run)
include h hl hr

section Entry
variable (hb : (g.ageOf x).badArg = false) (hh : (g.ageOf x).halt = false) (he : (g.ageOf x).err = none)
  (hn : (g.ageOf x).next < (g.ageOf x).len) (hq : g.queueFull (g.ageOf x).queue = false)
include hb hh he hn hq

theorem age_enters : ¬((g.ageOf x).st ≠ .run ∨ (g.ageOf x).badArg = true ∨ (g.ageOf x).halt = true ∨
    (g.ageOf x).err.isSome = true ∨ (g.ageOf x).len ≤ (g.ageOf x).next ∨ g.queueFull (g.ageOf x).queue = true ∨ g.saved = true ∨ g.lanesGone = true) := by
  simp [hr, hb, hh, he, Nat.not_le.2 hn, hq, h.here, hl]

theorem ageEntry_placed {s1 : State} {vs : List Word32} (hs : s.ageReads c (g.ageOf x) (from' (g.ageOf x).next 64) = .ok s1 vs .ok) :
    exec (.ageEntry gid x) s = .next (s1.updGroup gid (fun y => (y.enqueue (g.ageOf x).queue vs).setAge x
      { g.ageOf x with next := min ((g.ageOf x).next + 64) (g.ageOf x).len })) := by
  show execAgeEntry gid x s = _
  unfold execAgeEntry
  simp only [h.group, h.space]
  rw [if_neg (age_enters h hl hr hb hh he hn hq), hs]
  rfl

theorem ageEntry_parks {f : XFault} (hs : s.ageReads c (g.ageOf x) (from' (g.ageOf x).next 64) = .fault f) :
    ∃ (t : State) (g' : Group) (r : FRec), exec (.ageEntry gid x) s = .next t ∧ t.group gid = some g' ∧
      g' = g.setAge x { g.ageOf x with st := .park, parkSet := some s.nextId } ∧ t.pushQ = s.pushQ ++ [r] ∧
      r.who = .age gid x ∧ r.set = s.nextId ∧ r.cause = f.cause ∧ r.addr = f.addr.setWidth 57 := by
  obtain ⟨r, hf, hw, hset, hc, ha⟩ := engineFault_pushes s gid .age f (g.ageOf x).pc 0
    (x + 4 * (g.ageOf x).queue + 16 * (g.ageOf x).next) (.age gid x)
  have parks : exec (.ageEntry gid x) s = .next ({ s with pushQ := s.pushQ ++ [r], nextId := s.nextId + 1 }.updGroup gid (fun y =>
      y.setAge x { g.ageOf x with st := .park, parkSet := some s.nextId })) := by
    show execAgeEntry gid x s = _
    unfold execAgeEntry
    simp only [h.group, h.space]
    rw [if_neg (age_enters h hl hr hb hh he hn hq), hs]
    dsimp only
    rw [hf]
  exact ⟨_, _, r, parks, (group_updGroup_self _ gid _).trans (congrArg (Option.map _) h.group), rfl, rfl, hw, hset, hc, ha⟩

end Entry

theorem ageStreamEnd_bad (he : (g.ageOf x).err = none) (hb : (g.ageOf x).badArg = true) :
    exec (.ageStreamEnd gid x) s = .next (s.endAge gid x (g.ageOf x) (some codeBADARG)) := by
  show execAgeStreamEnd gid x s = _
  simp [execAgeStreamEnd, h.group, h.here, hl, hr, he, hb]

theorem ageStreamEnd_done (he : (g.ageOf x).err = none) (hb : (g.ageOf x).badArg = false)
    (hd : (g.ageOf x).halt = true ∨ (g.ageOf x).len ≤ (g.ageOf x).next) :
    exec (.ageStreamEnd gid x) s = .next (s.endAge gid x (g.ageOf x) none) := by
  show execAgeStreamEnd gid x s = _
  simp [execAgeStreamEnd, h.group, h.here, hl, hr, he, hb, hd]

theorem ageStreamEnd_goesOn (he : (g.ageOf x).err = none) (hb : (g.ageOf x).badArg = false) (hh : (g.ageOf x).halt = false)
    (hn : (g.ageOf x).next < (g.ageOf x).len) : exec (.ageStreamEnd gid x) s = .next s := by
  show execAgeStreamEnd gid x s = _
  simp [execAgeStreamEnd, h.group, h.here, hl, hr, he, hb, hh, Nat.not_le.2 hn]

end Age

/-- A stream that ends without an error is set again, and its token holds the count of its values. -/
theorem endAge_fills {s : State} {gid : Nat} {g : Group} (hg : s.group gid = some g) (x : Nat) (a : Age) :
    ∃ g' : Group, (s.endAge gid x a none).group gid = some g' ∧ (g'.ageOf x).st = .set ∧
      (a.token ≠ 0xFF → g'.sState a.token.toNat = .full ∧
        g'.getS a.token.toNat = BitVec.ofNat 64 (a.next + if a.halt then 2 ^ 62 else 0)) := by
  refine ⟨_, (group_updGroup_self _ gid _).trans (congrArg (Option.map _) hg), congrArg Age.st (ageOf_setAge ..), fun ht => ?_⟩
  dsimp only
  rw [if_neg ht]
  exact ⟨(sState_putS g a.token.toNat a.token.toNat (BitVec.ofNat 64 (a.next + if a.halt then 2 ^ 62 else 0))).trans (if_pos rfl),
    (getS_putS g a.token.toNat a.token.toNat _).trans (if_pos rfl)⟩

/-! ### The copy engine (17 R382, R383) -/

theorem copy_walks {s : State} {op : Nat} {o : CpOp} (hp : o.parkSet = none) (hfirst : ∀ p ∈ s.cpOps, p.gid = o.gid → op ≤ p.id) :
    ¬(o.parkSet.isSome = true ∨ s.cpOps.any (fun p => p.gid = o.gid && p.id < op) = true) := by
  simpa [hp] using hfirst

section Copy
variable {s : State} {op : Nat} {o : CpOp} {g : Group} {c : Actx} (hf : s.cpOps.find? (fun p => p.id = op) = some o)
  (h : CommandOf s o.gid g c)
include hf h

theorem cpndComplete_bad (hb : (cpDesc o.desc).bad = true) : exec (.cpndComplete op) s = .next (s.endCp o (errorValue codeBADARG)) := by
  show execCpndComplete op s = _
  simp [execCpndComplete, hf, h.group, h.space, h.here, hb]

section Walk
variable (hb : (cpDesc o.desc).bad = false) (hp : o.parkSet = none) (hfirst : ∀ p ∈ s.cpOps, p.gid = o.gid → op ≤ p.id) {s1 : State}
include hb hp hfirst

theorem cpndComplete_ends
    (hw : s.cpWalk s c o (cpDesc o.desc) ((cpDesc o.desc).total - o.written) o.written = (s1, (cpDesc o.desc).total, none)) :
    exec (.cpndComplete op) s = .next (s1.endCp o (BitVec.ofNat 64 (cpDesc o.desc).total)) := by
  show execCpndComplete op s = _
  unfold execCpndComplete
  simp only [hf, h.group, h.space]
  rw [if_neg (by simp [h.here]), if_neg (by simp [hb]), if_neg (copy_walks hp hfirst), hw]
  exact if_neg (Nat.lt_irrefl _)

theorem cpndComplete_parks {n : Nat} {f : CpFault}
    (hw : s.cpWalk s c o (cpDesc o.desc) ((cpDesc o.desc).total - o.written) o.written = (s1, n, some f)) :
    ∃ (t : State) (r : FRec), exec (.cpndComplete op) s = .next t ∧
      (∀ p ∈ t.cpOps, p.id = op → p.written = n ∧ p.parkSet = some r.set) ∧
      t.pushQ = s1.pushQ ++ [r] ∧ r.who = .cp op ∧ r.cause = f.f.cause := by
  have hid : o.id = op := by simpa using List.find?_some hf
  have parks : ∃ estate, exec (.cpndComplete op) s = .next (
      (s1.engineFault o.gid .copy f.f o.pc 0 estate (.cp op)).1.setCp { o with
        written := n, parkSet := some (s1.engineFault o.gid .copy f.f o.pc 0 estate (.cp op)).2 }) := by
    refine ⟨?estate, ?run⟩
    case run =>
      show execCpndComplete op s = _
      unfold execCpndComplete
      simp only [hf, h.group, h.space]
      rw [if_neg (by simp [h.here]), if_neg (by simp [hb]), if_neg (copy_walks hp hfirst), hw]
  obtain ⟨estate, parks⟩ := parks
  obtain ⟨r, hpush, hwho, hset, hc, -⟩ := engineFault_pushes s1 o.gid .copy f.f o.pc 0 estate (.cp op)
  rw [hpush] at parks
  refine ⟨_, r, parks, fun p hm hpid => ?_, rfl, hwho, hc⟩
  obtain ⟨q, -, rfl⟩ := List.mem_map.1 hm
  by_cases hq : q.id = o.id
  · rw [if_pos hq, hset]
    exact ⟨rfl, rfl⟩
  · rw [if_neg hq] at hpid
    exact (hq (hpid.trans hid.symm)).elim

end Walk
end Copy

/-! ### Collectives (17 R384-R386) -/

/-- The member list as the unit takes it: each chip number below 512 stands for itself. -/
theorem map_chip {l : List Nat} {c : Actx} (hpart : ∀ x ∈ l, x < 512 ∧ Config.partChip c.part x = true) : l.map (· % 512) = l :=
  (List.map_congr_left fun x hx => Nat.mod_eq_of_lt (hpart x hx).1).trans (List.map_id l)

theorem members_permitted {l : List Nat} {c : Actx} (hpart : ∀ x ∈ l, x < 512 ∧ Config.partChip c.part x = true) :
    ¬(decide (1 ≠ 1 ∨ l.any (fun x => 512 ≤ x) = true ∨ l.any (fun x => !Config.partChip c.part x) = true) = true) := by
  simpa [forall_and] using hpart

theorem members_all {peers : List CollPeer} {m me : Nat} (hlen : peers.length = m - 1)
    (hall : ∀ j, j < m → j = me ∨ ∃ p ∈ peers, p.index = j) :
    ¬((peers.map CollPeer.index).length ≠ m - 1 ∨
      (!(List.range m).all (fun j => j = me || (peers.map CollPeer.index).contains j)) = true) := by
  simpa [hlen, or_iff_not_imp_left] using hall

section Collective
variable {s : State} {op : Nat} {o : CollOp} {peers : List CollPeer} {c : Actx} (hf : s.collOps.find? (fun p => p.id = op) = some o)
  (ha : s.actx o.gid = some c) (hp : o.parkSet = none)

include hf in
theorem collComplete_answers {v : Word64} (hr : o.result = some v) : exec (.collComplete op) s = .next (s.endColl o v) := by
  show execCollComplete op s = _
  simp [execCollComplete, hf, hr]

theorem freeValue_clear (s : State) (x : Nat) : (s.freeValue x).getLsbD 63 = false := by
  unfold State.freeValue
  rw [BitVec.getLsbD_ofNat, Nat.testBit_eq_false_of_lt (Nat.mod_lt _ (Nat.two_pow_pos 63)), Bool.and_false]

include hf ha hp

theorem collComplete_writes (hr : o.result = none) (hm : o.matched = true) {s1 : State} {n : Nat}
    (hw : s.collWrites c o (if o.bf16 then 2 else 4) o.outAt (o.out.drop o.outAt) = (s1, n, none)) (hn : o.out.length ≤ n) :
    exec (.collComplete op) s = .next (s1.endColl o (s1.freeValue op)) := by
  show execCollComplete op s = _
  simp [execCollComplete, hf, hr, ha, hm, hp, hw, Nat.not_lt.2 hn]

section Match
variable (hr : o.result = none)
include hr

theorem collMatch_gone (hg : ∃ p ∈ peers, p.chips = []) :
    exec (.collMatch op peers) s = .next (s.setColl { o with result := some (errorValue codeCOLLGONE) }) := by
  have gone : peers.any (fun p => p.chips.isEmpty) = true := by simpa using hg
  show execCollMatch op peers s = _
  unfold execCollMatch
  simp only [hf, ha]
  rw [if_neg (by simp [hr, hp]), if_pos gone]

section Listed
variable (hm : o.matched = false) (hg : ∀ p ∈ peers, p.chips ≠ []) {s1 : State} {l : List Nat}
  (hl : s.collReads c 2 o.m 0 o.listAddr = .ok (s1, l, .ok))
include hm hg hl

theorem collMatch_badList (hbad : ∃ x ∈ l, 512 ≤ x ∨ Config.partChip c.part x = false) :
    exec (.collMatch op peers) s = .next (s1.setColl { o with result := some (errorValue codeBADARG) }) := by
  have told : l.any (fun x => 512 ≤ x) = true ∨ (l.map (· % 512)).any (fun x => !Config.partChip c.part x) = true := by
    obtain ⟨x, hx, hbad⟩ := hbad
    by_cases h512 : 512 ≤ x
    · exact .inl (List.any_eq_true.2 ⟨x, hx, decide_eq_true h512⟩)
    · refine .inr (List.any_eq_true.2 ⟨x, ?_, ?_⟩)
      · exact List.mem_map.2 ⟨x, hx, Nat.mod_eq_of_lt (Nat.not_le.1 h512)⟩
      · rw [hbad.resolve_left h512]; rfl
  show execCollMatch op peers s = _
  unfold execCollMatch
  simp only [hf, ha, hl]
  rw [if_neg (by simp [hr, hp]), if_neg (by simpa using hg), if_neg (by simp [hm]), if_neg (by simp), if_pos]
  exact decide_eq_true (.inr told)

section Own
variable (hpart : ∀ x ∈ l, x < 512 ∧ Config.partChip c.part x = true) {me : Nat}
  (hme : l.zipIdx.filter (fun p => p.1 = Config.chip.toNat) = [(Config.chip.toNat, me)])
  (hlen : peers.length = o.m - 1) (hall : ∀ j, j < o.m → j = me ∨ ∃ p ∈ peers, p.index = j)
include hpart hme hlen hall

theorem collMatch_differs (hd : ∃ p ∈ peers, p.op ≠ o.op ∨ p.bf16 ≠ o.bf16 ∨ p.n ≠ o.n ∨ p.m ≠ o.m ∨ p.chips ≠ l) :
    exec (.collMatch op peers) s = .next (s1.setColl { o with result := some (errorValue codeBADARG) }) := by
  show execCollMatch op peers s = _
  unfold execCollMatch
  simp only [hf, ha, hl, map_chip hpart, hme, List.length_singleton, List.head?_cons, Option.map_some, Option.getD_some]
  rw [if_neg (by simp [hr, hp]), if_neg (by simpa using hg), if_neg (by simp [hm]), if_neg (by simp), if_neg (members_permitted hpart),
    if_neg (members_all hlen hall), if_pos (by simpa [or_assoc] using hd)]

theorem collMatch_forms (hs : ∀ p ∈ peers, p.op = o.op ∧ p.bf16 = o.bf16 ∧ p.n = o.n ∧ p.m = o.m ∧ p.chips = l) {s2 : State}
    {own : List Nat} (ho : s1.collReads c (if o.bf16 then 2 else 4) o.n 0 o.src = .ok (s2, own, .ok)) :
    exec (.collMatch op peers) s = .next (s2.setColl { o with
      me := me, chips := l, matched := true,
      out := collOut o.op (if o.bf16 then bfp16 else fp32) ((List.range o.m).map (fun j => if j = me then own.map (BitVec.ofNat 32)
        else ((peers.find? (fun p => p.index = j)).map CollPeer.data).getD [])) o.m o.n me }) := by
  show execCollMatch op peers s = _
  unfold execCollMatch
  simp only [hf, ha, hl, map_chip hpart, hme, List.length_singleton, List.head?_cons, Option.map_some, Option.getD_some]
  rw [if_neg (by simp [hr, hp]), if_neg (by simpa using hg), if_neg (by simp [hm]), if_neg (by simp), if_neg (members_permitted hpart),
    if_neg (members_all hlen hall), if_neg (by simpa [or_assoc] using hs), ho]
  rfl

end Own

end Listed
end Match
end Collective

/-! ### The mailbox and barrier completions (11 R281; 19 R408) -/

theorem mailboxDelivery_takes {s : State} {die : Nat} {e : List Word32 × Bool × Nat × Nat} {r : List (List Word32 × Bool × Nat × Nat)}
    (h : rd [] s.mailbox die = e :: r) : exec (.mailboxDelivery die) s =
      .next ({ s with mailbox := wr [] s.mailbox die r }.emit (.mailbox die e.1 e.2.1 e.2.2.1 e.2.2.2)) := by
  obtain ⟨ids, fin, stream, seq⟩ := e
  show execMailboxDelivery die s = _
  unfold execMailboxDelivery
  rw [h]

theorem barrierCompletionDelivery_reaches {s : State} {tid k core : Nat} {t : Team} (ht : s.team tid = some t)
    (hn : 1 < t.cores.length) (hc : core ∈ t.cores) (hk : k < 32) : exec (.barrierCompletionDelivery tid k core) s =
      .next (s.updTeam tid (fun u => { u with seen := wr 0 u.seen (256 * k + core) (s.barRec tid u k).phase })) := by
  show execBarrierCompletionDelivery tid k core s = _
  unfold execBarrierCompletionDelivery
  rw [ht]
  dsimp only
  rw [if_neg (by simp [hc, hn, hk])]

/-- Settles O54: each engine's laws above, read at the state that its command finds. -/
theorem enginesPerformTheirCommands : Obligations.EnginesPerformTheirCommands := by
  refine ⟨fun s gid id t v g hg => ?_, fun s gid x g c h hl hr => ?_, fun s op o g c hf h => ?_, fun s op o peers c hf ha hp => ?_,
    fun s die e r h => mailboxDelivery_takes h, fun s tid k core t ht hn hc h256 hk => ?_⟩
  · obtain ⟨hops, hv, htable⟩ := ended_rest g id t v
    refine ⟨_, group_endCommand hg id t v, fun h => ⟨?_, ?_⟩, fun k h => ⟨?_, ?_⟩, hops, hv, htable,
      fun k hk => group_updGroup_ne _ _ hk⟩
    · exact (getS_ended ..).trans (if_pos ⟨h, rfl⟩)
    · exact (sState_ended ..).trans (if_pos ⟨h, rfl⟩)
    · exact (getS_ended ..).trans (if_neg fun ⟨ht, hk⟩ => h.elim ht (· hk))
    · exact (sState_ended ..).trans (if_neg fun ⟨ht, hk⟩ => h.elim ht (· hk))
  · exact ⟨fun hb hh he hn hq => ⟨fun s1 vs => ageEntry_placed h hl hr hb hh he hn hq, fun f => ageEntry_parks h hl hr hb hh he hn hq⟩,
      ageStreamEnd_bad h hl hr, ageStreamEnd_done h hl hr, ageStreamEnd_goesOn h hl hr, endAge_fills h.group x _⟩
  · exact ⟨cpndComplete_bad hf h, fun hb hp hfirst _ =>
      ⟨fun s1 => cpndComplete_ends hf h hb hp hfirst, fun s1 n f => cpndComplete_parks hf h hb hp hfirst⟩⟩
  · refine ⟨fun v => collComplete_answers hf, collMatch_gone hf ha hp, fun hr hm hg s1 l me s2 own hl =>
      ⟨?_, fun hpart hme hlen hall => ⟨?_, ?_⟩⟩,
      fun hr hm s1 n hw hn => ⟨_, freeValue_clear s1 op, collComplete_writes hf ha hp hr hm hw hn⟩⟩
    · exact collMatch_badList hf ha hp hr hm hg hl
    · exact collMatch_differs hf ha hp hr hm hg hl hpart hme hlen hall
    · exact fun hs ho => collMatch_forms hf ha hp hr hm hg hl hpart hme hlen hall hs ho
  · refine ⟨_, _, barrierCompletionDelivery_reaches ht hn hc hk, (team_updTeam_self s tid _).trans (congrArg (Option.map _) ht),
      rd_wr_self .., fun j y hy hne => rd_wr_ne _ _ _ (by omega), rfl⟩

end Sys2Proof.Machine
end

section
/-!
PROOFS. Wrapping and saturation (O4), and integer arithmetic (O1): wrapping and operand reading take the same value of low bits, so a
value of the type's range is read back (03 R88).
-/
namespace Sys2Proof.Machine

/-! ### The range of a type -/

theorem intWidth_pos (f : Fmt) : 0 < intWidth f := by cases f <;> decide

theorem intWidth_le (f : Fmt) : intWidth f ≤ 32 := by cases f <;> decide

theorem intMin_le_intMax (f : Fmt) : intMin f ≤ intMax f := by cases f <;> decide

/-- The range holds one value of each class modulo its size. -/
theorem intMax_sub_intMin (f : Fmt) : intMax f - intMin f + 1 = (2 ^ intWidth f : Nat) := by cases f <;> rfl

theorem eq_of_dvd_of_inRange {f : Fmt} {u v : Int} (hu : intMin f ≤ u ∧ u ≤ intMax f) (hv : intMin f ≤ v ∧ v ≤ intMax f)
    (h : ((2 ^ intWidth f : Nat) : Int) ∣ u - v) : u = v := by
  rw [← intMax_sub_intMin] at h
  exact Int.sub_eq_zero.1 (Int.eq_zero_of_abs_lt_dvd h (abs_lt.2 ⟨by omega, by omega⟩))

/-! ### The value of low bits -/

/-- The value that the number n of a type's bits stands for: two's complement for a signed type. -/
def ofBits (f : Fmt) (n : Nat) : Int :=
  if intSigned f && 2 ^ (intWidth f - 1) ≤ n then (n : Int) - (2 ^ intWidth f : Nat) else n

theorem wrapInt_eq_ofBits (f : Fmt) (v : Int) : wrapInt f v = ofBits f (v % (2 ^ intWidth f : Nat)).toNat := rfl

theorem readInt_eq_ofBits (f : Fmt) (x : Word32) : readInt f x = ofBits f (x.toNat % 2 ^ intWidth f) := rfl

theorem ofBits_inRange {f : Fmt} {n : Nat} (hn : n < 2 ^ intWidth f) : intMin f ≤ ofBits f n ∧ ofBits f n ≤ intMax f := by
  have double : 2 ^ intWidth f = 2 * 2 ^ (intWidth f - 1) := (mul_pow_sub_one (intWidth_pos f).ne' 2).symm
  unfold ofBits intMin intMax
  rw [double] at hn ⊢
  generalize 2 ^ (intWidth f - 1) = half at hn ⊢
  cases intSigned f
  · simp; omega
  · by_cases h : half ≤ n <;> simp [h] <;> omega

theorem dvd_sub_ofBits (f : Fmt) (n : Nat) : ((2 ^ intWidth f : Nat) : Int) ∣ n - ofBits f n := by
  unfold ofBits
  split
  · exact ⟨1, by omega⟩
  · exact ⟨0, by omega⟩

/-! ### Wrapping -/

theorem wrapInt_inRange (f : Fmt) (v : Int) : intMin f ≤ wrapInt f v ∧ wrapInt f v ≤ intMax f :=
  ofBits_inRange ((Int.toNat_lt' (by positivity)).2 (Int.emod_lt_of_pos v (by positivity)))

theorem dvd_sub_wrapInt (f : Fmt) (v : Int) : ((2 ^ intWidth f : Nat) : Int) ∣ v - wrapInt f v := by
  have residue : ((v % (2 ^ intWidth f : Nat)).toNat : Int) = v % (2 ^ intWidth f : Nat) :=
    Int.toNat_of_nonneg (Int.emod_nonneg v (by positivity))
  have step := dvd_sub_ofBits f (v % (2 ^ intWidth f : Nat)).toNat
  rw [residue] at step
  exact sub_add_sub_cancel v _ (wrapInt f v) ▸ dvd_add Int.dvd_self_sub_emod step

theorem wrapInt_of_inRange {f : Fmt} {v : Int} (h : intMin f ≤ v ∧ v ≤ intMax f) : wrapInt f v = v :=
  (eq_of_dvd_of_inRange h (wrapInt_inRange f v) (dvd_sub_wrapInt f v)).symm

/-- A widened result is read as the value that its low bits wrap to. -/
theorem readInt_widen (f : Fmt) (v : Int) : readInt f (widen v) = wrapInt f v := by
  have low : (v % (2 ^ 32 : Nat)).toNat % 2 ^ intWidth f = (v % (2 ^ intWidth f : Nat)).toNat := by
    rw [← Int.emod_emod_of_dvd v (Int.natCast_dvd_natCast.2 (pow_dvd_pow 2 (intWidth_le f))),
      Int.toNat_emod (Int.emod_nonneg v (by positivity)) (by positivity), Int.toNat_natCast]
  rw [readInt_eq_ofBits, wrapInt_eq_ofBits, widen, BitVec.toNat_ofInt, low]

theorem readInt_inRange (f : Fmt) (x : Word32) : intMin f ≤ readInt f x ∧ readInt f x ≤ intMax f :=
  ofBits_inRange (Nat.mod_lt _ (by positivity))

/-- In a type of 32 bits a word is the widened value that it is read as. -/
theorem widen_readInt {f : Fmt} (hf : intWidth f = 32) (x : Word32) : widen (readInt f x) = x := by
  apply BitVec.eq_of_toNat_eq
  rw [widen, BitVec.toNat_ofInt, readInt_eq_ofBits, ofBits, hf]
  split <;> omega

/-! ### Saturation -/

theorem satInt_of_inRange {f : Fmt} {v : Int} (h : intMin f ≤ v ∧ v ≤ intMax f) : satInt f v = v := by
  rw [satInt, min_eq_right h.2, max_eq_right h.1]

theorem satInt_of_lt {f : Fmt} {v : Int} (h : v < intMin f) : satInt f v = intMin f :=
  max_eq_left ((min_le_right _ _).trans h.le)

theorem satInt_of_gt {f : Fmt} {v : Int} (h : intMax f < v) : satInt f v = intMax f := by
  rw [satInt, min_eq_left h.le, max_eq_right (intMin_le_intMax f)]

/-- Settles O4: a wrapped value is the one value of its class in the range, and a value of the range is wrapped, saturated and read
back unchanged. -/
theorem integerResultsStayInRange : Obligations.IntegerResultsStayInRange := by
  intro f v
  refine ⟨(wrapInt_inRange f v).1, (wrapInt_inRange f v).2, ?_, fun h => ?_, satInt_of_lt, satInt_of_gt⟩
  · exact_mod_cast dvd_sub_wrapInt f v
  · exact ⟨satInt_of_inRange h, wrapInt_of_inRange h, (readInt_widen f v).trans (wrapInt_of_inRange h)⟩

/-! ### Integer arithmetic (05 Table 3) -/

theorem intArithmetic_exec (w : Lane) (s : State) : ∀ p ∈ intArithmetic w, exec p.1 s =
    s.laneInt w (fun a b c => intResult w (p.2 (readInt w.fmt a) (readInt w.fmt b) (readInt w.fmt c))) := by
  have abs_eq (a : Int) : (a.natAbs : Int) = if a < 0 then -a else a := by omega
  have clamp_eq (a b c : Int) : min (max a b) c = if c < b then c else min (max a b) c := by omega
  simp only [intArithmetic, List.forall_mem_cons, List.not_mem_nil, false_imp_iff, implies_true, and_true, ← abs_eq, ← clamp_eq]
  and_intros
  all_goals rfl

/-- Settles O1: each row's word issues as `State.laneInt` of the row's result. -/
theorem integerArithmeticWritesItsTable : Obligations.IntegerArithmeticWritesItsTable :=
  fun w s _ _ _ _ _ hr hp p hm => (intArithmetic_exec w s p hm).trans (laneInt_next hr hp _)

end Sys2Proof.Machine
end

section
/-!
PROOFS. Logic, shifts, counts, bit fields and byte permutation (O2): each word's result bit by bit.
-/
namespace Sys2Proof.Machine

/-! ### Logic and shifts (05 R139, R140) -/

theorem shl32_eq (a b : Word32) : shl32 a b = if b.toNat < 32 then BitVec.ofNat 32 (a.toNat * 2 ^ b.toNat) else 0 := by
  refine if_congr Iff.rfl (BitVec.eq_of_toNat_eq ?_) rfl
  rw [BitVec.toNat_shiftLeft, Nat.shiftLeft_eq, BitVec.toNat_ofNat]

theorem ushiftRight_eq_ofNat (a : Word32) (n : Nat) : a >>> n = BitVec.ofNat 32 (a.toNat / 2 ^ n) := by
  rw [← Nat.shiftRight_eq_div_pow, ← BitVec.toNat_ushiftRight, BitVec.ofNat_toNat, BitVec.setWidth_eq]

theorem sshiftRight_eq_ofInt (a : Word32) (n : Nat) : a.sshiftRight n = BitVec.ofInt 32 (a.toInt / 2 ^ n) := by
  rw [BitVec.sshiftRight_eq, Int.shiftRight_eq_div_pow, Nat.cast_pow, Nat.cast_ofNat]

theorem shr32_eq (f : Fmt) (a b : Word32) : shr32 f a b =
    if f = .s32 then BitVec.ofInt 32 (a.toInt / 2 ^ min b.toNat 31)
    else if b.toNat < 32 then BitVec.ofNat 32 (a.toNat / 2 ^ b.toNat) else 0 := by
  rw [shr32, sshiftRight_eq_ofInt, ushiftRight_eq_ofNat]

theorem rotateLeft_eq_or (a : Word32) (n : Nat) : a.rotateLeft (n % 32) = (a <<< (n % 32)) ||| (a >>> (32 - n % 32)) := by
  rw [BitVec.rotateLeft_def, Nat.mod_mod]

theorem logicTable_exec (w : Lane) (s : State) : ∀ p ∈ logicTable w, exec p.1 s = s.laneInt w (fun a b _ => p.2 a b) := by
  simp only [logicTable, List.forall_mem_cons, List.not_mem_nil, false_imp_iff, implies_true, and_true, ← shl32_eq, ← shr32_eq,
    ← rotateLeft_eq_or]
  and_intros
  all_goals rfl

/-! ### Counts (05 Table 4) -/

theorem countP_range_lt {n i : Nat} (hi : i ≤ n) : (List.range n).countP (fun k => decide (k < i)) = i := by
  induction n with
  | zero => exact (Nat.le_zero.1 hi).symm
  | succ n ih =>
    rw [List.range_succ, List.countP_append]
    rcases hi.eq_or_lt with rfl | hi
    · rw [List.countP_eq_length.2 fun k hk => decide_eq_true ((List.mem_range.1 hk).trans (Nat.lt_succ_self n)), List.length_range]
      simp
    · rw [ih (Nat.le_of_lt_succ hi)]
      simpa using Nat.le_of_lt_succ hi

/-- The place of the first bit set, n if there is none, is the number of places with no bit set at or before them. -/
theorem find?_range_eq_countP (n : Nat) (p : Nat → Bool) :
    ((List.range n).find? p).getD n = (List.range n).countP (fun k => decide (∀ j ≤ k, p j = false)) := by
  cases h : (List.range n).find? p with
  | none =>
    have clear := List.find?_range_eq_none.1 h
    rw [Option.getD_none, List.countP_eq_length.2, List.length_range]
    exact fun k hk => decide_eq_true fun j hj => by simpa using clear j (hj.trans_lt (List.mem_range.1 hk))
  | some i =>
    obtain ⟨hi, hn, clear⟩ := List.find?_range_eq_some.1 h
    rw [Option.getD_some, ← countP_range_lt (List.mem_range.1 hn).le]
    refine List.countP_congr fun k _ => ?_
    simp only [decide_eq_true_eq]
    refine ⟨fun hk j hj => by simpa using clear j (hj.trans_lt hk), fun hk => ?_⟩
    by_contra hik
    exact Bool.false_ne_true ((hk i (Nat.not_lt.1 hik)).symm.trans hi)

theorem popc_exec (w : Lane) (s : State) : exec (.popc w) s =
    s.laneInt w (fun a _ _ => BitVec.ofNat 32 ((List.range 32).countP a.getLsbD)) := by
  simp only [List.countP_eq_length_filter]
  rfl

theorem ctz_exec (w : Lane) (s : State) : exec (.ctz w) s =
    s.laneInt w (fun a _ _ => BitVec.ofNat 32 ((List.range 32).countP (fun i => decide (a.toNat % 2 ^ (i + 1) = 0)))) := by
  have zeros (a : Word32) (k : Nat) : a.toNat % 2 ^ (k + 1) = 0 ↔ ∀ j ≤ k, a.getLsbD j = false := by
    refine ⟨fun h j hj => ?_, fun h => Nat.eq_of_testBit_eq fun j => ?_⟩
    · have bit : (a.toNat % 2 ^ (k + 1)).testBit j = false := h ▸ Nat.zero_testBit j
      rwa [Nat.testBit_mod_two_pow, decide_eq_true (Nat.lt_succ_of_le hj), Bool.true_and] at bit
    · rw [Nat.testBit_mod_two_pow, Nat.zero_testBit, Bool.and_eq_false_imp]
      exact fun hj => h j (Nat.le_of_lt_succ (of_decide_eq_true hj))
  show execCtz w s = _
  simp only [execCtz, zeros, ← find?_range_eq_countP, setBits, List.head?_filter]
  congr
  funext a _ _
  cases (List.range 32).find? a.getLsbD <;> rfl

theorem reverse_range_32 : (List.range 32).reverse = (List.range 32).map (31 - ·) := by decide

theorem clz_exec (w : Lane) (s : State) : exec (.clz w) s =
    s.laneInt w (fun a _ _ => BitVec.ofNat 32 ((List.range 32).countP (fun i => decide (a.toNat < 2 ^ i)))) := by
  have zeros (a : Word32) (k : Nat) (hk : k < 32) : a.toNat < 2 ^ (31 - k) ↔ ∀ j ≤ k, a.getLsbD (31 - j) = false := by
    refine ⟨fun h j hj => Nat.testBit_lt_two_pow (h.trans_le (Nat.pow_le_pow_right (by decide) (by omega))),
      fun h => Nat.lt_pow_two_of_testBit _ fun i hi => ?_⟩
    rcases Nat.lt_or_ge i 32 with h32 | h32
    · have := h (31 - i) (by omega)
      rwa [show 31 - (31 - i) = i by omega] at this
    · exact BitVec.getLsbD_of_ge a i h32
  have count (a : Word32) : (List.range 32).countP (fun i => decide (a.toNat < 2 ^ i)) =
      ((List.range 32).find? (fun j => a.getLsbD (31 - j))).getD 32 := by
    rw [find?_range_eq_countP, ← List.countP_reverse, reverse_range_32, List.countP_map]
    exact List.countP_congr fun k hk => by simp [zeros a k (List.mem_range.1 hk)]
  show execClz w s = _
  simp only [execClz, count, setBits, List.getLast?_filter, reverse_range_32, List.find?_map]
  congr
  funext a _ _
  simp only [Function.comp_def]
  cases h : (List.range 32).find? (fun j => a.getLsbD (31 - j)) with
  | none => rfl
  | some j =>
    have hj := List.mem_range.1 (List.mem_of_find?_eq_some h)
    exact congrArg (BitVec.ofNat 32) (Nat.sub_sub_self (Nat.le_of_lt_succ hj))

theorem countTable_exec (w : Lane) (s : State) : ∀ p ∈ countTable w,
    exec p.1 s = s.laneInt w (fun a _ _ => BitVec.ofNat 32 (p.2 a)) := by
  simp only [countTable, List.forall_mem_cons, List.not_mem_nil, false_imp_iff, implies_true, and_true]
  exact ⟨popc_exec w s, clz_exec w s, ctz_exec w s⟩

/-! ### Bit fields (05 R141) -/

theorem getLsbD_brev (a : Word32) {i : Nat} (hi : i < 32) : (brev a).getLsbD i = a.getLsbD (31 - i) := by
  have sorted : ((setBits a).map (31 - ·)).reverse.SortedLT := by
    refine List.SortedGT.reverse (List.Pairwise.sortedGT (List.pairwise_map.2 ?_))
    refine (List.pairwise_lt_range.filter _).imp_of_mem fun hj hk hjk => ?_
    have := List.mem_range.1 (List.mem_filter.1 hk).1
    omega
  have sum : ((setBits a).map (fun i => 2 ^ (31 - i))).sum = (((setBits a).map (31 - ·)).reverse.map (2 ^ ·)).sum := by
    rw [List.map_reverse, List.sum_reverse, List.map_map]
    rfl
  rw [brev, BitVec.getLsbD_ofNat, sum, Bool.eq_iff_iff, Bool.and_eq_true, ← Nat.mem_bitIndices,
    Nat.bitIndices_sum_map_two_pow sorted, List.mem_reverse, List.mem_map]
  constructor
  · rintro ⟨-, j, hj, rfl⟩
    obtain ⟨hj, hbit⟩ := List.mem_filter.1 hj
    rwa [Nat.sub_sub_self (Nat.le_of_lt_succ (List.mem_range.1 hj))]
  · exact fun hbit => ⟨decide_eq_true hi, 31 - i, List.mem_filter.2 ⟨List.mem_range.2 (by omega), hbit⟩, by omega⟩

/-- BFX is the field widened by its sign for .s32, and by zeros otherwise. -/
theorem bfx_eq_extract (f : Fmt) (a ctl : Word32) : bfx f a ctl =
    let field := a.extractLsb' (fieldOf ctl).1 (fieldOf ctl).2
    if f = .s32 then field.signExtend 32 else field.setWidth 32 := by
  rcases h : fieldOf ctl with ⟨pos, wid⟩
  simp only [bfx, h]
  have value : (a.extractLsb' pos wid).toNat = a.toNat / 2 ^ pos % 2 ^ wid := by
    rw [BitVec.extractLsb'_toNat, Nat.shiftRight_eq_div_pow]
  rw [← value, BitVec.ofNat_toNat]
  rcases Nat.eq_zero_or_pos wid with rfl | hw
  · rw [if_pos rfl]
    split <;> simp [BitVec.eq_nil (BitVec.extractLsb' pos 0 a)]
  · have double := mul_pow_sub_one hw.ne' 2
    rw [if_neg hw.ne', ite_and]
    refine if_congr Iff.rfl ?_ rfl
    rw [BitVec.signExtend, BitVec.toInt_eq_toNat_cond]
    split
    · rw [if_neg (by omega)]
    · rw [if_pos (by omega), BitVec.ofInt_natCast, BitVec.ofNat_toNat]

theorem fieldOf_eq (ctl : Word32) : fieldOf ctl = (ctl.toNat % 32, min (ctl.toNat / 256 % 64) (32 - ctl.toNat % 32)) := by
  rw [fieldOf, bits, Nat.shiftRight_eq_div_pow]
  rfl

theorem getLsbD_bfx (f : Fmt) (a b : Word32) {i : Nat} (hi : i < 32) : (bfx f a b).getLsbD i =
    let pos := b.toNat % 32
    let wid := min (b.toNat / 256 % 64) (32 - pos)
    if wid = 0 then false
    else if i < wid then a.getLsbD (pos + i)
    else decide (f = .s32) && a.getLsbD (pos + wid - 1) := by
  rw [bfx_eq_extract, fieldOf_eq]
  dsimp only
  generalize hpos : b.toNat % 32 = pos
  generalize hwid : min (b.toNat / 256 % 64) (32 - pos) = wid
  have field (k : Nat) : (a.extractLsb' pos wid).getLsbD k = (decide (k < wid) && a.getLsbD (pos + k)) :=
    BitVec.getLsbD_extractLsb' ..
  split
  · next hf =>
    rw [BitVec.getLsbD_signExtend, BitVec.msb_eq_getLsbD_last, field, field, decide_eq_true hi, Bool.true_and, decide_eq_true hf,
      Bool.true_and]
    rcases Nat.eq_zero_or_pos wid with rfl | hw
    · rfl
    · rw [if_neg hw.ne', decide_eq_true (Nat.sub_one_lt hw.ne'), Nat.add_sub_assoc hw, Bool.true_and]
      split
      · next h => rw [decide_eq_true h, Bool.true_and]
      · rfl
  · next hf =>
    rw [BitVec.getLsbD_setWidth, field, decide_eq_true hi, Bool.true_and, decide_eq_false hf, Bool.false_and]
    by_cases h : i < wid
    · rw [if_neg (Nat.ne_zero_of_lt h), if_pos h, decide_eq_true h, Bool.true_and]
    · rw [if_neg h, ite_self, decide_eq_false h, Bool.false_and]

theorem getLsbD_bfi (a b c : Word32) {i : Nat} (hi : i < 32) : (bfi a b c).getLsbD i =
    let pos := c.toNat % 32
    let wid := min (c.toNat / 256 % 64) (32 - pos)
    if pos ≤ i ∧ i < pos + wid then a.getLsbD (i - pos) else b.getLsbD i := by
  rw [bfi, fieldOf_eq]
  dsimp only
  generalize hwid : min (c.toNat / 256 % 64) (32 - c.toNat % 32) = wid
  have mask : (BitVec.ofNat 32 ((2 ^ wid - 1) * 2 ^ (c.toNat % 32))).getLsbD i =
      decide (c.toNat % 32 ≤ i ∧ i < c.toNat % 32 + wid) := by
    rw [BitVec.getLsbD_ofNat, Nat.testBit_mul_two_pow, Nat.testBit_two_pow_sub_one, decide_eq_true hi, Bool.true_and,
      ← Bool.decide_and]
    exact decide_eq_decide.2 (by omega)
  rw [BitVec.getLsbD_or, BitVec.getLsbD_and, BitVec.getLsbD_and, BitVec.getLsbD_not, BitVec.getLsbD_shiftLeft, mask]
  split
  · next h => simp [h, hi, Nat.not_lt.2 h.1]
  · next h => simp [h, hi]

/-! ### Byte permutation (05 R142) -/

/-- The byte i of BPERM's result. -/
def permByte (a b c : Word32) (i : Nat) : Nat :=
  let sel := bits c.toNat (4 * i + 3) (4 * i)
  let y := (a.toNat + 2 ^ 32 * b.toNat) / 2 ^ (8 * (sel % 8)) % 256
  if 8 ≤ sel then (if 128 ≤ y then 255 else 0) else y

theorem bperm_eq (a b c : Word32) : bperm a b c = BitVec.ofNat 32
    (permByte a b c 0 + 2 ^ 8 * permByte a b c 1 + 2 ^ 16 * permByte a b c 2 + 2 ^ 24 * permByte a b c 3) := rfl

theorem permByte_lt (a b c : Word32) (i : Nat) : permByte a b c i < 256 := by
  unfold permByte
  dsimp only
  split_ifs
  · decide
  · decide
  · exact Nat.mod_lt _ (by decide)

/-- Bit i of a number of four bytes stands in its byte i / 8. -/
theorem testBit_of_bytes {y : Nat → Nat} (hy : ∀ k, y k < 256) {i : Nat} (hi : i < 32) :
    (y 0 + 2 ^ 8 * y 1 + 2 ^ 16 * y 2 + 2 ^ 24 * y 3).testBit i = (y (i / 8)).testBit (i % 8) := by
  have byte : ∀ k < 4, (y 0 + 2 ^ 8 * y 1 + 2 ^ 16 * y 2 + 2 ^ 24 * y 3) / 2 ^ (8 * k) % 2 ^ 8 = y k := by
    have h0 := hy 0
    have h1 := hy 1
    have h2 := hy 2
    have h3 := hy 3
    intro k hk
    interval_cases k <;> omega
  rw [← byte (i / 8) (by omega), Nat.testBit_mod_two_pow, Nat.testBit_div_two_pow, decide_eq_true (Nat.mod_lt i (by decide)),
    Bool.true_and, Nat.mod_add_div]

/-- A byte filled with the sign of y. -/
theorem testBit_signByte {y j : Nat} (hy : y < 256) (hj : j < 8) : (if 128 ≤ y then 255 else 0).testBit j = y.testBit 7 := by
  rw [Nat.testBit_eq_decide_div_mod_eq (x := y)]
  split
  · exact (Nat.testBit_two_pow_sub_one 8 j).trans (decide_eq_decide.2 (by omega))
  · exact (Nat.zero_testBit j).trans (decide_eq_false (by omega)).symm

/-- A bit of the byte that a selector names, or of that byte's sign in every place (05 R142). -/
theorem testBit_permByte (a b c : Word32) (k : Nat) {j : Nat} (hj : j < 8) : (permByte a b c k).testBit j =
    let sel := c.toNat / 2 ^ (4 * k) % 16
    let byteBit (j : Nat) : Bool :=
      if sel % 8 < 4 then a.getLsbD (8 * (sel % 8) + j) else b.getLsbD (8 * (sel % 8 - 4) + j)
    if 8 ≤ sel then byteBit 7 else byteBit j := by
  have selector : bits c.toNat (4 * k + 3) (4 * k) = c.toNat / 2 ^ (4 * k) % 16 := by
    rw [bits, Nat.shiftRight_eq_div_pow, show 4 * k + 3 + 1 - 4 * k = 4 by omega]
    rfl
  have source (n i : Nat) (hn : n < 8) (hi : i < 8) : ((a.toNat + 2 ^ 32 * b.toNat) / 2 ^ (8 * n) % 256).testBit i =
      if n < 4 then a.getLsbD (8 * n + i) else b.getLsbD (8 * (n - 4) + i) := by
    rw [show 256 = 2 ^ 8 from rfl, Nat.testBit_mod_two_pow, Nat.testBit_div_two_pow, decide_eq_true hi, Bool.true_and, Nat.add_comm a.toNat,
      Nat.testBit_two_pow_mul_add _ a.isLt, Nat.add_comm i]
    split
    · rw [if_pos (by omega)]; rfl
    · rw [if_neg (by omega), show 8 * n + i - 32 = 8 * (n - 4) + i by omega]; rfl
  simp only [permByte, selector]
  generalize c.toNat / 2 ^ (4 * k) % 16 = sel
  rw [← source (sel % 8) 7 (Nat.mod_lt _ (by decide)) (by decide), ← source (sel % 8) j (Nat.mod_lt _ (by decide)) hj]
  split
  · exact testBit_signByte (Nat.mod_lt _ (by decide)) hj
  · rfl

theorem getLsbD_bperm (a b c : Word32) {i : Nat} (hi : i < 32) : (bperm a b c).getLsbD i =
    let sel := c.toNat / 2 ^ (4 * (i / 8)) % 16
    let byteBit (j : Nat) : Bool :=
      if sel % 8 < 4 then a.getLsbD (8 * (sel % 8) + j) else b.getLsbD (8 * (sel % 8 - 4) + j)
    if 8 ≤ sel then byteBit 7 else byteBit (i % 8) := by
  rw [bperm_eq, BitVec.getLsbD_ofNat, decide_eq_true hi, Bool.true_and,
    testBit_of_bytes (fun k => permByte_lt a b c k) hi, testBit_permByte a b c _ (Nat.mod_lt i (by decide))]

theorem fieldTable_exec (w : Lane) (s : State) : ∀ p ∈ fieldTable w, ∃ r, exec p.1 s = s.laneInt w r ∧
    ∀ a b c i, i < 32 → (r a b c).getLsbD i = p.2 a b c i := by
  simp only [fieldTable, List.forall_mem_cons, List.not_mem_nil, false_imp_iff, implies_true, and_true]
  exact ⟨⟨fun a _ _ => brev a, rfl, fun a _ _ _ => getLsbD_brev a⟩,
    ⟨fun a b _ => bfx w.fmt a b, rfl, fun a b _ _ => getLsbD_bfx w.fmt a b⟩,
    ⟨bfi, rfl, fun a b c _ => getLsbD_bfi a b c⟩, ⟨bperm, rfl, fun a b c _ => getLsbD_bperm a b c⟩⟩

/-- Settles O2: each row's word issues as `State.laneInt` of an operation with the row's result. -/
theorem logicAndFieldsWriteTheirTable : Obligations.LogicAndFieldsWriteTheirTable := by
  refine ⟨fun w s x a b c g hr hp p hm => (logicTable_exec w s p hm).trans (laneInt_next hr hp _),
    fun w s x a b c g hr hp => ⟨fun p hm => (countTable_exec w s p hm).trans (laneInt_next hr hp _), fun p hm => ?_⟩⟩
  obtain ⟨r, hexec, hbits⟩ := fieldTable_exec w s p hm
  exact ⟨_, hexec.trans (laneInt_next hr hp r), fun l i => hbits (a l) (b l) (c l) i⟩

end Sys2Proof.Machine
end

section
/-!
PROOFS. Compares, predicates, selections and special reads (O7): what a word's result leaves once its sources are full.
-/
namespace Sys2Proof.Machine

/-! ### Results of words that are ready -/

section Ready
variable {w : Lane} {s : State} {x : Issue} {a b c : Nat → Word32} {g : Group}
  {f : Issue → LaneMask → (Nat → Word32) → (Nat → Word32) → (Nat → Word32) → Result} (h : LaneReady w s x a b c g)
include h

theorem issueAlu_lanes {r : Nat → FRes} (hf : f x (x.on w) a b c = .lanes x w (x.on w) r)
    (hp : g.pendingIn (x.dst w) (x.on w) = false) (ht : noTrap g (x.on w) (fun l => (r l).fl)) :
    s.issueAlu w.gp w.neg w.imm (laneSrcs w) f = .next (x.wrote s w g r) := by
  have next := issueAlu_next (f := f) h.issuer h.free h.lanes (srcs := laneSrcs w) h.fetched
  rw [show x.active w.gp w.neg = x.on w from rfl, hf] at next
  exact next ht hp

theorem issueAlu_pred {r : Nat → Bool × BitVec 5} (hf : f x (x.on w) a b c = .pred w (x.on w) r)
    (ht : noTrap g (x.on w) (fun l => (r l).2)) : s.issueAlu w.gp w.neg w.imm (laneSrcs w) f = .next (x.wroteP s w g r) := by
  have next := issueAlu_next (f := f) h.issuer h.free h.lanes (srcs := laneSrcs w) h.fetched
  rw [show x.active w.gp w.neg = x.on w from rfl, hf] at next
  exact next ht rfl

end Ready

/-! ### Predicates (05 R143, R144) -/

theorem maskOf_congr {f f' : Nat → Bool} (h : ∀ l, l < 64 → f l = f' l) : maskOf f = maskOf f' :=
  BitVec.eq_of_getLsbD_eq fun l hl => by rw [maskOf_getLsbD f hl, maskOf_getLsbD f' hl, h l hl]

theorem intCond_iff_holds {n : Nat} (hn : n < 6) (a b : Int) : intCond n a b = true ↔ holds n a b := by
  unfold holds
  interval_cases n <;> simp [intCond]

theorem predOp_next {w : Lane} {s : State} {x : Issue} (h : BareReady w.gp w.neg s x) {f : LaneMask → LaneMask → LaneMask}
    {op : Bool → Bool → Bool} (hf : ∀ p q l, l < 64 → inMask (f p q) l = op (inMask p l) (inMask q l)) :
    s.predOp w f = .next (x.wroteP s w x.g (fun l => (op (inMask (x.g.predSrc w.sa) l) (inMask (x.g.predSrc w.sb) l), 0))) := by
  refine (bare_next (f := fun x m _ _ _ => .pred w m (fun l => (inMask (f (x.g.predSrc w.sa) (x.g.predSrc w.sb)) l, 0))) h
    (imm := w.imm) (noTrap_zero ..) rfl).trans ?_
  rw [Result.pred, maskOf_congr (hf (x.g.predSrc w.sa) (x.g.predSrc w.sb))]
  rfl

theorem predicateTable_next {w : Lane} {s : State} {x : Issue} (h : BareReady w.gp w.neg s x) : ∀ p ∈ predicateTable w, exec p.1 s =
    .next (x.wroteP s w x.g (fun l => (p.2 (inMask (x.g.predSrc w.sa) l) (inMask (x.g.predSrc w.sb) l), 0))) := by
  simp only [predicateTable, List.forall_mem_cons, List.not_mem_nil, false_imp_iff, implies_true, and_true]
  have not_bit (p q : LaneMask) (l : Nat) (hl : l < 64) : inMask (~~~p) l = !inMask p l := by simp [inMask, hl]
  exact ⟨predOp_next h (f := (· &&& ·)) (op := fun p q => p && q) fun _ _ _ _ => BitVec.getLsbD_and,
    predOp_next h (f := (· ||| ·)) (op := fun p q => p || q) fun _ _ _ _ => BitVec.getLsbD_or,
    predOp_next h (f := (· ^^^ ·)) (op := fun p q => xor p q) fun _ _ _ _ => BitVec.getLsbD_xor,
    predOp_next h (f := fun p _ => ~~~p) (op := fun p _ => !p) not_bit⟩

theorem bne_eq_decide (v u : Word32) : (v != u) = decide (v ≠ u) := by
  rw [Bool.eq_iff_iff, bne_iff_ne, decide_eq_true_iff]

/-- The words that write a predicate from lane operands. -/
theorem comparesAndPset_next {w : Lane} {s : State} {x : Issue} {a b c : Nat → Word32} {g : Group} (h : LaneReady w s x a b c g) :
    exec (.pset w) s = .next (x.wroteP s w g (fun l => (a l != 0, 0))) ∧
    exec (.cmp w) s = .next (x.wroteP s w g (fun l => (intCond w.mod.toNat (readInt w.fmt (a l)) (readInt w.fmt (b l)), 0))) ∧
    (noTrap g (x.on w) (fun l => (fcmp (ffOf w.fmt) w.mod.toNat (a l) (b l)).2) →
      exec (.cmpFloat w) s = .next (x.wroteP s w g (fun l => fcmp (ffOf w.fmt) w.mod.toNat (a l) (b l)))) := by
  dsimp only [exec]
  exact ⟨issueAlu_pred h rfl (noTrap_zero ..), issueAlu_pred h rfl (noTrap_zero ..), issueAlu_pred h rfl⟩

/-! ### Selections and special reads (05 R144, R156; 04 R112, R113) -/

/-- The low or the high half of a 64-bit register. -/
theorem setWidth_eq_extract (v : Word64) (high : Bool) :
    (if high then v >>> 32 else v).setWidth 32 = v.extractLsb' (if high then 32 else 0) 32 := by
  apply BitVec.eq_of_getLsbD_eq
  intro i hi
  cases high <;> simp [hi]

theorem sel_next {w : Lane} {s : State} {x : Issue} {a b c : Nat → Word32} {g : Group} (h : LaneReady w s x a b c g)
    (hp : g.pendingIn (x.dst w) (x.on w) = false) : exec (.sel w) s =
      .next (x.wrote s w g (fun l => ⟨if inMask (x.g.getP (w.xop.toNat % 8)) l then a l else b l, 0⟩)) := by
  dsimp only [exec]
  exact issueAlu_lanes h rfl hp (noTrap_zero ..)

theorem stov_next {w : Lane} {s : State} {x : Issue} {a b c : Nat → Word32} {g : Group} (h : LaneReady w s x a b c g)
    (hp : g.pendingIn (x.dst w) (x.on w) = false) : exec (.stov w) s =
      .next (x.wrote s w g (fun _ => ⟨(x.g.uniform w.sa).extractLsb' (if w.xop.getLsbD 0 then 32 else 0) 32, 0⟩)) := by
  dsimp only [exec]
  simp only [← setWidth_eq_extract]
  exact issueAlu_lanes h rfl hp (noTrap_zero ..)

theorem pget_next {w : Lane} {s : State} {x : Issue} (h : BareReady w.gp w.neg s x) (hp : x.g.pendingIn (x.dst w) (x.on w) = false) :
    exec (.pget w) s = .next (x.wrote s w x.g (fun l => ⟨if inMask (x.g.predSrc w.sa) l then 1 else 0, 0⟩)) := by
  dsimp only [exec]
  exact bare_next h (noTrap_zero ..) hp

theorem srd_next {w : Lane} {s : State} {x : Issue} (h : BareReady w.gp w.neg s x) (hp : x.g.pendingIn (x.dst w) (x.on w) = false) :
    exec (.srd w) s = .next (x.wrote s w x.g (fun l =>
      ⟨(s.sreadLane x.g x.en (w.imm.toNat % 64) l).extractLsb' (if w.imm.getLsbD 8 then 32 else 0) 32, 0⟩)) := by
  dsimp only [exec]
  simp only [← setWidth_eq_extract]
  exact bare_next h (noTrap_zero ..) hp

theorem specialTable_reads (s : State) (x : Issue) : ∀ p ∈ specialTable s x, ∀ l, s.sreadLane x.g x.en p.1 l = p.2 l := by
  simp only [specialTable, List.forall_mem_cons, List.not_mem_nil, false_imp_iff, implies_true, and_true]
  and_intros
  all_goals exact fun _ => rfl

/-- Settles O7: each word's result, with the conditions of 02 Table 4 and the special registers of 04 Table 2 for the model's. -/
theorem predicateAndSelectWordsWriteTheirTable : Obligations.PredicateAndSelectWordsWriteTheirTable := by
  refine ⟨fun w s x => ⟨fun a b c g h => ?_, predicateTable_next⟩,
    fun w s x => ⟨fun a b c g h hp => ⟨sel_next h hp, fun n hn => ?_⟩, fun h hp => ⟨pget_next h hp, fun p hm hn => ?_⟩⟩⟩
  · obtain ⟨hpset, hcmp, hfloat⟩ := comparesAndPset_next h
    simp only [bne_eq_decide] at hpset
    exact ⟨hpset, fun hm => ⟨_, hcmp, fun l => intCond_iff_holds hm ..⟩, hfloat⟩
  · have next := stov_next h hp
    rwa [hn] at next
  · simp only [← specialTable_reads s x p hm, ← hn]
    exact srd_next h hp

end Sys2Proof.Machine
end

section
/-!
PROOFS. Cross-lane words (O8): what a lane of SHFL, VBALLOT and VMATCH receives, and the S register of VTOS.
-/
namespace Sys2Proof.Machine

/-! ### S registers -/

theorem scalar_waits {w : Lane} {g : Group} (h : ∀ n, w.dst = .s n → g.sState n.toNat ≠ .pending) (v : Word64)
    (fl : Nat → BitVec 5) : (Result.scalar w v fl).waits g = false := by
  unfold Result.scalar
  split
  · next n hn => simpa using h n hn
  · rfl

theorem issueAlu_scalar {w : Lane} {s : State} {x : Issue} {a b c : Nat → Word32} {g : Group}
    {f : Issue → LaneMask → (Nat → Word32) → (Nat → Word32) → (Nat → Word32) → Result} (h : LaneReady w s x a b c g)
    {v : Word64} {fl : Nat → BitVec 5} (hf : f x (x.on w) a b c = .scalar w v fl) (hs : ∀ n, w.dst = .s n → g.sState n.toNat ≠ .pending)
    (ht : noTrap g (x.on w) fl) : s.issueAlu w.gp w.neg w.imm (laneSrcs w) f = .next (x.wroteS s w g v fl) := by
  have next := issueAlu_next (f := f) h.issuer h.free h.lanes (srcs := laneSrcs w) h.fetched
  rw [show x.active w.gp w.neg = x.on w from rfl, hf] at next
  exact next ht (scalar_waits hs v fl)

/-! ### SHFL (05 R159) -/

/-- The source of a lane of SHFL as a number that need not be a lane's. -/
def shflIndex (mode l k : Nat) : Int :=
  if mode = 0 then (k % 64 : Nat) else if mode = 1 then (l : Int) - k else if mode = 2 then (l : Int) + k
  else (Nat.xor l (k % 64) : Nat)

theorem shflSrc_eq {mode l : Nat} (hm : mode < 4) (hl : l < 64) (k : Word32) : shflSrc mode l k =
    if 0 ≤ shflIndex mode l k.toNat ∧ shflIndex mode l k.toNat ≤ 63 then some (shflIndex mode l k.toNat).toNat else none := by
  have xor_lt : Nat.xor l (k.toNat % 64) < 64 := Nat.xor_lt_two_pow (n := 6) hl (Nat.mod_lt _ (by decide))
  match mode with
  | 0 => exact (if_pos (show (0 : Int) ≤ (k.toNat % 64 : Nat) ∧ ((k.toNat % 64 : Nat) : Int) ≤ 63 by omega)).symm
  | 1 =>
    show (if k.toNat ≤ l then some (l - k.toNat) else none) =
      if (0 : Int) ≤ l - k.toNat ∧ (l : Int) - k.toNat ≤ 63 then some ((l : Int) - k.toNat).toNat else none
    exact if_ctx_congr (by omega) (fun _ => congrArg some (by omega)) fun _ => rfl
  | 2 =>
    show (if l + k.toNat < 64 then some (l + k.toNat) else none) =
      if (0 : Int) ≤ l + k.toNat ∧ (l : Int) + k.toNat ≤ 63 then some ((l : Int) + k.toNat).toNat else none
    exact if_ctx_congr (by omega) (fun _ => congrArg some (by omega)) fun _ => rfl
  | 3 =>
    exact (if_pos (show (0 : Int) ≤ (Nat.xor l (k.toNat % 64) : Nat) ∧ ((Nat.xor l (k.toNat % 64) : Nat) : Int) ≤ 63 by omega)).symm

/-- What a lane receives from the lane that SHFL names, if that is an active one. -/
def shflLane (m : LaneMask) (mode : Nat) (a b : Nat → Word32) (l : Nat) : Word32 :=
  a (((shflSrc mode l (b l)).filter (inMask m)).getD l)

theorem shflLane_eq (m : LaneMask) {mode l : Nat} (hm : mode < 4) (hl : l < 64) (a b : Nat → Word32) :
    shflLane m mode a b l = shflValue m mode a b l := by
  rw [shflLane, shflSrc_eq hm hl]
  change _ = let i := shflIndex mode l (b l).toNat
    if 0 ≤ i ∧ i ≤ 63 ∧ inMask m i.toNat then a i.toNat else a l
  generalize shflIndex mode l (b l).toNat = i
  dsimp only
  by_cases hi : 0 ≤ i ∧ i ≤ 63
  · rw [if_pos hi, Option.filter_some]
    by_cases hm : inMask m i.toNat
    · rw [if_pos hm, if_pos ⟨hi.1, hi.2, hm⟩, Option.getD_some]
    · rw [if_neg hm, if_neg fun h => hm h.2.2, Option.getD_none]
  · rw [if_neg hi, if_neg fun h => hi ⟨h.1, h.2.1⟩]
    rfl

theorem shfl_next {w : Lane} {s : State} {x : Issue} {a b c : Nat → Word32} {g : Group} (h : LaneReady w s x a b c g)
    (hp : g.pendingIn (x.dst w) (x.on w) = false) :
    exec (.shfl w) s = .next (x.wrote s w g (fun l => ⟨shflLane (x.on w) (w.xop.toNat % 4) a b l, 0⟩)) := by
  dsimp only [exec]
  refine issueAlu_lanes h (congrArg (Result.lanes x w (x.on w)) (funext fun l => ?_)) hp (noTrap_zero ..)
  unfold shflLane
  split
  · next k hk =>
    rw [hk, Option.filter_some]
    split <;> rfl
  · next hk => rw [hk]; rfl

/-! ### VBALLOT (05 R160) -/

theorem getLsbD_ballot (m : LaneMask) (a : Nat → Word32) {l : Nat} (hl : l < 64) :
    (ballot m a).getLsbD l = (inMask m l && decide (a l ≠ 0)) := by
  rw [ballot, maskOf_getLsbD _ hl, bne_eq_decide]

theorem vballotS_next {w : Lane} {s : State} {x : Issue} {a b c : Nat → Word32} {g : Group} (h : LaneReady w s x a b c g)
    (hs : ∀ n, w.dst = .s n → g.sState n.toNat ≠ .pending) :
    exec (.vballotS w) s = .next (x.wroteS s w g (ballot (x.on w) a) noFlags) := by
  dsimp only [exec]
  exact issueAlu_scalar h rfl hs (noTrap_zero ..)

theorem vballotV_next {w : Lane} {s : State} {x : Issue} {a b c : Nat → Word32} {g : Group} (h : LaneReady w s x a b c g)
    (hp : g.pendingIn (x.dst w) (x.on w) = false) : exec (.vballotV w) s = .next (x.wrote s w g (fun _ =>
      ⟨(ballot (x.on w) a).extractLsb' (if w.xop.getLsbD 0 then 32 else 0) 32, 0⟩)) := by
  dsimp only [exec]
  simp only [← setWidth_eq_extract]
  exact issueAlu_lanes h rfl hp (noTrap_zero ..)

/-! ### VMATCH (05 R161) -/

/-- What a form of VMATCH makes of a lane's mask of equal keys. -/
def matchForm (form : Nat) (k : LaneMask) : Word32 :=
  if form = 0 then BitVec.ofNat 32 (lowLane k) else if form = 1 then BitVec.ofNat 32 (popLanes k)
  else k.extractLsb' (if form = 2 then 0 else 32) 32

theorem vmatch_next {w : Lane} {s : State} {x : Issue} {a b c : Nat → Word32} {g : Group} (h : LaneReady w s x a b c g)
    (hp : g.pendingIn (x.dst w) (x.on w) = false) : exec (.vmatch w) s =
      .next (x.wrote s w g (fun l => ⟨matchForm (w.xop.toNat % 4) (matchMask w.fmt (x.on w) a l), 0⟩)) := by
  dsimp only [exec]
  refine issueAlu_lanes h (congrArg (Result.lanes x w (x.on w)) (funext fun l => ?_)) hp (noTrap_zero ..)
  change _ = FRes.mk (matchForm _ (maskOf fun j => inMask (x.on w) j && keyEq w.fmt (a j) (a l))) 0
  generalize maskOf (fun j => inMask (x.on w) j && keyEq w.fmt (a j) (a l)) = k
  have hform : w.xop.toNat % 4 < 4 := Nat.mod_lt _ (by decide)
  have low : k.setWidth 32 = k.extractLsb' 0 32 := setWidth_eq_extract k false
  have high : (k >>> 32).setWidth 32 = k.extractLsb' 32 32 := setWidth_eq_extract k true
  generalize w.xop.toNat % 4 = form at hform
  match form with
  | 0 | 1 => rfl
  | 2 => exact congrArg (FRes.mk · 0) low
  | 3 => exact congrArg (FRes.mk · 0) high

/-! ### VTOS (05 R157) -/

theorem append_eq_ofNat (b a : Word32) : (b ++ a : BitVec 64) = BitVec.ofNat 64 (a.toNat + 2 ^ 32 * b.toNat) := by
  apply BitVec.eq_of_toNat_eq
  rw [BitVec.toNat_append, Nat.shiftLeft_eq, Nat.mul_comm, ← Nat.two_pow_add_eq_or_of_lt a.isLt, BitVec.toNat_ofNat]
  omega

theorem vtos_next {w : Lane} {s : State} {x : Issue} {a b c : Nat → Word32} {g : Group} (h : BareReady w.gp w.neg s x)
    (hf : s.fetchLane x w (laneBit (lowLane (x.on w))) = .ok a b c g none) (hs : ∀ n, w.dst = .s n → g.sState n.toNat ≠ .pending)
    (f : Word32 → Word32 → Word64) :
    s.vtos w f = .next (x.wroteS s w g (f (a (lowLane (x.on w))) (b (lowLane (x.on w)))) noFlags) :=
  issueAlu_next h.issuer h.free h.lanes (srcs := fun m => laneSrcs w (laneBit (lowLane m))) hf (noTrap_zero ..) (scalar_waits hs _ _)

/-- Settles O8: each word's result, lane by lane, is the spec's; VTOS is `State.vtos` of the lowest active lane's sources. -/
theorem crossLaneWordsWriteTheirTable : Obligations.CrossLaneWordsWriteTheirTable := by
  refine ⟨fun w s x a b c g h => ⟨⟨ballot (x.on w) a, fun l => getLsbD_ballot _ a, vballotS_next h, vballotV_next h⟩, fun hp =>
    ⟨⟨_, shfl_next h hp, fun l hl => shflLane_eq _ (Nat.mod_lt _ (by decide)) hl a b⟩, _, vmatch_next h hp, fun l hl => ?_⟩⟩,
    fun w s x a b c g h hf hs => ⟨?_, ?_, ?_⟩⟩
  · refine ⟨fun hn => ?_, fun hn => ?_, fun hn => ?_, fun hn => ?_⟩
    all_goals rw [hn]; rfl
  · rw [← append_eq_ofNat]
    exact vtos_next h hf hs fun a b => b ++ a
  · rw [BitVec.ofNat_toNat]
    exact vtos_next h hf hs fun a _ => a.setWidth 64
  · exact vtos_next h hf hs fun a _ => a.signExtend 64

end Sys2Proof.Machine
end

section
/-!
PROOFS. Reductions and scans (O9): the accumulation over a list of lanes is the fold of the steps, and it has the value and the
conditions of `reduceValue`.
-/
namespace Sys2Proof.Machine

/-! ### Accumulations over lanes (05 R162, R163) -/

section Accumulation
variable (w : Lane)

/-- A further value of a word's reduction. -/
def accStep (c : Acc) (v : Word32) : Acc := redStep w.fmt (w.xop.toNat % 8) (Rm.ofCode w.mod) c v

/-- The accumulation of a list of values. -/
def accOf : List Word32 → Acc
  | [] => ⟨0, 0, 0⟩
  | v :: vs => vs.foldl (accStep w) (redFirst w.fmt v)

variable (a : Nat → Word32)

theorem redScan_some_getElem? (c : Acc) (pre post : List Nat) (l : Nat) :
    (redScan w a (some c) (pre ++ l :: post))[pre.length]? = some (l, ((pre ++ [l]).map a).foldl (accStep w) c) := by
  induction pre generalizing c with
  | nil => rfl
  | cons q pre ih => exact ih (accStep w c (a q))

/-- At a lane of a scan stands the accumulation of the lanes up to it. -/
theorem redScan_getElem? (pre post : List Nat) (l : Nat) :
    (redScan w a none (pre ++ l :: post))[pre.length]? = some (l, accOf w ((pre ++ [l]).map a)) := by
  cases pre with
  | nil => rfl
  | cons q pre => exact redScan_some_getElem? w a (redFirst w.fmt (a q)) pre post l

theorem length_redScan (ls : List Nat) (c : Option Acc) : (redScan w a c ls).length = ls.length := by
  induction ls generalizing c with
  | nil => cases c <;> rfl
  | cons l ls ih => cases c <;> exact congrArg (· + 1) (ih _)

/-- The last accumulation is that of all lanes. -/
theorem redScan_getLast? {ls : List Nat} (h : ls ≠ []) :
    (redScan w a none ls).getLast? = some (ls.getLast h, accOf w (ls.map a)) := by
  have split := List.dropLast_concat_getLast h
  have entry := redScan_getElem? w a ls.dropLast [] (ls.getLast h)
  rw [split, List.length_dropLast] at entry
  rw [List.getLast?_eq_getElem?, length_redScan, entry]

theorem redScan_last_acc (ls : List Nat) :
    (((redScan w a none ls).getLast?).map Prod.snd).getD ⟨0, 0, 0⟩ = accOf w (ls.map a) := by
  by_cases h : ls = []
  · rw [h]; rfl
  · rw [redScan_getLast? w a h]; rfl

theorem redScan_last_fl (ls : List Nat) :
    (((redScan w a none ls).getLast?).map (fun p => p.2.fl)).getD 0 = (accOf w (ls.map a)).fl := by
  by_cases h : ls = []
  · rw [h]; rfl
  · rw [redScan_getLast? w a h]; rfl

end Accumulation

/-! ### The value of an accumulation -/

section Value
variable {w : Lane}

theorem redVal_eq_val (h : w.fmt = .f32 ∨ w.xop.toNat % 8 ≠ 0) (c : Acc) : redVal w c = c.val :=
  if_neg fun ⟨hf, hop, _⟩ => h.elim hf fun h0 => h0 hop

/-- A sum is wrapped or saturated from its exact value. -/
theorem redVal_sum (hne : w.fmt ≠ .f32) (hop : w.xop.toNat % 8 = 0) {c : Acc} (hc : c.val = widen (wrapInt w.fmt c.exact)) :
    redVal w c = intResult w c.exact := by
  unfold redVal intResult
  by_cases hm : w.mod = 1
  · rw [if_pos ⟨hne, hop, hm⟩, if_pos hm]
  · rw [if_neg fun h => hm h.2.2, if_neg hm, hc]

theorem redFirst_int (hne : w.fmt ≠ .f32) (v : Word32) : redFirst w.fmt v = ⟨readInt w.fmt v, v, 0⟩ := if_neg hne

/-- A float reduction starts from the first value read as a number (05 R162). -/
theorem accOf_float (hf : w.fmt = .f32) (hop : w.xop.toNat % 8 ≤ 2) (v : Word32) (vs : List Word32) :
    (accOf w (v :: vs)).val = (reduceValue w (v :: vs)).val ∧ (accOf w (v :: vs)).fl = (reduceValue w (v :: vs)).fl := by
  simp only [reduceValue, if_pos hf, accOf]
  refine List.foldl_rel (r := fun (c : Acc) (d : FRes) => c.val = d.val ∧ c.fl = d.fl) ?_ ?_
  · rw [redFirst, if_pos hf]
    dsimp only
    split <;> exact ⟨rfl, rfl⟩
  · rintro y - c d ⟨hv, hfl⟩
    unfold accStep redStep
    rw [if_pos hf, hv, hfl]
    generalize w.xop.toNat % 8 = op at hop
    match op with
    | 0 | 1 | 2 => exact ⟨rfl, rfl⟩

theorem accOf_sum (hf : intWidth w.fmt = 32) (hne : w.fmt ≠ .f32) (hop : w.xop.toNat % 8 = 0) (v : Word32) (vs : List Word32) :
    (accOf w (v :: vs)).exact = ((v :: vs).map (readInt w.fmt)).sum ∧
    (accOf w (v :: vs)).val = widen (wrapInt w.fmt (accOf w (v :: vs)).exact) ∧ (accOf w (v :: vs)).fl = 0 := by
  have first : ((v :: vs).map (readInt w.fmt)).sum = vs.foldl (fun n y => n + readInt w.fmt y) (readInt w.fmt v) := by
    rw [List.sum_eq_foldl, List.map_cons, List.foldl_cons, Int.zero_add, List.foldl_map]
  have steps := List.foldl_rel (l := vs) (f := accStep w) (g := fun n y => n + readInt w.fmt y) (a := redFirst w.fmt v)
    (r := fun (c : Acc) (n : Int) => c.exact = n ∧ c.val = widen (wrapInt w.fmt c.exact) ∧ c.fl = 0) (b := readInt w.fmt v) ?_ ?_
  · rwa [← first] at steps
  · rw [redFirst_int hne]
    exact ⟨rfl, by rw [wrapInt_of_inRange (readInt_inRange ..), widen_readInt hf], rfl⟩
  · rintro y - c n ⟨hc, -, -⟩
    simp only [accStep, redStep, if_neg hne, hop, hc, and_self]

theorem accOf_order (hf : intWidth w.fmt = 32) (hne : w.fmt ≠ .f32) {f : Int → Int → Int} (hsel : ∀ u v, f u v = u ∨ f u v = v)
    (hstep : ∀ c v, accStep w c v = ⟨0, widen (f (readInt w.fmt c.val) (readInt w.fmt v)), 0⟩) (v : Word32) (vs : List Word32) :
    (accOf w (v :: vs)).val = widen ((vs.map (readInt w.fmt)).foldl f (readInt w.fmt v)) ∧ (accOf w (v :: vs)).fl = 0 := by
  rw [List.foldl_map]
  have steps := List.foldl_rel (l := vs) (f := accStep w) (g := fun n y => f n (readInt w.fmt y)) (a := redFirst w.fmt v)
    (r := fun (c : Acc) (n : Int) => readInt w.fmt c.val = n ∧ c.val = widen n ∧ c.fl = 0) (b := readInt w.fmt v) ?_ ?_
  · exact steps.2
  · rw [redFirst_int hne]
    exact ⟨rfl, (widen_readInt hf v).symm, rfl⟩
  · rintro y - c n ⟨hc, -, -⟩
    have range : intMin w.fmt ≤ f n (readInt w.fmt y) ∧ f n (readInt w.fmt y) ≤ intMax w.fmt := by
      rcases hsel n (readInt w.fmt y) with h | h
      · rw [h, ← hc]; exact readInt_inRange ..
      · rw [h]; exact readInt_inRange ..
    rw [hstep, hc]
    exact ⟨by rw [readInt_widen, wrapInt_of_inRange range], rfl, rfl⟩

theorem accOf_bits (hne : w.fmt ≠ .f32) {f : Word32 → Word32 → Word32} (hstep : ∀ c v, accStep w c v = ⟨0, f c.val v, 0⟩)
    (v : Word32) (vs : List Word32) : (accOf w (v :: vs)).val = vs.foldl f v ∧ (accOf w (v :: vs)).fl = 0 := by
  refine List.foldl_rel (l := vs) (r := fun (c : Acc) (u : Word32) => c.val = u ∧ c.fl = 0) ?_ ?_
  · rw [redFirst_int hne]
    exact ⟨rfl, rfl⟩
  · rintro y - c u ⟨rfl, -⟩
    rw [hstep]
    exact ⟨rfl, rfl⟩

/-- The integer operations of 05 Table 11, one by one. -/
theorem accOf_int (hf : intWidth w.fmt = 32) (hne : w.fmt ≠ .f32) (hop : w.xop.toNat % 8 ≤ 5) (v : Word32) (vs : List Word32) :
    redVal w (accOf w (v :: vs)) = (reduceValue w (v :: vs)).val ∧ (accOf w (v :: vs)).fl = (reduceValue w (v :: vs)).fl := by
  have step (c : Acc) (y : Word32) : accStep w c y = redStep w.fmt (w.xop.toNat % 8) (Rm.ofCode w.mod) c y := rfl
  simp only [redStep, if_neg hne] at step
  simp only [reduceValue, if_neg hne]
  by_cases h0 : w.xop.toNat % 8 = 0
  · obtain ⟨hsum, hval, hfl⟩ := accOf_sum hf hne h0 v vs
    rw [redVal_sum hne h0 hval, hsum, hfl, if_pos h0]
    exact ⟨rfl, rfl⟩
  rw [redVal_eq_val (.inr h0)]
  generalize w.xop.toNat % 8 = op at hop h0 step
  match op with
  | 0 => exact absurd rfl h0
  | 1 => exact accOf_order hf hne min_choice step v vs
  | 2 => exact accOf_order hf hne max_choice step v vs
  | 3 => exact accOf_bits hne step v vs
  | 4 => exact accOf_bits hne step v vs
  | 5 => exact accOf_bits hne step v vs

/-- An accumulation has the value and the conditions of the spec's reduction. -/
theorem accOf_cons_eq_reduceValue (hw : reductionForm w) (v : Word32) (vs : List Word32) :
    redVal w (accOf w (v :: vs)) = (reduceValue w (v :: vs)).val ∧ (accOf w (v :: vs)).fl = (reduceValue w (v :: vs)).fl := by
  by_cases hf : w.fmt = .f32
  · rw [redVal_eq_val (.inl hf)]
    refine accOf_float hf ?_ v vs
    rcases hw with ⟨hb, -⟩ | ⟨-, hop⟩
    · exact absurd (hb.symm.trans hf) (by decide)
    · exact hop
  · rcases hw with ⟨hb, -, hop⟩ | ⟨hm, hop⟩
    · exact accOf_int (by rw [hb]; rfl) hf hop v vs
    · refine accOf_int ?_ hf (hop.trans (by decide)) v vs
      simp only [List.mem_cons, List.not_mem_nil, or_false] at hm
      rcases hm with h | h | h <;> rw [h] <;> rfl

/-- The conditions of an accumulation, which may be of no lane at all. -/
theorem accOf_fl (hw : reductionForm w) (vs : List Word32) : (accOf w vs).fl = (reduceValue w vs).fl := by
  cases vs with
  | nil => rfl
  | cons v vs => exact (accOf_cons_eq_reduceValue hw v vs).2

theorem redVal_accOf (hw : reductionForm w) {vs : List Word32} (h : vs ≠ []) : redVal w (accOf w vs) = (reduceValue w vs).val := by
  cases vs with
  | nil => exact absurd rfl h
  | cons v vs => exact (accOf_cons_eq_reduceValue hw v vs).1

end Value

/-! ### VREDUCE (05 R162) -/

section Reduce
variable {w : Lane} {s : State} {x : Issue} {a b c : Nat → Word32} {g : Group} (h : LaneReady w s x a b c g) (hw : reductionForm w)
include h hw

theorem vreduce_value : redVal w (accOf w ((maskLanes (x.on w)).map a)) = (reduceValue w ((maskLanes (x.on w)).map a)).val :=
  redVal_accOf hw fun hn => h.lanes (maskLanes_nil.1 (List.map_eq_nil_iff.1 hn))

theorem vreduce_scalar {n : BitVec 8} (hn : w.dst = .s n) (hs : g.sState n.toNat ≠ .pending)
    (ht : noTrap g (x.on w) (fun _ => (reduceValue w ((maskLanes (x.on w)).map a)).fl)) :
    let r := reduceValue w ((maskLanes (x.on w)).map a)
    exec (.vreduce w) s = .next (x.wroteS s w g (if w.fmt = .s32 then r.val.signExtend 64 else r.val.setWidth 64) (fun _ => r.fl)) := by
  dsimp only [exec]
  refine issueAlu_scalar h ?_ (fun m hm => by rw [hn] at hm; cases hm; exact hs) ht
  rw [redScan_last_acc]
  dsimp only
  rw [vreduce_value h hw, accOf_fl hw]
  split
  · rfl
  · next hd => exact absurd hn (hd n)

theorem vreduce_lanes (hd : ∀ n, w.dst ≠ .s n) (hp : g.pendingIn (x.dst w) (x.on w) = false)
    (ht : noTrap g (x.on w) (fun _ => (reduceValue w ((maskLanes (x.on w)).map a)).fl)) :
    exec (.vreduce w) s = .next (x.wrote s w g (fun _ => reduceValue w ((maskLanes (x.on w)).map a))) := by
  dsimp only [exec]
  refine issueAlu_lanes h ?_ hp ht
  rw [redScan_last_acc]
  dsimp only
  rw [vreduce_value h hw, accOf_fl hw]
  split
  · next n hn => exact absurd hn (hd n)
  · rfl

end Reduce

/-! ### VSCAN (05 R163) -/

theorem writeDst_congr (g : Group) (wb : Nat) (o : Operand) {m : LaneMask} {f f' : Nat → Word32} (h : ∀ l ∈ maskLanes m, f l = f' l) :
    g.writeDst wb o m f = g.writeDst wb o m f' := by
  unfold Group.writeDst Group.overLanes
  split
  · exact List.foldl_ext _ _ _ fun g l hl => by rw [h l hl]
  · exact List.foldl_ext _ _ _ fun g l hl => by rw [h l hl]
  · rfl

theorem raise_congr (g : Group) {m : LaneMask} {fl fl' : Nat → BitVec 5} (h : ∀ l ∈ maskLanes m, fl l = fl' l) :
    g.raise m fl = g.raise m fl' :=
  List.foldl_ext _ _ _ fun g l hl => by rw [h l hl]

/-- Only the results of active lanes are written. -/
theorem wrote_congr {x : Issue} {w : Lane} {r r' : Nat → FRes} (h : ∀ l ∈ maskLanes (x.on w), r l = r' l) (s : State) (g : Group) :
    x.wrote s w g r = x.wrote s w g r' := by
  rw [Issue.wrote, writeDst_congr g _ _ fun l hl => congrArg FRes.val (h l hl), raise_congr _ fun l hl => congrArg FRes.fl (h l hl)]
  rfl

theorem scanIdentity_eq_scanStart {w : Lane} (hw : reductionForm w) : scanIdentity w.fmt (w.xop.toNat % 8) = scanStart w := by
  unfold reductionForm at hw
  unfold scanStart
  generalize w.fmt = f, w.xop.toNat % 8 = op at hw
  rcases hw with ⟨rfl, h3, h5⟩ | ⟨hf, h2⟩
  · interval_cases op <;> rfl
  · simp only [List.mem_cons, List.not_mem_nil, or_false] at hf
    rcases hf with rfl | rfl | rfl <;> interval_cases op <;> rfl

section Split
variable {pre post : List Nat} {l : Nat} (h : (pre ++ l :: post).Pairwise (· < ·))
include h

/-- In a rising list the lanes below one of its lanes are those before it. -/
theorem before_lt_after_gt : (∀ j ∈ pre, j < l) ∧ ∀ j ∈ post, l < j := by
  obtain ⟨-, hpost, hpre⟩ := List.pairwise_append.1 h
  exact ⟨fun j hj => hpre j hj l List.mem_cons_self, (List.pairwise_cons.1 hpost).1⟩

theorem filter_lt_eq_before : (pre ++ l :: post).filter (fun j => decide (j < l)) = pre := by
  obtain ⟨hpre, hpost⟩ := before_lt_after_gt h
  rw [List.filter_append, List.filter_eq_self.2 fun j hj => decide_eq_true (hpre j hj), List.filter_eq_nil_iff.2, List.append_nil]
  intro j hj
  rcases List.mem_cons.1 hj with rfl | hj
  · simp
  · simpa using (hpost j hj).le

theorem filter_le_eq_upTo : (pre ++ l :: post).filter (fun j => decide (j ≤ l)) = pre ++ [l] := by
  obtain ⟨hpre, hpost⟩ := before_lt_after_gt h
  rw [List.filter_append, List.filter_eq_self.2 fun j hj => decide_eq_true (hpre j hj).le,
    List.filter_cons_of_pos (by simp), List.filter_eq_nil_iff.2]
  exact fun j hj => by simpa using hpost j hj

end Split

/-- The entry of a lane in a list of lanes with values. -/
theorem find?_zip {α : Type} {pre post : List Nat} {l : Nat} {vs : List α} {v : α} (hl : ∀ j ∈ pre, j ≠ l)
    (hv : vs[pre.length]? = some v) : ((pre ++ l :: post).zip vs).find? (fun p => p.1 == l) = some (l, v) := by
  induction pre generalizing vs with
  | nil =>
    cases vs with
    | nil => cases hv
    | cons u vs =>
      obtain rfl : u = v := Option.some.inj hv
      exact List.find?_cons_of_pos (beq_self_eq_true l)
  | cons q pre ih =>
    cases vs with
    | nil => cases hv
    | cons u vs =>
      refine (List.find?_cons_of_neg ?_).trans (ih (fun j hj => hl j (List.mem_cons_of_mem q hj)) hv)
      simpa using hl q List.mem_cons_self

/-- The values that VSCAN gives out to the lanes of a list, in its order. -/
def scanOut (w : Lane) (a : Nat → Word32) (ls : List Nat) : List Word32 :=
  let vals := (redScan w a none (if w.xop.getLsbD 3 then ls.dropLast else ls)).map (fun p => redVal w p.2)
  if w.xop.getLsbD 3 then scanIdentity w.fmt (w.xop.toNat % 8) :: vals else vals

theorem redScan_value {w : Lane} (hw : reductionForm w) (a : Nat → Word32) (pre post : List Nat) (l : Nat) :
    ((redScan w a none (pre ++ l :: post)).map (fun p => redVal w p.2))[pre.length]? =
      some (reduceValue w ((pre ++ [l]).map a)).val := by
  rw [List.getElem?_map, redScan_getElem?]
  exact congrArg some (redVal_accOf hw (by simp))

theorem scanOut_inclusive {w : Lane} (hw : reductionForm w) (hx : w.xop.getLsbD 3 = false) (a : Nat → Word32) (pre post : List Nat)
    (l : Nat) : (scanOut w a (pre ++ l :: post))[pre.length]? = some (reduceValue w ((pre ++ [l]).map a)).val := by
  simp only [scanOut, hx, Bool.false_eq_true, if_false]
  exact redScan_value hw a pre post l

theorem scanOut_exclusive {w : Lane} (hw : reductionForm w) (hx : w.xop.getLsbD 3 = true) (a : Nat → Word32) (pre post : List Nat)
    (l : Nat) : (scanOut w a (pre ++ l :: post))[pre.length]? =
      some (if pre = [] then scanStart w else (reduceValue w (pre.map a)).val) := by
  simp only [scanOut, hx, if_true]
  rcases List.eq_nil_or_concat pre with rfl | ⟨init, q, rfl⟩
  · exact congrArg some (scanIdentity_eq_scanStart hw)
  · rw [if_neg (by simp), List.concat_eq_append, List.length_append, List.append_assoc, List.dropLast_append_of_ne_nil (by simp)]
    exact redScan_value hw a init (l :: post).dropLast q

/-- What lane l of a scan over the lanes of m receives. -/
def scanResult (w : Lane) (m : LaneMask) (a : Nat → Word32) (l : Nat) : FRes :=
  ⟨((((maskLanes m).zip (scanOut w a (maskLanes m))).find? (fun p => p.1 == l)).map Prod.snd).getD 0,
    (((redScan w a none (if w.xop.getLsbD 3 then (maskLanes m).dropLast else maskLanes m)).getLast?).map (fun p => p.2.fl)).getD 0⟩

theorem scanResult_fl {w : Lane} (hw : reductionForm w) (m : LaneMask) (a : Nat → Word32) (l : Nat) :
    (scanResult w m a l).fl = (scanValue w m a l).fl :=
  (redScan_last_fl ..).trans (accOf_fl hw _)

theorem scanResult_val {w : Lane} (hw : reductionForm w) (m : LaneMask) (a : Nat → Word32) {l : Nat} (hl : l ∈ maskLanes m) :
    (scanResult w m a l).val = (scanValue w m a l).val := by
  have sorted : (maskLanes m).Pairwise (· < ·) := List.pairwise_lt_range.filter _
  unfold scanResult scanValue
  generalize maskLanes m = ls at hl sorted
  obtain ⟨pre, post, rfl⟩ := List.append_of_mem hl
  have others : ∀ j ∈ pre, j ≠ l := fun j hj => ((before_lt_after_gt sorted).1 j hj).ne
  cases hx : w.xop.getLsbD 3
  · rw [find?_zip others (scanOut_inclusive hw hx a pre post l)]
    simp [filter_le_eq_upTo sorted]
  · rw [find?_zip others (scanOut_exclusive hw hx a pre post l)]
    simp [filter_lt_eq_before sorted]

theorem scanResult_eq_scanValue {w : Lane} (hw : reductionForm w) (m : LaneMask) (a : Nat → Word32) {l : Nat} (hl : l ∈ maskLanes m) :
    scanResult w m a l = scanValue w m a l :=
  congrArg₂ FRes.mk (scanResult_val hw m a hl) (scanResult_fl hw m a l)

theorem vscan_next {w : Lane} {s : State} {x : Issue} {a b c : Nat → Word32} {g : Group} (h : LaneReady w s x a b c g)
    (hw : reductionForm w) (hp : g.pendingIn (x.dst w) (x.on w) = false)
    (ht : noTrap g (x.on w) (fun l => (scanValue w (x.on w) a l).fl)) :
    exec (.vscan w) s = .next (x.wrote s w g (scanValue w (x.on w) a)) := by
  rw [← wrote_congr fun l hl => scanResult_eq_scanValue hw (x.on w) a hl]
  simp only [← scanResult_fl hw] at ht
  dsimp only [exec]
  exact issueAlu_lanes h rfl hp ht

/-- Settles O9: the accumulations over the active lanes have the values of `reduceValue` on the lanes that each covers. -/
theorem reductionsAndScansFollowLaneOrder : Obligations.ReductionsAndScansFollowLaneOrder :=
  fun _ _ _ _ _ _ _ h hw => ⟨fun _ hn hs ht => vreduce_scalar h hw hn hs ht,
    fun hd hp => ⟨vreduce_lanes h hw hd hp, vscan_next h hw hp⟩⟩

end Sys2Proof.Machine
end

section
/-!
PROOFS. Access arithmetic and predicates (O19): a word whose registers are ready completes, and what each computes on 64 bits is its
table's value.
-/
namespace Sys2Proof.Machine

/-! ### Words whose registers are ready (06 R166) -/

/-- A word whose sources are full and whose destinations wait for no fill does what it says. -/
theorem accessWord_runs {s : State} {gid : Nat} {g : Group} {srcs dsts : List SReg} (h : AccessReady s gid g srcs dsts)
    (f : Nat → Group → Out) : s.accessWord srcs dsts f = f gid g := by
  have full : srcs.all g.fullS = true := List.all_eq_true.2 h.full
  have room : dsts.all (fun d => !g.busyS d) = true := List.all_eq_true.2 fun d hd => by rw [h.room d hd]; rfl
  simp only [State.accessWord, h.issuer, full, room, Bool.and_self, if_true]

/-- A word with no register operand is ready wherever its program stands. -/
theorem accessReady_nil {s : State} {gid : Nat} {g : Group} (hx : s.accessIssuer = some (gid, g)) : AccessReady s gid g [] [] :=
  ⟨hx, nofun, nofun⟩

theorem accessOp_writes {s : State} {gid : Nat} {g : Group} {srcs : List SReg} {d : SReg} (h : AccessReady s gid g srcs [d])
    (f : Group → Word64) : s.accessOp srcs d f = .next (s.accessNext gid (g.writeS d (f g))) :=
  accessWord_runs h _

/-! ### Arithmetic on 64 bits (06 R168-R170) -/

theorem ofNat64_toNat (x : Word64) : BitVec.ofNat 64 x.toNat = x := by rw [BitVec.ofNat_toNat, BitVec.setWidth_eq]

theorem add64_eq (x y : Word64) : x + y = BitVec.ofNat 64 (x.toNat + y.toNat) := by
  rw [BitVec.ofNat_add, ofNat64_toNat, ofNat64_toNat]

theorem sub64_eq (x y : Word64) : x - y = BitVec.ofInt 64 ((x.toNat : Int) - y.toNat) := by
  rw [Int.sub_eq_add_neg, BitVec.ofInt_add, BitVec.ofInt_neg, BitVec.ofInt_natCast, BitVec.ofInt_natCast, ofNat64_toNat,
    ofNat64_toNat, BitVec.sub_eq_add_neg]

theorem mul64_eq (x y : Word64) : x * y = BitVec.ofNat 64 (x.toNat * y.toNat) := by
  rw [BitVec.ofNat_mul, ofNat64_toNat, ofNat64_toNat]

/-- A shift by an amount below 64 multiplies; by another one it leaves 0. -/
theorem shl64_eq (x k : Word64) : shl64 x k = if k.toNat < 64 then BitVec.ofNat 64 (x.toNat * 2 ^ k.toNat) else 0 := by
  rw [shl64, ← ite_not]
  refine if_congr Nat.not_le (BitVec.eq_of_toNat_eq ?_) rfl
  rw [BitVec.toNat_shiftLeft, Nat.shiftLeft_eq, BitVec.toNat_ofNat]

theorem shr64_eq (x k : Word64) : shr64 x k = if k.toNat < 64 then BitVec.ofNat 64 (x.toNat / 2 ^ k.toNat) else 0 := by
  rw [shr64, ← ite_not]
  refine if_congr Nat.not_le ?_ rfl
  rw [← Nat.shiftRight_eq_div_pow, ← BitVec.toNat_ushiftRight, ofNat64_toNat]

theorem sar64_eq (x k : Word64) : sar64 x k = BitVec.ofInt 64 (x.toInt / 2 ^ min k.toNat 63) := by
  rw [sar64, BitVec.sshiftRight_eq, Int.shiftRight_eq_div_pow, Nat.cast_pow, Nat.cast_ofNat]

theorem rot64_eq (x k : Word64) : rot64 x k = (x <<< (k.toNat % 64)) ||| (x >>> (64 - k.toNat % 64)) := by
  rw [rot64, BitVec.rotateLeft_def, Nat.mod_mod]

/-- Choosing the operand whose value is the lesser one gives the minimum of the values. -/
theorem ite_lt_eq_min {α β : Type} [LinearOrder β] {f : α → β} {r : β → α} (hr : Function.LeftInverse r f) (x y : α) :
    (if f y < f x then y else x) = r (min (f x) (f y)) := by
  rcases lt_or_ge (f y) (f x) with h | h
  · rw [if_pos h, min_eq_right h.le, hr]
  · rw [if_neg h.not_gt, min_eq_left h, hr]

theorem ite_lt_eq_max {α β : Type} [LinearOrder β] {f : α → β} {r : β → α} (hr : Function.LeftInverse r f) (x y : α) :
    (if f x < f y then y else x) = r (max (f x) (f y)) :=
  ite_lt_eq_min (β := βᵒᵈ) hr x y

theorem min64_eq (x y : Word64) : (if y.toInt < x.toInt then y else x) = BitVec.ofInt 64 (min x.toInt y.toInt) :=
  ite_lt_eq_min (fun _ => BitVec.ofInt_toInt) x y

theorem max64_eq (x y : Word64) : (if x.toInt < y.toInt then y else x) = BitVec.ofInt 64 (max x.toInt y.toInt) :=
  ite_lt_eq_max (fun _ => BitVec.ofInt_toInt) x y

theorem minu64_eq (x y : Word64) : (if y.toNat < x.toNat then y else x) = BitVec.ofNat 64 (min x.toNat y.toNat) :=
  ite_lt_eq_min ofNat64_toNat x y

theorem maxu64_eq (x y : Word64) : (if x.toNat < y.toNat then y else x) = BitVec.ofNat 64 (max x.toNat y.toNat) :=
  ite_lt_eq_max ofNat64_toNat x y

theorem rem64_eq (x y : Word64) :
    rem64 x y = if y = 0 then x else BitVec.ofInt 64 (x.toInt - y.toInt * x.toInt.tdiv y.toInt) := by
  rw [rem64, Int.tmod_def]

/-- The remainder by 0 is the dividend, as that of natural numbers is. -/
theorem remu64_eq (x y : Word64) : remu64 x y = BitVec.ofNat 64 (x.toNat % y.toNat) := by
  by_cases h : y = 0
  · subst h
    exact (ofNat64_toNat x).symm.trans (congrArg (BitVec.ofNat 64) (Nat.mod_zero _).symm)
  · rw [remu64, if_neg h]

theorem accessTable_exec (s : State) (d a b : SReg) : ∀ p ∈ accessTable d a b, exec p.1 s = s.accessAlu d a b p.2 := by
  simp only [accessTable, List.forall_mem_cons, List.not_mem_nil, false_imp_iff, implies_true, and_true, ← add64_eq, ← sub64_eq,
    ← mul64_eq, ← shl64_eq, ← shr64_eq, ← sar64_eq, ← rot64_eq, ← min64_eq, ← max64_eq, ← minu64_eq, ← maxu64_eq, ← rem64_eq,
    ← remu64_eq]
  and_intros
  all_goals rfl

/-! ### Immediates (06 R169, R170) -/

theorem addi64_eq (x : Word64) (i : BitVec 10) : x + i.signExtend 64 = BitVec.ofInt 64 (x.toInt + i.toInt) := by
  rw [BitVec.ofInt_add, BitVec.ofInt_toInt]; rfl

theorem toNat_setWidth_imm (i : BitVec 10) : (i.setWidth 64).toNat = i.toNat := BitVec.toNat_setWidth_of_le (by decide)

theorem immediateTable_exec (s : State) (d a : SReg) (i : BitVec 10) :
    ∀ p ∈ immediateTable d a i, exec p.1 s = s.accessImm d a p.2 := by
  simp only [immediateTable, List.forall_mem_cons, List.not_mem_nil, false_imp_iff, implies_true, and_true, ← toNat_setWidth_imm,
    ← addi64_eq, ← shl64_eq, ← shr64_eq, ← sar64_eq]
  and_intros
  all_goals rfl

/-- EXTI appends its 18 bits below those of the register. -/
theorem exti64_eq (x : Word64) (n : BitVec 18) : (x <<< 18) ||| n.setWidth 64 = BitVec.ofNat 64 (x.toNat * 2 ^ 18 + n.toNat) := by
  rw [← Nat.shiftLeft_eq, Nat.shiftLeft_add_eq_or_of_lt n.isLt]
  apply BitVec.eq_of_toNat_eq
  rw [BitVec.toNat_or, BitVec.toNat_shiftLeft, BitVec.toNat_setWidth, BitVec.toNat_ofNat, Nat.or_mod_two_pow]

/-! ### Predicates (06 R171, R172) -/

theorem accessCond_iff (c : BitVec 2) (x y : Word64) : accessCond c x y = true ↔
    (c = 0 ∧ x = y) ∨ (c = 1 ∧ x ≠ y) ∨ (c = 2 ∧ x.toInt < y.toInt) ∨ (c = 3 ∧ x.toNat < y.toNat) := by
  obtain rfl | rfl | rfl | rfl : c = 0 ∨ c = 1 ∨ c = 2 ∨ c = 3 := by revert c; decide
  all_goals simp [accessCond]

theorem kTable_exec (s : State) (d a b : SReg) : ∀ p ∈ kTable d a b, exec p.1 s = s.accessK d a b p.2 := by
  simp only [kTable, List.forall_mem_cons, List.not_mem_nil, false_imp_iff, implies_true, and_true]
  and_intros
  all_goals rfl

/-- Settles O19: each word issues through the operation of its form, on its table's value. -/
theorem accessArithmeticWritesItsTable : Obligations.AccessArithmeticWritesItsTable := by
  refine ⟨fun s gid g d a b i n => ⟨fun h p hp => ?_, fun h p hp => ?_, fun h => accessOp_writes h _, fun h => ?_⟩,
    fun s gid g c d a b => ⟨fun h => ⟨_, accessWord_runs h _, accessCond_iff c _ _⟩, fun h p hp => ?_⟩⟩
  · exact (accessTable_exec s d a b p hp).trans (accessOp_writes h _)
  · exact (immediateTable_exec s d a i p hp).trans (accessOp_writes h _)
  · rw [← exti64_eq]
    exact accessOp_writes h _
  · exact (kTable_exec s d a b p hp).trans (accessWord_runs h _)

end Sys2Proof.Machine
end

section
/-!
PROOFS. Access memory words (O21): each row of the table is an issue of `State.accessMem`, which starts one access or stops the program.
-/
namespace Sys2Proof.Machine

/-! ### Addresses (06 R173) -/

theorem add_off10_eq (x : Word64) (i : BitVec 10) : x + off10 i = BitVec.ofInt 64 (x.toNat + i.toInt) := by
  rw [BitVec.ofInt_add, BitVec.ofInt_natCast, ofNat64_toNat]
  rfl

theorem add_off4_eq (x : Word64) (n : BitVec 4) : x + off4 n = BitVec.ofInt 64 (x.toNat + 8 * n.toNat) := by
  have off : off4 n = BitVec.ofNat 64 (8 * n.toNat) := by
    rw [off4, BitVec.ofNat_mul, BitVec.ofNat_toNat]
    rfl
  rw [BitVec.ofInt_add, BitVec.ofInt_natCast, ofNat64_toNat, off, ← BitVec.ofInt_natCast]
  push_cast
  rfl

/-! ### The issue of an access (06 R174, R175) -/

/-- The access that a memory word of a group starts. -/
def startedAccess (s : State) (g : Group) (addr : VAddr) (size : Nat) (kind : Kind) (sc : Scope) (what : AccWhat) : LaneAcc :=
  { op := s.nextId, stream := .access, entry := 0, index := 0, pc := g.apc, lane := 0, po := 0, fence := 0, addr := addr, size := size,
    kind := kind, scope := sc, nt := false, what := what, stage := .issued, place := .cached 0, key := 0, home := 0, efmt := 0, gap := 1,
    record := none, faultCause := .xlate, faultSub := 0, faultLevel := 0, faultAddr := 0 }

section Issue
variable {s : State} {gid : Nat} {g : Group} {srcs dsts : List SReg} {a : SReg} (h : AccessReady s gid g (a :: srcs) dsts) (off : VAddr)
  (size : Nat) (kind : Kind) (sc : Scope) (what : Group → AccWhat)
include h

theorem accessMem_starts (aligned : (g.readS a + off).toNat % size = 0) : s.accessMem srcs dsts a off size kind sc what =
    .next { (s.perfOf gid 4).setGroup gid { g with
        accs := g.accs ++ [startedAccess s g (g.readS a + off) size kind sc (what g)], aLoad := some s.nextId } with
      nextId := s.nextId + 1 } :=
  (accessWord_runs h _).trans (if_neg (not_not.2 aligned))

theorem accessMem_misaligned (odd : (g.readS a + off).toNat % size ≠ 0) : s.accessMem srcs dsts a off size kind sc what =
    .next (s.accessTrap gid g .align (g.readS a + off) 0 false) :=
  (accessWord_runs h _).trans (if_pos odd)

end Issue

/-- Each row issues an access at the row's offset, of its size, kind and scope, which does what the row says. -/
theorem accessMemoryTable_exec (s : State) (d a : SReg) (i : BitVec 10) (k : BitVec 2) (sc : Scope) (n : BitVec 4) (g : Group) :
    ∀ p ∈ accessMemoryTable d a i k sc n g, ∃ (off : VAddr) (what : Group → AccWhat),
      exec p.1 s = s.accessMem p.2.1 p.2.2.1 a off p.2.2.2.2.1 p.2.2.2.2.2.1 p.2.2.2.2.2.2.1 what ∧ what g = p.2.2.2.2.2.2.2 ∧
      ∀ x : Word64, x + off = BitVec.ofInt 64 (x.toNat + p.2.2.2.1) := by
  simp only [accessMemoryTable, List.forall_mem_cons, List.not_mem_nil, false_imp_iff, implies_true, and_true]
  refine ⟨?_, ?_, ?_, ?_, ?_, ?_, ?_, ?_⟩
  case refine_1 | refine_2 | refine_3 | refine_4 => exact ⟨off10 i, _, rfl, rfl, fun x => add_off10_eq x i⟩
  all_goals exact ⟨off4 n, _, rfl, rfl, fun x => add_off4_eq x n⟩

/-- Settles O21: the row's word issues `State.accessMem`, whose two ends are the two clauses. -/
theorem accessMemoryWordsStartTheirAccess : Obligations.AccessMemoryWordsStartTheirAccess := by
  intro s gid g d a i k sc n p hp h
  obtain ⟨off, what, hexec, hwhat, hoff⟩ := accessMemoryTable_exec s d a i k sc n g p hp
  dsimp only
  rw [hexec, ← hwhat, ← hoff]
  exact ⟨fun aligned => ⟨_, _, _, accessMem_starts h off _ _ _ what aligned, group_setGroup_self _ _ _, rfl, rfl, rfl, rfl, rfl, rfl, rfl,
    rfl, rfl, rfl, rfl, fun _ => rfl⟩, accessMem_misaligned h off _ _ _ what⟩

end Sys2Proof.Machine
end

section
/-!
PROOFS. Access control words (O22) and special words (O23): where the program goes on, and what a stop leaves.
-/
namespace Sys2Proof.Machine

/-! ### Branches and links (06 R176, R177) -/

theorem branchPC_eq (g : Group) (o : BitVec 23) : g.branchPC o = branchTarget g o := by
  have four : (4 : PC) * o.signExtend 57 = BitVec.ofInt 57 (4 * o.toInt) := by
    rw [BitVec.ofInt_mul]
    rfl
  rw [Group.branchPC, branchTarget, BitVec.ofInt_add, BitVec.ofInt_natCast, BitVec.ofNat_toNat, BitVec.setWidth_eq, four]

theorem writeS_link (g : Group) : g.writeS linkReg g.linkValue = g.putS 191 (BitVec.ofNat 64 (g.apc + 4).toNat) := by
  rw [BitVec.ofNat_toNat]
  rfl

section Control
variable {s : State} {gid : Nat} {g : Group} (hx : s.accessIssuer = some (gid, g))
include hx

theorem br_moves (k : BitVec 2) (n : Bool) (o : BitVec 23) : exec (.br k n o) s =
    .next (if xor (g.getK k.toNat) n then s.accessJump gid g (branchTarget g o) else s.accessNext gid g) := by
  rw [← branchPC_eq]
  exact accessWord_runs (accessReady_nil hx) _

theorem calla_notTaken {k : BitVec 2} {n : Bool} (o : BitVec 23) (ht : xor (g.getK k.toNat) n = false) :
    exec (.calla k n o) s = .next (s.accessNext gid g) := by
  show execCalla k n o s = _
  simp [execCalla, hx, Group.branchTaken, ht]

theorem calla_taken {k : BitVec 2} {n : Bool} (o : BitVec 23) (ht : xor (g.getK k.toNat) n = true) (hl : g.busyS 191 = false) :
    exec (.calla k n o) s =
      .next (s.accessJump gid (g.putS 191 (BitVec.ofNat 64 (g.apc + 4).toNat)) (branchTarget g o)) := by
  show execCalla k n o s = _
  have free : g.busyS linkReg = false := hl
  simp [execCalla, hx, Group.branchTaken, ht, free, writeS_link, branchPC_eq]

end Control

/-! ### Jumps to a register (06 R177, R178) -/

/-- A jump's register is full, and its link register waits for no fill. -/
theorem jumpReg_ready {s : State} {gid : Nat} {g : Group} {a : SReg} (hx : s.accessIssuer = some (gid, g)) (hf : g.fullS a = true)
    {link : Bool} (hl : link = true → g.busyS 191 = false) : AccessReady s gid g [a] (if link then [linkReg] else []) := by
  refine ⟨hx, fun r hr => ?_, fun r hr => ?_⟩
  · rwa [List.mem_singleton.1 hr]
  · cases link
    · cases hr
    · rw [List.mem_singleton.1 hr]
      exact hl rfl

section JumpReg
variable {s : State} {gid : Nat} {g : Group} {a : SReg} {link : Bool} (h : AccessReady s gid g [a] (if link then [linkReg] else []))
include h

theorem accessJumpReg_jumps (aligned : (g.readS a).toNat % 4 = 0) (canon : canonical (g.readS a) = true) :
    s.accessJumpReg a link = .next (s.accessJump gid
      (if link then g.putS 191 (BitVec.ofNat 64 (g.apc + 4).toNat) else g) ((g.readS a).setWidth 57)) := by
  rw [← writeS_link]
  exact (accessWord_runs h _).trans ((if_neg (not_not.2 aligned)).trans (if_pos canon))

theorem accessJumpReg_misaligned (odd : (g.readS a).toNat % 4 ≠ 0) :
    s.accessJumpReg a link = .next (s.accessTrap gid g .align (g.readS a) 0 false) :=
  (accessWord_runs h _).trans (if_pos odd)

end JumpReg

/-! ### Stops (06 R180; 20 R429) -/

theorem group_of_accessIssuer {s : State} {gid : Nat} {g : Group} (h : s.accessIssuer = some (gid, g)) : s.group gid = some g := by
  unfold State.accessIssuer at h
  split at h
  · split at h
    · cases h
    · next hg =>
      split at h
      · cases h; exact hg
      · cases h
  · cases h

/-- The group whose program a trap has stopped. -/
def Group.stoppedBy (g : Group) (r : TrapRec) (next : Bool) : Group :=
  { g with aStopped := true, aTrap := some { r with acc := true }, aNext := next }

theorem group_trapAccess {s : State} {gid : Nat} {g : Group} (hg : s.group gid = some g) (r : TrapRec) (next : Bool) :
    (s.trapAccess gid r next).group gid = some (g.stoppedBy r next) := by
  rw [State.trapAccess, group_notice, group_updGroup_self, hg]
  rfl

/-- The record of TRAP and BKPT, without its mark of the access program. -/
def Group.breakRecord (g : Group) (cause : Cause) (c : BitVec 10) : TrapRec :=
  { TrapRec.of cause 0 0 g.apc 0 0 with code := BitVec.ofNat 16 c.toNat }

theorem breakRecord_code (g : Group) (cause : Cause) (c : BitVec 10) : (g.breakRecord cause c).code.toNat = c.toNat :=
  (BitVec.toNat_ofNat ..).trans (Nat.mod_eq_of_lt (c.isLt.trans (by decide)))

/-- A stop without group-stop leaves the lanes alone (20 R430). -/
theorem accessBreak_stops {s : State} {gid : Nat} {g : Group} (hx : s.accessIssuer = some (gid, g)) (hg : g.gstop = false)
    (cause : Cause) (c : BitVec 10) : ∃ (t : State) (g' : Group) (r : TrapRec), s.accessBreak cause c = .next t ∧
      t.group gid = some g' ∧ g'.aStopped = true ∧ g'.aTrap = some r ∧ g'.aNext = true ∧ g'.apc = g.apc ∧ r.cause = cause ∧
      r.code.toNat = c.toNat ∧ r.acc = true ∧ r.pc = g.apc ∧ g'.s = g.s ∧ g'.k = g.k ∧ g'.table = g.table := by
  let g' := g.stoppedBy (g.breakRecord cause c) true
  have stopped : ((s.perfOf gid 4).accessTrap gid g cause 0 c.toNat true).group gid = some g' :=
    group_trapAccess (s := s.perfOf gid 4) (group_of_accessIssuer hx) (g.breakRecord cause c) true
  have lanesGoOn : (if g'.gstop then g'.requestStop else g') = g' := if_neg (ne_true_of_eq_false hg)
  refine ⟨_, g', { g.breakRecord cause c with acc := true }, accessWord_runs (accessReady_nil hx) _, ?_, rfl, rfl, rfl, rfl, rfl,
    breakRecord_code g cause c, rfl, rfl, rfl, rfl, rfl⟩
  rw [group_updGroup_self, stopped, Option.map_some, lanesGoOn]

/-- Settles O22: each control word's rule, with the ready form that its premises give. -/
theorem accessControlWordsMoveTheProgram : Obligations.AccessControlWordsMoveTheProgram := by
  refine ⟨fun s gid g k n o a hx => ?_, fun s gid g c hx hg p hp => ?_⟩
  · have plain (hf : g.fullS a = true) : AccessReady s gid g [a] (if false then [linkReg] else []) := jumpReg_ready hx hf nofun
    have linked (hf : g.fullS a = true) (hl : g.busyS 191 = false) : AccessReady s gid g [a] (if true then [linkReg] else []) :=
      jumpReg_ready hx hf (fun _ => hl)
    exact ⟨br_moves hx k n o, calla_notTaken hx o, calla_taken hx o,
      fun hf al ca => ⟨accessJumpReg_jumps (plain hf) al ca, fun hl => accessJumpReg_jumps (linked hf hl) al ca⟩,
      fun hf odd => ⟨accessJumpReg_misaligned (plain hf) odd, fun hl => accessJumpReg_misaligned (linked hf hl) odd⟩,
      accessWord_runs (accessReady_nil hx) _, accessWord_runs (accessReady_nil hx) _⟩
  · simp only [List.mem_cons, List.not_mem_nil, or_false] at hp
    rcases hp with rfl | rfl
    · exact accessBreak_stops hx hg .trap c
    · exact accessBreak_stops hx hg .bkpt c

/-! ### Special registers and fullness (06 R181, R182) -/

theorem sState_setSState (g : Group) (n : Nat) (f : Fullness) : (g.setSState n f).sState n = f := rd_wr_self ..

theorem fullS_setSState {g : Group} {d : SReg} (hd : d ≠ 0xFF) (f : Fullness) : (g.setSState d.toNat f).fullS d = (f == .full) := by
  rw [Group.fullS, sState_setSState, beq_eq_false_iff_ne.2 hd, Bool.false_or]

theorem accessSrd_exec (s : State) (gid : Nat) (g : Group) (d : SReg) (h : AccessReady s gid g [] [d]) (n : BitVec 6) :
    exec (.accessSrd d n) s = .next (s.accessNext gid (g.writeS d (s.sreadAccess g n.toNat))) :=
  accessOp_writes h _

/-- Settles O23: the special register that SRD reads and SWR writes by its number, and the fullness that SETE and SETF leave. -/
theorem accessSpecialWordsWriteTheirTable : Obligations.AccessSpecialWordsWriteTheirTable := by
  refine fun s gid g d => ⟨fun h => ?_, fun h => ⟨accessWord_runs h _, accessWord_runs h _⟩, fun h hd => ?_⟩
  · simp only [List.forall_mem_cons, List.not_mem_nil, false_imp_iff, implies_true, and_true]
    exact ⟨accessSrd_exec s gid g d h 0x02, accessSrd_exec s gid g d h 0x03, accessSrd_exec s gid g d h 0x11,
      accessSrd_exec s gid g d h 0x12⟩
  · exact ⟨accessWord_runs h _, accessWord_runs h _, fullS_setSState hd .empty, fullS_setSState hd .full, rfl⟩

end Sys2Proof.Machine
end

section
/-!
PROOFS. Queue words and engine commands (O25): what every command leaves at its issue, and what each hands over.
-/
namespace Sys2Proof.Machine

/-! ### The issue of a command (06 R184) -/

/-- The state after a command has issued, before its engine takes it. -/
def State.commanded (s : State) (gid : Nat) (g : Group) (t : SReg) (cls : Option Cls) : State :=
  ({ s with nextId := s.nextId + 1 }.perfOf gid 4).setGroup gid (g.commanded s.nextId t cls)

theorem group_commanded (s : State) (gid : Nat) (g : Group) (t : SReg) (cls : Option Cls) :
    (s.commanded gid g t cls).group gid = some (g.commanded s.nextId t cls) := group_setGroup_self _ _ _

theorem engineReady_access {s : State} {gid : Nat} {g : Group} {t a : SReg} {k : Nat} {cls : Option Cls}
    (h : EngineReady s gid g t a k cls) : AccessReady s gid g (descRegs a k) [t] := by
  refine ⟨h.issuer, fun r hr => ?_, fun r hr => ?_⟩
  · obtain ⟨i, hi, rfl⟩ := List.mem_map.1 hr
    exact h.full i (List.mem_range.1 hi)
  · rw [List.mem_singleton.1 hr]
    exact h.room

/-- A command that is ready and that its engine accepts issues, and its engine takes the descriptor's values. -/
theorem engineWord_issues {s : State} {gid : Nat} {g : Group} {t a : SReg} {k : Nat} {cls : Option Cls}
    (h : EngineReady s gid g t a k cls) {ready : Group → Bool} (accepts : ready g = true)
    (f : State → Nat → Nat → Group → List Word64 → State) :
    s.engineWord t a k cls ready f = .next (f (s.commanded gid g t cls) s.nextId gid g (descriptorOf g a k)) := by
  have values : (descRegs a k).map g.readS = descriptorOf g a k := List.map_map
  refine (accessWord_runs (engineReady_access h) _).trans ?_
  cases cls with
  | none => simp only [accepts, values]; rfl
  | some c => simp only [accepts, values, beq_eq_false_iff_ne.2 (h.counter c rfl)]; rfl

theorem nth_descriptorOf (g : Group) (a : SReg) {k i : Nat} (hi : i < k) :
    nth 0 (descriptorOf g a k) i = g.readS (a + BitVec.ofNat 8 i) := by
  simp [nth, descriptorOf, hi]

theorem nth_descriptorOf_zero (g : Group) (a : SReg) {k : Nat} (hk : 0 < k) : nth 0 (descriptorOf g a k) 0 = g.readS a := by
  rw [nth_descriptorOf g a hk]
  exact congrArg g.readS (BitVec.add_zero a)

/-! ### AGE words (06 R185; 17 R376) -/

theorem ageOf_setAge_ne (g : Group) {x y : Nat} (a : Age) (h : y ≠ x) : (g.setAge x a).ageOf y = g.ageOf y :=
  congrArg (fun r => r.getD Age.reset) (look_put_ne g.age a h)

/-- A command that counts in no class changes its token's fullness and the place of the program alone. -/
theorem commanded_uncounted (g : Group) (id : Nat) (t : SReg) : (g.commanded id t none).apc = g.apc + 4 ∧
    (∀ y, (g.commanded id t none).ageOf y = g.ageOf y) ∧ (t ≠ 0xFF → (g.commanded id t none).sState t.toNat = .pending) := by
  rw [show g.commanded id t none = (if t = 0xFF then g else g.setSState t.toNat .pending).accessDone from rfl]
  split
  · next h => exact ⟨rfl, fun _ => rfl, fun ht => (ht h).elim⟩
  · exact ⟨rfl, fun _ => rfl, fun _ => sState_setSState g t.toNat .pending⟩

/-- A word that changes its group after it has issued as a command without a counter. -/
theorem group_commanded_upd (s : State) (gid : Nat) (g : Group) (t : SReg) (cls : Option Cls) (f : Group → Group) :
    ((s.commanded gid g t cls).updGroup gid f).group gid = some (f (g.commanded s.nextId t cls)) := by
  rw [group_updGroup_self, group_commanded, Option.map_some]

theorem agset_sets {s : State} {gid : Nat} {g : Group} {a : SReg} (z q x : BitVec 2) (h : EngineReady s gid g 0xFF a 2 none)
    (idle : (g.ageOf x.toNat).busy = false) :
    ∃ (u : State) (g' : Group), exec (.agset z q x a) s = .next u ∧ u.group gid = some g' ∧ g'.apc = g.apc + 4 ∧
      (g'.ageOf x.toNat).st = .set ∧ (g'.ageOf x.toNat).base = (g.readS a).toNat % 2 ^ 57 ∧
      (g'.ageOf x.toNat).len = (g.readS (a + 1)).toNat % 2 ^ 40 ∧ (g'.ageOf x.toNat).size = z.toNat ∧
      (g'.ageOf x.toNat).queue = q.toNat ∧ ∀ y, y ≠ x.toNat → g'.ageOf y = g.ageOf y := by
  obtain ⟨next, kept, -⟩ := commanded_uncounted g s.nextId 0xFF
  dsimp only [exec, execAgset]
  refine ⟨_, _, engineWord_issues h (by rw [idle]; rfl) _, group_commanded_upd .., next, ?_⟩
  rw [ageOf_setAge, nth_descriptorOf_zero g a (by decide), nth_descriptorOf g a (by decide : 1 < 2)]
  exact ⟨rfl, BitVec.toNat_setWidth .., BitVec.toNat_setWidth .., rfl, rfl, fun y hy => (ageOf_setAge_ne _ _ hy).trans (kept y)⟩

theorem aggo_runs {s : State} {gid : Nat} {g : Group} {t : SReg} (x : BitVec 2) (h : EngineReady s gid g t 0xFF 0 none)
    (idle : (g.ageOf x.toNat).busy = false) :
    ∃ (u : State) (g' : Group), exec (.aggo t x) s = .next u ∧ u.group gid = some g' ∧ g'.apc = g.apc + 4 ∧
      (g'.ageOf x.toNat).st = .run ∧ (g'.ageOf x.toNat).next = 0 ∧ (g'.ageOf x.toNat).token = t ∧
      (t ≠ 0xFF → g'.sState t.toNat = .pending) := by
  obtain ⟨next, -, pending⟩ := commanded_uncounted g s.nextId t
  dsimp only [exec, execAggo]
  refine ⟨_, _, engineWord_issues h (by rw [idle]; rfl) _, group_commanded_upd .., next, ?_⟩
  rw [ageOf_setAge]
  exact ⟨rfl, rfl, rfl, pending⟩

theorem aghalt_halts {s : State} {gid : Nat} {g : Group} (x : BitVec 2) (hx : s.accessIssuer = some (gid, g)) :
    ∃ (u : State) (g' : Group), exec (.aghalt x) s = .next u ∧ u.group gid = some g' ∧ g'.apc = g.apc + 4 ∧
      (g'.ageOf x.toNat).halt = (if (g.ageOf x.toNat).st = .run then true else (g.ageOf x.toNat).halt) := by
  have ready : EngineReady s gid g 0xFF 0xFF 0 none := ⟨hx, nofun, rfl, nofun⟩
  obtain ⟨next, kept, -⟩ := commanded_uncounted g s.nextId 0xFF
  dsimp only [exec, execAghalt]
  refine ⟨_, _, engineWord_issues ready rfl _, group_commanded_upd .., ?_⟩
  rw [kept]
  split
  · exact ⟨next, congrArg Age.halt (ageOf_setAge ..)⟩
  · exact ⟨next, congrArg Age.halt (kept x.toNat)⟩

/-! ### QPUT (06 R185; 17 R372) -/

section Qput
variable {s : State} {gid : Nat} {g : Group} {a : SReg} (h : AccessReady s gid g [a] []) {q : BitVec 2}
  (room : (g.queue q.toNat).length < 16)
include h room

theorem qputRegister_enqueues : exec (.qputRegister q a) s =
    .next (s.accessNext gid (g.enqueue q.toNat (List.replicate 64 ((g.readS a).setWidth 32)))) :=
  (accessWord_runs h _).trans (if_neg (by simp [Group.queueFull, room]))

/-- A copy from the scratchpad reads 256 bytes of the team's. -/
theorem qputMemory_enqueues {g0 : Group} {tm : Team} {l : Launch} (hw : s.where' gid = some (g0, tm, l)) (ht : s.team g.tid = some tm)
    (aligned : (g.readS a).toNat % 256 = 0) (above : scratchBase ≤ (g.readS a).toNat)
    (below : (g.readS a).toNat + 256 ≤ scratchBase + scratchSize l) (first : g.earlier none = []) :
    exec (.qputMemory q a) s = .next (s.accessNext gid (g.enqueue q.toNat
      (entryValues ((List.range 256).map (fun i => rd 0 tm.scratch ((g.readS a).toNat - scratchBase + i)))))) := by
  refine (accessWord_runs h _).trans ?_
  simp only [hw, ht, Option.map_some, Option.getD_some]
  rw [if_neg (not_not.2 aligned), if_neg (not_or.2 ⟨above.not_gt, below.not_gt⟩), if_neg (by simp [Group.queueFull, room, first])]

end Qput

theorem length_entryValues (bs : List Byte) : (entryValues bs).length = 64 := by simp [entryValues]

/-- The value of a lane is that of its four bytes. -/
theorem entryValues_map_range (f : Nat → Byte) {lane : Nat} (hl : lane < 64) :
    (entryValues ((List.range 256).map f))[lane]? = some (BitVec.ofNat 32 (ofBytes ((List.range 4).map (fun i => f (4 * lane + i))))) := by
  have four : (((List.range 256).map f).drop (4 * lane)).take 4 = (List.range 4).map (fun i => f (4 * lane + i)) :=
    List.ext_getElem (by simp; omega) (by simp)
  simp [entryValues, hl, four]

/-! ### Engine commands (06 R183, R184; 17 R384) -/

/-- The fields of a collective's third descriptor word. -/
theorem bits_collective (x : Word64) : bits x.toNat 31 0 = x.toNat % 2 ^ 32 ∧ bits x.toNat 41 32 = x.toNat / 2 ^ 32 % 1024 ∧
    bits x.toNat 63 48 = x.toNat / 2 ^ 48 := by
  have := x.isLt
  simp only [bits, Nat.shiftRight_eq_div_pow]
  omega

theorem collWord_issues {s : State} {gid : Nat} {g : Group} {t a : SReg} (h : EngineReady s gid g t a 4 (some .cl)) (op : Nat)
    (bf16 : Bool) : ∃ (u : State) (o : CollOp), s.collWord t a op bf16 = .next u ∧ u.collOps = s.collOps ++ [o] ∧ o.id = s.nextId ∧
      o.gid = gid ∧ o.token = t ∧ o.op = op ∧ o.bf16 = bf16 ∧ o.n = (g.readS (a + 2)).toNat % 2 ^ 32 ∧
      o.m = (g.readS (a + 2)).toNat / 2 ^ 32 % 1024 ∧ o.cid = (g.readS (a + 2)).toNat / 2 ^ 48 ∧
      u.group gid = some (g.commanded s.nextId t (some .cl)) ∧ u.nextId = s.nextId + 1 := by
  have third : nth 0 (descriptorOf g a 4) 2 = g.readS (a + 2) := nth_descriptorOf g a (by decide)
  obtain ⟨hn, hm, hcid⟩ := bits_collective (g.readS (a + 2))
  rw [← third] at hn hm hcid ⊢
  exact ⟨_, _, engineWord_issues h rfl _, rfl, rfl, rfl, rfl, rfl, rfl, hn, hm, hcid, group_commanded .., rfl⟩

theorem textWord_issues {s : State} {gid : Nat} {g : Group} {t a : SReg} {k : Nat} (h : EngineReady s gid g t a k (some .tr))
    (kind : TextKind) {ready : Group → Bool} (accepts : ready g = true) :
    ∃ (u : State) (o : TextOp), s.textWord t a k kind ready = .next u ∧ u.textOps = s.textOps ++ [o] ∧ o.id = s.nextId ∧ o.gid = gid ∧
      o.token = t ∧ o.kind = kind ∧ o.desc = descriptorOf g a k ∧ o.die = g.die ∧
      u.group gid = some (g.commanded s.nextId t (some .tr)) ∧ u.nextId = s.nextId + 1 :=
  ⟨_, _, engineWord_issues h accepts _, rfl, rfl, rfl, rfl, rfl, rfl, rfl, group_commanded .., rfl⟩

/-- Settles O25: queue words by their rules above, and each command by the issue that all of them share. -/
theorem engineWordsComplete : Obligations.EngineWordsComplete := by
  refine ⟨fun s gid g z q x t a => ⟨agset_sets z q x, aggo_runs x, aghalt_halts x, fun h room => ⟨qputRegister_enqueues h room, ?_⟩⟩,
    fun s gid g t a bf16 priv slot => ⟨fun h => ?_, fun h p hp => ?_, fun p hp h mail => ?_, fun h => ?_⟩⟩
  · exact fun g0 tm l hw ht aligned above below first => ⟨_, qputMemory_enqueues h room hw ht aligned above below first,
      length_entryValues _, fun lane hl => (entryValues_map_range _ hl).trans (by simp only [Nat.add_assoc])⟩
  · dsimp only [exec, execCpnd]
    exact ⟨_, _, engineWord_issues h rfl _, rfl, rfl, rfl, rfl, rfl, rfl, group_commanded .., rfl⟩
  · simp only [List.mem_cons, List.not_mem_nil, or_false] at hp
    rcases hp with rfl | rfl | rfl
    · exact collWord_issues h 0 bf16
    · exact collWord_issues h 1 bf16
    · exact collWord_issues h 2 bf16
  · simp only [List.mem_cons, List.not_mem_nil, or_false] at hp
    rcases hp with rfl | rfl | rfl | rfl
    · exact textWord_issues h (.txtok priv) rfl
    · exact textWord_issues h .txdet rfl
    · exact textWord_issues h .txload rfl
    · exact textWord_issues h .mbpost (decide_eq_true (mail rfl))
  · dsimp only [exec, execDload]
    exact ⟨_, _, engineWord_issues h rfl _, rfl, rfl, rfl, rfl, nth_descriptorOf_zero g a Nat.one_pos, rfl, group_commanded .., rfl⟩

end Sys2Proof.Machine
end

section
/-!
PROOFS. Control instructions at issue (O16; 07 R191, R192): what each leaves for the completion of its run.
-/
namespace Sys2Proof.Machine

/-- After a control instruction that left the transfer t for its run's completion (07 R192). -/
def Issue.doneLeaving (x : Issue) (s : State) (g : Group) (t : Xfer) : State :=
  x.done s (g.updEntry x.e (fun en => { en with xfer := some t }))

/-! ### One target for all active lanes -/

/-- Offsets count words of 12 bytes: the PC that one names (07 R191), from integers. -/
theorem add_words_eq (pc : PC) {n : Nat} (off : BitVec n) :
    pc + 12 * off.signExtend 57 = BitVec.ofInt 57 (pc.toNat + 12 * off.toInt) := by
  rw [BitVec.ofInt_add, BitVec.ofInt_natCast, BitVec.ofNat_toNat, BitVec.setWidth_eq, BitVec.ofInt_mul]
  rfl

theorem wordTarget_eq (x : Issue) (off : BitVec 32) :
    x.wordTarget off = (BitVec.ofInt 57 (x.pc.toNat + 12 * off.toInt)).signExtend 64 := by
  rw [Issue.wordTarget, add_words_eq]

theorem rejoin_eq (x : Issue) (off : BitVec 27) :
    x.rejoin off = if off = 0 then none else some (BitVec.ofInt 57 (x.pc.toNat + 12 * off.toInt)) := by
  rw [Issue.rejoin, add_words_eq]

/-! ### Sets of equal targets -/

theorem targetSets_snd (m : LaneMask) (t : Nat → VAddr) : (targetSets m t).map Prod.snd = ((maskLanes m).map t).dedup := by
  simp [targetSets, Function.comp_def]

theorem mem_targetSets {m : LaneMask} {t : Nat → VAddr} {q : LaneMask × VAddr} : q ∈ targetSets m t ↔
    ∃ k, (k < 64 ∧ inMask m k = true) ∧ (maskOf (fun l => inMask m l && t l == t k), t k) = q := by
  simp only [targetSets, List.mem_map, List.mem_dedup, exists_exists_and_eq_and, mem_maskLanes]

/-- Every lane stands in the set of its own target. -/
theorem targetSets_cover {m : LaneMask} (t : Nat → VAddr) {l : Nat} (hl : l < 64) (hm : inMask m l = true) :
    ∃ q ∈ targetSets m t, inMask q.1 l = true :=
  ⟨_, mem_targetSets.2 ⟨l, ⟨hl, hm⟩, rfl⟩, by rw [inMask_maskOf _ hl, hm, beq_self_eq_true]; rfl⟩

theorem inMask_of_mem_targetSets {m : LaneMask} {t : Nat → VAddr} {q : LaneMask × VAddr} (hq : q ∈ targetSets m t) {l : Nat}
    (hl : l < 64) : inMask q.1 l = true ↔ inMask m l = true ∧ q.2 = t l := by
  obtain ⟨k, -, rfl⟩ := mem_targetSets.1 hq
  rw [inMask_maskOf _ hl, Bool.and_eq_true, beq_iff_eq, eq_comm (a := t l)]

/-! ### The words -/

section Words
variable {s : State} {x : Issue} {neg : Bool} {gp : BitVec 3}

theorem control_leaves (hx : s.issuer = some x) (free : x.commitWait = false) (f : Issue → LaneMask → Xfer) :
    s.control neg gp f = .next (x.doneLeaving s x.g (f x (x.active gp neg))) := by
  rw [State.control, hx]
  exact if_neg (ne_true_of_eq_false free)

/-- Each row's word is a `State.control` of the row's transfer. -/
theorem controlTable_leaves (hx : s.issuer = some x) (free : x.commitWait = false) (j : Jump) (w : Lane) :
    ∀ p ∈ controlTable j w x.pc, let (i, neg, gp, kind, target, rc, num) := p
      exec i s = .next (x.doneLeaving s x.g (x.xfer kind (x.active gp neg) target rc num)) := by
  simp only [controlTable, ← wordTarget_eq, ← rejoin_eq, List.forall_mem_cons, List.not_mem_nil, false_imp_iff, implies_true,
    and_true]
  dsimp only [exec, execBra, execCall, execRet, execBrk, execExit, execTrap, execBkpt, execNop]
  simp only [control_leaves hx free, and_self]

theorem indirect_leaves (h : BareReady gp neg s x) {dst : Operand} {v b c : Nat → Word32} {g : Group}
    (fetched : s.fetch x 0 ⟨dst, false, x.active gp neg⟩ ⟨.zero, false, x.active gp neg⟩ ⟨.zero, false, x.active gp neg⟩ =
      .ok v b c g none) (kind : XferKind) (rc : Issue → Option PC) :
    let m := x.active gp neg
    let sets := targetSets m (fun l => x.pc.signExtend 64 + (v l).signExtend 64)
    s.indirect neg gp dst kind rc = .next (x.doneLeaving s g
      { kind := kind, active := m, parts := sets, indirect := true, rc := rc x, num := 0, at' := x.pc }) := by
  simp only [State.indirect, h.issuer, h.free, h.lanes, fetched, Bool.false_eq_true, if_false]
  rfl

end Words

/-- Settles O16: a plain control word leaves its one target, JMPI and CALLI the sets of equal targets, one for each target read. -/
theorem controlWordsLeaveTheirTransfer : Obligations.ControlWordsLeaveTheirTransfer := by
  refine ⟨fun j w s x hx free => controlTable_leaves hx free j w, fun j w s x p hp h v b c g fetched => ?_⟩
  have runs : ∀ kind rc, s.indirect p.2.1 p.2.2.1 p.2.2.2.1 kind rc = _ := indirect_leaves h fetched
  refine ⟨targetSets _ _, ?_, targetSets_snd .. ▸ List.nodup_dedup _, fun _ => targetSets_cover _,
    fun _ hq _ => inMask_of_mem_targetSets hq⟩
  simp only [List.mem_cons, List.not_mem_nil, or_false] at hp
  rcases hp with rfl | rfl
  · exact runs .jump (fun x => x.rejoin j.rejoin)
  · exact runs .call (fun _ => none)

end Sys2Proof.Machine
end

section
/-!
PROOFS. Tree operations at their arrival (O50; 09 R229-R236, R240): what the operation's unit performs is its reply, and what each
kind performs.
-/
namespace Sys2Proof.Machine

/-! ### Results by lane -/

/-- The first pair of a table of values that names an index of it. -/
theorem find?_map_pair {β : Type} (v : Nat → β) {l : Nat} : ∀ {ls : List Nat}, l ∈ ls →
    (ls.map (fun i => (i, v i))).find? (fun p => p.1 = l) = some (l, v l)
  | i :: r, h => by
    by_cases e : i = l
    · subst e
      simp
    · simpa [e] using find?_map_pair v ((List.mem_cons.1 h).resolve_left (Ne.symm e))

theorem laneRes_laneVals {o : TreeOp} (f : Word32 → Word32) {l : Nat} (hl : l < 64) (hm : inMask o.lanes l) :
    (laneRes (o.laneVals.map (fun p => (p.1, f p.2))))[l]? = some (f (o.x[l]?.getD 0)) := by
  have pair := find?_map_pair (fun l => f (nth 0 o.x l)) (mem_maskLanes.2 ⟨hl, hm⟩)
  have here : (laneRes (o.laneVals.map (fun p => (p.1, f p.2))))[l]? = some (f (nth 0 o.x l)) := by
    simp only [laneRes, TreeOp.laneVals, List.map_map, Function.comp_def, List.getElem?_map, List.getElem?_range hl, Option.map_some, pair,
      Option.getD_some]
  exact here.trans (by rw [nth, List.getD_eq_getElem?_getD])

theorem maskLanes_laneBit {l : Nat} (hl : l < 64) : maskLanes (laneBit l) = [l] := by
  have one : maskLanes (laneBit l) = lanes64.filter (· == l) :=
    List.filter_congr fun i hi => laneBit_getLsbD (List.mem_range.1 hi)
  rw [one, List.filter_beq, lanes64, List.count_eq_one_of_mem List.nodup_range (List.mem_range.2 hl), List.replicate_one]

theorem laneVals_of_laneBit {o : TreeOp} {l : Nat} (hl : l < 64) (h : o.lanes = laneBit l) :
    o.laneVals = [(l, o.x[l]?.getD 0)] := by
  rw [TreeOp.laneVals, h, maskLanes_laneBit hl]
  simp [nth]

theorem bits_of_lt {x lo : Nat} (hi : Nat) (h : x < 2 ^ lo) : bits x hi lo = 0 := by
  rw [bits, Nat.shiftRight_eq_div_pow, Nat.div_eq_of_lt h, Nat.zero_mod]

theorem lt_of_bits_top {a : Word64} {lo : Nat} (hlo : lo ≤ 64) (h : bits a.toNat 63 lo = 0) : a.toNat < 2 ^ lo := by
  have small : a.toNat >>> lo < 2 ^ (63 + 1 - lo) := by
    rw [Nat.shiftRight_eq_div_pow, Nat.div_lt_iff_lt_mul (Nat.two_pow_pos lo), ← Nat.pow_add, Nat.sub_add_cancel hlo]
    exact a.isLt
  rw [bits, Nat.mod_eq_of_lt small, Nat.shiftRight_eq_div_pow] at h
  exact (Nat.div_eq_zero_iff_lt (Nat.two_pow_pos lo)).1 h

/-! ### The reply -/

section Arrival
variable {s : State} {o : TreeOp} {g : Group} {c : Actx}

theorem arrival_replies (h : ArrivalReady s o g c) {s1 : State} {res : List Word32} {no : Bool}
    (performed : s.performTr o g c = some (s1, res, no)) :
    exec (.treeOperationArrival o.id) s = .next (s1.replied o.id res no) := by
  obtain ⟨sent, group, space, unanswered, turn, loaded⟩ := h
  dsimp only [exec, execTreeOperationArrival]
  simp only [sent, group, space, unanswered, turn, loaded, performed]
  rfl

/-- Each of these kinds looks its tree up first. -/
theorem performTr_dead (dead : o.tree s = none)
    (kind : o.kind ∈ [.tradd, .trfork, .pruneBr, .pruneSub, .commit, .kvRd 0, .kvRd 1, .kvOwn 0, .kvOwn 1] ++
      (List.range 8).map TreeKind.info) :
    s.performTr o g c = some (s, allRes (treeErr stDEADTREE), false) := by
  unfold State.performTr
  generalize o.kind = k at kind
  cases k <;> simp_all

theorem performTr_info {key : Nat} {t : Tree} (found : o.tree s = some (key, t)) {f : Nat} (kind : o.kind = .info f) :
    s.performTr o g c = some (s, laneRes (o.laneVals.map (fun p => (p.1, infoOf t f p.2.toNat))), false) := by
  simp [State.performTr, kind, found]

theorem performTr_pruneBr {key : Nat} {t : Tree} (found : o.tree s = some (key, t)) (kind : o.kind = .pruneBr) :
    s.performTr o g c = some ((s.pruneBr o key t).1, allRes (s.pruneBr o key t).2, false) := by
  simp [State.performTr, kind, found]

theorem performTr_trnew (kind : o.kind = .trnew) :
    s.performTr o g c = some ((s.trnew o c.root).1, allRes (s.trnew o c.root).2, false) := by
  simp [State.performTr, kind]

end Arrival

/-! ### TRINFO (R236) -/

section Info
variable {t : Tree} {f x : Nat}

theorem infoOf_node (hf : f < 6) (hx : x < 65536) {n : Node} (hn : look t.nodes x = some n) :
    infoOf t f x = BitVec.ofNat 32 (nodeItem n f) := by
  have plain : f ≠ 7 ∧ f ≠ 6 := by omega
  simp only [infoOf, Tree.node, plain, hn, Nat.div_eq_of_lt hx, if_false, ne_eq, not_true_eq_false]
  interval_cases f <;> rfl

theorem infoOf_deadNode (hf : f < 6) (hx : x < 65536) (hn : look t.nodes x = none) : infoOf t f x = treeErr stDEADNODE := by
  have plain : f ≠ 7 ∧ f ≠ 6 := by omega
  simp [infoOf, Tree.node, plain, hn, Nat.div_eq_of_lt hx]

theorem infoOf_badNumber (hf : f < 7) (hx : 65536 ≤ x) : infoOf t f x = treeErr stBADARG := by
  have wide : x / 65536 ≠ 0 := by omega
  rw [infoOf, if_neg (Nat.ne_of_lt hf), if_pos wide]

theorem infoOf_leaf (hx : x < 65536) {b : Branch} (hb : look t.branches x = some b) :
    infoOf t 6 x = BitVec.ofNat 32 b.leaf := by
  simp [infoOf, hb, Nat.div_eq_of_lt hx, word32]

end Info

/-! ### TRADD (R232) -/

/-- A tree to whose branch b the node n has been added, a child of its leaf p in the leaf's segment: the tree keeps no pages and has
no grammar. -/
def Tree.withChild (t : Tree) (b p : Nat) (pn : Node) (token n : Nat) : Tree :=
  let d := pn.depth + 1
  ({ t with nodes := put t.nodes n ⟨token, d, pn.seg, p, 0, decide (t.layers = 0), 0, 0⟩ }.updSeg pn.seg
    (fun x => { x with last := n, dlast := d })).updBranch b (fun br => { br with leaf := n })

section Add
variable {s : State} {t : Tree} {b n : Nat} {br : Branch} {pn : Node}

theorem addNode_plain (key part : Nat) {tok : Word32} (hb : look t.branches b = some br) (hp : look t.nodes br.leaf = some pn)
    (token : tok.toNat < 2 ^ 18) (room : t.nodes.length < 65536) (own : t.bset pn.seg = laneBit b) (gset : t.gset = 0)
    (layers : t.layers = 0) (free : lowestFree t.nodes 0 65536 = some n) :
    s.addNode key t part b tok = some (s, t.withChild b br.leaf pn tok.toNat n, .ok n) := by
  have leaf : t.leafOf b = br.leaf := by simp [Tree.leafOf, hb]
  have seg : t.segOf br.leaf = pn.seg := by simp [Tree.segOf, Tree.node, hp]
  simp [State.addNode, Tree.node, leaf, seg, hp, bits_of_lt 31 token, Nat.ne_of_lt room, own, gset, State.gstep, State.incCell,
    State.addSlot, hb, layers, free, Tree.withChild]

theorem performTr_tradd {o : TreeOp} {g : Group} {c : Actx} {key l : Nat} (found : o.tree s = some (key, t))
    (kind : o.kind = .tradd) (hl : l < 64) (lanes : o.lanes = laneBit l) (live : look t.branches o.b.toNat = some br)
    (number : o.b.toNat ≤ 63) {t' : Tree} {n : Nat}
    (added : s.addNode key t o.part o.b.toNat (o.x[l]?.getD 0) = some (s, t', .ok n)) :
    s.performTr o g c = some (s.setTree key t', laneRes [(l, BitVec.ofNat 32 n)], false) := by
  have lane : s.addLanes key t o.part o.b.toNat none o.laneVals = some (s, t', [(l, BitVec.ofNat 32 n)]) := by
    rw [laneVals_of_laneBit hl lanes]
    simp only [State.addLanes, added]
    rfl
  simp [State.performTr, kind, found, Nat.not_lt.2 number, Tree.live', live, lane]

theorem laneRes_one {l : Nat} (hl : l < 64) (w : Word32) : (laneRes [(l, w)])[l]? = some w := by
  simp [laneRes, hl]

variable (p token : Nat)

theorem node_withChild : look (t.withChild b p pn token n).nodes n =
    some ⟨token, pn.depth + 1, pn.seg, p, 0, decide (t.layers = 0), 0, 0⟩ := look_put_self _ _ _

theorem node_withChild_ne {m : Nat} (h : m ≠ n) : look (t.withChild b p pn token n).nodes m = look t.nodes m := look_put_ne _ _ h

theorem leafOf_withChild (hb : look t.branches b = some br) : (t.withChild b p pn token n).leafOf b = n := by
  simp [Tree.withChild, Tree.leafOf, Tree.updBranch, Tree.updSeg, look_upd_self, hb]

theorem branch_withChild_ne {k : Nat} (h : k ≠ b) : look (t.withChild b p pn token n).branches k = look t.branches k :=
  look_upd_ne _ _ h

end Add

/-! ### TRNEW (R231) -/

/-- The tree that TRNEW makes in a slot of generation gen: a root node, a branch and a segment, with no pages and no grammar. -/
def Tree.planted (gen part root token : Nat) : Tree :=
  { live := true, gen := gen, owner := part, gset := 0, layers := 0, busy := false, root := root,
    nodes := [(0, ⟨token, 0, 1, noParent, 0, true, 0, 0⟩)], branches := [(0, ⟨0, 0, [], 0⟩)], segs := [(1, ⟨0, 0, 0, 0, 0, 1⟩)],
    lastbr := 0, ages := 1, comp := none }

theorem trnew_plain {s : State} {o : TreeOp} (root : Nat) {i : Nat} (plain : bits o.a.toNat 63 18 = 0)
    (free : s.freeTreeSlot o.die = some i) :
    let gen := ((look s.trees (treeKey o.die i)).map Tree.gen).getD 1
    s.trnew o root = (s.setTree (treeKey o.die i) (Tree.planted gen o.part root (bits o.a.toNat 17 0)),
      BitVec.ofNat 32 (handleOf o.die i gen)) := by
  have small : o.a.toNat < 2 ^ 18 := lt_of_bits_top (by decide) plain
  have zero : ∀ {lo} hi, 18 ≤ lo → bits o.a.toNat hi lo = 0 := fun hi h =>
    bits_of_lt hi (Nat.lt_of_lt_of_le small (Nat.pow_le_pow_right (by decide) h))
  simp [State.trnew, zero, free, State.newTree, Tree.planted, word32]

/-- Settles O50: each operation's reply is what its unit performs, read off by kind. -/
theorem treeOperationsArrive : Obligations.TreeOperationsArrive := by
  intro s o g c ready
  refine ⟨fun s1 res no => arrival_replies ready, fun dead kind => arrival_replies ready (performTr_dead dead kind), ?_, ?_⟩
  · intro key t found
    refine ⟨?_, ?_, ?_, ?_⟩
    · intro f kind
      refine ⟨_, arrival_replies ready (performTr_info found kind), fun l hl hm => ?_⟩
      rw [laneRes_laneVals (fun w => infoOf t f w.toNat) hl hm]
      exact ⟨fun hf hx n hn => congrArg some (infoOf_node hf hx hn), fun hf hx hn => congrArg some (infoOf_deadNode hf hx hn),
        fun hf hx => congrArg some (infoOf_badNumber hf hx), fun hf hx b hb => congrArg some (hf ▸ infoOf_leaf hx hb)⟩
    · intro kind number
      have bad : s.pruneBr o key t = (s, treeErr stBADARG) := if_pos number
      exact arrival_replies ready ((performTr_pruneBr found kind).trans (by rw [bad]))
    · intro kind number gone
      have dead : s.pruneBr o key t = (s, treeErr stDEADNODE) := by
        simp [State.pruneBr, Nat.not_lt.2 number, Tree.live', gone]
      exact arrival_replies ready ((performTr_pruneBr found kind).trans (by rw [dead]))
    · rintro l _ pn n br kind lanes hl hb number rfl hp token room own gset layers free
      have added := addNode_plain (s := s) key o.part hb hp token room own gset layers free
      exact ⟨_, _, _, _, arrival_replies ready (performTr_tradd found kind hl lanes hb number added), laneRes_one hl _,
        look_put_self _ _ _, node_withChild _ _, rfl, rfl, rfl, rfl, leafOf_withChild _ _ hb, fun m => node_withChild_ne _ _,
        fun k => branch_withChild_ne _ _⟩
  · intro i kind plain free
    have made := trnew_plain c.root plain free
    exact ⟨_, _, arrival_replies ready (made ▸ performTr_trnew kind), look_put_self _ _ _, rfl, rfl, rfl, rfl,
      ⟨_, rfl, rfl, rfl, rfl, rfl⟩, ⟨_, rfl, rfl⟩, ⟨_, rfl, rfl⟩, fun k => look_put_ne _ _⟩

end Sys2Proof.Machine
end

section
/-!
SUPPORT. Fills of a destination over lanes, read back (04 R124).
-/
namespace Sys2Proof.Machine

section Fill
variable (g : Group) (d : Dest) (x : Word64) {k l j : Nat} (hl : l < 64) (hj : j < 64)
include hl hj

theorem getV_land : (g.land d j x).getV k l = if d = .v k ∧ l = j then x.setWidth 32 else g.getV k l := by
  cases d with
  | v n => simpa [Group.land, eq_comm (a := k)] using getV_putV g (k := n) (k' := k) (x.setWidth 32) hj hl
  | _ => exact (if_neg fun h => nomatch h.1).symm

theorem vState_land : (g.land d j x).vState k l = if d = .v k ∧ l = j then .full else g.vState k l := by
  cases d with
  | v n => simpa [Group.land, eq_comm (a := k)] using vState_putV g (k := n) (k' := k) (x.setWidth 32) hj hl
  | _ => exact (if_neg fun h => nomatch h.1).symm

theorem getT_land : (g.land d j x).getT k l = if d = .t k ∧ l = j then x.setWidth 32 else g.getT k l := by
  cases d with
  | t n => simpa [Group.land, eq_comm (a := k)] using getT_putT g (k := n) (k' := k) (x.setWidth 32) hj hl
  | _ => exact (if_neg fun h => nomatch h.1).symm

theorem tState_land : (g.land d j x).tState k l = if d = .t k ∧ l = j then .full else g.tState k l := by
  cases d with
  | t n => simpa [Group.land, eq_comm (a := k)] using tState_putT g (k := n) (k' := k) (x.setWidth 32) hj hl
  | _ => exact (if_neg fun h => nomatch h.1).symm

end Fill

/-- What a write in each lane gives the reading of its own lane, a write over lanes gives it in the lanes of the mask. -/
theorem overLanes_read {γ : Type} (r : Group → γ) (f : Group → Nat → Group) {P : Prop} [Decidable P] (v : Nat → γ) {l : Nat}
    (hl : l < 64) (step : ∀ g j, j < 64 → r (f g j) = if P ∧ l = j then v j else r g) (g : Group) (m : LaneMask) :
    r (g.overLanes m f) = if P ∧ inMask m l then v l else r g := by
  have fold : ∀ (ls : List Nat), (∀ j ∈ ls, j < 64) → ∀ g, r (ls.foldl f g) = if P ∧ l ∈ ls then v l else r g := by
    intro ls
    induction ls with
    | nil => simp
    | cons j t ih =>
      intro hls g
      rw [List.foldl_cons, ih (fun i hi => hls i (List.mem_cons_of_mem _ hi)), step g j (hls j List.mem_cons_self)]
      by_cases hp : P <;> by_cases h : l = j <;> simp [hp, h]
  simpa [Group.overLanes, mem_maskLanes, hl] using fold (maskLanes m) maskLanes_lt g

theorem land_keeps {γ : Type} (r : Group → γ) (hv : ∀ g k l x, r (Group.putV g k l x) = r g)
    (ht : ∀ g k l x, r (Group.putT g k l x) = r g) (hs : ∀ g k x, r (Group.putS g k x) = r g) (g : Group) (d : Dest) (l : Nat)
    (x : Word64) : r (g.land d l x) = r g := by
  cases d with
  | none => rfl
  | v k => exact hv g k l _
  | t k => exact ht g k l _
  | s k => exact hs g k _

theorem s_land {d : Dest} (hd : ∀ k, d ≠ .s k) (g : Group) (l : Nat) (x : Word64) : (g.land d l x).s = g.s := by
  cases d with
  | s k => exact absurd rfl (hd k)
  | _ => rfl

end Sys2Proof.Machine
end

section
/-!
SUPPORT. Kills among groups (09 R244): a kill concerns its own group alone.
-/
namespace Sys2Proof.Machine

theorem tellMembers_groups (s : State) (tid what : Nat) : (s.tellMembers tid what).groups = s.groups := by
  unfold State.tellMembers
  split
  · rfl
  · split
    · rfl
    · refine foldl_keeps State.groups _ (fun s m => ?_) _ s
      rfl

theorem departTest_groups (s : State) (tid : Nat) : (s.departTest tid).groups = s.groups := by
  unfold State.departTest
  split
  · rfl
  · split
    · rfl
    · exact tellMembers_groups _ _ _

/-- A killed group's engine work ends: some of its operations complete, and no other group is concerned. -/
theorem killEngines_groups (s : State) (gid : Nat) :
    ∃ ids : List Nat, (s.killEngines gid).groups = upd s.groups gid (fun g => ids.foldl Group.finOp g) := by
  unfold State.killEngines State.finAll State.updGroup
  dsimp only
  refine ⟨_, congrArg (fun m => upd m gid _) ?_⟩
  refine (foldl_keeps State.groups _ (fun s o => ?_) _ _).trans (foldl_keeps State.groups _ (fun s o => ?_) _ s)
  · rfl
  · rfl

theorem killGroup_groups {s : State} {gid : Nat} {g : Group} (h : s.group gid = some g) (live : ¬(g.killed ∨ g.retired)) :
    ∃ ids : List Nat, (s.killGroup gid).groups = upd (upd s.groups gid (fun g => ids.foldl Group.finOp g)) gid Group.kill := by
  obtain ⟨ids, he⟩ := killEngines_groups s gid
  refine ⟨ids, ?_⟩
  simp only [State.killGroup, h, if_neg live]
  rw [departTest_groups, retestBars_keeps State.groups putBar_groups (fun _ _ => rfl)]
  exact congrArg (fun m => upd m gid Group.kill) he

theorem killGroup_of_dead {s : State} {gid : Nat} {g : Group} (h : s.group gid = some g) (dead : g.killed ∨ g.retired) :
    s.killGroup gid = s := by
  simp only [State.killGroup, h, if_pos dead]

theorem group_killGroup_ne {gid k : Nat} (hk : k ≠ gid) (s : State) : (s.killGroup gid).group k = s.group k := by
  cases h : s.group gid with
  | none => simp only [State.killGroup, h]
  | some g =>
    by_cases live : g.killed ∨ g.retired
    · rw [killGroup_of_dead h live]
    · obtain ⟨ids, he⟩ := killGroup_groups h live
      rw [State.group, he, look_upd_ne _ _ hk, look_upd_ne _ _ hk, State.group]

theorem retired_finOps (ids : List Nat) (g : Group) : (ids.foldl Group.finOp g).retired = g.retired :=
  foldl_keeps Group.retired Group.finOp (fun _ _ => rfl) ids g

theorem retired_killGroup (s : State) (gid k : Nat) :
    ((s.killGroup gid).group k).map Group.retired = (s.group k).map Group.retired := by
  by_cases hk : k = gid
  · subst hk
    cases h : s.group k with
    | none => simp only [State.killGroup, h]
    | some g =>
      by_cases live : g.killed ∨ g.retired
      · rw [killGroup_of_dead h live, h]
      · obtain ⟨ids, he⟩ := killGroup_groups h live
        have hl : look s.groups k = some g := h
        rw [State.group, he, look_upd_self, look_upd_self, hl]
        exact congrArg some (retired_finOps ids g)
  · rw [group_killGroup_ne hk]

/-- A group of this number, if it lives, has been killed. -/
def State.killedAt (s : State) (gid : Nat) : Prop := ∀ g, s.group gid = some g → g.killed = true ∨ g.retired = true

theorem killedAt_killGroup_self (s : State) (gid : Nat) : (s.killGroup gid).killedAt gid := by
  intro g' h'
  cases h : s.group gid with
  | none =>
    simp only [State.killGroup, h] at h'
    cases h'
  | some g =>
    by_cases live : g.killed ∨ g.retired
    · rw [killGroup_of_dead h live, h] at h'
      cases h'
      exact live
    · obtain ⟨ids, he⟩ := killGroup_groups h live
      have hl : look s.groups gid = some g := h
      rw [State.group, he, look_upd_self, look_upd_self, hl] at h'
      cases h'
      exact .inl rfl

theorem killedAt_killGroup {s : State} {k : Nat} (h : s.killedAt k) (gid : Nat) : (s.killGroup gid).killedAt k := by
  by_cases hk : k = gid
  · exact hk ▸ killedAt_killGroup_self s gid
  · exact fun g hg => h g (group_killGroup_ne hk s ▸ hg)

/-- With rising keys each entry of a table is the one that its key looks up. -/
theorem look_of_mem {β : Type} {m : AMap β} (rise : keysRise m = true) {e : Nat × β} (h : e ∈ m) : look m e.1 = some e.2 := by
  induction m with
  | nil => cases h
  | cons f r ih =>
    rcases List.mem_cons.1 h with rfl | h
    · exact if_pos rfl
    · exact (if_neg (Nat.ne_of_lt (keysRise_head rise e h))).trans (ih (keysRise_tail rise) h)

end Sys2Proof.Machine
end

section
/-!
PROOFS. Replies of tree operations (O51; 09 R228, R230, R237; 11 R274), and the broadcasts of cancellations and releases (O51; 09 R244,
R245; 10 R253).
-/
namespace Sys2Proof.Machine

/-! ### What a reply does to the group -/

namespace TreeOp
variable (o : TreeOp) (res : List Word32)

/-- The lanes to which a reply answers DEADNODE or DEADTREE. -/
def deadLanes : LaneMask :=
  maskOf (fun l => inMask o.lanes l && (nth 0 res l == treeErr stDEADNODE || nth 0 res l == treeErr stDEADTREE))

/-- The results in DST. -/
def landed (g : Group) : Group := g.overLanes o.lanes (fun g l => g.land o.dst l ((nth 0 res l).setWidth 64))

/-- GMASK's predicate. -/
def predicated (g : Group) : Group :=
  match o.kind with
  | .gmask p => g.putP p o.lanes (if o.noLegal then BitVec.allOnes 64 else 0)
  | _ => g

/-- Whether a TRTAG has failed. -/
def clears : Bool :=
  match o.kind with
  | .tag => o.deadLanes res != 0
  | _ => false

/-- The tag, which a TRTAG of a dead pair clears. -/
def tagged (g : Group) : Group := if o.clears res ∧ g.tag = o.a.setWidth 32 then { g with tag := 0 } else g

/-- The note for the completion of a run that the operation holds. -/
def noted (g : Group) : Group :=
  if o.chk ∧ o.deadLanes res ≠ 0 ∧ (g.entry o.entry).any (fun en => en.holds.contains o.id) then
    g.notePost o.entry ⟨.deadNode, o.index, o.deadLanes res, 0⟩
  else g

/-- No run waits for the operation any more. -/
def unheld (g : Group) : Group :=
  { g with table := g.table.map (fun (p : Nat × Entry) => (p.1, { p.2 with holds := p.2.holds.filter (fun h => h != o.id) })) }

/-- The group once its operation's reply has come. -/
def answered (g : Group) : Group := (o.unheld (o.noted res (o.tagged res (o.predicated (o.landed res g))))).finOp o.id

end TreeOp

theorem treeReply_lands {s : State} {o : TreeOp} {res : List Word32} (sent : s.treeOps.find? (fun p => p.id = o.id) = some o)
    (reply : o.reply = some res) :
    exec (.treeReply o.id) s =
      .next { s.updGroup o.gid (o.answered res) with treeOps := s.treeOps.filter (fun p => p.id != o.id) } := by
  simp only [exec, execTreeReply, sent, reply]
  rfl

theorem deadLanes_eq (o : TreeOp) (res : List Word32) : o.deadLanes res = maskOf (fun l => inMask o.lanes l &&
    decide (res[l]?.getD 0 = treeErr stDEADNODE ∨ res[l]?.getD 0 = treeErr stDEADTREE)) := by
  simp only [TreeOp.deadLanes, nth, List.getD_eq_getElem?_getD, beq_eq_decide, Bool.decide_or]

theorem clears_iff (o : TreeOp) (res : List Word32) : o.clears res = true ↔ o.kind = .tag ∧ o.deadLanes res ≠ 0 := by
  unfold TreeOp.clears
  split
  · next h => simp [h]
  · next h => exact ⟨nofun, fun hk => (h hk.1).elim⟩

section Reply
variable (o : TreeOp) (res : List Word32) (g : Group)

/-- After its results have landed a reply changes predicates, the tag, the split table and the operations alone. -/
theorem answered_keeps {γ : Type} (r : Group → γ) (hp : ∀ g x, r { g with p := x } = r g) (ht : ∀ g x, r { g with tag := x } = r g)
    (he : ∀ g x, r { g with table := x } = r g) (ho : ∀ g x, r { g with ops := x } = r g) :
    r (o.answered res g) = r (o.landed res g) := by
  have tagged : ∀ g, r (o.tagged res g) = r g := fun g => by
    unfold TreeOp.tagged
    split
    · exact ht g 0
    · rfl
  have noted : ∀ g, r (o.noted res g) = r g := fun g => by
    unfold TreeOp.noted
    split
    · exact he g _
    · rfl
  have predicated : ∀ g, r (o.predicated g) = r g := fun g => by
    unfold TreeOp.predicated
    split
    · rw [putP_eq]
      exact hp g _
    · rfl
  calc r (o.answered res g)
      _ = r (o.unheld (o.noted res (o.tagged res (o.predicated (o.landed res g))))) := ho _ _
      _ = r (o.noted res (o.tagged res (o.predicated (o.landed res g)))) := he _ _
      _ = r (o.landed res g) := by rw [noted, tagged, predicated]

section Registers
variable (k : Nat) {l : Nat} (hl : l < 64)
include hl

theorem getV_answered : (o.answered res g).getV k l = if o.dst = .v k ∧ inMask o.lanes l then res[l]?.getD 0 else g.getV k l := by
  rw [answered_keeps o res g (·.getV k l) (fun _ _ => rfl) (fun _ _ => rfl) (fun _ _ => rfl) (fun _ _ => rfl)]
  simpa [nth, TreeOp.landed] using overLanes_read (·.getV k l) _ (fun j => ((nth 0 res j).setWidth 64).setWidth 32) hl
    (fun g j hj => getV_land g o.dst ((nth 0 res j).setWidth 64) hl hj) g o.lanes

theorem vState_answered : (o.answered res g).vState k l = if o.dst = .v k ∧ inMask o.lanes l then .full else g.vState k l := by
  rw [answered_keeps o res g (·.vState k l) (fun _ _ => rfl) (fun _ _ => rfl) (fun _ _ => rfl) (fun _ _ => rfl)]
  exact overLanes_read (·.vState k l) _ (fun _ => .full) hl (fun g j hj => vState_land g o.dst _ hl hj) g o.lanes

theorem getT_answered : (o.answered res g).getT k l = if o.dst = .t k ∧ inMask o.lanes l then res[l]?.getD 0 else g.getT k l := by
  rw [answered_keeps o res g (·.getT k l) (fun _ _ => rfl) (fun _ _ => rfl) (fun _ _ => rfl) (fun _ _ => rfl)]
  simpa [nth, TreeOp.landed] using overLanes_read (·.getT k l) _ (fun j => ((nth 0 res j).setWidth 64).setWidth 32) hl
    (fun g j hj => getT_land g o.dst ((nth 0 res j).setWidth 64) hl hj) g o.lanes

theorem tState_answered : (o.answered res g).tState k l = if o.dst = .t k ∧ inMask o.lanes l then .full else g.tState k l := by
  rw [answered_keeps o res g (·.tState k l) (fun _ _ => rfl) (fun _ _ => rfl) (fun _ _ => rfl) (fun _ _ => rfl)]
  exact overLanes_read (·.tState k l) _ (fun _ => .full) hl (fun g j hj => tState_land g o.dst _ hl hj) g o.lanes

end Registers

theorem s_answered (hd : ∀ k, o.dst ≠ .s k) : (o.answered res g).s = g.s := by
  rw [answered_keeps o res g Group.s (fun _ _ => rfl) (fun _ _ => rfl) (fun _ _ => rfl) (fun _ _ => rfl)]
  exact overLanes_keeps Group.s _ _ (fun g l => s_land hd g l _) g

/-- What a fill leaves alone its landing leaves alone. -/
theorem landed_keeps {γ : Type} (r : Group → γ) (hv : ∀ g k l x, r (Group.putV g k l x) = r g)
    (ht : ∀ g k l x, r (Group.putT g k l x) = r g) (hs : ∀ g k x, r (Group.putS g k x) = r g) : r (o.landed res g) = r g :=
  overLanes_keeps r _ _ (fun g l => land_keeps r hv ht hs g o.dst l _) g

theorem p_landed : (o.landed res g).p = g.p := landed_keeps o res g Group.p (fun _ _ _ _ => rfl) (fun _ _ _ _ => rfl) (fun _ _ _ => rfl)

theorem tag_landed : (o.landed res g).tag = g.tag :=
  landed_keeps o res g Group.tag (fun _ _ _ _ => rfl) (fun _ _ _ _ => rfl) (fun _ _ _ => rfl)

theorem table_landed : (o.landed res g).table = g.table :=
  landed_keeps o res g Group.table (fun _ _ _ _ => rfl) (fun _ _ _ _ => rfl) (fun _ _ _ => rfl)

theorem p_answered : (o.answered res g).p = (o.predicated (o.landed res g)).p := by
  have tagged : ∀ g, (o.tagged res g).p = g.p := fun g => by unfold TreeOp.tagged; split <;> rfl
  have noted : ∀ g, (o.noted res g).p = g.p := fun g => by unfold TreeOp.noted; split <;> rfl
  exact (noted _).trans (tagged _)

theorem andNot_or (a m : LaneMask) : (a &&& ~~~m) ||| m = a ||| m := by
  ext i hi
  rw [BitVec.getElem_or, BitVec.getElem_and, BitVec.getElem_not, BitVec.getElem_or]
  cases a[i] <;> cases m[i] <;> rfl

theorem getP_answered {p : Nat} (kind : o.kind = .gmask p) (hp : p < 7) :
    (o.answered res g).getP p = if o.noLegal then g.getP p ||| o.lanes else g.getP p &&& ~~~o.lanes := by
  have read : ∀ {g g' : Group}, g.p = g'.p → g.getP p = g'.getP p := fun h => by rw [Group.getP, Group.getP, h]
  have put : o.predicated (o.landed res g) = (o.landed res g).putP p o.lanes (if o.noLegal then BitVec.allOnes 64 else 0) := by
    simp only [TreeOp.predicated, kind]
  rw [read (p_answered o res g), put, getP_putP_self (Nat.ne_of_lt hp), read (p_landed o res g)]
  split
  · rw [BitVec.allOnes_and, andNot_or]
  · simp

theorem p_answered_of_ne (kind : ∀ p, o.kind ≠ .gmask p) : (o.answered res g).p = g.p := by
  rw [p_answered, TreeOp.predicated]
  split
  · next p h => exact absurd h (kind p)
  · exact p_landed o res g

theorem tag_answered : (o.answered res g).tag =
    if o.kind = .tag ∧ o.deadLanes res ≠ 0 ∧ g.tag = o.a.setWidth 32 then 0 else g.tag := by
  have noted : ∀ g, (o.noted res g).tag = g.tag := fun g => by unfold TreeOp.noted; split <;> rfl
  have predicated : ∀ g, (o.predicated g).tag = g.tag := fun g => by
    unfold TreeOp.predicated
    split
    · rw [putP_eq]
    · rfl
  calc (o.answered res g).tag
      _ = (o.tagged res (o.predicated (o.landed res g))).tag := noted _
      _ = if o.kind = .tag ∧ o.deadLanes res ≠ 0 ∧ g.tag = o.a.setWidth 32 then 0 else g.tag := by
        simp only [TreeOp.tagged, predicated, tag_landed, clears_iff, and_assoc]
        split
        · rfl
        · rw [predicated, tag_landed]

theorem entry_unheld (e : Nat) : (o.unheld g).entry e =
    (g.entry e).map (fun en => { en with holds := en.holds.filter (fun h => h != o.id) }) := by
  simp only [TreeOp.unheld, Group.entry]
  induction g.table with
  | nil => rfl
  | cons p r ih =>
    simp only [List.map_cons, look]
    split
    · rfl
    · exact ih

theorem entry_answered (e : Nat) : (o.answered res g).entry e =
    ((o.noted res (o.tagged res (o.predicated (o.landed res g)))).entry e).map
      (fun en => { en with holds := en.holds.filter (fun h => h != o.id) }) := entry_unheld o _ e

theorem entry_tagged (e : Nat) : (o.tagged res (o.predicated (o.landed res g))).entry e = g.entry e := by
  have tagged : ∀ g, (o.tagged res g).table = g.table := fun g => by unfold TreeOp.tagged; split <;> rfl
  have predicated : ∀ g, (o.predicated g).table = g.table := fun g => by
    unfold TreeOp.predicated
    split
    · rw [putP_eq]
    · rfl
  exact congrArg (fun m => look m e) ((tagged _).trans ((predicated _).trans (table_landed o res g)))

theorem unheld_answered {e : Nat} {en : Entry} (h : (o.answered res g).entry e = some en) : o.id ∉ en.holds := by
  rw [entry_answered, Option.map_eq_some_iff] at h
  obtain ⟨en', -, rfl⟩ := h
  simp

theorem noted_answered (chk : o.chk = true) (dead : o.deadLanes res ≠ 0) {en : Entry} (hen : g.entry o.entry = some en)
    (held : o.id ∈ en.holds) :
    ∃ en', (o.answered res g).entry o.entry = some en' ∧ ⟨.deadNode, o.index, o.deadLanes res, 0⟩ ∈ en'.post := by
  have here := (entry_tagged o res g o.entry).trans hen
  have note : o.noted res (o.tagged res (o.predicated (o.landed res g))) =
      (o.tagged res (o.predicated (o.landed res g))).notePost o.entry ⟨.deadNode, o.index, o.deadLanes res, 0⟩ :=
    if_pos ⟨chk, dead, by simp [here, held]⟩
  rw [entry_answered, note, Group.notePost, entry_updEntry_self, here]
  exact ⟨_, rfl, List.mem_append_right _ List.mem_cons_self⟩

end Reply

/-- An answered operation's reply ends it, and answers its group. -/
theorem treeReply_answers {s : State} {o : TreeOp} {g : Group} {res : List Word32}
    (sent : s.treeOps.find? (fun p => p.id = o.id) = some o) (reply : o.reply = some res) (hg : s.group o.gid = some g) :
    ∃ t : State, exec (.treeReply o.id) s = .next t ∧ t.group o.gid = some (o.answered res g) ∧
      (∀ p ∈ t.treeOps, p.id ≠ o.id) ∧ t.mem = s.mem := by
  refine ⟨_, treeReply_lands sent reply, ?_, fun p hp => ?_, rfl⟩
  · exact (group_updGroup_self s o.gid _).trans (congrArg (Option.map _) hg)
  · exact bne_iff_ne.1 (List.mem_filter.1 hp).2

/-! ### Cancellations (R244) -/

section Broadcast
variable {s : State} {b die core : Nat} {x : Bcast}

/-- The groups of a core that a cancellation kills. -/
def State.hitBy (s : State) (x : Bcast) (cid : Nat) : List (Nat × Group) :=
  s.groups.filter (fun g => g.2.coreId = cid && !g.2.killed && !g.2.retired && tagMatches g.2.tag x.pairs &&
    (((s.team g.2.tid).bind (fun t => s.launch t.launch)).map Launch.part == some x.part))

/-- Groups killed one after another by a broadcast. -/
def State.killHit (s : State) (hit : List (Nat × Group)) : State := hit.foldl (fun s g => (s.perfOf g.1 15).killGroup g.1) s

theorem cancelBroadcast_kills (hx : s.bcast b = some x) (hd : die < 2) (hc : core < 96) (cancel : x.release = false)
    (new : coreId die core ∉ x.reached) : exec (.cancelBroadcast b die core) s =
      .next ((s.killHit (s.hitBy x (coreId die core))).setBcast { x with reached := x.reached ++ [coreId die core] }) := by
  dsimp only [exec, execCancelBroadcast]
  simp only [hx]
  exact if_neg (by simp [cancel, new, Nat.not_le.2 hd, Nat.not_le.2 hc])

theorem killHit_killedAt {gid : Nat} {g : Group} {hit : List (Nat × Group)} (h : s.killedAt gid ∨ (gid, g) ∈ hit) :
    (s.killHit hit).killedAt gid :=
  foldl_establishes (P := fun s => s.killedAt gid) (f := fun s (g : Nat × Group) => (s.perfOf g.1 15).killGroup g.1) (b := (gid, g))
    (fun _ => killedAt_killGroup_self _ gid) hit (fun s c _ hs => killedAt_killGroup (s := s.perfOf c.1 15) hs c.1) s h

theorem retired_killHit (s : State) (hit : List (Nat × Group)) (gid : Nat) :
    ((s.killHit hit).group gid).map Group.retired = (s.group gid).map Group.retired :=
  foldl_keeps (fun s : State => (s.group gid).map Group.retired) (fun s (g : Nat × Group) => (s.perfOf g.1 15).killGroup g.1)
    (fun s g => retired_killGroup (s.perfOf g.1 15) g.1 gid) hit s

theorem killHit_kills {gid : Nat} {g : Group} (hg : s.group gid = some g) (live : g.retired = false) {hit : List (Nat × Group)}
    (h : g.killed = true ∨ (gid, g) ∈ hit) : ∃ g', (s.killHit hit).group gid = some g' ∧ g'.killed = true := by
  have kept := retired_killHit s hit gid
  rw [hg, Option.map_some, Option.map_eq_some_iff] at kept
  obtain ⟨g', hg', still⟩ := kept
  have dead : (s.killHit hit).killedAt gid := killHit_killedAt (h.imp_left fun killed u hu => by
    rw [hg] at hu
    cases hu
    exact .inl killed)
  exact ⟨g', hg', (dead g' hg').resolve_right (by simp [still, live])⟩

theorem group_killHit_of_notMem {gid : Nat} {hit : List (Nat × Group)} (h : ∀ g ∈ hit, g.1 ≠ gid) (s : State) :
    (s.killHit hit).group gid = s.group gid := by
  induction hit generalizing s with
  | nil => rfl
  | cons g r ih =>
    obtain ⟨hg, hr⟩ := List.forall_mem_cons.1 h
    exact (ih hr _).trans (group_killGroup_ne hg.symm _)

theorem ne_of_mem_hitBy {cid gid : Nat} {g : Group} (rise : keysRise s.groups = true) (hg : s.group gid = some g)
    (spared : g.coreId ≠ cid ∨ tagMatches g.tag x.pairs = false) {e : Nat × Group} (he : e ∈ s.hitBy x cid) : e.1 ≠ gid := by
  rintro rfl
  obtain ⟨hm, hit⟩ := List.mem_filter.1 he
  have same : some e.2 = some g := (look_of_mem rise hm).symm.trans hg
  cases same
  simp only [Bool.and_eq_true, decide_eq_true_eq] at hit
  rcases spared with h | h
  · exact h hit.1.1.1.1
  · exact absurd (h.symm.trans hit.1.2) Bool.false_ne_true

/-! ### Acknowledgements (R244, R245; 10 R253) -/

theorem cancelAck_acks (hx : s.bcast b = some x) (cancel : x.release = false) (reached : coreId die core ∈ x.reached)
    (new : coreId die core ∉ x.acked)
    (gone : ∀ g ∈ s.groups, g.2.coreId = coreId die core → g.2.killed = true → g.2.accs = []) :
    exec (.cancelAck b die core) s = .next (s.ackBcast x (coreId die core)) := by
  have idle : s.groups.any (fun g => g.2.coreId = coreId die core && g.2.killed && !g.2.accs.isEmpty) = false :=
    List.any_eq_false.2 fun g hg hw => by
      simp only [Bool.and_eq_true, decide_eq_true_eq] at hw
      simp [gone g hg hw.1.1 hw.1.2] at hw
  dsimp only [exec, execCancelAck]
  simp only [hx]
  refine if_neg ?_
  simp only [cancel, List.contains_iff_mem.2 reached, idle]
  simpa using new

/-- What the groups of a core have issued. -/
def State.issuedAt (s : State) (cid : Nat) : List (Nat × Nat) :=
  (s.groups.filter (fun g => g.2.coreId = cid && !g.2.saved)).flatMap
    (fun g => g.2.ops.map (fun o => (g.1, o.id)) ++ g.2.accs.map (fun a => (g.1, a.op)))

theorem mem_issuedAt {gid : Nat} {g : Group} (hg : s.group gid = some g) (saved : g.saved = false) :
    (∀ p ∈ g.ops, (gid, p.id) ∈ s.issuedAt g.coreId) ∧ ∀ a ∈ g.accs, (gid, a.op) ∈ s.issuedAt g.coreId := by
  have here : (gid, g) ∈ s.groups.filter (fun e => e.2.coreId = g.coreId && !e.2.saved) :=
    List.mem_filter.2 ⟨look_mem hg, by simp [saved]⟩
  exact ⟨fun p hp => List.mem_flatMap.2 ⟨_, here, List.mem_append_left _ (List.mem_map_of_mem hp)⟩,
    fun a ha => List.mem_flatMap.2 ⟨_, here, List.mem_append_right _ (List.mem_map_of_mem ha)⟩⟩

theorem releaseBroadcast_waits (hx : s.bcast b = some x) (hd : die < 2) (hc : core < 96) (release : x.release = true)
    (new : coreId die core ∉ x.reached) : exec (.releaseBroadcast b die core) s =
      .next (s.setBcast { x with
        reached := x.reached ++ [coreId die core], waits := x.waits ++ s.issuedAt (coreId die core) }) := by
  dsimp only [exec, execReleaseBroadcast]
  simp only [hx]
  exact if_neg (by simp [release, new, Nat.not_le.2 hd, Nat.not_le.2 hc])

theorem releaseAck_acks (hx : s.bcast b = some x) (release : x.release = true) (reached : coreId die core ∈ x.reached)
    (new : coreId die core ∉ x.acked) (done : x.waits = []) :
    exec (.releaseAck b die core) s = .next (s.ackBcast x (coreId die core)) := by
  dsimp only [exec, execReleaseAck]
  simp only [hx]
  exact if_neg (by simp [release, reached, new, done])

theorem ackBcast_waits (s : State) (cid : Nat) (more : x.acked.length + 1 < 192) (rows : x.rows = []) :
    s.ackBcast x cid = s.setBcast { x with acked := x.acked ++ [cid] } := by
  have open' : (x.acked ++ [cid]).length ≠ 192 := by
    rw [List.length_append, List.length_singleton]
    omega
  simp only [State.ackBcast, rows, List.isEmpty_nil, if_true, if_neg open']

/-- The last acknowledgement frees the broadcast's rows, after the write-backs of the core's cluster. -/
theorem ackBcast_last (s : State) (cid : Nat) (last : x.acked.length + 1 = 192) : ∃ u : State, s.ackBcast x cid =
    { u.freeRowsOf { x with acked := x.acked ++ [cid] } with bcasts := u.bcasts.filter (fun y => y.id != x.id) } := by
  have all : (x.acked ++ [cid]).length = 192 := by simp [last]
  exact ⟨_, if_pos all⟩

theorem rowOf_setRow (s : State) (part row row' : Nat) (v : Row) :
    (s.setRow part row v).rowOf part row' = if row' = row then v else s.rowOf part row' := by
  have key : rowKey part row' = rowKey part row ↔ row' = row := by simp [rowKey]
  simp only [State.rowOf, State.setRow, look_put, key]
  split <;> rfl

theorem rowOf_freeRowsOf (s : State) {r : Nat} (h : r ∈ x.rows) : (s.freeRowsOf x).rowOf x.part r = ⟨.free, 0⟩ := by
  refine foldl_establishes (P := fun s => s.rowOf x.part r = ⟨.free, 0⟩) (b := r) (fun s => ?_) _ (fun s c _ hs => ?_) s
    (.inr (List.mem_mergeSort.2 h))
  · exact (rowOf_setRow s x.part r r _).trans (if_pos rfl)
  · refine (rowOf_setRow s x.part c r _).trans ?_
    split
    · rfl
    · exact hs

end Broadcast

/-- Settles O51: a reply by what it leaves in the group, a cancellation by its kills, an acknowledgement by its count. -/
theorem treeRepliesAndBroadcastsLand : Obligations.TreeRepliesAndBroadcastsLand := by
  refine ⟨fun s o g res sent reply hg => ?_, fun s b die core x hx hd hc => ⟨fun cancel new => ?_, cancelAck_acks hx,
    fun release new => ⟨_, releaseBroadcast_waits hx hd hc release new, fun gid g hg hcid saved => ?_⟩, releaseAck_acks hx,
    ackBcast_waits s _, fun last => ?_⟩⟩
  · rw [← deadLanes_eq]
    obtain ⟨t, runs, group, ended, mem⟩ := treeReply_answers sent reply hg
    refine ⟨t, o.answered res g, runs, group, ?_, ?_, fun p => getP_answered o res g, p_answered_of_ne o res g, s_answered o res g,
      tag_answered o res g, fun e en => unheld_answered o res g, fun chk dead en => noted_answered o res g chk dead, ended, mem⟩
    · intro k l hl hm
      rw [getV_answered _ _ _ _ hl, vState_answered _ _ _ _ hl, getT_answered _ _ _ _ hl, tState_answered _ _ _ _ hl]
      exact ⟨fun hd => ⟨if_pos ⟨hd, hm⟩, if_pos ⟨hd, hm⟩⟩, fun hd => ⟨if_pos ⟨hd, hm⟩, if_pos ⟨hd, hm⟩⟩⟩
    · intro k l hl other
      rw [getV_answered _ _ _ _ hl, vState_answered _ _ _ _ hl]
      exact ⟨if_neg other, if_neg other⟩
  · refine ⟨_, cancelBroadcast_kills hx hd hc cancel new, ?_, ?_⟩
    · intro gid g tm l hg htm hl hcid live tag part
      by_cases killed : g.killed = true
      · exact killHit_kills hg live (.inl killed)
      · refine killHit_kills hg live (.inr (List.mem_filter.2 ⟨look_mem hg, ?_⟩))
        simp [hcid, killed, live, tag, htm, hl, part]
    · intro rise gid g hg spared
      exact (group_killHit_of_notMem (fun e he => ne_of_mem_hitBy rise hg spared he) s).trans hg
  · exact hcid ▸ mem_issuedAt hg saved
  · obtain ⟨u, acked⟩ := ackBcast_last s (coreId die core) last
    rw [acked]
    exact ⟨fun r hr => rowOf_freeRowsOf (x := { x with acked := x.acked ++ [coreId die core] }) u hr,
      fun y hy => bne_iff_ne.1 (List.mem_filter.1 hy).2⟩

end Sys2Proof.Machine
end

section
/-!
PROOFS. Text commands (O55): what each kind of command does when its turn comes (11 R264-R270, R281), and the replacement of a load's
target (11 R265).
-/
namespace Sys2Proof.Machine

/-! ### A command whose turn has come (11 R262) -/

/-- The work of a command by its kind. -/
def State.runText (s : State) (c : Actx) (o : TextOp) : State :=
  match o.kind with
  | .txtok priv => s.runTok c o priv
  | .txdet => s.runDet c o
  | .txload => s.runLoad c o
  | .mbpost => s.runPost c o

section Kinds
variable {s t : State} {op : Nat} {o : TextOp} {c : Actx} (h : TextReady s op o c)
include h

theorem textCommandComplete_runs : exec (.textCommandComplete op) s = .next (s.runText c o) := by
  show execTextCommandComplete op s = _
  unfold execTextCommandComplete
  simp only [h.found, h.space]
  exact if_neg (by simp [h.goes, h.unread, h.turn])

theorem txtok_completes {p : Bool} (hk : o.kind = .txtok p) (work : s.runTok c o p = t) : exec (.textCommandComplete op) s = .next t := by
  rw [textCommandComplete_runs h, State.runText, hk, ← work]

theorem txdet_completes (hk : o.kind = .txdet) (work : s.runDet c o = t) : exec (.textCommandComplete op) s = .next t := by
  rw [textCommandComplete_runs h, State.runText, hk, ← work]

theorem txload_completes (hk : o.kind = .txload) (work : s.runLoad c o = t) : exec (.textCommandComplete op) s = .next t := by
  rw [textCommandComplete_runs h, State.runText, hk, ← work]

theorem mbpost_completes (hk : o.kind = .mbpost) (work : s.runPost c o = t) : exec (.textCommandComplete op) s = .next t := by
  rw [textCommandComplete_runs h, State.runText, hk, ← work]

end Kinds

/-- Whether a group's launch may use the privileged forms (11 R268). -/
def State.privRight (s : State) (gid : Nat) : Bool :=
  match s.where' gid with
  | some (_, _, l) => l.priv
  | none => false

theorem privRight_iff (s : State) (gid : Nat) :
    s.privRight gid = true ↔ ∃ g t l, s.where' gid = some (g, t, l) ∧ l.priv = true := by
  unfold State.privRight
  cases s.where' gid with
  | none => simp
  | some w => simp [Prod.ext_iff, and_assoc]

theorem notRefused {s : State} {gid : Nat} {p : Bool} (may : p = true → s.privRight gid = true) :
    ¬(p = true ∧ (!s.privRight gid) = true) := by
  rintro ⟨hp, h⟩
  rw [may hp] at h
  cases h

section Work
variable {s : State} {c : Actx} {o : TextOp}

/-! ### Tokenizing (11 R266-R268) -/

section Tok
variable {p : Bool} (hk : o.kind = .txtok p)
include hk

theorem badFields_txtok : o.badFields ↔ bits (o.reg 2) 39 35 ≠ 0 ∨ bits (o.reg 2) 63 41 ≠ 0 ∨ bits (o.reg 3) 63 32 ≠ 0 ∨
    2 ^ 31 ≤ bits (o.reg 2) 31 0 ∨ o.reg 1 % 4 ≠ 0 := by rw [TextOp.badFields, hk]

theorem runTok_badFields (hb : o.badFields) : s.runTok c o p = s.endText o (errorValue codeBADARG) :=
  if_pos (decide_eq_true ((badFields_txtok hk).1 hb))

section Good
variable (hb : ¬o.badFields)
include hb

theorem runTok_unprivileged (hp : p = true) (may : s.privRight o.gid = false) :
    s.runTok c o p = s.endText o (errorValue codePRIV) := by
  have lacks : p = true ∧ (!s.privRight o.gid) = true := ⟨hp, congrArg not may⟩
  exact (if_neg (mt of_decide_eq_true (mt (badFields_txtok hk).2 hb))).trans (if_pos lacks)

section Allowed
variable (may : p = true → s.privRight o.gid = true)
include may

theorem runTok_noTable (hx : s.lexicon (bits (o.reg 2) 34 32) = none) : s.runTok c o p = s.endText o (errorValue codeNOTABLE) := by
  refine (if_neg (mt of_decide_eq_true (mt (badFields_txtok hk).2 hb))).trans ((if_neg (notRefused may)).trans ?_)
  unfold TextOp.reg at hx
  rw [hx]

theorem runTok_writes {x : Lexicon} {s1 s2 : State} {more : List Byte} {o2 : TextOp} {full : Bool}
    (hx : s.lexicon (bits (o.reg 2) 34 32) = some x)
    (hr : s.bytesFrom c (bits (o.reg 2) 31 0 - o.buf.length) (nth 0 o.desc 0 + BitVec.ofNat 64 o.buf.length) = (s1, more, .fin))
    (hw : s1.writeUnits c (s1.launchOf o.gid) (nth 0 o.desc 1) (bits (o.reg 3) 31 0) { o with buf := o.buf ++ more }
      ((x.units (p && !(bit (o.reg 2) 40)) (o.buf ++ more)).drop o.units) = (s2, o2, full, .fin)) :
    s.runTok c o p = s2.endText o2 (BitVec.ofNat 64 (o2.wrote + 2 ^ 32 * o2.consumed)) := by
  refine (if_neg (mt of_decide_eq_true (mt (badFields_txtok hk).2 hb))).trans ((if_neg (notRefused may)).trans ?_)
  unfold TextOp.reg at hx hr hw
  simp only [hx, hr, hw]

end Allowed
end Good
end Tok

/-! ### Detokenizing (11 R269, R270) -/

section Det
variable (hk : o.kind = .txdet)
include hk

theorem badFields_txdet : o.badFields ↔ bits (o.reg 2) 39 35 ≠ 0 ∨ bits (o.reg 2) 63 41 ≠ 0 ∨ o.reg 0 % 4 ≠ 0 ∨ o.reg 3 % 64 ≠ 0 := by
  rw [TextOp.badFields, hk]

theorem runDet_badFields (hb : o.badFields) : s.runDet c o = s.endText o (errorValue codeBADARG) :=
  if_pos (decide_eq_true ((badFields_txdet hk).1 hb))

theorem runDet_noTable (hb : ¬o.badFields) (hx : s.lexicon (bits (o.reg 2) 34 32) = none) :
    s.runDet c o = s.endText o (errorValue codeNOTABLE) := by
  refine (if_neg (mt of_decide_eq_true (mt (badFields_txdet hk).2 hb))).trans ?_
  unfold TextOp.reg at hx
  rw [hx]

end Det

/-! ### Loading (11 R264, R265) -/

/-- A TXLOAD descriptor with a reserved bit set, or a target or address that the load refuses (11 R265). -/
def TextOp.badTarget (o : TextOp) : Prop :=
  o.reg 1 / 512 ≠ 0 ∨ (o.isGram = true ∧ o.number = 0) ∨ (o.isGram = false ∧ (7 < o.number ∨ o.reg 0 % 4096 ≠ 0))

theorem badTarget_iff : o.badTarget ↔ (nth 0 o.desc 1).toNat / 512 ≠ 0 ∨ (o.isGram = true ∧ o.number = 0) ∨
    ((!o.isGram) = true ∧ (7 < o.number ∨ (nth 0 o.desc 0).toNat % 4096 ≠ 0)) := by
  rw [Bool.not_eq_true']
  rfl

theorem runLoad_badTarget (hb : o.badTarget) : s.runLoad c o = s.endText o (errorValue codeBADARG) :=
  if_pos (decide_eq_true (badTarget_iff.1 hb))

section Target
variable (hb : ¬o.badTarget)
include hb

theorem runLoad_setBusy (busy : o.isGram = true ∧ s.setBusy o.gid o.number = true) :
    s.runLoad c o = s.endText o (errorValue codeSETBUSY) :=
  (if_neg (mt of_decide_eq_true (mt badTarget_iff.2 hb))).trans (if_pos busy)

section Image
variable (unused : ¬(o.isGram = true ∧ s.setBusy o.gid o.number = true))
include unused

theorem runLoad_badImage {s1 : State} (hi : s.loadImage c (nth 0 o.desc 0) o.isGram = .ok s1 none .ok) :
    s.runLoad c o = s1.endText o (errorValue codeBADIMAGE) := by
  refine (if_neg (mt of_decide_eq_true (mt badTarget_iff.2 hb))).trans ((if_neg unused).trans ?_)
  rw [hi]
  rfl

theorem runLoad_waits {s1 : State} {m : AMap Byte} (hi : s.loadImage c (nth 0 o.desc 0) o.isGram = .ok s1 (some m) .ok) :
    s.runLoad c o = s1.setText { o with image := some m } := by
  refine (if_neg (mt of_decide_eq_true (mt badTarget_iff.2 hb))).trans ((if_neg unused).trans ?_)
  rw [hi]
  rfl

theorem runLoad_faults {f : XFault} (hi : s.loadImage c (nth 0 o.desc 0) o.isGram = .fault f) :
    s.runLoad c o = s.textStop o (.fault f) := by
  refine (if_neg (mt of_decide_eq_true (mt badTarget_iff.2 hb))).trans ((if_neg unused).trans ?_)
  rw [hi]

end Image
end Target

theorem eq_of_mem_setText {p : TextOp} (h : p ∈ (s.setText o).textOps) (hid : p.id = o.id) : p = o := by
  obtain ⟨q, -, rfl⟩ := List.mem_map.1 h
  split at hid
  · exact if_pos ‹_›
  · contradiction

/-- A fault parks the command on its record's set (11 R263). -/
theorem textStop_parks (s : State) (o : TextOp) (f : XFault) :
    ∃ r : FRec, (∀ p ∈ (s.textStop o (.fault f)).textOps, p.id = o.id → p.parkSet = some r.set) ∧
      (s.textStop o (.fault f)).pushQ = s.pushQ ++ [r] ∧ r.who = .text o.id ∧ r.cause = f.cause := by
  obtain ⟨r, hpush, hwho, hset, hcause, -⟩ :=
    engineFault_pushes s o.gid .text f o.pc 0 (o.consumed + 2 ^ 32 * o.wrote + 2 ^ 64 * o.kind.code) (.text o.id)
  dsimp only [State.textStop]
  rw [hpush]
  exact ⟨r, fun p hp hid => hset ▸ congrArg TextOp.parkSet (eq_of_mem_setText hp hid), rfl, hwho, hcause⟩

/-! ### Posting to the mailbox (11 R281) -/

/-- An MBPOST descriptor with no ids, more than 14, or a reserved bit set (11 R281). -/
def TextOp.badPost (o : TextOp) : Prop :=
  bits (o.reg 1) 3 0 = 0 ∨ 14 < bits (o.reg 1) 3 0 ∨ bits (o.reg 1) 15 4 ≠ 0 ∨ bits (o.reg 1) 63 33 ≠ 0

theorem runPost_bad (hb : o.badPost) : s.runPost c o = s.endText o (errorValue codeBADARG) := if_pos hb

/-- The key of the sequence number of a post's stream. -/
def TextOp.streamKey (o : TextOp) : Nat := o.die * 65536 + bits (o.reg 1) 31 16

/-- The ids of a post. -/
def TextOp.postIds (o : TextOp) (bs : List Byte) : List Word32 :=
  (List.range (bits (o.reg 1) 3 0)).map (fun i => BitVec.ofNat 32 (ofBytes ((bs.drop (4 * i)).take 4)))

/-- A post's entry at the end of its die's mailbox, and the next number of its stream. -/
def State.posted (s : State) (o : TextOp) (bs : List Byte) : State :=
  { s with
    mailbox := put s.mailbox o.die (rd [] s.mailbox o.die ++
      [(o.postIds bs, bit (o.reg 1) 32, bits (o.reg 1) 31 16, rd 0 s.mbSeq o.streamKey)])
    mbSeq := wr 0 s.mbSeq o.streamKey ((rd 0 s.mbSeq o.streamKey + 1) % 2 ^ 32) }

theorem runPost_posts (hb : ¬o.badPost) {s1 : State} {bs : List Byte}
    (hr : s.bytesFrom c (4 * bits (o.reg 1) 3 0) (nth 0 o.desc 0) = (s1, bs, .fin)) :
    s.runPost c o = (s1.posted o bs).endText o (BitVec.ofNat 64 (rd 0 s1.mbSeq o.streamKey)) := by
  refine (if_neg hb).trans ?_
  unfold TextOp.reg at hr
  rw [hr]
  rfl

theorem getElem?_postIds {i : Nat} (bs : List Byte) (hi : i < bits (o.reg 1) 3 0) :
    (o.postIds bs)[i]? = some (BitVec.ofNat 32 (ofBytes ((bs.drop (4 * i)).take 4))) := by
  rw [TextOp.postIds, List.getElem?_map, List.getElem?_range hi, Option.map_some]

theorem rd_mailbox_posted (bs : List Byte) : rd [] (s.posted o bs).mailbox o.die = rd [] s.mailbox o.die ++
    [(o.postIds bs, bit (o.reg 1) 32, bits (o.reg 1) 31 16, rd 0 s.mbSeq o.streamKey)] :=
  congrArg (Option.getD · []) (look_put_self ..)

end Work

/-! ### Replacement (11 R265) -/

section Replace
variable {s : State} {op : Nat} {o : TextOp} {c : Actx} {m : AMap Byte} (hf : s.textOps.find? (fun p => p.id = op) = some o)
  (ha : s.actx o.gid = some c) (hm : o.image = some m)
include hf ha hm

/-- No earlier TRNEW holds back the replacement of a grammar set: it ends with SETBUSY or with the new set. -/
theorem txloadReplacement_grammar (hg : o.isGram = true) (unused : ∀ t ∈ s.treeOps, t.id < op → t.kind ≠ .trnew) :
    exec (.txloadReplacement op) s = .next (if s.setBusy o.gid o.number = true
      then s.endText o (errorValue codeSETBUSY)
      else { s with grammars := put s.grammars (c.part * 256 + o.number) ⟨c.part, c.root, nth 0 o.desc 0, m⟩ }.endText o 0) := by
  have free : ¬(s.treeOps.any (fun t => decide (t.id < op) && t.kind == TreeKind.trnew && t.part == c.part &&
      t.reply.isNone && bits t.a.toNat 47 32 == o.number) = true) := by
    rw [List.any_eq_true]
    rintro ⟨t, ht, hu⟩
    simp only [Bool.and_eq_true, decide_eq_true_eq, beq_iff_eq] at hu
    obtain ⟨⟨⟨⟨earlier, new⟩, -⟩, -⟩, -⟩ := hu
    exact unused t ht earlier new
  show execTxloadReplacement op s = _
  unfold execTxloadReplacement
  simp only [hf, ha, hm, hg, if_true]
  rw [if_neg free]
  split <;> rfl

theorem txloadReplacement_lexicon (hg : o.isGram = false)
    (unused : ∀ p ∈ s.textOps, p.id < op → p.usesSlot = false ∧ p.loads = false) :
    exec (.txloadReplacement op) s =
      .next ({ s with lexicons := put s.lexicons o.number ⟨c.part, c.root, nth 0 o.desc 0, m⟩ }.endText o 0) := by
  have free : ¬(s.textOps.any (fun p => decide (p.id < op) && ((p.usesSlot && p.slot == o.number) ||
      (p.loads && !p.isGram && p.number == o.number))) = true) := by
    rw [List.any_eq_true]
    rintro ⟨p, hp, hu⟩
    rw [Bool.and_eq_true, decide_eq_true_eq] at hu
    obtain ⟨earlier, hu⟩ := hu
    obtain ⟨slot, loads⟩ := unused p hp earlier
    simp [slot, loads] at hu
  show execTxloadReplacement op s = _
  unfold execTxloadReplacement
  simp only [hf, ha, hm, hg]
  exact (if_neg free).trans (if_neg Bool.false_ne_true)

end Replace

/-- Settles O55: the command runs by its kind, each part of a kind's work by its own law; a replacement by its target. -/
theorem textCommandsComplete : Obligations.TextCommandsComplete := by
  refine fun s op o c => ⟨fun h => ?_, fun hf ha m hm => ⟨fun hg unused busy => ?_, fun hg unused busy => ?_,
    txloadReplacement_lexicon hf ha hm⟩⟩
  · refine ⟨?_, fun hk hb may => ?_, fun p hk hb may hx => ?_, fun hk hb hx => ?_, fun p x s1 more s2 o2 full hk hb may hx hr hw => ?_,
      fun hk => ⟨fun hb => ?_, fun hb hg busy => ?_, fun hb unused => ⟨fun s1 hi => ?_, fun s1 m hi => ?_, fun f hi => ?_⟩⟩,
      fun hk => ⟨fun hb => ?_, fun hb s1 bs hr => ⟨s1.posted o bs, o.postIds bs, ?_, rd_mailbox_posted bs, ?_,
        fun i => getElem?_postIds bs, rd_wr_self .., fun j => rd_wr_ne 0 _ _⟩⟩⟩
    · rintro (⟨p, hk⟩ | hk) hb
      · exact txtok_completes h hk (runTok_badFields hk hb)
      · exact txdet_completes h hk (runDet_badFields hk hb)
    · have lacks := Bool.eq_false_iff.2 (mt (privRight_iff s o.gid).1 may)
      exact txtok_completes h hk (runTok_unprivileged hk hb rfl lacks)
    · have right := fun hp => (privRight_iff s o.gid).2 (may hp)
      exact txtok_completes h hk (runTok_noTable hk hb right hx)
    · exact txdet_completes h hk (runDet_noTable hk hb hx)
    · have right := fun hp => (privRight_iff s o.gid).2 (may hp)
      exact txtok_completes h hk (runTok_writes hk hb right hx hr hw)
    · exact txload_completes h hk (runLoad_badTarget hb)
    · exact txload_completes h hk (runLoad_setBusy hb ⟨hg, busy⟩)
    · exact txload_completes h hk (runLoad_badImage hb unused hi)
    · exact txload_completes h hk (runLoad_waits hb unused hi)
    · have hid : o.id = op := by simpa using List.find?_some h.found
      obtain ⟨r, parked, pushed, who, cause⟩ := textStop_parks s o f
      exact ⟨_, r, txload_completes h hk (runLoad_faults hb unused hi), hid ▸ parked, pushed, hid ▸ who, cause⟩
    · exact mbpost_completes h hk (runPost_bad hb)
    · exact mbpost_completes h hk (runPost_posts hb hr)
    · exact (List.length_map ..).trans List.length_range
  · rw [txloadReplacement_grammar hf ha hm hg unused, if_pos busy]
  · rw [txloadReplacement_grammar hf ha hm hg unused, if_neg (Bool.eq_false_iff.1 busy)]

end Sys2Proof.Machine
end

section
/-!
SUPPORT. The operations that leave memory alone: queues, tables, traps, barriers, splits, kills and the records of faults (for O36).
-/
namespace Sys2Proof.Machine

section
variable (s : State)

/-! ### Groups, teams, launches, counters -/

@[simp] theorem err_mem (lid b) : (s.err lid b).mem = s.mem := by cases lid <;> rfl
@[simp] theorem memError_mem (lid st) : (s.memError lid st).mem = s.mem := by cases st <;> simp [State.memError]
@[simp] theorem updQueue_mem (q f) : (s.updQueue q f).mem = s.mem := rfl
@[simp] theorem consumed_mem (q) : (s.consumed q).mem = s.mem := rfl
@[simp] theorem dropLaunch_mem (lid) : (s.dropLaunch lid).mem = s.mem := rfl
@[simp] theorem answered_mem (x) : (s.answered x).mem = s.mem := rfl
@[simp] theorem setPort_mem (p x) : (s.setPort p x).mem = s.mem := rfl
@[simp] theorem retarget_mem (die) : (s.retarget die).mem = s.mem := by
  unfold State.retarget
  dsimp only
  split
  · rfl
  · split <;> rfl
@[simp] theorem pointReady_mem (die l) : (s.pointReady die l).1.mem = s.mem := by
  fun_cases State.pointReady s die l <;> rfl
@[simp] theorem powerTest_mem : s.powerTest.mem = s.mem := by
  unfold State.powerTest
  split
  · split <;> rfl
  · rfl
theorem emits_mem {α : Type} (f : α → OutMsg) (l : List α) : (l.foldl (fun s a => s.emit (f a)) s).mem = s.mem :=
  foldl_keeps State.mem _ (fun s a => emit_mem s (f a)) l s
@[simp] theorem tellMembers_mem (tid what) : (s.tellMembers tid what).mem = s.mem := by
  unfold State.tellMembers
  split
  · rfl
  · split
    · rfl
    · exact emits_mem s _ _
@[simp] theorem detachTest_mem (tid) : (s.detachTest tid).mem = s.mem := by
  unfold State.detachTest
  split
  · rfl
  · split <;> simp
@[simp] theorem departTest_mem (tid) : (s.departTest tid).mem = s.mem := by
  unfold State.departTest
  split
  · rfl
  · split <;> simp
@[simp] theorem ackTest_mem (tid ref pos member) : (s.ackTest tid ref pos member).mem = s.mem := by
  unfold State.ackTest
  split
  · rfl
  · split <;> rfl
@[simp] theorem clearQuarter_mem (q) : (s.clearQuarter q).mem = s.mem := rfl
@[simp] theorem startTeam_mem (lid l die cores) : (s.startTeam lid l die cores).mem = s.mem :=
  (startTeam_keeps State.mem (fun _ _ _ => rfl) s lid l die cores).trans
    (clearQuarters_keeps State.mem (fun _ _ => rfl) s _)
@[simp] theorem launchWith_mem (q x pass p e) : (s.launchWith q x pass p e).mem = s.mem :=
  launchWith_keeps State.mem (fun _ _ => rfl) s q x pass p e
@[simp] theorem closeDebug_mem (part) : (s.closeDebug part).mem = s.mem := closeDebug_keeps State.mem (fun _ _ _ => rfl) s part

/-! ### Traps, faults and the split table -/

@[simp] theorem notice_mem (gid entry) : (s.notice gid entry).mem = s.mem := by
  unfold State.notice
  split
  · split <;> rfl
  · rfl
@[simp] theorem stopSplit_mem (gid e st r) : (s.stopSplit gid e st r).mem = s.mem := notice_mem _ _ _
@[simp] theorem trapPrecise_mem (gid e r) : (s.trapPrecise gid e r).mem = s.mem := stopSplit_mem _ _ _ _ _
@[simp] theorem trapAccess_mem (gid r next) : (s.trapAccess gid r next).mem = s.mem := notice_mem _ _ _
@[simp] theorem accessTrap_mem (gid g cause addr code next) : (s.accessTrap gid g cause addr code next).mem = s.mem :=
  trapAccess_mem _ _ _ _
@[simp] theorem pushFaults_mem (rs) : (s.pushFaults rs).1.mem = s.mem := rfl
@[simp] theorem engineFault_mem (gid en f pc index estate who) : (s.engineFault gid en f pc index estate who).1.mem = s.mem := rfl
@[simp] theorem park_mem (gid e set) : (s.park gid e set).mem = s.mem := rfl
@[simp] theorem parkFetch_mem (gid e en f) : (s.parkFetch gid e en f).mem = s.mem := rfl
@[simp] theorem stopAccess_mem (gid f pc) : (s.stopAccess gid f pc).mem = s.mem := rfl
@[simp] theorem slideFault_mem (gid e en sl f) : (s.slideFault gid e en sl f).mem = s.mem := rfl
@[simp] theorem noticeAll_mem (gid es) : (s.noticeAll gid es).mem = s.mem := by
  refine foldl_keeps State.mem _ (fun s e => ?_) es s
  split
  · split <;> simp
  · rfl
@[simp] theorem settleAll_mem (gid id g es) : (s.settleAll gid id g es).mem = s.mem := noticeAll_mem _ _ _
@[simp] theorem splitOvf_mem (gid e g x r) : (s.splitOvf gid e g x r).mem = s.mem := stopSplit_mem _ _ _ _ _
@[simp] theorem dropTempReplies_mem (gid e) : (s.dropTempReplies gid e).mem = s.mem := rfl
@[simp] theorem goOn_mem (gid e id) : (s.goOn gid e id).mem = s.mem := by
  fun_cases State.goOn s gid e id <;> simp
@[simp] theorem clearStop_mem (gid) : (s.clearStop gid).mem = s.mem := by
  unfold State.clearStop
  split
  · split <;> rfl
  · rfl

/-! ### Barriers (19) -/

@[simp] theorem putBar_mem (tid t k r) : (s.putBar tid t k r).mem = s.mem := by unfold State.putBar; split <;> rfl
@[simp] theorem barTest_mem (tid k n) : (s.barTest tid k n).mem = s.mem :=
  barTest_keeps State.mem putBar_mem (fun _ _ => rfl) tid k n s
@[simp] theorem retestBars_mem (tid) : (s.retestBars tid).mem = s.mem := retestBars_keeps State.mem putBar_mem (fun _ _ => rfl) s tid
@[simp] theorem barArrive_mem (tid k c) : (s.barArrive tid k c).1.mem = s.mem := by
  unfold State.barArrive
  split
  · rfl
  · simp only [barTest_mem, putBar_mem]
    split <;> simp
@[simp] theorem barLink_mem (tid gid k) : (s.barLink tid gid k).1.mem = s.mem := by
  unfold State.barLink
  split
  · rfl
  · dsimp only
    split
    · rfl
    · exact barArrive_mem s _ _ _
@[simp] theorem freeBars_mem (tid) : (s.freeBars tid).mem = s.mem := rfl
@[simp] theorem saveBars_mem (tid t) : (s.saveBars tid t).mem = s.mem := by unfold State.saveBars; split <;> rfl
@[simp] theorem exitLanes_mem (gid m status) : (s.exitLanes gid m status).mem = s.mem := by
  unfold State.exitLanes
  split
  · rfl
  · cases status <;> dsimp only <;> split <;> simp

/-! ### The transfer of a split -/

@[simp] theorem transfer_mem (gid e x r delivered) : (s.transfer gid e x r delivered).mem = s.mem := by
  unfold State.transfer
  split
  · rfl
  · split
    · rfl
    · dsimp only
      repeat' split
      all_goals simp
@[simp] theorem afterRun_mem (gid e post x r) : (s.afterRun gid e post x r).mem = s.mem := by
  fun_cases State.afterRun s gid e post x r <;> simp

/-! ### Write-combining buffers, requests and caches (12, 14) -/

@[simp] theorem setWc_mem (cid l) : (s.setWc cid l).mem = s.mem := rfl
@[simp] theorem sendDrain_mem (w) : (s.sendDrain w).mem = s.mem := rfl
@[simp] theorem drainWc_mem (cid f) : (s.drainWc cid f).mem = s.mem :=
  foldl_keeps State.mem _ sendDrain_mem _ _
@[simp] theorem drainLine_mem (cid chip t) : (s.drainLine cid chip t).mem = s.mem := drainWc_mem _ _ _
@[simp] theorem wcStore_mem (cid gid chip t key bs) : (s.wcStore cid gid chip t key bs).mem = s.mem := by
  unfold State.wcStore
  dsimp only
  repeat' split
  all_goals simp
@[simp] theorem sendReq_mem (who chip t key op) : (s.sendReq who chip t key op).mem = s.mem := rfl
@[simp] theorem sendFree_mem (chip t key op) : (s.sendFree chip t key op).mem = s.mem := rfl
@[simp] theorem dropL1_mem (cl pa) : (s.dropL1 cl pa).mem = s.mem := rfl
@[simp] theorem acquireAct_mem (lid g sc) : (s.acquireAct lid g sc).mem = s.mem := (acquireAct_keeps s lid g sc).2
@[simp] theorem frontAcquire_mem (sc) : (s.frontAcquire sc).mem = s.mem := rfl

/-! ### Engines -/

@[simp] theorem setMx_mem (o) : (s.setMx o).mem = s.mem := rfl
@[simp] theorem setTags_mem (q ms f) : (s.setTags q ms f).mem = s.mem := rfl
@[simp] theorem putColumn_mem (q mac col two c) : (s.putColumn q mac col two c).mem = s.mem := rfl
@[simp] theorem mldbError_mem (q o b) : (s.mldbError q o b).mem = s.mem := by simp [State.mldbError]
@[simp] theorem mldbFault_mem (q o f) : (s.mldbFault q o f).mem = s.mem := by
  unfold State.mldbFault
  dsimp only
  split
  · exact mldbError_mem _ _ _ _
  · rfl
@[simp] theorem mmaRow_mem (t q o ix row) : (s.mmaRow t q o ix row).mem = s.mem := rfl
@[simp] theorem mmaAll_mem (t q o) : (s.mmaAll t q o).mem = s.mem := by
  refine foldl_keeps State.mem _ (fun s ix => ?_) _ s
  dsimp only
  split
  · exact foldl_keeps State.mem _ (fun s _ => mmaRow_mem s _ _ _ _ _) _ s
  · simp
@[simp] theorem mzeroAll_mem (q o) : (s.mzeroAll q o).mem = s.mem := rfl
@[simp] theorem endDload_mem (o v) : (s.endDload o v).mem = s.mem := rfl
@[simp] theorem endDrain_mem (o fl) : (s.endDrain o fl).mem = s.mem := rfl
@[simp] theorem drainNext_mem (o d fl) : (s.drainNext o d fl).mem = s.mem := rfl
@[simp] theorem drainFault_mem (o d col f) : (s.drainFault o d col f).mem = s.mem := by
  unfold State.drainFault
  dsimp only
  split
  · exact err_mem _ _ _
  · rfl
@[simp] theorem endAge_mem (gid stream a e) : (s.endAge gid stream a e).mem = s.mem := by
  unfold State.endAge
  dsimp only
  split <;> simp
@[simp] theorem setCp_mem (o) : (s.setCp o).mem = s.mem := rfl
@[simp] theorem endCp_mem (o v) : (s.endCp o v).mem = s.mem := rfl
@[simp] theorem setColl_mem (o) : (s.setColl o).mem = s.mem := rfl
@[simp] theorem collFault_mem (o f write e) : (s.collFault o f write e).mem = s.mem := rfl
@[simp] theorem endColl_mem (o v) : (s.endColl o v).mem = s.mem := rfl
@[simp] theorem setText_mem (o) : (s.setText o).mem = s.mem := rfl
@[simp] theorem endText_mem (o v) : (s.endText o v).mem = s.mem := rfl
@[simp] theorem textStop_mem (o x) : (s.textStop o x).mem = s.mem := by
  unfold State.textStop
  split
  · rfl
  · exact memError_mem s _ _
  · rfl

/-! ### Kills and handlers (20) -/

@[simp] theorem killEngines_mem (gid) : (s.killEngines gid).mem = s.mem :=
  (foldl_keeps State.mem _ (fun s _ => setMx_mem s _) _ _).trans (foldl_keeps State.mem _ (fun s _ => endDrain_mem s _ _) _ s)
@[simp] theorem killGroup_mem (gid) : (s.killGroup gid).mem = s.mem := by
  unfold State.killGroup
  split
  · rfl
  · split <;> simp
@[simp] theorem handlerKill_mem (gid) : (s.handlerKill gid).mem = s.mem := by simp [State.handlerKill]
@[simp] theorem preemptTeam_mem (tid) : (s.preemptTeam tid).mem = s.mem := by
  unfold State.preemptTeam
  split
  · rfl
  · split
    · rfl
    · refine (foldl_keeps State.mem _ (fun s c => drainWc_mem s _ _) _ _).trans
        (foldl_keeps State.mem _ (fun s g => ?_) _ _)
      split
      · split
        · rfl
        · split <;> simp
      · rfl
@[simp] theorem preempt_mem (tid) : (s.preempt tid).mem = s.mem := by
  unfold State.preempt
  split
  · split <;> simp
  · rfl
@[simp] theorem killPart_mem (part) : (s.killPart part).mem = s.mem := foldl_keeps State.mem _ killGroup_mem _ s

/-! ### Trees and pages (09, 10) -/

@[simp] theorem setTree_mem (key t) : (s.setTree key t).mem = s.mem := rfl
@[simp] theorem setRow_mem (part row r) : (s.setRow part row r).mem = s.mem := rfl
@[simp] theorem addRow_mem (part row) : (s.addRow part row).mem = s.mem := rfl
@[simp] theorem setBcast_mem (b) : (s.setBcast b).mem = s.mem := rfl
@[simp] theorem broadcast_mem (release part pairs rows) : (s.broadcast release part pairs rows).mem = s.mem := by
  unfold State.broadcast; split <;> rfl
theorem incCell_mem {t : State} {part die link} (e : s.incCell part die link = some t) : t.mem = s.mem := by
  revert e
  fun_cases State.incCell s part die link
  all_goals rintro ⟨⟩
  all_goals rfl
@[simp] theorem decCell_mem (part die n link) : (s.decCell part die n link).mem = s.mem := by
  induction n generalizing s link with
  | zero => rfl
  | succ n ih =>
    unfold State.decCell
    split
    · rfl
    · split
      · rfl
      · split
        · exact ih _ _
        · rfl
@[simp] theorem freeNodes_mem (part die t ns) : (s.freeNodes part die t ns).mem = s.mem :=
  foldl_keeps State.mem _ (fun s _ => decCell_mem s _ _ _ _) ns s
theorem pushCells_mem {t : State} {part die l c n} (e : s.pushCells part die l c = some (t, n)) : t.mem = s.mem := by
  induction l generalizing s c with
  | nil => cases e; rfl
  | cons y r ih =>
    unfold State.pushCells at e
    split at e
    · cases e
    · rename_i s1 inc
      dsimp only at e
      split at e
      · cases e
      · exact (ih _ e).trans (incCell_mem s inc :)
theorem popRow_mem {t : State} {part die c r} (e : s.popRow part die c = some (t, r)) : t.mem = s.mem := by
  revert e
  fun_cases State.popRow s part die c
  all_goals rintro ⟨⟩
  all_goals rfl
@[simp] theorem dropRow_mem (part row) : (s.dropRow part row).1.mem = s.mem := by unfold State.dropRow; dsimp only; split <;> rfl
@[simp] theorem dropRows_mem (part l) : (s.dropRows part l).1.mem = s.mem := by
  induction l generalizing s with
  | nil => rfl
  | cons r rest ih => exact (ih _).trans (dropRow_mem s part r)
@[simp] theorem removeBranches_mem (key part h t x cancel) : (s.removeBranches key part h t x cancel).1.mem = s.mem := by
  simp [State.removeBranches]
@[simp] theorem compRecord_mem (key t k f who info) : (s.compRecord key t k f who info).1.mem = s.mem := rfl
@[simp] theorem dropTranslation_mem (root va) : (s.dropTranslation root va).mem = s.mem := rfl

end

end Sys2Proof.Machine
end

section
/-!
SUPPORT. The operations that write memory keep its canonical form: bytes and lines, a place's reads and writes, and the accesses of
engines and of the front end (for O36; 12 R284; log 4).
-/
namespace Sys2Proof.Machine

/-- The canonical form of memory, as one fact: what a write of a byte keeps, and every other step only carries along. -/
def MemSound (m : AMap Byte) : Prop := Memory.wf m

theorem memSound_wr {m : AMap Byte} (pa : Nat) (b : Byte) (h : MemSound m) : MemSound (wr 0 m pa b) :=
  ⟨keysRise_wr 0 pa b h.1, wr_noDefault 0 pa b h.2⟩

/-- A fold of states keeps memory sound if each of its steps does. -/
theorem foldl_sound {α : Type} {f : State → α → State} (hf : ∀ s a, MemSound s.mem → MemSound (f s a).mem) (l : List α) {s : State}
    (h : MemSound s.mem) : MemSound (l.foldl f s).mem := by
  induction l generalizing s with
  | nil => exact h
  | cons a l ih => exact ih (hf s a h)

theorem ite_sound {c : Prop} [Decidable c] {s t : State} (hs : MemSound s.mem) (ht : MemSound t.mem) :
    MemSound (if c then s else t).mem := by
  split
  · exact hs
  · exact ht

section
variable {s t : State}

/-! ### Bytes and lines (12 R284) -/

theorem writeKey_sound (h : MemSound s.mem) {key pa b} : MemSound (s.writeKey key pa b).mem := memSound_wr pa b h

theorem writeKeys_sound (h : MemSound s.mem) {key pa bs} : MemSound (s.writeKeys key pa bs).mem := by
  induction bs generalizing s pa with
  | nil => exact h
  | cons b r ih => exact ih (writeKey_sound h)

theorem hostBytes_sound (h : MemSound s.mem) {pa bs} : MemSound (s.hostBytes pa bs).mem := by
  unfold State.hostBytes
  dsimp only
  generalize s.mem = m at h ⊢
  induction bs.zipIdx generalizing m with
  | nil => exact h
  | cons x r ih => exact ih _ (memSound_wr _ _ h)

theorem putBack_sound (h : MemSound s.mem) {pa x} : MemSound (s.putBack pa x).mem := by
  unfold State.putBack
  split
  · exact ite_sound (writeKey_sound h) h
  · exact h

theorem flushLine_sound (h : MemSound s.mem) {cl line} : MemSound (s.flushLine cl line).mem := by
  refine foldl_sound (fun s pa h => ?_) _ h
  dsimp only [dropL1_mem]
  split
  · exact putBack_sound h
  · exact h

theorem flushEverywhere_sound (h : MemSound s.mem) {line} : MemSound (s.flushEverywhere line).mem :=
  foldl_sound (fun _ _ h => flushLine_sound h) _ h

theorem writeBackCluster_sound (h : MemSound s.mem) {cl} : MemSound (s.writeBackCluster cl).mem :=
  foldl_sound (fun _ _ h => putBack_sound h) _ h

theorem cleanLine_sound (h : MemSound s.mem) {line} : MemSound (s.cleanLine line).mem :=
  foldl_sound (fun _ _ h => putBack_sound h) _ h

theorem clusterStore_sound (h : MemSound s.mem) {cid key pa b} : MemSound (s.clusterStore cid key pa b).mem := by
  unfold State.clusterStore
  dsimp only
  split
  · exact putBack_sound (s := s.dropL1 _ _) h
  · exact h

theorem unpin_sound (h : MemSound s.mem) {f} : MemSound (s.unpin f).mem := by
  unfold State.unpin
  dsimp only
  exact foldl_sound (fun s p h => ite_sound (writeKeys_sound h) h) _ h

theorem frontRelease_sound (h : MemSound s.mem) : MemSound s.frontRelease.mem := by
  unfold State.frontRelease
  dsimp only
  exact foldl_sound (fun _ _ h => writeBackCluster_sound h) _ h

theorem releaseAct_sound (h : MemSound s.mem) {g sc} : MemSound (s.releaseAct g sc).mem :=
  ite_sound (writeBackCluster_sound (s := s.dropScales _ _) h) h

/-! ### Reads and writes at a place (13 R312) -/

theorem beforeAccess_sound (h : MemSound s.mem) {c m p} : MemSound (s.beforeAccess c m p).mem := by
  unfold State.beforeAccess
  split
  · exact ite_sound (flushLine_sound h) h
  · exact h

theorem readPlace_sound (h : MemSound s.mem) {c m p key n} : MemSound (s.readPlace c m p key n).2.mem := by
  unfold State.readPlace
  dsimp only
  split
  · exact ite_sound (beforeAccess_sound h) (beforeAccess_sound h)
  · exact beforeAccess_sound h

theorem placeStore_sound (h : MemSound s.mem) {c m p key i b} : MemSound (s.placeStore c m p key i b).mem := by
  have direct (pa : Nat) : MemSound (if s.keyOk key pa then s.writeKey key (pa + i) b else s).mem := ite_sound (writeKey_sound h) h
  unfold State.placeStore
  split
  · exact ite_sound (direct _) (clusterStore_sound h)
  · exact direct _
  · split
    · exact h
    · exact direct _
  · exact h
  · exact h

theorem storeFrom_sound (h : MemSound s.mem) {c m p key i bs} : MemSound (s.storeFrom c m p key i bs).mem := by
  induction bs generalizing s i with
  | nil => exact h
  | cons b r ih => exact ih (placeStore_sound h)

theorem writePlace_sound (h : MemSound s.mem) {c m p key bs} : MemSound (s.writePlace c m p key bs).mem := by
  refine storeFrom_sound ?_
  split
  · exact flushLine_sound h
  · exact beforeAccess_sound h

theorem storeMasked_sound (h : MemSound s.mem) {p key bytes mask} : MemSound (s.storeMasked p key bytes mask).mem :=
  foldl_sound (fun _ _ h => ite_sound (placeStore_sound h) h) _ h

theorem putBytes_sound (h : MemSound s.mem) {c p key nt bs} : MemSound (s.putBytes c p key nt bs).mem := by
  unfold State.putBytes
  split
  · rwa [wcStore_mem]
  · exact writePlace_sound h

/-! ### Engine accesses -/

theorem translate_mem {c need sc va tg} (e : s.translate c need sc va = .ok (t, tg)) : t.mem = s.mem := readsOnly_mem (translate_reads e)

theorem engRead_sound (h : MemSound s.mem) {c va n bs st} (e : s.engRead c va n = .ok t bs st) : MemSound t.mem := by
  grind [State.engRead, translate_mem, drainLine_mem, readPlace_sound]

theorem engWrite_sound (h : MemSound s.mem) {c va bs u st} (e : s.engWrite c va bs = .ok t u st) : MemSound t.mem := by
  grind [State.engWrite, translate_mem, wcStore_mem, writePlace_sound]

theorem engReads_sound (h : MemSound s.mem) {c n k va bs st} (e : s.engReads c n k va = .ok t bs st) : MemSound t.mem := by
  induction k generalizing s va bs st with
  | zero => cases e; exact h
  | succ k ih => grind [State.engReads, → engRead_sound]

theorem engWrites_sound (h : MemSound s.mem) {c n k va bs u st} (e : s.engWrites c n k va bs = .ok t u st) : MemSound t.mem := by
  induction k generalizing s va bs st with
  | zero => cases e; exact h
  | succ k ih => grind [State.engWrites, → engWrite_sound]

theorem engFold_sound {α : Type} {f : State → α → Eng Unit}
    (hf : ∀ s a t u st, MemSound s.mem → f s a = .ok t u st → MemSound t.mem) {l : List α} (h : MemSound s.mem) {u st}
    (e : engFold f s l = .ok t u st) : MemSound t.mem := by
  induction l generalizing s st with
  | nil => cases e; exact h
  | cons a r ih => grind [engFold]

/-! ### Spills and fills (04 R118, R120) -/

theorem spillBits_sound (h : MemSound s.mem) {c g m x u st} (e : s.spillBits c g m x = .ok t u st) : MemSound t.mem := by
  grind [State.spillBits, → translate_mem, readPlace_sound, → engWrite_sound]

theorem spillReg_sound (h : MemSound s.mem) {c g m x u st} (e : s.spillReg c g m x = .ok t u st) : MemSound t.mem := by
  revert e
  fun_cases State.spillReg s c g m x
  case case5 s1 _ st1 spilt s2 _ st2 bits =>
    rintro ⟨⟩
    exact spillBits_sound (engFold_sound (fun _ _ _ _ _ h => engWrite_sound h) h spilt) bits
  all_goals rintro ⟨⟩

theorem fillLanes_sound (h : MemSound s.mem) {c x full g st l g' st'} (e : s.fillLanes c x full g st l = .ok t g' st') : MemSound t.mem := by
  induction l generalizing s g st with
  | nil => cases e; exact h
  | cons l r ih => grind [State.fillLanes, → engRead_sound]

theorem fillReg_sound (h : MemSound s.mem) {c g m x g' st} (e : s.fillReg c g m x = .ok t g' st) : MemSound t.mem := by
  grind [State.fillReg, → engRead_sound, → fillLanes_sound]

theorem fillRegs_sound (h : MemSound s.mem) {c m g l g' st} (e : s.fillRegs c m g l = .ok t g' st) : MemSound t.mem := by
  induction l generalizing s g g' st with
  | nil => cases e; exact h
  | cons x r ih => grind [State.fillRegs, → fillReg_sound]

/-! ### Matrix loads and block stores (15 R345, R346; 16 R368) -/

theorem mxRead_sound (h : MemSound s.mem) {c efmt n k va bs st} (e : s.mxRead c efmt n k va = .ok t bs st) : MemSound t.mem := by
  grind [State.mxRead, → engReads_sound]

theorem scaleRecord_sound (h : MemSound s.mem) {c q efmt va r st} (e : s.scaleRecord c q efmt va = .ok t r st) : MemSound t.mem := by
  grind [State.scaleRecord, → translate_mem, → engRead_sound]

theorem xbBlocks_sound (h : MemSound s.mem) {c q fmt va l bs st} (e : s.xbBlocks c q fmt va l = .ok t bs st) : MemSound t.mem := by
  induction l generalizing s bs st with
  | nil => cases e; exact h
  | cons i r ih => grind [State.xbBlocks, → mxRead_sound, → scaleRecord_sound]

theorem readColumn_sound (h : MemSound s.mem) {c q o ix col x st} (e : s.readColumn c q o ix col = .ok t x st) : MemSound t.mem := by
  grind [State.readColumn, → mxRead_sound, → xbBlocks_sound]

theorem loadColumns_sound (h : MemSound s.mem) {c q o l} : MemSound (s.loadColumns c q o l).mem := by
  induction l generalizing s o with
  | nil => exact h
  | cons x r ih =>
    unfold State.loadColumns
    dsimp only
    split
    · exact h
    · rwa [mldbFault_mem]
    · rename_i e
      refine ih ?_
      rw [memError_mem, putColumn_mem]
      exact readColumn_sound h e

theorem storeBlock_sound (h : MemSound s.mem) {c efmt va xs fl st} (e : s.storeBlock c efmt va xs = .ok t fl st) : MemSound t.mem := by
  grind [State.storeBlock, → translate_mem, putBytes_sound]

/-! ### Streams, copies and collectives (17) -/

theorem ageReads_sound (h : MemSound s.mem) {c a l vs st} (e : s.ageReads c a l = .ok t vs st) : MemSound t.mem := by
  induction l generalizing s vs st with
  | nil => cases e; exact h
  | cons k r ih => grind [State.ageReads, → engRead_sound]

theorem cpRead_sound (h : MemSound s.mem) {old c va n p bs st} (e : s.cpRead old c va n p = .ok t bs st) : MemSound t.mem := by
  grind [State.cpRead, → engRead_sound]

theorem cpValue_sound (h : MemSound s.mem) {old c d p bs st ix} (e : s.cpValue old c d p = (.ok t bs st, ix)) : MemSound t.mem := by
  grind [State.cpValue, → engRead_sound, → cpRead_sound]

theorem cpElement_sound (h : MemSound s.mem) {old c o d p} (e : s.cpElement old c o d p = .ok t) : MemSound t.mem := by
  grind [State.cpElement, → cpValue_sound, → engWrite_sound, memError_mem]

theorem cpWalk_sound (h : MemSound s.mem) {old c o d k p} : MemSound (s.cpWalk old c o d k p).1.mem := by
  induction k generalizing s p with
  | zero => exact h
  | succ k ih => grind [State.cpWalk, → cpElement_sound]

theorem collReads_sound (h : MemSound s.mem) {c n k i va l st} (e : s.collReads c n k i va = .ok (t, l, st)) : MemSound t.mem := by
  induction k generalizing s i va l st with
  | zero => cases e; exact h
  | succ k ih => grind [State.collReads, → engRead_sound]

theorem collWrites_sound (h : MemSound s.mem) {c o n i l} : MemSound (s.collWrites c o n i l).1.mem := by
  induction l generalizing s i with
  | nil => exact h
  | cons x r ih => grind [State.collWrites, → engWrite_sound, memError_mem]

/-! ### Text commands (11) -/

theorem bytesFrom_sound (h : MemSound s.mem) {c k va} : MemSound (s.bytesFrom c k va).1.mem := by
  induction k generalizing s va with
  | zero => exact h
  | succ k ih => grind [State.bytesFrom, → engRead_sound]

theorem bytesTo_sound (h : MemSound s.mem) {c lid va bs} : MemSound (s.bytesTo c lid va bs).1.mem := by
  induction bs generalizing s va with
  | nil => exact h
  | cons b r ih => grind [State.bytesTo, → engWrite_sound, memError_mem]

theorem idsTo_sound (h : MemSound s.mem) {c lid va ids} : MemSound (s.idsTo c lid va ids).1.mem := by
  induction ids generalizing s va with
  | nil => exact h
  | cons x r ih => grind [State.idsTo, → engWrite_sound, memError_mem]

theorem writeUnits_sound (h : MemSound s.mem) {c lid dst cap o l} : MemSound (s.writeUnits c lid dst cap o l).1.mem := by
  induction l generalizing s o with
  | nil => exact h
  | cons x r ih => grind [State.writeUnits, idsTo_sound]

theorem endDet_sound (h : MemSound s.mem) {c o0 o d out err} : MemSound (s.endDet c o0 o d out err).mem := by
  grind [State.endDet, bytesTo_sound, endText_mem, textStop_mem]

theorem detTokens_sound (h : MemSound s.mem) {c x stops d flush k o} : MemSound (s.detTokens c x stops d flush k o).mem := by
  induction k generalizing s o with
  | zero => exact endDet_sound h
  | succ k ih => grind [State.detTokens, → engRead_sound, bytesTo_sound, endDet_sound, textStop_mem]

theorem loadSections_sound (h : MemSound s.mem) {c base l m m' st} (e : s.loadSections c base l m = .ok t m' st) : MemSound t.mem := by
  induction l generalizing s m m' st with
  | nil => cases e; exact h
  | cons x r ih => grind [State.loadSections, → engReads_sound]

theorem check_sound {x : Eng (AMap Byte)} {bad f m st} (hx : ∀ s m st, x = .ok s m st → MemSound s.mem)
    (hf : ∀ s m st, MemSound s.mem → ∀ t m' st', f s m st = .ok t m' st' → MemSound t.mem) (e : x.check bad f = .ok t m st) :
    MemSound t.mem := by
  unfold Eng.check at e
  split at e
  · cases e
  · cases e
  · rename_i s m0 st0
    have hs := hx s m0 st0 rfl
    split at e
    · cases e; exact hs
    · exact hf s m0 st0 hs _ _ _ e

theorem loadImage_sound (h : MemSound s.mem) {c base gram m st} (e : s.loadImage c base gram = .ok t m st) : MemSound t.mem := by
  have sections {s : State} (h : MemSound s.mem) l m (t : State) m' st : s.loadSections c base l m = .ok t m' st → MemSound t.mem :=
    loadSections_sound h
  have yes {s : State} (h : MemSound s.mem) (m : Option (AMap Byte)) st (t : State) m' st' (e : Eng.ok s m st = .ok t m' st') :
      MemSound t.mem := by cases e; exact h
  unfold State.loadImage at e
  dsimp only at e
  split at e
  · refine check_sound (sections h _ _) (fun s m st h t m' st' e => ?_) e
    split at e
    · exact yes h _ _ _ _ _ e
    · exact check_sound (sections h _ _) (fun s m st h => yes h _ _) e
  · refine check_sound (sections h _ _) (fun s m st h t m' st' e => ?_) e
    split at e
    · exact yes h _ _ _ _ _ e
    · refine check_sound (sections h _ _) (fun s m st h t m' st' e => ?_) e
      split at e
      · exact yes h _ _ _ _ _ e
      · exact check_sound (sections h _ _) (fun s m st h => yes h _ _) e

theorem runTok_sound (h : MemSound s.mem) {c o priv} : MemSound (s.runTok c o priv).mem := by
  grind [State.runTok, bytesFrom_sound, writeUnits_sound, endText_mem, textStop_mem]

theorem runDet_sound (h : MemSound s.mem) {c o} : MemSound (s.runDet c o).mem := by
  grind [State.runDet, → engReads_sound, endDet_sound, detTokens_sound, endText_mem, textStop_mem]

theorem runLoad_sound (h : MemSound s.mem) {c o} : MemSound (s.runLoad c o).mem := by
  grind [State.runLoad, → loadImage_sound, endText_mem, textStop_mem, setText_mem]

theorem runPost_sound (h : MemSound s.mem) {c o} : MemSound (s.runPost c o).mem := by
  grind [State.runPost, bytesFrom_sound, endText_mem, textStop_mem]

end

end Sys2Proof.Machine
end

section
/-!
SUPPORT. Accesses, fences, trees, faults, teams and the front end keep memory's canonical form (for O36).
-/
namespace Sys2Proof.Machine

section
variable {s t : State}

/-! ### Lane accesses (13) -/

@[simp] theorem checkAcc_mem (s : State) (c a half) : (s.checkAcc c a half).1.mem = s.mem := by
  grind [State.checkAcc, → translate_mem]

@[simp] theorem settleFaults_mem (s : State) (gid op) : (s.settleFaults gid op).mem = s.mem := by
  grind [State.settleFaults, setGroup_mem, pushFaults_mem, park_mem]

@[simp] theorem accError_mem (s : State) (gid a b) : (s.accError gid a b).mem = s.mem := by simp [State.accError]

@[simp] theorem finishAcc_mem (s : State) (gid a v) : (s.finishAcc gid a v).mem = s.mem := by
  unfold State.finishAcc
  split
  · rfl
  · dsimp only
    split <;> simp

theorem releaseBefore_sound (h : MemSound s.mem) {gid g a} : MemSound (s.releaseBefore gid g a).1.mem := by
  grind [State.releaseBefore, drainWc_mem, releaseAct_sound]

theorem storeHalf_sound (h : MemSound s.mem) {gid c a half} : MemSound (s.storeHalf gid c a half).mem := by
  grind [State.storeHalf, putBytes_sound, updGroup_mem]

theorem blockLoad_sound (h : MemSound s.mem) {c a fmt} : MemSound (s.blockLoad c a fmt).2.mem := by
  grind [State.blockLoad, readPlace_sound]

@[simp] theorem keepRemote_mem (s : State) (a bs) : (s.keepRemote a bs).mem = s.mem := by
  unfold State.keepRemote
  split
  · split <;> rfl
  · rfl

@[simp] theorem answerAcc_mem (s : State) (gid g a status bs) : (s.answerAcc gid g a status bs).mem = s.mem := by
  have failed (s : State) a : (match statusBit status with | some b => s.accError gid a b | none => s).mem = s.mem := by
    split
    · exact accError_mem s _ _ _
    · rfl
  unfold State.answerAcc
  dsimp only
  split
  · rw [updGroup_mem]
    refine (failed _ _).trans ?_
    split <;> simp
  · exact (finishAcc_mem _ _ _ _).trans (failed _ _)
  · refine foldl_keeps State.mem _ (fun s x => ?_) _ s
    split
    · exact failed _ _
    · exact (finishAcc_mem _ _ _ _).trans (failed _ _)

@[simp] theorem ackFor_mem (s : State) (t) : (s.ackFor t).mem = s.mem := by
  unfold State.ackFor
  split
  · rfl
  · split
    · rfl
    · split <;> simp

/-! ### Fences and barriers (14 R325; 19) -/

theorem fence_sound (h : MemSound s.mem) {gid g before rel acq sc} : MemSound (s.fence gid g before rel acq sc).1.mem := by
  grind [State.fence, drainWc_mem, releaseAct_sound, acquireAct_mem]

theorem fence_eq_sound (h : MemSound s.mem) {gid g before rel acq sc ok} (e : s.fence gid g before rel acq sc = (t, ok)) :
    MemSound t.mem := (congrArg (fun x => MemSound x.1.mem) e).mp (fence_sound h)

theorem laneArrive_sound (h : MemSound s.mem) {x w n} (e : s.laneArrive x w = some (t, n)) : MemSound t.mem := by
  grind [State.laneArrive, → fence_eq_sound, barArrive_mem]

@[simp] theorem accessCount_mem (s : State) (g a) : (s.accessCount g a).1.mem = s.mem := by
  unfold State.accessCount
  dsimp only
  split
  · exact err_mem _ _ _
  · rfl

theorem accessArrive_sound (h : MemSound s.mem) {gid g k a n} (e : s.accessArrive gid g k a = some (t, n)) : MemSound t.mem := by
  grind [State.accessArrive, → fence_eq_sound, barArrive_mem, accessCount_mem]

@[simp] theorem accessNext_mem (s : State) (gid g) : (s.accessNext gid g).mem = s.mem := rfl
@[simp] theorem accessJump_mem (s : State) (gid g pc) : (s.accessJump gid g pc).mem = s.mem := rfl

/-! ### Trees and pages (09, 10) -/

theorem kvTranslate_mem {c need va tg} (e : s.kvTranslate c need va = .ok (t, tg)) : t.mem = s.mem := by
  grind [State.kvTranslate, → translate_mem]

theorem copyLine_sound (h : MemSound s.mem) {c src dst b st} (e : s.copyLine c src dst = .ok t b st) : MemSound t.mem := by
  grind [State.copyLine, → kvTranslate_mem, readPlace_sound, writePlace_sound]

theorem copyLines_sound (h : MemSound s.mem) {c l b st} (e : s.copyLines c l = .ok t b st) : MemSound t.mem := by
  induction l generalizing s b st with
  | nil => cases e; exact h
  | cons x r ih => grind [State.copyLines, → copyLine_sound]

theorem own_sound (h : MemSound s.mem) {key tr part b j tr' ok} (e : s.own key tr part b j = some (t, tr', ok)) : MemSound t.mem := by
  grind [State.own, → popRow_mem, → copyLines_sound, dropRow_mem]

theorem addSlot_sound (h : MemSound s.mem) {key tr part b tr' p} (e : s.addSlot key tr part b = some (t, tr', p)) : MemSound t.mem := by
  grind [State.addSlot, → popRow_mem, → own_sound]

theorem gstep_mem {part die gset g c tok g' c'} (e : s.gstep part die gset g c tok = .ok (t, g', c')) : t.mem = s.mem := by
  revert e
  fun_cases State.gstep s part die gset g c tok
  case case1 => rintro ⟨⟩; rfl
  case case7 pushed => rintro ⟨⟩; exact pushCells_mem _ pushed
  all_goals rintro ⟨⟩

theorem addNode_sound (h : MemSound s.mem) {key tr part b tok tr' n} (e : s.addNode key tr part b tok = some (t, tr', n)) :
    MemSound t.mem := by
  revert e
  fun_cases State.addNode s key tr part b tok
  case case7 => rintro ⟨⟩
  case case9 step _ inc _ _ _ slot _ _ _ _ _ _ _ =>
    have sound := addSlot_sound (by rwa [incCell_mem _ inc, gstep_mem step]) slot
    rintro ⟨⟩
    exact sound
  all_goals rintro ⟨⟩; exact h

theorem addLanes_sound (h : MemSound s.mem) {key tr part b fail l tr' x} (e : s.addLanes key tr part b fail l = some (t, tr', x)) :
    MemSound t.mem := by
  induction l generalizing s tr fail t tr' x with
  | nil => cases e; exact h
  | cons a r ih =>
    obtain ⟨l, tok⟩ := a
    cases fail with
    | none => grind [State.addLanes, → addNode_sound]
    | some c => grind [State.addLanes]

@[simp] theorem newTree_mem (s : State) (part root die slot layers gset tok) :
    (s.newTree part root die slot layers gset tok).1.mem = s.mem := by
  grind [State.newTree, → popRow_mem, setTree_mem]

@[simp] theorem trnew_mem (s : State) (o root) : (s.trnew o root).1.mem = s.mem := by
  grind [State.trnew, newTree_mem]

@[simp] theorem forkLane_mem (s : State) (part tr x) : (s.forkLane part tr x).1.mem = s.mem := by
  have rows (s : State) (l : List Nat) : (l.foldl (fun s r => s.addRow part r) s).mem = s.mem :=
    foldl_keeps State.mem _ (fun s _ => addRow_mem s _ _) l s
  grind [State.forkLane]

@[simp] theorem forkLanes_mem (s : State) (part tr l) : (s.forkLanes part tr l).1.mem = s.mem := by
  induction l generalizing s tr with
  | nil => rfl
  | cons a r ih => exact (ih _ _).trans (forkLane_mem _ _ _ _)

@[simp] theorem pruneBr_mem (s : State) (o key tr) : (s.pruneBr o key tr).1.mem = s.mem := by
  grind [State.pruneBr, removeBranches_mem]

@[simp] theorem pruneSub_mem (s : State) (o key tr) : (s.pruneSub o key tr).1.mem = s.mem := by
  grind [State.pruneSub, removeBranches_mem, freeNodes_mem]

@[simp] theorem assignRows_mem (s : State) (key tr k n) : (s.assignRows key tr k n).1.mem = s.mem := by
  induction n generalizing s k with
  | zero => rfl
  | succ n ih => grind [State.assignRows, → popRow_mem]

@[simp] theorem assignComp_mem (s : State) (key tr k) : (s.assignComp key tr k).1.mem = s.mem := by
  have rows := assignRows_mem s key tr k (64 * 4100)
  unfold State.assignComp
  split
  · rename_i e; rwa [e] at rows
  · rename_i e; rwa [e] at rows

@[simp] theorem trcommit_mem (s : State) (o key tr) : (s.trcommit o key tr).1.mem = s.mem := by
  grind [State.trcommit, removeBranches_mem, assignComp_mem, setTree_mem]

theorem trWrite_sound (h : MemSound s.mem) {c lid n k va bs} (e : s.trWrite c lid n k va bs = some t) : MemSound t.mem := by
  grind [State.trWrite, → engWrites_sound, memError_mem]

theorem amaskRows_sound (h : MemSound s.mem) {c lid va row l} (e : s.amaskRows c lid va row l = some t) : MemSound t.mem := by
  induction l generalizing s with
  | nil => cases e; exact h
  | cons r rest ih => grind [State.amaskRows, → trWrite_sound]

theorem amask_sound (h : MemSound s.mem) {o c r} (e : s.amask o c = some (t, r)) : MemSound t.mem := by
  grind [State.amask, Option.map_eq_some_iff, → amaskRows_sound]

theorem gmask_sound (h : MemSound s.mem) {o c r} (e : s.gmask o c = some (t, r)) : MemSound t.mem := by
  revert e
  fun_cases State.gmask s o c
  case case4 | case5 => rintro ⟨⟩
  case case6 w1 _ w2 _ =>
    rintro ⟨⟩
    exact trWrite_sound (trWrite_sound h w1) w2
  all_goals rintro ⟨⟩; exact h

theorem kvLane_sound (h : MemSound s.mem) {o key tr own half x r} (e : s.kvLane o key tr own half x = some (t, r)) : MemSound t.mem := by
  grind [State.kvLane, → own_sound]

theorem kvLanes_sound (h : MemSound s.mem) {o key tr own half l r} (e : s.kvLanes o key tr own half l = some (t, r)) :
    MemSound t.mem := by
  induction l generalizing s tr r with
  | nil => cases e; exact h
  | cons a rest ih => grind [State.kvLanes, → kvLane_sound]

theorem drawCl_sound (h : MemSound s.mem) {c r v st} (e : s.drawCl c r = .ok t v st) : MemSound t.mem := by
  grind [State.drawCl, → engReads_sound]

theorem biasPairs_sound (h : MemSound s.mem) {c hi n va prev l st} (e : s.biasPairs c hi n va prev = .ok t l st) : MemSound t.mem := by
  induction n generalizing s va prev l st with
  | zero => cases e; exact h
  | succ n ih => grind [State.biasPairs, → engReads_sound]

theorem drawTok_sound (h : MemSound s.mem) {c q tile row r cl v st} (e : s.drawTok c q tile row r cl = .ok t v st) :
    MemSound t.mem := by
  grind [State.drawTok, → biasPairs_sound, → engReads_sound]

theorem drawLanes_sound (h : MemSound s.mem) {c o q l v st} (e : s.drawLanes c o q l = .ok t v st) : MemSound t.mem := by
  induction l generalizing s v st with
  | nil => cases e; exact h
  | cons a rest ih => grind [State.drawLanes, → engRead_sound, → drawTok_sound, → drawCl_sound]

theorem performTr_sound (h : MemSound s.mem) {o g c r} (e : s.performTr o g c = some (t, r)) : MemSound t.mem := by
  grind [State.performTr, Option.map_eq_some_iff, trnew_mem, → amask_sound, → gmask_sound, → drawLanes_sound, → addLanes_sound, forkLanes_mem, pruneBr_mem,
    pruneSub_mem, trcommit_mem, → kvLanes_sound, setTree_mem, memError_mem]

end

end Sys2Proof.Machine
end

section
/-!
SUPPORT. The front end, teams, faults' answers and the mailbox keep memory's canonical form (for O36).
-/
namespace Sys2Proof.Machine

section
variable {s t : State}

/-! ### The front end (06) -/

theorem feRead_mem {c va n bs} (e : s.feRead c va n = .ok t bs) : t.mem = s.mem := readsOnly_mem (feRead_reads e)

theorem feReads_mem {c k va bs} (e : s.feReads c k va = .ok t bs) : t.mem = s.mem := readsOnly_mem (feReads_reads k e)

theorem feWrite_sound (h : MemSound s.mem) {c va bs u} (e : s.feWrite c va bs = .ok t u) : MemSound t.mem := by
  grind [State.feWrite, → translate_mem, sendFree_mem, storeFrom_sound]

@[simp] theorem freeRowsOf_mem (s : State) (x) : (s.freeRowsOf x).mem = s.mem := by
  unfold State.freeRowsOf
  dsimp only
  refine foldl_keeps State.mem _ (fun s r => ?_) _ _
  exact setRow_mem s x.part r { st := .free, count := 0 }

@[simp] theorem abandonCompaction_mem (s : State) (key) : (s.abandonCompaction key).mem = s.mem := by
  unfold State.abandonCompaction
  split
  · rfl
  · dsimp only
    rw [broadcast_mem, setTree_mem]
    exact foldl_keeps State.mem _ (fun s r => setRow_mem s _ _ _) _ _

@[simp] theorem resumeSource_mem (s : State) (r) : (s.resumeSource r).mem = s.mem := by
  grind [State.resumeSource, updGroup_mem, perfOf_mem, setMx_mem]

@[simp] theorem declineSource_mem (s : State) (r) : (s.declineSource r).mem = s.mem := by
  fun_cases State.declineSource s r <;> simp

@[simp] theorem dropDriver_mem (s : State) (q) : (s.dropDriver q).mem = s.mem := by
  unfold State.dropDriver
  dsimp only
  exact foldl_keeps State.mem _ declineSource_mem _ _

@[simp] theorem stopQueue_mem (s : State) (q) : (s.stopQueue q).mem = s.mem := by simp [State.stopQueue]

theorem writeRecord_sound (h : MemSound s.mem) {q x seq bs} (e : s.writeRecord q x seq bs = some t) : MemSound t.mem := by
  grind [State.writeRecord, → feWrite_sound, stopQueue_mem, updQueue_mem]

theorem failPacket_sound (h : MemSound s.mem) {q x b skip} (e : s.failPacket q x b skip = some t) : MemSound t.mem := by
  grind [State.failPacket, Option.map_eq_some_iff, → writeRecord_sound, stopQueue_mem, updQueue_mem]

theorem failPacket_getD_sound {old : State} (h : MemSound s.mem) (k : MemSound old.mem) {q x b skip} :
    MemSound ((s.failPacket q x b skip).getD old).mem := by
  cases e : s.failPacket q x b skip with
  | none => exact k
  | some t => exact failPacket_sound h e

theorem ringTest_sound (h : MemSound s.mem) {q} : MemSound (s.ringTest q).mem := by
  grind [State.ringTest, failPacket_getD_sound]

theorem launchBytes_mem {q x pass bs} (e : s.launchBytes q x pass bs = some t) : t.mem = s.mem := by
  grind [State.launchBytes, launchWith_mem]

@[simp] theorem startFlip_mem (s : State) (q) : (s.startFlip q).mem = s.mem := by
  grind [State.startFlip, updQueue_mem, emit_mem]

@[simp] theorem flipDone_mem (s : State) (page) : (s.flipDone page).mem = s.mem := by
  unfold State.flipDone
  dsimp only
  refine (foldl_keeps State.mem _ startFlip_mem _ _).trans (foldl_keeps State.mem _ (fun s q => ?_) _ _)
  split
  · split
    · split
      · split <;> simp
      · rfl
    · rfl
  · rfl

theorem maintain_sound (h : MemSound s.mem) {x form lo hi pages} : MemSound (s.maintain x form lo hi pages).mem := by
  fun_cases State.maintain s x form lo hi pages
  · exact foldl_sound (fun _ _ h => flushEverywhere_sound h) _ h
  · exact foldl_sound (fun _ _ h => cleanLine_sound h) _ h
  all_goals exact h

theorem beforeHost_sound (h : MemSound s.mem) {line} : MemSound (s.beforeHost line).mem := by
  grind [State.beforeHost, cleanLine_sound]

/-! ### Faults' answers (20) -/

@[simp] theorem pushRecord_mem (s : State) (r) : (s.pushRecord r).mem = s.mem := by
  unfold State.pushRecord
  dsimp only
  split
  · exact updLaunch_mem _ _ _
  · rfl

theorem takeForwarded_mem {rseq r} (e : s.takeForwarded rseq = some (r, t)) : t.mem = s.mem := by
  grind [State.takeForwarded]

theorem copyOnWrite_sound (h : MemSound s.mem) {r} (e : s.copyOnWrite r = some t) : MemSound t.mem := by
  revert e
  fun_cases State.copyOnWrite s r
  case case1 => rintro ⟨⟩
  case case2 => rintro ⟨⟩; exact h
  case case3 =>
    rintro ⟨⟩
    rw [updPart_mem]
    exact writeKeys_sound (foldl_sound (fun _ _ h => writeKey_sound h) _ (foldl_sound (fun _ _ h => flushEverywhere_sound h) _ h))

theorem serveRecord_sound (h : MemSound s.mem) {r} : MemSound (s.serveRecord r).mem := by
  have copied : MemSound ((s.copyOnWrite r).getD s).mem := by
    cases e : s.copyOnWrite r with
    | none => exact h
    | some t => exact copyOnWrite_sound h e
  grind [State.serveRecord, resumeSource_mem, dropTranslation_mem]

theorem laneWord_mem {c va w} (e : s.laneWord c va = .ok t w) : t.mem = s.mem := readsOnly_mem (laneWord_reads e)

@[simp] theorem resumeSplit_mem (s : State) (gid e en r) : (s.resumeSplit gid e en r).mem = s.mem := by
  unfold State.resumeSplit
  dsimp only
  split
  · rfl
  · split
    · simp
    · split
      · split
        · split
          · rfl
          · simp
          · rename_i word
            simp [laneWord_mem word]
        · simp
      · split <;> simp

theorem handle_mem {x a} (e : s.handle x a = some t) : t.mem = s.mem := by
  revert e
  fun_cases State.handle s x a
  all_goals rintro ⟨⟩
  all_goals simp only [updGroup_mem, clearStop_mem, resumeSplit_mem, err_mem, exitLanes_mem, handlerKill_mem]
  rfl

@[simp] theorem act_mem (s : State) (x a) : (s.act x a).mem = s.mem := by
  grind [State.act, → handle_mem, answered_mem]

/-! ### Teams, kills and power (08, 20, 22) -/

@[simp] theorem saveQuarter_mem (s : State) (tid q) : (s.saveQuarter tid q).mem = s.mem := by simp [State.saveQuarter]

@[simp] theorem restoreQuarter_mem (s : State) (tm q) : (s.restoreQuarter tm q).mem = s.mem := by simp [State.restoreQuarter]

theorem leaveCores_sound (h : MemSound s.mem) {tid tm} : MemSound (s.leaveCores tid tm).mem := by
  unfold State.leaveCores
  refine foldl_sound (fun s c h => ?_) _ (by simpa using h)
  split
  · exact h
  · exact unpin_sound h

theorem retireTeam_sound (h : MemSound s.mem) {tid tm} : MemSound (s.retireTeam tid tm).mem := by
  grind [State.retireTeam, powerTest_mem, retarget_mem, updLaunch_mem, updTeam_mem, freeBars_mem, leaveCores_sound]

theorem teamTest_sound (h : MemSound s.mem) {tid} : MemSound (s.teamTest tid).mem := by
  grind [State.teamTest, detachTest_mem, updTeam_mem, retireTeam_sound]

theorem resumeTeam_sound (h : MemSound s.mem) {tid tm die cores} : MemSound (s.resumeTeam tid tm die cores).mem := by
  unfold State.resumeTeam
  dsimp only
  refine foldl_sound (fun s gid h => ?_) _ ?_
  · split
    · split
      · simpa using releaseAct_sound h
      · exact h
    · exact h
  · rw [updTeam_mem]
    refine foldl_sound (fun s ix h => ?_) _ ?_
    · split
      · rwa [updGroup_mem]
      · exact h
    · have back : MemSound ((quartersOf die cores).foldl
          (fun s q => if s.quarterUsed q.2 then s else s.restoreQuarter tm q) s).mem :=
        foldl_sound (fun s q h => by split <;> simpa using h) _ h
      split <;> exact back

theorem tryResume_sound (h : MemSound s.mem) {tid die cores} (e : s.tryResume tid die cores = some t) : MemSound t.mem := by
  grind [State.tryResume, pointReady_mem, resumeTeam_sound]

@[simp] theorem stopPart_mem (s : State) (part) : (s.stopPart part).mem = s.mem :=
  foldl_keeps State.mem _ stopQueue_mem _ _

@[simp] theorem enterError_mem (s : State) (part) : (s.enterError part).mem = s.mem := by simp [State.enterError]

@[simp] theorem setPool_mem (s : State) (part die kvb lmax row0 nr) : (s.setPool part die kvb lmax row0 nr).mem = s.mem := by
  fun_cases State.setPool s part die kvb lmax row0 nr <;> rfl

theorem lastRecord_sound (h : MemSound s.mem) {e} : MemSound (s.lastRecord e).mem := by
  grind [State.lastRecord, → translate_mem, storeFrom_sound]

/-! ### Ports (21) -/

@[simp] theorem takePortDown_mem (s : State) (p) : (s.takePortDown p).mem = s.mem := by
  unfold State.takePortDown
  dsimp only
  refine foldl_keeps State.mem _ (fun s r => ?_) _ _
  exact emit_mem _ _

@[simp] theorem flow_mem (s : State) (port ch stop) : (s.flow port ch stop).mem = s.mem := by
  fun_cases State.flow s port ch stop <;> rfl

end

end Sys2Proof.Machine
end

section
/-!
SUPPORT. The words of the three streams answer states of sound memory (for O36).
-/
namespace Sys2Proof.Machine

/-- Where the outcome is a next state, its memory is sound: a fault and a refusal hold no state. -/
def SoundOut : Out → Prop
  | .next t => MemSound t.mem
  | _ => True

@[simp] theorem soundOut_next {t : State} : SoundOut (.next t) ↔ MemSound t.mem := Iff.rfl
@[simp] theorem soundOut_fault {f : Fault} : SoundOut (.fault f) := trivial

theorem soundOut_ite {c : Prop} [Decidable c] {a b : Out} (ha : SoundOut a) (hb : SoundOut b) : SoundOut (if c then a else b) := by
  split
  · exact ha
  · exact hb

/-! ### Lane words -/

section LaneWords
variable {s : State} (h : MemSound s.mem)
include h

theorem issueAlu_soundOut {gp : BitVec 3} {neg : Bool} {imm : BitVec 32} {srcs : LaneMask → Src × Src × Src}
    {f : Issue → LaneMask → (Nat → Word32) → (Nat → Word32) → (Nat → Word32) → Result} :
    SoundOut (s.issueAlu gp neg imm srcs f) := by
  fun_cases State.issueAlu s gp neg imm srcs f <;> simp [h]

theorem control_soundOut {neg : Bool} {gp : BitVec 3} {f : Issue → LaneMask → Xfer} : SoundOut (s.control neg gp f) := by
  fun_cases State.control s neg gp f <;> simp [h]

theorem indirect_soundOut {neg : Bool} {gp : BitVec 3} {dst : Operand} {kind : XferKind} {rc : Issue → Option PC} :
    SoundOut (s.indirect neg gp dst kind rc) := by
  fun_cases State.indirect s neg gp dst kind rc <;> simp [h]

theorem plainLane_soundOut {w : Lane} {f : Issue → LaneMask → Out} (hf : ∀ y m, SoundOut (f y m)) :
    SoundOut (s.plainLane w f) := by
  fun_cases State.plainLane s w f
  case case4 => exact hf _ _
  all_goals simp [h]

theorem queueMx_soundOut {x : Issue} {w : Lane} {kind : MxKind} {rows : LaneMask} {g : Group} :
    SoundOut (s.queueMx x w kind rows g) := by
  grind [State.queueMx, SoundOut, barLink_mem, done_mem]

theorem issueMx_soundOut {w : Lane} {kind : MxKind} : SoundOut (s.issueMx w kind) := by
  grind [State.issueMx, SoundOut, queueMx_soundOut, done_mem, trapPrecise_mem, pushFaults_mem, updGroup_mem, park_mem]

theorem issueTr_soundOut {w : Lane} {kind : TreeKind} {chk hold : Bool}
    {xs : (Nat → Word32) → (Nat → Word32) → (Nat → Word32) → Nat → Word32} {pre : State → Actx → TreeOp → Option TrStop} :
    SoundOut (s.issueTr w kind chk hold xs pre) := by
  grind [State.issueTr, SoundOut, done_mem, trapPrecise_mem, pushFaults_mem, updGroup_mem, park_mem]

theorem execTrtag_soundOut {w : Lane} : SoundOut (execTrtag w s) := by
  have issued : SoundOut (s.issueTr w .tag (laneChk w) (laneChk w) useB noStop) := issueTr_soundOut h
  grind [execTrtag, SoundOut, updGroup_mem]

theorem execSwr_soundOut {w : Lane} : SoundOut (execSwr w s) := by
  fun_cases execSwr w s <;> simp [h]

theorem memLane_soundOut {w : Lane} {size : Nat} {cas : Bool} {what : Dest → BitVec 64 → BitVec 64 → AccWhat} :
    SoundOut (s.memLane w size cas what) := by
  fun_cases State.memLane s w size cas what <;> simp [h]

theorem laneOp_soundOut {w : Lane} {f : Word32 → Word32 → Word32 → FRes} : SoundOut (s.laneOp w f) := by
  unfold State.laneOp; exact issueAlu_soundOut h

theorem laneInt_soundOut {w : Lane} {f : Word32 → Word32 → Word32 → Word32} : SoundOut (s.laneInt w f) := by
  unfold State.laneInt; exact laneOp_soundOut h

theorem laneFloat_soundOut {w : Lane} {op : FF → Rm → Word32 → Word32 → Word32 → FRes} : SoundOut (s.laneFloat w op) := by
  unfold State.laneFloat; exact laneOp_soundOut h

theorem predOp_soundOut {w : Lane} {f : LaneMask → LaneMask → LaneMask} : SoundOut (s.predOp w f) := by
  unfold State.predOp; exact issueAlu_soundOut h

theorem vtos_soundOut {w : Lane} {f : Word32 → Word32 → Word64} : SoundOut (s.vtos w f) := by
  unfold State.vtos; exact issueAlu_soundOut h

theorem setBitsOf_soundOut {w : Lane} {f : Fullness} : SoundOut (s.setBitsOf w f) := by
  unfold State.setBitsOf; exact issueAlu_soundOut h

theorem atomLane_soundOut {w : Lane} {ret : Bool} {fn : AtomFn} : SoundOut (s.atomLane w ret fn) := by
  unfold State.atomLane; exact memLane_soundOut h

theorem execFence_soundOut {w : Lane} : SoundOut (execFence w s) := by
  refine plainLane_soundOut h (fun x m => ?_)
  dsimp only
  rw [soundOut_next]
  split
  · rw [done_mem]; exact fence_sound h
  · exact fence_sound h

theorem laneArrive_soundOut {x : Issue} {w : Lane} {f : Nat → Group} :
    SoundOut (match s.laneArrive x w with | none => .next s | some (s', p) => .next (x.done s' (f p))) := by
  split
  · exact h
  · rw [soundOut_next, done_mem]
    exact laneArrive_sound h ‹_›

/-- A lane word answers a state of sound memory. -/
theorem lane_soundOut (i : Instr) (lane : i.origin = .lane) : SoundOut (exec i s) := by
  cases i <;> cases lane <;> dsimp only [exec]
  case add | sub | mul | mulhi | mad | div | rem | abs | neg | min | max | clamp | and | or | xor | not | andn | shl | shr |
      rot | bfx | bfi | popc | clz | ctz | brev | bperm | mov | packB32 | unpackB32 => exact laneInt_soundOut h
  case cmp | sel | pget | pset | cmpFloat | shfl | vballotS | vballotV | vmatch | vreduce | vscan | stov | srd =>
    exact issueAlu_soundOut h
  case pand | por | pxor | pnot => exact predOp_soundOut h
  case addFloat | subFloat | mulFloat | fma | divFloat | sqrt | rsqrt | rcp | minFloat | maxFloat | absFloat | negFloat |
      classFloat | rint | copysign | exp2 | log2 | sin | cos | tanh | sigmoid | gelu | clampFloat =>
    exact laneFloat_soundOut h
  case dot2 | cvt | packFloat | unpackFloat =>
    dsimp only [execDot2, execCvt, execPackFloat, execUnpackFloat]; exact laneOp_soundOut h
  case vtosB32 | vtosN32 | vtosS32 =>
    dsimp only [execVtosB32, execVtosN32, execVtosS32]; exact vtos_soundOut h
  case empty | fill => exact setBitsOf_soundOut h
  case swr => exact execSwr_soundOut h
  case ld | st => exact memLane_soundOut h
  case atomAdd | atomMin | atomMax | atomAnd | atomOr | atomXor | atomXchg | atomCas | redAdd | redMin | redMax | redAnd |
      redOr | redXor => exact atomLane_soundOut h
  case bra | call | ret | brk | exit | trap | bkpt | nop => exact control_soundOut h
  case jmpi | calli => exact indirect_soundOut h
  case mldb | mma | mdrn | mzero => exact issueMx_soundOut h
  case mdrawCl | mdrawTok | trnew | tradd | trfork | trpruneBr | trpruneSub | trcommit | trinfo | amask | gmask | kvslotRd |
      kvslotOwn => exact issueTr_soundOut h
  case trtag => exact execTrtag_soundOut h
  case fence => exact execFence_soundOut h
  case waitc => exact plainLane_soundOut h (fun _ _ => soundOut_ite (by simpa using h) h)
  case barWait => exact plainLane_soundOut h (fun _ _ => by simpa using h)
  case ridgeDetach => exact plainLane_soundOut h (fun _ _ => by simpa using h)
  case barSync | barArrive => exact plainLane_soundOut h (fun _ _ => laneArrive_soundOut h)

end LaneWords

/-! ### Access words -/

section AccessWords
variable {s : State} (h : MemSound s.mem)
include h

theorem accessWord_soundOut {srcs dsts : List SReg} {f : Nat → Group → Out} (hf : ∀ n g, SoundOut (f n g)) :
    SoundOut (s.accessWord srcs dsts f) := by
  fun_cases State.accessWord s srcs dsts f
  case case1 => trivial
  case case2 => exact hf _ _
  case case3 => exact h

theorem accessOp_soundOut {srcs : List SReg} {d : SReg} {f : Group → Word64} : SoundOut (s.accessOp srcs d f) := by
  unfold State.accessOp; exact accessWord_soundOut h (fun _ _ => h)

theorem accessAlu_soundOut {d a b : SReg} {f : Word64 → Word64 → Word64} : SoundOut (s.accessAlu d a b f) := by
  unfold State.accessAlu; exact accessOp_soundOut h

theorem accessImm_soundOut {d a : SReg} {f : Word64 → Word64} : SoundOut (s.accessImm d a f) := by
  unfold State.accessImm; exact accessOp_soundOut h

theorem accessK_soundOut {d a b : SReg} {f : Bool → Bool → Bool} : SoundOut (s.accessK d a b f) := by
  unfold State.accessK; exact accessWord_soundOut h (fun _ _ => h)

theorem accessTrap_soundOut {gid : Nat} {g : Group} {cause : Cause} {addr : VAddr} {code : Nat} {next : Bool} :
    SoundOut (.next (s.accessTrap gid g cause addr code next)) := by
  rwa [soundOut_next, accessTrap_mem]

theorem accessMem_soundOut {srcs dsts : List SReg} {a : SReg} {off : VAddr} {size : Nat} {kind : Kind} {sc : Scope}
    {what : Group → AccWhat} : SoundOut (s.accessMem srcs dsts a off size kind sc what) := by
  unfold State.accessMem
  exact accessWord_soundOut h (fun _ _ => soundOut_ite (accessTrap_soundOut h) h)

theorem accessJumpReg_soundOut {a : SReg} {link : Bool} : SoundOut (s.accessJumpReg a link) := by
  unfold State.accessJumpReg
  exact accessWord_soundOut h (fun _ _ => soundOut_ite (accessTrap_soundOut h) (soundOut_ite h (by simpa using h)))

theorem accessBreak_soundOut {cause : Cause} {c : BitVec 10} : SoundOut (s.accessBreak cause c) := by
  unfold State.accessBreak; exact accessWord_soundOut h (fun _ _ => by simpa using h)

theorem accessPhase_soundOut {gid : Nat} {g : Group} {w : BarWait} : SoundOut (s.accessPhase gid g w) := by
  fun_cases State.accessPhase s gid g w <;> simp [h]

theorem engineWord_soundOut {t a : SReg} {k : Nat} {cls : Option Cls} {ready : Group → Bool}
    {f : State → Nat → Nat → Group → List Word64 → State} (hf : ∀ t id gid g d, (f t id gid g d).mem = t.mem) :
    SoundOut (s.engineWord t a k cls ready f) := by
  unfold State.engineWord
  exact accessWord_soundOut h (fun _ _ => soundOut_ite h (by simpa [hf] using h))

theorem collWord_soundOut {t a : SReg} {op : Nat} {bf16 : Bool} : SoundOut (s.collWord t a op bf16) := by
  unfold State.collWord; exact engineWord_soundOut h (fun _ _ _ _ _ => rfl)

theorem textWord_soundOut {t a : SReg} {k : Nat} {kind : TextKind} {ready : Group → Bool} :
    SoundOut (s.textWord t a k kind ready) := by
  unfold State.textWord; exact engineWord_soundOut h (fun _ _ _ _ _ => rfl)

theorem execCalla_soundOut {k : BitVec 2} {n : Bool} {o : BitVec 23} : SoundOut (execCalla k n o s) := by
  fun_cases execCalla k n o s <;> simp [h]

/-- An access word answers a state of sound memory. -/
theorem access_soundOut (i : Instr) (access : i.origin = .access) : SoundOut (exec i s) := by
  cases i <;> cases access <;> dsimp only [exec]
  case accessAdd | accessSub | accessMul | accessMulhi | accessAnd | accessOr | accessXor | accessAndn | accessShl | accessShr |
      sar | accessRot | accessMin | accessMax | minu | maxu | accessDiv | accessRem | divu | remu => exact accessAlu_soundOut h
  case addi | andi | ori | xori | shli | shri | sari => exact accessImm_soundOut h
  case movi | exti | accessSrd => exact accessOp_soundOut h
  case kand | kor | kxor | kandn => exact accessK_soundOut h
  case ld64 | ld32 | st64 | st32 | lds | sts | aadd | axchg => exact accessMem_soundOut h
  case jr | jrl => exact accessJumpReg_soundOut h
  case calla => exact execCalla_soundOut h
  case accessTrap | accessBkpt => exact accessBreak_soundOut h
  case agset | aggo | aghalt | cpnd | dload => exact engineWord_soundOut h (fun _ _ _ _ _ => rfl)
  case collAllReduce | collReduceScatter | collAllGather => exact collWord_soundOut h
  case txtok | txdet | txload | mbpost => exact textWord_soundOut h
  case accessCmp | halt | accessNop | accessSwr | sete | setf => exact accessWord_soundOut h (fun _ _ => h)
  case br => exact accessWord_soundOut h (fun _ _ => by rw [soundOut_next]; split <;> exact h)
  case accessFence =>
    refine accessWord_soundOut h (fun _ _ => ?_)
    dsimp only
    rw [soundOut_next]
    split <;> exact fence_sound h
  case qputRegister | accessWaitc => exact accessWord_soundOut h (fun _ _ => by split <;> exact h)
  case accessBarArrive =>
    refine accessWord_soundOut h (fun _ _ => ?_)
    split
    · exact h
    · rename_i arrived
      have sound := accessArrive_sound h arrived
      exact sound
  case qputMemory =>
    exact accessWord_soundOut h (fun _ _ => soundOut_ite (accessTrap_soundOut h) (soundOut_ite (by simpa using h) (soundOut_ite h h)))
  case accessBarSync =>
    refine accessWord_soundOut h (fun _ _ => ?_)
    split
    · exact accessPhase_soundOut h
    · split
      · exact h
      · rename_i arrived
        have sound := accessArrive_sound h arrived
        exact sound
  case accessBarWait =>
    refine accessWord_soundOut h (fun _ _ => ?_)
    split
    · exact accessPhase_soundOut h
    · exact h

end AccessWords

/-! ### Drain words -/

section DrainWords
variable {s : State} (h : MemSound s.mem)
include h

theorem drainOp_soundOut {dst : BitVec 2} {f : Drain → FRes} : SoundOut (s.drainOp dst f) := by
  fun_cases State.drainOp s dst f
  case case1 => trivial
  case case2 => exact h

/-- A drain word answers a state of sound memory. -/
theorem drain_soundOut (i : Instr) (drain : i.origin = .drain) : SoundOut (exec i s) := by
  cases i <;> cases drain <;> dsimp only [exec]
  case drainEnd => grind [execDrainEnd, SoundOut, endDrain_mem]
  case drainStore stream a f =>
    fun_cases execDrainStore stream a f s
    all_goals grind [SoundOut, drainFault_mem, memError_mem, drainNext_mem, → engWrite_sound]
  case drainStoreb => grind [execDrainStoreb, SoundOut, drainFault_mem, memError_mem, drainNext_mem, → storeBlock_sound]
  all_goals exact drainOp_soundOut h

end DrainWords

end Sys2Proof.Machine
end

section
/-!
SUPPORT. The events of accesses, runs, engines, trees and faults answer states of sound memory (for O36).
-/
namespace Sys2Proof.Machine

section
variable {s : State} (h : MemSound s.mem)
include h

/-! ### Lane accesses (13) -/

theorem execAccessAccepted_soundOut {gid op lane} : SoundOut (execAccessAccepted gid op lane s) := by
  grind [execAccessAccepted, SoundOut, checkAcc_mem, setGroup_mem, settleFaults_mem, stopAccess_mem]

theorem execStoreSettled_soundOut {gid op lane} : SoundOut (execStoreSettled gid op lane s) := by
  grind [execStoreSettled, SoundOut, wcStore_mem, updGroup_mem, setGroup_mem]

theorem releaseBefore_eq_sound {gid g a t ok} (e : s.releaseBefore gid g a = (t, ok)) : MemSound t.mem := by
  have sound := releaseBefore_sound h (gid := gid) (g := g) (a := a)
  rwa [e] at sound

theorem readPlace_eq_sound {c mode p key n bs t} (e : s.readPlace c mode p key n = (bs, t)) : MemSound t.mem := by
  have sound := readPlace_sound h (c := c) (m := mode) (p := p) (key := key) (n := n)
  rwa [e] at sound

theorem execAccessPerformed_soundOut {gid op lane} : SoundOut (execAccessPerformed gid op lane s) := by
  fun_cases execAccessPerformed gid op lane s
  case case13 =>
    have released := releaseBefore_eq_sound h ‹s.releaseBefore _ _ _ = _›
    have read := readPlace_eq_sound released ‹State.readPlace _ _ _ _ _ _ = _›
    refine foldl_sound (fun s x h => ?_) _ (writePlace_sound read)
    split
    · exact h
    · rwa [finishAcc_mem]
  case case14 =>
    refine foldl_sound (fun s x h => ?_) _ (releaseBefore_eq_sound h ‹s.releaseBefore _ _ _ = _›)
    dsimp only
    split <;> simpa using h
  all_goals grind [SoundOut, sendReq_mem, drainLine_mem, updGroup_mem, storeHalf_sound, accError_mem, finishAcc_mem, writePlace_sound,
    readPlace_sound, releaseBefore_sound]

theorem execLoadCompletion_soundOut {gid op lane} : SoundOut (execLoadCompletion gid op lane s) := by
  fun_cases execLoadCompletion gid op lane s
  all_goals grind [SoundOut, finishAcc_mem, accError_mem, blockLoad_sound, readPlace_sound]

/-! ### Runs and splits (10) -/

omit h in
theorem wordBefore_mem {c va w t} (e : s.wordBefore c va = .ok t w) : t.mem = s.mem := laneWord_mem e

omit h in
theorem runWords_mem {c n va r t} (e : s.runWords c n va = .ok t r) : t.mem = s.mem := readsOnly_mem (runWords_reads n e)

theorem execRunEntry_soundOut {gid e} : SoundOut (execRunEntry gid e s) := by
  fun_cases execRunEntry gid e s
  all_goals grind [SoundOut, trapPrecise_mem, parkFetch_mem, dropTempReplies_mem, setGroup_mem, → laneWord_mem, → runWords_mem, → wordBefore_mem]

theorem execRunCompletion_soundOut {gid e} : SoundOut (execRunCompletion gid e s) := by
  grind [execRunCompletion, SoundOut, setGroup_mem, stopSplit_mem, afterRun_mem]

theorem execAwaitSatisfied_soundOut {gid e} : SoundOut (execAwaitSatisfied gid e s) := by
  grind [execAwaitSatisfied, SoundOut, acquireAct_mem, updGroup_mem, goOn_mem]

theorem execJoinFill_soundOut {gid slot} : SoundOut (execJoinFill gid slot s) := by
  grind [execJoinFill, SoundOut, setGroup_mem]

theorem execWindowSlide_soundOut {gid e} : SoundOut (execWindowSlide gid e s) := by
  fun_cases execWindowSlide gid e s
  case case6 =>
    have spilt := engFold_sound (fun _ _ _ _ _ h e => spillReg_sound h e) h ‹engFold _ s _ = _›
    rwa [soundOut_next, updGroup_mem, memError_mem]
  all_goals simp [h]

theorem execSlideFillsLanded_soundOut {gid e} : SoundOut (execSlideFillsLanded gid e s) := by
  fun_cases execSlideFillsLanded gid e s
  all_goals grind [SoundOut, slideFault_mem, memError_mem, setGroup_mem, transfer_mem, goOn_mem, → fillRegs_sound]

/-! ### Engines (15 to 18) -/

theorem execMatrixOpStart_soundOut {op} : SoundOut (execMatrixOpStart op s) := by
  fun_cases execMatrixOpStart op s
  all_goals grind [SoundOut, setMx_mem, loadColumns_sound, mzeroAll_mem, mmaAll_mem]

theorem execMatrixOpComplete_soundOut {op} : SoundOut (execMatrixOpComplete op s) := by
  grind [execMatrixOpComplete, SoundOut, perfOf_mem, updGroup_mem]

theorem execDrainStart_soundOut {op} : SoundOut (execDrainStart op s) := by
  grind [execDrainStart, SoundOut, err_mem, endDrain_mem, setMx_mem]

theorem execLinkedOpRelease_soundOut {op} : SoundOut (execLinkedOpRelease op s) := by
  grind [execLinkedOpRelease, SoundOut, setMx_mem]

theorem execBarrierCompletionDelivery_soundOut {tid k core} : SoundOut (execBarrierCompletionDelivery tid k core s) := by
  grind [execBarrierCompletionDelivery, SoundOut, updTeam_mem]

theorem execAgeEntry_soundOut {gid stream} : SoundOut (execAgeEntry gid stream s) := by
  grind [execAgeEntry, SoundOut, engineFault_mem, updGroup_mem, memError_mem, → ageReads_sound]

theorem execAgeStreamEnd_soundOut {gid stream} : SoundOut (execAgeStreamEnd gid stream s) := by
  grind [execAgeStreamEnd, SoundOut, endAge_mem]

theorem execCpndComplete_soundOut {op} : SoundOut (execCpndComplete op s) := by
  fun_cases execCpndComplete op s
  all_goals grind [SoundOut, endCp_mem, setCp_mem, engineFault_mem, cpWalk_sound]

theorem execCollMatch_soundOut {op peers} : SoundOut (execCollMatch op peers s) := by
  fun_cases execCollMatch op peers s
  all_goals grind [SoundOut, setColl_mem, collFault_mem, memError_mem, → collReads_sound]

theorem execCollComplete_soundOut {op} : SoundOut (execCollComplete op s) := by
  grind [execCollComplete, SoundOut, endColl_mem, setColl_mem, collFault_mem, collWrites_sound]

theorem execTextCommandComplete_soundOut {op} : SoundOut (execTextCommandComplete op s) := by
  grind [execTextCommandComplete, SoundOut, runTok_sound, runDet_sound, runLoad_sound, runPost_sound]

theorem execTxloadReplacement_soundOut {op} : SoundOut (execTxloadReplacement op s) := by
  grind [execTxloadReplacement, SoundOut, endText_mem]

theorem execDloadComplete_soundOut {op} : SoundOut (execDloadComplete op s) := by
  fun_cases execDloadComplete op s
  all_goals grind [SoundOut, endDload_mem, engineFault_mem, memError_mem, pushFaults_mem, → engRead_sound]

theorem execMailboxDelivery_soundOut {die} : SoundOut (execMailboxDelivery die s) := by
  grind [execMailboxDelivery, SoundOut, emit_mem]

/-! ### Trees (09) -/

theorem execTreeOperationArrival_soundOut {op} : SoundOut (execTreeOperationArrival op s) := by
  grind [execTreeOperationArrival, SoundOut, → performTr_sound]

theorem execTreeReply_soundOut {op} : SoundOut (execTreeReply op s) := by
  fun_cases execTreeReply op s <;> exact h

theorem ackBcast_sound {x cid} : MemSound (s.ackBcast x cid).mem := by
  grind [State.ackBcast, freeRowsOf_mem, setBcast_mem, writeBackCluster_sound]

theorem execCancelBroadcast_soundOut {b die core} : SoundOut (execCancelBroadcast b die core s) := by
  have kills (s : State) (l : AMap Group) : (l.foldl (fun s g => (s.perfOf g.1 15).killGroup g.1) s).mem = s.mem :=
    foldl_keeps State.mem _ (fun s g => (killGroup_mem _ _).trans (perfOf_mem _ _ _)) l s
  fun_cases execCancelBroadcast b die core s
  case case3 => rwa [soundOut_next, setBcast_mem, kills]
  all_goals exact h

theorem execCancelAck_soundOut {b die core} : SoundOut (execCancelAck b die core s) := by
  fun_cases execCancelAck b die core s
  case case3 => exact ackBcast_sound h
  all_goals exact h

theorem execReleaseBroadcast_soundOut {b die core} : SoundOut (execReleaseBroadcast b die core s) := by
  fun_cases execReleaseBroadcast b die core s <;> exact h

theorem execReleaseAck_soundOut {b die core} : SoundOut (execReleaseAck b die core s) := by
  fun_cases execReleaseAck b die core s
  case case3 => exact ackBcast_sound h
  all_goals exact h

theorem execCompactionMove_soundOut {die slot} : SoundOut (execCompactionMove die slot s) := by
  fun_cases execCompactionMove die slot s
  all_goals grind [SoundOut, assignComp_mem, setTree_mem, compRecord_mem, → copyLines_sound]

omit h in
theorem dropRows_eq_mem {part l t emptied} (e : s.dropRows part l = (t, emptied)) : t.mem = s.mem := by
  have frame := dropRows_mem s part l
  rwa [e] at frame

theorem execCompactionSwitch_soundOut {die slot} : SoundOut (execCompactionSwitch die slot s) := by
  fun_cases execCompactionSwitch die slot s
  case case5 =>
    have dropped := dropRows_eq_mem ‹s.dropRows _ _ = _›
    rw [soundOut_next, broadcast_mem, setTree_mem]
    exact foldl_sound (fun s r h => by rwa [addRow_mem]) _ (by rwa [dropped])
  all_goals simp [h]

/-! ### Faults, traps and hangs (20) -/

theorem execFaultRecordPush_soundOut : SoundOut (execFaultRecordPush s) := by
  unfold execFaultRecordPush
  dsimp only
  split
  · exact h
  · rw [soundOut_next, foldl_keeps State.mem _ pushRecord_mem]
    exact h

theorem execFaultRecordTake_soundOut : SoundOut (execFaultRecordTake s) := by
  grind [execFaultRecordTake, SoundOut, emit_mem]

theorem execFaultServiceResume_soundOut {rseq} : SoundOut (execFaultServiceResume rseq s) := by
  grind [execFaultServiceResume, SoundOut, serveRecord_sound, → takeForwarded_mem]

theorem execFaultDecline_soundOut {rseq} : SoundOut (execFaultDecline rseq s) := by
  grind [execFaultDecline, SoundOut, declineSource_mem, → takeForwarded_mem]

theorem execDriverAnswer_soundOut {a} : SoundOut (execDriverAnswer a s) := by
  fun_cases execDriverAnswer a s
  all_goals grind [SoundOut, act_mem, serveRecord_sound, declineSource_mem, → takeForwarded_mem]

theorem act_soundOut {x a} : SoundOut (.next (s.act x a)) := by
  rwa [soundOut_next, act_mem]

theorem execTrapNotice_soundOut : SoundOut (execTrapNotice s) := by
  grind [execTrapNotice, SoundOut, emit_mem, handlerKill_mem]

theorem execHangDetected_soundOut {gid} : SoundOut (execHangDetected gid s) := by
  grind [execHangDetected, SoundOut, pushFaults_mem, handlerKill_mem, setGroup_mem]

end

end Sys2Proof.Machine
end

section
/-!
SUPPORT. The events of queues, teams, links and management answer states of sound memory (for O36).
-/
namespace Sys2Proof.Machine

section
variable {s : State} (h : MemSound s.mem)
include h

/-! ### Queues (06) -/

theorem failOut_soundOut {old : State} (k : MemSound old.mem) {q x b skip} : SoundOut (s.failOut old q x b skip) :=
  failPacket_getD_sound h k

theorem feReads_sound {t c k va bs} (e : s.feReads c k va = .ok t bs) : MemSound t.mem := by rwa [feReads_mem e]

theorem consume_soundOut {q : Nat} {mine : Nat → Bool} {f : State → Queue → Nat → Out}
    (hf : ∀ t x p, MemSound t.mem → SoundOut (f t x p)) : SoundOut (s.consume q mine f) := by
  fun_cases State.consume s q mine f
  case case4 => exact failOut_soundOut h h
  case case5 => exact failOut_soundOut (feReads_sound h ‹_›) h
  case case7 => exact failOut_soundOut (feReads_sound h ‹_›) h
  case case8 => exact hf _ _ _ (feReads_sound h ‹_›)
  all_goals exact h

theorem eventTest_soundOut {old : State} (k : MemSound old.mem) {q x va target sc} : SoundOut (s.eventTest old q x va target sc) := by
  grind [State.eventTest, SoundOut, failOut_soundOut, ringTest_sound, consumed_mem, frontAcquire_mem, updQueue_mem, → feRead_mem]

theorem cmaint_soundOut {q form : Nat} {next : State → State} (hn : ∀ t, (next t).mem = t.mem) : SoundOut (s.cmaint q form next) := by
  refine consume_soundOut h (fun t x p k => soundOut_ite (failOut_soundOut k h) ?_)
  rw [soundOut_next, hn]
  exact k

theorem signalPacket_soundOut {q : Nat} {add : Bool} : SoundOut (s.signalPacket q add) :=
  consume_soundOut h (fun _ _ _ k => k)

theorem execDoorbell_soundOut {q widx} : SoundOut (execDoorbell q widx s) := by
  fun_cases execDoorbell q widx s
  · exact h
  · exact ringTest_sound (by simpa using h)

theorem execDispatch_soundOut {q} : SoundOut (execDispatch q s) := by
  refine consume_soundOut h (fun s1 x p k => ?_)
  dsimp only
  split
  · exact h
  · exact failOut_soundOut k h
  · rename_i head
    have k2 := feReads_sound k head
    refine soundOut_ite (failOut_soundOut k2 h) ?_
    split
    · exact h
    · exact failOut_soundOut k2 h
    · rename_i args
      split
      · exact h
      · rename_i launched
        rw [soundOut_next, consumed_mem, launchBytes_mem launched]
        exact feReads_sound k2 args

theorem execPrologue_soundOut {q} : SoundOut (execPrologue q s) := by
  refine consume_soundOut h (fun s1 x p k => ?_)
  split
  · exact h
  · exact failOut_soundOut k h
  · rename_i read
    rwa [soundOut_next, updQueue_mem, feReads_mem read]

omit h in
theorem passRun_mem {c x n} {p p' : Pass} (e : Pass.run c x n p = .halt p') : p'.s.mem = p.s.mem := readsOnly_mem (passRun_reads n e)

theorem execProloguePass_soundOut {q} : SoundOut (execProloguePass q s) := by
  fun_cases execProloguePass q s
  all_goals grind [SoundOut, frontAcquire_mem, → passRun_mem, consumed_mem, launchWith_mem, updQueue_mem, → launchBytes_mem]

theorem execWaitevReread_soundOut {q} : SoundOut (execWaitevReread q s) := by
  fun_cases execWaitevReread q s
  case case2 => exact eventTest_soundOut h h
  all_goals exact h

theorem execSignalRelease_soundOut {q} : SoundOut (execSignalRelease q s) := by
  have released : MemSound s.frontRelease.mem := frontRelease_sound h
  fun_cases execSignalRelease q s
  all_goals grind [SoundOut, failOut_soundOut, consumed_mem, sendFree_mem, storeFrom_sound, → translate_mem]

theorem drains_sound {f : WcEntry → Bool} {l : AMap (List WcEntry)} : MemSound (l.foldl (fun s c => s.drainWc c.1 f) s).mem :=
  foldl_sound (fun s c h => by rwa [drainWc_mem]) l h

theorem execCompletionRecordWrite_soundOut {launch} : SoundOut (execCompletionRecordWrite launch s) := by
  have released : MemSound s.frontRelease.mem := frontRelease_sound h
  fun_cases execCompletionRecordWrite launch s
  case case3 => exact drains_sound h
  all_goals grind [SoundOut, emit_mem, dropLaunch_mem, → writeRecord_sound]

theorem execCmaintCompletion_soundOut {q} : SoundOut (execCmaintCompletion q s) := by
  fun_cases execCmaintCompletion q s
  case case2 => rwa [soundOut_next, startFlip_mem]
  case case3 =>
    rw [soundOut_next, consumed_mem]
    exact maintain_sound h
  all_goals exact h

/-- For a general state, since the kernel would else compare the other fields of a flush of 24 clusters by evaluating it. -/
theorem setBias_sound {bias} : MemSound { s with bias := bias }.mem := h

theorem execBiasLineAction_soundOut {page} : SoundOut (execBiasLineAction page s) := by
  unfold execBiasLineAction
  split
  · dsimp only
    split
    · exact setBias_sound (flushEverywhere_sound h)
    · rw [soundOut_next, flipDone_mem]
      exact setBias_sound (flushEverywhere_sound h)
  · split
    · exact h
    · rwa [soundOut_next, flipDone_mem]
  · exact h

theorem execBackInvalidateResponse_soundOut {page data} : SoundOut (execBackInvalidateResponse page data s) := by
  grind [execBackInvalidateResponse, SoundOut, hostBytes_sound]

/-! ### Launches and teams (07, 08, 20) -/

theorem execTeamPlacement_soundOut {launch die cores} : SoundOut (execTeamPlacement launch die cores s) := by
  unfold execTeamPlacement
  split
  · exact h
  · split
    · exact h
    · dsimp only
      split
      · rwa [soundOut_next, pointReady_mem]
      · split
        · rwa [soundOut_next, startTeam_mem, pointReady_mem]
        · rwa [soundOut_next, emits_mem, updLaunch_mem, pointReady_mem]

theorem execRidgePlacementReply_soundOut {launch pos member ok} : SoundOut (execRidgePlacementReply launch pos member ok s) := by
  unfold execRidgePlacementReply
  split
  · exact h
  · split
    · exact h
    · dsimp only
      split
      · split <;> simpa using h
      · split
        · rw [soundOut_next]
          split
          · rwa [emits_mem]
          · exact h
        · split
          · rwa [soundOut_next, startTeam_mem]
          · refine soundOut_ite ?_ h
            rwa [soundOut_next, emits_mem, startTeam_mem]

theorem execOpChangeSettled_soundOut {die} : SoundOut (execOpChangeSettled die s) := by
  fun_cases execOpChangeSettled die s <;> exact h

theorem execGroupRetire_soundOut {gid} : SoundOut (execGroupRetire gid s) := by
  grind [execGroupRetire, SoundOut, setGroup_mem, updTeam_mem, updLaunch_mem, retestBars_mem, teamTest_sound]

theorem execRidgeLaunchParameters_soundOut {p} : SoundOut (execRidgeLaunchParameters p s) := by
  fun_cases execRidgeLaunchParameters p s <;> exact h

theorem execRidgeMemberTotals_soundOut {launch member t} : SoundOut (execRidgeMemberTotals launch member t s) := by
  fun_cases execRidgeMemberTotals launch member t s <;> exact h

theorem execRidgeDetachNotice_soundOut {launch pos member} : SoundOut (execRidgeDetachNotice launch pos member s) := by
  fun_cases execRidgeDetachNotice launch pos member s
  · exact h
  · exact teamTest_sound (by simpa using h)

theorem execRidgeDeparture_soundOut {launch pos member} : SoundOut (execRidgeDeparture launch pos member s) := by
  have drained (s : State) (f : WcEntry → Bool) (l : List Nat) : (l.foldl (fun s c => s.drainWc c f) s).mem = s.mem :=
    foldl_keeps State.mem _ (fun s c => drainWc_mem s _ _) l s
  fun_cases execRidgeDeparture launch pos member s
  case case2 =>
    refine teamTest_sound ?_
    rwa [ackTest_mem, drained]
  all_goals exact h

theorem execRidgeDepartureAck_soundOut {launch pos member} : SoundOut (execRidgeDepartureAck launch pos member s) := by
  fun_cases execRidgeDepartureAck launch pos member s
  case case3 => exact teamTest_sound (by simpa using h)
  all_goals exact h

theorem execTeamSave_soundOut {tid} : SoundOut (execTeamSave tid s) := by
  have fences (l : List Nat) : MemSound (l.foldl (fun (x : State × Bool) gid =>
      match x.1.group gid with
      | some g => ((x.1.fence gid g [] true true .fabric).1, x.2 && (x.1.fence gid g [] true true .fabric).2)
      | none => x) (s, true)).1.mem :=
    List.foldlRecOn l _ (motive := fun x : State × Bool => MemSound x.1.mem) h (fun x k gid _ => by
      split
      · exact fence_sound k
      · exact k)
  unfold execTeamSave
  split
  · exact h
  · dsimp only
    split
    · exact h
    · split
      · exact fences _
      · rw [soundOut_next, powerTest_mem, updTeam_mem]
        refine foldl_sound (fun s g h => by rwa [updGroup_mem]) _ (leaveCores_sound ?_)
        rw [saveBars_mem]
        exact foldl_sound (fun s q h => by rwa [saveQuarter_mem]) _ (fences _)

theorem execTeamResume_soundOut {tid die cores} : SoundOut (execTeamResume tid die cores s) := by
  grind [execTeamResume, SoundOut, tellMembers_mem, → tryResume_sound]

theorem execRidgePreemptNotice_soundOut {launch pos member resumed} :
    SoundOut (execRidgePreemptNotice launch pos member resumed s) := by
  have back (tid d : Nat) (c : List Nat) : MemSound ((s.tryResume tid d c).getD s).mem := by
    cases e : s.tryResume tid d c with
    | none => exact h
    | some t => exact tryResume_sound h e
  fun_cases execRidgePreemptNotice launch pos member resumed s
  all_goals simp [h, back]

/-! ### Chip to chip and host (12, 21) -/

theorem execWcAgeDrain_soundOut {die core line} : SoundOut (execWcAgeDrain die core line s) := by
  grind [execWcAgeDrain, SoundOut, sendDrain_mem, setWc_mem]

theorem execWcDrainArrival_soundOut {src target key bytes mask crc} :
    SoundOut (execWcDrainArrival src target key bytes mask crc s) := by
  fun_cases execWcDrainArrival src target key bytes mask crc s
  all_goals grind [SoundOut, emit_mem, storeMasked_sound]

theorem execRemoteRequest_soundOut {r} : SoundOut (execRemoteRequest r s) := by
  grind [execRemoteRequest, SoundOut, emit_mem, storeFrom_sound]

theorem execRemoteResponse_soundOut {id status bytes} : SoundOut (execRemoteResponse id status bytes s) := by
  have errs (s : State) (l : List Nat) (b : Nat) : (l.foldl (fun s l => s.err (some l) b) s).mem = s.mem :=
    foldl_keeps State.mem _ (fun s l => err_mem s _ _) l s
  unfold execRemoteResponse
  split
  · exact h
  · dsimp only
    rw [soundOut_next, ackFor_mem]
    split
    · split
      · split
        · split
          · rwa [answerAcc_mem]
          · exact h
        · exact h
      · exact h
    · split
      · rwa [errs]
      · exact h

theorem execFlitReceive_soundOut {port ch ok} : SoundOut (execFlitReceive port ch ok s) := by
  fun_cases execFlitReceive port ch ok s <;> simp [h]

theorem flow_soundOut {port ch stop} : SoundOut (.next (s.flow port ch stop)) := by
  rwa [soundOut_next, flow_mem]

theorem execPortDown_soundOut {port} : SoundOut (execPortDown port s) := by
  fun_cases execPortDown port s <;> simp [h]

theorem execCxlMemRead_soundOut {fn addr} : SoundOut (execCxlMemRead fn addr s) := by
  grind [execCxlMemRead, SoundOut, emit_mem, beforeHost_sound]

theorem execCxlMemWrite_soundOut {fn addr bytes} : SoundOut (execCxlMemWrite fn addr bytes s) := by
  grind [execCxlMemWrite, SoundOut, beforeHost_sound, writeKeys_sound]

/-! ### Management and power (22) -/

theorem mailReady_soundOut {f : State → State} (hf : MemSound (f s).mem) : SoundOut (s.mailReady f) := by
  unfold State.mailReady
  rw [soundOut_next]
  split
  · exact hf
  · exact h

theorem tdispMove_soundOut {v : Nat} {f : Tdisp → Option Tdisp} : SoundOut (s.tdispMove v f) := by
  fun_cases State.tdispMove s v f <;> exact h

theorem preempts_sound {l : List Nat} : MemSound (l.foldl State.preempt s).mem :=
  foldl_sound (fun s tid h => by rwa [preempt_mem]) l h

theorem sleep_soundOut {p : Power} : SoundOut (s.sleep p) := by
  refine mailReady_soundOut h ?_
  dsimp only
  rw [powerTest_mem]
  exact preempts_sound h

theorem execPowerStatePs3_soundOut : SoundOut (execPowerStatePs3 s) := by
  refine mailReady_soundOut h ?_
  dsimp only
  refine foldl_sound (fun s t h => ?_) _ (foldl_sound (fun s e h => lastRecord_sound h) _ (unpin_sound (frontRelease_sound
    (foldl_sound (fun s c h => by rwa [drainWc_mem]) _ h))))
  split
  · exact h
  · rwa [tellMembers_mem]

theorem execSummitComplete_soundOut {ok ports} : SoundOut (execSummitComplete ok ports s) := by
  fun_cases execSummitComplete ok ports s
  case case3 => exact foldl_sound (fun s p h => by rwa [setPort_mem]) _ h
  all_goals exact h

theorem execQueueCreate_soundOut {q c} : SoundOut (execQueueCreate q c s) := by
  refine mailReady_soundOut h ?_
  grind [enterError_mem, updPart_mem]

theorem execQueueRestart_soundOut {q} : SoundOut (execQueueRestart q s) := by
  refine mailReady_soundOut h ?_
  grind [ringTest_sound, updQueue_mem]

theorem execTenantPolicyLoad_soundOut {part p ecdsa lms} : SoundOut (execTenantPolicyLoad part p ecdsa lms s) := by
  refine mailReady_soundOut h ?_
  grind [closeDebug_mem, updPart_mem]

theorem execPerfSelectWrite_soundOut {part die core ix sel} : SoundOut (execPerfSelectWrite part die core ix sel s) := by
  refine mailReady_soundOut h ?_
  grind

theorem execMailboxRegisterWrite_soundOut {fn r} : SoundOut (execMailboxRegisterWrite fn r s) := by
  fun_cases execMailboxRegisterWrite fn r s
  case case1 => exact h
  case case2 => exact h
  all_goals refine mailReady_soundOut h ?_
  case case3 =>
    split
    · rwa [setPool_mem]
    · exact h
  case case8 =>
    split
    · split <;> exact h
    · exact h
  all_goals exact ite_sound h h

theorem execPowerStatePs0_soundOut : SoundOut (execPowerStatePs0 s) := by
  fun_cases execPowerStatePs0 s
  · exact h
  · exact mailReady_soundOut h h

end

end Sys2Proof.Machine
end

section
/-!
PROOFS. Every step keeps the canonical form of memory (O36): whatever instruction or event runs, and whatever the agent's move does
without one.
-/
namespace Sys2Proof.Machine

section
variable {s t : State} (h : MemSound s.mem)
include h

/-- An event answers a state of sound memory. -/
theorem event_soundOut (i : Instr) (event : i.origin = .event) : SoundOut (exec i s) := by
  cases i <;> cases event <;> dsimp only [exec]
  case doorbell => exact execDoorbell_soundOut h
  case packetNop => exact consume_soundOut h (fun _ _ _ k => k)
  case dispatch => exact execDispatch_soundOut h
  case prologue => exact execPrologue_soundOut h
  case prologuePass => exact execProloguePass_soundOut h
  case cmaintWritebackInvalidate | cmaintWriteback | cmaintTranslation | cmaintFetchInvalidate | cmaintUnpin =>
    exact cmaint_soundOut h (fun _ => rfl)
  case cmaintFlipToHost | cmaintFlipToDevice => exact cmaint_soundOut h (fun t => startFlip_mem t _)
  case cmaintCompletion => exact execCmaintCompletion_soundOut h
  case waitev => exact consume_soundOut h (fun _ _ _ k => eventTest_soundOut k h)
  case waitevReread => exact execWaitevReread_soundOut h
  case signalWrite | signalAdd => exact signalPacket_soundOut h
  case signalRelease => exact execSignalRelease_soundOut h
  case completionRecordWrite => exact execCompletionRecordWrite_soundOut h
  case biasLineAction => exact execBiasLineAction_soundOut h
  case backInvalidateResponse => exact execBackInvalidateResponse_soundOut h
  case teamPlacement => exact execTeamPlacement_soundOut h
  case ridgePlacementReply => exact execRidgePlacementReply_soundOut h
  case opChangeSettled => exact execOpChangeSettled_soundOut h
  case groupRetire => exact execGroupRetire_soundOut h
  case ridgeLaunchParameters => exact execRidgeLaunchParameters_soundOut h
  case ridgeMemberTotals => exact execRidgeMemberTotals_soundOut h
  case ridgeDetachNotice => exact execRidgeDetachNotice_soundOut h
  case ridgeDeparture => exact execRidgeDeparture_soundOut h
  case ridgeDepartureAck => exact execRidgeDepartureAck_soundOut h
  case ridgePreemptNotice => exact execRidgePreemptNotice_soundOut h
  case preemptRequest => exact mailReady_soundOut h (preempts_sound h)
  case teamSave => exact execTeamSave_soundOut h
  case teamResume => exact execTeamResume_soundOut h
  case runEntry => exact execRunEntry_soundOut h
  case runCompletion => exact execRunCompletion_soundOut h
  case awaitSatisfied => exact execAwaitSatisfied_soundOut h
  case joinFill => exact execJoinFill_soundOut h
  case windowSlide => exact execWindowSlide_soundOut h
  case slideFillsLanded => exact execSlideFillsLanded_soundOut h
  case loadCompletion => exact execLoadCompletion_soundOut h
  case accessAccepted => exact execAccessAccepted_soundOut h
  case storeSettled => exact execStoreSettled_soundOut h
  case accessPerformed => exact execAccessPerformed_soundOut h
  case treeOperationArrival => exact execTreeOperationArrival_soundOut h
  case treeReply => exact execTreeReply_soundOut h
  case cancelBroadcast => exact execCancelBroadcast_soundOut h
  case cancelAck => exact execCancelAck_soundOut h
  case releaseBroadcast => exact execReleaseBroadcast_soundOut h
  case releaseAck => exact execReleaseAck_soundOut h
  case compactionMove => exact execCompactionMove_soundOut h
  case compactionSwitch => exact execCompactionSwitch_soundOut h
  case wcAgeDrain => exact execWcAgeDrain_soundOut h
  case wcDrainArrival => exact execWcDrainArrival_soundOut h
  case remoteRequest => exact execRemoteRequest_soundOut h
  case remoteResponse => exact execRemoteResponse_soundOut h
  case flitReceive => exact execFlitReceive_soundOut h
  case flowStop | flowGo => exact flow_soundOut h
  case portDown => exact execPortDown_soundOut h
  case cxlMemRead => exact execCxlMemRead_soundOut h
  case cxlMemWrite => exact execCxlMemWrite_soundOut h
  case faultRecordPush => exact execFaultRecordPush_soundOut h
  case faultRecordTake => exact execFaultRecordTake_soundOut h
  case faultServiceResume => exact execFaultServiceResume_soundOut h
  case faultDecline => exact execFaultDecline_soundOut h
  case driverAnswer => exact execDriverAnswer_soundOut h
  case trapNotice => exact execTrapNotice_soundOut h
  case handlerResume | handlerResumeAt | handlerWriteState | handlerKillLanes | handlerKillGroup =>
    exact act_soundOut h
  case hangDetected => exact execHangDetected_soundOut h
  case gstopWrite => fun_cases execGstopWrite <;> exact h
  case queueCreate => exact execQueueCreate_soundOut h
  case queueRestart => exact execQueueRestart_soundOut h
  case permittedSetWrite => exact mailReady_soundOut h (ite_sound h h)
  case plimWrite => exact mailReady_soundOut h (ite_sound h h)
  case keyRevoke => exact mailReady_soundOut h (ite_sound h h)
  case tenantPolicyLoad => exact execTenantPolicyLoad_soundOut h
  case perfSelectWrite => exact execPerfSelectWrite_soundOut h
  case mailboxRegisterWrite => exact execMailboxRegisterWrite_soundOut h
  case powerStatePs0 => exact execPowerStatePs0_soundOut h
  case powerStatePs1 | powerStatePs2 => exact sleep_soundOut h
  case powerStatePs3 => exact execPowerStatePs3_soundOut h
  case perstAssertion => exact h
  case summitComplete => exact execSummitComplete_soundOut h
  case lockInterface | startInterface | stopInterface => exact tdispMove_soundOut h
  case firmwareLoad => fun_cases execFirmwareLoad <;> exact h
  case keyDelivery => fun_cases execKeyDelivery <;> exact h
  case hlogWrite => fun_cases execHlogWrite <;> exact h
  case spdmRequest => fun_cases execSpdmRequest <;> exact h
  case ideFailure => fun_cases execIdeFailure <;> simp [h]
  case flr => fun_cases execFlr <;> simp [h]
  case perstRelease => fun_cases execPerstRelease <;> exact h
  case powerAlarmRaise => fun_cases execPowerAlarmRaise <;> exact h
  case powerAlarmClear => fun_cases execPowerAlarmClear <;> exact h
  case thermtrip => fun_cases execThermtrip <;> exact h
  case macroReadback => fun_cases execMacroReadback <;> exact h
  case patrolScrub => fun_cases execPatrolScrub <;> exact h
  case matrixOpStart => exact execMatrixOpStart_soundOut h
  case matrixOpComplete => exact execMatrixOpComplete_soundOut h
  case drainStart => exact execDrainStart_soundOut h
  case linkedOpRelease => exact execLinkedOpRelease_soundOut h
  case barrierCompletionDelivery => exact execBarrierCompletionDelivery_soundOut h
  case ageEntry => exact execAgeEntry_soundOut h
  case ageStreamEnd => exact execAgeStreamEnd_soundOut h
  case cpndComplete => exact execCpndComplete_soundOut h
  case collMatch => exact execCollMatch_soundOut h
  case collComplete => exact execCollComplete_soundOut h
  case textCommandComplete => exact execTextCommandComplete_soundOut h
  case txloadReplacement => exact execTxloadReplacement_soundOut h
  case dloadComplete => exact execDloadComplete_soundOut h
  case mailboxDelivery => exact execMailboxDelivery_soundOut h

theorem exec_soundOut (i : Instr) : SoundOut (exec i s) := by
  cases o : i.origin
  case lane => exact lane_soundOut h i o
  case access => exact access_soundOut h i o
  case drain => exact drain_soundOut h i o
  case event => exact event_soundOut h i o

omit h in
theorem issueQuarter_mem {q a} (e : s.issueQuarter q = some (a, t)) : t.mem = s.mem := by
  grind [State.issueQuarter]

omit h in
theorem issueAccess_mem {q a} (e : s.issueAccess q = some (a, t)) : t.mem = s.mem := by
  grind [State.issueAccess]

theorem issueQuarter_getD_sound {q} : MemSound ((s.issueQuarter q).getD (.idle, s)).2.mem := by
  cases e : s.issueQuarter q with
  | none => exact h
  | some p => rwa [Option.getD_some, issueQuarter_mem e]

theorem issueAccess_getD_sound {q} : MemSound ((s.issueAccess q).getD (.idle, s)).2.mem := by
  cases e : s.issueAccess q with
  | none => exact h
  | some p => rwa [Option.getD_some, issueAccess_mem e]

theorem choose_sound : MemSound s.choose.2.mem := by
  fun_cases State.choose s
  case case2 => exact issueQuarter_getD_sound (by exact h)
  case case4 => exact issueAccess_getD_sound (by exact h)
  all_goals exact h

/-- The state in which a move ends, or in which it runs its instruction. -/
def Fetched.state : Fetched → State
  | .done t => t
  | .run _ t => t

theorem setFocus_sound {focus} : MemSound { s with focus := focus }.mem := h

theorem nextLane_sound {gid e} : MemSound (s.nextLane gid e).state.mem := by
  fun_cases State.nextLane s gid e <;> exact h

omit h in
theorem accessWordAt_mem {c va x} (e : s.accessWordAt c va = .ok t x) : t.mem = s.mem := readsOnly_mem (accessWordAt_reads e)

theorem nextAccess_sound {gid} : MemSound (s.nextAccess gid).state.mem := by
  fun_cases State.nextAccess s gid
  all_goals grind [Fetched.state, stopAccess_mem, trapAccess_mem, → accessWordAt_mem]

theorem nextDrain_sound {op} : MemSound (s.nextDrain op).state.mem := by
  fun_cases State.nextDrain s op <;> exact h

/-- Of the moves that run no instruction, the host's store alone writes memory. -/
theorem moveOf_sound {a} : MemSound (s.moveOf a).state.mem := by
  fun_cases State.moveOf s a
  case case4 => exact nextLane_sound h
  case case5 => exact nextAccess_sound h
  case case6 => exact nextDrain_sound h
  case case7 =>
    exact ite_sound (setFocus_sound (writeKeys_sound h)) h
  all_goals exact h

theorem step_soundOut : SoundOut (step s) := by
  have moved := moveOf_sound (choose_sound h) (a := s.choose.1)
  unfold step
  split
  · rename_i done
    rwa [done] at moved
  · rename_i run
    rw [run] at moved
    exact exec_soundOut moved _

end

/-- Settles O36: the agent's choice leaves memory alone, its move keeps the form, and so does what it runs. -/
theorem stepsKeepTheMemoryForm : Obligations.StepsKeepTheMemoryForm := by
  intro s s' sound stepped
  have out := step_soundOut sound
  rwa [stepped] at out

end Sys2Proof.Machine
end

section
/-!
PROOFS. Memory words at issue (O15; 13 R304, R305, R311, R315, R318; 12 R301): each row of the table is an issue of `State.memLane`,
whose checks stand in a fixed order: ALIGN, RIDGEGONE, then the waits.
-/
namespace Sys2Proof.Machine

/-! ### Fills that become pending (04 R126) -/

section Pending
variable (g : Group) (d : Dest) (f : Fullness) {k l j : Nat} (hl : l < 64) (hj : j < 64)
include hl hj

theorem vState_setDest : (g.setDest d j f).vState k l = if d = .v k ∧ l = j then f else g.vState k l := by
  cases d with
  | v n => simpa [Group.setDest, eq_comm (a := k)] using vState_setVState g (k := n) (k' := k) f hj hl
  | _ => exact (if_neg fun h => nomatch h.1).symm

theorem tState_setDest : (g.setDest d j f).tState k l = if d = .t k ∧ l = j then f else g.tState k l := by
  cases d with
  | t n => simpa [Group.setDest, eq_comm (a := k)] using tState_setTState g (k := n) (k' := k) f hj hl
  | _ => exact (if_neg fun h => nomatch h.1).symm

end Pending

theorem count_issueOp (g : Group) (id : Nat) (c : Cls) (entry index : Nat) (lanes : LaneMask) :
    (g.issueOp id c entry index lanes).count c = g.count c + 1 := by
  simp [Group.issueOp, Group.count]

/-! ### What a memory word sends (13 R305) -/

section Sent
variable (x : Issue) (s : State) (w : Lane) (size : Nat) (what : Dest → BitVec 64 → BitVec 64 → AccWhat)
  (off data cmp : Nat → Word32) (g : Group)

/-- The access of lane l. -/
def Issue.sentAcc (l : Nat) : LaneAcc :=
  { op := s.nextId, stream := .lane, entry := x.e, index := x.en.pos, pc := x.en.pc, lane := l, po := x.en.mask, fence := 0,
    addr := laneAddr w g off l, size := size, kind := (Kind.ofXop w.xop).getD .weak, scope := (Scope.ofCode w.mod).getD .split,
    nt := w.xop.getLsbD 3, what := what (x.dst w) ((data l).setWidth 64) ((cmp l).setWidth 64), stage := .issued,
    place := .cached 0, key := 0, home := 0, efmt := 0, gap := 1, record := none, faultCause := .xlate, faultSub := 0,
    faultLevel := 0, faultAddr := 0 }

/-- The group with the word counted in VM and its destination's fill pending in the due lanes. -/
def Issue.pends : Group :=
  (g.issueOp s.nextId .vm x.e x.en.pos (x.due w)).overLanes (x.due w) (fun g l => g.setDest (x.dst w) l .pending)

/-- The accesses of the due lanes, in lane order. -/
def Issue.sentAccs : List LaneAcc := (maskLanes (x.due w)).map (x.sentAcc s w size what off data cmp g)

/-- The group after the word's accesses have been sent. -/
def Issue.sent : Group :=
  { x.pends s w g with accs := (x.pends s w g).accs ++ x.sentAccs s w size what off data cmp g }

/-- Whatever depends neither on fullness nor on the operations in flight stands as it did. -/
theorem pends_keeps {γ : Type} (r : Group → γ)
    (hb : ∀ (g : Group) vst tst sst, r { g with vst := vst, tst := tst, sst := sst } = r g)
    (ho : ∀ (g : Group) ops, r { g with ops := ops } = r g) : r (x.pends s w g) = r g :=
  (setDest_lanes_keeps r hb _ (x.due w) (x.dst w) .pending).trans (ho g _)

theorem count_pends : (x.pends s w g).count .vm = g.count .vm + 1 :=
  (setDest_lanes_keeps (·.count .vm) (fun _ _ _ _ => rfl) ..).trans (count_issueOp ..)

theorem vState_pends (k : Nat) {l : Nat} (hl : l < 64) :
    (x.pends s w g).vState k l = if x.dst w = .v k ∧ inMask (x.due w) l then .pending else g.vState k l :=
  overLanes_read (·.vState k l) _ (fun _ => .pending) hl (fun g _ hj => vState_setDest g (x.dst w) .pending hl hj) _ (x.due w)

theorem tState_pends (k : Nat) {l : Nat} (hl : l < 64) :
    (x.pends s w g).tState k l = if x.dst w = .t k ∧ inMask (x.due w) l then .pending else g.tState k l :=
  overLanes_read (·.tState k l) _ (fun _ => .pending) hl (fun g _ hj => tState_setDest g (x.dst w) .pending hl hj) _ (x.due w)

theorem sent_accs : (x.sent s w size what off data cmp g).accs = g.accs ++ x.sentAccs s w size what off data cmp g :=
  congrArg (· ++ x.sentAccs s w size what off data cmp g) (pends_keeps x s w g (·.accs) (fun _ _ _ _ => rfl) (fun _ _ => rfl))

theorem sentAccs_says : (x.sentAccs s w size what off data cmp g).map LaneAcc.says =
    (maskLanes (x.due w)).map (fun l => (l, laneAddr w g off l, size, what (x.dst w) ((data l).setWidth 64) ((cmp l).setWidth 64),
      (Kind.ofXop w.xop).getD .weak, (Scope.ofCode w.mod).getD .split, w.xop.getLsbD 3, .issued)) :=
  List.map_map

theorem mem_sentAccs {a : LaneAcc} (ha : a ∈ x.sentAccs s w size what off data cmp g) :
    a.op = s.nextId ∧ a.entry = x.e ∧ a.po = x.en.mask := by
  obtain ⟨l, -, rfl⟩ := List.mem_map.1 ha
  exact ⟨rfl, rfl, rfl⟩

end Sent

/-! ### The checks of a memory word (13 R305, R318; 12 R301) -/

/-- The model's sum of base, offset and immediate is the spec's, taken modulo 2^64 (02 R56). -/
theorem laneAddr_eq (w : Lane) (g : Group) (off : Nat → Word32) (l : Nat) :
    g.uniform w.sa + (off l).signExtend 64 + w.imm.signExtend 64 = laneAddr w g off l := by
  rw [laneAddr, BitVec.ofInt_add, BitVec.ofInt_add, BitVec.ofInt_natCast, ofNat64_toNat]
  rfl

theorem maskOf_eq_zero {f : Nat → Bool} (h : ∀ l < 64, f l = false) : maskOf f = 0 := by
  refine BitVec.eq_of_getLsbD_eq fun l hl => ?_
  rw [maskOf_getLsbD f hl, h l hl]
  exact BitVec.getLsbD_zero.symm

@[simp] theorem replay_en (x : Issue) (w : Lane) : (x.replay w).en = x.en := by
  unfold Issue.replay
  split <;> rfl

/-- The due lanes whose address is no multiple of the access size. -/
def Issue.oddLanes (x : Issue) (w : Lane) (size : Nat) (addr : Nat → VAddr) : LaneMask :=
  maskOf (fun l => inMask (x.due w) l && decide ((addr l).toNat % size ≠ 0))

/-- The due lanes whose address reaches a departed member. -/
def Issue.goneLanes (x : Issue) (s : State) (w : Lane) (g : Group) (addr : Nat → VAddr) : LaneMask :=
  maskOf (fun l => inMask (x.due w) l && s.ridgeGone g (addr l))

section Checks
variable {w : Lane} {s : State} {x : Issue} {cas : Bool} {off data cmp : Nat → Word32} {g : Group}

theorem memLane_idle (issuer : s.issuer = some x) (free : x.commitWait = false) (idle : x.due w = 0) (size : Nat) (cas : Bool)
    (what : Dest → BitVec 64 → BitVec 64 → AccWhat) : s.memLane w size cas what = .next (x.done s x.g) := by
  rw [State.memLane, issuer]
  exact (if_neg (ne_true_of_eq_false free)).trans (if_pos idle)

variable (h : MemReady w s x cas off data cmp g) (size : Nat) (what : Dest → BitVec 64 → BitVec 64 → AccWhat)
include h

/-- A word that stands ready, its own destination open if it is replayed (13 R315; log 21), meets the checks in their order and is
sent when it passes them all. -/
theorem memLane_checks : s.memLane w size cas what =
    if x.oddLanes w size (laneAddr w g off) ≠ 0 then
      .next (s.trapPrecise x.gid x.e (x.addrTrap .align (x.oddLanes w size (laneAddr w g off)) (laneAddr w g off)))
    else if x.goneLanes s w g (laneAddr w g off) ≠ 0 then
      .next (s.trapPrecise x.gid x.e (x.addrTrap .ridgeGone (x.goneLanes s w g (laneAddr w g off)) (laneAddr w g off)))
    else if g.count .vm = 63 ∨ g.pendingIn (x.dst w) (x.due w) then .next s
    else .next { x.done s (x.sent s w size what off data cmp g) with nextId := s.nextId + 1 } := by
  obtain ⟨issuer, free, lanes, base, post, fetched⟩ := h
  rw [State.memLane, issuer]
  refine (if_neg (ne_true_of_eq_false free)).trans ((if_neg lanes).trans ?_)
  dsimp only
  generalize hy : (if x.en.doneIx = x.en.pos then _ else x) = y
  obtain rfl : x.replay w = y := hy
  rw [replay_en, base]
  dsimp only
  rw [fetched]
  have odd (l : Nat) : ((laneAddr w g off l).toNat % size != 0) = decide ((laneAddr w g off l).toNat % size ≠ 0) := by
    rw [Bool.eq_iff_iff, bne_iff_ne, decide_eq_true_iff]
  simp only [laneAddr_eq, odd]
  rfl

theorem memLane_misaligned (odd : x.oddLanes w size (laneAddr w g off) ≠ 0) : s.memLane w size cas what = .next
    (s.trapPrecise x.gid x.e (x.addrTrap .align (x.oddLanes w size (laneAddr w g off)) (laneAddr w g off))) :=
  (memLane_checks h size what).trans (if_pos odd)

theorem memLane_departed (aligned : x.oddLanes w size (laneAddr w g off) = 0)
    (gone : x.goneLanes s w g (laneAddr w g off) ≠ 0) : s.memLane w size cas what = .next
    (s.trapPrecise x.gid x.e (x.addrTrap .ridgeGone (x.goneLanes s w g (laneAddr w g off)) (laneAddr w g off))) :=
  (memLane_checks h size what).trans ((if_neg (not_not.2 aligned)).trans (if_pos gone))

theorem memLane_sends (good : ∀ l, l < 64 → inMask (x.due w) l →
      (laneAddr w g off l).toNat % size = 0 ∧ s.ridgeGone g (laneAddr w g off l) = false)
    (room : g.count .vm ≠ 63) (filled : g.pendingIn (x.dst w) (x.due w) = false) : s.memLane w size cas what =
    .next { x.done s (x.sent s w size what off data cmp g) with nextId := s.nextId + 1 } := by
  have aligned : x.oddLanes w size (laneAddr w g off) = 0 := maskOf_eq_zero fun l hl => by
    cases due : inMask (x.due w) l with
    | false => rfl
    | true => exact decide_eq_false (not_not.2 (good l hl due).1)
  have present : x.goneLanes s w g (laneAddr w g off) = 0 := maskOf_eq_zero fun l hl => by
    cases due : inMask (x.due w) l with
    | false => rfl
    | true => exact (good l hl due).2
  rw [memLane_checks h, if_neg (not_not.2 aligned), if_neg (not_not.2 present),
    if_neg (not_or.2 ⟨room, ne_true_of_eq_false filled⟩)]

end Checks

/-! ### The words -/

theorem memSize_eq (f : Fmt) :
    memSize f = if f ∈ [Fmt.s8, .n8] then 1 else if f ∈ [Fmt.s16, .n16, .f16, .bf16] then 2 else 4 := by
  cases f <;> rfl

theorem addFn_eq (f : Fmt) : addFn f = if f = .f32 then .addF32 else if f = .bf16x2 then .addBf16x2 else .add32 := by
  cases f <;> rfl

theorem minFn_eq (f : Fmt) : minFn f = if f = .f32 then .minF else if f = .s32 then .minS else .minN := by
  cases f <;> rfl

theorem maxFn_eq (f : Fmt) : maxFn f = if f = .f32 then .maxF else if f = .s32 then .maxS else .maxN := by
  cases f <;> rfl

/-- CAS alone, which is an operation of its own, reads its destination. -/
theorem formatFn_ne_cas (f : Fmt) : addFn f ≠ .cas ∧ minFn f ≠ .cas ∧ maxFn f ≠ .cas := by
  cases f <;> decide

/-- Each row's word issues an access of the row's size, sources and effect. -/
theorem memoryTable_exec (w : Lane) (s : State) : ∀ p ∈ memoryTable w, exec p.1 s = s.memLane w p.2.1 p.2.2.1 p.2.2.2 := by
  obtain ⟨addNe, minNe, maxNe⟩ := formatFn_ne_cas w.fmt
  have byFormat : ∀ (fn : AtomFn) (ret : Bool), fn ≠ .cas →
      s.atomLane w ret fn = s.memLane w 4 false (fun d v c => .rmw fn v c ret d) := fun fn ret ne =>
    congrArg (s.memLane w 4 · fun d v c => .rmw fn v c ret d) (decide_eq_false ne)
  simp only [memoryTable, ← memSize_eq, ← addFn_eq, ← minFn_eq, ← maxFn_eq, List.forall_mem_cons, List.not_mem_nil,
    false_imp_iff, implies_true, and_true]
  exact ⟨rfl, rfl, byFormat _ true addNe, byFormat _ true minNe, byFormat _ true maxNe, rfl, rfl, rfl, rfl, rfl,
    byFormat _ false addNe, byFormat _ false minNe, byFormat _ false maxNe, rfl, rfl, rfl⟩

/-- Settles O15: the row's word issues `State.memLane`, whose ends are the clauses. -/
theorem memoryWordsSendTheirAccesses : Obligations.MemoryWordsSendTheirAccesses := by
  refine ⟨fun w s x off data cmp g p hp h good room filled => ?_, fun w s x p hp => ⟨fun off data cmp g h => ?_, ?_⟩⟩
  · have keeps {γ : Type} := pends_keeps (γ := γ) x s w g
    have runs := (memoryTable_exec w s p hp).trans (memLane_sends h _ _ good room filled)
    refine ⟨_, _, runs, sent_accs .., sentAccs_says .., fun _ ha => mem_sentAccs (ha := ha) .., count_pends ..,
      fun k _ hl => ⟨vState_pends x s w g k hl, tState_pends x s w g k hl⟩, ?_, ?_, ?_, ?_⟩
    · exact keeps (·.v) (fun _ _ _ _ => rfl) (fun _ _ => rfl)
    · exact keeps (·.t) (fun _ _ _ _ => rfl) (fun _ _ => rfl)
    · exact keeps (·.s) (fun _ _ _ _ => rfl) (fun _ _ => rfl)
    · exact keeps (·.p) (fun _ _ _ _ => rfl) (fun _ _ => rfl)
  · rw [memoryTable_exec w s p hp]
    exact ⟨memLane_misaligned h _ _, memLane_departed h _ _⟩
  · rw [memoryTable_exec w s p hp]
    exact fun issuer free idle => memLane_idle issuer free idle _ _ _

end Sys2Proof.Machine
end

section
/-!
PROOFS. Precise traps (O13; 20 R420-R426) and the state of reset (O34; 21 R456).
-/
namespace Sys2Proof.Machine

/-! ### Precise traps -/

theorem notices_notice {s : State} {gid : Nat} {g : Group} (h : s.group gid = some g) (e : Option Nat) :
    (s.notice gid e).notices = if g.killed then s.notices else s.notices ++ [⟨gid, e⟩] := by
  simp only [State.notice, h]
  split <;> rfl

theorem notices_trapPrecise {s : State} {gid : Nat} {g : Group} (h : s.group gid = some g) (e : Nat) (r : TrapRec) :
    (s.trapPrecise gid e r).notices = if g.killed then s.notices else s.notices ++ [⟨gid, some e⟩] :=
  notices_notice (g := (g.abandon e).updEntry e (fun en => { en with st := .trapped, trapRec := some r, hangOld := none }))
    (by rw [group_updGroup_self, group_updGroup_self, h]; rfl) (some e)

theorem entry_abandon {g : Group} {e : Nat} {en : Entry} (h : g.entry e = some en) :
    (g.abandon e).entry e = some { en.endRun with barWait := if en.inRun then [] else en.barWait } := by
  rw [Group.abandon, entry_updEntry_self, entry_returnPops, h]
  rfl

theorem entry_abandon_ne (g : Group) {e n : Nat} (h : n ≠ e) : (g.abandon e).entry n = g.entry n := by
  rw [Group.abandon, entry_updEntry_ne _ _ _ h, entry_returnPops]

/-- Settles O13: the trapped group is the group with its run abandoned and the record at its entry. -/
theorem preciseTrapSavesItsRecord : Obligations.PreciseTrapSavesItsRecord := by
  intro s gid e r g en hg hen
  have touched := touchesGroup_trapPrecise s gid e r
  refine ⟨_, _, group_trapPrecise hg e r, (entry_updEntry_self ..).trans (congrArg _ (entry_abandon hen)), rfl, rfl, rfl, rfl, rfl,
    rfl, rfl, rfl, rfl, rfl, rfl, rfl, rfl, rfl, rfl, fun n hn => ?_, touched.groups, notices_trapPrecise hg e r, ?_⟩
  · rw [entry_updEntry_ne _ _ _ hn, entry_abandon_ne _ hn]
  · rw [touched.rest]

/-! ### Reset -/

theorem die_reset (n : Nat) : State.reset.die n = Die.reset := by
  simp only [State.die, State.reset, rd, look]
  split
  · rfl
  · split <;> rfl

/-- Settles O34: every table of reset is empty, and every die stands as `Die.reset` says. -/
theorem resetLeavesNothingResident : Obligations.ResetLeavesNothingResident := by
  refine ⟨⟨rfl, nofun⟩, rfl, rfl, rfl, rfl, fun n => ?_⟩
  rw [die_reset]
  exact ⟨rfl, rfl, rfl, rfl, rfl, rfl, rfl, rfl, rfl, rfl, rfl, rfl, rfl, rfl⟩

end Sys2Proof.Machine
end

section
/-!
PROOFS. Fences, waits, barriers and RIDGE.DETACH of lanes and of the access program (O18, O24; 14 R325, R326; 19 R406, R409-R411;
12 R298).
-/
namespace Sys2Proof.Machine

/-! ### Fences (14 R325) -/

section Fences
variable {s : State} {gid : Nat} {g : Group} {before : List LaneAcc} {rel : Bool} {sc : Scope}

theorem fence_held (h : ∃ a ∈ before, (rel || a.reads) = true) (acq : Bool) :
    s.fence gid g before rel acq sc = (s, false) :=
  if_pos (List.any_eq_true.2 h)

/-- A fence that nothing holds makes the actions of its kind. -/
theorem fence_clear (h : fenceClear s gid g before rel sc) (acq : Bool) :
    s.fence gid g before rel acq sc =
      (let s1 := if rel then s.releaseAct g sc else s
       (if acq then s1.acquireAct ((s1.launchOf gid).getD 0) g sc else s1, true)) := by
  obtain ⟨unordered, drained⟩ := h
  have passes : ¬ before.any (fun a => rel || a.reads) = true := fun hb => by
    obtain ⟨a, ha, held⟩ := List.any_eq_true.1 hb
    obtain ⟨hr, hl⟩ := unordered a ha
    simp [hr, hl] at held
  have acked : ¬ (rel && Scope.atLeastRidge sc && !(s.drainsDone gid g.coreId)) = true := fun hd => by
    simp only [Bool.and_eq_true, Bool.not_eq_true'] at hd
    obtain ⟨⟨hr, hs⟩, hn⟩ := hd
    rw [drained hr hs] at hn
    cases hn
  rw [State.fence, if_neg passes, if_neg acked]

end Fences

/-! ### Lane words -/

/-- A word without operands that is ready does what it says. -/
theorem plainLane_ready {s : State} {x : Issue} {w : Lane} (h : BareReady w.gp w.neg s x) (f : Issue → LaneMask → Out) :
    s.plainLane w f = f x (x.active w.gp w.neg) := by
  simp only [State.plainLane, h.issuer, h.free, if_neg h.lanes, Bool.false_eq_true, if_false]

section LaneWords
variable {s : State} {x : Issue} {w : Lane} (h : BareReady w.gp w.neg s x)
include h

/-- The two bits of FENCE's field name its kind. -/
theorem fence_runs : exec (.fence w) s =
    (let r := s.fence x.gid x.g (x.g.earlier (some x.en.mask)) (decide (w.xop.toNat % 4 ≠ 0)) (decide (w.xop.toNat % 4 ≠ 1))
      ((Scope.ofCode w.mod).getD .split)
     .next (if r.2 then x.done r.1 x.g else r.1)) := by
  have kind : ∀ v : BitVec 4, (v.extractLsb' 0 2 != 0) = decide (v.toNat % 4 ≠ 0) ∧
      (v.extractLsb' 0 2 != 1) = decide (v.toNat % 4 ≠ 1) := by decide
  obtain ⟨rel, acq⟩ := kind w.xop
  rw [← rel, ← acq]
  dsimp only [exec, execFence]
  rw [plainLane_ready h]

theorem waitc_runs {c : Cls} (hc : Cls.ofCode w.xop = some c) : exec (.waitc w) s =
    .next (if x.g.count c ≤ w.imm.toNat % 64 then x.done s x.g else s) := by
  dsimp only [exec, execWaitc]
  rw [plainLane_ready h, hc, Option.getD_some]
  split <;> rfl

theorem barWait_runs {t : Team} (ht : s.team x.g.tid = some t) : exec (.barWait w) s =
    .next (x.done s (x.waitPhase (w.imm.toNat % 32) ((s.barRec x.g.tid t (w.imm.toNat % 32)).phase + 1))) := by
  dsimp only [exec, execBarWait]
  rw [plainLane_ready h, ht]
  rfl

theorem ridgeDetach_runs : exec (.ridgeDetach w) s =
    .next ((x.done s { x.g with detached := true }).detachTest x.g.tid) := by
  dsimp only [exec, execRidgeDetach]
  rw [plainLane_ready h]

end LaneWords

theorem laneArrive_clear {s : State} {x : Issue} {w : Lane} {t : Team} (ht : s.team x.g.tid = some t)
    (clear : fenceClear s x.gid x.g (x.g.earlier (some x.en.mask)) true .team)
    (room : (s.releaseAct x.g .team).barRoom x.g.tid t (w.imm.toNat % 32) = true) : s.laneArrive x w =
      some ((s.releaseAct x.g .team).barArrive x.g.tid (w.imm.toNat % 32) (w.imm.toNat / 256 % 2048)) := by
  simp only [State.laneArrive, fence_clear clear, ht, Bool.false_eq_true, if_true, if_false, room]

/-- Telling members and the team's test write no group (12 R298). -/
theorem group_tellMembers (s : State) (tid what k : Nat) : (s.tellMembers tid what).group k = s.group k := by
  unfold State.tellMembers
  split
  · rfl
  · split
    · rfl
    · exact foldl_keeps (State.group · k) _ (fun s m => group_emit ..) _ s

theorem group_detachTest (s : State) (tid k : Nat) : (s.detachTest tid).group k = s.group k := by
  unfold State.detachTest
  split
  · rfl
  · split
    · rfl
    · rw [group_tellMembers, group_updTeam]

/-- Settles O18: each word runs, and its fence or arrival finds nothing that holds it. -/
theorem synchronisationWordsComplete : Obligations.SynchronisationWordsComplete := by
  intro w s x h
  refine ⟨fun clear => ?_, fun ⟨a, ha, hr⟩ => ?_, fun c hc => waitc_runs h hc, fun t ht clear => ?_,
    fun t ht => barWait_runs h ht, ?_⟩
  · rw [fence_runs h, fence_clear clear]
    by_cases rel : w.xop.toNat % 4 = 0 <;> by_cases acq : w.xop.toNat % 4 = 1 <;> simp [rel, acq]
  · rw [fence_runs h, fence_held ⟨a, ha, by simp [hr]⟩]
    rfl
  · intro s1 r room
    have arrives := laneArrive_clear ht clear room
    dsimp only [exec, execBarSync, execBarArrive]
    rw [plainLane_ready h, plainLane_ready h, arrives]
    exact ⟨rfl, rfl⟩
  · refine ⟨_, ridgeDetach_runs h, _, (group_detachTest ..).trans (group_done_self ..), rfl⟩

/-! ### Access words -/

theorem accessArrive_clear {s : State} {gid : Nat} {g : Group} {k : Nat} {a : SReg} {t : Team} (ht : s.team g.tid = some t)
    (clear : fenceClear s gid g (g.earlier none) true .team) (small : (g.readS a).toNat ≤ 1024)
    (room : (s.releaseAct g .team).barRoom g.tid t k = true) : s.accessArrive gid g k a =
      some ((s.releaseAct g .team).barArrive g.tid k (g.readS a).toNat) := by
  simp only [State.accessArrive, fence_clear clear, ht, Bool.false_eq_true, if_true, if_false, room, State.accessCount,
    if_neg (Nat.not_lt.2 small)]

theorem accessPhase_done {s : State} {gid : Nat} {g : Group} {w : BarWait} (done : s.barsDone g [w] = true) :
    s.accessPhase gid g w =
      .next ((s.acquireAct ((s.launchOf gid).getD 0) g .team).accessNext gid { g with aBar := none }) := if_pos done

/-- Settles O24: the same for the words of the access program, whose barrier words also go on with a wait already recorded. -/
theorem accessSynchronisationCompletes : Obligations.AccessSynchronisationCompletes := by
  intro s gid g kind sc n c k a hx
  have bare {f : Nat → Group → Out} : s.accessWord [] [] f = f gid g := accessWord_runs (accessReady_nil hx) f
  have reads {f : Nat → Group → Out} (full : g.fullS a = true) : s.accessWord [a] [] f = f gid g :=
    accessWord_runs ⟨hx, by simpa using full, fun _ hr => absurd hr List.not_mem_nil⟩ f
  refine ⟨fun clear => ?_, ?_, fun t ht clear full small => ?_, fun w hw done => ?_, fun t hb ht => ?_⟩
  · have rel : (kind != .acquire) = decide (kind ≠ .acquire) := by cases kind <;> rfl
    refine bare.trans ?_
    rw [rel, fence_clear clear]
    cases kind <;> rfl
  · refine bare.trans ?_
    split <;> rfl
  · intro s1 r room
    have arrives := accessArrive_clear ht clear small room
    refine ⟨(reads full).trans ?_, fun hb => (reads full).trans ?_⟩
    · rw [arrives]
    · rw [hb, arrives]
  · refine ⟨bare.trans ?_, fun full => (reads full).trans ?_⟩ <;> rw [hw] <;> exact accessPhase_done done
  · refine bare.trans ?_
    rw [hb, ht]
    rfl

end Sys2Proof.Machine
end

section
/-!
PROOFS. Matrix words, tree words and drain words (O17, O27; 15 R342, R343; 09 R228, R237; 11 R274, R277; 16 R365, R366): each word of a
table is one issue operation of the model, and a ready word passes that operation's checks.
-/
namespace Sys2Proof.Machine

/-! ### Matrix words (15 R342, R343) -/

section Matrix
variable {w : Lane} {s : State} {x : Issue} {a b c : Nat → Word32} {g : Group}

/-- What a matrix word that is not linked hands to its quarter. -/
def Issue.mxOp (x : Issue) (s : State) (w : Lane) (kind : MxKind) (g : Group) : MxOp :=
  { id := s.nextId, gid := x.gid, kind := kind, fmt := w.fmt, rows := x.on w, addr := g.uniform w.sa, desc := g.uniform w.sb,
    ti := immTile w.imm, mj := immMac w.imm, n := immCount w.imm, den := immDen w.imm, slot := immSlot w.imm, stage := .queued,
    bar := none, curT := 0, curC := 0, flags := 0, narrow := false, pc := x.en.pc, index := x.en.pos, parkSet := none }

theorem queueMx_unlinked (room : g.count .mx ≠ 63) (unlinked : w.imm.getLsbD 29 = false) (kind : MxKind) :
    s.queueMx x w kind (x.on w) g = .next { x.done s (g.issueOp s.nextId .mx x.e x.en.pos (x.on w)) with
      nextId := s.nextId + 1, mxOps := s.mxOps ++ [x.mxOp s w kind g] } := by
  have link : immLink w.imm = false := unlinked
  rw [State.queueMx, if_neg room]
  simp only [link, Bool.false_and, Bool.false_eq_true, if_false]
  rfl

/-- A matrix word whose address passes its checks is queued. -/
theorem issueMx_queues (h : LaneReady w s x a b c g) {kind : MxKind} (ok : mxAddrOk s x w kind (g.uniform w.sa)) :
    s.issueMx w kind = s.queueMx x w kind (x.on w) g := by
  obtain ⟨mma, mldb⟩ := ok
  simp only [State.issueMx, h.issuer, h.free, if_neg h.lanes, h.fetched, Bool.false_eq_true, if_false]
  cases kind with
  | mldb =>
    have aligned : ((w.fmt != .s8 && w.fmt != .bf16) || decide ((g.uniform w.sa).toNat % 64 = 0)) = true := by
      by_cases hf : w.fmt ∈ [Fmt.s8, .bf16]
      · rw [decide_eq_true (mldb rfl hf), Bool.or_true]
      · obtain ⟨h8, h16⟩ : w.fmt ≠ .s8 ∧ w.fmt ≠ .bf16 := by simpa using hf
        simp [bne_iff_ne, h8, h16]
    simp [aligned]
  | mma =>
    obtain ⟨aligned, inside⟩ := mma rfl
    cases hw : s.where' x.gid with
    | none => simp [aligned]
    | some y => simp [aligned, inside y.1 y.2.1 y.2.2 hw]
  | _ => rfl

theorem matrixTable_exec (w : Lane) (s : State) : ∀ p ∈ matrixTable w, exec p.1 s = s.issueMx w p.2 := by
  simp only [matrixTable, List.forall_mem_cons, List.not_mem_nil, false_imp_iff, implies_true, and_true]
  exact ⟨rfl, rfl, rfl, rfl⟩

end Matrix

/-! ### Tree words (09 R228) -/

section Tree
variable {w : Lane} {s : State} {x : Issue} {a b c : Nat → Word32} {g : Group} {y : Actx}

/-- The group after a tree word: TR counts it, its destination's fill is pending, and its run waits for the reply where it must. -/
def Issue.treeSent (x : Issue) (s : State) (w : Lane) (hold : Bool) (g : Group) : Group :=
  let g1 := (g.issueOp s.nextId .tr x.e x.en.pos (x.on w)).overLanes (x.on w)
    (fun g' l => g'.setDest (g.destOf x.en.wbase w.dst) l .pending)
  if hold then g1.updEntry x.e (fun en => { en with holds := en.holds ++ [s.nextId] }) else g1

/-- The source of a tree word's values by lane. -/
def laneSource (fromC : Bool) : (Nat → Word32) → (Nat → Word32) → (Nat → Word32) → Nat → Word32 := if fromC then useC else useB

/-- A tree word whose addresses pass its check is sent to its unit. -/
theorem issueTr_sends (h : LaneReady w s x a b c g) (hy : s.actx x.gid = some y) (room : g.count .tr ≠ 63)
    (free : g.pendingIn (g.destOf x.en.wbase w.dst) (x.on w) = false) (kind : TreeKind) (chk hold fromC : Bool)
    {pre : State → Actx → TreeOp → Option TrStop} (ok : pre s y (treeOpOf s x w y g kind chk fromC b c) = none) :
    s.issueTr w kind chk hold (laneSource fromC) pre = .next { x.done s (x.treeSent s w hold g) with
      nextId := s.nextId + 1, treeOps := s.treeOps ++ [treeOpOf s x w y g kind chk fromC b c] } := by
  have source : laneSource fromC a b c = if fromC then c else b := by cases fromC <;> rfl
  unfold treeOpOf at ok
  simp only [State.issueTr, h.issuer, h.free, if_neg h.lanes, h.fetched, hy, source, ok, room, free, Bool.false_eq_true, or_self,
    if_false]
  rfl

/-- Whatever depends neither on fullness, on the operations in flight nor on the split table stands as it did. -/
theorem treeSent_keeps {γ : Type} (r : Group → γ)
    (hb : ∀ (g : Group) vst tst sst, r { g with vst := vst, tst := tst, sst := sst } = r g)
    (ho : ∀ (g : Group) ops, r { g with ops := ops } = r g) (ht : ∀ (g : Group) table, r { g with table := table } = r g)
    (hold : Bool) : r (x.treeSent s w hold g) = r g := by
  have sent := (setDest_lanes_keeps r hb (g.issueOp s.nextId .tr x.e x.en.pos (x.on w)) (x.on w) (g.destOf x.en.wbase w.dst)
    .pending).trans (ho g _)
  cases hold with
  | false => exact sent
  | true => exact (ht _ _).trans sent

theorem count_treeSent (hold : Bool) : (x.treeSent s w hold g).count .tr = g.count .tr + 1 := by
  have sent := (setDest_lanes_keeps (·.count .tr) (fun _ _ _ _ => rfl) (g.issueOp s.nextId .tr x.e x.en.pos (x.on w)) (x.on w)
    (g.destOf x.en.wbase w.dst) .pending).trans (count_issueOp ..)
  cases hold <;> exact sent

theorem vState_treeSent (hold : Bool) (k : Nat) {l : Nat} (hl : l < 64) : (x.treeSent s w hold g).vState k l =
    if g.destOf x.en.wbase w.dst = .v k ∧ inMask (x.on w) l then .pending else g.vState k l := by
  have sent := overLanes_read (·.vState k l) _ (fun _ => .pending) hl
    (fun g' _ hj => vState_setDest g' (g.destOf x.en.wbase w.dst) .pending hl hj)
    (g.issueOp s.nextId .tr x.e x.en.pos (x.on w)) (x.on w)
  cases hold <;> exact sent

theorem table_issued : ((g.issueOp s.nextId .tr x.e x.en.pos (x.on w)).overLanes (x.on w)
    (fun g' l => g'.setDest (g.destOf x.en.wbase w.dst) l .pending)).table = g.table :=
  setDest_lanes_keeps (·.table) (fun _ _ _ _ => rfl) ..

theorem entry_treeSent_ne (hold : Bool) {n : Nat} (hn : n ≠ x.e) : (x.treeSent s w hold g).entry n = g.entry n := by
  have issued := congrArg (look · n) (table_issued (s := s) (x := x) (w := w) (g := g))
  cases hold with
  | false => exact issued
  | true => exact (entry_updEntry_ne _ _ _ hn).trans issued

theorem mem_holds_treeSent {en : Entry} (h : (x.treeSent s w true g).entry x.e = some en) : s.nextId ∈ en.holds := by
  have held := (entry_updEntry_self _ _ _).symm.trans h
  obtain ⟨old, -, rfl⟩ := Option.map_eq_some_iff.1 held
  exact List.mem_append_right _ (List.mem_singleton_self _)

/-- Each row's word is an issue of the row's operation, whose check is the row's check of addresses. -/
theorem treeTable_exec (w : Lane) (s : State) : ∀ p ∈ treeTable w, ∃ pre,
    exec p.1 s = s.issueTr w p.2.1 p.2.2.1 p.2.2.2.1 (laneSource p.2.2.2.2) pre ∧
    ∀ (y : Actx) (o : TreeOp), o.kind = p.2.1 → treeAddrOk s y o → pre s y o = none := by
  have unchecked : ∀ (t : Out) (k : TreeKind) (chk hold fromC : Bool), t = s.issueTr w k chk hold (laneSource fromC) noStop →
      ∃ pre, t = s.issueTr w k chk hold (laneSource fromC) pre ∧
        ∀ (y : Actx) (o : TreeOp), o.kind = k → treeAddrOk s y o → pre s y o = none :=
    fun _ _ _ _ _ runs => ⟨noStop, runs, fun _ _ _ _ => rfl⟩
  simp only [treeTable, List.forall_mem_cons, List.not_mem_nil, false_imp_iff, implies_true, and_true]
  dsimp only [exec, execAmask, execGmask, execMdrawCl, execMdrawTok]
  refine ⟨unchecked _ _ _ _ _ rfl, unchecked _ _ _ _ _ rfl, unchecked _ _ _ _ _ rfl, unchecked _ _ _ _ _ rfl,
    unchecked _ _ _ _ _ rfl, unchecked _ _ _ _ _ rfl, unchecked _ _ _ _ _ rfl, unchecked _ _ _ _ _ rfl,
    unchecked _ _ _ _ _ rfl, ⟨_, rfl, fun y o hk ok => ?_⟩, ⟨_, rfl, fun y o hk ok => ?_⟩, ⟨_, rfl, fun y o hk ok => ?_⟩,
    ⟨_, rfl, fun y o hk ok => ?_⟩⟩
  all_goals simp only [treeAddrOk, hk] at ok
  case refine_1 =>
    obtain ⟨aligned, writable⟩ := ok
    simp [aligned, writable]
  case refine_2 =>
    obtain ⟨aligned, writable, tail⟩ := ok
    rw [if_neg (not_not_intro aligned), writable, tail]
    rfl
  case refine_3 | refine_4 => exact ok

/-- TRTAG writes the group's tag at issue, where its value fits (09 R237). -/
theorem trtag_tags (h : LaneReady w s x a b c g) (hy : s.actx x.gid = some y) (room : g.count .tr ≠ 63)
    (free : g.pendingIn (g.destOf x.en.wbase w.dst) (x.on w) = false) :
    ∃ (t : State) (g' : Group), exec (.trtag w) s = .next t ∧ t.group x.gid = some g' ∧ g'.count .tr = g.count .tr + 1 ∧
      ((x.g.uniform w.sa).toNat < 2 ^ 32 → g'.tag = (x.g.uniform w.sa).setWidth 32) ∧
      (2 ^ 32 ≤ (x.g.uniform w.sa).toNat → g'.tag = g.tag) := by
  have sent : s.issueTr w .tag (laneChk w) (laneChk w) useB noStop = _ :=
    issueTr_sends h hy room free .tag (laneChk w) (laneChk w) false (pre := noStop) rfl
  have counted := count_treeSent (w := w) (s := s) (x := x) (g := g) (laneChk w)
  have tag := treeSent_keeps (w := w) (s := s) (x := x) (g := g) (·.tag) (fun _ _ _ _ => rfl) (fun _ _ => rfl) (fun _ _ => rfl)
    (laneChk w)
  have stands : ∀ n (ops : List TreeOp), ({ x.done s (x.treeSent s w (laneChk w) g) with nextId := n, treeOps := ops } : State).group
      x.gid = some ((x.treeSent s w (laneChk w) g).updEntry x.e (fun en => { en with runpos := en.runpos + 1 })) :=
    fun _ _ => group_done_self ..
  have tagged : ∀ n (ops : List TreeOp) (f : Group → Group), (({ x.done s (x.treeSent s w (laneChk w) g) with
      nextId := n, treeOps := ops } : State).updGroup x.gid f).group x.gid =
        some (f ((x.treeSent s w (laneChk w) g).updEntry x.e (fun en => { en with runpos := en.runpos + 1 }))) :=
    fun n ops f => by rw [group_updGroup_self, stands, Option.map_some]
  have issued : ¬ s.nextId + 1 = s.nextId := by omega
  have issued : ¬ s.nextId + 1 = s.nextId := by omega
  dsimp only [exec]
  simp only [execTrtag, h.issuer, sent, if_neg issued]
  by_cases wide : (x.g.uniform w.sa).toNat / 2 ^ 32 ≠ 0
  · rw [if_pos wide]
    exact ⟨_, _, rfl, stands _ _, counted, fun small => absurd (Nat.div_eq_of_lt small) wide, fun _ => tag⟩
  · have small : (x.g.uniform w.sa).toNat < 2 ^ 32 := by omega
    rw [if_neg wide]
    by_cases clear : (x.g.uniform w.sa).toNat / 4096 = 0
    · rw [if_pos clear]
      exact ⟨_, _, rfl, tagged _ _ _, counted, fun _ => rfl, fun big => absurd small (Nat.not_lt.2 big)⟩
    · rw [if_neg clear]
      exact ⟨_, _, rfl, tagged _ _ _, counted, fun _ => rfl, fun big => absurd small (Nat.not_lt.2 big)⟩

end Tree

/-- Settles O17: matrix words through `State.issueMx`, tree words through `State.issueTr`, and TRTAG's tag. -/
theorem unitWordsQueueTheirOperation : Obligations.UnitWordsQueueTheirOperation := by
  refine ⟨fun w s x a b c g h room unlinked p hp ok => ⟨x.mxOp s w p.2 g, ?_, rfl, rfl, rfl, rfl, rfl, rfl, rfl, rfl, rfl, rfl, rfl,
    rfl, rfl⟩, fun w s x a b c g y h hy room free p hp => ?_, fun w s x a b c g y h hy room free => trtag_tags h hy room free⟩
  · rw [matrixTable_exec w s p hp, issueMx_queues h ok, queueMx_unlinked room unlinked]
  · intro op ok
    obtain ⟨pre, runs, passes⟩ := treeTable_exec w s p hp
    have keeps {γ : Type} := treeSent_keeps (γ := γ) (w := w) (s := s) (x := x) (g := g)
    refine ⟨x.treeSent s w p.2.2.2.1 g, runs.trans (issueTr_sends h hy room free _ _ _ _ (passes y op rfl ok)), count_treeSent _,
      fun k l hl => vState_treeSent _ k hl, fun n hn => entry_treeSent_ne _ hn, ?_, ?_, ?_, fun holds en' he => ?_⟩
    · exact keeps (·.v) (fun _ _ _ _ => rfl) (fun _ _ => rfl) (fun _ _ => rfl) _
    · exact keeps (·.s) (fun _ _ _ _ => rfl) (fun _ _ => rfl) (fun _ _ => rfl) _
    · exact keeps (·.accs) (fun _ _ _ _ => rfl) (fun _ _ => rfl) (fun _ _ => rfl) _
    · rw [holds] at he
      exact mem_holds_treeSent he

/-! ### Drain words (16 R365, R366) -/

theorem drain_get_set (x : Drain) (d n : BitVec 2) (v : Word32) : (x.set d v).get n = if n = d then v else x.get n := by
  have cases4 : ∀ i : BitVec 2, i = 0 ∨ i = 1 ∨ i = 2 ∨ i = 3 := by decide
  rcases cases4 d with rfl | rfl | rfl | rfl <;> rcases cases4 n with rfl | rfl | rfl | rfl <;> rfl

/-- A write of a D register changes no more of the drain. -/
theorem drain_set_keeps {γ : Type} (h : Drain → γ)
    (hd : ∀ (x : Drain) d0 d1 d2 d3, h { x with d0 := d0, d1 := d1, d2 := d2, d3 := d3 } = h x) (x : Drain) (d : BitVec 2)
    (v : Word32) : h (x.set d v) = h x := by
  unfold Drain.set
  split <;> exact hd x ..

theorem drainTable_exec (s : State) (d : BitVec 2) (a b f : BitVec 3) : ∀ p ∈ drainTable d a b f, exec p.1 s = s.drainOp d p.2 := by
  simp only [drainTable, List.forall_mem_cons, List.not_mem_nil, false_imp_iff, implies_true, and_true]
  exact ⟨rfl, rfl, rfl, rfl, rfl, rfl, rfl, rfl, rfl, rfl, rfl⟩

/-- Settles O27: each row's word is a `State.drainOp`. -/
theorem drainWordsWriteTheirTable : Obligations.DrainWordsWriteTheirTable := by
  intro s x op g d a b f hx p hp
  let x' : Drain := { x.set d (p.2 x).val with flags := x.flags ||| (p.2 x).fl, word := x.word + 1 }
  have gets : ∀ n, x'.get n = (x.set d (p.2 x).val).get n := fun _ => rfl
  refine ⟨{ s with drains := put s.drains op.id x' }, x', ?_, rfl, ?_, fun n hn => ?_, rfl, rfl, ?_, ?_, ?_, ?_⟩
  · rw [drainTable_exec s d a b f p hp, State.drainOp, hx]
  · rw [gets, drain_get_set, if_pos rfl]
  · rw [gets, drain_get_set, if_neg hn]
  · exact drain_set_keeps (·.row) (fun _ _ _ _ _ => rfl) ..
  · exact drain_set_keeps (·.col) (fun _ _ _ _ _ => rfl) ..
  · exact drain_set_keeps (·.image) (fun _ _ _ _ _ => rfl) ..
  · exact drain_set_keeps (·.hold) (fun _ _ _ _ _ => rfl) ..

end Sys2Proof.Machine
end

section
/-!
PROOFS. Packets at the head of a queue (O38, O39; 18 R394-R401): a packet that is ready meets the checks of `State.consume` in their
order, its form, its meaning and its capability, and then has the effect of its type.
-/
namespace Sys2Proof.Machine

/-! ### The checks of a packet (18 R394) -/

section Checks
variable {s s1 : State} {q p : Nat} {x : Queue} {mine : Nat → Bool} {f : State → Queue → Nat → Out}

theorem consume_reads (h : PacketReady s q x s1 p) : s.consume q mine f =
    if badPacket p then s1.failOut s q x errBADPKT true
    else if !(mine p) then .next s
    else if !(capsOk x.cfg p) then s1.failOut s q x errCAPFLT true
    else f s1 x p := by
  obtain ⟨bs, read, rfl⟩ := h.read
  have enabled : ¬(s.stage ≠ .ready ∨ x.st ≠ .run ∨ x.busy ≠ .none ∨ x.pending = 0) := by
    simp [h.stage, h.runs, h.free, h.more]
  rw [State.consume, h.queue]
  dsimp only
  rw [if_neg enabled, read]

theorem consume_badForm (h : PacketReady s q x s1 p) (bad : badPacket p = true) :
    s.consume q mine f = s1.failOut s q x errBADPKT true := by
  rw [consume_reads h, if_pos bad]

theorem consume_badCap (h : PacketReady s q x s1 p) (form : badPacket p = false) (hm : mine p = true) (bad : capsOk x.cfg p = false) :
    s.consume q mine f = s1.failOut s q x errCAPFLT true := by
  rw [consume_reads h]
  simp [form, hm, bad]

theorem consume_good (h : PacketReady s q x s1 p) (form : badPacket p = false) (hm : mine p = true) (caps : capsOk x.cfg p = true) :
    s.consume q mine f = f s1 x p := by
  rw [consume_reads h]
  simp [form, hm, caps]

end Checks

/-- What a form of CMAINT does once its range is held. -/
def cmaintNext (q form : Nat) : State → State := if form = 4 ∨ form = 5 then (fun s => s.startFlip q) else id

theorem cmaintTable_exec (q : Nat) (s : State) : ∀ f ∈ cmaintTable q, exec f.2 s = s.cmaint q f.1 (cmaintNext q f.1) := by
  simp only [cmaintTable, List.forall_mem_cons, List.not_mem_nil, false_imp_iff, implies_true, and_true]
  exact ⟨rfl, rfl, rfl, rfl, rfl, rfl, rfl⟩

/-- The event of each packet is a consumption. -/
theorem packetEvents_exec (q : Nat) (s : State) {i : Instr} (hi : i ∈ packetEvents q) : ∃ mine f, exec i s = s.consume q mine f := by
  rcases List.mem_append.1 hi with hi | hi
  · simp only [List.mem_cons, List.not_mem_nil, or_false] at hi
    rcases hi with rfl | rfl | rfl | rfl | rfl | rfl
    all_goals dsimp only [exec, execSignalWrite, execSignalAdd, State.signalPacket]
    all_goals exact ⟨_, _, rfl⟩
  · obtain ⟨f, hf, rfl⟩ := List.mem_map.1 hi
    exact ⟨_, _, cmaintTable_exec q s f hf⟩

theorem signal_exec (q : Nat) (s : State) (add : Bool) :
    exec (if add then .signalAdd q else .signalWrite q) s = s.signalPacket q add := by
  cases add <;> rfl

/-! ### Doorbells (18 R395) -/

section Doorbell
variable {s : State} {q : Nat} {x : Queue}

theorem ringTest_fits (h : s.queue q = some x) (fits : x.pending ≤ 2 ^ x.cfg.rlog ∨ x.st ≠ .run) : s.ringTest q = s := by
  rw [State.ringTest, h]
  exact if_neg fun ⟨hr, hp⟩ => fits.elim (fun hf => absurd hp (Nat.not_lt.2 hf)) (fun hn => hn hr)

theorem ringTest_overflows (h : s.queue q = some x) (overflow : 2 ^ x.cfg.rlog < x.pending) (hr : x.st = .run) :
    s.ringTest q = (s.failPacket q x errRINGBAD false).getD s := by
  rw [State.ringTest, h]
  exact if_pos ⟨hr, overflow⟩

theorem doorbell_sets (h : s.queue q = some x) (widx : BitVec 32) :
    exec (.doorbell q widx) s = .next ((s.updQueue q (fun y => { y with widx := widx })).ringTest q) := by
  dsimp only [exec]
  rw [execDoorbell, h]

theorem queue_doorbell (h : s.queue q = some x) (widx : BitVec 32) :
    (s.updQueue q (fun y => { y with widx := widx })).queue q = some { x with widx := widx } := by
  rw [queue_updQueue_self, h]
  rfl

end Doorbell

/-- Settles O38: the checks of a consumption, by the event of each type, and the test of the ring. -/
theorem badPacketsStopTheirQueue : Obligations.BadPacketsStopTheirQueue := by
  intro s q x
  refine ⟨fun s1 p h i hi bad => ?_, fun s1 p h form caps => ⟨fun ht => ?_, fun ht => ?_, fun ht f hf hform => ?_, fun ht => ?_,
    fun ht => ?_⟩, fun widx h => ⟨fun fits => ?_, fun overflow run => ?_⟩⟩
  · obtain ⟨mine, f, runs⟩ := packetEvents_exec q s hi
    exact runs.trans (consume_badForm h bad)
  · dsimp only [exec]
    exact consume_badCap h form (by simp [ht]) caps
  · dsimp only [exec]
    exact consume_badCap h form (by simp [ht]) caps
  · rw [cmaintTable_exec q s f hf]
    exact consume_badCap h form (by simp [ht, hform]) caps
  · dsimp only [exec]
    exact consume_badCap h form (by simp [ht]) caps
  · rw [signal_exec]
    exact consume_badCap h form (by simp [ht]) caps
  · rw [doorbell_sets h, ringTest_fits (queue_doorbell h widx) fits]
  · rw [doorbell_sets h, ringTest_overflows (queue_doorbell h widx) overflow run]

/-! ### Launches from descriptors (18 R398) -/

theorem launchBytes_free {s : State} {q pass : Nat} {x : Queue} {bs : List Byte}
    (free : (descParams bs).laneEntry.any (s.entryHeld x.ctx) = false) : s.launchBytes q x pass bs =
      some (s.launchWith q x pass (descParams bs) (s.launchError x.ctx (descParams bs))) := by
  rw [State.launchBytes, if_neg (ne_true_of_eq_false free)]

theorem dispatch_launches {s s1 s2 s3 : State} {q p : Nat} {x : Queue} {head args : List Byte} (h : PacketReady s q x s1 p)
    (form : badPacket p = false) (caps : capsOk x.cfg p = true) (ht : pktType p = 1)
    (hhead : s1.feReads x.ctx 24 (BitVec.ofNat 64 (pktA p)) = .ok s2 head)
    (covers : capCovers x.cfg.dcap (pktA p) (192 + 8 * descArgs head) = true)
    (hargs : s2.feReads x.ctx (descArgs head) (BitVec.ofNat 64 (pktA p) + 192) = .ok s3 args)
    (free : (descParams (head ++ args)).laneEntry.any (s3.entryHeld x.ctx) = false) : exec (.dispatch q) s =
      .next ((s3.launchWith q x 0 (descParams (head ++ args)) (s3.launchError x.ctx (descParams (head ++ args)))).consumed q) := by
  dsimp only [exec]
  refine (consume_good h form (by simp [ht]) caps).trans ?_
  dsimp only
  rw [hhead]
  dsimp only
  rw [covers, hargs]
  dsimp only
  rw [launchBytes_free free]
  rfl

/-! ### CMAINT (18 R400) -/

section Cmaint
variable {s s1 : State} {q p form : Nat} {x : Queue} {next : State → State}

/-- The places of the pages of a range, for the lines that a form acts on (12 R287). -/
def cmaintPlaces (form : Nat) (found : List (Option (Nat × Nat))) : List Nat :=
  found.map (fun o => match o with
    | some y => if form = 6 ∧ y.2 ≠ 2 then hbmEnd else y.1
    | none => hbmEnd)

/-- Whether a page stops a CMAINT: it has no translation, or is not one that can flip. -/
def cmaintRefuses (form : Nat) (o : Option (Nat × Nat)) : Bool :=
  match o with
  | none => true
  | some y => decide (form = 4 ∨ form = 5) && !(localHbm y.1)

theorem cmaint_good (h : PacketReady s q x s1 p) (good : badPacket p = false) (caps : capsOk x.cfg p = true)
    (ht : pktType p = 3) (hf : bits p 11 8 = form) : s.cmaint q form next =
      let found := (rangePages (pktA p) (pktB p)).map (s1.cmaintPage x.ctx)
      if form ≠ 2 ∧ found.any (cmaintRefuses form) = true then s1.failOut s q x errBADPKT true
      else .next (next (s1.updQueue q (fun y => { y with
        busy := .cmaint form (if form = 4 ∨ form = 5 then 0 else pktA p) (if form = 4 ∨ form = 5 then 0 else pktA p + pktB p)
          (cmaintPlaces form found) }))) := by
  refine (consume_good h good (by simp [ht, hf]) caps).trans ?_
  simp only [decide_eq_true_eq]
  rfl

theorem any_refuses_none {found : List (Option (Nat × Nat))} (h : none ∈ found) : found.any (cmaintRefuses form) = true :=
  List.any_eq_true.2 ⟨none, h, rfl⟩

theorem any_refuses_far {found : List (Option (Nat × Nat))} (flip : form = 4 ∨ form = 5)
    (h : ∃ y, some y ∈ found ∧ localHbm y.1 = false) : found.any (cmaintRefuses form) = true := by
  obtain ⟨y, hy, far⟩ := h
  exact List.any_eq_true.2 ⟨some y, hy, by simp [cmaintRefuses, flip, far]⟩

/-- A range that is translated whole, and that lies in local HBM where it flips, is refused nowhere. -/
theorem any_refuses_false {found : List (Option (Nat × Nat))} (h : none ∉ found)
    (near : form = 4 ∨ form = 5 → ∀ y, some y ∈ found → localHbm y.1 = true) : ¬ found.any (cmaintRefuses form) = true := fun hb => by
  obtain ⟨o, ho, hr⟩ := List.any_eq_true.1 hb
  cases o with
  | none => exact h ho
  | some y =>
    obtain ⟨flip, far⟩ := by simpa [cmaintRefuses] using hr
    rw [near flip y ho] at far
    cases far

end Cmaint

/-! ### Events (18 R401) -/

section Events
variable {s old s1 : State} {q target : Nat} {x : Queue} {va : VAddr} {sc : Scope} {bs : List Byte}

theorem eventTest_reached (read : s.feRead x.ctx va 8 = .ok s1 bs) (h : target ≤ ofBytes bs) :
    s.eventTest old q x va target sc = .next (((s1.frontAcquire sc).consumed q).ringTest q) := by
  rw [State.eventTest, read]
  exact if_neg (Nat.not_lt.2 h)

theorem eventTest_waits (read : s.feRead x.ctx va 8 = .ok s1 bs) (h : ofBytes bs < target) :
    s.eventTest old q x va target sc =
      .next (s1.updQueue q (fun y => { y with st := .wait, busy := .waitev va target sc })) := by
  rw [State.eventTest, read]
  exact if_pos h

end Events

/-- Settles O39: each type's consumption passes the checks and has its effect. -/
theorem packetsAreConsumed : Obligations.PacketsAreConsumed := by
  intro s q x s1 p h form caps va scope
  refine ⟨fun ht => ?_, fun ht s2 head s3 args hhead covers hargs => ?_, fun ht s2 bs read => ?_,
    fun ht f hf hform => ?_, fun ht s2 bs read => ?_, fun ht add hadd => ?_⟩
  · dsimp only [exec]
    exact consume_good h form (by simp [ht]) caps
  · exact fun free => dispatch_launches h form caps ht hhead covers hargs free
  · dsimp only [exec]
    refine (consume_good h form (by simp [ht]) caps).trans ?_
    rw [read]
  · intro found pages flip
    have runs := (cmaintTable_exec q s f hf).trans (cmaint_good h form caps ht hform)
    dsimp only at runs
    rw [runs]
    refine ⟨fun h2 hn => if_pos ⟨h2, any_refuses_none hn⟩, fun noFlip passes => ?_, fun hflip hn near => ?_,
      fun hflip far => if_pos ⟨?_, any_refuses_far hflip far⟩⟩
    · have accepted : ¬(f.1 ≠ 2 ∧ found.any (cmaintRefuses f.1) = true) := fun ⟨h2, refused⟩ =>
        any_refuses_false (passes.resolve_left h2) (fun hflip => absurd hflip noFlip) refused
      rw [if_neg accepted, if_neg noFlip, if_neg noFlip, cmaintNext, if_neg noFlip]
      rfl
    · rw [if_neg fun hr => any_refuses_false hn (fun _ => near) hr.2, if_pos hflip, if_pos hflip, cmaintNext, if_pos hflip]
      rfl
    · rcases hflip with h4 | h5 <;> omega
  · have test : exec (.waitev q) s = s1.eventTest s q x va (pktB p) scope := by
      dsimp only [exec]
      exact consume_good h form (by simp [ht]) caps
    exact ⟨fun reached => test.trans (eventTest_reached read reached), fun below => test.trans (eventTest_waits read below)⟩
  · rw [signal_exec]
    exact consume_good h form (by simp [ht, hadd]) caps

end Sys2Proof.Machine
end

section
/-!
PROOFS. Packets that take several steps, and completion records (O41; 18 R399-R401; 01 R52; 19 R415; 24 R473).
-/
namespace Sys2Proof.Machine

section Long
variable {s : State} {q : Nat} {x : Queue} (hx : s.queue q = some x)
include hx

/-! ### Prologues (18 R399) -/

section Pass
variable {entry : VAddr} {arg : Word64} {win : List Byte} {pass : Nat} (busy : x.busy = .prologue entry arg win pass)
  (run : x.st = .run) (stage : s.stage = .ready)
include busy run stage

theorem prologuePass_stops
    (h : Pass.run x.ctx x.cfg.xcap 4096 ⟨s.frontAcquire .system, passGroup entry arg pass, win⟩ = .stop) :
    exec (.prologuePass q) s = .next ((s.launchWith q x pass noParams (some errPROLOGUEBAD)).consumed q) := by
  dsimp only [exec]
  simp only [execProloguePass, hx, busy, run, stage, h, ne_eq, not_true_eq_false, or_self, if_false]

variable {e : Pass} (h : Pass.run x.ctx x.cfg.xcap 4096 ⟨s.frontAcquire .system, passGroup entry arg pass, win⟩ = .halt e)
include h

theorem prologuePass_cancels (k1 : e.g.getK 1 = true) : exec (.prologuePass q) s =
    .next ((({ e.s with groups := s.groups, focus := s.focus } : State).launchWith q x pass noParams (some errCANCELLED)).consumed q) := by
  dsimp only [exec]
  simp only [execProloguePass, hx, busy, run, stage, h, k1, ne_eq, not_true_eq_false, or_self, if_false, if_true]

/-- A pass that launches its window: K2 asks for another pass, of at most 256. -/
theorem prologuePass_launches (k1 : e.g.getK 1 = false) {s2 : State}
    (launched : ({ e.s with groups := s.groups, focus := s.focus } : State).launchBytes q x pass e.win = some s2) :
    exec (.prologuePass q) s = if e.g.getK 2 = true ∧ pass < 255 then
        .next (s2.updQueue q (fun y => { y with busy := .prologue entry arg e.win (pass + 1) }))
      else .next (s2.consumed q) := by
  dsimp only [exec]
  simp only [execProloguePass, hx, busy, run, stage, h, k1, launched, ne_eq, not_true_eq_false, or_self, if_false,
    Bool.false_eq_true]

end Pass

/-! ### CMAINT (18 R400; 24 R473) -/

theorem cmaintCompletion_ends {form lo hi : Nat} {pages : List Nat} (busy : x.busy = .cmaint form lo hi pages) :
    exec (.cmaintCompletion q) s =
      if form = 4 ∨ form = 5 then .next (s.startFlip q) else .next ((s.maintain x form lo hi pages).consumed q) := by
  dsimp only [exec]
  rw [execCmaintCompletion, hx]
  dsimp only
  rw [busy]

/-! ### Events (18 R401) -/

theorem waitevReread_tests {va : VAddr} {target : Nat} {sc : Scope} (busy : x.busy = .waitev va target sc) (wait : x.st = .wait)
    (stage : s.stage = .ready) : exec (.waitevReread q) s = s.eventTest s q x va target sc := by
  dsimp only [exec]
  rw [execWaitevReread, hx]
  dsimp only
  rw [busy]
  exact if_pos ⟨wait, stage⟩

/-! ### Signals (18 R401) -/

section Signal
variable {add : Bool} {va : VAddr} {val : Word64} {sc : Scope} (busy : x.busy = .signal add va val sc)
include busy

theorem signalRelease_waits (h : ∃ l ∈ s.launches, l.2.ofQueue q = true) : exec (.signalRelease q) s = .next s := by
  dsimp only [exec]
  rw [execSignalRelease, hx]
  dsimp only
  rw [busy]
  exact if_pos (Or.inl (List.any_eq_true.2 h))

theorem signalRelease_writes (stage : s.stage = .ready) (first : ∀ l ∈ s.launches, l.2.ofQueue q = false) {s2 : State} {t : Target}
    (found : s.frontRelease.translate x.ctx .rmw false va = .ok (s2, t)) (free : s2.placeHeld t.place = false)
    (here : ∀ chip tg, t.place ≠ .remote chip tg) (sound : s2.statusOf t.place t.key = .ok) : exec (.signalRelease q) s =
      let old := BitVec.ofNat 64 (ofBytes ((List.range 8).map (s2.placeByte x.ctx (.strong .system) t.place t.key)))
      .next ((s2.storeFrom x.ctx (.strong .system) t.place t.key 0
        (toBytes (if add then old + val else val).toNat 8)).consumed q) := by
  have none : ¬(s.launches.any (fun l => l.2.ofQueue q) = true ∨ s.stage ≠ .ready) := by
    simpa [stage] using first
  dsimp only [exec]
  rw [execSignalRelease, hx]
  dsimp only
  rw [busy]
  dsimp only
  rw [if_neg none, found]
  obtain ⟨place, key⟩ := t
  dsimp only at free here sound ⊢
  rw [if_neg (ne_true_of_eq_false free)]
  cases place with
  | remote chip tg => exact absurd rfl (here chip tg)
  | _ =>
    dsimp only
    rw [if_neg (not_not_intro sound)]
    cases add <;> rfl

end Signal

/-! ### Completion records (01 R52; 19 R415) -/

/-- Whether a request is one of these groups'. -/
def Req.ofGroups (r : Req) (gs : List Nat) : Bool :=
  match r.who with
  | .drain _ ws => ws.any gs.contains
  | .acc g _ _ => gs.contains g

theorem completionRecord_next {lid : Nat} {l : Launch} (hl : s.launch lid = some l) (hq : l.queue = q)
    (complete : l.complete = true) (home : l.ref.home = Config.chip.toNat)
    (drained : s.wc.any (fun c => c.2.any (fun w => w.writers.any (s.groupsOf lid).contains)) = false)
    (answered : s.reqs.any (fun r => r.2.ofGroups (s.groupsOf lid)) = false) : exec (.completionRecordWrite lid) s =
      match s.frontRelease.writeRecord q x l.seq l.record with
      | none => .next s
      | some s2 => .next (s2.dropLaunch lid) := by
  subst hq
  dsimp only [exec]
  simp only [execCompletionRecordWrite, hl, complete, drained, home, hx, Bool.not_true, Bool.false_eq_true, ne_eq,
    not_true_eq_false, if_false]
  exact (if_neg (ne_true_of_eq_false answered)).trans rfl

/-- The record is written once no entry and no request of the launch's groups is left. -/
theorem completionRecord_writes {lid : Nat} {l : Launch} {s2 : State} (hl : s.launch lid = some l) (hq : l.queue = q)
    (complete : l.complete = true) (home : l.ref.home = Config.chip.toNat)
    (drained : ∀ c ∈ s.wc, ∀ w ∈ c.2, ∀ g ∈ w.writers, g ∉ s.groupsOf lid)
    (answered : ∀ r ∈ s.reqs, match r.2.who with
      | .drain _ ws => ∀ g ∈ ws, g ∉ s.groupsOf lid
      | .acc g _ _ => g ∉ s.groupsOf lid)
    (written : s.frontRelease.writeRecord q x l.seq l.record = some s2) :
    exec (.completionRecordWrite lid) s = .next (s2.dropLaunch lid) := by
  have noEntry : s.wc.any (fun c => c.2.any (fun w => w.writers.any (s.groupsOf lid).contains)) = false := by
    simpa [List.any_eq_false] using drained
  have noRequest : s.reqs.any (fun r => r.2.ofGroups (s.groupsOf lid)) = false := by
    rw [List.any_eq_false]
    intro r hr mine
    have other := answered r hr
    unfold Req.ofGroups at mine
    split at mine <;> rename_i hw <;> rw [hw] at other
    · obtain ⟨g, hg, hm⟩ := List.any_eq_true.1 mine
      exact other g hg (List.contains_iff_mem.1 hm)
    · exact other (List.contains_iff_mem.1 mine)
  rw [completionRecord_next hx hl hq complete home noEntry noRequest, written]

end Long

/-- Settles O41: each event that goes on with a packet, by what the queue is busy with. -/
theorem longPacketsComplete : Obligations.LongPacketsComplete := by
  intro s q x hx
  refine ⟨fun entry arg win pass busy run stage => ⟨prologuePass_stops hx busy run stage, fun e halts =>
    ⟨prologuePass_cancels hx busy run stage halts, fun s2 k1 launched => ?_⟩⟩, fun form lo hi pages busy => ?_,
    fun va target sc s2 bs busy wait stage read => ?_, fun add va val sc busy stage => ⟨signalRelease_waits hx busy,
    fun first s2 t found free here sound => signalRelease_writes hx busy stage first found free here sound⟩,
    fun lid l s2 hl hq complete home drained answered _ written =>
      completionRecord_writes hx hl hq complete home drained answered written⟩
  · have runs := prologuePass_launches hx busy run stage halts k1 launched
    refine ⟨fun k2 more => runs.trans (if_pos ⟨k2, more⟩), fun last => runs.trans (if_neg fun ⟨k2, more⟩ => ?_)⟩
    rcases last with k2' | full
    · rw [k2'] at k2
      cases k2
    · omega
  · have ends := cmaintCompletion_ends hx busy
    refine ⟨fun hf => ends.trans (if_neg fun flip => ?_), fun hf => ends.trans (if_pos (by simpa using hf))⟩
    rcases flip with rfl | rfl <;> revert hf <;> decide
  · have tests := waitevReread_tests hx busy wait stage
    exact ⟨fun reached => tests.trans (eventTest_reached read reached), fun below => tests.trans (eventTest_waits read below)⟩

end Sys2Proof.Machine
end

section
/-!
PROOFS. Fault records (O57; 17 R387-R391; 18 R396; 20 R428; 22 R464): a set is pushed whole, a record is answered by its driver or by the
firmware, and a service or a decline reaches the source that the record parks, no other.
-/
namespace Sys2Proof.Machine

/-! ### Pushing a set (17 R387) -/

/-- A record with the number that the device's count gives the i-th record pushed from n on. -/
def FRec.numbered (n i : Nat) (r : FRec) : FRec := { r with rseq := (n + i) % 65536 }

/-- Pushing a record writes the queue, the count, the counters and its launch's total. -/
theorem pushRecord_keeps {γ : Type} (h : State → γ) (hq : ∀ (s : State) faultQ rseq perf launches,
    h { s with faultQ := faultQ, rseq := rseq, perf := perf, launches := launches } = h s) (s : State) (r : FRec) :
    h (s.pushRecord r) = h s := by
  unfold State.pushRecord
  dsimp only
  split
  · exact hq s _ _ _ _
  · exact hq s _ _ _ s.launches

theorem faultQ_pushRecord (s : State) (r : FRec) : (s.pushRecord r).faultQ = s.faultQ ++ [{ r with rseq := s.rseq }] := by
  unfold State.pushRecord
  dsimp only
  split <;> rfl

theorem rseq_pushRecord (s : State) (r : FRec) : (s.pushRecord r).rseq = (s.rseq + 1) % 65536 := by
  unfold State.pushRecord
  dsimp only
  split <;> rfl

theorem pushRecords_queue (rs : List FRec) : ∀ s : State, s.rseq < 65536 →
    (rs.foldl State.pushRecord s).faultQ = s.faultQ ++ rs.mapIdx (FRec.numbered s.rseq) ∧
      (rs.foldl State.pushRecord s).rseq = (s.rseq + rs.length) % 65536 := by
  induction rs with
  | nil => exact fun s hs => ⟨(List.append_nil _).symm, (Nat.mod_eq_of_lt hs).symm⟩
  | cons r rest ih =>
    intro s hs
    obtain ⟨queue, count⟩ := ih (s.pushRecord r) (by rw [rseq_pushRecord]; omega)
    rw [rseq_pushRecord] at queue count
    have first : FRec.numbered s.rseq 0 r = { r with rseq := s.rseq } := by
      rw [FRec.numbered, Nat.add_zero, Nat.mod_eq_of_lt hs]
    have later : FRec.numbered ((s.rseq + 1) % 65536) = fun i => FRec.numbered s.rseq (i + 1) := by
      funext i x
      rw [FRec.numbered, FRec.numbered, Nat.mod_add_mod, Nat.add_assoc, Nat.add_comm 1 i]
    rw [List.foldl_cons, queue, count, faultQ_pushRecord, later, List.mapIdx_cons, first, List.append_assoc, List.length_cons]
    exact ⟨rfl, by omega⟩

/-- The set that is pushed next stands at the head of the records that wait. -/
theorem pushQ_eq_nextSet_append (s : State) : s.pushQ = s.nextSet ++ s.pushQ.drop s.nextSet.length := by
  have head : s.nextSet <+: s.pushQ := by
    unfold State.nextSet
    split
    · exact List.nil_prefix
    · exact List.takeWhile_prefix _
  exact (List.prefix_iff_eq_append.1 head).symm

theorem faultRecordPush_waits {s : State} (h : s.nextSet = [] ∨ 4096 < s.faultQ.length + s.nextSet.length) :
    exec .faultRecordPush s = .next s := by
  dsimp only [exec]
  exact if_pos (h.imp_left List.isEmpty_iff.2)

theorem faultRecordPush_pushes {s : State} (h : s.nextSet ≠ []) (room : s.faultQ.length + s.nextSet.length ≤ 4096) :
    exec .faultRecordPush s =
      .next (s.nextSet.foldl State.pushRecord { s with pushQ := s.pushQ.drop s.nextSet.length }) := by
  dsimp only [exec]
  exact if_neg fun hw => hw.elim (fun he => h (List.isEmpty_iff.1 he)) (fun hl => absurd room (Nat.not_le.2 hl))

/-! ### Answers (18 R396) -/

section Answers
variable {s s1 : State} {n : Nat} {r : FRec} (h : RecordTaken s n r s1)
include h

theorem takeForwarded_taken : s.takeForwarded n = some (r, s1) := by
  rw [State.takeForwarded, h.found, h.rest]

theorem driverAnswer_answers (mapped : Bool) : exec (.driverAnswer (.record n mapped)) s =
    if !(s.toDriver r.launch) then .next s
    else if mapped then .next (s1.serveRecord r) else .next (s1.declineSource r) := by
  dsimp only [exec]
  rw [execDriverAnswer, takeForwarded_taken h]

theorem faultServiceResume_answers : exec (.faultServiceResume n) s =
    if s.toDriver r.launch = true ∨ s.recordStopped r = true ∨ (!(s.selfServed r)) = true then .next s
    else .next (s1.serveRecord r) := by
  dsimp only [exec]
  rw [execFaultServiceResume, takeForwarded_taken h]
  rfl

theorem faultDecline_answers : exec (.faultDecline n) s =
    if s.toDriver r.launch = true ∨ (s.selfServed r = true ∧ (!(s.recordStopped r)) = true) then .next s
    else .next (s1.declineSource r) := by
  dsimp only [exec]
  rw [execFaultDecline, takeForwarded_taken h]
  rfl

end Answers

/-! ### What a service changes before its source goes on (17 R389; 08 R213) -/

section Serviced
variable {γ : Type} (h : State → γ) (hc : ∀ (s : State) mem keyOf cc l1 tcache parts,
  h { s with mem := mem, keyOf := keyOf, cc := cc, l1 := l1, tcache := tcache, parts := parts } = h s)
include hc

theorem putBack_keeps (s : State) (pa : Nat) (x : Byte × Option Nat) : h (s.putBack pa x) = h s := by
  unfold State.putBack
  split
  · split
    · exact hc s _ _ s.cc s.l1 s.tcache s.parts
    · rfl
  · rfl

theorem flushLine_keeps (s : State) (cl line : Nat) : h (s.flushLine cl line) = h s := by
  refine foldl_keeps h _ (fun s pa => ?_) _ s
  refine (hc _ _ _ _ _ _ _).trans ?_
  · split
    · exact (hc (s.putBack pa _) _ _ _ _ _ _).trans (putBack_keeps h hc s pa _)
    · rfl

theorem writeKeys_keeps (key : Nat) (bs : List Byte) : ∀ (s : State) (pa : Nat), h (s.writeKeys key pa bs) = h s := by
  induction bs with
  | nil => exact fun _ _ => rfl
  | cons b r ih => exact fun s pa => (ih _ _).trans (hc s _ _ s.cc s.l1 s.tcache s.parts)

theorem copyOnWrite_keeps {s t : State} {r : FRec} (copied : s.copyOnWrite r = some t) : h t = h s := by
  revert copied
  fun_cases State.copyOnWrite s r
  · rintro ⟨⟩
  · rintro ⟨⟩
    rfl
  · rintro ⟨⟩
    refine (hc _ _ _ _ _ _ _).trans ?_
    refine (writeKeys_keeps h hc ..).trans ((foldl_keeps h _ (fun s i => hc s _ _ s.cc s.l1 s.tcache s.parts) _ _).trans ?_)
    exact foldl_keeps h _ (fun s line => foldl_keeps h _ (fun s cl => flushLine_keeps h hc s cl line) _ s) _ s

end Serviced

/-- The state in which the source of a serviced record goes on. -/
def State.serviced (s : State) (r : FRec) : State :=
  let s1 := if r.isCow then (s.copyOnWrite r).getD s else s
  match s.recordSpace r with
  | some (root, _) => s1.dropTranslation root ((r.addr.signExtend 64).toNat)
  | none => s1

theorem serveRecord_eq (s : State) (r : FRec) : s.serveRecord r = (s.serviced r).resumeSource r := rfl

/-- A service writes memory, caches of lines and translations, and the partition's free pages, before its source goes on. -/
theorem serviced_keeps {γ : Type} (h : State → γ) (hc : ∀ (s : State) mem keyOf cc l1 tcache parts,
    h { s with mem := mem, keyOf := keyOf, cc := cc, l1 := l1, tcache := tcache, parts := parts } = h s) (s : State) (r : FRec) :
    h (s.serviced r) = h s := by
  have copied : h (if r.isCow then (s.copyOnWrite r).getD s else s) = h s := by
    split
    · cases hs : s.copyOnWrite r with
      | none => rfl
      | some t => exact copyOnWrite_keeps h hc hs
    · rfl
  unfold State.serviced
  dsimp only
  split
  · exact (hc _ _ _ _ _ _ _).trans copied
  · exact copied

/-! ### Splits (17 R389, R391; 20 R428) -/

section Splits
variable {s : State} {r : FRec} {gid e : Nat} {g : Group} {en : Entry}

theorem parkedBy_split (who : r.who = .split gid e) (hg : s.group gid = some g) (hen : g.entry e = some en) :
    s.parkedBy r = (decide (en.parkSet = some r.set) && en.st == .parked) := by
  rw [State.parkedBy, who]
  dsimp only
  rw [hg, Option.bind_some, hen]
  rfl

theorem declineSource_unparked (h : s.parkedBy r = false) : s.declineSource r = s := by
  rw [State.declineSource, h]
  rfl

theorem resumeSource_unparked (h : s.parkedBy r = false) : s.resumeSource r = s := by
  rw [State.resumeSource, h]
  rfl

theorem group_resumeSource_split (who : r.who = .split gid e) (h : s.parkedBy r = true) (hg : s.group gid = some g) :
    (s.resumeSource r).group gid = some (g.updEntry e (fun en =>
      { en with parkSet := none, st := if en.slide.isSome then .awaitingFull else .ready })) := by
  rw [State.resumeSource, h, who]
  exact (group_updGroup_self ..).trans (congrArg _ hg)

theorem group_declineSource_split (who : r.who = .split gid e) (h : s.parkedBy r = true) (hg : s.group gid = some g) :
    (s.declineSource r).group gid = some ((g.updEntry e (fun en => { en with parkSet := none })).updEntry e
      (fun en => { en with st := .trapped, trapRec := some { r.trapRec with split := e }, hangOld := none })) := by
  rw [State.declineSource, h, who]
  simp only [Bool.not_true, Bool.false_eq_true, if_false]
  rw [State.stopSplit, group_notice, group_updGroup_self, group_updGroup_self, hg]
  rfl

end Splits

/-! ### Copy commands (17 R389, R391) -/

section Copies
variable {s : State} {r : FRec} {op : Nat} {o : CpOp} (who : r.who = .cp op) (found : s.cpOps.find? (fun p => p.id = op) = some o)
  (parked : o.parkSet = some r.set)
include who found parked

theorem parkedBy_cp : s.parkedBy r = true := by
  rw [State.parkedBy, who]
  exact List.any_eq_true.2 ⟨o, List.mem_of_find?_eq_some found, by
    rw [parked, decide_eq_true rfl, Bool.and_true]
    simpa using List.find?_some found⟩

theorem cpOps_resumeSource : (s.resumeSource r).cpOps =
    s.cpOps.map (fun o => if o.id = op then { o with parkSet := none } else o) := by
  rw [State.resumeSource, parkedBy_cp who found parked, who]
  rfl

theorem declineSource_cp :
    s.declineSource r = (s.endCp o (errorValue codeUNSERVED)).err (s.launchOf o.gid) errUNSERVED := by
  rw [State.declineSource, parkedBy_cp who found parked, who]
  dsimp only
  rw [found]
  rfl

end Copies

/-- Settles O57: the set pushed, the record taken, its answer, and what the answer does to a split and to a copy command. -/
theorem faultRecordsArePushedAndAnswered : Obligations.FaultRecordsArePushedAndAnswered := by
  refine ⟨fun s => ⟨fun none => faultRecordPush_waits (Or.inl ?_), fun full => faultRecordPush_waits (Or.inr full),
    fun some room count => ?_⟩, fun s r rest hq => ?_, fun s s1 n r h => ⟨fun driver => ?_, fun firmware => ?_⟩,
    fun s r gid e g en who hg hen => ?_, fun s r op o who found parked => ⟨fun p hp hid => ?_, declineSource_cp who found parked⟩⟩
  · rw [State.nextSet, none]
  · obtain ⟨queue, next⟩ := pushRecords_queue s.nextSet { s with pushQ := s.pushQ.drop s.nextSet.length } count
    have keeps {γ : Type} (h : State → γ) (hq : ∀ (s : State) faultQ rseq perf launches,
        h { s with faultQ := faultQ, rseq := rseq, perf := perf, launches := launches } = h s) :=
      foldl_keeps h _ (pushRecord_keeps h hq) s.nextSet { s with pushQ := s.pushQ.drop s.nextSet.length }
    refine ⟨_, faultRecordPush_pushes some room, ?_, ?_, ?_, fun i r hr => ?_, next, ?_, ?_⟩
    · rw [keeps (·.pushQ) (fun _ _ _ _ _ => rfl)]
      exact pushQ_eq_nextSet_append s
    · rw [queue, List.length_append, List.length_mapIdx]
    · rw [queue, List.take_left']
      rfl
    · rw [queue, List.getElem?_append_right (Nat.le_add_right ..), Nat.add_sub_cancel_left, List.getElem?_mapIdx, hr]
      rfl
    · exact keeps (·.groups) (fun _ _ _ _ _ => rfl)
    · exact keeps (·.mem) (fun _ _ _ _ _ => rfl)
  · dsimp only [exec]
    rw [execFaultRecordTake, hq]
  · simp [driverAnswer_answers h, faultServiceResume_answers h, faultDecline_answers h, driver]
  · refine ⟨?_, fun running served => ?_, fun unserved => ?_⟩
    · simp [driverAnswer_answers h, firmware]
    · simp [faultServiceResume_answers h, faultDecline_answers h, firmware, running, served]
    · rcases unserved with stopped | other
      · simp [faultServiceResume_answers h, faultDecline_answers h, firmware, stopped]
      · simp [faultServiceResume_answers h, faultDecline_answers h, firmware, other]
  · have groups : (s.serviced r).group gid = some g :=
      (congrArg (look · gid) (serviced_keeps State.groups (fun _ _ _ _ _ _ _ => rfl) s r)).trans hg
    have parked := parkedBy_split who hg hen
    have parked' := parkedBy_split who groups hen
    rw [serveRecord_eq]
    refine ⟨fun other => ?_, fun st set => ⟨⟨_, group_resumeSource_split who ?_ groups, rfl⟩, _, _, _,
      group_declineSource_split who ?_ hg, (entry_updEntry_self ..).trans (congrArg _ ((entry_updEntry_self ..).trans
        (congrArg _ hen))), rfl, rfl, rfl, rfl, rfl, rfl, rfl, rfl, rfl, rfl, rfl, rfl, rfl⟩⟩
    · have none : (decide (en.parkSet = some r.set) && en.st == .parked) = false := by
        rcases other with ho | ho <;> simp [ho]
      exact ⟨declineSource_unparked (parked.trans none), by rw [resumeSource_unparked (parked'.trans none), groups]⟩
    · rw [parked', st, set]
      simp
    · rw [parked, st, set]
      simp
  · have kept := serviced_keeps State.cpOps (fun _ _ _ _ _ _ _ => rfl) s r
    rw [serveRecord_eq, cpOps_resumeSource who (kept ▸ found) parked] at hp
    obtain ⟨old, -, rfl⟩ := List.mem_map.1 hp
    by_cases same : old.id = op
    · rw [if_pos same]
    · rw [if_neg same] at hid
      exact absurd hid same

end Sys2Proof.Machine
end

section
/-!
PROOFS. What a stop of queues and a kill of groups leave standing (for O60): no record that ends, and no group that is killed, takes a
group, a team, a launch, a queue or a partition away.
-/
namespace Sys2Proof.Machine

/-- From s to t partitions stay as they are, every queue keeps its configuration and RIDX, every team its launch and groups, every
launch its partition, every group stands, and what is stopped or killed stays so. -/
structure State.Stands (s t : State) : Prop where
  parts : t.parts = s.parts
  queue : ∀ q x, s.queue q = some x → ∃ y, t.queue q = some y ∧ y.cfg = x.cfg ∧ y.ridx = x.ridx ∧ (x.st = .stopped → y.st = .stopped)
  launch : ∀ lid l, s.launch lid = some l → ∃ l', t.launch lid = some l' ∧ l'.part = l.part
  team : ∀ tid tm, s.team tid = some tm → ∃ tm', t.team tid = some tm' ∧ tm'.launch = tm.launch ∧ tm'.gids = tm.gids ∧
    tm'.retired = tm.retired
  group : ∀ gid g, s.group gid = some g → ∃ g', t.group gid = some g' ∧ g'.retired = g.retired ∧ (g.killed = true → g'.killed = true)

theorem stands_refl (s : State) : s.Stands s :=
  ⟨rfl, fun _ x h => ⟨x, h, rfl, rfl, id⟩, fun _ l h => ⟨l, h, rfl⟩, fun _ tm h => ⟨tm, h, rfl, rfl, rfl⟩,
    fun _ g h => ⟨g, h, rfl, id⟩⟩

theorem State.Stands.trans {a b c : State} (hab : a.Stands b) (hbc : b.Stands c) : a.Stands c where
  parts := hbc.parts.trans hab.parts
  queue q x h := by
    obtain ⟨y, hy, cfg, ridx, st⟩ := hab.queue q x h
    obtain ⟨z, hz, cfg', ridx', st'⟩ := hbc.queue q y hy
    exact ⟨z, hz, cfg'.trans cfg, ridx'.trans ridx, st' ∘ st⟩
  launch lid l h := by
    obtain ⟨l1, h1, part⟩ := hab.launch lid l h
    obtain ⟨l2, h2, part'⟩ := hbc.launch lid l1 h1
    exact ⟨l2, h2, part'.trans part⟩
  team tid tm h := by
    obtain ⟨t1, h1, launch, gids, retired⟩ := hab.team tid tm h
    obtain ⟨t2, h2, launch', gids', retired'⟩ := hbc.team tid t1 h1
    exact ⟨t2, h2, launch'.trans launch, gids'.trans gids, retired'.trans retired⟩
  group gid g h := by
    obtain ⟨g1, h1, retired, killed⟩ := hab.group gid g h
    obtain ⟨g2, h2, retired', killed'⟩ := hbc.group gid g1 h1
    exact ⟨g2, h2, retired'.trans retired, killed' ∘ killed⟩

/-- A change of other tables. -/
theorem stands_of_eq {s t : State} (parts : t.parts = s.parts) (queues : t.queues = s.queues) (launches : t.launches = s.launches)
    (teams : t.teams = s.teams) (groups : t.groups = s.groups) : s.Stands t where
  parts := parts
  queue q x h := ⟨x, (congrArg (look · q) queues).trans h, rfl, rfl, id⟩
  launch lid l h := ⟨l, (congrArg (look · lid) launches).trans h, rfl⟩
  team tid tm h := ⟨tm, (congrArg (look · tid) teams).trans h, rfl, rfl, rfl⟩
  group gid g h := ⟨g, (congrArg (look · gid) groups).trans h, rfl, id⟩

theorem emit_stands (s : State) (m : OutMsg) : s.Stands (s.emit m) := stands_of_eq rfl rfl rfl rfl rfl

theorem setRow_stands (s : State) (part row : Nat) (r : Row) : s.Stands (s.setRow part row r) := stands_of_eq rfl rfl rfl rfl rfl

theorem foldl_stands {β : Type} {f : State → β → State} (hf : ∀ (s : State) b, s.Stands (f s b)) (l : List β) (s : State) :
    s.Stands (l.foldl f s) := by
  induction l generalizing s with
  | nil => exact stands_refl s
  | cons b r ih => exact (hf s b).trans (ih (f s b))

/-- A fold whose every step leaves things standing reaches what one of its steps reaches. -/
theorem foldl_reaches {β : Type} {f : State → β → State} (hf : ∀ (s : State) b, s.Stands (f s b)) {P Q : State → Prop} {b : β}
    (pre : ∀ s t : State, s.Stands t → P s → P t) (post : ∀ s t : State, s.Stands t → Q s → Q t)
    (step : ∀ s, P s → Q (f s b)) (l : List β) (s : State) (hm : b ∈ l) (hp : P s) : Q (l.foldl f s) := by
  induction l generalizing s with
  | nil => exact absurd hm List.not_mem_nil
  | cons c r ih =>
    rcases List.mem_cons.1 hm with rfl | hm
    · exact post _ _ (foldl_stands hf r (f s b)) (step s hp)
    · exact ih (f s c) hm (pre _ _ (hf s c) hp)

section
variable (s : State)

/-! ### Updates -/

theorem updGroup_stands (gid : Nat) {f : Group → Group} (retired : ∀ g, (f g).retired = g.retired)
    (killed : ∀ g, g.killed = true → (f g).killed = true) : s.Stands (s.updGroup gid f) where
  parts := rfl
  queue _ x h := ⟨x, h, rfl, rfl, id⟩
  launch _ l h := ⟨l, h, rfl⟩
  team _ tm h := ⟨tm, h, rfl, rfl, rfl⟩
  group k g h := by
    by_cases hk : k = gid
    · subst hk
      exact ⟨f g, by rw [group_updGroup_self, h]; rfl, retired g, killed g⟩
    · exact ⟨g, (group_updGroup_ne s f hk).trans h, rfl, id⟩

theorem updTeam_stands (tid : Nat) {f : Team → Team} (launch : ∀ t, (f t).launch = t.launch) (gids : ∀ t, (f t).gids = t.gids)
    (retired : ∀ t, (f t).retired = t.retired) : s.Stands (s.updTeam tid f) where
  parts := rfl
  queue _ x h := ⟨x, h, rfl, rfl, id⟩
  launch _ l h := ⟨l, h, rfl⟩
  team k tm h := by
    by_cases hk : k = tid
    · subst hk
      exact ⟨f tm, by rw [team_updTeam_self, h]; rfl, launch tm, gids tm, retired tm⟩
    · exact ⟨tm, (team_updTeam_ne s f hk).trans h, rfl, rfl, rfl⟩
  group _ g h := ⟨g, h, rfl, id⟩

theorem updQueue_stands (q : Nat) {f : Queue → Queue} (cfg : ∀ x, (f x).cfg = x.cfg) (ridx : ∀ x, (f x).ridx = x.ridx)
    (st : ∀ x, x.st = .stopped → (f x).st = .stopped) : s.Stands (s.updQueue q f) where
  parts := rfl
  queue k x h := by
    by_cases hk : k = q
    · subst hk
      exact ⟨f x, by rw [queue_updQueue_self, h]; rfl, cfg x, ridx x, st x⟩
    · exact ⟨x, (queue_updQueue_ne s f hk).trans h, rfl, rfl, id⟩
  launch _ l h := ⟨l, h, rfl⟩
  team _ tm h := ⟨tm, h, rfl, rfl, rfl⟩
  group _ g h := ⟨g, h, rfl, id⟩

theorem err_stands (lid : Option Nat) (b : Nat) : s.Stands (s.err lid b) := by
  cases lid with
  | none => exact stands_refl s
  | some n =>
    refine ⟨rfl, fun _ x h => ⟨x, h, rfl, rfl, id⟩, fun k l h => ?_, fun _ tm h => ⟨tm, h, rfl, rfl, rfl⟩,
      fun _ g h => ⟨g, h, rfl, id⟩⟩
    by_cases hk : k = n
    · subst hk
      exact ⟨_, (launch_updLaunch_self ..).trans (congrArg _ h), rfl⟩
    · exact ⟨l, (launch_updLaunch_ne s _ hk).trans h, rfl⟩

/-! ### Traps and the ends of engine work -/

theorem notice_stands (gid : Nat) (e : Option Nat) : s.Stands (s.notice gid e) := by
  unfold State.notice
  split
  · split
    · exact stands_refl s
    · exact stands_of_eq rfl rfl rfl rfl rfl
  · exact stands_refl s

theorem stopSplit_stands (gid e : Nat) (st : SplitState) (r : TrapRec) : s.Stands (s.stopSplit gid e st r) :=
  (updGroup_stands s gid (f := fun g => g.updEntry e (fun en => { en with st := st, trapRec := some r, hangOld := none }))
    (fun _ => rfl) (fun _ h => h)).trans (notice_stands _ gid (some e))

theorem trapAccess_stands (gid : Nat) (r : TrapRec) (next : Bool) : s.Stands (s.trapAccess gid r next) :=
  (updGroup_stands s gid (f := fun g => { g with aStopped := true, aTrap := some { r with acc := true }, aNext := next })
    (fun _ => rfl) (fun _ h => h)).trans (notice_stands _ gid none)

theorem endCommand_stands (gid id : Nat) (t : Token) (v : Word64) : s.Stands (s.endCommand gid id t v) :=
  updGroup_stands s gid (fun g => by dsimp only [Group.finOp]; split <;> rfl)
    (fun g h => by dsimp only [Group.finOp]; split <;> exact h)

theorem endCp_stands (o : CpOp) (v : Word64) : s.Stands (s.endCp o v) :=
  (endCommand_stands s o.gid o.id o.token v).trans (stands_of_eq rfl rfl rfl rfl rfl)

theorem endColl_stands (o : CollOp) (v : Word64) : s.Stands (s.endColl o v) :=
  (endCommand_stands s o.gid o.id o.token v).trans (stands_of_eq rfl rfl rfl rfl rfl)

theorem endDload_stands (o : DlOp) (v : Word64) : s.Stands (s.endDload o v) :=
  (endCommand_stands s o.gid o.id o.token v).trans (stands_of_eq rfl rfl rfl rfl rfl)

theorem endText_stands (o : TextOp) (v : Word64) : s.Stands (s.endText o v) :=
  (endCommand_stands s o.gid o.id o.token v).trans (stands_of_eq rfl rfl rfl rfl rfl)

theorem endAge_stands (gid x : Nat) (a : Age) (e : Option Nat) : s.Stands (s.endAge gid x a e) := by
  unfold State.endAge
  refine State.Stands.trans (b := if e.isSome ∧ a.token = 0xFF then s.err (s.launchOf gid) errAGEBAD else s) ?_
    (updGroup_stands _ gid (fun g => ?_) (fun g h => ?_))
  · split
    · exact err_stands s _ _
    · exact stands_refl s
  · split <;> rfl
  · split <;> exact h

theorem endDrain_stands (o : MxOp) (fl : BitVec 5) : s.Stands (s.endDrain o fl) := stands_of_eq rfl rfl rfl rfl rfl

theorem setMx_stands (o : MxOp) : s.Stands (s.setMx o) := stands_of_eq rfl rfl rfl rfl rfl

theorem mldbError_stands (q : Nat) (o : MxOp) (b : Nat) : s.Stands (s.mldbError q o b) :=
  State.Stands.trans (b := s.setTags q o.macros (fun _ => .none)) (stands_of_eq rfl rfl rfl rfl rfl)
    ((err_stands _ (s.launchOf o.gid) b).trans (setMx_stands _ _))

theorem broadcast_stands (release : Bool) (part : Nat) (pairs : List (Nat × Nat)) (rows : List Nat) :
    s.Stands (s.broadcast release part pairs rows) := by
  unfold State.broadcast
  split
  · exact stands_refl s
  · exact stands_of_eq rfl rfl rfl rfl rfl

theorem abandonCompaction_stands (key : Nat) : s.Stands (s.abandonCompaction key) := by
  unfold State.abandonCompaction
  cases look s.trees key with
  | none => exact stands_refl s
  | some t =>
    have rows : s.Stands (((t.comp.map Compaction.fresh).getD []).foldl
        (fun s r => s.setRow t.owner r { st := .releasing, count := 0 }) s) :=
      foldl_stands (fun s r => setRow_stands s t.owner r _) _ s
    refine State.Stands.trans ?_ (broadcast_stands _ true t.owner [] _)
    exact rows.trans (stands_of_eq rfl rfl rfl rfl rfl)

/-! ### Kills (09 R244; 12 R300; 19 R412) -/

theorem tellMembers_stands (tid what : Nat) : s.Stands (s.tellMembers tid what) := by
  unfold State.tellMembers
  split
  · exact stands_refl s
  · split
    · exact stands_refl s
    · exact foldl_stands (fun s m => emit_stands s _) _ s

theorem departTest_stands (tid : Nat) : s.Stands (s.departTest tid) := by
  unfold State.departTest
  split
  · exact stands_refl s
  · split
    · exact stands_refl s
    · exact (updTeam_stands s tid (f := fun t => { t with departed := true }) (fun _ => rfl) (fun _ => rfl) (fun _ => rfl)).trans
        (tellMembers_stands _ tid _)

theorem retestBars_stands (tid : Nat) : s.Stands (s.retestBars tid) where
  parts := retestBars_keeps State.parts (fun s tid t k r => by unfold State.putBar; split <;> rfl) (fun _ _ => rfl) s tid
  queue q x h := ⟨x, (congrArg (look · q) (retestBars_keeps State.queues
    (fun s tid t k r => by unfold State.putBar; split <;> rfl) (fun _ _ => rfl) s tid)).trans h, rfl, rfl, id⟩
  launch lid l h := ⟨l, (launch_retestBars s tid lid).trans h, rfl⟩
  team k tm h := by
    obtain ⟨tm', h', same⟩ := team_retestBars tid h
    have kept {γ : Type} (φ : Team → γ) : φ tm'.barless = φ tm.barless := congrArg φ same
    exact ⟨tm', h', kept Team.launch, kept Team.gids, kept Team.retired⟩
  group gid g h := ⟨g, (group_retestBars s tid gid).trans h, rfl, id⟩

theorem finAll_stands (gid : Nat) (ids : List Nat) : s.Stands (s.finAll gid ids) :=
  updGroup_stands s gid (fun g => foldl_keeps Group.retired Group.finOp (fun _ _ => rfl) ids g)
    (fun g h => (foldl_keeps Group.killed Group.finOp (fun _ _ => rfl) ids g).trans h)

theorem killEngines_stands (gid : Nat) : s.Stands (s.killEngines gid) := by
  have drains (l : List MxOp) : s.Stands (l.foldl (fun s o => s.endDrain o (((look s.drains o.id).map Drain.flags).getD 0)) s) :=
    foldl_stands (fun s o => endDrain_stands s o _) l s
  have waits (a : State) (l : List MxOp) : a.Stands (l.foldl (fun s o => s.setMx { o with stage := .finished }) a) :=
    foldl_stands (fun s _ => setMx_stands s _) l a
  refine State.Stands.trans ?_ (finAll_stands _ gid _)
  exact ((drains _).trans (waits _ _)).trans (stands_of_eq rfl rfl rfl rfl rfl)

theorem kill_stands (gid : Nat) : s.Stands (s.updGroup gid Group.kill) :=
  updGroup_stands s gid (f := Group.kill) (fun _ => rfl) (fun _ _ => rfl)

/-- What follows a kill: notices go, and barriers and the team's departure are tested. -/
theorem afterKill_stands (tid : Nat) (notices pending : List StopRef) :
    s.Stands (({ s with notices := notices, pendingNotices := pending }.retestBars tid).departTest tid) := by
  have dropped : s.Stands { s with notices := notices, pendingNotices := pending } := stands_of_eq rfl rfl rfl rfl rfl
  exact (dropped.trans (retestBars_stands _ tid)).trans (departTest_stands _ tid)

theorem killGroup_stands (gid : Nat) : s.Stands (s.killGroup gid) := by
  unfold State.killGroup
  cases s.group gid with
  | none => exact stands_refl s
  | some g =>
    dsimp only
    split
    · exact stands_refl s
    · exact ((killEngines_stands s gid).trans (kill_stands _ gid)).trans (afterKill_stands _ g.tid _ _)

theorem handlerKill_stands (gid : Nat) : s.Stands (s.handlerKill gid) :=
  ((updGroup_stands s gid (f := fun g => { g with handled := true }) (fun _ => rfl) (fun _ h => h)).trans
    (err_stands _ (s.launchOf gid) errHANDLED)).trans (killGroup_stands _ gid)

/-! ### Declined records (17 R391) -/

theorem declineSource_stands (r : FRec) : s.Stands (s.declineSource r) := by
  unfold State.declineSource
  split
  · exact stands_refl s
  · cases r.who with
    | split gid e =>
      exact (updGroup_stands s gid (f := fun g => g.updEntry e (fun en => { en with parkSet := none })) (fun _ => rfl)
        (fun _ h => h)).trans (stopSplit_stands _ gid e _ _)
    | access gid =>
      exact (updGroup_stands s gid (f := fun g => { g with aSet := none }) (fun _ => rfl) (fun _ h => h)).trans
        (trapAccess_stands _ gid _ _)
    | age gid x =>
      dsimp only
      split
      · exact (endAge_stands s gid x _ _).trans (err_stands _ (s.launchOf gid) errUNSERVED)
      · exact stands_refl s
    | cp op =>
      dsimp only
      split
      · exact (endCp_stands s _ _).trans (err_stands _ (s.launchOf _) errUNSERVED)
      · exact stands_refl s
    | coll op =>
      dsimp only
      split
      · exact (endColl_stands s _ _).trans (err_stands _ (s.launchOf _) errUNSERVED)
      · exact stands_refl s
    | dload op =>
      dsimp only
      split
      · exact (endDload_stands s _ _).trans (err_stands _ (s.launchOf _) errUNSERVED)
      · exact stands_refl s
    | text op =>
      dsimp only
      split
      · exact (endText_stands s _ _).trans (err_stands _ (s.launchOf _) errUNSERVED)
      · exact stands_refl s
    | mx op =>
      dsimp only
      split
      · exact stands_refl s
      · split
        · exact ((err_stands s (s.launchOf _) errDRAINBAD).trans (err_stands _ (s.launchOf _) errUNSERVED)).trans (endDrain_stands _ _ _)
        · exact mldbError_stands s _ _ _
        · exact stands_refl s
    | comp key => exact abandonCompaction_stands s key
    | hang gid => exact handlerKill_stands s gid
    | _ => exact stands_refl s

/-! ### Stops of queues (18 R394) and kills of a partition's teams (21 R449) -/

theorem dropDriver_stands (q : Nat) : s.Stands (s.dropDriver q) := by
  unfold State.dropDriver
  refine State.Stands.trans ?_ (foldl_stands declineSource_stands _ _)
  exact stands_of_eq rfl rfl rfl rfl rfl

theorem stop_stands (q : Nat) : s.Stands (s.updQueue q (fun x => { x with st := .stopped })) :=
  updQueue_stands s q (f := fun x => { x with st := .stopped }) (fun _ => rfl) (fun _ => rfl) (fun _ _ => rfl)

theorem stopQueue_stands (q : Nat) : s.Stands (s.stopQueue q) := (stop_stands s q).trans (dropDriver_stands _ q)

theorem stopPart_stands (v : Nat) : s.Stands (s.stopPart v) := foldl_stands stopQueue_stands _ s

theorem killPart_stands (v : Nat) : s.Stands (s.killPart v) := foldl_stands killGroup_stands _ s

end

/-- A queue of partition v, with RIDX r. -/
def State.QueueAt (s : State) (q v : Nat) (r : BitVec 32) : Prop := ∃ x, s.queue q = some x ∧ x.cfg.part = v ∧ x.ridx = r

/-- A stopped queue, with RIDX r. -/
def State.StoppedAt (s : State) (q : Nat) (r : BitVec 32) : Prop := ∃ x, s.queue q = some x ∧ x.st = .stopped ∧ x.ridx = r

/-- A group that stands. -/
def State.StandsAt (s : State) (gid : Nat) : Prop := ∃ g, s.group gid = some g ∧ g.retired = false

/-- A killed group. -/
def State.KilledGroup (s : State) (gid : Nat) : Prop := ∃ g, s.group gid = some g ∧ g.killed = true

theorem queueAt_of_stands (q v : Nat) (r : BitVec 32) (s t : State) (h : s.Stands t) : s.QueueAt q v r → t.QueueAt q v r := by
  rintro ⟨x, hx, part, ridx⟩
  obtain ⟨y, hy, cfg, ridx', -⟩ := h.queue q x hx
  exact ⟨y, hy, cfg ▸ part, ridx'.trans ridx⟩

theorem stoppedAt_of_stands (q : Nat) (r : BitVec 32) (s t : State) (h : s.Stands t) : s.StoppedAt q r → t.StoppedAt q r := by
  rintro ⟨x, hx, st, ridx⟩
  obtain ⟨y, hy, -, ridx', st'⟩ := h.queue q x hx
  exact ⟨y, hy, st' st, ridx'.trans ridx⟩

theorem standsAt_of_stands (gid : Nat) (s t : State) (h : s.Stands t) : s.StandsAt gid → t.StandsAt gid := by
  rintro ⟨g, hg, live⟩
  obtain ⟨g', hg', retired, -⟩ := h.group gid g hg
  exact ⟨g', hg', retired.trans live⟩

theorem killedGroup_of_stands (gid : Nat) (s t : State) (h : s.Stands t) : s.KilledGroup gid → t.KilledGroup gid := by
  rintro ⟨g, hg, dead⟩
  obtain ⟨g', hg', -, killed⟩ := h.group gid g hg
  exact ⟨g', hg', killed dead⟩

theorem stopQueue_stops {q v : Nat} {r : BitVec 32} (s : State) : s.QueueAt q v r → (s.stopQueue q).StoppedAt q r := by
  rintro ⟨x, hx, -, ridx⟩
  have found : (s.updQueue q (fun x => { x with st := .stopped })).queue q = some { x with st := .stopped } := by
    rw [queue_updQueue_self, hx]
    rfl
  exact stoppedAt_of_stands q r _ _ (dropDriver_stands _ q) ⟨_, found, rfl, ridx⟩

theorem mem_queuesOf {s : State} {q : Nat} {x : Queue} (h : s.queue q = some x) : q ∈ s.queuesOf x.cfg.part :=
  List.mem_map.2 ⟨(q, x), List.mem_filter.2 ⟨look_mem h, decide_eq_true rfl⟩, rfl⟩

theorem stopPart_stops {s : State} {q v : Nat} {r : BitVec 32} : s.QueueAt q v r → (s.stopPart v).StoppedAt q r := by
  rintro ⟨x, hx, rfl, ridx⟩
  exact foldl_reaches stopQueue_stands (queueAt_of_stands q x.cfg.part r) (stoppedAt_of_stands q r) stopQueue_stops _ s
    (mem_queuesOf hx) ⟨x, hx, rfl, ridx⟩

theorem killGroup_kills {gid : Nat} (s : State) (h : s.StandsAt gid) : (s.killGroup gid).KilledGroup gid := by
  obtain ⟨g, hg, live⟩ := standsAt_of_stands gid _ _ (killGroup_stands s gid) h
  exact ⟨g, hg, (killedAt_killGroup_self s gid g hg).resolve_right (by simp [live])⟩

/-- A group of a team of the partition that has not retired. -/
def State.GroupOf (s : State) (v gid : Nat) : Prop :=
  s.StandsAt gid ∧ ∃ tid tm l, s.team tid = some tm ∧ s.launch tm.launch = some l ∧ l.part = v ∧ tm.retired = false ∧ gid ∈ tm.gids

theorem groupOf_of_stands {v gid : Nat} {s t : State} (h : s.Stands t) : s.GroupOf v gid → t.GroupOf v gid := by
  rintro ⟨stands, tid, tm, l, htm, hl, part, live, mem⟩
  obtain ⟨tm', htm', launch, gids, retired⟩ := h.team tid tm htm
  obtain ⟨l', hl', part'⟩ := h.launch _ l hl
  exact ⟨standsAt_of_stands gid _ _ h stands, tid, tm', l', htm', launch ▸ hl', part'.trans part, retired.trans live, gids ▸ mem⟩

theorem killPart_kills {s : State} {v gid : Nat} : s.GroupOf v gid → (s.killPart v).KilledGroup gid := by
  rintro ⟨stands, tid, tm, l, htm, hl, rfl, live, mem⟩
  have team : tid ∈ s.teamsOfLaunches (fun k => k.part = l.part) :=
    List.mem_map.2 ⟨(tid, tm), List.mem_filter.2 ⟨look_mem htm, by simp [live, hl]⟩, rfl⟩
  exact foldl_reaches killGroup_stands (standsAt_of_stands gid) (killedGroup_of_stands gid) killGroup_kills _ s
    (List.mem_flatMap.2 ⟨tid, team, by rw [htm]; exact mem⟩) stands

end Sys2Proof.Machine
end

section
/-!
PROOFS. Start, power states, TDISP, resets, alarms and soft errors (O60; 21 R447, R449-R459; 15 R347; 20 R432).
-/
namespace Sys2Proof.Machine

/-! ### TDISP and function-level reset (21 R449, R450) -/

section
variable {s : State} {v : Nat} (hv : v < 64)
include hv

theorem tdispMove_moves {f : Tdisp → Option Tdisp} {t : Tdisp} (on : s.stage ≠ .off) (moves : f (s.part v).tdisp = some t) :
    s.tdispMove v f = .next (s.updPart v (fun p => { p with tdisp := t })) := by
  rw [State.tdispMove, if_neg (not_or.2 ⟨Nat.not_le.2 hv, on⟩), moves]

theorem tdispMove_stays {f : Tdisp → Option Tdisp} (on : s.stage ≠ .off) (stays : f (s.part v).tdisp = none) :
    s.tdispMove v f = .next s := by
  rw [State.tdispMove, if_neg (not_or.2 ⟨Nat.not_le.2 hv, on⟩), stays]

end

theorem tdisp_moved (s : State) (v : Nat) (x : Tdisp) : ((s.updPart v (fun p => { p with tdisp := x })).part v).tdisp = x ∧
    ∀ k, k ≠ v → (s.updPart v (fun p => { p with tdisp := x })).part k = s.part k := by
  rw [part_updPart_self]
  exact ⟨rfl, fun k hk => part_updPart_ne s _ hk⟩

/-- From s to t every queue of partition v is stopped at its RIDX, and every group of its teams is killed. -/
structure State.Ends (v : Nat) (s t : State) : Prop where
  queue : ∀ q r, s.QueueAt q v r → t.StoppedAt q r
  group : ∀ gid, s.GroupOf v gid → t.KilledGroup gid

theorem State.Ends.clauses {v : Nat} {s t : State} (h : s.Ends v t) :
    (∀ q x, s.queue q = some x → x.cfg.part = v → ∃ y, t.queue q = some y ∧ y.st = .stopped ∧ y.ridx = x.ridx) ∧
    (∀ tid tm l gid g, s.team tid = some tm → s.launch tm.launch = some l → l.part = v → tm.retired = false → gid ∈ tm.gids →
      s.group gid = some g → g.retired = false → ∃ g' : Group, t.group gid = some g' ∧ g'.killed = true) :=
  ⟨fun q x hx part => h.queue q x.ridx ⟨x, hx, part, rfl⟩,
    fun tid tm l gid g htm hl part live mem hg stands => h.group gid ⟨⟨g, hg, stands⟩, tid, tm, l, htm, hl, part, live, mem⟩⟩

theorem enterError_ends (s : State) (v : Nat) : s.Ends v (s.enterError v) where
  queue q r h := stoppedAt_of_stands q r _ _ (killPart_stands _ v) (stopPart_stops (s := s.updPart v _) h)
  group _ h := killPart_kills (groupOf_of_stands (stopPart_stands (s.updPart v _) v) h)

theorem tdisp_enterError (s : State) (v : Nat) : ((s.enterError v).part v).tdisp = .error := by
  have parts : (s.enterError v).parts = (s.updPart v (fun p => { p with tdisp := .error })).parts :=
    ((stopPart_stands _ v).trans (killPart_stands _ v)).parts
  have same : (s.enterError v).part v = (s.updPart v (fun p => { p with tdisp := .error })).part v :=
    congrArg (rd Partition.reset · v) parts
  rw [same, part_updPart_self]

theorem flr_ends (s : State) (v : Nat) (f : Partition → Partition) : s.Ends v (((s.killPart v).stopPart v).updPart v f) where
  queue q r h := stopPart_stops (queueAt_of_stands q v r _ _ (killPart_stands s v) h)
  group gid h := by
    have dead : ((s.killPart v).stopPart v).KilledGroup gid :=
      killedGroup_of_stands gid _ _ (stopPart_stands (s.killPart v) v) (killPart_kills h)
    exact dead

/-! ### Start (21 R456) -/

theorem port_setPort (s : State) (p k : Nat) (x : Port) : (s.setPort p x).port k = if k = p then x else s.port k := rd_wr ..

/-- Port p is up as the training says. -/
def State.train (ports : BitVec 32) (s : State) (p : Nat) : State := s.setPort p { s.port p with up := ports.getLsbD p }

theorem up_trained (ports : BitVec 32) (l : List Nat) (s : State) (k : Nat) :
    ((l.foldl (State.train ports) s).port k).up = if k ∈ l then ports.getLsbD k else (s.port k).up := by
  induction l generalizing s with
  | nil => rfl
  | cons p r ih =>
    rw [List.foldl_cons, ih, State.train, port_setPort]
    by_cases hk : k = p
    · subst hk
      simp
    · simp [hk]

theorem summitComplete_trains {s : State} (camp : s.stage = .baseCamp) (awake : s.power ≠ .ps3) (ports : BitVec 32) :
    exec (.summitComplete true ports) s = .next ((List.range 32).foldl (State.train ports) { s with stage := .ready }) := by
  dsimp only [exec]
  unfold execSummitComplete
  rw [if_neg (not_or.2 ⟨not_not_intro camp, awake⟩)]
  exact if_neg (by decide)

theorem summitComplete_ready {s : State} (camp : s.stage = .baseCamp) (awake : s.power ≠ .ps3) (ports : BitVec 32) :
    ∃ t : State, exec (.summitComplete true ports) s = .next t ∧ t.stage = .ready ∧
      (∀ p, p < 32 → (t.port p).up = ports.getLsbD p) ∧ t.groups = s.groups ∧ t.mem = s.mem := by
  have keeps {γ : Type} (f : State → γ) (hf : ∀ a p, f (State.train ports a p) = f a) :=
    foldl_keeps f (State.train ports) hf (List.range 32) { s with stage := .ready }
  exact ⟨_, summitComplete_trains camp awake ports, keeps State.stage fun _ _ => rfl,
    fun p hp => (up_trained ports _ _ p).trans (if_pos (List.mem_range.2 hp)), keeps State.groups fun _ _ => rfl,
    keeps State.mem fun _ _ => rfl⟩

/-! ### Reset and power states (21 R456, R457) -/

theorem look_mapValues {β γ : Type} (f : β → γ) (m : AMap β) (k : Nat) :
    look (m.map (fun e => (e.1, f e.2))) k = (look m k).map f := by
  induction m with
  | nil => rfl
  | cons e r ih =>
    simp only [List.map_cons, look]
    split
    · rfl
    · exact ih

/-- A partition whose key is gone, at its reset value but for the count of its keys. -/
def Partition.fresh (p : Partition) : Partition := { Partition.reset with keyEpoch := p.keyEpoch + 1 }

theorem freshParts_blank (s : State) (n : Nat) :
    (rd Partition.reset s.freshParts n).keyLoaded = false ∧ (rd Partition.reset s.freshParts n).tdisp = .unlocked := by
  have found : look s.freshParts n = (look s.parts n).map Partition.fresh := look_mapValues Partition.fresh s.parts n
  rw [rd, found]
  cases look s.parts n <;> exact ⟨rfl, rfl⟩

/-- Nothing is resident and no key is loaded. -/
def State.Empty (t : State) : Prop :=
  ∀ n : Nat, t.group n = none ∧ t.team n = none ∧ t.launch n = none ∧ t.queue n = none ∧ look t.trees n = none ∧
    (t.part n).keyLoaded = false ∧ (t.part n).tdisp = .unlocked

theorem empty_of_tables {t : State} (groups : t.groups = []) (teams : t.teams = []) (launches : t.launches = [])
    (queues : t.queues = []) (trees : t.trees = []) (parts : ∃ s : State, t.parts = s.freshParts) : t.Empty := by
  intro n
  obtain ⟨s, parts⟩ := parts
  rw [State.group, State.team, State.launch, State.queue, State.part, groups, teams, launches, queues, trees, parts]
  exact ⟨rfl, rfl, rfl, rfl, rfl, freshParts_blank s n⟩

theorem perstAssertion_empties (s : State) : ∃ t : State, exec .perstAssertion s = .next t ∧ t.stage = .off ∧ t.power = .ps0 ∧
    t.fwVersion = s.fwVersion ∧ t.Empty :=
  ⟨_, rfl, rfl, rfl, rfl, empty_of_tables rfl rfl rfl rfl rfl ⟨s, rfl⟩⟩

theorem powerStatePs3_empties {s : State} (ready : s.stage = .ready) : ∃ t : State, exec .powerStatePs3 s = .next t ∧
    t.stage = .baseCamp ∧ t.power = .ps3 ∧ t.Empty := by
  dsimp only [exec, execPowerStatePs3]
  refine ⟨_, mailReady_ready ready _, rfl, rfl, empty_of_tables rfl rfl rfl rfl rfl ?_⟩
  dsimp only
  exact ⟨_, rfl⟩

theorem sleep_idle {s : State} (ready : s.stage = .ready) (idle : s.teams = []) (p : Power) :
    s.sleep p = .next { s with power := p, powerWant := none } := by
  have none : s.teamsOfLaunches (fun _ => true) = [] := by rw [State.teamsOfLaunches, idle]; rfl
  rw [State.sleep, mailReady_ready ready, none]
  simp [State.powerTest, idle]

/-! ### Alarms (21 R458, R459) -/

/-- A change of a die's alarm leaves its operating point and the other die. -/
theorem alarm_updDie (s : State) (die : Nat) (a : Bool) : ((s.updDie die (fun d => { d with alarm := a })).die die).alarm = a ∧
    ((s.updDie die (fun d => { d with alarm := a })).die die).point = (s.die die).point ∧
    ∀ k, k ≠ die → (s.updDie die (fun d => { d with alarm := a })).die k = s.die k := by
  rw [die_updDie_self]
  exact ⟨rfl, rfl, fun k hk => die_updDie_ne s _ hk⟩

theorem powerAlarmRaise_above {s : State} {die power temp : Nat} (hd : die < 2) (above : (s.die die).plim < power ∨ 105 < temp) :
    exec (.powerAlarmRaise die power temp) s = .next (s.updDie die (fun d => { d with alarm := true })) :=
  if_neg (by simp only [Bool.not_eq_true', Bool.or_eq_false_iff, decide_eq_false_iff_not]; omega)

theorem powerAlarmRaise_below {s : State} {die power temp : Nat} (cool : power ≤ (s.die die).plim) (cold : temp ≤ 105) :
    exec (.powerAlarmRaise die power temp) s = .next s :=
  if_pos (by simp only [Bool.not_eq_true', Bool.or_eq_false_iff, decide_eq_false_iff_not]; omega)

/-! ### Soft errors (21 R454, R455; 15 R347) -/

section
variable {s : State} {die core quarter mac col : Nat} (hd : die < 2) (hc : core < 96) (hq : quarter < 4) (hm : mac < 8)
  (hcol : col < 128) (idle : s.mxOps = [])
include hd hc hq hm hcol idle

/-- With no matrix operation no macro is held, and the read-back is performed. -/
theorem macroReadback_idle (r : EccResult) : exec (.macroReadback die core quarter mac col r) s =
    match r with
    | .clean => .next s
    | .corrected => .next (s.updDie die (fun d => { d with corrections := d.corrections + 1 }))
    | .uncorrectable kb =>
      if 4 ≤ kb then .next s
      else .next { s with invs := wr false s.invs (expKey (coreId die core * 4 + quarter)
        (if rd .none s.tags ((coreId die core * 4 + quarter) * 8 + mac) = .bf16hi then mac - 1 else mac) col kb) true } := by
  have inside : ¬(2 ≤ die ∨ 96 ≤ core ∨ 4 ≤ quarter ∨ 8 ≤ mac ∨ 128 ≤ col) := by omega
  dsimp only [exec]
  unfold execMacroReadback
  rw [idle]
  refine (if_neg fun h => inside ?_).trans (by cases r <;> rfl)
  simpa using h

end

theorem patrolScrub_hbm {s : State} {pa : Nat} (hbm : isHbm pa = true) (r : EccResult) : exec (.patrolScrub pa r) s =
    match r with
    | .clean => .next s
    | .corrected => .next (s.updDie (dieOfPa pa) (fun d => { d with corrections := d.corrections + 1 }))
    | .uncorrectable _ => .next { s with poison := if s.poisoned pa then s.poison else s.poison ++ [pa / 64] } :=
  (if_neg (by simp [hbm])).trans (by cases r <;> rfl)

theorem corrections_updDie (s : State) (die : Nat) :
    ((s.updDie die (fun d => { d with corrections := d.corrections + 1 })).die die).corrections = (s.die die).corrections + 1 := by
  rw [die_updDie_self]

/-- The line of an address joins the lines with an uncorrectable error. -/
theorem poisoned_mark (s : State) (pa x : Nat) :
    State.poisoned { s with poison := if s.poisoned pa then s.poison else s.poison ++ [pa / 64] } x =
      (s.poisoned x || decide (x / 64 = pa / 64)) := by
  by_cases hx : x / 64 = pa / 64
  · cases h : s.poison.contains (pa / 64) <;> simp_all [State.poisoned]
  · cases h : s.poison.contains (pa / 64) <;> simp_all [State.poisoned]

/-! ### The settlement -/

theorem tdisp_effects {s : State} {v : Nat} (hv : v < 64) (on : s.stage ≠ .off) :
    ((s.part v).tdisp = .unlocked → ∃ t : State, exec (.lockInterface v) s = .next t ∧ (t.part v).tdisp = .locked ∧
      ∀ k, k ≠ v → t.part k = s.part k) ∧
    ((s.part v).tdisp ≠ .unlocked → exec (.lockInterface v) s = .next s) ∧
    ((s.part v).tdisp = .locked → ∃ t : State, exec (.startInterface v) s = .next t ∧ (t.part v).tdisp = .run ∧
      ∀ k, k ≠ v → t.part k = s.part k) ∧
    ((s.part v).tdisp ≠ .locked → exec (.startInterface v) s = .next s) ∧
    (∃ t : State, exec (.stopInterface v) s = .next t ∧ (t.part v).tdisp = .unlocked ∧ ∀ k, k ≠ v → t.part k = s.part k) := by
  dsimp only [exec, execLockInterface, execStartInterface, execStopInterface]
  exact ⟨fun h => ⟨_, tdispMove_moves hv on (if_pos h), tdisp_moved s v .locked⟩, fun h => tdispMove_stays hv on (if_neg h),
    fun h => ⟨_, tdispMove_moves hv on (if_pos h), tdisp_moved s v .run⟩, fun h => tdispMove_stays hv on (if_neg h),
    ⟨_, tdispMove_moves hv on rfl, tdisp_moved s v .unlocked⟩⟩

/-- Settles O60, clause by clause: what stops and kills leave standing gives the clauses of an IDE failure and of a reset of a
function. -/
theorem startPowerAndErrorsTakeEffect : Obligations.StartPowerAndErrorsTakeEffect := by
  refine ⟨fun s v hv on => ?_, fun s ports => ?_, fun s => ?_, fun s die power temp hd => ?_, ?_, fun s pa hbm => ?_⟩
  · obtain ⟨lock, unlocked, start, started, stop⟩ := tdisp_effects hv on
    have inside : ¬(64 ≤ v ∨ s.stage = .off) := not_or.2 ⟨Nat.not_le.2 hv, on⟩
    refine ⟨lock, unlocked, start, started, stop, ?_, fun h => if_pos (.inr h), fun r => if_neg (not_or.2 ⟨on, by omega⟩)⟩
    refine ⟨fun run => ⟨s.enterError v, if_neg (not_or.2 ⟨Nat.not_le.2 hv, not_not_intro run⟩), tdisp_enterError s v,
      (enterError_ends s v).clauses⟩, ⟨_, if_neg inside, ?_, ?_, (flr_ends s v _).clauses⟩⟩
    · rw [part_updPart_self]
    · rw [part_updPart_self]
      rfl
  · exact ⟨fun off => if_pos off, fun on => if_neg on, fun camp awake =>
      ⟨if_neg (not_or.2 ⟨not_not_intro camp, awake⟩), summitComplete_ready camp awake ports⟩, fun h => if_pos (.inl h)⟩
  · exact ⟨perstAssertion_empties s, powerStatePs3_empties, fun deep => if_pos deep,
      fun light ready => (if_neg light).trans (mailReady_ready ready _), fun ready idle => ⟨sleep_idle ready idle _, sleep_idle ready idle _⟩⟩
  · refine ⟨fun above => ⟨_, powerAlarmRaise_above hd above, alarm_updDie s die true⟩, powerAlarmRaise_below,
      fun low cold => ⟨_, if_pos ⟨hd, low, cold⟩, alarm_updDie s die false⟩, fun high => if_neg (by omega), fun hot first => if_neg ?_,
      fun cold => if_pos (.inl cold)⟩
    simp [first, hot]
  · intro s die core quarter mac col hd hc hq hm hcol idle q
    have readback := macroReadback_idle hd hc hq hm hcol idle
    refine ⟨readback .clean, ⟨_, readback .corrected, corrections_updDie s die, rfl, rfl⟩, fun kb hkb =>
      ⟨_, (readback (.uncorrectable kb)).trans (if_neg (Nat.not_le.2 hkb)),
        ⟨rd_wr_self false s.invs _ true, fun k hk => rd_wr_ne false s.invs true hk⟩, rfl, rfl⟩⟩
  · refine ⟨patrolScrub_hbm hbm .clean, ⟨_, patrolScrub_hbm hbm .corrected, corrections_updDie s _, rfl, rfl⟩, fun n =>
      ⟨_, patrolScrub_hbm hbm (.uncorrectable n), ?_, rfl, fun x hx => ?_⟩⟩
    · rw [poisoned_mark, decide_eq_true rfl, Bool.or_true]
    · rw [poisoned_mark, decide_eq_false hx, Bool.or_false]

end Sys2Proof.Machine
end
